-- ==== Sys2Proof/Word.lean ====
section
/-!
DEFINITION. Words of the 4120 and their plainest arithmetic: widths, the byte order of R4, extension (R7).
-/
namespace Sys2Proof

/-- One byte of memory. -/
abbrev Byte := BitVec 8
/-- One 32-bit register name or instruction word (R75, R49). -/
abbrev Word := BitVec 32
/-- A 64-bit pair value or an address (R75, R101). -/
abbrev DWord := BitVec 64
/-- One bit per lane of a warp; W is 32 on this part (R18). -/
abbrev Mask := BitVec 32

/-- The value whose little-endian bytes are `bs`, byte 0 at the lowest address (R4). -/
def leNat : List Byte → Nat
  | [] => 0
  | b :: bs => b.toNat + 256 * leNat bs

/-- The `n` little-endian bytes of `v` (R4). -/
def natLe : Nat → Nat → List Byte
  | 0, _ => []
  | n + 1, v => BitVec.ofNat 8 v :: natLe n (v / 256)

/-- Bits `hi : lo` of `v` (R4's notation). -/
def bitsOf (v hi lo : Nat) : Nat := (v >>> lo) % 2 ^ (hi + 1 - lo)

/-- The integer a `w`-bit pattern denotes in two's complement. -/
def sIntOf (w v : Nat) : Int := if v % 2 ^ w < 2 ^ (w - 1) then (v % 2 ^ w : Nat) else ((v % 2 ^ w : Nat) : Int) - (2 ^ w : Nat)

/-- An exact integer reduced to `w` bits (R7: the slice of an exact value). -/
def wrapNat (w : Nat) (x : Int) : Nat := (x % ((2 ^ w : Nat) : Int)).toNat

/-- `ceil(a / b)` for `b > 0`. -/
def ceilDiv (a b : Nat) : Nat := (a + b - 1) / b

/-- `a` rounded up to a multiple of `b`. -/
def roundUp (a b : Nat) : Nat := ceilDiv a b * b

theorem natLe_length (n v : Nat) : (natLe n v).length = n := by
  induction n generalizing v with
  | zero => rfl
  | succ n ih => simp [natLe, ih]

theorem leNat_natLe (n v : Nat) : leNat (natLe n v) = v % 256 ^ n := by
  induction n generalizing v with
  | zero => simp [leNat, natLe, Nat.mod_one]
  | succ n ih =>
    have h : (256 : Nat) ^ (n + 1) = 256 * 256 ^ n := by rw [Nat.pow_succ, Nat.mul_comm]
    simp [leNat, natLe, ih, h, Nat.mod_mul]

end Sys2Proof
end

