-- ==== Sys2Proof/Syntax.lean ====
section
/-!
DEFINITION. The instructions and events of spec/opcode_table.json: one constructor of `Instr` per row. An instruction row carries
the fields of its form (R49 to R55); an event row carries the operands that say where it happens.
-/
namespace Sys2Proof

/-- The guard fields every form carries (R50): GS, the sense, and GP, the predicate. -/
structure Guard where
  gs : Bool
  gp : BitVec 3
  deriving DecidableEq, Repr

/-- C32-R, bits 31:14 as B, A, D (R52). -/
structure C32R where
  g : Guard
  d : BitVec 6
  a : BitVec 6
  b : BitVec 6
  deriving DecidableEq, Repr

/-- C32-I, bits 31:14 as I12, D (R52). -/
structure C32I where
  g : Guard
  d : BitVec 6
  imm : BitVec 12
  deriving DecidableEq, Repr

/-- C32-J, bits 31:14 as J18 (R52). -/
structure C32J where
  g : Guard
  j : BitVec 18
  deriving DecidableEq, Repr

/-- L64 (R54); `lit` is word 1. -/
structure L64 where
  g : Guard
  d : BitVec 8
  a : BitVec 8
  la : Bool
  w : Bool
  lit : BitVec 32
  deriving DecidableEq, Repr

/-- X96 (R55): words 0, 1 and 2. -/
structure X96 where
  g : Guard
  d : BitVec 8
  a : BitVec 8
  la : Bool
  lb : Bool
  b : BitVec 8
  c : BitVec 8
  lc : Bool
  ixa : Bool
  ixb : Bool
  ixc : Bool
  bkd : Bool
  bka : Bool
  bkb : Bool
  bkc : Bool
  op7 : BitVec 7
  immb : Bool
  rm : BitVec 3
  sat : Bool
  type : BitVec 4
  scope : BitVec 3
  acq : Bool
  rel : Bool
  res : BitVec 3
  imm16 : BitVec 16
  deriving DecidableEq, Repr

/-- The forms longer than C32: L64, X96, or X160, which is the X96 words and a 64-bit literal (R49, R55). -/
inductive Long where
  | l (x : L64)
  | x (x : X96)
  | y (x : X96) (lit : BitVec 64)
  deriving DecidableEq, Repr

/-- What the detecting unit knows of a hardware error (R412, R413, R442). -/
structure ErrorReport where
  /-- Error class 0 to 23. -/
  cls : Nat
  /-- Detecting compute die, or the die named beside CK. -/
  die : Nat
  /-- Detected on CK: the class takes its reset severity (R413). -/
  onCK : Bool
  /-- Die-local core the error is attributed to. -/
  core : Nat
  /-- Team slot on that core, for classes whose kill scope is a team. -/
  slot : Nat
  /-- Context the error is attributed to. -/
  ctx : Nat
  /-- Launch tag, or zero. -/
  tag : BitVec 64
  /-- Class-specific detail; none where the manual gives none. -/
  detail : Option (BitVec 32)
  deriving DecidableEq, Repr

/-- An access that arrives from a peer package (R432). -/
structure PeerAccess where
  link : Nat
  offset : Nat
  /-- `some bytes` writes them; `none` reads `len` bytes. -/
  data : Option (List (BitVec 8))
  len : Nat
  deriving DecidableEq, Repr

/-- A request for an attestation report (R437). -/
structure AttRequest where
  kind : Nat
  nonce : BitVec 256
  tag : BitVec 64
  addr : BitVec 64
  deriving DecidableEq, Repr

/-- Operands of an event row: where it happens. An event uses the fields its constructor's text names. -/
structure EvArgs where
  die : Nat := 0
  core : Nat := 0
  warp : Nat := 0
  gang : Nat := 0
  lane : Nat := 0
  n : Nat := 0
  k : Nat := 0
  v : BitVec 64 := 0
  deriving DecidableEq, Repr

/-- One constructor per row of spec/opcode_table.json: the instructions with the fields of their form, then the events, whose
operands stand in State.ev (a constructor with fields has a place below 245, which is what Lean compiles). -/
inductive Instr where
  /-- NOP (R343): Does nothing. -/
  | nop (x : C32R)
  /-- BR_C32 (R335): Branches by an 18-bit word displacement, uniformly or per thread under a guard. -/
  | brC32 (x : C32J)
  /-- BR_L64 (R335): Branches by a 32-bit word displacement. -/
  | brL64 (x : L64)
  /-- BRI_C32 (R336): Branches to the address in a register pair, splitting groups one after another. -/
  | briC32 (x : C32R)
  /-- BRI (R336): X96 form of the indirect branch. -/
  | bri (x : X96)
  /-- CALL_C32 (R337): Pushes a call entry and branches by displacement. -/
  | callC32 (x : C32J)
  /-- CALL_L64 (R337): L64 form of CALL. -/
  | callL64 (x : L64)
  /-- CALLI_C32 (R337): Indirect call through a register pair. -/
  | calliC32 (x : C32R)
  /-- CALLI (R337): X96 form of the indirect call. -/
  | calli (x : X96)
  /-- RET (R337): Pops a call entry and returns to its address. -/
  | ret (x : C32R)
  /-- JOIN (R338): Applies the join action to the top split entry of each slice. -/
  | join (x : C32R)
  /-- YIELD (R339): Exchanges the running and deferred paths and moves the gang to the back of its way's issue order. -/
  | yield (x : C32R)
  /-- REGANG_C32 (R341): Stalls until the named slices meet and merges them into one gang. -/
  | regangC32 (x : C32I)
  /-- REGANG (R341): X96 form of REGANG with a register or immediate mask. -/
  | regang (x : X96)
  /-- REGROUP_C32 (R342): Fuses two warps of a team into the lower one. -/
  | regroupC32 (x : C32R)
  /-- REGROUP (R342): X96 form of REGROUP. -/
  | regroup (x : X96)
  /-- EXIT (R340): Ends each active thread whose guard passes. -/
  | exit (x : C32R)
  /-- BKPT (R343): Takes the breakpoint trap. -/
  | bkpt (x : C32R)
  /-- SLEEP (R343): Stalls the gang for a count of die cycles. -/
  | sleep (x : X96)
  /-- SPAWN (R369): Checks spawn entries and enters one thread per active thread after the store queue drains. -/
  | spawn (x : Long)
  /-- TLAUNCH (R370): Records a child launch on a subgroup and writes its tag. -/
  | tlaunch (x : X96)
  /-- BARA_C32 (R366): Arrives at a named barrier with a count of k times W. -/
  | baraC32 (x : C32I)
  /-- BARA (R366): X96 form: arrives at a named barrier with an explicit count. -/
  | bara (x : X96)
  /-- BARW_C32 (R366): Waits at a named barrier. -/
  | barwC32 (x : C32I)
  /-- BARW (R366): X96 form of BARW. -/
  | barw (x : X96)
  /-- BARS_C32 (R366): Arrives at a named barrier and waits. -/
  | barsC32 (x : C32I)
  /-- BARS (R366): X96 form of BARS. -/
  | bars (x : X96)
  /-- RBAR (R368): Arrives at a rectangle barrier over a subgroup of a one-per-core launch. -/
  | rbar (x : X96)
  /-- ELECT (R295): Sets a predicate true in the lowest active thread only. -/
  | elect (x : C32R)
  /-- QUARTER (R384): Ends a bounds thread with an event, quartering or handing off its tile. -/
  | quarter (x : C32R)
  /-- HANDOFF_C32 (R385): Ends a bounds thread and hands its tile to element threads. -/
  | handoffC32 (x : C32R)
  /-- HANDOFF (R385): X96 form of HANDOFF with a payload register. -/
  | handoff (x : X96)
  /-- IADD_C32 (R242): Integer add. -/
  | iaddC32 (x : C32R)
  /-- IADD (R242): Integer add in L64, X96 or X160 form. -/
  | iadd (x : Long)
  /-- ISUB_C32 (R242): Integer subtract. -/
  | isubC32 (x : C32R)
  /-- ISUB (R242): Integer subtract in longer forms. -/
  | isub (x : Long)
  /-- IADDX (R243): Add with carry in and carry out. -/
  | iaddx (x : X96)
  /-- ISUBX (R243): Subtract with borrow in and carry out. -/
  | isubx (x : X96)
  /-- IMUL_C32 (R244): Integer multiply. -/
  | imulC32 (x : C32R)
  /-- IMUL (R244): Integer multiply in longer forms. -/
  | imul (x : Long)
  /-- IMULH_C32 (R244): High half of an integer product. -/
  | imulhC32 (x : C32R)
  /-- IMULH (R244): X96 form of IMULH. -/
  | imulh (x : X96)
  /-- IMULW (R244): Widening integer multiply. -/
  | imulw (x : X96)
  /-- IMAD (R244): Integer multiply-add. -/
  | imad (x : Long)
  /-- IDIV (R245): Integer divide truncating toward zero. -/
  | idiv (x : X96)
  /-- IREM (R245): Integer remainder. -/
  | irem (x : X96)
  /-- INEG_C32 (R242): Integer negate. -/
  | inegC32 (x : C32R)
  /-- INEG (R242): X96 form of INEG. -/
  | ineg (x : X96)
  /-- IABS_C32 (R242): Integer absolute value. -/
  | iabsC32 (x : C32R)
  /-- IABS (R242): X96 form of IABS. -/
  | iabs (x : X96)
  /-- IMIN_C32 (R242): Integer minimum. -/
  | iminC32 (x : C32R)
  /-- IMIN (R242): Integer minimum in longer forms. -/
  | imin (x : Long)
  /-- IMAX_C32 (R242): Integer maximum. -/
  | imaxC32 (x : C32R)
  /-- IMAX (R242): Integer maximum in longer forms. -/
  | imax (x : Long)
  /-- ISAD (R242): Absolute difference plus C. -/
  | isad (x : X96)
  /-- ICLAMP (R242): Integer clamp. -/
  | iclamp (x : Long)
  /-- IDOT (R244): Packed integer dot product with accumulate. -/
  | idot (x : X96)
  /-- AND_C32 (R246): Bitwise AND. -/
  | andC32 (x : C32R)
  /-- AND (R246): Bitwise AND in longer forms. -/
  | and (x : Long)
  /-- OR_C32 (R246): Bitwise OR. -/
  | orC32 (x : C32R)
  /-- OR (R246): Bitwise OR in longer forms. -/
  | or (x : Long)
  /-- XOR_C32 (R246): Bitwise XOR. -/
  | xorC32 (x : C32R)
  /-- XOR (R246): Bitwise XOR in longer forms. -/
  | xor (x : Long)
  /-- NOT_C32 (R246): Bitwise NOT. -/
  | notC32 (x : C32R)
  /-- NOT (R246): X96 form of NOT. -/
  | not (x : X96)
  /-- ANDN_C32 (R246): A AND NOT B. -/
  | andnC32 (x : C32R)
  /-- ANDN (R246): ANDN in longer forms. -/
  | andn (x : Long)
  /-- TERN (R246): Three-input bitwise function by lookup table. -/
  | tern (x : X96)
  /-- SHL_C32 (R247): Logical shift left. -/
  | shlC32 (x : C32R)
  /-- SHL (R247): X96 form of SHL. -/
  | shl (x : X96)
  /-- SHR_C32 (R247): Logical shift right. -/
  | shrC32 (x : C32R)
  /-- SHR (R247): X96 form of SHR. -/
  | shr (x : X96)
  /-- SAR_C32 (R247): Arithmetic shift right. -/
  | sarC32 (x : C32R)
  /-- SAR (R247): X96 form of SAR. -/
  | sar (x : X96)
  /-- ROL_C32 (R247): Rotate left. -/
  | rolC32 (x : C32R)
  /-- ROL (R247): X96 form of ROL. -/
  | rol (x : X96)
  /-- FUNS (R247): Funnel shift of two words. -/
  | funs (x : X96)
  /-- BFX (R248): Bit-field extract. -/
  | bfx (x : X96)
  /-- BFI (R248): Bit-field insert. -/
  | bfi (x : X96)
  /-- BREV_C32 (R249): Bit reverse. -/
  | brevC32 (x : C32R)
  /-- BREV (R249): X96 form of BREV. -/
  | brev (x : X96)
  /-- BPERM (R249): Byte permute with sign replication. -/
  | bperm (x : X96)
  /-- POPC_C32 (R249): Population count. -/
  | popcC32 (x : C32R)
  /-- POPC (R249): X96 form of POPC. -/
  | popc (x : X96)
  /-- CLZ_C32 (R249): Count leading zeros. -/
  | clzC32 (x : C32R)
  /-- CLZ (R249): X96 form of CLZ. -/
  | clz (x : X96)
  /-- CTZ_C32 (R249): Count trailing zeros. -/
  | ctzC32 (x : C32R)
  /-- CTZ (R249): X96 form of CTZ. -/
  | ctz (x : X96)
  /-- IEXT (R250): Sign- or zero-extends a narrow value. -/
  | iext (x : X96)
  /-- ICMP (R251): Integer compare into a predicate, with an optional combine. -/
  | icmp (x : X96)
  /-- ISEL (R252): Selects A or B by predicate. -/
  | isel (x : X96)
  /-- LEA (R253): Forms a 64-bit address without access. -/
  | lea (x : Long)
  /-- PAND (R254): Predicate AND. -/
  | pand (x : X96)
  /-- POR (R254): Predicate OR. -/
  | por (x : X96)
  /-- PXOR (R254): Predicate XOR. -/
  | pxor (x : X96)
  /-- PNOT (R254): Predicate NOT. -/
  | pnot (x : X96)
  /-- PSET (R255): Sets predicates from register fields. -/
  | pset (x : X96)
  /-- PGET (R255): Moves predicates into a register. -/
  | pget (x : X96)
  /-- MOV_C32 (R211): Copies one register. -/
  | movC32 (x : C32R)
  /-- MOV (R211): X96 form of MOV. -/
  | mov (x : X96)
  /-- MOVI_C32 (R212): Writes a sign-extended 12-bit constant. -/
  | moviC32 (x : C32I)
  /-- MOVI (R212): X96 form of MOVI. -/
  | movi (x : X96)
  /-- MOVL (R213): Writes a 32-bit or 64-bit literal. -/
  | movl (x : Long)
  /-- SRD (R214): Reads a special register. -/
  | srd (x : X96)
  /-- SWR (R215): Writes FPMODE, FPFLAGS, IX or EXEC. -/
  | swr (x : X96)
  /-- REGION (R206): Declares the operand-buffer working set. -/
  | region (x : Long)
  /-- PERM (R257): Cross-lane permute. -/
  | perm (x : X96)
  /-- SHIFTW_C32 (R257): Cross-lane shift. -/
  | shiftwC32 (x : C32R)
  /-- SHIFTW (R257): X96 form of SHIFTW. -/
  | shiftw (x : X96)
  /-- VOTE_C32 (R258): Ballot of a predicate across available lanes. -/
  | voteC32 (x : C32R)
  /-- VOTE (R258): X96 form: ballot, any, all or uni. -/
  | vote (x : X96)
  /-- RSTEP (R260): One butterfly reduction step. -/
  | rstep (x : X96)
  /-- BCAST_C32 (R257): Broadcasts a lane's value. -/
  | bcastC32 (x : C32R)
  /-- BCAST (R257): X96 form of BCAST. -/
  | bcast (x : X96)
  /-- MATCH (R258): Mask of lanes holding equal bits. -/
  | matchLanes (x : X96)
  /-- REDW (R261): Reduces over the available lanes along a fixed tree. -/
  | redw (x : X96)
  /-- SCANW (R261): Inclusive or exclusive scan over the available lanes. -/
  | scanw (x : X96)
  /-- FADD_C32 (R266): Floating add. -/
  | faddC32 (x : C32R)
  /-- FADD (R266): Floating add in longer forms. -/
  | fadd (x : Long)
  /-- FSUB_C32 (R266): Floating subtract. -/
  | fsubC32 (x : C32R)
  /-- FSUB (R266): Floating subtract in longer forms. -/
  | fsub (x : Long)
  /-- FMUL_C32 (R266): Floating multiply. -/
  | fmulC32 (x : C32R)
  /-- FMUL (R266): Floating multiply in longer forms. -/
  | fmul (x : Long)
  /-- FMA (R266): Fused multiply-add with one rounding. -/
  | fma (x : Long)
  /-- FMIN_C32 (R267): Floating minimum. -/
  | fminC32 (x : C32R)
  /-- FMIN (R267): X96 form of FMIN. -/
  | fmin (x : X96)
  /-- FMAX_C32 (R267): Floating maximum. -/
  | fmaxC32 (x : C32R)
  /-- FMAX (R267): X96 form of FMAX. -/
  | fmax (x : X96)
  /-- FCMP (R271): Floating compare into a predicate. -/
  | fcmp (x : X96)
  /-- FCLASS (R272): Writes a class mask. -/
  | fclass (x : X96)
  /-- FABS_C32 (R270): Clears the sign bit. -/
  | fabsC32 (x : C32R)
  /-- FABS (R270): X96 form of FABS. -/
  | fabs (x : X96)
  /-- FNEG_C32 (R270): Inverts the sign bit. -/
  | fnegC32 (x : C32R)
  /-- FNEG (R270): X96 form of FNEG. -/
  | fneg (x : X96)
  /-- FSGN (R270): Copies, negates or XORs a sign. -/
  | fsgn (x : X96)
  /-- FRND (R273): Rounds to an integral value. -/
  | frnd (x : X96)
  /-- FSCALE (R273): Multiplies by a power of two. -/
  | fscale (x : X96)
  /-- FLOGB (R273): Floor of log2 of the magnitude. -/
  | flogb (x : X96)
  /-- FADD2 (R268): Packed add of two 16-bit elements. -/
  | fadd2 (x : X96)
  /-- FMUL2 (R268): Packed multiply. -/
  | fmul2 (x : X96)
  /-- FMA2 (R268): Packed fused multiply-add. -/
  | fma2 (x : X96)
  /-- FDOT (R269): Short dot product into FP32 with one rounding. -/
  | fdot (x : X96)
  /-- FDIV (R274): Correctly rounded division. -/
  | fdiv (x : X96)
  /-- FSQRT (R274): Correctly rounded square root. -/
  | fsqrt (x : X96)
  /-- FRCP (R274): Correctly rounded reciprocal. -/
  | frcp (x : X96)
  /-- FRSQ (R274): Correctly rounded reciprocal square root. -/
  | frsq (x : X96)
  /-- FEXP (R274): Correctly rounded exponential. -/
  | fexp (x : X96)
  /-- FEXPM1 (R274): Correctly rounded e^A - 1. -/
  | fexpm1 (x : X96)
  /-- FLOG (R274): Correctly rounded natural logarithm. -/
  | flog (x : X96)
  /-- FLOG1P (R274): Correctly rounded ln(1 + A). -/
  | flog1p (x : X96)
  /-- FERF (R274): Correctly rounded error function. -/
  | ferf (x : X96)
  /-- FERFC (R274): Correctly rounded complementary error function. -/
  | ferfc (x : X96)
  /-- CVT (R276): Converts between floating formats. -/
  | cvt (x : X96)
  /-- CVTI (R276): Converts from floating to integer. -/
  | cvti (x : X96)
  /-- CVTF (R276): Converts from integer to floating. -/
  | cvtf (x : X96)
  /-- PACKN (R278): Converts and packs several narrow values. -/
  | packn (x : X96)
  /-- QNT (R279): Quantises a block into E2M1 codes with scales. -/
  | qnt (x : X96)
  /-- DQNT (R280): Expands a quantised block. -/
  | dqnt (x : X96)
  /-- RND (R283): Draws Drizzle words. -/
  | rnd (x : X96)
  /-- RNDF (R283): Draws a uniform float in [0, 1). -/
  | rndf (x : X96)
  /-- RNDM (R283): Draws a Bernoulli predicate. -/
  | rndm (x : X96)
  /-- IVMK (R386): Widens a value to a hull. -/
  | ivmk (x : X96)
  /-- IVLO (R386): Exposes an interval's low endpoint. -/
  | ivlo (x : X96)
  /-- IVHI (R386): Exposes an interval's high endpoint. -/
  | ivhi (x : X96)
  /-- LD (R223): Per-thread load from virtual memory. -/
  | ld (x : Long)
  /-- ST (R223): Per-thread store to virtual memory. -/
  | st (x : Long)
  /-- LDS_C32 (R223): Scratchpad load. -/
  | ldsC32 (x : C32R)
  /-- LDS (R223): X96 form of LDS. -/
  | lds (x : X96)
  /-- STS_C32 (R223): Scratchpad store. -/
  | stsC32 (x : C32R)
  /-- STS (R223): X96 form of STS. -/
  | sts (x : X96)
  /-- LDW (R223): Window load at a named core of the cluster. -/
  | ldw (x : X96)
  /-- STW (R223): Window store at a named core. -/
  | stw (x : X96)
  /-- SLD (R223): Load once for the warp into a uniform register. -/
  | sld (x : Long)
  /-- SST (R223): Store once for the warp from a uniform register. -/
  | sst (x : Long)
  /-- LDWT (R223): Load from the die's weight store. -/
  | ldwt (x : X96)
  /-- LDSM (R227): Reads an element or an index-range hull through a summary. -/
  | ldsm (x : X96)
  /-- STF (R226): Fill-stores one value over the thread's tile. -/
  | stf (x : X96)
  /-- CSTORE (R224): Compress-stores the active threads' data. -/
  | cstore (x : X96)
  /-- XLOAD (R224): Expand-loads consecutive elements over the active threads. -/
  | xload (x : X96)
  /-- ATOM (R229): Returning atomic on memory. -/
  | atom (x : X96)
  /-- ATOMS (R229): Returning atomic on scratchpad. -/
  | atoms (x : X96)
  /-- ATOMW (R229): Returning atomic at a window core. -/
  | atomw (x : X96)
  /-- RED (R229): Non-returning reduction on memory. -/
  | red (x : X96)
  /-- REDS (R229): Non-returning reduction on scratchpad. -/
  | reds (x : X96)
  /-- CAS (R230): Bitwise compare-and-swap. -/
  | cas (x : X96)
  /-- FENCE_C32 (R233): FENCE.warp: raises the warp's floor. -/
  | fenceC32 (x : C32R)
  /-- FENCE (R233): X96 fence at a scope from warp to system. -/
  | fence (x : X96)
  /-- PREF (R234): Prefetches a sector into the core view or cache slice. -/
  | pref (x : X96)
  /-- PROBE (R235): Load that reports failure in a predicate instead of faulting. -/
  | probe (x : X96)
  /-- CCTL_EV (R236): Evicts the addressed sector's copy from the core view. -/
  | cctlEv (x : X96)
  /-- CCTL_EVALL (R236): Evicts every copy from the core view. -/
  | cctlEvall (x : X96)
  /-- CPY (R163): Enters copy tasks from records in registers. -/
  | cpy (x : Long)
  /-- KICK_C32 (R164): Enters copy tasks from records in scratchpad. -/
  | kickC32 (x : C32R)
  /-- KICK (R164): X96 form of KICK. -/
  | kick (x : X96)
  /-- BOINIT (R146): Tags and initialises a barrier object. -/
  | boinit (x : X96)
  /-- BOEXP (R146): Adds expected bytes to a barrier object. -/
  | boexp (x : X96)
  /-- BOARR (R146): Makes arrivals on a barrier object. -/
  | boarr (x : X96)
  /-- BOWAIT_C32 (R147): Waits for a barrier object's phase to differ from the given parity. -/
  | bowaitC32 (x : C32R)
  /-- BOWAIT (R147): X96 form of BOWAIT, with acquire or .try. -/
  | bowait (x : X96)
  /-- BOFREE (R146): Untags a barrier object. -/
  | bofree (x : X96)
  /-- DRAIN (R165): Stalls until the earlier tasks writing the named spaces have completed. -/
  | drain (x : X96)
  /-- REDUCE (R166): Enters a tree-reduction task. -/
  | reduce (x : X96)
  /-- SUMM (R168): Enters a min-max summary pyramid task. -/
  | summ (x : X96)
  /-- MMA (R298): Enters a matrix product task, possibly pair-issued or speculative. -/
  | mma (x : Long)
  /-- RSV (R302): Creates a format-buffer reservation. -/
  | rsv (x : X96)
  /-- RSVFREE_C32 (R302): Frees a reservation. -/
  | rsvfreeC32 (x : C32R)
  /-- RSVFREE (R302): X96 form of RSVFREE. -/
  | rsvfree (x : X96)
  /-- OBLD (R303): Enters a task that fills part of a reservation. -/
  | obld (x : X96)
  /-- ACCRD (R305): Reads committed accumulator cells or strip status into registers. -/
  | accrd (x : X96)
  /-- ACCST (R306): Enters a task that stores an accumulator rectangle. -/
  | accst (x : X96)
  /-- ACCZ_TAKE (R304): Takes ownership of accumulator strips and clears them. -/
  | acczTake (x : X96)
  /-- ACCZ_GIVE (R304): Gives up accumulator strips. -/
  | acczGive (x : X96)
  /-- ACCZ_CLR (R304): Clears a committed accumulator rectangle. -/
  | acczClr (x : X96)
  /-- RESOLVE_C32 (R307): Commits or discards a speculation token. -/
  | resolveC32 (x : C32R)
  /-- RESOLVE (R307): X96 form of RESOLVE. -/
  | resolve (x : X96)
  /-- SQLOAD (R402): Loads a method table into a sequencer slot. -/
  | sqload (x : X96)
  /-- SQSTART (R402): Starts a solver run, stalling while the sequencer is busy. -/
  | sqstart (x : X96)
  /-- SQWAIT (R402): Waits for a run to end and reads its status. -/
  | sqwait (x : X96)
  /-- SQSTAT (R402): Reads a run's status without waiting. -/
  | sqstat (x : X96)
  /-- SQABORT (R402): Stops a run from starting further stages. -/
  | sqabort (x : X96)
  /-- MSEND (R134): Sends active messages to handler threads on named cores. -/
  | msend (x : Long)
  /-- WITN (R323): Appends a witness to the launch or its root. -/
  | witn (x : X96)
  /-- WSTAT_REG (R324): Reads a region's newest version and its state. -/
  | wstatReg (x : X96)
  /-- WSTAT_ATT (R324): Reads a region's newest attested version. -/
  | wstatAtt (x : X96)
  /-- TRAP_C32 (R411): Takes the software trap with an 8-bit code. -/
  | trapC32 (x : C32I)
  /-- TRAP (R411): X96 form of TRAP. -/
  | trap (x : X96)
  /-- RTE_REP (R411): Leaves handler mode and replays the trapped instruction for its uncompleted threads. -/
  | rteRep (x : C32R)
  /-- RTE_SKIP (R411): Leaves handler mode and continues after the trapped instruction. -/
  | rteSkip (x : C32R)
  /-- CSRR (R411): Reads a supervisor register. -/
  | csrr (x : X96)
  /-- CSRW (R411): Writes a supervisor register that has no row of its own, under its access codes; forbidden writes append firmware-bound violations. -/
  | csrw (x : X96)
  /-- HALT (R411): Kills the team in handler mode, or stops a firmware core until die reset. -/
  | halt (x : C32R)
  /-- TLBI_ALL (R411): Drops every TLB and walk-cache entry package-wide and waits for accesses that used them. -/
  | tlbiAll (x : X96)
  /-- TLBI_CTX (R411): Drops the non-global entries of a context. -/
  | tlbiCtx (x : X96)
  /-- TLBI_PAGE (R411): Drops the entries covering one address of a context, including global ones. -/
  | tlbiPage (x : X96)
  /-- WAITI (R411): Stalls a firmware core until an enabled interrupt is pending. -/
  | waiti (x : C32R)
  /-- ERROR_DETECTED (R413): A hardware error takes its class's severity: it is ignored, logged, interrupts, kills its team or context, or resets the die. -/
  | errorDetected (err : ErrorReport)
  /-- KAUSH_INBOUND_ACCESS (R432): An access from a peer link reaches PWBASE + offset, or is refused and logged under class 23. -/
  | kaushInboundAccess (acc : PeerAccess)
  /-- ATTESTATION_REQUEST (R437): The host writes a device or launch report request to the mailbox. -/
  | attestationRequest (req : AttRequest)
  /-- PKGLIM (R441): SMBus command that reads or writes the package power limit, clamped to 3,300 W. -/
  | pkglim (write : Option Nat)
  /-- DIELIM (R441): SMBus command that reads or writes PLIM of a die. -/
  | dielim (die : Nat) (write : Option Nat)
  /-- ILLEGAL_INSTRUCTION (R67): A gang reaches fetched words that encode no instruction (unassigned opcode, wrong form, reserved bits and the like) and takes the precise illegal-instruction trap with the lowest detail code. -/
  | illegalInstruction (detail : Nat)
  /-- INSTRUCTION_FETCH_FAULT (R68): A gang's fetch of its next instruction words fails, for a non-canonical PC or a system address, and the gang takes the instruction-fetch trap before any decode. -/
  | instructionFetchFault (reason : Nat)
  /-- PACKAGE_POWER_ON (R433): Power reaches the package: CK loads and verifies the firmware image, then releases the four firmware cores into supervisor mode at physical address 0. -/
  | packagePowerOn
  /-- FIRMWARE_WATCHDOG_RESET (R433): A firmware-core watchdog reset reloads and re-verifies the firmware image; queue HEAD and TAIL on CK are kept. Operands in State.ev: die. -/
  | firmwareWatchdogReset
  /-- RECOVERY_MAILBOX_WRITE (R433): In recovery the host writes an image address and length to the mailbox; CK fetches, verifies and writes the image to flash. Operands in State.ev: v address, n length. -/
  | recoveryMailboxWrite
  /-- DIE_RESET (R128): A compute die is reset: its launches stop, their OPEN and PENDING outputs are discarded with their squash sets, and they are dispatched again on another die. Operands in State.ev: die. -/
  | dieReset
  /-- SQ_DOORBELL_WRITE (R427): A host write to SQDB advances the queue's TAIL when HEAD + 2^SRLOG >= V > TAIL, and is ignored otherwise. Operands in State.ev: n queue, v. -/
  | sqDoorbellWrite
  /-- CQ_DOORBELL_WRITE (R430): A host write to CQDB advances CQHEAD when larger than the last value and frees completion-ring slots. Operands in State.ev: n queue, v. -/
  | cqDoorbellWrite
  /-- QCOMMIT_WRITE (R429): The leader commits a queue control block; CK reads all 64 bytes at once and takes them only when GEN advances and every field is within limits. Operands in State.ev: die, v. -/
  | qcommitWrite
  /-- LAUNCH_RECORD_FETCH (R427): While HEAD < TAIL the front end fetches the record at HEAD from the submission ring and advances HEAD. Operands in State.ev: n queue. -/
  | launchRecordFetch
  /-- LAUNCH_DISPATCH (R118): A launch whose dependences are satisfied is dispatched: it takes all its staging frames, opens its output versions and binds every staged region. Operands in State.ev: n uid. -/
  | launchDispatch
  /-- QUAD_ADMISSION (R356): The die's launch scheduler picks a launch by priority, energy class and age and admits its next quad whole onto a cluster with room. Operands in State.ev: die. -/
  | quadAdmission
  /-- TEAM_RERUN_ADMISSION (R459): A discarded or killed idempotent team is admitted alone at its window position, ahead of quads of equal or lower priority. Operands in State.ev: n uid, k team index. -/
  | teamRerunAdmission
  /-- FORMED_WARP_ADMISSION (R357): A warp waiting in the formed-warp queue is admitted as a one-warp team once its core has room. Operands in State.ev: core. -/
  | formedWarpAdmission
  /-- BIN_TIMER_EXPIRY (R360): A bin's timer reaches zero and the bin forms a warp from its threads in arrival order. Operands in State.ev: core, n bin. -/
  | binTimerExpiry
  /-- AGGREGATOR_GROUP_CLOSE (R364): A group of merged child launches closes 256 cycles after its first member or at its 256th member and enters the scheduler as one launch. Operands in State.ev: die. -/
  | aggregatorGroupClose
  /-- LAUNCH_COMPLETION (R358): A launch whose spawn-tree counter is zero and which has no quad left to place completes, and its end flush at package scope begins. Operands in State.ev: n uid. -/
  | launchCompletion
  /-- WITNESS_SUBMISSION (R321): Once its end flush is complete a launch submits its witnesses to the checker; its outputs become PENDING. Operands in State.ev: n uid. -/
  | witnessSubmission
  /-- PROJ_CHECK (R315): The checker tests a projection witness row by row with a secret vector rho and the exact error bound. Operands in State.ev: n check. -/
  | projCheck
  /-- ORDER_CHECK (R317): The checker tests that the output is sorted and that its multiset hash equals the input's. Operands in State.ev: n check. -/
  | orderCheck
  /-- RESIDUAL_CHECK (R317): The checker tests the residual b - Ax of each column against tau, evaluated exactly. Operands in State.ev: n check. -/
  | residualCheck
  /-- PREFIX_CHECK (R317): The checker recomputes every scan step sequentially, requires bit equality and records the prefix digest. Operands in State.ev: n check. -/
  | prefixCheck
  /-- STEP_CHECK (R400): The checker recomputes each sample's error norm exactly and checks the decision, NORM and new H of a solver round. Operands in State.ev: n check. -/
  | stepCheck
  /-- SHADOW_MISMATCH (R317): The store-path comparator finds that a shadow lane differs from its primary: nothing is performed, the launch stops and its witness fails. Operands in State.ev: core, warp. -/
  | shadowMismatch
  /-- DUAL_COMPARISON (R317): Once both runs of a DUAL pair are done, the checker compares the SM3 digests of their outputs and system-write streams. Operands in State.ev: n uid. -/
  | dualComparison
  /-- RERUN_DISPATCH (R319): After a witness failure the launch runs again, up to three runs in all, on a rectangle away from the charged dies or under rotation. Operands in State.ev: n uid. -/
  | rerunDispatch
  /-- COMPLETION_RECORD_WRITE (R430): After its launch's last write, a completion record passes the gate and is written to the completion ring when there is room. Operands in State.ev: n uid. -/
  | completionRecordWrite
  /-- RELEASE_GATE_DELIVERY (R188): Once the launch's versions are attested and its witnesses have passed, G delivers its system writes to host or peer memory in order. Operands in State.ev: n uid; v not 0: the peer refuses (R432). -/
  | releaseGateDelivery
  /-- STORE_QUEUE_DRAIN (R176): The head entry of a warp's store queue leaves it for its scratchpad home, the core view and the outbound buffer. Operands in State.ev: core, warp. -/
  | storeQueueDrain
  /-- OUTBOUND_SEND (R177): An outbound-buffer entry leaves for its memory home, its window partner or the release gate, subject to its release. Operands in State.ev: core, n place in the buffer. -/
  | outboundSend
  /-- FETCH (R178): A core-view copy of a memory sector is taken from its home value and stamped with the core's CYCLE. Operands in State.ev: core, n sector. -/
  | fetch
  /-- EVICT (R178): One copy leaves the core view. Operands in State.ev: core, n sector. -/
  | evict
  /-- ENGINE_QUEUE_APPLY (R186): The head write of a task's engine queue is applied at its home and updates any core-view copy. Operands in State.ev: core, n task. -/
  | engineQueueApply
  /-- ATOMIC_PERFORM (R179): A returning atomic or CAS is performed as one step at its home once the warp's store queue is empty and no outbound entry covers its sector. Operands in State.ev: core, warp, gang, lane. -/
  | atomicPerform
  /-- WALK_COMPLETE (R108): A page-table walk ends and serves every miss coalesced on its page, or ends in a fault. Operands in State.ev: die, n context, k page. -/
  | walkComplete
  /-- ACCESS_COMPLETE (R109): A thread's memory access completes, writing the load destination or performing the store, and the instruction retires when all threads are done. Operands in State.ev: core, warp, gang, lane. -/
  | accessComplete
  /-- FQRETRY_WRITE (R112): Firmware writes a SEQ to FQRETRY and the suspended walk is retried with the tables as they now stand. Operands in State.ev: die, v. -/
  | fqretryWrite
  /-- FQDELIVER_WRITE (R112): Firmware writes a SEQ to FQDELIVER and the fault is delivered to the warp as a precise memory trap. Operands in State.ev: die, v. -/
  | fqdeliverWrite
  /-- FQHEAD_WRITE (R112): Firmware advances FQHEAD past entries it has read, and the write is taken only within the occupied range. Operands in State.ev: die, v. -/
  | fqheadWrite
  /-- FABRIC_REQUEST_ARRIVAL (R130): A request arrives at a memory slice: the first arrival is performed and filtered, and later copies are answered from the stored response. Operands in State.ev: n packet. -/
  | fabricRequestArrival
  /-- FABRIC_RESPONSE_ARRIVAL (R129): The source receives a response, keeps the first response for the tag and sends an acknowledgement with its highest copy number. Operands in State.ev: n packet. -/
  | fabricResponseArrival
  /-- FABRIC_ACK_ARRIVAL (R130): An acknowledgement reaches the slice, and the filter entry is freed once every counted copy has arrived. Operands in State.ev: n packet. -/
  | fabricAckArrival
  /-- RETRANSMIT_TIMER_EXPIRY (R129): No response within 4,096 cycles: the source resends with the next copy number, up to 8 times. Operands in State.ev: n exchange. -/
  | retransmitTimerExpiry
  /-- MESSAGE_ARRIVAL (R135): An active message reaches its core and places one handler thread in the bin keyed by launch and handler. Operands in State.ev: core, n message. -/
  | messageArrival
  /-- SPAWN_PLACEMENT (R369): After the warp's store queue drains, SPAWN places one thread per active thread into the core's bins and raises the counter. Operands in State.ev: core, warp, gang. -/
  | spawnPlacement
  /-- QUARTER_EVENT (R379): After the ending thread's store queue drains, four child bounds threads are placed and the counter rises by 4. Operands in State.ev: core, n event. -/
  | quarterEvent
  /-- HANDOFF_GROUP_PLACE (R381): A group of up to 4,096 element threads of a handed-off tile is placed in ascending linear index. Operands in State.ev: core, n event. -/
  | handoffGroupPlace
  /-- TASK_START (R151): An engine starts a READY task in table order, up to 8 at once for the copy engine and one for each other engine. Operands in State.ev: core, n task. -/
  | taskStart
  /-- COPY_SECTOR_LAND (R142): A copy sector lands and subtracts its bytes from the signal object's PENDB, which may complete the phase. Operands in State.ev: core, n task. -/
  | copySectorLand
  /-- TASK_COMPLETE (R153): A task's writes are performed, its signal is applied or held, and its entry is freed. Operands in State.ev: core, n task. -/
  | taskComplete
  /-- REFRESH_SLOT_END (R113): A 256-cycle refresh slot ends, the next bank begins refreshing, and stalled reads to the freed bank are served. Operands in State.ev: die. -/
  | refreshSlotEnd
  /-- WEIGHT_WRITE_WINDOW_OPEN (R115): When the last declaring launch on a die completes, the pending copies into the weight store are performed. Operands in State.ev: die. -/
  | weightWriteWindowOpen
  /-- WEIGHT_STORE_DIGEST_CHECK (R115): The checker digests the written store and records a new generation, or marks the store unusable on a mismatch. Operands in State.ev: die. -/
  | weightStoreDigestCheck
  /-- SLEEP_EXPIRY (R343): The cycle count of a SLEEP runs out and the gang becomes ready. Operands in State.ev: core, warp, gang. -/
  | sleepExpiry
  /-- BOWAIT_SATISFIED (R147): The last active thread of a stalled BOWAIT is satisfied, and the gang returns with acquire if requested. Operands in State.ev: core, warp, gang. -/
  | bowaitSatisfied
  /-- REGANG_MERGE (R341): Every live named slice stands at the same REGANG, and the slices form one gang. Operands in State.ev: core, warp, gang. -/
  | regangMerge
  /-- REGROUP_FUSION (R342): Both partners stand at matching REGROUPs and fuse into the lower warp, with live threads migrating lane by lane. Operands in State.ev: core, warp, k partner. -/
  | regroupFusion
  /-- TEAM_SAVE (R422): A pre-empted team is quiesced, stopped at instruction boundaries and copied to the save pool, freeing its core. Operands in State.ev: core, n slot. -/
  | teamSave
  /-- TEAM_RESTORE (R423): A saved quad returns whole to a cluster with room, and its stamps and floor restart. Operands in State.ev: n uid, k quad. -/
  | teamRestore
  /-- PREEMPT_SAVE (R421): A PREEMPT write in mode 0 saves the named team. Operands in State.ev: core, n slot. -/
  | preemptSave
  /-- PREEMPT_DRAIN (R421): A PREEMPT write in mode 1 stops admissions to the team's core until the team ends. Operands in State.ev: core, n slot. -/
  | preemptDrain
  /-- PREEMPT_DISCARD (R421): A PREEMPT write in mode 2 discards a qualifying idempotent team, or saves a team that does not qualify. Operands in State.ev: core, n slot. -/
  | preemptDiscard
  /-- SEV_WRITE (R414): A write of a class severity is stored, raised to its floor with a violation, or ignored for codes 5 to 7. Operands in State.ev: die, n class, v. -/
  | sevWrite
  /-- STAGING_POOL_CONFIG_WRITE (R122): A write to STGBASE or STGSIZE is ignored with a violation while any version holds frames or the span overlaps the firmware region. Operands in State.ev: die, n 0 base 1 size, v. -/
  | stagingPoolConfigWrite
  /-- SAVE_POOL_CONFIG_WRITE (R423): A write to SVBASE or SVSIZE is ignored with a violation while images are held or a save is in progress. Operands in State.ev: die, n 0 base 1 size, v. -/
  | savePoolConfigWrite
  /-- PEER_WINDOW_CONFIG_WRITE (R432): A write to PWBASE or PWSIZE sets the inbound peer window, unless its span would overlap the firmware region. Operands in State.ev: die, n 0 base 1 size, v. -/
  | peerWindowConfigWrite
  /-- FWMODE_WRITE (R434): A write to FWMODE switches the firmware core's translation from the next instruction fetched. Operands in State.ev: die, v. -/
  | fwmodeWrite
  /-- LCLAIM_WRITE (R435): A claim is accepted when its epoch is one past the lease epoch, making the writer's die the holder. Operands in State.ev: die, v. -/
  | lclaimWrite
  /-- LRENEW_WRITE (R435): A renewal from the holder at the current epoch is accepted and increments RCNT. Operands in State.ev: die, v. -/
  | lrenewWrite
  /-- PLIM_WRITE (R438): A write to the die power limit is clamped to 620 W. Operands in State.ev: die, v. -/
  | plimWrite
  /-- THOT_WRITE (R438): A write to the throttle temperature is clamped to the fused value. Operands in State.ev: die, v. -/
  | thotWrite
  /-- SCANCFG_WRITE (R439): A write to the scan configuration is stored with THR clamped to the range 1 to 16. Operands in State.ev: die, v. -/
  | scancfgWrite
  /-- FRAPP_WRITE (R442): A firmware write to FRAPP appends a class-31 note carrying the value. Operands in State.ev: die, v. -/
  | frappWrite
  /-- FINJ_WRITE (R446): A write to FINJ arms a one-shot accumulator bit flip and appends a class-31 note. Operands in State.ev: die, v. -/
  | finjWrite
  /-- TEMPERATURE_SAMPLE (R438): A core's temperature reading changes: THR is set at THOT or above and cleared 2 degrees below, and a trip raises class 20. Operands in State.ev: core, n TEMP. -/
  | temperatureSample
  /-- DOLDRUMS_SCAN_START (R440): A marked core that holds no team begins its 220,000-cycle in-field scan. Operands in State.ev: core. -/
  | doldrumsScanStart
  /-- SCAN_COMPLETE (R440): The scan signature is compared: a pass clears the mark, and a failure logs class 22 and retires the cluster. Operands in State.ev: core, n 1 pass 0 fail. -/
  | scanComplete
  /-- SCAN_ABORT (R440): A quad of sufficient priority needs the cluster: the scan is abandoned and the core returns to use, still marked. Operands in State.ev: core. -/
  | scanAbort
  /-- CLUSTER_MAP_UPDATE (R17): Once the teams on a retired cluster are drained or killed, the checker remaps it to a spare or clears PRESENT. Operands in State.ev: die, n cluster. -/
  | clusterMapUpdate
  /-- ATTESTATION_REPORT_WRITE (R437): CK writes the signed report through the release gate, after the launch's completion record for a launch report. Operands in State.ev: n request. -/
  | attestationReportWrite
  /-- TEMPS (R441): SMBus command that reads the hottest temperature of each die and of CK. -/
  | temps
  /-- FREAD (R441): SMBus command that reads fault-record entry n, or the LOST count. Operands in State.ev: n command. -/
  | fread
  /-- FACK (R441): SMBus command that acknowledges and frees fault-record entries below n. Operands in State.ev: n SEQ. -/
  | fack
  /-- WAITI_WAKE (R411): A pending enabled interrupt ends a firmware core's WAITI. Operands in State.ev: die. -/
  | waitiWake
  /-- SOLVER_RUN_START (R402): A stalled SQSTART starts its run once the die's sequencer is free, copying the record and writing the handle. Operands in State.ev: die. -/
  | solverRunStart
  /-- SOLVER_STAGE_LAUNCH (R394): The sequencer writes stage blocks and records the stage's model child launches. Operands in State.ev: die. -/
  | solverStageLaunch
  /-- SOLVER_STAGE_END (R395): Every team of the stage's grids has ended and its writes are performed; the sequencer reads the stage buffers and forms the next combine. Operands in State.ev: die. -/
  | solverStageEnd
  /-- COMBINE_WITNESS_CHECK (R399): The checker recomputes the exact sum of a sequencer combine (X_S, X_NEW or the error vector) and requires the stored result to equal its single rounding bit for bit. Operands in State.ev: n check. -/
  | combineWitnessCheck
  deriving DecidableEq, Repr

end Sys2Proof
end

