-- ==== Sys2Proof/Machine/Encoding.lean ====
section
/-!
DEFINITION. The operands of an instruction in X96's names (R65), and for every opcode which fields its entry uses, with the detail
code that a misuse gives (R56 to R67). One row per opcode; the checks that read the rows are generic.
-/
namespace Sys2Proof

/-- The four forms (R49). -/
inductive Form where
  | c32 | l64 | x96 | x160
  deriving DecidableEq, Repr

/-- Length in bytes (R49). -/
def Form.bytes : Form → Nat
  | .c32 => 4 | .l64 => 8 | .x96 => 12 | .x160 => 20

/-- The fields of an instruction in the names of X96 (R55); a shorter form fills the rest as R65 states. `lit` holds the L64 or X160
literal, or I12 or J18 of a compact form. -/
structure Op where
  form : Form
  g : Guard
  d : Nat := 0
  a : Nat := 0
  b : Nat := 0
  c : Nat := 0
  bkd : Bool := false
  bka : Bool := false
  bkb : Bool := false
  bkc : Bool := false
  ixa : Bool := false
  ixb : Bool := false
  ixc : Bool := false
  la : Bool := false
  lb : Bool := false
  lc : Bool := false
  op7 : Nat := 0
  immb : Bool := false
  rm : Nat := 0
  sat : Bool := false
  type : Nat := 0
  scope : Nat := 0
  acq : Bool := false
  rel : Bool := false
  res : Nat := 0
  imm16 : Nat := 0
  lit : Nat := 0
  deriving DecidableEq, Repr

/-- Bank of a C32 register code: 0 to 47 vector, 48 to 63 uniform (R53). -/
def c32Bank (r : BitVec 6) : Bool := decide (48 ≤ r.toNat)
/-- Register number of a C32 code within its bank (R53). -/
def c32Code (r : BitVec 6) : Nat := if 48 ≤ r.toNat then r.toNat - 48 else r.toNat

/-- C32-R with the implied type `t` (R65, R71). -/
def C32R.op (t : Nat) (x : C32R) : Op :=
  { form := .c32, g := x.g, d := c32Code x.d, a := c32Code x.a, b := c32Code x.b, bkd := c32Bank x.d, bka := c32Bank x.a,
    bkb := c32Bank x.b, type := t }

/-- C32-I (R52). -/
def C32I.op (x : C32I) : Op :=
  { form := .c32, g := x.g, d := c32Code x.d, bkd := c32Bank x.d, lit := x.imm.toNat }

/-- C32-J (R52). -/
def C32J.op (x : C32J) : Op := { form := .c32, g := x.g, lit := x.j.toNat }

/-- L64 with the implied type `t` (R54, R65). -/
def L64.op (t : Nat) (x : L64) : Op :=
  { form := .l64, g := x.g, d := x.d.toNat, a := x.a.toNat, bkd := x.w, bka := x.w, la := x.la, type := t, lit := x.lit.toNat }

/-- X96, and X160 when a literal follows (R55). -/
def X96.opWith (f : Form) (lit : Nat) (x : X96) : Op :=
  { form := f, g := x.g, d := x.d.toNat, a := x.a.toNat, b := x.b.toNat, c := x.c.toNat, bkd := x.bkd, bka := x.bka, bkb := x.bkb,
    bkc := x.bkc, ixa := x.ixa, ixb := x.ixb, ixc := x.ixc, la := x.la, lb := x.lb, lc := x.lc, op7 := x.op7.toNat, immb := x.immb,
    rm := x.rm.toNat, sat := x.sat, type := x.type.toNat, scope := x.scope.toNat, acq := x.acq, rel := x.rel, res := x.res.toNat,
    imm16 := x.imm16.toNat, lit := lit }

/-- X96 (R55). -/
def X96.op (x : X96) : Op := x.opWith .x96 0

/-- A longer form, with the type an L64 implies. -/
def Long.op (t : Nat) : Long → Op
  | .l f => f.op t
  | .x f => f.opWith .x96 0
  | .y f lit => f.opWith .x160 lit.toNat

/-- Width of a TYPE code in a register: 64 for .i64, .n64 and .f64 (R57, R63). -/
def tyRegs (t : Nat) : Nat := if t = 3 ∨ t = 4 ∨ t = 6 then 64 else 32
/-- Element width in bits of a TYPE code (R63). -/
def tyBits (t : Nat) : Nat :=
  if t = 3 ∨ t = 4 ∨ t = 6 then 64 else if t = 7 ∨ t = 8 ∨ t = 12 ∨ t = 13 then 16
  else if t = 9 ∨ t = 10 ∨ t = 14 ∨ t = 15 then 8 else if t = 11 then 4 else 32
/-- Signed integer types. -/
def tySigned (t : Nat) : Bool := t = 1 ∨ t = 3 ∨ t = 12 ∨ t = 14
/-- Floating types. -/
def tyFloat (t : Nat) : Bool := 5 ≤ t ∧ t ≤ 11

/-- What an operand position is used for. -/
inductive Use where
  /-- Reserved: field, bank, index and last-read bits are zero (R66). -/
  | no
  /-- A predicate position, source or destination (R56). -/
  | pred (dst : Bool)
  /-- `n` consecutive elements of `w` bits; `bank` fixes the bank where the entry does. -/
  | reg (bank : Option Bool) (w n : Nat)
  deriving DecidableEq, Repr

/-- Which position a literal fills (R61). -/
inductive LitPos where
  | none | a | b | c
  deriving DecidableEq, Repr

/-- Use of the RM field (R62). -/
inductive RmUse where
  | no | five | six
  deriving DecidableEq, Repr

/-- Use of SCOPE, ACQ and REL (R64): `flags acq rel lo hi` wants a scope in the range when a flag is set and 0 otherwise. -/
inductive ScopeUse where
  | no | plain | flags (acq rel : Bool) (lo hi : Nat)
  deriving DecidableEq, Repr

/-- How an opcode's entry uses the fields. -/
structure Row where
  d : Use := .no
  a : Use := .no
  b : Use := .no
  c : Use := .no
  lit : LitPos := .none
  /-- IMM16 can supply the literal position in X96 (R59). -/
  immOp : Bool := true
  /-- IMM16 has a fixed role; `immBad` says a content of it is reserved (detail 4). -/
  immFixed : Bool := false
  immBad : Bool := false
  op7Bad : Bool := false
  /-- Accepted TYPE codes; `none`: no TYPE field. -/
  types : Option (List Nat) := none
  rm : RmUse := .no
  sat : Bool := false
  scope : ScopeUse := .no
  guardRes : Bool := false
  super : Bool := false
  /-- Index bits and last-read bits the entry reserves although the position is read. -/
  noIx : Bool := false
  noLast : Bool := false
  /-- Further violations: detail code and whether it holds. -/
  also : List (Nat × Bool) := []

/-- Either bank. -/
abbrev anyR (w : Nat) : Use := .reg none w 1
/-- The vector bank alone. -/
abbrev vecR (w : Nat) : Use := .reg (some false) w 1
/-- The uniform bank alone. -/
abbrev uniR (w : Nat) : Use := .reg (some true) w 1

/-- The type lists the entries name. -/
def tyInts : List Nat := [1, 2, 3, 4, 12, 13, 14, 15]
def tyI4 : List Nat := [1, 2, 3, 4]
def tyF4 : List Nat := [5, 6, 7, 8]
def tyLoad : List Nat := [0, 1, 2, 3, 4, 5, 6, 7, 8, 9, 10, 12, 13, 14, 15]
def ty3264 : List Nat := [0, 1, 2, 3, 4, 5, 6]

/-- The supervisor register addresses (R15, R16, R105, R112, R122, R208, R407, R414, R419, R421, R423, R428, R429, R432, R434, R435,
R438, R439, R442, R446). -/
def csrExists (n : Nat) : Bool :=
  (0x100 ≤ n ∧ n ≤ 0x103) ∨ n = 0x110 ∨ n = 0x111 ∨ n = 0x120 ∨ (0x130 ≤ n ∧ n ≤ 0x132) ∨ (0x140 ≤ n ∧ n ≤ 0x160)
  ∨ (0x170 ≤ n ∧ n ≤ 0x175) ∨ n = 0x178 ∨ (0x180 ≤ n ∧ n ≤ 0x185) ∨ n = 0x190 ∨ (0x1A0 ≤ n ∧ n ≤ 0x1A3) ∨ n = 0x1B0
  ∨ n = 0x1C0 ∨ n = 0x1D0 ∨ (0x1E0 ≤ n ∧ n ≤ 0x1E3) ∨ (0x200 ≤ n ∧ n ≤ 0x217)

/-- Width of a special register (R195). -/
def sprWidth (code : Nat) : Nat :=
  if code = 76 ∨ code = 77 ∨ code = 83 ∨ code = 86 ∨ code = 90 then 64 else 32

/-- Names of a memory access of TYPE with VEC (R217). -/
def vecNames (vec : Nat) : Nat := if vec = 0 then 1 else if vec = 1 then 2 else 4

/-- VEC and TYPE agree (R217). -/
def vecBad (x : Op) : Bool :=
  let v := (x.op7 / 2) % 4
  v = 3 ∨ (v > 0 ∧ ¬ ty3264.contains x.type)

/-- Types of an atomic or cross-lane operation code (R228, R259). -/
def opTypes (op : Nat) : List Nat :=
  if op ≤ 2 then [1, 2, 3, 4, 5, 6] else if op ≤ 5 then [0, 4] else if op = 6 then ty3264 else [2, 4]

/-- RM with a floating .add only (R228, R259). -/
def opRm (op t : Nat) : RmUse := if op = 0 ∧ (t = 5 ∨ t = 6) then .five else .no

/-- IMM16 as a mesh coordinate (R133, R216). -/
def coordBad (imm : Nat) : Bool :=
  (imm / 512) % 64 ≠ 0 ∨ (imm / 32768 = 0 ∧ imm % 512 ≠ 0)

/-- TIMM (R133). -/
def timm (x : Op) : Bool := x.imm16 / 32768 = 1

/-- Count of destination types packed by PACKN (R278). -/
def packCount (t : Nat) : Nat := if t = 7 ∨ t = 8 then 2 else if t = 11 then 8 else 4

/-- MMA's operand register use (R296). -/
def mmaUse (src : Nat) : Use := if src = 0 then vecR 32 else if src = 1 then uniR 64 else uniR 32

/-- Entries of control, spawn and barriers (R295, R334, R366, R368 to R370, R384, R385). -/
def rowControl (opc : Nat) (x : Op) : Option Row :=
  let c32 := decide (x.form = .c32)
  let i12 := x.lit
  match opc with
  | 0x01 => some { guardRes := true }
  | 0x02 => some {}
  | 0x03 => some { a := anyR 64, noLast := true, immOp := false, op7Bad := x.op7 ≠ 0 }
  | 0x04 => some { guardRes := true }
  | 0x05 => some { a := anyR 64, noLast := true, guardRes := true, immOp := false, op7Bad := x.op7 ≠ 0 }
  | 0x06 | 0x07 | 0x08 => some { guardRes := true }
  | 0x09 => some { a := if c32 then .no else uniR 32, lit := if c32 then .none else .a, guardRes := true, op7Bad := x.op7 ≠ 0 }
  | 0x0A => some { d := .pred true, a := uniR 32, lit := if c32 then .none else .a, guardRes := true, op7Bad := x.op7 ≠ 0 }
  | 0x0B | 0x0C => some {}
  | 0x0D => some { a := uniR 32, lit := .a, guardRes := true, op7Bad := x.op7 ≠ 0 }
  | 0x0E => some { a := anyR 64, c := anyR 64, lit := .c, immOp := false, immFixed := true, op7Bad := x.op7 ≠ 0,
                   immBad := x.imm16 ≠ 0 ∧ (x.imm16 < 64 ∨ 4096 < x.imm16) }
  | 0x0F => some { d := uniR 64, a := uniR 64, b := uniR 32, lit := .b, op7Bad := x.op7 ≠ 0 }
  | 0x10 | 0x12 => some { a := if c32 then .no else uniR 32, lit := if c32 then .none else .a, guardRes := true, op7Bad := 48 ≤ x.op7,
                          also := [(4, c32 ∧ (i12 / 2048 ≠ 0 ∨ (i12 / 64) % 32 = 0))] }
  | 0x11 => some { guardRes := true, op7Bad := 48 ≤ x.op7, also := [(4, c32 ∧ i12 / 64 ≠ 0)] }
  | 0x13 => some { a := uniR 32, lit := .a, guardRes := true, op7Bad := x.op7 ≠ 0 }
  | 0x14 => some { d := .pred true }
  | 0x15 => some {}
  | 0x16 => some { a := if c32 then .no else uniR 32, immOp := false, op7Bad := x.op7 ≠ 0 }
  | _ => none

/-- Entries of the integer, logic and address opcodes (R237 to R253). -/
def rowInteger (opc : Nat) (x : Op) : Option Row :=
  let w := tyRegs x.type
  let r := anyR w
  match opc with
  | 0x20 | 0x21 => some { d := r, a := r, b := r, lit := .b, types := some tyInts, sat := true, op7Bad := x.op7 ≠ 0 }
  | 0x22 | 0x23 => some { d := r, a := r, b := r, c := .pred false, types := some [2, 4], op7Bad := x.op7 ≠ 0, immFixed := true,
                          immBad := x.imm16 / 16 ≠ 0, also := [(8, x.imm16 % 8 = 7)] }
  | 0x24 => some { d := r, a := r, b := r, lit := .b, types := some tyInts, sat := true, op7Bad := x.op7 ≠ 0 }
  | 0x25 => some { d := r, a := r, b := r, lit := .b, types := some tyI4, op7Bad := x.op7 ≠ 0 }
  | 0x26 => some { d := anyR (if x.type = 1 ∨ x.type = 2 then 64 else 32), a := anyR 32, b := anyR 32, lit := .b, types := some [12, 13, 1, 2],
                   op7Bad := x.op7 ≠ 0 }
  | 0x27 => some { d := r, a := r, b := r, c := r, lit := .c, types := some tyInts, sat := true, op7Bad := x.op7 ≠ 0 }
  | 0x28 => some { d := r, a := r, b := r, lit := .b, types := some tyI4, sat := true, op7Bad := x.op7 ≠ 0 }
  | 0x29 => some { d := r, a := r, b := r, lit := .b, types := some tyI4, op7Bad := x.op7 ≠ 0 }
  | 0x2A | 0x2B => some { d := r, a := r, types := some tyInts, sat := true, op7Bad := x.op7 ≠ 0 }
  | 0x2C | 0x2D => some { d := r, a := r, b := r, lit := .b, types := some tyInts, op7Bad := x.op7 ≠ 0 }
  | 0x2E => some { d := r, a := r, b := r, c := r, lit := .c, types := some tyInts, sat := true, op7Bad := x.op7 ≠ 0 }
  | 0x2F => some { d := r, a := r, b := r, c := r, lit := .c, types := some tyInts, op7Bad := x.op7 ≠ 0 }
  | 0x30 => some { d := anyR 32, a := anyR 32, b := anyR 32, c := anyR 32, lit := .c, types := some [14, 15, 12, 13], sat := true,
                   op7Bad := 2 ≤ x.op7 }
  | 0x34 | 0x35 | 0x36 | 0x38 => some { d := r, a := r, b := r, lit := .b, types := some [0, 4], op7Bad := x.op7 ≠ 0 }
  | 0x37 => some { d := r, a := r, types := some [0, 4], op7Bad := x.op7 ≠ 0 }
  | 0x39 => some { d := r, a := r, b := r, c := r, types := some [0, 4], op7Bad := x.op7 ≠ 0, immFixed := true, immBad := x.imm16 / 256 ≠ 0 }
  | 0x3A | 0x3B | 0x3C | 0x3D => some { d := r, a := r, b := anyR 32, lit := .b, types := some [0, 4], op7Bad := x.op7 ≠ 0 }
  | 0x3E => some { d := anyR 32, a := anyR 32, b := anyR 32, c := anyR 32, lit := .c, types := some [0], op7Bad := 2 ≤ x.op7 }
  | 0x3F => some { d := r, a := r, b := anyR 32, lit := .b, types := some tyI4, op7Bad := x.op7 ≠ 0 }
  | 0x40 => some { d := r, a := r, b := anyR 32, c := r, lit := .b, types := some [0, 4], op7Bad := x.op7 ≠ 0 }
  | 0x41 => some { d := r, a := r, types := some [0, 4], op7Bad := x.op7 ≠ 0 }
  | 0x42 => some { d := anyR 32, a := anyR 32, b := anyR 32, c := anyR 32, lit := .c, types := some [0], op7Bad := x.op7 ≠ 0 }
  | 0x43 | 0x44 | 0x45 => some { d := anyR 32, a := r, types := some [0, 4], op7Bad := x.op7 ≠ 0 }
  | 0x46 => some { d := anyR (if x.op7 = 1 then 64 else 32), a := anyR 32, types := some [14, 15, 12, 13, 1, 2], op7Bad := 2 ≤ x.op7 }
  | 0x48 => some { d := .pred true, a := r, b := r, c := if (x.op7 / 8) % 4 = 0 then .no else .pred false, lit := .b, types := some (0 :: tyInts),
                   op7Bad := 64 ≤ x.op7 ∨ 6 ≤ x.op7 % 8 }
  | 0x49 => some { d := r, a := r, b := r, c := .pred false, lit := .b, types := some ty3264, op7Bad := 2 ≤ x.op7 }
  | 0x4A => some { d := anyR 64, a := anyR 64, b := if (x.op7 / 8) % 2 = 1 then anyR (if x.type = 4 then 64 else 32) else .no, lit := .a,
                   immOp := false, immFixed := true, types := some [1, 2, 4], op7Bad := 16 ≤ x.op7 }
  | _ => none

/-- Entries of predicates, moves and cross-lane opcodes (R206, R211 to R215, R254 to R261). -/
def rowMove (opc : Nat) (x : Op) : Option Row :=
  let w := tyRegs x.type
  let r := anyR w
  match opc with
  | 0x50 | 0x51 | 0x52 => some { d := .pred true, a := .pred false, b := .pred false, op7Bad := 4 ≤ x.op7 }
  | 0x53 => some { d := .pred true, a := .pred false, op7Bad := x.op7 ≠ 0 }
  | 0x54 => some { a := anyR 32, op7Bad := x.op7 ≠ 0, immFixed := true, immBad := x.imm16 / 128 ≠ 0 }
  | 0x55 => some { d := vecR 32, op7Bad := x.op7 ≠ 0 }
  | 0x58 => some { d := r, a := r, types := some [0, 3, 4, 6], op7Bad := x.op7 ≠ 0 }
  | 0x59 => some { d := anyR 32, a := if x.form = .c32 then .no else anyR 32, lit := if x.form = .c32 then .none else .a,
                   types := some [0, 1, 2, 5, 7, 8, 12, 13], op7Bad := x.op7 ≠ 0, also := [(3, x.form = .x96 ∧ ¬ x.immb)] }
  | 0x5A => some { d := r, b := r, lit := .b, types := some ty3264, op7Bad := x.op7 ≠ 0, immOp := false }
  | 0x5B => some { d := anyR (sprWidth x.a), a := anyR 32, op7Bad := x.op7 ≠ 0, immOp := false,
                   also := [(8, x.a < 64 ∨ 93 < x.a ∨ ¬ x.bka)] }
  | 0x5C => some { d := uniR 32, a := anyR 32, lit := .a, types := some [0], op7Bad := x.op7 ≠ 0,
                   also := [(8, ¬ (x.d = 84 ∨ x.d = 85 ∨ x.d = 92 ∨ x.d = 93) ∨ ¬ x.bkd)] }
  | 0x5D =>
    let win (k : Nat) := ((x.lit / 65536 ^ k) % 256, (x.lit / 65536 ^ k / 256) % 256)
    let names := (List.range 4).flatMap fun k => (List.range 8).filterMap fun i =>
      if ((win k).2 / 2 ^ i) % 2 = 1 then some ((win k).1 + i) else none
    if x.form = .x160 then
      some { immOp := false, op7Bad := x.op7 ≠ 0,
             also := [(8, names.any (255 < ·)), (4, (List.range 4).any fun k => (win k).2 = 0 ∧ (win k).1 ≠ 0), (4, 16 < names.eraseDups.length)] }
    else
      some { a := vecR 32, noIx := true, noLast := true, immOp := false, immFixed := true, op7Bad := x.op7 ≠ 0,
             also := [(8, (List.range 16).any fun i => (x.imm16 / 2 ^ i) % 2 = 1 ∧ 255 < x.a + i), (4, x.imm16 = 0 ∧ x.a ≠ 0)] }
  | 0x60 => some { d := r, a := r, b := anyR 32, lit := .b, types := some [0, 4], op7Bad := 3 ≤ x.op7 }
  | 0x61 => some { d := r, a := r, b := anyR 32, lit := .b, types := some [0, 4], op7Bad := 8 ≤ x.op7 }
  | 0x62 => some { d := anyR 32, a := .pred false, types := some [0], op7Bad := 4 ≤ x.op7 }
  | 0x63 =>
    let op := x.op7 % 8
    some { d := r, a := r, b := uniR 32, lit := .b, types := some (opTypes op), rm := opRm op x.type, sat := op = 0 ∧ ¬ tyFloat x.type,
           op7Bad := 6 ≤ x.op7 }
  | 0x64 => some { d := r, a := r, b := uniR 32, lit := .b, types := some [0, 4], op7Bad := x.op7 ≠ 0 }
  | 0x65 => some { d := anyR 32, a := r, lit := .a, types := some [0, 4], op7Bad := x.op7 ≠ 0 }
  | 0x66 | 0x67 =>
    let op := x.op7 % 8
    some { d := r, a := r, lit := .a, types := some (opTypes op), rm := opRm op x.type, sat := op = 0 ∧ ¬ tyFloat x.type,
           op7Bad := 6 ≤ op ∨ 16 ≤ x.op7 ∨ (opc = 0x66 ∧ 8 ≤ x.op7) }
  | _ => none

/-- Nonzero bits of IMM16 that R60 reserves for a literal of a narrow floating type: .e4m3 uses bits 7:0, .e5m2 bits 7:4, .e2m1 bits 3:0. -/
def immRest (x : Op) (t : Nat) : Bool :=
  x.immb && decide (t = 9 ∧ 256 ≤ x.imm16 ∨ t = 10 ∧ (256 ≤ x.imm16 ∨ x.imm16 % 16 ≠ 0) ∨ t = 11 ∧ 16 ≤ x.imm16)

/-- Entries of the floating, conversion and Drizzle opcodes (R262 to R284, R386). DEDUCED (log 89): FCMP's literal position is B also where
COMB makes it read C as a predicate, which no literal can be (R262, R271); CVT, CVTI, CVTF, IVLO and IVHI, whose entries do not say that they
take no immediate, have A as their literal position (R61), read in the source type; PACKN and DQNT, whose A is a range, take none. -/
def rowFloat (opc : Nat) (x : Op) : Option Row :=
  let w := tyRegs x.type
  let r := anyR w
  let src := x.op7 % 16
  match opc with
  | 0x80 | 0x81 | 0x82 => some { d := r, a := r, b := r, lit := .b, types := some tyF4, rm := .five, sat := true, op7Bad := x.op7 ≠ 0 }
  | 0x83 => some { d := r, a := r, b := r, c := r, lit := .c, types := some tyF4, rm := .five, sat := true, op7Bad := x.op7 ≠ 0 }
  | 0x84 | 0x85 => some { d := r, a := r, b := r, lit := .b, types := some tyF4, op7Bad := x.op7 ≠ 0 }
  | 0x86 => some { d := .pred true, a := r, b := r, c := if (x.op7 / 8) % 4 = 0 then .no else .pred false, lit := .b, types := some tyF4,
                   op7Bad := 64 ≤ x.op7 }
  | 0x87 => some { d := anyR 32, a := r, lit := .a, types := some tyF4, op7Bad := x.op7 ≠ 0 }
  | 0x88 | 0x89 => some { d := r, a := r, lit := .a, types := some tyF4, op7Bad := x.op7 ≠ 0 }
  | 0x8A => some { d := r, a := r, b := r, lit := .b, types := some tyF4, op7Bad := 3 ≤ x.op7 }
  | 0x8B => some { d := r, a := r, lit := .a, types := some tyF4, rm := .five, op7Bad := 2 ≤ x.op7 }
  | 0x8C => some { d := r, a := r, b := anyR 32, lit := .b, types := some tyF4, rm := .five, sat := true, op7Bad := x.op7 ≠ 0 }
  | 0x8D => some { d := r, a := r, lit := .a, types := some tyF4, op7Bad := x.op7 ≠ 0 }
  | 0x8E | 0x8F => some { d := r, a := r, b := r, lit := .b, types := some [7, 8], rm := .five, sat := true, op7Bad := x.op7 ≠ 0 }
  | 0x90 => some { d := r, a := r, b := r, c := r, lit := .c, types := some [7, 8], rm := .five, sat := true, op7Bad := x.op7 ≠ 0 }
  | 0x91 => some { d := anyR 32, a := anyR 32, b := anyR 32, c := anyR 32, lit := .c, types := some [7, 8, 9, 10], rm := .five, sat := true,
                   op7Bad := x.op7 ≠ 0 }
  | 0x94 => some { d := r, a := r, b := r, lit := .b, types := some [5, 6], rm := .five, sat := true, op7Bad := x.op7 ≠ 0 }
  | 0x95 | 0x97 | 0x9A | 0x9B | 0x9C | 0x9D => some { d := r, a := r, lit := .a, types := some [5, 6], rm := .five, op7Bad := x.op7 ≠ 0 }
  | 0x96 | 0x98 | 0x99 => some { d := r, a := r, lit := .a, types := some [5, 6], rm := .five, sat := true, op7Bad := x.op7 ≠ 0 }
  | 0xA0 => some { d := r, a := anyR (tyRegs src), lit := .a, also := [(4, immRest x src)], types := some [5, 6, 7, 8, 9, 10, 11], rm := .six, sat := true,
                   op7Bad := 16 ≤ x.op7 ∨ ¬ (5 ≤ src ∧ src ≤ 11) }
  | 0xA1 => some { d := r, a := anyR (tyRegs src), lit := .a, also := [(4, immRest x src)], types := some tyInts, rm := .six, op7Bad := 16 ≤ x.op7 ∨ ¬ (5 ≤ src ∧ src ≤ 11) }
  | 0xA2 => some { d := r, a := anyR (tyRegs src), lit := .a, types := some [5, 6, 7, 8, 9, 10, 11], rm := .six, sat := true,
                   op7Bad := 16 ≤ x.op7 ∨ ¬ tyInts.contains src }
  | 0xA3 => some { d := anyR 32, a := .reg none 32 (packCount x.type), immOp := false, types := some [7, 8, 9, 10, 11], rm := .six, sat := true,
                   op7Bad := 16 ≤ x.op7 ∨ ¬ (src = 5 ∨ src = 7 ∨ src = 8) }
  | 0xA4 => some { d := .reg none 32 2, a := .reg none 32 (if x.type = 5 then 8 else 4), c := anyR 32, lit := .c, immOp := x.op7 = 0,
                   types := some [5, 8], rm := .six, op7Bad := 2 ≤ x.op7 }
  | 0xA5 => some { d := .reg none 32 (if x.type = 5 then 8 else 4), a := .reg none 32 2, immOp := false, types := some [5, 7, 8], rm := .five,
                   sat := true, op7Bad := x.op7 ≠ 0 }
  | 0xA8 => some { d := .reg (some false) 32 (if x.op7 % 4 = 0 then 1 else if x.op7 % 4 = 1 then 2 else 4),
                   a := if (x.op7 / 4) % 2 = 1 then anyR 64 else .no, b := anyR 32, lit := .b, types := some [0],
                   op7Bad := 8 ≤ x.op7 ∨ x.op7 % 4 = 3 }
  | 0xA9 => some { d := vecR w, a := if x.op7 = 4 then anyR 64 else .no, b := anyR 32, lit := .b, types := some [5, 6],
                   op7Bad := x.op7 ≠ 0 ∧ x.op7 ≠ 4 }
  | 0xAA => some { d := .pred true, a := if x.op7 = 4 then anyR 64 else .no, b := anyR 32, c := anyR 32, lit := .c, types := some [0],
                   op7Bad := x.op7 ≠ 0 ∧ x.op7 ≠ 4 }
  | 0xB0 => some { d := r, a := r, b := r, lit := .b, types := some [1, 2, 3, 4, 5, 6], op7Bad := x.op7 ≠ 0 }
  | 0xB1 | 0xB2 => some { d := r, a := r, lit := .a, types := some [1, 2, 3, 4, 5, 6], op7Bad := x.op7 ≠ 0 }
  | _ => none

/-- Entries of the memory opcodes (R216 to R236). -/
def rowMemory (opc : Nat) (x : Op) : Option Row :=
  let w := tyRegs x.type
  let n := vecNames ((x.op7 / 2) % 4)
  let hasB := x.op7 % 2 = 1
  let op := x.op7 % 16
  let acq : ScopeUse := .flags true false 1 5
  let rel : ScopeUse := .flags false true 1 5
  let acq2 : ScopeUse := .flags true false 1 2
  let rel2 : ScopeUse := .flags false true 1 2
  match opc with
  | 0xC0 => some { d := .reg (some false) w n, a := anyR 64, b := if hasB then anyR 32 else .no, lit := .a, immOp := false, immFixed := true,
                   types := some tyLoad, scope := acq, op7Bad := 8 ≤ x.op7 ∨ vecBad x }
  | 0xC1 => some { a := anyR 64, b := if hasB then anyR 32 else .no, c := .reg none w n, lit := .a, immOp := false, immFixed := true,
                   types := some tyLoad, scope := rel, op7Bad := 8 ≤ x.op7 ∨ vecBad x }
  | 0xC2 => some { d := .reg (some false) w n, a := anyR 32, immOp := false, immFixed := true, types := some tyLoad, scope := acq2,
                   op7Bad := 8 ≤ x.op7 ∨ hasB ∨ vecBad x }
  | 0xC3 => some { a := anyR 32, b := .reg none w n, immOp := false, immFixed := true, types := some tyLoad, scope := rel2,
                   op7Bad := 8 ≤ x.op7 ∨ hasB ∨ vecBad x }
  | 0xC4 => some { d := .reg (some false) w n, a := anyR 32, b := if timm x then .no else anyR 32, immOp := false, immFixed := true,
                   immBad := coordBad x.imm16, types := some tyLoad, scope := acq2, op7Bad := 8 ≤ x.op7 ∨ hasB ∨ vecBad x }
  | 0xC5 => some { a := anyR 32, b := if timm x then .no else anyR 32, c := .reg none w n, immOp := false, immFixed := true,
                   immBad := coordBad x.imm16, types := some tyLoad, scope := rel2, op7Bad := 8 ≤ x.op7 ∨ hasB ∨ vecBad x }
  | 0xC6 => some { d := .reg (some true) w n, a := uniR 64, b := if hasB then uniR 32 else .no, lit := .a, immOp := false, immFixed := true,
                   types := some tyLoad, scope := acq, op7Bad := 8 ≤ x.op7 ∨ vecBad x }
  | 0xC7 => some { a := uniR 64, b := if hasB then uniR 32 else .no, c := .reg (some true) w n, lit := .a, immOp := false, immFixed := true,
                   types := some tyLoad, scope := rel, op7Bad := 8 ≤ x.op7 ∨ vecBad x }
  | 0xC8 => some { d := .reg (some false) w n, a := anyR 32, immOp := false, immFixed := true, types := some tyLoad,
                   op7Bad := 8 ≤ x.op7 ∨ hasB ∨ vecBad x }
  | 0xC9 => some { d := vecR w, a := anyR 32, immOp := false, types := some tyLoad, op7Bad := 8 ≤ x.op7 }
  | 0xCA => some { a := anyR 64, c := anyR 32, immOp := false, op7Bad := x.op7 ≠ 0 }
  | 0xCB => some { d := uniR 32, a := uniR 64, c := vecR w, immOp := false, immFixed := true, types := some tyLoad, scope := rel, op7Bad := x.op7 ≠ 0 }
  | 0xCC => some { d := vecR w, a := uniR 64, immOp := false, immFixed := true, types := some tyLoad, scope := acq, op7Bad := x.op7 ≠ 0 }
  | 0xCD => some { d := vecR w, a := anyR 64, b := if (x.op7 / 16) % 2 = 1 then anyR 32 else .no, c := anyR w, immOp := false, immFixed := true,
                   types := some (opTypes op), rm := opRm op x.type, scope := .flags true true 1 5, op7Bad := 32 ≤ x.op7 ∨ 9 ≤ op }
  | 0xCE => some { d := vecR w, a := anyR 32, c := anyR w, immOp := false, immFixed := true, types := some (opTypes op), rm := opRm op x.type,
                   scope := .flags true true 1 2, op7Bad := 9 ≤ x.op7 }
  | 0xCF => some { d := vecR w, a := anyR 32, b := if timm x then .no else anyR 32, c := anyR w, immOp := false, immFixed := true,
                   immBad := coordBad x.imm16, types := some (opTypes op), rm := opRm op x.type, scope := .flags true true 1 2, op7Bad := 9 ≤ x.op7 }
  | 0xD0 => some { a := anyR 64, b := if (x.op7 / 16) % 2 = 1 then anyR 32 else .no, c := anyR w, immOp := false, immFixed := true,
                   types := some (opTypes op), rm := opRm op x.type, scope := rel, op7Bad := 32 ≤ x.op7 ∨ 6 ≤ op }
  | 0xD1 => some { a := anyR 32, c := anyR w, immOp := false, immFixed := true, types := some (opTypes op), rm := opRm op x.type, scope := rel2,
                   op7Bad := 6 ≤ x.op7 }
  | 0xD2 =>
    let scr := x.op7 % 4 = 1
    some { d := vecR w, a := anyR (if scr then 32 else 64), b := if (x.op7 / 4) % 2 = 1 then anyR 32 else .no, c := .reg none w 2,
           immOp := false, immFixed := true, types := some ty3264, scope := .flags true true 1 5,
           op7Bad := 8 ≤ x.op7 ∨ 2 ≤ x.op7 % 4 ∨ (scr ∧ (x.op7 / 4) % 2 = 1) }
  | 0xD3 => some { scope := .plain, op7Bad := x.op7 ≠ 0 }
  | 0xD4 => some { a := anyR 64, b := if hasB then anyR 32 else .no, immOp := false, immFixed := true, op7Bad := 4 ≤ x.op7 }
  | 0xD5 => some { d := vecR w, a := anyR 64, b := if hasB then anyR 32 else .no, c := .pred true, immOp := false, immFixed := true,
                   types := some tyLoad, op7Bad := 2 ≤ x.op7 }
  | 0xD6 => some { a := if x.op7 = 0 then anyR 64 else .no, immOp := false, immFixed := x.op7 = 0, op7Bad := 2 ≤ x.op7 }
  | _ => none

/-- Entries of the engine, matrix, solver, message and witness opcodes (R133, R145, R163 to R168, R296, R302 to R307, R323, R324, R401).
DESIGN CHOICE (log 91): MSEND.w0, which reads no payload register, leaves A, BKA, IXA and LA free. DESIGN CHOICE (log 93): a token named by
REDUCE with SPV = 0 is detail 3. -/
def rowEngine (opc : Nat) (x : Op) : Option Row :=
  let y := decide (x.form = .x160)
  match opc with
  | 0xE0 => some { a := .reg none 32 (if y then 6 else 8), immOp := false, op7Bad := x.op7 ≠ 0, scope := .flags true true 1 5 }
  | 0xE1 => some { a := anyR 32, b := anyR 32, lit := .b, op7Bad := x.op7 ≠ 0 }
  | 0xE2 | 0xE3 | 0xE4 => some { a := anyR 32, b := anyR 32, lit := .b, op7Bad := 2 ≤ x.op7 }
  | 0xE5 => some { d := if x.op7 = 1 then .pred true else .no, a := anyR 32, b := anyR 32, lit := .b, op7Bad := 2 ≤ x.op7,
                   scope := .flags true false 1 4, also := [(4, x.immb ∧ x.imm16 / 2 ≠ 0)] }
  | 0xE6 => some { a := anyR 32, immOp := false, op7Bad := x.op7 ≠ 0 }
  | 0xE7 => some { immOp := false, op7Bad := x.op7 = 0 ∨ 8 ≤ x.op7 }
  | 0xE8 =>
    some { a := anyR 64, b := anyR 64, c := .reg none 32 3,
           immOp := false, types := some [1, 2, 3, 4, 5, 6], rm := if tyFloat x.type then .five else .no, sat := true,
           scope := .flags true true 1 4, op7Bad := x.op7 % 4 = 3 ∨ (64 ≤ x.op7 ∧ (x.op7 / 8) % 2 = 0) ∨ (x.op7 < 64 ∧ 16 ≤ x.op7) }
  | 0xE9 => some { a := anyR 64, b := anyR 64, c := .reg none 32 3, immOp := false, types := some [1, 2, 3, 4, 5, 6], scope := .flags true true 1 4,
                   op7Bad := x.op7 ≠ 0 }
  | 0xEA =>
    let sa := x.op7 % 4
    let sb := (x.op7 / 4) % 4
    let bxt := x.imm16 % 16
    some { a := mmaUse sa, b := mmaUse sb, c := .reg (some true) 32 4, lit := .c, immOp := false, immFixed := true,
           immBad := x.imm16 / 64 ≠ 0 ∨ (x.op7 < 64 ∧ (x.imm16 / 16) % 4 ≠ 0), op7Bad := sa = 3 ∨ sb = 3,
           types := some (if sa = 2 then [0] else [6, 7, 8, 9, 10, 12, 14, 15]),
           also := [(6, if sb = 2 then bxt ≠ 0 else ¬ (bxt = 0 ∨ bxt = 9 ∨ bxt = 10 ∨ bxt = 14 ∨ bxt = 15))] }
  | 0xEB => some { d := uniR 32, a := .reg (some true) 32 4, immOp := false, op7Bad := x.op7 ≠ 0 }
  | 0xEC => some { a := uniR 32, immOp := false, op7Bad := x.op7 ≠ 0 }
  | 0xED =>
    let mode := x.op7 % 4
    some { a := uniR 32, b := uniR (if (x.op7 / 4) % 2 = 1 then 32 else 64), c := .reg (some true) 32 4, immOp := false, op7Bad := 8 ≤ x.op7,
           types := some (if mode = 0 then [5, 7, 8] else [0]), rm := if mode = 0 then .five else .no, scope := .flags true false 1 5 }
  | 0xEE =>
    let n := x.imm16 % 32
    if x.op7 = 1 then some { d := vecR 32, a := uniR 32, immOp := false, types := some [0] }
    else some { d := .reg (some false) (tyRegs x.type) n, a := uniR 32, immOp := false, immFixed := true,
                immBad := x.imm16 / 32 ≠ 0 ∨ n = 0 ∨ 16 < n, types := some [5, 1, 7, 8, 6],
                rm := if x.type = 7 ∨ x.type = 8 then .five else .no, sat := x.type = 7 ∨ x.type = 8, op7Bad := x.op7 ≠ 0 }
  | 0xEF => some { a := uniR 32, b := uniR (if x.op7 = 1 then 32 else 64), c := .reg (some true) 32 4, immOp := false, op7Bad := 2 ≤ x.op7,
                   types := some [5, 1, 7, 8, 9, 10, 6], rm := .five, sat := true, scope := .flags false true 1 5 }
  | 0xF0 => some { a := uniR 32, b := uniR 32, lit := .b, op7Bad := 3 ≤ x.op7 }
  | 0xF1 => some { a := .pred false, b := anyR 32, lit := .b, op7Bad := x.op7 ≠ 0 }
  | 0xF2 =>
    match x.op7 with
    | 0 => some { a := uniR 64, b := uniR 32, lit := .b }
    | 1 => some { d := uniR 32, a := uniR 64, immOp := false }
    | 2 | 3 => some { d := uniR 32, a := uniR 32, immOp := false }
    | 4 => some { a := uniR 32, immOp := false }
    | _ => some { op7Bad := true }
  | 0xF3 =>
    some { a := .reg none 32 x.op7, b := if timm x then .no else anyR 32, c := anyR 64, lit := .c, immOp := false,
           immFixed := true, immBad := coordBad x.imm16, op7Bad := 17 ≤ x.op7, scope := .flags false true 1 4,
           also := [(4, x.lb ∨ x.ixb ∨ x.ixc ∨ x.lc)] }
  | 0xF4 => some { a := if x.op7 = 5 then .no else uniR 64, immOp := false, op7Bad := 6 ≤ x.op7 }
  | 0xF5 => some { d := uniR 32, a := uniR 32, immOp := false, op7Bad := 2 ≤ x.op7 }
  | _ => none

/-- Entries of the system opcodes (R410). -/
def rowSystem (opc : Nat) (x : Op) : Option Row :=
  match opc with
  | 0xF8 => some { guardRes := true, immOp := false, immFixed := true, op7Bad := x.op7 ≠ 0,
                   also := [(4, x.form = .c32 ∧ x.lit / 256 ≠ 0), (4, x.form = .x96 ∧ x.imm16 / 256 ≠ 0)] }
  | 0xF9 => some { a := .reg none 32 1, guardRes := true, super := true, also := [(4, x.bka ∨ 1 < x.a)] }
  | 0xFA => some { d := uniR 32, guardRes := true, super := true, immOp := false, immFixed := true, immBad := ¬ csrExists x.imm16,
                   op7Bad := x.op7 ≠ 0 }
  | 0xFB => some { a := uniR 32, guardRes := true, super := true, immOp := false, immFixed := true, immBad := ¬ csrExists x.imm16,
                   op7Bad := x.op7 ≠ 0 }
  | 0xFC | 0xFE => some { guardRes := true, super := true }
  | 0xFD => some { a := if x.op7 = 2 then uniR 64 else .no, b := if x.op7 = 0 then .no else uniR 32, guardRes := true, super := true,
                   immOp := false, op7Bad := 3 ≤ x.op7 }
  | _ => none

/-- The entry of an assigned opcode (R70); `none` is an unassigned one (detail 1). -/
def rowOf (opc : Nat) (x : Op) : Option Row :=
  (rowControl opc x).orElse fun _ => (rowInteger opc x).orElse fun _ => (rowMove opc x).orElse fun _ =>
  (rowFloat opc x).orElse fun _ => (rowMemory opc x).orElse fun _ => (rowEngine opc x).orElse fun _ => rowSystem opc x

/-- One position's field, bank, index and last-read bits. -/
structure PosBits where
  code : Nat
  bank : Bool
  ix : Bool
  last : Bool
  deriving DecidableEq, Repr

def Op.posA (x : Op) : PosBits := { code := x.a, bank := x.bka, ix := x.ixa, last := x.la }
def Op.posB (x : Op) : PosBits := { code := x.b, bank := x.bkb, ix := x.ixb, last := x.lb }
def Op.posC (x : Op) : PosBits := { code := x.c, bank := x.bkc, ix := x.ixc, last := x.lc }
def Op.posD (x : Op) : PosBits := { code := x.d, bank := x.bkd, ix := false, last := false }

/-- The literal position is filled from the literal or from IMM16 (R61). -/
def Op.filled (x : Op) (r : Row) (p : LitPos) : Bool :=
  r.lit = p ∧ (x.form = .l64 ∨ x.form = .x160 ∨ x.immb)

/-- Violations of a source position (R53, R56 to R58, R66). -/
def srcCodes (u : Use) (p : PosBits) (r : Row) : List (Nat × Bool) :=
  match u with
  | .no => [(4, p.code ≠ 0 ∨ p.bank ∨ p.ix ∨ p.last)]
  | .pred _ => [(4, 8 ≤ p.code ∨ p.bank), (10, p.ix ∨ p.last)]
  | .reg bank w n =>
    [(4, bank = some false ∧ p.bank), (4, bank = some true ∧ ¬ p.bank), (4, (r.noIx ∧ p.ix) ∨ (r.noLast ∧ p.last)),
     -- a range past the last name; a single odd code of a pair is detail 9 alone (R57)
     (8, p.bank ∧ (94 ≤ p.code ∨ (p.code < 64 ∧ 1 < n ∧ 64 < p.code + n * (w / 32)) ∨ (64 ≤ p.code ∧ 1 < n))),
     (8, ¬ p.bank ∧ ¬ p.ix ∧ 1 < n ∧ 256 < p.code + n * (w / 32)),
     (9, w = 64 ∧ ¬ p.ix ∧ p.code % 2 = 1 ∧ (¬ p.bank ∨ p.code < 64)),
     (10, p.bank ∧ (p.ix ∨ p.last))]

/-- Violations of the destination position; only SWR names a special there (R56). -/
def dstCodes (opc : Nat) (u : Use) (p : PosBits) : List (Nat × Bool) :=
  match u with
  | .no => [(4, p.code ≠ 0 ∨ p.bank)]
  | .pred _ => [(4, 8 ≤ p.code ∨ p.bank), (8, p.code % 8 = 7)]
  | .reg bank w n =>
    if opc = 0x5C then [] else
    [(4, bank = some false ∧ p.bank), (4, bank = some true ∧ ¬ p.bank),
     (8, p.bank ∧ (64 ≤ p.code ∨ (1 < n ∧ 64 < p.code + n * (w / 32)))), (8, ¬ p.bank ∧ 1 < n ∧ 256 < p.code + n * (w / 32)),
     (9, w = 64 ∧ p.code % 2 = 1 ∧ (¬ p.bank ∨ p.code < 64))]

/-- A predicate destination in position C that holds 7 (R56; PROBE, R235). -/
def predDst7 (u : Use) (p : PosBits) : Bool := u = .pred true ∧ p.code % 8 = 7

/-- Every violation of an instruction in an allowed form, as detail code and whether it holds (R67). -/
def Op.violations (opc : Nat) (super : Bool) (x : Op) (r : Row) : List (Nat × Bool) :=
  let lit (p : LitPos) (u : Use) : Use := if x.filled r p then .no else u
  let hasImm := decide (x.form = .x96) && decide (r.lit ≠ .none) && r.immOp
  let noA := if x.form = .l64 ∧ r.a = .no then Use.no else lit .a r.a
  let plain : List (Nat × Bool) :=
    [(3, x.immb ∧ ¬ hasImm), (3, r.op7Bad),
     (4, x.g.gs ∧ x.g.gp.toNat = 7), (4, r.guardRes ∧ ¬ (¬ x.g.gs ∧ x.g.gp.toNat = 7)), (4, x.res ≠ 0),
     (4, ¬ r.immFixed ∧ ¬ (x.immb ∧ hasImm) ∧ x.imm16 ≠ 0), (4, r.immFixed ∧ r.immBad), (4, ¬ r.sat ∧ x.sat)]
  let rm : List (Nat × Bool) := match r.rm with
    | .no => [(4, x.rm ≠ 0)]
    | .five => [(5, x.rm = 6 ∨ x.rm = 7)]
    | .six => [(5, x.rm = 7)]
  let ty : List (Nat × Bool) := match r.types with
    | none => [(4, x.type ≠ 0)]
    | some ts => [(6, ¬ ts.contains x.type)]
  let scope : List (Nat × Bool) := match r.scope with
    | .no => [(4, x.scope ≠ 0 ∨ x.acq ∨ x.rel)]
    | .plain => [(4, x.acq ∨ x.rel), (7, 6 ≤ x.scope)]
    | .flags ac re lo hi =>
      [(4, (x.acq ∧ ¬ ac) ∨ (x.rel ∧ ¬ re)), (7, if x.acq ∨ x.rel then x.scope < lo ∨ hi < x.scope else x.scope ≠ 0)]
  let rest : List (Nat × Bool) :=
    [(8, predDst7 r.c x.posC),
     (4, x.form = .x160 ∧ r.types.isSome ∧ r.lit ≠ .a ∧ r.lit ≠ .none ∧ opc ≠ 0xEA ∧ 2 ^ tyBits x.type ≤ x.lit),
     (11, r.super ∧ ¬ super)]
  -- In L64 the one bank bit belongs to the positions the entry uses (R54).
  let pd := if x.form = .l64 ∧ r.d = .no ∧ noA ≠ .no then { x.posD with bank := false } else x.posD
  let pa := if x.form = .l64 ∧ noA = .no ∧ r.d ≠ .no then { x.posA with bank := false } else x.posA
  plain ++ rm ++ ty ++ scope ++ dstCodes opc r.d pd ++ srcCodes noA pa r ++ srcCodes (lit .b r.b) x.posB r
    ++ srcCodes (lit .c r.c) x.posC r ++ rest ++ r.also

/-- The lowest detail code that applies; `none` when the words are an instruction (R67, R68). -/
def lowestCode (vs : List (Nat × Bool)) : Option Nat :=
  vs.foldl (fun acc v => if v.2 then (match acc with | none => some v.1 | some m => some (min m v.1)) else acc) none

/-- The detail code of an instruction whose form the opcode allows. -/
def Op.detail (opc : Nat) (super : Bool) (x : Op) : Option Nat :=
  match rowOf opc x with
  | none => some 1
  | some r => lowestCode (x.violations opc super r)

end Sys2Proof
end

