-- ==== Sys2Proof/WellFormed.lean ====
section
/-!
DEFINITION. Which terms are instructions of the machine (R49 to R72): the opcode, form and fields of each constructor, and the
check that the words it stands for raise no detail code of R67.
-/
namespace Sys2Proof

/-- The fields of one encoded instruction, by form (R52 to R55). -/
inductive Body where
  | r (x : C32R)
  | i (x : C32I)
  | j (x : C32J)
  | l (x : L64)
  | x (x : X96)
  | y (x : X96) (lit : BitVec 64)
  deriving DecidableEq, Repr

/-- A longer form as a body. -/
def Long.body : Long → Body
  | .l f => .l f
  | .x f => .x f
  | .y f lit => .y f lit

/-- The form letter of a body (R49). -/
def Body.form : Body → Form
  | .r _ => .c32 | .i _ => .c32 | .j _ => .c32 | .l _ => .l64 | .x _ => .x96 | .y _ _ => .x160

/-- The type that C32 and L64 imply (R71). -/
def impliedType (opc : Nat) : Nat :=
  if [0x20, 0x21, 0x24, 0x25, 0x2A, 0x2B, 0x2C, 0x2D].contains opc then 1
  else if [0x80, 0x81, 0x82, 0x84, 0x85, 0x88, 0x89].contains opc then 5 else 0

/-- The operands of a body in X96's names (R65). -/
def Body.op (opc : Nat) : Body → Op
  | .r f => f.op (impliedType opc)
  | .i f => f.op
  | .j f => f.op
  | .l f => f.op (impliedType opc)
  | .x f => f.op
  | .y f lit => f.opWith .x160 lit.toNat

/-- The opcode and body of a constructor (R70, R71, R73); an event row has no encoding. -/
def Instr.code : Instr → Option (Nat × Body)
  | .nop x => some (0x01, .r x)
  | .brC32 x => some (0x02, .j x)
  | .brL64 x => some (0x02, .l x)
  | .briC32 x => some (0x03, .r x)
  | .bri x => some (0x03, .x x)
  | .callC32 x => some (0x04, .j x)
  | .callL64 x => some (0x04, .l x)
  | .calliC32 x => some (0x05, .r x)
  | .calli x => some (0x05, .x x)
  | .ret x => some (0x06, .r x)
  | .join x => some (0x07, .r x)
  | .yield x => some (0x08, .r x)
  | .regangC32 x => some (0x09, .i x)
  | .regang x => some (0x09, .x x)
  | .regroupC32 x => some (0x0A, .r x)
  | .regroup x => some (0x0A, .x x)
  | .exit x => some (0x0B, .r x)
  | .bkpt x => some (0x0C, .r x)
  | .sleep x => some (0x0D, .x x)
  | .spawn x => some (0x0E, x.body)
  | .tlaunch x => some (0x0F, .x x)
  | .baraC32 x => some (0x10, .i x)
  | .bara x => some (0x10, .x x)
  | .barwC32 x => some (0x11, .i x)
  | .barw x => some (0x11, .x x)
  | .barsC32 x => some (0x12, .i x)
  | .bars x => some (0x12, .x x)
  | .rbar x => some (0x13, .x x)
  | .elect x => some (0x14, .r x)
  | .quarter x => some (0x15, .r x)
  | .handoffC32 x => some (0x16, .r x)
  | .handoff x => some (0x16, .x x)
  | .iaddC32 x => some (0x20, .r x)
  | .iadd x => some (0x20, x.body)
  | .isubC32 x => some (0x21, .r x)
  | .isub x => some (0x21, x.body)
  | .iaddx x => some (0x22, .x x)
  | .isubx x => some (0x23, .x x)
  | .imulC32 x => some (0x24, .r x)
  | .imul x => some (0x24, x.body)
  | .imulhC32 x => some (0x25, .r x)
  | .imulh x => some (0x25, .x x)
  | .imulw x => some (0x26, .x x)
  | .imad x => some (0x27, x.body)
  | .idiv x => some (0x28, .x x)
  | .irem x => some (0x29, .x x)
  | .inegC32 x => some (0x2A, .r x)
  | .ineg x => some (0x2A, .x x)
  | .iabsC32 x => some (0x2B, .r x)
  | .iabs x => some (0x2B, .x x)
  | .iminC32 x => some (0x2C, .r x)
  | .imin x => some (0x2C, x.body)
  | .imaxC32 x => some (0x2D, .r x)
  | .imax x => some (0x2D, x.body)
  | .isad x => some (0x2E, .x x)
  | .iclamp x => some (0x2F, x.body)
  | .idot x => some (0x30, .x x)
  | .andC32 x => some (0x34, .r x)
  | .and x => some (0x34, x.body)
  | .orC32 x => some (0x35, .r x)
  | .or x => some (0x35, x.body)
  | .xorC32 x => some (0x36, .r x)
  | .xor x => some (0x36, x.body)
  | .notC32 x => some (0x37, .r x)
  | .not x => some (0x37, .x x)
  | .andnC32 x => some (0x38, .r x)
  | .andn x => some (0x38, x.body)
  | .tern x => some (0x39, .x x)
  | .shlC32 x => some (0x3A, .r x)
  | .shl x => some (0x3A, .x x)
  | .shrC32 x => some (0x3B, .r x)
  | .shr x => some (0x3B, .x x)
  | .sarC32 x => some (0x3C, .r x)
  | .sar x => some (0x3C, .x x)
  | .rolC32 x => some (0x3D, .r x)
  | .rol x => some (0x3D, .x x)
  | .funs x => some (0x3E, .x x)
  | .bfx x => some (0x3F, .x x)
  | .bfi x => some (0x40, .x x)
  | .brevC32 x => some (0x41, .r x)
  | .brev x => some (0x41, .x x)
  | .bperm x => some (0x42, .x x)
  | .popcC32 x => some (0x43, .r x)
  | .popc x => some (0x43, .x x)
  | .clzC32 x => some (0x44, .r x)
  | .clz x => some (0x44, .x x)
  | .ctzC32 x => some (0x45, .r x)
  | .ctz x => some (0x45, .x x)
  | .iext x => some (0x46, .x x)
  | .icmp x => some (0x48, .x x)
  | .isel x => some (0x49, .x x)
  | .lea x => some (0x4A, x.body)
  | .pand x => some (0x50, .x x)
  | .por x => some (0x51, .x x)
  | .pxor x => some (0x52, .x x)
  | .pnot x => some (0x53, .x x)
  | .pset x => some (0x54, .x x)
  | .pget x => some (0x55, .x x)
  | .movC32 x => some (0x58, .r x)
  | .mov x => some (0x58, .x x)
  | .moviC32 x => some (0x59, .i x)
  | .movi x => some (0x59, .x x)
  | .movl x => some (0x5A, x.body)
  | .srd x => some (0x5B, .x x)
  | .swr x => some (0x5C, .x x)
  | .region x => some (0x5D, x.body)
  | .perm x => some (0x60, .x x)
  | .shiftwC32 x => some (0x61, .r x)
  | .shiftw x => some (0x61, .x x)
  | .voteC32 x => some (0x62, .r x)
  | .vote x => some (0x62, .x x)
  | .rstep x => some (0x63, .x x)
  | .bcastC32 x => some (0x64, .r x)
  | .bcast x => some (0x64, .x x)
  | .matchLanes x => some (0x65, .x x)
  | .redw x => some (0x66, .x x)
  | .scanw x => some (0x67, .x x)
  | .faddC32 x => some (0x80, .r x)
  | .fadd x => some (0x80, x.body)
  | .fsubC32 x => some (0x81, .r x)
  | .fsub x => some (0x81, x.body)
  | .fmulC32 x => some (0x82, .r x)
  | .fmul x => some (0x82, x.body)
  | .fma x => some (0x83, x.body)
  | .fminC32 x => some (0x84, .r x)
  | .fmin x => some (0x84, .x x)
  | .fmaxC32 x => some (0x85, .r x)
  | .fmax x => some (0x85, .x x)
  | .fcmp x => some (0x86, .x x)
  | .fclass x => some (0x87, .x x)
  | .fabsC32 x => some (0x88, .r x)
  | .fabs x => some (0x88, .x x)
  | .fnegC32 x => some (0x89, .r x)
  | .fneg x => some (0x89, .x x)
  | .fsgn x => some (0x8A, .x x)
  | .frnd x => some (0x8B, .x x)
  | .fscale x => some (0x8C, .x x)
  | .flogb x => some (0x8D, .x x)
  | .fadd2 x => some (0x8E, .x x)
  | .fmul2 x => some (0x8F, .x x)
  | .fma2 x => some (0x90, .x x)
  | .fdot x => some (0x91, .x x)
  | .fdiv x => some (0x94, .x x)
  | .fsqrt x => some (0x95, .x x)
  | .frcp x => some (0x96, .x x)
  | .frsq x => some (0x97, .x x)
  | .fexp x => some (0x98, .x x)
  | .fexpm1 x => some (0x99, .x x)
  | .flog x => some (0x9A, .x x)
  | .flog1p x => some (0x9B, .x x)
  | .ferf x => some (0x9C, .x x)
  | .ferfc x => some (0x9D, .x x)
  | .cvt x => some (0xA0, .x x)
  | .cvti x => some (0xA1, .x x)
  | .cvtf x => some (0xA2, .x x)
  | .packn x => some (0xA3, .x x)
  | .qnt x => some (0xA4, .x x)
  | .dqnt x => some (0xA5, .x x)
  | .rnd x => some (0xA8, .x x)
  | .rndf x => some (0xA9, .x x)
  | .rndm x => some (0xAA, .x x)
  | .ivmk x => some (0xB0, .x x)
  | .ivlo x => some (0xB1, .x x)
  | .ivhi x => some (0xB2, .x x)
  | .ld x => some (0xC0, x.body)
  | .st x => some (0xC1, x.body)
  | .ldsC32 x => some (0xC2, .r x)
  | .lds x => some (0xC2, .x x)
  | .stsC32 x => some (0xC3, .r x)
  | .sts x => some (0xC3, .x x)
  | .ldw x => some (0xC4, .x x)
  | .stw x => some (0xC5, .x x)
  | .sld x => some (0xC6, x.body)
  | .sst x => some (0xC7, x.body)
  | .ldwt x => some (0xC8, .x x)
  | .ldsm x => some (0xC9, .x x)
  | .stf x => some (0xCA, .x x)
  | .cstore x => some (0xCB, .x x)
  | .xload x => some (0xCC, .x x)
  | .atom x => some (0xCD, .x x)
  | .atoms x => some (0xCE, .x x)
  | .atomw x => some (0xCF, .x x)
  | .red x => some (0xD0, .x x)
  | .reds x => some (0xD1, .x x)
  | .cas x => some (0xD2, .x x)
  | .fenceC32 x => some (0xD3, .r x)
  | .fence x => some (0xD3, .x x)
  | .pref x => some (0xD4, .x x)
  | .probe x => some (0xD5, .x x)
  | .cctlEv x => some (0xD6, .x x)
  | .cctlEvall x => some (0xD6, .x x)
  | .cpy x => some (0xE0, x.body)
  | .kickC32 x => some (0xE1, .r x)
  | .kick x => some (0xE1, .x x)
  | .boinit x => some (0xE2, .x x)
  | .boexp x => some (0xE3, .x x)
  | .boarr x => some (0xE4, .x x)
  | .bowaitC32 x => some (0xE5, .r x)
  | .bowait x => some (0xE5, .x x)
  | .bofree x => some (0xE6, .x x)
  | .drain x => some (0xE7, .x x)
  | .reduce x => some (0xE8, .x x)
  | .summ x => some (0xE9, .x x)
  | .mma x => some (0xEA, x.body)
  | .rsv x => some (0xEB, .x x)
  | .rsvfreeC32 x => some (0xEC, .r x)
  | .rsvfree x => some (0xEC, .x x)
  | .obld x => some (0xED, .x x)
  | .accrd x => some (0xEE, .x x)
  | .accst x => some (0xEF, .x x)
  | .acczTake x => some (0xF0, .x x)
  | .acczGive x => some (0xF0, .x x)
  | .acczClr x => some (0xF0, .x x)
  | .resolveC32 x => some (0xF1, .r x)
  | .resolve x => some (0xF1, .x x)
  | .sqload x => some (0xF2, .x x)
  | .sqstart x => some (0xF2, .x x)
  | .sqwait x => some (0xF2, .x x)
  | .sqstat x => some (0xF2, .x x)
  | .sqabort x => some (0xF2, .x x)
  | .msend x => some (0xF3, x.body)
  | .witn x => some (0xF4, .x x)
  | .wstatReg x => some (0xF5, .x x)
  | .wstatAtt x => some (0xF5, .x x)
  | .trapC32 x => some (0xF8, .i x)
  | .trap x => some (0xF8, .x x)
  | .rteRep x => some (0xF9, .r x)
  | .rteSkip x => some (0xF9, .r x)
  | .csrr x => some (0xFA, .x x)
  | .csrw x => some (0xFB, .x x)
  | .halt x => some (0xFC, .r x)
  | .tlbiAll x => some (0xFD, .x x)
  | .tlbiCtx x => some (0xFD, .x x)
  | .tlbiPage x => some (0xFD, .x x)
  | .waiti x => some (0xFE, .r x)
  | .errorDetected _ => none
  | .kaushInboundAccess _ => none
  | .attestationRequest _ => none
  | .pkglim _ => none
  | .dielim _ _ => none
  | .illegalInstruction _ => none
  | .instructionFetchFault _ => none
  | .packagePowerOn => none
  | .firmwareWatchdogReset => none
  | .recoveryMailboxWrite => none
  | .dieReset => none
  | .sqDoorbellWrite => none
  | .cqDoorbellWrite => none
  | .qcommitWrite => none
  | .launchRecordFetch => none
  | .launchDispatch => none
  | .quadAdmission => none
  | .teamRerunAdmission => none
  | .formedWarpAdmission => none
  | .binTimerExpiry => none
  | .aggregatorGroupClose => none
  | .launchCompletion => none
  | .witnessSubmission => none
  | .projCheck => none
  | .orderCheck => none
  | .residualCheck => none
  | .prefixCheck => none
  | .stepCheck => none
  | .shadowMismatch => none
  | .dualComparison => none
  | .rerunDispatch => none
  | .completionRecordWrite => none
  | .releaseGateDelivery => none
  | .storeQueueDrain => none
  | .outboundSend => none
  | .fetch => none
  | .evict => none
  | .engineQueueApply => none
  | .atomicPerform => none
  | .walkComplete => none
  | .accessComplete => none
  | .fqretryWrite => none
  | .fqdeliverWrite => none
  | .fqheadWrite => none
  | .fabricRequestArrival => none
  | .fabricResponseArrival => none
  | .fabricAckArrival => none
  | .retransmitTimerExpiry => none
  | .messageArrival => none
  | .spawnPlacement => none
  | .quarterEvent => none
  | .handoffGroupPlace => none
  | .taskStart => none
  | .copySectorLand => none
  | .taskComplete => none
  | .refreshSlotEnd => none
  | .weightWriteWindowOpen => none
  | .weightStoreDigestCheck => none
  | .sleepExpiry => none
  | .bowaitSatisfied => none
  | .regangMerge => none
  | .regroupFusion => none
  | .teamSave => none
  | .teamRestore => none
  | .preemptSave => none
  | .preemptDrain => none
  | .preemptDiscard => none
  | .sevWrite => none
  | .stagingPoolConfigWrite => none
  | .savePoolConfigWrite => none
  | .peerWindowConfigWrite => none
  | .fwmodeWrite => none
  | .lclaimWrite => none
  | .lrenewWrite => none
  | .plimWrite => none
  | .thotWrite => none
  | .scancfgWrite => none
  | .frappWrite => none
  | .finjWrite => none
  | .temperatureSample => none
  | .doldrumsScanStart => none
  | .scanComplete => none
  | .scanAbort => none
  | .clusterMapUpdate => none
  | .attestationReportWrite => none
  | .temps => none
  | .fread => none
  | .fack => none
  | .waitiWake => none
  | .solverRunStart => none
  | .solverStageLaunch => none
  | .solverStageEnd => none
  | .combineWitnessCheck => none

/-- The sub-operation, or RTE's A field, by which one opcode carries several constructors (R73, R234, R303, R325, R410). -/
def Instr.selector : Instr → Option Nat
  | .nop _ => none
  | .brC32 _ => none
  | .brL64 _ => none
  | .briC32 _ => none
  | .bri _ => none
  | .callC32 _ => none
  | .callL64 _ => none
  | .calliC32 _ => none
  | .calli _ => none
  | .ret _ => none
  | .join _ => none
  | .yield _ => none
  | .regangC32 _ => none
  | .regang _ => none
  | .regroupC32 _ => none
  | .regroup _ => none
  | .exit _ => none
  | .bkpt _ => none
  | .sleep _ => none
  | .spawn _ => none
  | .tlaunch _ => none
  | .baraC32 _ => none
  | .bara _ => none
  | .barwC32 _ => none
  | .barw _ => none
  | .barsC32 _ => none
  | .bars _ => none
  | .rbar _ => none
  | .elect _ => none
  | .quarter _ => none
  | .handoffC32 _ => none
  | .handoff _ => none
  | .iaddC32 _ => none
  | .iadd _ => none
  | .isubC32 _ => none
  | .isub _ => none
  | .iaddx _ => none
  | .isubx _ => none
  | .imulC32 _ => none
  | .imul _ => none
  | .imulhC32 _ => none
  | .imulh _ => none
  | .imulw _ => none
  | .imad _ => none
  | .idiv _ => none
  | .irem _ => none
  | .inegC32 _ => none
  | .ineg _ => none
  | .iabsC32 _ => none
  | .iabs _ => none
  | .iminC32 _ => none
  | .imin _ => none
  | .imaxC32 _ => none
  | .imax _ => none
  | .isad _ => none
  | .iclamp _ => none
  | .idot _ => none
  | .andC32 _ => none
  | .and _ => none
  | .orC32 _ => none
  | .or _ => none
  | .xorC32 _ => none
  | .xor _ => none
  | .notC32 _ => none
  | .not _ => none
  | .andnC32 _ => none
  | .andn _ => none
  | .tern _ => none
  | .shlC32 _ => none
  | .shl _ => none
  | .shrC32 _ => none
  | .shr _ => none
  | .sarC32 _ => none
  | .sar _ => none
  | .rolC32 _ => none
  | .rol _ => none
  | .funs _ => none
  | .bfx _ => none
  | .bfi _ => none
  | .brevC32 _ => none
  | .brev _ => none
  | .bperm _ => none
  | .popcC32 _ => none
  | .popc _ => none
  | .clzC32 _ => none
  | .clz _ => none
  | .ctzC32 _ => none
  | .ctz _ => none
  | .iext _ => none
  | .icmp _ => none
  | .isel _ => none
  | .lea _ => none
  | .pand _ => none
  | .por _ => none
  | .pxor _ => none
  | .pnot _ => none
  | .pset _ => none
  | .pget _ => none
  | .movC32 _ => none
  | .mov _ => none
  | .moviC32 _ => none
  | .movi _ => none
  | .movl _ => none
  | .srd _ => none
  | .swr _ => none
  | .region _ => none
  | .perm _ => none
  | .shiftwC32 _ => none
  | .shiftw _ => none
  | .voteC32 _ => none
  | .vote _ => none
  | .rstep _ => none
  | .bcastC32 _ => none
  | .bcast _ => none
  | .matchLanes _ => none
  | .redw _ => none
  | .scanw _ => none
  | .faddC32 _ => none
  | .fadd _ => none
  | .fsubC32 _ => none
  | .fsub _ => none
  | .fmulC32 _ => none
  | .fmul _ => none
  | .fma _ => none
  | .fminC32 _ => none
  | .fmin _ => none
  | .fmaxC32 _ => none
  | .fmax _ => none
  | .fcmp _ => none
  | .fclass _ => none
  | .fabsC32 _ => none
  | .fabs _ => none
  | .fnegC32 _ => none
  | .fneg _ => none
  | .fsgn _ => none
  | .frnd _ => none
  | .fscale _ => none
  | .flogb _ => none
  | .fadd2 _ => none
  | .fmul2 _ => none
  | .fma2 _ => none
  | .fdot _ => none
  | .fdiv _ => none
  | .fsqrt _ => none
  | .frcp _ => none
  | .frsq _ => none
  | .fexp _ => none
  | .fexpm1 _ => none
  | .flog _ => none
  | .flog1p _ => none
  | .ferf _ => none
  | .ferfc _ => none
  | .cvt _ => none
  | .cvti _ => none
  | .cvtf _ => none
  | .packn _ => none
  | .qnt _ => none
  | .dqnt _ => none
  | .rnd _ => none
  | .rndf _ => none
  | .rndm _ => none
  | .ivmk _ => none
  | .ivlo _ => none
  | .ivhi _ => none
  | .ld _ => none
  | .st _ => none
  | .ldsC32 _ => none
  | .lds _ => none
  | .stsC32 _ => none
  | .sts _ => none
  | .ldw _ => none
  | .stw _ => none
  | .sld _ => none
  | .sst _ => none
  | .ldwt _ => none
  | .ldsm _ => none
  | .stf _ => none
  | .cstore _ => none
  | .xload _ => none
  | .atom _ => none
  | .atoms _ => none
  | .atomw _ => none
  | .red _ => none
  | .reds _ => none
  | .cas _ => none
  | .fenceC32 _ => none
  | .fence _ => none
  | .pref _ => none
  | .probe _ => none
  | .cctlEv _ => some 0
  | .cctlEvall _ => some 1
  | .cpy _ => none
  | .kickC32 _ => none
  | .kick _ => none
  | .boinit _ => none
  | .boexp _ => none
  | .boarr _ => none
  | .bowaitC32 _ => none
  | .bowait _ => none
  | .bofree _ => none
  | .drain _ => none
  | .reduce _ => none
  | .summ _ => none
  | .mma _ => none
  | .rsv _ => none
  | .rsvfreeC32 _ => none
  | .rsvfree _ => none
  | .obld _ => none
  | .accrd _ => none
  | .accst _ => none
  | .acczTake _ => some 1
  | .acczGive _ => some 2
  | .acczClr _ => some 0
  | .resolveC32 _ => none
  | .resolve _ => none
  | .sqload _ => some 0
  | .sqstart _ => some 1
  | .sqwait _ => some 2
  | .sqstat _ => some 3
  | .sqabort _ => some 4
  | .msend _ => none
  | .witn _ => none
  | .wstatReg _ => some 0
  | .wstatAtt _ => some 1
  | .trapC32 _ => none
  | .trap _ => none
  | .rteRep _ => some 0
  | .rteSkip _ => some 1
  | .csrr _ => none
  | .csrw _ => none
  | .halt _ => none
  | .tlbiAll _ => some 0
  | .tlbiCtx _ => some 1
  | .tlbiPage _ => some 2
  | .waiti _ => none
  | .errorDetected _ => none
  | .kaushInboundAccess _ => none
  | .attestationRequest _ => none
  | .pkglim _ => none
  | .dielim _ _ => none
  | .illegalInstruction _ => none
  | .instructionFetchFault _ => none
  | .packagePowerOn => none
  | .firmwareWatchdogReset => none
  | .recoveryMailboxWrite => none
  | .dieReset => none
  | .sqDoorbellWrite => none
  | .cqDoorbellWrite => none
  | .qcommitWrite => none
  | .launchRecordFetch => none
  | .launchDispatch => none
  | .quadAdmission => none
  | .teamRerunAdmission => none
  | .formedWarpAdmission => none
  | .binTimerExpiry => none
  | .aggregatorGroupClose => none
  | .launchCompletion => none
  | .witnessSubmission => none
  | .projCheck => none
  | .orderCheck => none
  | .residualCheck => none
  | .prefixCheck => none
  | .stepCheck => none
  | .shadowMismatch => none
  | .dualComparison => none
  | .rerunDispatch => none
  | .completionRecordWrite => none
  | .releaseGateDelivery => none
  | .storeQueueDrain => none
  | .outboundSend => none
  | .fetch => none
  | .evict => none
  | .engineQueueApply => none
  | .atomicPerform => none
  | .walkComplete => none
  | .accessComplete => none
  | .fqretryWrite => none
  | .fqdeliverWrite => none
  | .fqheadWrite => none
  | .fabricRequestArrival => none
  | .fabricResponseArrival => none
  | .fabricAckArrival => none
  | .retransmitTimerExpiry => none
  | .messageArrival => none
  | .spawnPlacement => none
  | .quarterEvent => none
  | .handoffGroupPlace => none
  | .taskStart => none
  | .copySectorLand => none
  | .taskComplete => none
  | .refreshSlotEnd => none
  | .weightWriteWindowOpen => none
  | .weightStoreDigestCheck => none
  | .sleepExpiry => none
  | .bowaitSatisfied => none
  | .regangMerge => none
  | .regroupFusion => none
  | .teamSave => none
  | .teamRestore => none
  | .preemptSave => none
  | .preemptDrain => none
  | .preemptDiscard => none
  | .sevWrite => none
  | .stagingPoolConfigWrite => none
  | .savePoolConfigWrite => none
  | .peerWindowConfigWrite => none
  | .fwmodeWrite => none
  | .lclaimWrite => none
  | .lrenewWrite => none
  | .plimWrite => none
  | .thotWrite => none
  | .scancfgWrite => none
  | .frappWrite => none
  | .finjWrite => none
  | .temperatureSample => none
  | .doldrumsScanStart => none
  | .scanComplete => none
  | .scanAbort => none
  | .clusterMapUpdate => none
  | .attestationReportWrite => none
  | .temps => none
  | .fread => none
  | .fack => none
  | .waitiWake => none
  | .solverRunStart => none
  | .solverStageLaunch => none
  | .solverStageEnd => none
  | .combineWitnessCheck => none

/-- What `Instr.selector` selects by. -/
def Body.selector (opc : Nat) : Body → Nat
  | .r f => f.a.toNat
  | b => (b.op opc).op7

/-- The opcode has a form with the layout of the body (R71). -/
def Body.allowed (opc : Nat) : Body → Bool
  | .l _ => [0x02, 0x04, 0x20, 0x21, 0x24, 0x2C, 0x2D, 0x34, 0x35, 0x36, 0x38, 0x5A, 0x80, 0x81, 0x82].contains opc
  | .x _ => opc != 0x5A
  | .y _ _ => [0x0E, 0x20, 0x21, 0x24, 0x27, 0x2F, 0x34, 0x35, 0x36, 0x4A, 0x5A, 0x5D, 0x80, 0x81, 0x82, 0x83, 0xC0, 0xC1, 0xC6, 0xC7, 0xE0,
      0xEA, 0xF3].contains opc
  | _ => true

/-- The lowest detail code of R67 that the instruction's words raise; `none` when they are an instruction. -/
def Instr.detail (super : Bool) (i : Instr) : Option Nat :=
  match i.code with
  | none => none
  | some (opc, b) => if b.allowed opc then (b.op opc).detail opc super else some 2

/-- A well-formed instruction: its words are the ones decoded to it, and raise nothing in supervisor mode (R67). -/
def Instr.wf (i : Instr) : Bool :=
  match i.code with
  | none => false
  | some (opc, b) =>
    i.detail true = none && (match i.selector with | none => true | some n => b.selector opc = n)

end Sys2Proof
end

