-- ==== Sys2Proof/Decode.lean ====
section
/-!
DEFINITION. The decoder: words to an instruction, or the detail code of R67 that rejects them; and the encoder. It is total on any
words. A later word is looked at only after all the words LEN announces are there (R68).
-/
namespace Sys2Proof

/-- Words the first word announces (R49). -/
def lenWords (w0 : Word) : Nat :=
  match (w0.extractLsb' 0 2).toNat with | 0 => 1 | 1 => 2 | 2 => 3 | _ => 5

/-- OPC (R50). -/
def opcOf (w0 : Word) : Nat := (w0.extractLsb' 2 8).toNat

/-- The guard fields (R50). -/
def guardOf (w0 : Word) : Guard := { gs := w0.getLsbD 13, gp := w0.extractLsb' 10 3 }

/-- C32-R fields (R52). -/
def c32rOf (w : Word) : C32R := { g := guardOf w, d := w.extractLsb' 14 6, a := w.extractLsb' 20 6, b := w.extractLsb' 26 6 }
/-- C32-I fields (R52). -/
def c32iOf (w : Word) : C32I := { g := guardOf w, d := w.extractLsb' 14 6, imm := w.extractLsb' 20 12 }
/-- C32-J fields (R52). -/
def c32jOf (w : Word) : C32J := { g := guardOf w, j := w.extractLsb' 14 18 }
/-- L64 fields (R54). -/
def l64Of (w lit : Word) : L64 :=
  { g := guardOf w, d := w.extractLsb' 14 8, a := w.extractLsb' 22 8, la := w.getLsbD 30, w := w.getLsbD 31, lit := lit }
/-- X96 fields (R55). -/
def x96Of (w0 w1 w2 : Word) : X96 :=
  { g := guardOf w0, d := w0.extractLsb' 14 8, a := w0.extractLsb' 22 8, la := w0.getLsbD 30, lb := w0.getLsbD 31,
    b := w1.extractLsb' 0 8, c := w1.extractLsb' 8 8, lc := w1.getLsbD 16, ixa := w1.getLsbD 17, ixb := w1.getLsbD 18,
    ixc := w1.getLsbD 19, bkd := w1.getLsbD 20, bka := w1.getLsbD 21, bkb := w1.getLsbD 22, bkc := w1.getLsbD 23,
    op7 := w1.extractLsb' 24 7, immb := w1.getLsbD 31, rm := w2.extractLsb' 0 3, sat := w2.getLsbD 3, type := w2.extractLsb' 4 4,
    scope := w2.extractLsb' 8 3, acq := w2.getLsbD 11, rel := w2.getLsbD 12, res := w2.extractLsb' 13 3, imm16 := w2.extractLsb' 16 16 }

/-- The C32-R opcodes (R71). -/
def decodeR (opc : Nat) (x : C32R) : Option Instr :=
  match opc with
  | 0x01 => some (.nop x)
  | 0x03 => some (.briC32 x)
  | 0x05 => some (.calliC32 x)
  | 0x06 => some (.ret x)
  | 0x07 => some (.join x)
  | 0x08 => some (.yield x)
  | 0x0A => some (.regroupC32 x)
  | 0x0B => some (.exit x)
  | 0x0C => some (.bkpt x)
  | 0x14 => some (.elect x)
  | 0x15 => some (.quarter x)
  | 0x16 => some (.handoffC32 x)
  | 0x20 => some (.iaddC32 x)
  | 0x21 => some (.isubC32 x)
  | 0x24 => some (.imulC32 x)
  | 0x25 => some (.imulhC32 x)
  | 0x2A => some (.inegC32 x)
  | 0x2B => some (.iabsC32 x)
  | 0x2C => some (.iminC32 x)
  | 0x2D => some (.imaxC32 x)
  | 0x34 => some (.andC32 x)
  | 0x35 => some (.orC32 x)
  | 0x36 => some (.xorC32 x)
  | 0x37 => some (.notC32 x)
  | 0x38 => some (.andnC32 x)
  | 0x3A => some (.shlC32 x)
  | 0x3B => some (.shrC32 x)
  | 0x3C => some (.sarC32 x)
  | 0x3D => some (.rolC32 x)
  | 0x41 => some (.brevC32 x)
  | 0x43 => some (.popcC32 x)
  | 0x44 => some (.clzC32 x)
  | 0x45 => some (.ctzC32 x)
  | 0x58 => some (.movC32 x)
  | 0x61 => some (.shiftwC32 x)
  | 0x62 => some (.voteC32 x)
  | 0x64 => some (.bcastC32 x)
  | 0x80 => some (.faddC32 x)
  | 0x81 => some (.fsubC32 x)
  | 0x82 => some (.fmulC32 x)
  | 0x84 => some (.fminC32 x)
  | 0x85 => some (.fmaxC32 x)
  | 0x88 => some (.fabsC32 x)
  | 0x89 => some (.fnegC32 x)
  | 0xC2 => some (.ldsC32 x)
  | 0xC3 => some (.stsC32 x)
  | 0xD3 => some (.fenceC32 x)
  | 0xE1 => some (.kickC32 x)
  | 0xE5 => some (.bowaitC32 x)
  | 0xEC => some (.rsvfreeC32 x)
  | 0xF1 => some (.resolveC32 x)
  | 0xF9 => some (if x.a.toNat = 0 then .rteRep x else .rteSkip x)
  | 0xFC => some (.halt x)
  | 0xFE => some (.waiti x)
  | _ => none

/-- The C32-I opcodes (R71). -/
def decodeI (opc : Nat) (x : C32I) : Option Instr :=
  match opc with
  | 0x09 => some (.regangC32 x)
  | 0x10 => some (.baraC32 x)
  | 0x11 => some (.barwC32 x)
  | 0x12 => some (.barsC32 x)
  | 0x59 => some (.moviC32 x)
  | 0xF8 => some (.trapC32 x)
  | _ => none

/-- The C32-J opcodes (R71). -/
def decodeJ (opc : Nat) (x : C32J) : Option Instr :=
  match opc with
  | 0x02 => some (.brC32 x)
  | 0x04 => some (.callC32 x)
  | _ => none

/-- The opcodes with an L64 form (R71). -/
def decodeL (opc : Nat) (x : L64) : Option Instr :=
  match opc with
  | 0x02 => some (.brL64 x)
  | 0x04 => some (.callL64 x)
  | 0x20 => some (.iadd (.l x))
  | 0x21 => some (.isub (.l x))
  | 0x24 => some (.imul (.l x))
  | 0x2C => some (.imin (.l x))
  | 0x2D => some (.imax (.l x))
  | 0x34 => some (.and (.l x))
  | 0x35 => some (.or (.l x))
  | 0x36 => some (.xor (.l x))
  | 0x38 => some (.andn (.l x))
  | 0x5A => some (.movl (.l x))
  | 0x80 => some (.fadd (.l x))
  | 0x81 => some (.fsub (.l x))
  | 0x82 => some (.fmul (.l x))
  | _ => none

/-- The opcodes with an X96 form (R71, R73). -/
def decodeX (opc : Nat) (x : X96) : Option Instr :=
  match opc with
  | 0x03 => some (.bri x)
  | 0x05 => some (.calli x)
  | 0x09 => some (.regang x)
  | 0x0A => some (.regroup x)
  | 0x0D => some (.sleep x)
  | 0x0E => some (.spawn (.x x))
  | 0x0F => some (.tlaunch x)
  | 0x10 => some (.bara x)
  | 0x11 => some (.barw x)
  | 0x12 => some (.bars x)
  | 0x13 => some (.rbar x)
  | 0x16 => some (.handoff x)
  | 0x20 => some (.iadd (.x x))
  | 0x21 => some (.isub (.x x))
  | 0x22 => some (.iaddx x)
  | 0x23 => some (.isubx x)
  | 0x24 => some (.imul (.x x))
  | 0x25 => some (.imulh x)
  | 0x26 => some (.imulw x)
  | 0x27 => some (.imad (.x x))
  | 0x28 => some (.idiv x)
  | 0x29 => some (.irem x)
  | 0x2A => some (.ineg x)
  | 0x2B => some (.iabs x)
  | 0x2C => some (.imin (.x x))
  | 0x2D => some (.imax (.x x))
  | 0x2E => some (.isad x)
  | 0x2F => some (.iclamp (.x x))
  | 0x30 => some (.idot x)
  | 0x34 => some (.and (.x x))
  | 0x35 => some (.or (.x x))
  | 0x36 => some (.xor (.x x))
  | 0x37 => some (.not x)
  | 0x38 => some (.andn (.x x))
  | 0x39 => some (.tern x)
  | 0x3A => some (.shl x)
  | 0x3B => some (.shr x)
  | 0x3C => some (.sar x)
  | 0x3D => some (.rol x)
  | 0x3E => some (.funs x)
  | 0x3F => some (.bfx x)
  | 0x40 => some (.bfi x)
  | 0x41 => some (.brev x)
  | 0x42 => some (.bperm x)
  | 0x43 => some (.popc x)
  | 0x44 => some (.clz x)
  | 0x45 => some (.ctz x)
  | 0x46 => some (.iext x)
  | 0x48 => some (.icmp x)
  | 0x49 => some (.isel x)
  | 0x4A => some (.lea (.x x))
  | 0x50 => some (.pand x)
  | 0x51 => some (.por x)
  | 0x52 => some (.pxor x)
  | 0x53 => some (.pnot x)
  | 0x54 => some (.pset x)
  | 0x55 => some (.pget x)
  | 0x58 => some (.mov x)
  | 0x59 => some (.movi x)
  | 0x5B => some (.srd x)
  | 0x5C => some (.swr x)
  | 0x5D => some (.region (.x x))
  | 0x60 => some (.perm x)
  | 0x61 => some (.shiftw x)
  | 0x62 => some (.vote x)
  | 0x63 => some (.rstep x)
  | 0x64 => some (.bcast x)
  | 0x65 => some (.matchLanes x)
  | 0x66 => some (.redw x)
  | 0x67 => some (.scanw x)
  | 0x80 => some (.fadd (.x x))
  | 0x81 => some (.fsub (.x x))
  | 0x82 => some (.fmul (.x x))
  | 0x83 => some (.fma (.x x))
  | 0x84 => some (.fmin x)
  | 0x85 => some (.fmax x)
  | 0x86 => some (.fcmp x)
  | 0x87 => some (.fclass x)
  | 0x88 => some (.fabs x)
  | 0x89 => some (.fneg x)
  | 0x8A => some (.fsgn x)
  | 0x8B => some (.frnd x)
  | 0x8C => some (.fscale x)
  | 0x8D => some (.flogb x)
  | 0x8E => some (.fadd2 x)
  | 0x8F => some (.fmul2 x)
  | 0x90 => some (.fma2 x)
  | 0x91 => some (.fdot x)
  | 0x94 => some (.fdiv x)
  | 0x95 => some (.fsqrt x)
  | 0x96 => some (.frcp x)
  | 0x97 => some (.frsq x)
  | 0x98 => some (.fexp x)
  | 0x99 => some (.fexpm1 x)
  | 0x9A => some (.flog x)
  | 0x9B => some (.flog1p x)
  | 0x9C => some (.ferf x)
  | 0x9D => some (.ferfc x)
  | 0xA0 => some (.cvt x)
  | 0xA1 => some (.cvti x)
  | 0xA2 => some (.cvtf x)
  | 0xA3 => some (.packn x)
  | 0xA4 => some (.qnt x)
  | 0xA5 => some (.dqnt x)
  | 0xA8 => some (.rnd x)
  | 0xA9 => some (.rndf x)
  | 0xAA => some (.rndm x)
  | 0xB0 => some (.ivmk x)
  | 0xB1 => some (.ivlo x)
  | 0xB2 => some (.ivhi x)
  | 0xC0 => some (.ld (.x x))
  | 0xC1 => some (.st (.x x))
  | 0xC2 => some (.lds x)
  | 0xC3 => some (.sts x)
  | 0xC4 => some (.ldw x)
  | 0xC5 => some (.stw x)
  | 0xC6 => some (.sld (.x x))
  | 0xC7 => some (.sst (.x x))
  | 0xC8 => some (.ldwt x)
  | 0xC9 => some (.ldsm x)
  | 0xCA => some (.stf x)
  | 0xCB => some (.cstore x)
  | 0xCC => some (.xload x)
  | 0xCD => some (.atom x)
  | 0xCE => some (.atoms x)
  | 0xCF => some (.atomw x)
  | 0xD0 => some (.red x)
  | 0xD1 => some (.reds x)
  | 0xD2 => some (.cas x)
  | 0xD3 => some (.fence x)
  | 0xD4 => some (.pref x)
  | 0xD5 => some (.probe x)
  | 0xD6 => some (if x.op7.toNat = 0 then .cctlEv x else .cctlEvall x)
  | 0xE0 => some (.cpy (.x x))
  | 0xE1 => some (.kick x)
  | 0xE2 => some (.boinit x)
  | 0xE3 => some (.boexp x)
  | 0xE4 => some (.boarr x)
  | 0xE5 => some (.bowait x)
  | 0xE6 => some (.bofree x)
  | 0xE7 => some (.drain x)
  | 0xE8 => some (.reduce x)
  | 0xE9 => some (.summ x)
  | 0xEA => some (.mma (.x x))
  | 0xEB => some (.rsv x)
  | 0xEC => some (.rsvfree x)
  | 0xED => some (.obld x)
  | 0xEE => some (.accrd x)
  | 0xEF => some (.accst x)
  | 0xF0 => some (if x.op7.toNat = 0 then .acczClr x else if x.op7.toNat = 1 then .acczTake x else .acczGive x)
  | 0xF1 => some (.resolve x)
  | 0xF2 => some (if x.op7.toNat = 0 then .sqload x else if x.op7.toNat = 1 then .sqstart x else if x.op7.toNat = 2 then .sqwait x else if x.op7.toNat = 3 then .sqstat x else .sqabort x)
  | 0xF3 => some (.msend (.x x))
  | 0xF4 => some (.witn x)
  | 0xF5 => some (if x.op7.toNat = 0 then .wstatReg x else .wstatAtt x)
  | 0xF8 => some (.trap x)
  | 0xFA => some (.csrr x)
  | 0xFB => some (.csrw x)
  | 0xFD => some (if x.op7.toNat = 0 then .tlbiAll x else if x.op7.toNat = 1 then .tlbiCtx x else .tlbiPage x)
  | _ => none

/-- The opcodes with an X160 form (R71). -/
def decodeY (opc : Nat) (x : X96) (lit : BitVec 64) : Option Instr :=
  match opc with
  | 0x0E => some (.spawn (.y x lit))
  | 0x20 => some (.iadd (.y x lit))
  | 0x21 => some (.isub (.y x lit))
  | 0x24 => some (.imul (.y x lit))
  | 0x27 => some (.imad (.y x lit))
  | 0x2F => some (.iclamp (.y x lit))
  | 0x34 => some (.and (.y x lit))
  | 0x35 => some (.or (.y x lit))
  | 0x36 => some (.xor (.y x lit))
  | 0x4A => some (.lea (.y x lit))
  | 0x5A => some (.movl (.y x lit))
  | 0x5D => some (.region (.y x lit))
  | 0x80 => some (.fadd (.y x lit))
  | 0x81 => some (.fsub (.y x lit))
  | 0x82 => some (.fmul (.y x lit))
  | 0x83 => some (.fma (.y x lit))
  | 0xC0 => some (.ld (.y x lit))
  | 0xC1 => some (.st (.y x lit))
  | 0xC6 => some (.sld (.y x lit))
  | 0xC7 => some (.sst (.y x lit))
  | 0xE0 => some (.cpy (.y x lit))
  | 0xEA => some (.mma (.y x lit))
  | 0xF3 => some (.msend (.y x lit))
  | _ => none

/-- Opcodes that are assigned (R70). -/
def assigned (opc : Nat) : Bool :=
  (0x01 ≤ opc ∧ opc ≤ 0x16) ∨ (0x20 ≤ opc ∧ opc ≤ 0x30) ∨ (0x34 ≤ opc ∧ opc ≤ 0x46) ∨ (0x48 ≤ opc ∧ opc ≤ 0x4A) ∨
  (0x50 ≤ opc ∧ opc ≤ 0x55) ∨ (0x58 ≤ opc ∧ opc ≤ 0x5D) ∨ (0x60 ≤ opc ∧ opc ≤ 0x67) ∨ (0x80 ≤ opc ∧ opc ≤ 0x91) ∨
  (0x94 ≤ opc ∧ opc ≤ 0x9D) ∨ (0xA0 ≤ opc ∧ opc ≤ 0xA5) ∨ (0xA8 ≤ opc ∧ opc ≤ 0xAA) ∨ (0xB0 ≤ opc ∧ opc ≤ 0xB2) ∨
  (0xC0 ≤ opc ∧ opc ≤ 0xD6) ∨ (0xE0 ≤ opc ∧ opc ≤ 0xF5) ∨ (0xF8 ≤ opc ∧ opc ≤ 0xFE)

/-- The instruction of a body, in any of the three layouts of C32, before the checks of R67. -/
def ofWords (w0 : Word) (rest : List Word) : Option Instr :=
  let opc := opcOf w0
  match (w0.extractLsb' 0 2).toNat, rest with
  | 0, _ => (decodeR opc (c32rOf w0)).orElse fun _ => (decodeI opc (c32iOf w0)).orElse fun _ => decodeJ opc (c32jOf w0)
  | 1, w1 :: _ => decodeL opc (l64Of w0 w1)
  | 2, w1 :: w2 :: _ => decodeX opc (x96Of w0 w1 w2)
  | 3, w1 :: w2 :: w3 :: w4 :: _ => decodeY opc (x96Of w0 w1 w2) (w4 ++ w3)
  | _, _ => none

/-- What the decoder makes of the words of one fetch (R67, R68). -/
inductive Decoded where
  /-- An instruction of `n` words. -/
  | instr (i : Instr) (n : Nat)
  /-- Not an instruction: the lowest detail code that applies. -/
  | illegal (detail : Nat)
  deriving DecidableEq, Repr

/-- Decode the words at an address; `rest` holds the words after the first that LEN announces (R67, R68). -/
def decodeWords (super : Bool) (w0 : Word) (rest : List Word) : Decoded :=
  if ¬ assigned (opcOf w0) then .illegal 1
  else match ofWords w0 rest with
    | none => .illegal 2
    | some i =>
      match i.detail super with
      | some d => .illegal d
      | none => .instr i (lenWords w0)

/-- The words stored little-endian at the bytes given (R4, R49). -/
def wordsOfBytes : List Byte → List Word
  | b0 :: b1 :: b2 :: b3 :: rest => (b3 ++ b2 ++ b1 ++ b0) :: wordsOfBytes rest
  | _ => []

/-- The bytes of words, first word lowest (R49). -/
def bytesOfWords : List Word → List Byte
  | [] => []
  | w :: rest => w.extractLsb' 0 8 :: w.extractLsb' 8 8 :: w.extractLsb' 16 8 :: w.extractLsb' 24 8 :: bytesOfWords rest

/-- Decode the instruction that begins a byte string; too few bytes, or a rejected encoding, is `none`. -/
def decodeBytes (super : Bool) (bs : List Byte) : Option (Instr × Nat) :=
  match wordsOfBytes bs with
  | [] => none
  | w0 :: rest =>
    if rest.length + 1 < lenWords w0 then none
    else match decodeWords super w0 rest with
      | .instr i n => some (i, n)
      | .illegal _ => none

/-- The words of a table word: bit 0 is the least significant bit of the first word. -/
def tableWords (w : Nat) : List Word := (List.range 5).map fun k => BitVec.ofNat 32 (w / 2 ^ (32 * k))

/-- The instruction the decoder reads from a table word, in supervisor mode. -/
def decodeTableWord (nbits w : Nat) : Option Instr :=
  (decodeBytes true (bytesOfWords (tableWords (w % 2 ^ nbits)))).map (·.1)

/-- Word 0 of C32-R. -/
def C32R.word (opc : BitVec 8) (x : C32R) : Word := x.b ++ x.a ++ x.d ++ BitVec.ofBool x.g.gs ++ x.g.gp ++ opc ++ 0#2
/-- Word 0 of C32-I. -/
def C32I.word (opc : BitVec 8) (x : C32I) : Word := x.imm ++ x.d ++ BitVec.ofBool x.g.gs ++ x.g.gp ++ opc ++ 0#2
/-- Word 0 of C32-J. -/
def C32J.word (opc : BitVec 8) (x : C32J) : Word := x.j ++ BitVec.ofBool x.g.gs ++ x.g.gp ++ opc ++ 0#2
/-- Word 0 of L64. -/
def L64.word (opc : BitVec 8) (x : L64) : Word :=
  BitVec.ofBool x.w ++ BitVec.ofBool x.la ++ x.a ++ x.d ++ BitVec.ofBool x.g.gs ++ x.g.gp ++ opc ++ 1#2
/-- Word 0 of X96 and, with LEN 3, of X160. -/
def X96.word0 (opc : BitVec 8) (len : BitVec 2) (x : X96) : Word :=
  BitVec.ofBool x.lb ++ BitVec.ofBool x.la ++ x.a ++ x.d ++ BitVec.ofBool x.g.gs ++ x.g.gp ++ opc ++ len
/-- Word 1. -/
def X96.word1 (x : X96) : Word :=
  BitVec.ofBool x.immb ++ x.op7 ++ BitVec.ofBool x.bkc ++ BitVec.ofBool x.bkb ++ BitVec.ofBool x.bka ++ BitVec.ofBool x.bkd ++
  BitVec.ofBool x.ixc ++ BitVec.ofBool x.ixb ++ BitVec.ofBool x.ixa ++ BitVec.ofBool x.lc ++ x.c ++ x.b
/-- Word 2. -/
def X96.word2 (x : X96) : Word :=
  x.imm16 ++ x.res ++ BitVec.ofBool x.rel ++ BitVec.ofBool x.acq ++ x.scope ++ x.type ++ BitVec.ofBool x.sat ++ x.rm

/-- The words of a body (R49 to R55). -/
def Body.words (opc : BitVec 8) : Body → List Word
  | .r f => [f.word opc]
  | .i f => [f.word opc]
  | .j f => [f.word opc]
  | .l f => [f.word opc, f.lit]
  | .x f => [f.word0 opc 2#2, f.word1, f.word2]
  | .y f lit => [f.word0 opc 3#2, f.word1, f.word2, lit.extractLsb' 0 32, lit.extractLsb' 32 32]

/-- The encoder: the words of an instruction; an event row has none. -/
def encode (i : Instr) : List Word :=
  match i.code with
  | none => []
  | some (opc, b) => b.words (BitVec.ofNat 8 opc)

end Sys2Proof
end

