-- ==== Sys2Proof/Config.lean ====
section
/-!
DEFINITION. What this part fixes (R18, R438, R441) and the values the manual leaves open. An opaque constant has no body:
nothing can be proved of its value, so a statement about it holds for every value.
-/
namespace Sys2Proof.Config

/-- Warp width W of this part (R18). -/
def warpWidth : Nat := 32
/-- Visible width of a protected launch (R425). -/
def protectedWidth : Nat := 16
/-- Bytes of HBM: valid physical addresses are below this (R102). -/
def hbmBytes : Nat := 576000000000
/-- Bytes of one die region (R102). -/
def dieRegion : Nat := 144000000000
/-- Bytes of one die's weight store (R18, R113). -/
def weightBytes : Nat := 0x20000000
/-- Scratchpad bytes per core (R18). -/
def scratchBytes : Nat := 786432
/-- Fuse value of THOT, 87.5 degrees (R438). -/
def thotFuse : Nat := 0x578
/-- Trip temperature, 105.0 degrees (R438). -/
def tripTemp : Nat := 0x690
/-- Power limit of a die (R438) and of the package (R441), in watts. -/
def plimMax : Nat := 620
def pkgLimMax : Nat := 3300
/-- The firmware region: the first 16 MiB (R434). -/
def fwRegion : Nat := 16777216

/-- SM3 of a byte string: a standard the manual names and does not define (log 14). -/
opaque sm3 : List Byte → BitVec 256
/-- SM3 of `n` bytes that are 0 but for the listed ones: of a weight store, or of a version (R115, R116, R317; log 14). -/
opaque sm3Image : Nat → List (Nat × Byte) → BitVec 256
/-- Whether the SM2 signature that ends a firmware image verifies (R433; log 14). -/
opaque sm2Verify : List Byte → Bool
/-- The SM2 signature of CK over a digest (R437; log 14). -/
opaque sm2Sign : BitVec 256 → BitVec 512
/-- SM3 of the identity public key (R437; log 14). -/
opaque identityDigest : BitVec 256
/-- The checker's secret draws (R315, R317): draw `j` of check `n`; nothing of it is known (log 15). -/
opaque secretDraw : Nat → Nat → Nat
/-- What a read of an area the manual keeps out of reach answers, one 32-bit word by counter (log 2). -/
opaque freeWord : Nat → BitVec 32
/-- A field of a fault-record entry for which the manual gives no value, by SEQ and field: 0 DIE, 1 CORE, 2 CTX, 3 DETAIL (R442; log 40). -/
opaque faultField : Nat → Nat → BitVec 32
/-- CORE of a firmware core in a fault-queue or fault-record entry: it has no mesh coordinate (R10, R111; log 13). -/
opaque fwCoreCode : BitVec 7
/-- A special register that tells of a mesh coordinate or a launch, on the firmware core of a die, by code (R10, R195; log 13). -/
opaque fwSpecial : Nat → Nat → BitVec 64
/-- The memory slice of a physical address, one of 16 of its die (R124; log 23). -/
opaque sliceOf : Nat → BitVec 4
/-- The edge switch of a leaf: die, kind of leaf, number (R124; log 23). -/
opaque edgeOf : Nat → Nat → Nat → BitVec 4
/-- Free credits of an upward output: time, die, switch, output (R125; log 23). -/
opaque credits : Nat → Nat → Nat → Nat → Nat
/-- A die's power, averaged over a window of 2^16 cycles: die and window number (R438; log 42). -/
opaque dieWatts : Nat → Nat → BitVec 10

end Sys2Proof.Config
end

