-- ==== Sys2Proof/Machine/Assoc.lean ====
section
/-!
DEFINITION. Association lists with strictly rising Nat keys: the one form of every sparse table of the state.
-/
namespace Sys2Proof

/-- The entry at a key. -/
def alook {α : Type} (k : Nat) : List (Nat × α) → Option α
  | [] => none
  | (j, v) :: rest => if j = k then some v else alook k rest

/-- Put a value at a key. -/
def aput {α : Type} (k : Nat) (v : α) : List (Nat × α) → List (Nat × α)
  | [] => [(k, v)]
  | (j, u) :: rest => if k < j then (k, v) :: (j, u) :: rest else if j = k then (k, v) :: rest else (j, u) :: aput k v rest

/-- Remove a key. -/
def adel {α : Type} (k : Nat) : List (Nat × α) → List (Nat × α)
  | [] => []
  | (j, u) :: rest => if j = k then rest else (j, u) :: adel k rest

/-- Keys strictly rising, all at or above `lo`. -/
def arising {α : Type} : Nat → List (Nat × α) → Bool
  | _, [] => true
  | lo, (j, _) :: rest => decide (lo ≤ j) && arising (j + 1) rest

/-- Keys strictly rising. -/
def awf {α : Type} (l : List (Nat × α)) : Bool := arising 0 l

/-- Replace element `i` of a list. -/
def lset {α : Type} (l : List α) (i : Nat) (v : α) : List α := l.set i v

/-- The bit set of a list of lane numbers. -/
def maskOf (lanes : List Nat) : Mask := lanes.foldl (fun m i => m ||| BitVec.ofNat 32 (2 ^ i)) 0#32

/-- The lane numbers of a bit set, ascending. -/
def lanesOf (m : Mask) : List Nat := (List.range 32).filter fun i => m.getLsbD i

theorem alook_aput_same {α : Type} (k : Nat) (v : α) (l : List (Nat × α)) : alook k (aput k v l) = some v := by
  induction l with
  | nil => simp [aput, alook]
  | cons p rest ih =>
    obtain ⟨j, u⟩ := p
    unfold aput
    split
    · simp [alook]
    · split
      · simp [alook]
      · rename_i h1 h2
        simp [alook, h2, ih]

theorem alook_aput_other {α : Type} (k j : Nat) (v : α) (l : List (Nat × α)) (h : j ≠ k) : alook j (aput k v l) = alook j l := by
  induction l with
  | nil => simp [aput, alook, Ne.symm h]
  | cons p rest ih =>
    obtain ⟨i, u⟩ := p
    unfold aput
    split
    · simp [alook, Ne.symm h]
    · split
      · rename_i h1 h2
        subst h2
        simp [alook, Ne.symm h]
      · simp [alook, ih]

theorem arising_mono {α : Type} (l : List (Nat × α)) (a b : Nat) (h : a ≤ b) (hb : arising b l = true) : arising a l = true := by
  cases l with
  | nil => rfl
  | cons p rest =>
    obtain ⟨j, u⟩ := p
    simp only [arising, Bool.and_eq_true, decide_eq_true_eq] at hb ⊢
    exact ⟨Nat.le_trans h hb.1, hb.2⟩

theorem arising_aput {α : Type} (k : Nat) (v : α) (l : List (Nat × α)) (lo : Nat) (hl : arising lo l = true) :
    arising (min lo k) (aput k v l) = true := by
  induction l generalizing lo with
  | nil => simp only [aput, arising, Bool.and_true, decide_eq_true_eq]; omega
  | cons p rest ih =>
    obtain ⟨j, u⟩ := p
    simp only [arising, Bool.and_eq_true, decide_eq_true_eq] at hl
    obtain ⟨h1, h2⟩ := hl
    unfold aput
    split
    · simp only [arising, Bool.and_eq_true, decide_eq_true_eq]; exact ⟨by omega, by omega, h2⟩
    · split
      · rename_i h3 h4
        subst h4
        simp only [arising, Bool.and_eq_true, decide_eq_true_eq]; exact ⟨by omega, h2⟩
      · rename_i h3 h4
        simp only [arising, Bool.and_eq_true, decide_eq_true_eq]
        have h5 := ih (j + 1) h2
        have h6 : min (j + 1) k = j + 1 := by omega
        rw [h6] at h5
        exact ⟨by omega, h5⟩

/-- Putting keeps the rising form. -/
theorem awf_aput {α : Type} (k : Nat) (v : α) (l : List (Nat × α)) (h : awf l = true) : awf (aput k v l) = true := by
  have h0 := arising_aput k v l 0 h
  rwa [Nat.zero_min] at h0

theorem arising_adel {α : Type} (k : Nat) (l : List (Nat × α)) (lo : Nat) (h : arising lo l = true) : arising lo (adel k l) = true := by
  induction l generalizing lo with
  | nil => rfl
  | cons p rest ih =>
    obtain ⟨j, u⟩ := p
    simp only [arising, Bool.and_eq_true, decide_eq_true_eq] at h
    unfold adel
    split
    · exact arising_mono rest lo (j + 1) (by omega) h.2
    · simp only [arising, Bool.and_eq_true, decide_eq_true_eq]
      exact ⟨h.1, ih (j + 1) h.2⟩

/-- Removing keeps the rising form. -/
theorem awf_adel {α : Type} (k : Nat) (l : List (Nat × α)) (h : awf l = true) : awf (adel k l) = true := arising_adel k l 0 h

end Sys2Proof
end

