-- ==== Sys2Proof/Machine/Exact.lean ====
section
/-!
DEFINITION. Number formats and rounding (R75 to R84): decoding of the formats, exact values, RoundTo and RoundSat, integer
conversion, stochastic rounding, block scales.
-/
namespace Sys2Proof

/-- FPFLAGS bits (R87). -/
def fNX : Nat := 1
def fUF : Nat := 2
def fOF : Nat := 4
def fDZ : Nat := 8
def fNV : Nat := 16
def fSAT : Nat := 32
def fWID : Nat := 64

/-- A floating format (R76, R77). -/
structure Fmt where
  /-- Width in bits, mantissa width p, bias. -/
  w : Nat
  p : Nat
  bias : Nat
  /-- It has infinities. -/
  hasInf : Bool
  /-- Canonical NaN; a format without NaN (E2M1) delivers +0 (R81). -/
  qnan : Nat
  /-- Code of the largest finite value. -/
  maxCode : Nat
  deriving DecidableEq, Repr

def fp64 : Fmt := { w := 64, p := 52, bias := 1023, hasInf := true, qnan := 0x7FF8000000000000, maxCode := 0x7FEFFFFFFFFFFFFF }
def fp32 : Fmt := { w := 32, p := 23, bias := 127, hasInf := true, qnan := 0x7FC00000, maxCode := 0x7F7FFFFF }
def fp16 : Fmt := { w := 16, p := 10, bias := 15, hasInf := true, qnan := 0x7E00, maxCode := 0x7BFF }
def bf16 : Fmt := { w := 16, p := 7, bias := 127, hasInf := true, qnan := 0x7FC0, maxCode := 0x7F7F }
def e5m2 : Fmt := { w := 8, p := 2, bias := 15, hasInf := true, qnan := 0x7E, maxCode := 0x7B }
def e4m3 : Fmt := { w := 8, p := 3, bias := 7, hasInf := false, qnan := 0x7F, maxCode := 0x7E }
def e2m1 : Fmt := { w := 4, p := 1, bias := 1, hasInf := false, qnan := 0, maxCode := 0x7 }

/-- The format of a floating TYPE code (R63). -/
def fmtOf (t : Nat) : Fmt :=
  if t = 6 then fp64 else if t = 7 then fp16 else if t = 8 then bf16 else if t = 9 then e4m3 else if t = 10 then e5m2
  else if t = 11 then e2m1 else fp32

/-- A decoded floating value: NaN (signalling or quiet), an infinity, or `±m × 2^e`; `m = 0` is a signed zero. -/
inductive Fx where
  | nan (sig : Bool)
  | inf (neg : Bool)
  | fin (neg : Bool) (m : Nat) (e : Int)
  deriving DecidableEq, Repr

/-- The sign bit of a code. -/
def signBit (f : Fmt) (x : Nat) : Bool := (x >>> (f.w - 1)) % 2 = 1

/-- The code without its sign. -/
def magCode (f : Fmt) (x : Nat) : Nat := x % 2 ^ (f.w - 1)

/-- The value of a code (R76, R77). -/
def fDecode (f : Fmt) (x : Nat) : Fx :=
  let neg := signBit f x
  let ef := magCode f x / 2 ^ f.p
  let mf := x % 2 ^ f.p
  let allOnes := 2 ^ (f.w - 1 - f.p) - 1
  if f.hasInf ∧ ef = allOnes then
    if mf = 0 then .inf neg else .nan (mf / 2 ^ (f.p - 1) = 0)
  else if f.w = 8 ∧ ¬ f.hasInf ∧ magCode f x = 0x7F then .nan false
  else if ef = 0 then .fin neg mf (1 - (f.bias : Int) - f.p)
  else .fin neg (2 ^ f.p + mf) ((ef : Int) - f.bias - f.p)

/-- The value of an E3M5 block scale, as `m × 2^e` (R76). -/
def e3m5Decode (x : Nat) : Nat × Int :=
  let ef := x / 32 % 8
  if ef = 0 then (x % 32, -7) else (32 + x % 32, (ef : Int) - 8)

/-- An exact nonnegative magnitude with a sign: `m × 2^e`, or, when `st` is set, a value strictly between `m × 2^e` and
`(m + 1) × 2^e`. -/
structure Ex where
  neg : Bool
  m : Nat
  e : Int
  st : Bool := false
  deriving DecidableEq, Repr

/-- A result: the code and the FPFLAGS it raises. -/
structure FR where
  bits : Nat
  fl : Nat
  deriving DecidableEq, Repr

/-- Bits in the binary numeral of `n`; 0 for 0. -/
def bitLen (n : Nat) : Nat := if n = 0 then 0 else Nat.log2 n + 1

/-- A sign placed on a code. -/
def withSign (f : Fmt) (neg : Bool) (mag : Nat) : Nat := if neg then 2 ^ (f.w - 1) + mag else mag

/-- Code of infinity. -/
def infCode (f : Fmt) : Nat := f.maxCode + 1

/-- Whether the magnitude rounds away from zero, from the parts below the quantum: `rem` of `2^k` and sticky (R80, R84). `odd` is the
lowest mantissa bit of t, `q` the draw of .sto. -/
def roundsAway (mode : Nat) (neg odd : Bool) (rem k : Nat) (st : Bool) (q : Nat) : Bool :=
  let half := 2 ^ (k - 1)
  let inexact : Bool := rem ≠ 0 ∨ st
  match mode with
  | 1 => false
  | 2 => inexact && !neg
  | 3 => inexact && neg
  | 4 => 0 < k ∧ half ≤ rem
  | 6 => inexact && decide ((2 ^ 32 : Nat) * 2 ^ k ≤ rem * 2 ^ 32 + q * 2 ^ k)
  | _ => decide (0 < k) && (decide (half < rem) || (decide (rem = half) && (st || odd)))

/-- The magnitude of `v` rounded to a multiple of `2^qe`, as that multiple, and whether it differs from `v`. -/
def roundAt (mode : Nat) (q : Nat) (v : Ex) (qe : Int) : Nat × Bool :=
  -- A sticky value ends at an integer above its quantum's half, so its unknown part decides nothing but inexactness.
  let m := v.m
  let e := v.e
  if qe ≤ e then (m * 2 ^ (e - qe).toNat, v.st)
  else
    let k := (qe - e).toNat
    let t := m / 2 ^ k
    let rem := m % 2 ^ k
    (if roundsAway mode v.neg (t % 2 = 1) rem k v.st q then t + 1 else t, rem ≠ 0 ∨ v.st)

/-- Overflow (R81). -/
def overflow (f : Fmt) (mode : Nat) (sat neg : Bool) : FR :=
  if ¬ f.hasInf ∨ sat then { bits := withSign f neg f.maxCode, fl := fSAT + fNX }
  else
    let toInf : Bool := match mode with
      | 1 => false
      | 2 => !neg
      | 3 => neg
      | _ => true
    { bits := withSign f neg (if toInf then infCode f else f.maxCode), fl := fOF + fNX }

/-- RoundTo, and RoundSat with `sat` (R80 to R82, R84). -/
def roundTo (f : Fmt) (mode : Nat) (sat : Bool) (q : Nat) (v : Ex) : FR :=
  if v.m = 0 ∧ ¬ v.st then { bits := withSign f v.neg 0, fl := 0 }
  else
    let top : Int := v.e + bitLen v.m - 1
    let emin : Int := 1 - (f.bias : Int)
    let qe : Int := (if top < emin then emin else top) - f.p
    let (r, inexact) := roundAt mode q v qe
    let code : Int := (qe + f.p + f.bias) * (2 ^ f.p : Nat) + r - (2 ^ f.p : Nat)
    let mag := code.toNat
    if f.maxCode < mag then overflow f (if mode = 6 then 0 else mode) sat v.neg
    else
      let tiny : Bool := top < emin ∧
        (let qu := top - f.p
         let r' := (roundAt mode q v qu).1
         -- the rounded magnitude r' × 2^qu is below 2^emin
         decide (r' < 2 ^ (emin - qu).toNat))
      { bits := withSign f v.neg mag, fl := (if inexact then fNX else 0) + (if tiny ∧ inexact then fUF else 0) }

/-- An infinite result (R81). -/
def roundInf (f : Fmt) (sat neg : Bool) : FR :=
  if ¬ f.hasInf ∨ sat then { bits := withSign f neg f.maxCode, fl := fSAT } else { bits := withSign f neg (infCode f), fl := 0 }

/-- A signed dyadic `i × 2^e`. -/
structure Dy where
  i : Int
  e : Int
  deriving DecidableEq, Repr

/-- Sum of dyadics. -/
def Dy.add (a b : Dy) : Dy :=
  if a.e ≤ b.e then { i := a.i + b.i * (2 ^ (b.e - a.e).toNat : Nat), e := a.e }
  else { i := a.i * (2 ^ (a.e - b.e).toNat : Nat) + b.i, e := b.e }

/-- Product of dyadics. -/
def Dy.mul (a b : Dy) : Dy := { i := a.i * b.i, e := a.e + b.e }

/-- A dyadic as an exact value; a zero takes the sign `zneg`. -/
def Dy.ex (a : Dy) (zneg : Bool) : Ex := { neg := if a.i = 0 then zneg else decide (a.i < 0), m := a.i.natAbs, e := a.e }

/-- `a < b` on dyadics. -/
def Dy.lt (a b : Dy) : Bool :=
  if a.e ≤ b.e then decide (a.i < b.i * (2 ^ (b.e - a.e).toNat : Nat)) else decide (a.i * (2 ^ (a.e - b.e).toNat : Nat) < b.i)

/-- The dyadic of a finite value. -/
def dyOf (neg : Bool) (m : Nat) (e : Int) : Dy := { i := if neg then -(m : Int) else m, e := e }

/-- The canonical NaN with flags (R78); E2M1, which has none, delivers +0 (R81). -/
def nanOut (f : Fmt) (fl : Nat) : FR := { bits := f.qnan, fl := fl }

/-- NV when an operand is a signalling NaN (R78). -/
def sigNV (xs : List Fx) : Nat := if xs.any (fun x => x = .nan true) then fNV else 0

/-- Some operand is a NaN. -/
def anyNan (xs : List Fx) : Bool := xs.any fun x => match x with | .nan _ => true | _ => false

/-- Sign of an exact zero sum of terms whose signs differ (R266). -/
def zeroSign (mode : Nat) : Bool := mode = 3

/-- Sum of two decoded values, rounded (R266). -/
def fAddX (f : Fmt) (mode : Nat) (sat : Bool) (a b : Fx) : FR :=
  match a, b with
  | .nan _, _ => nanOut f (sigNV [a, b])
  | _, .nan _ => nanOut f (sigNV [a, b])
  | .inf s, .inf t => if s = t then roundInf f sat s else nanOut f fNV
  | .inf s, _ => roundInf f sat s
  | _, .inf t => roundInf f sat t
  | .fin s m e, .fin t n g =>
    let z := if m = 0 ∧ n = 0 ∧ s = t then s else zeroSign mode
    roundTo f mode sat 0 (((dyOf s m e).add (dyOf t n g)).ex z)

/-- Negation of a decoded value. -/
def Fx.negate : Fx → Fx
  | .nan s => .nan s
  | .inf s => .inf (!s)
  | .fin s m e => .fin (!s) m e

/-- Product, rounded (R266). -/
def fMulX (f : Fmt) (mode : Nat) (sat : Bool) (a b : Fx) : FR :=
  match a, b with
  | .nan _, _ => nanOut f (sigNV [a, b])
  | _, .nan _ => nanOut f (sigNV [a, b])
  | .inf s, .inf t => roundInf f sat (s != t)
  | .inf s, .fin t n _ => if n = 0 then nanOut f fNV else roundInf f sat (s != t)
  | .fin s m _, .inf t => if m = 0 then nanOut f fNV else roundInf f sat (s != t)
  | .fin s m e, .fin t n g => roundTo f mode sat 0 { neg := s != t, m := m * n, e := e + g }

/-- Exact product, as a value; invalid is a quiet NaN. -/
def fxMul (a b : Fx) : Fx :=
  match a, b with
  | .nan _, _ => .nan false
  | _, .nan _ => .nan false
  | .inf s, .inf t => .inf (s != t)
  | .inf s, .fin t n _ => if n = 0 then .nan false else .inf (s != t)
  | .fin s m _, .inf t => if m = 0 then .nan false else .inf (s != t)
  | .fin s m e, .fin t n g => .fin (s != t) (m * n) (e + g)

/-- 0 × ∞ in either order. -/
def zeroTimesInf (a b : Fx) : Bool :=
  match a, b with
  | .inf _, .fin _ n _ => n = 0
  | .fin _ m _, .inf _ => m = 0
  | _, _ => false

/-- A × B + C with one rounding (R266). -/
def fFmaX (f : Fmt) (mode : Nat) (sat : Bool) (a b c : Fx) : FR :=
  let nv := if zeroTimesInf a b then fNV else sigNV [a, b, c]
  if anyNan [a, b, c] ∨ zeroTimesInf a b then nanOut f nv
  else fAddX f mode sat (fxMul a b) c

/-- The exact sum of products of R95: a value, with NaN for an invalid or NaN product, and the flag NV it raises (R78). -/
def fxSum (ps : List Fx) (nv : Bool) : Fx × Bool :=
  if anyNan ps then (.nan false, nv)
  else
    let pinf := ps.contains (.inf false)
    let ninf := ps.contains (.inf true)
    if pinf ∧ ninf then (.nan false, true)
    else if pinf then (.inf false, nv)
    else if ninf then (.inf true, nv)
    else
      let s := ps.foldl (fun (acc : Dy) x => match x with | .fin n m e => acc.add (dyOf n m e) | _ => acc) { i := 0, e := 0 }
      let allNeg := ps.all fun x => match x with | .fin n m _ => n && decide (m = 0) | _ => false
      (.fin (if s.i = 0 then allNeg && !ps.isEmpty else decide (s.i < 0)) s.i.natAbs s.e, nv)

/-- Quotient of magnitudes `m × 2^e` over `n × 2^g`, `n > 0`, to 192 bits and sticky. -/
def exDiv (neg : Bool) (m : Nat) (e : Int) (n : Nat) (g : Int) : Ex :=
  let sh := 192 + bitLen n
  let num := m * 2 ^ sh
  { neg := neg, m := num / n, e := e - g - sh, st := num % n ≠ 0 }

/-- A ÷ B (R274). -/
def fDivX (f : Fmt) (mode : Nat) (sat : Bool) (a b : Fx) : FR :=
  match a, b with
  | .nan _, _ => nanOut f (sigNV [a, b])
  | _, .nan _ => nanOut f (sigNV [a, b])
  | .inf _, .inf _ => nanOut f fNV
  | .inf s, .fin t _ _ => roundInf f sat (s != t)
  | .fin s _ _, .inf t => { bits := withSign f (s != t) 0, fl := 0 }
  | .fin s m e, .fin t n g =>
    if n = 0 then
      if m = 0 then nanOut f fNV
      else
        let r := roundInf f sat (s != t)
        { r with fl := r.fl ||| fDZ }
    else roundTo f mode sat 0 (exDiv (s != t) m e n g)

/-- Integer square root by bits, `k` downward: the greatest `r` with `r² ≤ n`, `r < 2^k`. -/
def isqrtAux (n : Nat) : Nat → Nat → Nat
  | 0, r => r
  | k + 1, r => isqrtAux n k (if (r + 2 ^ k) * (r + 2 ^ k) ≤ n then r + 2 ^ k else r)

/-- floor √n. -/
def isqrt (n : Nat) : Nat := isqrtAux n (bitLen n / 2 + 1) 0

/-- √(m × 2^e) to at least 100 bits and sticky. -/
def exSqrt (m : Nat) (e : Int) : Ex :=
  let sh : Nat := 200 + (if e % 2 = 0 then 0 else 1)
  let n := m * 2 ^ sh
  let r := isqrt n
  { neg := false, m := r, e := (e - sh) / 2, st := r * r ≠ n }

/-- √A (R274). -/
def fSqrtX (f : Fmt) (mode : Nat) (a : Fx) : FR :=
  match a with
  | .nan _ => nanOut f (sigNV [a])
  | .inf s => if s then nanOut f fNV else roundInf f false false
  | .fin s m e => if m = 0 then { bits := withSign f s 0, fl := 0 } else if s then nanOut f fNV else roundTo f mode false 0 (exSqrt m e)

/-- 1 ÷ √A (R274): √(1 ÷ A), from a quotient long enough that its floor decides. -/
def fRsqX (f : Fmt) (mode : Nat) (a : Fx) : FR :=
  match a with
  | .nan _ => nanOut f (sigNV [a])
  | .inf s => if s then nanOut f fNV else { bits := 0, fl := 0 }
  | .fin s m e =>
    if m = 0 then
      let r := roundInf f false s
      { r with fl := r.fl ||| fDZ }
    else if s then nanOut f fNV
    else
      -- 1/√(m 2^e) = √(2^k / m) × 2^(-(e + k)/2), k even with e
      let k : Nat := 400 + 2 * bitLen m + (if e % 2 = 0 then 0 else 1)
      let r := isqrt (2 ^ k / m)
      roundTo f mode false 0 { neg := false, m := r, e := -((e + k) / 2), st := r * r * m ≠ 2 ^ k }

/-- Comparison of non-NaN values: less, with −0 equal to +0. -/
def fxLt (a b : Fx) : Bool :=
  match a, b with
  | .inf s, .inf t => s && !t
  | .inf s, _ => s
  | _, .inf t => !t
  | .fin s m e, .fin t n g => (dyOf s m e).lt (dyOf t n g)
  | _, _ => false

/-- Equality of non-NaN values, −0 equal to +0. -/
def fxEq (a b : Fx) : Bool := !anyNan [a, b] && !fxLt a b && !fxLt b a

/-- Order with −0 below +0 (R267). -/
def fxLtZ (a b : Fx) : Bool :=
  fxLt a b || (fxEq a b && (match a, b with | .fin s m _, .fin t n _ => decide (m = 0) && decide (n = 0) && s && !t | _, _ => false))

/-- Range of an integer TYPE code (R79). -/
def intMin (t : Nat) : Int := if tySigned t then -(2 ^ (tyBits t - 1) : Nat) else 0
def intMax (t : Nat) : Int := if tySigned t then ((2 ^ (tyBits t - 1) : Nat) : Int) - 1 else ((2 ^ tyBits t : Nat) : Int) - 1

/-- An exact value rounded to an integer in the mode; whether it differs (R83). -/
def roundInt (mode q : Nat) (v : Ex) : Int × Bool :=
  let (r, nx) := roundAt mode q v 0
  (if v.neg then -(r : Int) else r, nx)

/-- Conversion to an integer type (R83): the value and flags. -/
def toIntX (t mode q : Nat) (a : Fx) : Int × Nat :=
  match a with
  | .nan _ => (0, fNV)
  | .inf s => (if s then intMin t else intMax t, fNV)
  | .fin s m e =>
    let (i, nx) := roundInt mode q { neg := s, m := m, e := e }
    if i < intMin t then (intMin t, fNV) else if intMax t < i then (intMax t, fNV) else (i, if nx then fNX else 0)

/-- The pattern an integer result takes in its register (R75): sign- or zero-extended to 32 bits, or 64 bits. -/
def intBits (t : Nat) (i : Int) : Nat := wrapNat (tyRegs t) (if tySigned t then sIntOf (tyBits t) (wrapNat (tyBits t) i) else wrapNat (tyBits t) i)

/-- The integer a register pattern denotes in a type (R75). -/
def intOf (t v : Nat) : Int := if tySigned t then sIntOf (tyBits t) v else (v % 2 ^ tyBits t : Nat)

/-- Conversion between floating formats (R276, R81). -/
def cvtX (f : Fmt) (mode : Nat) (sat : Bool) (q : Nat) (a : Fx) : FR :=
  match a with
  | .nan s => if f.w = 4 then { bits := 0, fl := fNV } else nanOut f (if s then fNV else 0)
  | .inf s => roundInf f sat s
  | .fin s m e => roundTo f mode sat q { neg := s, m := m, e := e }

/-- Conversion of an exact integer (R276). -/
def cvtInt (f : Fmt) (mode : Nat) (sat : Bool) (q : Nat) (i : Int) : FR :=
  roundTo f mode sat q { neg := i < 0, m := i.natAbs, e := 0 }

/-- DQ(e, s, b) rounded to a format (R91): element code, block scale code, band scale code. -/
def dqX (f : Fmt) (mode : Nat) (sat : Bool) (el s b : Nat) : FR :=
  match fDecode e2m1 el, fDecode bf16 b with
  | .fin n m e, .fin t k g =>
    let (sm, se) := e3m5Decode s
    roundTo f mode sat 0 { neg := n != t, m := m * sm * k, e := e + se + g }
  | .fin n m _, _ =>
    -- a NaN or infinite band scale
    if m = 0 then { bits := withSign f n 0, fl := 0 } else nanOut f fNV
  | _, _ => nanOut f fNV

/-- The exact product of R91 without rounding, for the matrix unit: as a value. -/
def dqFx (el s b : Nat) : Fx :=
  match fDecode e2m1 el, fDecode bf16 b with
  | .fin n m e, .fin t k g =>
    let (sm, se) := e3m5Decode s
    .fin (n != t) (m * sm * k) (e + se + g)
  | .fin n m e, _ => if m = 0 then .fin n 0 e else .nan false
  | _, _ => .nan false

/-- Smallest `k` with `m × 2^e ≤ 2^k`, for `m > 0`. -/
def log2Ceil (m : Nat) (e : Int) : Int := if m = 2 ^ (bitLen m - 1) then e + bitLen m - 1 else e + bitLen m

/-- Magnitude of a finite value, as a dyadic; none for the rest (R92 step 1). -/
def finMag (x : Fx) : Option Dy := match x with | .fin _ m e => some { i := m, e := e } | _ => none

/-- The largest finite magnitude. -/
def amax (xs : List Fx) : Dy := xs.foldl (fun a x => match finMag x with | some d => if a.lt d then d else a | none => a) { i := 0, e := 0 }

/-- log2 of the band scale of R92 step 2, from amax_band. -/
def bandLog2 (am : Dy) : Int :=
  if am.i = 0 then 0
  else
    -- least k with 96 × 2^k ≥ amax: compare amax with 96 × 2^k near its own exponent
    let k0 := am.e + bitLen am.i.natAbs - 7
    let ok (k : Int) : Bool := !(({ i := 96, e := k } : Dy).lt am)
    let k := if ok k0 then (if ok (k0 - 1) then k0 - 1 else k0) else k0 + 1
    if k < -126 then -126 else if 127 < k then 127 else k

/-- log2 of the block scale of R92 step 3, from amax_blk and the band scale 2^b. -/
def blockLog2 (am : Dy) (b : Int) : Int :=
  let ok (k : Int) : Bool := !(({ i := 6, e := k + b } : Dy).lt am)
  if ok (-2) then -2 else if ok (-1) then -1 else if ok 0 then 0 else if ok 1 then 1 else if ok 2 then 2 else if ok 3 then 3 else 4

/-- One element of QNT: x ÷ (s × b) rounded to E2M1 (R92 step 4, R93), divisor `dn × 2^de` with sign `dneg`, nonzero and finite. -/
def qntX (mode q : Nat) (x : Fx) (dneg : Bool) (dn : Nat) (de : Int) : FR :=
  match x with
  | .nan _ => { bits := 0, fl := fNV }
  | .inf s => { bits := withSign e2m1 (s != dneg) e2m1.maxCode, fl := fSAT }
  | .fin s m e => if m = 0 then { bits := withSign e2m1 (s != dneg) 0, fl := 0 } else roundTo e2m1 mode true q (exDiv (s != dneg) m e dn de)

end Sys2Proof
end

