-- ==== Sys2Proof/Machine/Transcend.lean ====
section
/-!
DEFINITION. The correctly rounded functions of R274 and the integer roots of R397. A function is enclosed between two integers at a
scale 2^-N; N doubles until both ends round to one result, which is then the rounding of the exact value.
-/
namespace Sys2Proof

/-- A real enclosed: `lo ≤ v × 2^N ≤ hi`, at a scale N kept beside it. -/
structure Ball where
  lo : Int
  hi : Int
  deriving DecidableEq, Repr

namespace Enclose

/-- Floor and ceiling of `a ÷ b`, `b > 0`. -/
def fdiv (a : Int) (b : Nat) : Int := Int.fdiv a b
def cdiv (a : Int) (b : Nat) : Int := -(Int.fdiv (-a) b)

/-- The rational `a ÷ b` at scale N. -/
def ofRat (N : Nat) (a : Int) (b : Nat) : Ball := { lo := fdiv (a * (2 ^ N : Nat)) b, hi := cdiv (a * (2 ^ N : Nat)) b }

/-- `i × 2^e` at scale N. -/
def ofDy (N : Nat) (i e : Int) : Ball :=
  if 0 ≤ e + N then { lo := i * (2 ^ (e + N).toNat : Nat), hi := i * (2 ^ (e + N).toNat : Nat) }
  else { lo := fdiv i (2 ^ (-(e + N)).toNat), hi := cdiv i (2 ^ (-(e + N)).toNat) }

def add (a b : Ball) : Ball := { lo := a.lo + b.lo, hi := a.hi + b.hi }
def sub (a b : Ball) : Ball := { lo := a.lo - b.hi, hi := a.hi - b.lo }
def neg (a : Ball) : Ball := { lo := -a.hi, hi := -a.lo }

/-- Product at scale N. -/
def mul (N : Nat) (a b : Ball) : Ball :=
  let p1 := a.lo * b.lo
  let p2 := a.lo * b.hi
  let p3 := a.hi * b.lo
  let p4 := a.hi * b.hi
  { lo := fdiv (min (min p1 p2) (min p3 p4)) (2 ^ N), hi := cdiv (max (max p1 p2) (max p3 p4)) (2 ^ N) }

/-- Division by a positive integer. -/
def divNat (a : Ball) (n : Nat) : Ball := { lo := fdiv a.lo n, hi := cdiv a.hi n }

/-- Multiplication by an integer. -/
def mulInt (a : Ball) (k : Int) : Ball := if 0 ≤ k then { lo := a.lo * k, hi := a.hi * k } else { lo := a.hi * k, hi := a.lo * k }

/-- Times 2^k. -/
def scale (a : Ball) (k : Int) : Ball :=
  if 0 ≤ k then mulInt a (2 ^ k.toNat : Nat) else divNat a (2 ^ (-k).toNat)

/-- The largest magnitude in a ball. -/
def mag (a : Ball) : Int := max (a.hi.natAbs : Int) a.lo.natAbs

/-- Quotient at scale N of a ball by a positive ball. -/
def divPos (N : Nat) (a b : Ball) : Ball :=
  let q (n : Int) (up : Bool) : Int :=
    let d := if (0 ≤ n) == up then b.lo.toNat else b.hi.toNat
    if up then cdiv (n * (2 ^ N : Nat)) d else fdiv (n * (2 ^ N : Nat)) d
  { lo := q a.lo false, hi := q a.hi true }

/-- e^r, |r| ≤ 1/2: the Taylor terms until one is below the scale; the rest is at most the last term. -/
def expTerms (N : Nat) (r : Ball) : Nat → Nat → Ball → Ball → Ball
  | 0, _, term, acc => { lo := acc.lo - mag term - 1, hi := acc.hi + mag term + 1 }
  | fuel + 1, k, term, acc =>
    let t := divNat (mul N term r) k
    if mag t ≤ 1 then { lo := acc.lo - 3, hi := acc.hi + 3 } else expTerms N r fuel (k + 1) t (add acc t)

/-- Σ z^(2k+1)/(2k+1), |z| ≤ 1/2: the inverse hyperbolic tangent. -/
def atanhTerms (N : Nat) (z2 : Ball) : Nat → Nat → Ball → Ball → Ball
  | 0, _, pw, acc => { lo := acc.lo - mag pw - 1, hi := acc.hi + mag pw + 1 }
  | fuel + 1, k, pw, acc =>
    let p := mul N pw z2
    if mag p ≤ 1 then { lo := acc.lo - 3, hi := acc.hi + 3 } else atanhTerms N z2 fuel (k + 2) p (add acc (divNat p k))

def atanhB (N : Nat) (z : Ball) : Ball := atanhTerms N (mul N z z) (2 * N) 3 z z

/-- ln 2 = 2 atanh(1/3). -/
def ln2 (N : Nat) : Ball := mulInt (atanhB N (ofRat N 1 3)) 2

/-- Σ (-1)^k z^(2k+1)/(2k+1), z = 1/n: the arctangent. -/
def atanTerms (N : Nat) (n2 : Nat) : Nat → Nat → Ball → Ball → Ball
  | 0, _, pw, acc => { lo := acc.lo - mag pw - 1, hi := acc.hi + mag pw + 1 }
  | fuel + 1, k, pw, acc =>
    let p := neg (divNat pw n2)
    if mag p ≤ 1 then { lo := acc.lo - 3, hi := acc.hi + 3 } else atanTerms N n2 fuel (k + 2) p (add acc (divNat p k))

/-- π by Machin's formula. -/
def pi (N : Nat) : Ball :=
  let at' (n : Nat) : Ball := let z := ofRat N 1 n; atanTerms N (n * n) N 3 z z
  sub (mulInt (at' 5) 16) (mulInt (at' 239) 4)

/-- 2/√π. -/
def twoOverSqrtPi (N : Nat) : Ball :=
  let p := pi N
  -- √(4/π) at scale N: floor and ceiling of √(4 × 2^(3N) / (π × 2^N))
  let lo := isqrt (4 * 2 ^ (3 * N) / p.hi.toNat)
  let hi := isqrt (4 * 2 ^ (3 * N) / p.lo.toNat) + 1
  { lo := lo, hi := hi }

/-- e^x for a dyadic x with |x| < 2^12: k and an enclosure of e^r with e^x = 2^k e^r. -/
def expDy (N : Nat) (x : Dy) : Int × Ball :=
  let l := ln2 (N + 16)
  let xb := ofDy (N + 16) x.i x.e
  let k := fdiv (2 * xb.lo + l.lo) (2 * l.lo.toNat)
  let r := sub xb (mulInt l k)
  let rb : Ball := { lo := fdiv r.lo (2 ^ 16), hi := cdiv r.hi (2 ^ 16) }
  let one : Ball := { lo := (2 ^ N : Nat), hi := (2 ^ N : Nat) }
  (k, expTerms N rb (N + 8) 1 one one)

/-- ln of `m × 2^e`, m > 0, m × 2^e ≠ 1. -/
def lnDy (N : Nat) (m : Nat) (e : Int) : Ball :=
  let L := bitLen m
  -- f = m × 2^-s in [3/4, 3/2)
  let s : Int := if 4 * m < 3 * 2 ^ L then L - 1 else L
  let f1 : Int := if s = L then (m : Int) - (2 ^ L : Nat) else (m : Int) - (2 ^ (L - 1) : Nat)
  let f2 : Nat := if s = L then m + 2 ^ L else m + 2 ^ (L - 1)
  add (mulInt (ln2 N) (e + s)) (mulInt (atanhB N (ofRat N f1 f2)) 2)

/-- erf x = (2/√π) Σ (-1)^k x^(2k+1) / (k! (2k+1)) for 0 < x ≤ 32. -/
def erfTerms (N : Nat) (x2 : Ball) : Nat → Nat → Ball → Ball → Ball
  | 0, _, pw, acc => { lo := acc.lo - mag pw - 1, hi := acc.hi + mag pw + 1 }
  | fuel + 1, k, pw, acc =>
    let p := neg (divNat (mul N pw x2) k)
    -- past k > 2 x² the terms fall by more than half each
    if mag p ≤ 1 ∧ 2 * x2.hi ≤ (k : Int) * (2 ^ N : Nat) then { lo := acc.lo - 4, hi := acc.hi + 4 }
    else erfTerms N x2 fuel (k + 1) p (add acc (divNat p (2 * k + 1)))

def erfB (N : Nat) (x : Ball) : Ball :=
  let s := erfTerms N (mul N x x) (2 * N + 4096) 1 x x
  mul N s (twoOverSqrtPi N)

end Enclose

/-- The rounding of a value enclosed at scale 2^-N times 2^k, when both ends agree: the ends have one sign and at least two units. -/
def roundBall (f : Fmt) (mode : Nat) (sat : Bool) (N : Nat) (k : Int) (b : Ball) : Option FR :=
  let one (neg : Bool) (lo hi : Nat) : Option FR :=
    if lo = 0 ∨ hi ≤ lo then none
    else
      let r1 := roundTo f mode sat 0 { neg := neg, m := lo, e := k - N, st := true }
      let r2 := roundTo f mode sat 0 { neg := neg, m := hi - 1, e := k - N, st := true }
      if r1 = r2 then some r1 else none
  if 0 < b.lo then one false b.lo.toNat b.hi.toNat else if b.hi < 0 then one true b.hi.natAbs b.lo.natAbs else none

/-- Precision doubles until the result is decided. The value is irrational, so some precision decides it; the last answer given when
the fuel ends is the rounding of the lower end (log 16). -/
def ziv (f : Fmt) (mode : Nat) (sat : Bool) (g : Nat → Int × Ball) : Nat → Nat → FR
  | 0, N =>
    let (k, b) := g N
    roundTo f mode sat 0 { neg := b.hi < 0, m := (if b.hi < 0 then b.hi.natAbs else b.lo.toNat), e := k - N, st := true }
  | fuel + 1, N =>
    let (k, b) := g N
    match roundBall f mode sat N k b with
    | some r => r
    | none => ziv f mode sat g fuel (2 * N)

/-- A value that is nonzero and beyond every format, or below every subnormal. -/
def hugeEx (neg : Bool) : Ex := { neg := neg, m := 2 ^ 80, e := 4000, st := true }
def tinyEx (neg : Bool) : Ex := { neg := neg, m := 2 ^ 80, e := -4000, st := true }

/-- Precision at which the work starts, in fractional bits, for an argument with leading exponent `top`. -/
def startBits (top : Int) : Nat := 128 + (if top < 0 then (-top).toNat else 0)

/-- e^A (R274). -/
def fExpX (f : Fmt) (mode : Nat) (sat : Bool) (a : Fx) : FR :=
  match a with
  | .nan _ => nanOut f (sigNV [a])
  | .inf s => if s then { bits := 0, fl := 0 } else roundInf f sat false
  | .fin s m e =>
    if m = 0 then cvtInt f 0 false 0 1
    else if 12 < e + bitLen m then roundTo f mode sat 0 (if s then tinyEx false else hugeEx false)
    else if e + bitLen m < -300 then
      roundTo f mode sat 0 { neg := false, m := if s then 2 ^ 200 - 1 else 2 ^ 200, e := -200, st := true }
    else ziv f mode sat (fun N => Enclose.expDy N (dyOf s m e)) 8 128

/-- e^A − 1 (R274). -/
def fExpm1X (f : Fmt) (mode : Nat) (sat : Bool) (a : Fx) : FR :=
  match a with
  | .nan _ => nanOut f (sigNV [a])
  | .inf s => if s then cvtInt f 0 false 0 (-1) else roundInf f sat false
  | .fin s m e =>
    if m = 0 then { bits := withSign f s 0, fl := 0 }
    else if 12 < e + bitLen m then
      roundTo f mode sat 0 (if s then { neg := true, m := 2 ^ 200 - 1, e := -200, st := true } else hugeEx false)
    else ziv f mode sat (fun N =>
      let (k, b) := Enclose.expDy N (dyOf s m e)
      let one : Ball := { lo := (2 ^ N : Nat), hi := (2 ^ N : Nat) }
      if 0 ≤ k then (0, Enclose.sub (Enclose.scale b k) one) else (0, Enclose.sub (Enclose.scale b k) one))
      8 (startBits (e + bitLen m))

/-- ln A (R274). -/
def fLogX (f : Fmt) (mode : Nat) (a : Fx) : FR :=
  match a with
  | .nan _ => nanOut f (sigNV [a])
  | .inf s => if s then nanOut f fNV else roundInf f false false
  | .fin s m e =>
    if m = 0 then { bits := withSign f true (infCode f), fl := fDZ }
    else if s then nanOut f fNV
    else if fxEq a (.fin false 1 0) then { bits := 0, fl := 0 }
    else ziv f mode false (fun N => (0, Enclose.lnDy N m e)) 8 192

/-- ln(1 + A) (R274). -/
def fLog1pX (f : Fmt) (mode : Nat) (a : Fx) : FR :=
  match a with
  | .nan _ => nanOut f (sigNV [a])
  | .inf s => if s then nanOut f fNV else roundInf f false false
  | .fin s m e =>
    if m = 0 then { bits := withSign f s 0, fl := 0 }
    else if fxEq a (.fin true 1 0) then { bits := withSign f true (infCode f), fl := fDZ }
    else if fxLt a (.fin true 1 0) then nanOut f fNV
    else
      let y := (dyOf s m e).add { i := 1, e := 0 }
      ziv f mode false (fun N => (0, Enclose.lnDy N y.i.toNat y.e)) 8 (startBits (e + bitLen m) + 64)

/-- erf A (R274). -/
def fErfX (f : Fmt) (mode : Nat) (a : Fx) : FR :=
  match a with
  | .nan _ => nanOut f (sigNV [a])
  | .inf s => cvtInt f 0 false 0 (if s then -1 else 1)
  | .fin s m e =>
    if m = 0 then { bits := withSign f s 0, fl := 0 }
    else if 4 < e + bitLen m then roundTo f mode false 0 { neg := s, m := 2 ^ 200 - 1, e := -200, st := true }
    else ziv f mode false (fun N =>
      let b := Enclose.erfB N (Enclose.ofDy N m e)
      let one : Int := (2 ^ N : Nat)
      -- erf is below 1, whatever the enclosure says
      let b : Ball := { lo := min b.lo (one - 1), hi := min b.hi one }
      (0, if s then Enclose.neg b else b)) 8 (startBits (e + bitLen m) + 64)

/-- erfc A (R274). -/
def fErfcX (f : Fmt) (mode : Nat) (a : Fx) : FR :=
  match a with
  | .nan _ => nanOut f (sigNV [a])
  | .inf s => if s then cvtInt f 0 false 0 2 else { bits := 0, fl := 0 }
  | .fin s m e =>
    if m = 0 then cvtInt f 0 false 0 1
    else if 5 < e + bitLen m then
      roundTo f mode false 0 (if s then { neg := false, m := 2 ^ 201 - 1, e := -200, st := true } else tinyEx false)
    else if e + bitLen m < -300 then
      roundTo f mode false 0 { neg := false, m := if s then 2 ^ 200 else 2 ^ 200 - 1, e := -200, st := true }
    else ziv f mode false (fun N =>
      let b := Enclose.erfB N (Enclose.ofDy N m e)
      let one : Ball := { lo := (2 ^ N : Nat), hi := (2 ^ N : Nat) }
      let b : Ball := { lo := min b.lo (one.lo - 1), hi := min b.hi (one.lo - 1) }
      let c := if s then Enclose.add one b else Enclose.sub one b
      (0, { lo := max c.lo 1, hi := max c.hi 2 })) 8 (192 + 3 * 2 ^ (2 * (e + bitLen m)).toNat)

/-- The greatest `r < 2^k` with `r^n ≤ x`, by bits downward. -/
def irootAux (n x : Nat) : Nat → Nat → Nat
  | 0, r => r
  | k + 1, r => irootAux n x k (if (r + 2 ^ k) ^ n ≤ x then r + 2 ^ k else r)

/-- floor of the `n`-th root of `x`, n > 0. -/
def iroot (n x : Nat) : Nat := irootAux n x (bitLen x / n + 1) 0

end Sys2Proof
end

