-- ==== Sys2Proof/Machine/FloatElem.lean ====
section
/-!
DEFINITION. One element of the floating, conversion, quantisation and Drizzle instructions (R266 to R283), on register patterns.
Modes arrive resolved: 0 to 4, or 6 with a draw.
-/
namespace Sys2Proof

/-- The arithmetic of chapter 12, by entry. -/
inductive FOp where
  | add | sub | mul | fma | fmin | fmax | fabs | fneg | sgn | rnd | scale | logb | div | sqrt | rcp | rsq | exp | expm1 | log | log1p
  | erf | erfc | cls
  deriving DecidableEq, Repr

/-- FMIN and FMAX (R267). -/
def fMinMaxX (f : Fmt) (isMax : Bool) (a b : Nat) : FR :=
  let x := fDecode f a
  let y := fDecode f b
  let fl := sigNV [x, y]
  match x, y with
  | .nan _, .nan _ => nanOut f fl
  | .nan _, _ => { bits := b, fl := fl }
  | _, .nan _ => { bits := a, fl := fl }
  | _, _ =>
    let aLess := fxLtZ x y
    { bits := if isMax then (if aLess then b else a) else (if fxLtZ y x then b else a), fl := 0 }

/-- Class mask (R272). -/
def fClassX (f : Fmt) (a : Nat) : Nat :=
  match fDecode f a with
  | .nan sig => if sig then 256 else 512
  | .inf s => if s then 1 else 128
  | .fin s m _ =>
    let sub : Bool := m < 2 ^ f.p
    if m = 0 then (if s then 8 else 16) else if sub then (if s then 4 else 32) else (if s then 2 else 64)

/-- FRND (R273): rounding at the units digit. -/
def fRndX (f : Fmt) (mode : Nat) (exact : Bool) (a : Nat) : FR :=
  match fDecode f a with
  | .nan s => nanOut f (if s then fNV else 0)
  | .inf _ => { bits := a, fl := 0 }
  | .fin s m e =>
    let (r, nx) := roundAt mode 0 { neg := s, m := m, e := e } 0
    { bits := (roundTo f 0 false 0 { neg := s, m := r, e := 0 }).bits, fl := if nx ∧ exact then fNX else 0 }

/-- FSCALE (R273): A × 2^B. A |B| beyond 8,192 gives what 8,192 of its sign gives: every format overflows or is tiny there. -/
def fScaleX (f : Fmt) (mode : Nat) (sat : Bool) (a : Nat) (b : Int) : FR :=
  match fDecode f a with
  | .nan s => nanOut f (if s then fNV else 0)
  | .inf s => roundInf f sat s
  | .fin s m e =>
    let k := if b < -8192 then -8192 else if 8192 < b then 8192 else b
    roundTo f mode sat 0 { neg := s, m := m, e := e + k }

/-- FLOGB (R273): floor(log2 |A|) in the type. -/
def fLogbX (f : Fmt) (a : Nat) : FR :=
  match fDecode f a with
  | .nan s => nanOut f (if s then fNV else 0)
  | .inf _ => { bits := infCode f, fl := 0 }
  | .fin _ m e => if m = 0 then { bits := withSign f true (infCode f), fl := fDZ } else cvtInt f 0 false 0 (e + bitLen m - 1)

/-- FSGN (R270): A's magnitude with the sign OP7 chooses. -/
def fSgnX (f : Fmt) (op : Nat) (a b : Nat) : Nat :=
  let sa := signBit f a
  let sb := signBit f b
  withSign f (if op = 0 then sb else if op = 1 then !sb else sa != sb) (magCode f a)

/-- One element: patterns a, b, c of TYPE t (R266 to R274). -/
def fElem (op : FOp) (t mode : Nat) (sat : Bool) (op7 : Nat) (a b c : Nat) : FR :=
  let f := fmtOf t
  let x := fDecode f (a % 2 ^ f.w)
  let y := fDecode f (b % 2 ^ f.w)
  match op with
  | .add => fAddX f mode sat x y
  | .sub => fAddX f mode sat x y.negate
  | .mul => fMulX f mode sat x y
  | .fma => fFmaX f mode sat x y (fDecode f (c % 2 ^ f.w))
  | .fmin => fMinMaxX f false (a % 2 ^ f.w) (b % 2 ^ f.w)
  | .fmax => fMinMaxX f true (a % 2 ^ f.w) (b % 2 ^ f.w)
  | .fabs => { bits := magCode f a, fl := 0 }
  | .fneg => { bits := withSign f (!signBit f a) (magCode f a), fl := 0 }
  | .sgn => { bits := fSgnX f op7 a b, fl := 0 }
  | .rnd => fRndX f mode (op7 = 1) (a % 2 ^ f.w)
  | .scale => fScaleX f mode sat (a % 2 ^ f.w) (sIntOf 32 b)
  | .logb => fLogbX f (a % 2 ^ f.w)
  | .div => fDivX f mode sat x y
  | .sqrt => fSqrtX f mode x
  | .rcp => fDivX f mode sat (.fin false 1 0) x
  | .rsq => fRsqX f mode x
  | .exp => fExpX f mode sat x
  | .expm1 => fExpm1X f mode sat x
  | .log => fLogX f mode x
  | .log1p => fLog1pX f mode x
  | .erf => fErfX f mode x
  | .erfc => fErfcX f mode x
  | .cls => { bits := fClassX f (a % 2 ^ f.w), fl := 0 }

/-- FADD2, FMUL2, FMA2 (R268). -/
def fElem2 (op : FOp) (t mode : Nat) (sat : Bool) (a b c : Nat) : FR :=
  let lo := fElem op t mode sat 0 (a % 65536) (b % 65536) (c % 65536)
  let hi := fElem op t mode sat 0 (a / 65536) (b / 65536) (c / 65536)
  { bits := hi.bits * 65536 + lo.bits, fl := hi.fl ||| lo.fl }

/-- FDOT (R269): the exact sum, then C + S rounded to FP32. -/
def fDotX (t mode : Nat) (sat : Bool) (a b c : Nat) : FR :=
  let f := fmtOf t
  let n := if f.w = 16 then 2 else 4
  let el (v i : Nat) : Fx := fDecode f (v / 2 ^ (f.w * i) % 2 ^ f.w)
  let idx := List.range n
  let nv := idx.any fun i => zeroTimesInf (el a i) (el b i) || sigNV [el a i, el b i] ≠ 0
  let (s, nvs) := fxSum (idx.map fun i => fxMul (el a i) (el b i)) nv
  let r := fAddX fp32 mode sat (fDecode fp32 c) s
  { r with fl := r.fl ||| (if nvs then fNV else 0) }

/-- FCMP conditions 0 to 7 (R271): the result and NV. -/
def fCmpX (cond t a b : Nat) : Bool × Nat :=
  let f := fmtOf t
  let x := fDecode f (a % 2 ^ f.w)
  let y := fDecode f (b % 2 ^ f.w)
  if anyNan [x, y] then
    (cond = 1 ∨ cond = 6, if sigNV [x, y] ≠ 0 ∨ (2 ≤ cond ∧ cond ≤ 5) then fNV else 0)
  else
    let lt := fxLt x y
    let gt := fxLt y x
    ((match cond with
      | 0 => !lt && !gt
      | 1 => lt || gt
      | 2 => lt
      | 3 => !gt
      | 4 => gt
      | 5 => !lt
      | 6 => false
      | _ => true), 0)

/-- CVT, CVTI and CVTF in one: destination TYPE d, source code s (R276). -/
def convElem (d s mode : Nat) (sat : Bool) (q a : Nat) : FR :=
  if tyFloat d then
    if tyFloat s then cvtX (fmtOf d) mode sat q (fDecode (fmtOf s) (a % 2 ^ tyBits s))
    else cvtInt (fmtOf d) mode sat q (intOf s a)
  else
    let (i, fl) := toIntX d mode q (fDecode (fmtOf s) (a % 2 ^ tyBits s))
    { bits := intBits d i, fl := fl }

/-- PACKN (R278): the sources and one draw for each. -/
def packElems (d s mode : Nat) (sat : Bool) : List (Nat × Nat) → Nat → FR
  | [], _ => { bits := 0, fl := 0 }
  | (a, q) :: rest, i =>
    let r := convElem d s mode sat q a
    let t := packElems d s mode sat rest (i + 1)
    { bits := r.bits * 2 ^ (tyBits d * i) + t.bits, fl := r.fl ||| t.fl }

/-- What QNT writes to D and D + 1, and its flags (R279). -/
structure QntOut where
  codes : Nat
  scales : Nat
  fl : Nat
  deriving DecidableEq, Repr

/-- The eight inputs of QNT or DQNT's packing, decoded: four names of two BF16 elements or eight FP32 names. -/
def qntInputs (t : Nat) (regs : List Nat) : List Fx :=
  if t = 5 then regs.map (fDecode fp32)
  else regs.flatMap fun r => [fDecode bf16 (r % 65536), fDecode bf16 (r / 65536)]

/-- Elements of a block, ascending, with the draws. -/
def qntElems (mode : Nat) (dneg : Bool) (dn : Nat) (de : Int) : List (Fx × Nat) → Nat → Nat × Nat
  | [], _ => (0, 0)
  | (x, q) :: rest, j =>
    let r := qntX mode q x dneg dn de
    let t := qntElems mode dneg dn de rest (j + 1)
    (r.bits * 16 ^ j + t.1, r.fl ||| t.2)

/-- QNT (R279): `given`, inputs, C, draws. -/
def qntBlock (given : Bool) (mode : Nat) (xs : List Fx) (c : Nat) (qs : List Nat) : QntOut :=
  if given then
    let b := c / 65536 % 65536
    let s := c % 256
    match fDecode bf16 b with
    | .fin n m e =>
      let (sm, se) := e3m5Decode s
      if m = 0 ∨ sm = 0 then { codes := 0, scales := b * 65536 + s, fl := fNV }
      else
        let (k, fl) := qntElems mode n (m * sm) (e + se) (xs.zip qs) 0
        { codes := k, scales := b * 65536 + s, fl := fl }
    | _ => { codes := 0, scales := b * 65536 + s, fl := fNV }
  else
    let bad : QntOut := { codes := 0, scales := 0x3F80 * 65536 + 0x20, fl := fNV }
    match fDecode fp32 c with
    | .fin n m e =>
      if n ∧ m ≠ 0 then bad
      else
        let kb := bandLog2 { i := m, e := e }
        let ks := blockLog2 (amax xs) kb
        let (k, fl) := qntElems mode false 1 (kb + ks) (xs.zip qs) 0
        { codes := k, scales := (kb + 127).toNat * 128 * 65536 + (ks + 3).toNat * 32, fl := fl }
    | _ => bad

/-- DQNT (R280): the eight results of the layout in A and A + 1. -/
def dqntBlock (t mode : Nat) (sat : Bool) (codes scales : Nat) : List FR :=
  (List.range 8).map fun j => dqX (fmtOf t) mode sat (codes / 16 ^ j % 16) (scales % 256) (scales / 65536)

/-- Rotate a 32-bit word left (R281). -/
def rotl32 (x n : Nat) : Nat := (x * 2 ^ n % 2 ^ 32) + x / 2 ^ (32 - n)

/-- One round of Drizzle: keys and block (R281). -/
def drizzleRound (s : Nat × Nat × Nat × Nat × Nat × Nat) : Nat × Nat × Nat × Nat × Nat × Nat :=
  let (k0, k1, x0, x1, x2, x3) := s
  let x0 := (x0 + k0) % 2 ^ 32
  let x2 := (x2 + k1) % 2 ^ 32
  let p0 := 0xC8A13F27 * x0
  let p2 := 0xB5E96D4B * x2
  let x1 := x1 ^^^ (p0 / 2 ^ 32) ^^^ (p2 % 2 ^ 32)
  let x3 := x3 ^^^ (p2 / 2 ^ 32) ^^^ (p0 % 2 ^ 32)
  let x0 := rotl32 x0 9 ^^^ x3
  let x2 := rotl32 x2 23 ^^^ x1
  ((k0 + 0x8F1BBCDD) % 2 ^ 32, (k1 + 0xA54FF53B) % 2 ^ 32, x1, x2, x3, x0)

/-- `n` rounds. -/
def drizzleRounds : Nat → Nat × Nat × Nat × Nat × Nat × Nat → Nat × Nat × Nat × Nat × Nat × Nat
  | 0, s => s
  | n + 1, s => drizzleRounds n (drizzleRound s)

/-- A draw: KEY, index, DRAW, stream; the four words (R281). -/
def drizzle (key index draw stream : Nat) : List Nat :=
  let (_, _, x0, x1, x2, x3) :=
    drizzleRounds 10 (key % 2 ^ 32, key / 2 ^ 32 % 2 ^ 32, index % 2 ^ 32, index / 2 ^ 32 % 2 ^ 32, draw % 2 ^ 32, stream % 2 ^ 32)
  [x0, x1, x2, x3]

end Sys2Proof
end

