-- ==== Sys2Proof/Machine/IntElem.lean ====
section
/-!
DEFINITION. One element of the integer, logic and bit-field instructions (R239 to R250), on register patterns.
-/
namespace Sys2Proof

/-- The integer and bitwise operations, by entry. -/
inductive IOp where
  | iadd | isub | ineg | iabs | imin | imax | isad | iclamp | imul | imulh | imulw | imad | idot | idiv | irem
  | land | lor | lxor | lnot | landn | tern | shl | shr | sar | rol | funs | bfx | bfi | brev | bperm | popc | clz | ctz | iext
  deriving DecidableEq, Repr

/-- Fit(type, sat, x): the value and SAT (R239). -/
def fit (t : Nat) (sat : Bool) (x : Int) : Int × Nat :=
  if sat then (if x < intMin t then (intMin t, fSAT) else if intMax t < x then (intMax t, fSAT) else (x, 0))
  else (intOf t (wrapNat (tyBits t) x), 0)

/-- Fit into a register pattern. -/
def fitFR (t : Nat) (sat : Bool) (x : Int) : FR :=
  let (v, fl) := fit t sat x
  { bits := intBits t v, fl := fl }

/-- Number of 1 bits among the low `n`. -/
def popN (v : Nat) : Nat → Nat
  | 0 => 0
  | n + 1 => popN v n + (if v.testBit n then 1 else 0)

/-- Bits reversed among the low `n`. -/
def revN (v n : Nat) : Nat → Nat
  | 0 => 0
  | k + 1 => revN v n k + (if v.testBit k then 2 ^ (n - 1 - k) else 0)

/-- Trailing zeros of `v` among `n` bits, from bit `k` up. -/
def ctzFrom (v : Nat) : Nat → Nat → Nat
  | 0, k => k
  | fuel + 1, k => if v.testBit k then k else ctzFrom v fuel (k + 1)

/-- The per-bit function of the bitwise group; `lut` is TERN's table (R246). -/
def bitFn (op : IOp) (lut : Nat) (a b c : Bool) : Bool :=
  match op with
  | .land => a && b
  | .lor => a || b
  | .lxor => a != b
  | .lnot => !a
  | .landn => a && !b
  | _ => lut.testBit (4 * a.toNat + 2 * b.toNat + c.toNat)

/-- TERN by bits. -/
def ternN (lut a b c : Nat) : Nat → Nat
  | 0 => 0
  | k + 1 => ternN lut a b c k + (if bitFn .tern lut (a.testBit k) (b.testBit k) (c.testBit k) then 2 ^ k else 0)

/-- Where BFX and BFI take their field (R248): p and l. -/
def bfPos (b w : Nat) : Nat × Nat :=
  let p := min (b % 256) w
  (p, min (b / 256 % 256) (w - p))

/-- BPERM's byte i (R249). -/
def bpermByte (a b c i : Nat) : Nat :=
  let x := a + b * 2 ^ 32
  let q := c / 16 ^ i % 16
  let by' := x / 256 ^ (q % 8) % 256
  if q / 8 = 1 then (if by' / 128 = 1 then 255 else 0) else by'

/-- Element `i` of `bits` bits of a packed name, read with the signedness given. -/
def packedInt (v i bits : Nat) (signed : Bool) : Int :=
  let e := v / 2 ^ (bits * i) % 2 ^ bits
  if signed then sIntOf bits e else e

/-- IDOT's accumulator type (R244). -/
def idotAcc (t : Nat) (mix : Bool) : Nat := if tySigned t ∨ mix then 1 else 2

/-- Σ a_i × b_i of IDOT. -/
def idotSum (t : Nat) (mix : Bool) (a b : Nat) : Int :=
  let n := if tyBits t = 8 then 4 else 2
  (List.range n).foldl (fun s i => s + packedInt a i (tyBits t) (tySigned t) * packedInt b i (tyBits t) (tySigned t != mix)) 0

/-- One element of an integer instruction: TYPE t, OP7, TERN's IMM16 (R242 to R250). -/
def iElem (op : IOp) (t op7 lut : Nat) (sat : Bool) (a b c : Nat) : FR :=
  let w := tyBits t
  let x := intOf t a
  let y := intOf t b
  let z := intOf t c
  let u := a % 2 ^ w
  let v := b % 2 ^ w
  let raw (n : Nat) : FR := { bits := n, fl := 0 }
  match op with
  | .iadd => fitFR t sat (x + y)
  | .isub => fitFR t sat (x - y)
  | .ineg => fitFR t sat (-x)
  | .iabs => fitFR t sat x.natAbs
  | .imin => fitFR t false (min x y)
  | .imax => fitFR t false (max x y)
  | .isad => fitFR t sat ((x - y).natAbs + z)
  | .iclamp => fitFR t false (min (max x y) z)
  | .imul => fitFR t sat (x * y)
  | .imulh => fitFR t false (Int.fdiv (x * y) (2 ^ w : Nat))
  | .imulw => raw (wrapNat (2 * w) (x * y))
  | .imad => fitFR t sat (x * y + z)
  | .idot =>
    let acc := idotAcc t (op7 = 1)
    fitFR acc sat (intOf acc c + idotSum t (op7 = 1) a b)
  | .idiv =>
    if y = 0 then { bits := intBits t (if tySigned t then -1 else intMax t), fl := if x = 0 then fNV else fDZ }
    else fitFR t sat (Int.tdiv x y)
  | .irem =>
    if y = 0 then { bits := intBits t x, fl := if x = 0 then fNV else fDZ }
    else fitFR t false (x - y * Int.tdiv x y)
  | .land => raw (u &&& v)
  | .lor => raw (u ||| v)
  | .lxor => raw (u ^^^ v)
  | .lnot => raw (2 ^ w - 1 - u)
  | .landn => raw (u &&& (2 ^ w - 1 - v))
  | .tern => raw (ternN lut u v (c % 2 ^ w) w)
  | .shl => let n := b % 2 ^ 32; raw (if n < w then u * 2 ^ n % 2 ^ w else 0)
  | .shr => let n := b % 2 ^ 32; raw (if n < w then u / 2 ^ n else 0)
  | .sar => let n := min (b % 2 ^ 32) (w - 1); raw (wrapNat w (Int.fdiv (sIntOf w u) (2 ^ n : Nat)))
  | .rol => let n := b % 2 ^ 32 % w; raw (u * 2 ^ n % 2 ^ w + u / 2 ^ (w - n))
  | .funs =>
    let m := min (c % 2 ^ 32) 32
    let x := u * 2 ^ 32 + v
    raw (if op7 = 0 then x / 2 ^ m % 2 ^ 32 else x * 2 ^ m / 2 ^ 32 % 2 ^ 32)
  | .bfx =>
    let (p, l) := bfPos b w
    let f := u / 2 ^ p % 2 ^ l
    raw (if l = 0 then 0 else if tySigned t then wrapNat w (sIntOf l f) else f)
  | .bfi =>
    let (p, l) := bfPos b w
    let m := (2 ^ l - 1) * 2 ^ p
    raw ((c % 2 ^ w &&& (2 ^ w - 1 - m)) ||| (u * 2 ^ p % 2 ^ w &&& m))
  | .brev => raw (revN u w w)
  | .bperm => raw (bpermByte u v c 0 + bpermByte u v c 1 * 256 + bpermByte u v c 2 * 65536 + bpermByte u v c 3 * 16777216)
  | .popc => raw (popN u w)
  | .clz => raw (w - bitLen u)
  | .ctz => raw (ctzFrom u w 0)
  | .iext => raw (if op7 = 1 then wrapNat 64 x else wrapNat 32 x)

/-- Comparison of integers in the type's order: ICMP conditions 0 to 5 (R251). -/
def iCmp (cond : Nat) (x y : Int) : Bool :=
  match cond with
  | 0 => x = y
  | 1 => x ≠ y
  | 2 => x < y
  | 3 => x ≤ y
  | 4 => y < x
  | _ => y ≤ x

/-- The fill value of a reduction (R167, R261): pattern in TYPE. -/
def opIdentity (op t : Nat) : Nat :=
  let f := fmtOf t
  match op with
  | 0 => 0
  | 1 => if tyFloat t then infCode f else intBits t (intMax t)
  | 2 => if tyFloat t then withSign f true (infCode f) else intBits t (intMin t)
  | 3 => 2 ^ tyBits t - 1
  | _ => 0

/-- Op of R228, R259 and R167 on two patterns: add, min, max, and, or, xor. -/
def opApply (op t mode : Nat) (sat : Bool) (a b : Nat) : FR :=
  match op with
  | 0 => if tyFloat t then fElem .add t mode sat 0 a b 0 else iElem .iadd t 0 0 sat a b 0
  | 1 => if tyFloat t then fElem .fmin t 0 false 0 a b 0 else iElem .imin t 0 0 false a b 0
  | 2 => if tyFloat t then fElem .fmax t 0 false 0 a b 0 else iElem .imax t 0 0 false a b 0
  | 3 => { bits := a &&& b, fl := 0 }
  | 4 => { bits := a ||| b, fl := 0 }
  | _ => { bits := a ^^^ b, fl := 0 }

end Sys2Proof
end

