-- ==== Sys2Proof/Machine/Interval.lean ====
section
/-!
DEFINITION. Interval rules of bounds threads (R97 to R100, and the interval rule of each entry of chapters 11 and 12).
-/
namespace Sys2Proof

/-- Three-valued truth of a predicate (R100). -/
inductive Tri where
  | f | t | u
  deriving DecidableEq, Repr

/-- The number that carries it through a register: 0, 1, 2 (R100). -/
def Tri.num : Tri → Nat
  | .f => 0 | .t => 1 | .u => 2

def Tri.ofBool (b : Bool) : Tri := if b then .t else .f
def Tri.not : Tri → Tri
  | .f => .t | .t => .f | .u => .u
def Tri.and (a b : Tri) : Tri := if a = .f ∨ b = .f then .f else if a = .t ∧ b = .t then .t else .u
def Tri.or (a b : Tri) : Tri := if a = .t ∨ b = .t then .t else if a = .f ∧ b = .f then .f else .u
def Tri.xor (a b : Tri) : Tri := if a = .u ∨ b = .u then .u else .ofBool (a != b)

/-- An operand as an instruction reads it: endpoint patterns at the operand's width, tags N and E, stamp (R97, R173, R375). In
element mode `hi = lo`. -/
structure SV where
  lo : Nat
  hi : Nat
  nan : Bool := false
  e : Bool := false
  stamp : Nat := 0
  deriving DecidableEq, Repr

/-- A point with N = 0. -/
def SV.isPoint (a : SV) : Bool := a.lo = a.hi ∧ ¬ a.nan

/-- An interval result: endpoint patterns, tag N, flags (WID alone, R99). -/
structure IR where
  lo : Nat
  hi : Nat
  nan : Bool := false
  fl : Nat := 0
  deriving DecidableEq, Repr

/-- TOP of a TYPE (R98); .b32 as an unsigned word. -/
def topOf (t : Nat) : IR :=
  if tyFloat t then
    let f := fmtOf t
    if f.hasInf then { lo := withSign f true (infCode f), hi := infCode f, nan := true, fl := fWID }
    else { lo := withSign f true f.maxCode, hi := f.maxCode, nan := true, fl := fWID }
  else { lo := intBits t (intMin t), hi := intBits t (intMax t), fl := fWID }

/-- An integer operand in its type: ends and WID when it was not well formed (R98). -/
def readI (t : Nat) (a : SV) : Int × Int × Nat :=
  let l := intOf t a.lo
  let h := intOf t a.hi
  if l ≤ h then (l, h, 0) else (intMin t, intMax t, fWID)

/-- A floating operand in its type: ends, tag and WID (R98). -/
def readF (t : Nat) (a : SV) : Fx × Fx × Bool × Nat :=
  let f := fmtOf t
  let l := fDecode f (a.lo % 2 ^ f.w)
  let h := fDecode f (a.hi % 2 ^ f.w)
  if anyNan [l, h] ∨ fxLt h l then
    let top := topOf t
    (fDecode f top.lo, fDecode f top.hi, true, fWID)
  else (l, h, a.nan, 0)

/-- Both ends through Fit (R240). -/
def fitIv (t : Nat) (sat : Bool) (fl : Nat) (lo hi : Int) : IR :=
  if sat then { lo := intBits t (fit t true lo).1, hi := intBits t (fit t true hi).1, fl := fl }
  else if lo < intMin t ∨ intMax t < hi ∨ hi < intMin t ∨ intMax t < lo then { topOf t with fl := fl ||| fWID }
  else { lo := intBits t lo, hi := intBits t hi, fl := fl }

/-- Least and greatest of four. -/
def min4 (a b c d : Int) : Int := min (min a b) (min c d)
def max4 (a b c d : Int) : Int := max (max a b) (max c d)

/-- Product hull (R244). -/
def mulHull (al ah bl bh : Int) : Int × Int := (min4 (al * bl) (al * bh) (ah * bl) (ah * bh), max4 (al * bl) (al * bh) (ah * bl) (ah * bh))

/-- |A| of an interval (R242). -/
def absHull (l h : Int) : Int × Int := if 0 ≤ l then (l, h) else if h ≤ 0 then (-h, -l) else (0, max (-l) h)

/-- The bits of an interval of `w` bits: known, or unknown from the highest differing bit down (R241). -/
def kbBits (w lo hi : Nat) : List Tri :=
  let n := bitLen (lo ^^^ hi)
  (List.range w).map fun i => if i < n then .u else .ofBool (lo.testBit i)

/-- Unknown bits 0. -/
def kbLo : List Tri → Nat
  | [] => 0
  | b :: r => (if b = .t then 1 else 0) + 2 * kbLo r
/-- Unknown bits 1. -/
def kbHi : List Tri → Nat
  | [] => 0
  | b :: r => (if b = .f then 0 else 1) + 2 * kbHi r

/-- The interval of result bits; signed with an unknown sign is TOP (R241). `rt` is the result type. -/
def kbIR (rt : Nat) (bs : List Tri) (fl : Nat) : IR :=
  if tySigned rt ∧ bs.getLast? = some .u then { topOf rt with fl := fl ||| fWID } else { lo := kbLo bs, hi := kbHi bs, fl := fl }

/-- A Boolean function of three bits on three-valued bits: known when every combination agrees (R241 step 2). -/
def triFn (g : Bool → Bool → Bool → Bool) (a b c : Tri) : Tri :=
  let vals (x : Tri) : List Bool := match x with | .f => [false] | .t => [true] | .u => [false, true]
  let rs := (vals a).flatMap fun x => (vals b).flatMap fun y => (vals c).map fun z => g x y z
  if rs.all id then .t else if rs.all (! ·) then .f else .u

/-- Bit `i` of a list, false past its end. -/
def bitAt (bs : List Tri) (i : Nat) : Tri := bs.getD i .f

/-- An operand read as bits of width w: a word pair not in order is TOP, all unknown (R98). -/
def readK (w : Nat) (t : Nat) (a : SV) : List Tri × Nat :=
  let l := a.lo % 2 ^ w
  let h := a.hi % 2 ^ w
  let (_, _, fl) := readI t a
  if fl ≠ 0 then (List.replicate w .u, fWID) else (kbBits w l h, 0)

/-- Move bits: result bit i is source bit `g i`, or 0. -/
def moveBits (w : Nat) (bs : List Tri) (g : Nat → Option Nat) : List Tri :=
  (List.range w).map fun i => match g i with | some j => bitAt bs j | none => .f

/-- The interval rule of an integer instruction (R240 to R250). The operands are not all points. -/
def iIv (op : IOp) (t op7 lut : Nat) (sat : Bool) (a b c : SV) : IR :=
  let w := tyBits t
  let (al, ah, fa) := readI t a
  let (bl, bh, fb) := readI t b
  let (cl, ch, fc) := readI t c
  let f2 := fa ||| fb
  let f3 := f2 ||| fc
  let count (x : SV) : Option Nat := if x.lo = x.hi then some (x.lo % 2 ^ 32) else none
  let shiftBy (g : Nat → Nat → Option Nat) : IR :=
    match count b with
    | none => if a.lo = 0 ∧ a.hi = 0 then { lo := 0, hi := 0, fl := if b.hi < b.lo then fWID else 0 } else topOf t
    | some n =>
      let (bs, fl) := readK w t a
      kbIR t (moveBits w bs (g n)) fl
  match op with
  | .iadd => fitIv t sat f2 (al + bl) (ah + bh)
  | .isub => fitIv t sat f2 (al - bh) (ah - bl)
  | .ineg => fitIv t sat fa (-ah) (-al)
  | .iabs => let r := absHull al ah; fitIv t sat fa r.1 r.2
  | .imin => fitIv t false f2 (min al bl) (min ah bh)
  | .imax => fitIv t false f2 (max al bl) (max ah bh)
  | .isad => let r := absHull (al - bh) (ah - bl); fitIv t sat f3 (r.1 + cl) (r.2 + ch)
  | .iclamp => fitIv t false f3 (min (max al bl) cl) (min (max ah bh) ch)
  | .imul => let r := mulHull al ah bl bh; fitIv t sat f2 r.1 r.2
  | .imulh => let r := mulHull al ah bl bh; fitIv t false f2 (Int.fdiv r.1 (2 ^ w : Nat)) (Int.fdiv r.2 (2 ^ w : Nat))
  | .imulw => let r := mulHull al ah bl bh; { lo := wrapNat (2 * w) r.1, hi := wrapNat (2 * w) r.2, fl := f2 }
  | .imad => let r := mulHull al ah bl bh; fitIv t sat f3 (r.1 + cl) (r.2 + ch)
  | .idot =>
    let acc := idotAcc t (op7 = 1)
    if a.lo = a.hi ∧ b.lo = b.hi then
      let (l, h, fl) := readI acc c
      let s := idotSum t (op7 = 1) a.lo b.lo
      fitIv acc sat fl (l + s) (h + s)
    else topOf acc
  | .idiv =>
    if bl ≤ 0 ∧ 0 ≤ bh then { topOf t with fl := f2 ||| fWID }
    else fitIv t sat f2 (min4 (al.tdiv bl) (al.tdiv bh) (ah.tdiv bl) (ah.tdiv bh)) (max4 (al.tdiv bl) (al.tdiv bh) (ah.tdiv bl) (ah.tdiv bh))
  | .irem =>
    if bl ≤ 0 ∧ 0 ≤ bh then { topOf t with fl := f2 ||| fWID }
    else
      let m : Int := max (bl.natAbs : Int) bh.natAbs - 1
      let lo : Int := if 0 ≤ al then 0 else -(min (-al) m)
      let hi : Int := if ah ≤ 0 then 0 else min ah m
      fitIv t false f2 lo hi
  | .land | .lor | .lxor | .lnot | .landn | .tern =>
    let (ka, f1) := readK w t a
    let (kb, g1) := readK w t b
    let (kc, h1) := readK w t c
    let one := match op with | .lnot => true | _ => false
    let three := match op with | .tern => true | _ => false
    kbIR t ((List.range w).map fun i => triFn (bitFn op lut) (bitAt ka i) (bitAt kb i) (bitAt kc i))
      (f1 ||| (if one then 0 else g1) ||| (if three then h1 else 0))
  | .shl => shiftBy fun n i => if n ≤ i then some (i - n) else none
  | .shr => shiftBy fun n i => if i + n < w then some (i + n) else none
  | .sar => shiftBy fun n i => some (min (i + min n (w - 1)) (w - 1))
  | .rol => shiftBy fun n i => some ((i + w - n % w) % w)
  | .funs =>
    match count c with
    | none => if a.lo = 0 ∧ a.hi = 0 ∧ b.lo = 0 ∧ b.hi = 0 then { lo := 0, hi := 0, fl := if c.hi < c.lo then fWID else 0 } else topOf t
    | some n =>
      let m := min n 32
      let (ka, f1) := readK 32 t a
      let (kb, g1) := readK 32 t b
      let x := kb ++ ka
      kbIR t ((List.range 32).map fun i => if op7 = 0 then bitAt x (i + m) else if m ≤ i + 32 then bitAt x (i + 32 - m) else .f) (f1 ||| g1)
  | .bfx =>
    match count b with
    | none => topOf t
    | some n =>
      let (p, l) := bfPos n w
      let (ka, f1) := readK w t a
      kbIR t ((List.range w).map fun i =>
        if i < l then bitAt ka (p + i) else if l = 0 then .f else if tySigned t then bitAt ka (p + l - 1) else .f) f1
  | .bfi =>
    match count b with
    | none => topOf t
    | some n =>
      let (p, l) := bfPos n w
      let (ka, f1) := readK w t a
      let (kc, h1) := readK w t c
      kbIR t ((List.range w).map fun i => if p ≤ i ∧ i < p + l then bitAt ka (i - p) else bitAt kc i) (f1 ||| h1)
  | .brev =>
    let (ka, f1) := readK w t a
    kbIR t ((List.range w).map fun i => bitAt ka (w - 1 - i)) f1
  | .bperm =>
    match count c with
    | none => topOf t
    | some n =>
      let (ka, f1) := readK 32 t a
      let (kb, g1) := readK 32 t b
      let x := ka ++ kb
      kbIR t ((List.range 32).map fun i =>
        let q := n / 16 ^ (i / 8) % 16
        if q / 8 = 1 then bitAt x (8 * (q % 8) + 7) else bitAt x (8 * (q % 8) + i % 8)) (f1 ||| g1)
  | .popc =>
    let (ka, f1) := readK w t a
    { lo := popN (kbLo ka) w, hi := popN (kbHi ka) w, fl := f1 }
  | .clz =>
    let (ka, f1) := readK w t a
    let l := if f1 = 0 then a.lo % 2 ^ w else kbLo ka
    let h := if f1 = 0 then a.hi % 2 ^ w else kbHi ka
    { lo := w - bitLen h, hi := w - bitLen l, fl := f1 }
  | .ctz =>
    let (ka, f1) := readK w t a
    { lo := ctzFrom (kbHi ka) w 0, hi := ctzFrom (kbLo ka) w 0, fl := f1 }
  | .iext =>
    if op7 = 1 then { lo := wrapNat 64 al, hi := wrapNat 64 ah, fl := fa } else { lo := wrapNat 32 al, hi := wrapNat 32 ah, fl := fa }

/-- An integer instruction in a bounds thread: a point operand set gives the element result as a point (R240); DZ, NV and SAT are
never raised (R99, R245). -/
def iBounds (op : IOp) (t op7 lut : Nat) (sat : Bool) (n : Nat) (a b c : SV) : IR :=
  -- a narrow operand is a point when its bits in the type are (R75); IDOT's operands are packed
  let pt (x : SV) : Bool := if op = .idot then x.lo = x.hi else intOf t x.lo = intOf t x.hi
  if pt a ∧ (n < 2 ∨ pt b) ∧ (n < 3 ∨ pt c) then
    let r := iElem op t op7 lut sat a.lo b.lo c.lo
    { lo := r.bits, hi := r.bits, fl := 0 }
  else iIv op t op7 lut sat a b c

/-- Three-valued integer comparison (R100, R251). -/
def iCmpIv (cond t : Nat) (a b : SV) : Tri × Nat :=
  let (al, ah, fa) := readI t a
  let (bl, bh, fb) := readI t b
  let tri (yes no : Bool) : Tri := if yes then .t else if no then .f else .u
  let pt : Bool := al = ah ∧ bl = bh ∧ al = bl
  let apart : Bool := ah < bl ∨ bh < al
  ((match cond with
    | 0 => tri pt apart
    | 1 => tri apart pt
    | 2 => tri (ah < bl) (bh ≤ al)
    | 3 => tri (ah ≤ bl) (bh < al)
    | 4 => tri (bh < al) (ah ≤ bl)
    | _ => tri (bh ≤ al) (ah < bl)), fa ||| fb)

/-- An exact value or infinity rounded outward to an end: `down` is .rdn, else .rup (R99). -/
def endCode (f : Fmt) (down sat : Bool) (x : Fx) : Nat :=
  match x with
  | .nan _ => f.qnan
  | .inf s => (roundInf f sat s).bits
  | .fin s m e => (roundTo f (if down then 3 else 2) sat 0 { neg := s, m := m, e := e }).bits

/-- The exact sum of two values, NaN when invalid; `down`: a zero of operands of opposite signs is −0, as in mode .rdn (R266). -/
def fxAdd (down : Bool) (a b : Fx) : Fx :=
  match a, b with
  | .nan _, _ => .nan false
  | _, .nan _ => .nan false
  | .inf s, .inf t => if s = t then .inf s else .nan false
  | .inf s, _ => .inf s
  | _, .inf t => .inf t
  | .fin s m e, .fin t n g =>
    let d := (dyOf s m e).add (dyOf t n g)
    .fin (if d.i = 0 then (if s = t then s else down) else decide (d.i < 0)) d.i.natAbs d.e

/-- The least, or the greatest, of the values that are not NaN. -/
def fxLeast (xs : List Fx) : Option Fx :=
  xs.foldl (fun m x => if anyNan [x] then m else match m with | none => some x | some y => if fxLt x y then some x else some y) none
def fxGreatest (xs : List Fx) : Option Fx :=
  xs.foldl (fun m x => if anyNan [x] then m else match m with | none => some x | some y => if fxLt y x then some x else some y) none

/-- A range of exact values over the valid combinations: inf and sup, none when there are none, and whether some combination is NaN. -/
structure ExIv where
  r : Option (Fx × Fx)
  bad : Bool
  deriving DecidableEq, Repr

def isInfX (x : Fx) : Bool := match x with | .inf _ => true | _ => false
def isZeroX (x : Fx) : Bool := match x with | .fin _ m _ => m = 0 | _ => false

/-- Sum of two ranges (R265, R266). -/
def exAdd (al ah bl bh : Fx) : ExIv :=
  let ninf : Fx := .inf true
  let pinf : Fx := .inf false
  let bad : Bool := (al = ninf ∧ bh = pinf) ∨ (ah = pinf ∧ bl = ninf)
  -- the low end: −∞ + (+∞) alone leaves what the other values of the −∞ side give
  let lo : Option Fx := match fxAdd true al bl with
    | .nan _ => if (if al = ninf then ah else bh) = ninf then none else some pinf
    | v => some v
  let hi : Option Fx := match fxAdd false ah bh with
    | .nan _ => if (if ah = pinf then al else bl) = pinf then none else some ninf
    | v => some v
  match lo, hi with
  | some l, some h => { r := some (l, h), bad := bad }
  | _, _ => { r := none, bad := bad }

/-- Zero, or a finite value, lies in a range. -/
def rangeHasZero (l h : Fx) : Bool := !fxLt (.fin false 0 0) l && !fxLt h (.fin false 0 0)
def rangeHasFinite (l h : Fx) : Bool := !(l = .inf false) && !(h = .inf true)
def rangeHasInf (l h : Fx) : Bool := isInfX l || isInfX h

/-- Product of two ranges (R266). -/
def exMul (al ah bl bh : Fx) : ExIv :=
  let corners := [fxMul al bl, fxMul al bh, fxMul ah bl, fxMul ah bh]
  let z : List Fx :=
    if (rangeHasZero al ah && rangeHasFinite bl bh) || (rangeHasZero bl bh && rangeHasFinite al ah) then [.fin false 0 0] else []
  let bad := (rangeHasZero al ah && rangeHasInf bl bh) || (rangeHasZero bl bh && rangeHasInf al ah)
  match fxLeast (corners ++ z), fxGreatest (corners ++ z) with
  | some l, some h => { r := some (l, h), bad := bad }
  | _, _ => { r := none, bad := bad }

/-- A range rounded outward, or TOP with WID when it is empty (R265). -/
def exOut (t : Nat) (sat nan : Bool) (fl : Nat) (x : ExIv) : IR :=
  match x.r with
  | none => topOf t
  | some (l, h) => { lo := endCode (fmtOf t) true sat l, hi := endCode (fmtOf t) false sat h, nan := nan || x.bad, fl := fl }

/-- An increasing function over a range, by its ends' outward roundings. -/
def monoUp (g : Nat → Fx → FR) (l h : Fx) : Nat × Nat := ((g 3 l).bits, (g 2 h).bits)
def monoDown (g : Nat → Fx → FR) (l h : Fx) : Nat × Nat := ((g 3 h).bits, (g 2 l).bits)

/-- Larger of two values in the order with −0 below +0. -/
def fxMaxC (f : Fmt) (a b : Nat) : Nat := (fMinMaxX f true a b).bits
def fxMinC (f : Fmt) (a b : Nat) : Nat := (fMinMaxX f false a b).bits

/-- Hull in a type (R99): patterns. -/
def hullIv (t : Nat) (a b : SV) : IR :=
  if tyFloat t then
    let f := fmtOf t
    let norm (x : SV) : SV × Nat :=
      let (_, _, n, fl) := readF t x
      if fl ≠ 0 then let top := topOf t; ({ lo := top.lo, hi := top.hi, nan := true }, fWID) else ({ x with nan := n }, 0)
    let (x, fx) := norm a
    let (y, fy) := norm b
    { lo := fxMinC f (x.lo % 2 ^ f.w) (y.lo % 2 ^ f.w), hi := fxMaxC f (x.hi % 2 ^ f.w) (y.hi % 2 ^ f.w), nan := x.nan || y.nan, fl := fx ||| fy }
  else
    let (al, ah, fa) := readI t a
    let (bl, bh, fb) := readI t b
    { lo := intBits t (min al bl), hi := intBits t (max ah bh), nan := a.nan || b.nan, fl := fa ||| fb }

/-- Magnitude range of a floating interval: codes (R270). -/
def absCodes (f : Fmt) (lo hi : Nat) : Nat × Nat :=
  let l := fDecode f lo
  let h := fDecode f hi
  let z : Fx := .fin false 0 0
  if !fxLt l z then (magCode f lo, magCode f hi)
  else if !fxLt z h then (magCode f hi, magCode f lo)
  else (0, fxMaxC f (magCode f lo) (magCode f hi))

/-- The sign flipped. -/
def negCode (f : Fmt) (x : Nat) : Nat := withSign f (!signBit f x) (magCode f x)

/-- The interval rule of a floating instruction (R265 to R275). The operands are not all points. `mode` serves FRND alone. -/
def fIv (op : FOp) (t mode op7 : Nat) (sat : Bool) (a b c : SV) : IR :=
  let f := fmtOf t
  let (al, ah, na, fa) := readF t a
  let (bl, bh, nb, fb) := readF t b
  let (cl, ch, nc, fc) := readF t c
  let aLo := if fa ≠ 0 then (topOf t).lo else a.lo % 2 ^ f.w
  let aHi := if fa ≠ 0 then (topOf t).hi else a.hi % 2 ^ f.w
  let bLo := if fb ≠ 0 then (topOf t).lo else b.lo % 2 ^ f.w
  let bHi := if fb ≠ 0 then (topOf t).hi else b.hi % 2 ^ f.w
  let zero : Fx := .fin false 0 0
  let one (g : Nat → Fx → FR) (domLo : Option Fx) : IR :=
    -- increasing over the part of A at or above domLo
    match domLo with
    | none => let r := monoUp g al ah; { lo := r.1, hi := r.2, nan := na, fl := fa }
    | some d =>
      if fxLt ah d then topOf t
      else let l := if fxLt al d then d else al
           let r := monoUp g l ah
           { lo := r.1, hi := r.2, nan := na || fxLt al d, fl := fa }
  match op with
  | .add => exOut t sat (na || nb) (fa ||| fb) (exAdd al ah bl bh)
  | .sub => exOut t sat (na || nb) (fa ||| fb) (exAdd al ah bh.negate bl.negate)
  | .mul => exOut t sat (na || nb) (fa ||| fb) (exMul al ah bl bh)
  | .fma =>
    let p := exMul al ah bl bh
    match p.r with
    | none => { topOf t with fl := fa ||| fb ||| fc ||| fWID }
    | some (pl, ph) =>
      let s := exAdd pl ph cl ch
      exOut t sat (na || nb || nc) (fa ||| fb ||| fc) { s with bad := s.bad || p.bad }
  | .fmin | .fmax =>
    let isMax : Bool := match op with | .fmax => true | _ => false
    let pick (x y : Nat) : Nat := (fMinMaxX f isMax x y).bits
    let lo := pick aLo bLo
    let hi := pick aHi bHi
    let lo := if na then fxMinC f lo bLo else lo
    let hi := if na then fxMaxC f hi bHi else hi
    let lo := if nb then fxMinC f lo aLo else lo
    let hi := if nb then fxMaxC f hi aHi else hi
    { lo := lo, hi := hi, nan := na && nb, fl := fa ||| fb }
  | .fabs => let r := absCodes f aLo aHi; { lo := r.1, hi := r.2, nan := na, fl := fa }
  | .fneg => { lo := negCode f aHi, hi := negCode f aLo, nan := na, fl := fa }
  | .sgn =>
    let pos : Bool := fxLt zero bl && !nb
    let ngv : Bool := fxLt bh zero && !nb
    if op7 = 2 then
      let n : IR := { lo := negCode f aHi, hi := negCode f aLo, nan := na, fl := fa ||| fb }
      if pos then { lo := aLo, hi := aHi, nan := na, fl := fa ||| fb }
      else if ngv then n
      else { lo := fxMinC f aLo n.lo, hi := fxMaxC f aHi n.hi, nan := na, fl := fa ||| fb }
    else
      let (ml, mh) := absCodes f aLo aHi
      let plus : IR := { lo := ml, hi := mh, nan := na, fl := fa ||| fb }
      let minus : IR := { lo := negCode f mh, hi := negCode f ml, nan := na, fl := fa ||| fb }
      if (pos && op7 = 0) || (ngv && op7 = 1) then plus
      else if (ngv && op7 = 0) || (pos && op7 = 1) then minus
      else { lo := minus.lo, hi := plus.hi, nan := na, fl := fa ||| fb }
  | .rnd => { lo := (fRndX f mode false aLo).bits, hi := (fRndX f mode false aHi).bits, nan := na, fl := fa }
  | .scale =>
    let k1 := sIntOf 32 b.lo
    let k2 := sIntOf 32 b.hi
    let (k1, k2, fk) := if k1 ≤ k2 then (k1, k2, 0) else (intMin 1, intMax 1, fWID)
    let cl (k : Int) : Int := if k < -8192 then -8192 else if 8192 < k then 8192 else k
    let sc (x : Fx) (k : Int) : Fx := match x with | .fin s m e => .fin s m (e + cl k) | y => y
    let corners := [sc al k1, sc al k2, sc ah k1, sc ah k2]
    match fxLeast corners, fxGreatest corners with
    | some l, some h => { lo := endCode f true sat l, hi := endCode f false sat h, nan := na || b.nan, fl := fa ||| fk }
    | _, _ => topOf t
  | .logb =>
    let (ml, mh) := absCodes f aLo aHi
    { lo := (fLogbX f ml).bits, hi := (fLogbX f mh).bits, nan := na, fl := fa }
  | .div =>
    if rangeHasZero bl bh then { topOf t with fl := fa ||| fb ||| fWID }
    else
      let q (mo : Nat) (x y : Fx) : Option Nat := match x, y with | .inf _, .inf _ => none | _, _ => some (fDivX f mo sat x y).bits
      let pairs := [(al, bl), (al, bh), (ah, bl), (ah, bh)]
      let z : List Nat := if rangeHasFinite al ah && rangeHasInf bl bh then [0] else []
      let los := pairs.filterMap (fun p => q 3 p.1 p.2) ++ z
      let his := pairs.filterMap (fun p => q 2 p.1 p.2) ++ z
      let bad := rangeHasInf al ah && rangeHasInf bl bh
      match los, his with
      | l :: ls, h :: hs => { lo := ls.foldl (fxMinC f) l, hi := hs.foldl (fxMaxC f) h, nan := na || nb || bad, fl := fa ||| fb }
      | _, _ => topOf t
  | .sqrt => one (fun m x => fSqrtX f m x) (some zero)
  | .rcp =>
    if rangeHasZero al ah then { topOf t with fl := fa ||| fWID }
    else { lo := (fDivX f 3 sat (.fin false 1 0) ah).bits, hi := (fDivX f 2 sat (.fin false 1 0) al).bits, nan := na, fl := fa }
  | .rsq =>
    if fxLt ah zero then topOf t
    else
      let hi := if fxLt zero al then (fRsqX f 2 al).bits else infCode f
      let lo := if fxLt zero ah then (fRsqX f 3 ah).bits else infCode f
      { lo := lo, hi := hi, nan := na || fxLt al zero, fl := fa }
  | .exp => one (fun m x => fExpX f m sat x) none
  | .expm1 => one (fun m x => fExpm1X f m sat x) none
  | .log => one (fun m x => fLogX f m x) (some zero)
  | .log1p => one (fun m x => fLog1pX f m x) (some (.fin true 1 0))
  | .erf => one (fun m x => fErfX f m x) none
  | .erfc => let r := monoDown (fun m x => fErfcX f m x) al ah; { lo := r.1, hi := r.2, nan := na, fl := fa }
  | .cls => topOf 2

/-- A well-formed point in a floating type, with N = 0 (R97, R98). -/
def pointF (t : Nat) (a : SV) : Bool :=
  let f := fmtOf t
  a.lo % 2 ^ f.w = a.hi % 2 ^ f.w ∧ ¬ a.nan ∧ ¬ anyNan [fDecode f (a.lo % 2 ^ f.w)]

/-- A floating instruction in a bounds thread (R265): points give the element result, as a point unless it is NaN. A NaN operand is not well
formed, so it is read as TOP (R98). -/
def fBounds (op : FOp) (t mode op7 : Nat) (sat : Bool) (n : Nat) (a b c : SV) : IR :=
  let ptB : Bool := if op = .scale then b.isPoint else pointF t b
  -- an end of ±0 stands for both zeros (R97), which FCLASS and FSGN's B tell apart (R270, R272)
  let zeros : Bool := match op with
    | .cls => isZeroX (readF t a).1
    | .sgn => isZeroX (readF t b).1
    | _ => false
  if !zeros ∧ pointF t a ∧ (n < 2 ∨ ptB) ∧ (n < 3 ∨ pointF t c) then
    let r := fElem op t mode sat op7 a.lo b.lo c.lo
    let isNan : Bool := match op with | .cls => false | _ => anyNan [fDecode (fmtOf t) r.bits]
    if isNan then topOf t else { lo := r.bits, hi := r.bits, fl := 0 }
  else match op with
    | .cls =>
      -- every value in one class, N = 0 (R272)
      let f := fmtOf t
      let (l, h, na, fl) := readF t a
      let cl := fClassX f (a.lo % 2 ^ f.w)
      let ch := fClassX f (a.hi % 2 ^ f.w)
      if fl = 0 ∧ ¬ na ∧ cl = ch ∧ ¬ (isZeroX l ∨ isZeroX h) then { lo := cl, hi := cl } else topOf 2
    | _ => fIv op t mode op7 sat a b c

/-- Three-valued floating comparison (R100, R271). -/
def fCmpIv (cond t : Nat) (a b : SV) : Tri × Nat :=
  let (al, ah, na, fa) := readF t a
  let (bl, bh, nb, fb) := readF t b
  let tri (yes no : Bool) : Tri := if yes then .t else if no then .f else .u
  let apart : Bool := fxLt ah bl || fxLt bh al
  let pt : Bool := fxEq al ah && fxEq bl bh && fxEq al bl
  let base : Tri := match cond with
    | 0 => tri pt apart
    | 1 => tri apart pt
    | 2 => tri (fxLt ah bl) (!fxLt al bh)
    | 3 => tri (!fxLt bl ah) (fxLt bh al)
    | 4 => tri (fxLt bh al) (!fxLt bl ah)
    | 5 => tri (!fxLt al bh) (fxLt ah bl)
    | 6 => .f
    | _ => .t
  let n := na || nb
  -- with NaN possible: undecided, unless false for NaN and false for every pair (R100)
  ((if n then (match cond with
      | 1 | 6 | 7 => .u
      | _ => if base = .f then .f else .u) else base), fa ||| fb)

/-- Conversion in a bounds thread (R277): ends in the instruction's own mode, or outward for .sto. -/
def convBounds (d s mode : Nat) (sat : Bool) (a : SV) : IR :=
  let mlo := if mode = 6 then 3 else mode
  let mhi := if mode = 6 then 2 else mode
  if tyFloat s then
    let (_, _, na, fl) := readF s a
    let lo := if fl ≠ 0 then (topOf s).lo else a.lo
    let hi := if fl ≠ 0 then (topOf s).hi else a.hi
    let l := (convElem d s mlo sat 0 lo).bits
    let h := (convElem d s mhi sat 0 hi).bits
    if tyFloat d then
      if d = 11 ∧ na then { lo := fxMinC e2m1 l 0, hi := fxMaxC e2m1 h 0, fl := fl }
      else { lo := l, hi := h, nan := na, fl := fl }
    else
      let li := intOf d l
      let hi' := intOf d h
      if na then { lo := intBits d (min li 0), hi := intBits d (max hi' 0), fl := fl } else { lo := l, hi := h, fl := fl }
  else
    let (l, h, fl) := readI s a
    let lo := (cvtInt (fmtOf d) mlo sat 0 l).bits
    let hi := (cvtInt (fmtOf d) mhi sat 0 h).bits
    -- TOP of an integer type has N = 0 (R98)
    let na : Bool := a.nan && fl = 0
    if d = 11 ∧ na then { lo := fxMinC e2m1 lo 0, hi := fxMaxC e2m1 hi 0, fl := fl }
    else { lo := lo, hi := hi, nan := na, fl := fl }

end Sys2Proof
end

