-- ==== Sys2Proof/Machine/State.lean ====
section
/-!
DEFINITION. The state of the 4120 as plain data: warps, cores, dies, launches, the checker die and what is connected to the package;
the state after reset; the ways to stop. Sparse tables are association lists with rising keys.
A core is numbered die × 256 + its die-local number, 0 to 127 on the mesh and 128 for the firmware core.
-/
namespace Sys2Proof.Machine

/-! ## Values -/

/-- A predicate: three-valued in a bounds thread, with its endpoint tag E (R100, R375). -/
structure PVal where
  v : Tri := .f
  e : Bool := false
  deriving DecidableEq, Repr

/-- One 32-bit register name of one thread: ends of its interval (equal outside bounds threads), maybe-NaN tag N, endpoint tag E,
stamp (R97, R173, R375). A pair's N stands with the even name. -/
structure RVal where
  lo : Word := 0
  hi : Word := 0
  nan : Bool := false
  e : Bool := false
  stamp : Nat := 0
  deriving DecidableEq, Repr

/-- An interval of element coordinates (R195, R374). -/
structure Iv where
  lo : Nat := 0
  hi : Nat := 0
  deriving DecidableEq, Repr

/-- The last epoch of each agent that is ordered before a point (R189, R190); agent numbers rise. -/
abbrev Clock := List (Nat × Nat)

/-! ## A warp -/

/-- The state a thread has of its own (R193, R195, R374). -/
structure Lane where
  live : Bool := false
  /-- The thread's bit of EXEC. -/
  exec : Bool := false
  /-- A bounds thread; otherwise element mode or a launch outside bounds mode. -/
  bounds : Bool := false
  /-- p0 to p6. -/
  preds : List PVal := List.replicate 7 {}
  fpflags : Word := 0
  draw : Word := 0
  elem : Iv := {}
  elemX : Iv := {}
  elemY : Iv := {}
  elemZ : Iv := {}
  depth : Nat := 0
  deriving DecidableEq, Repr

/-- An entry of a split stack (R328); masks are over the warp's lanes and lie in the slice. -/
inductive Entry where
  | split (pcd : DWord) (md mall : Mask) (ph : Bool) (j : Option DWord)
  | call (ra : DWord)
  deriving DecidableEq, Repr

/-- A slice: four lanes with one program counter (R328). -/
structure Slice where
  pc : DWord := 0
  stack : List Entry := []
  /-- The trap stack of handler mode (R408); empty outside it. -/
  tstack : List Entry := []
  /-- The gang the slice belongs to. -/
  gang : Nat := 0
  /-- Its running path holds no live thread any more: it unwinds when the instruction is done (R331). -/
  ended : Bool := false
  /-- Ids of the named barriers whose pending bit is set (R365). -/
  pending : List Nat := []
  /-- What the last completed phase it arrived in orders, by barrier (R189 edge 3). -/
  passed : List (Nat × Clock) := []
  deriving DecidableEq, Repr

/-- Where an access goes. -/
inductive Place where
  /-- Physical memory. -/
  | mem (pa : Nat)
  /-- Scratchpad of a core (die-independent key) at a byte offset of the core's 768 KiB. -/
  | scr (core off : Nat)
  /-- A system address: port × 2^47 + address (R431). -/
  | sys (addr : Nat)
  /-- A byte offset of the die's weight store. -/
  | ws (off : Nat)
  deriving DecidableEq, Repr

/-- What a pending access does when it completes (R223 to R230). -/
inductive AccKind where
  /-- A load into vector name `d`, or into the uniform bank. -/
  | load (d : Nat) (uni : Bool)
  | store
  /-- A non-returning reduction: operation, TYPE, resolved mode. -/
  | red (op type mode : Nat)
  /-- A returning atomic: operation, TYPE, mode, destination. -/
  | atom (op type mode : Nat) (d : Nat)
  /-- CAS: compare value, destination. -/
  | cas (cmp : Nat) (d : Nat)
  /-- Held for translation only: PROBE, PREF, CCTL, or a part of an instruction that ends when all have come back. -/
  | touch
  deriving DecidableEq, Repr

/-- One thread's access of a memory instruction that has issued and not completed (R109, R220). -/
structure Acc where
  lane : Nat
  /-- Virtual address, canonical; with `place` set, the access needs no translation. -/
  va : Nat := 0
  place : Option Place := none
  /-- Bytes: for a load the count alone, for a write the data. -/
  size : Nat
  data : List Byte := []
  kind : AccKind
  /-- TYPE of the elements and how many. -/
  type : Nat := 0
  count : Nat := 1
  /-- Scope of an acquire and of a release, 0 for none. -/
  acq : Nat := 0
  rel : Nat := 0
  /-- Largest stamp among the address operands (R175). -/
  stamp : Nat := 0
  e : Bool := false
  /-- Outbound entries below this number leave before an atomic with a release is performed (R182). -/
  mark : Nat := 0
  /-- Suspended with this fault-queue sequence number (R111). -/
  seq : Option Nat := none
  /-- An atomic that has been sent in this exchange and has no response yet (R129). -/
  xch : Option Nat := none
  deriving DecidableEq, Repr

/-- A memory instruction in flight for a gang (R109, R220): what is left, and what happens when nothing is. -/
structure MemWait where
  accs : List Acc
  /-- Length of the instruction, and the names its last-read bits free (R200). -/
  len : Nat
  frees : List Nat
  /-- Vector names it writes. -/
  dests : List Nat := []
  /-- It acts once for the warp: a delivered fault gives TRAPMASK 0 (R465). -/
  once : Bool := false
  /-- Uniform name that receives a count at retirement (CSTORE, R224). -/
  count : Option (Nat × Nat) := none
  /-- The instruction issues again from its start once the accesses are translated (R465). -/
  again : Bool := false
  /-- Its accesses have passed the race check of a deterministic launch and may be performed (R191; log 82). -/
  checked : Bool := false
  /-- Entries resolved by FQDELIVER: SEQ, CAUSE, the threads that waited on them (R464). -/
  deliv : List (Nat × Nat × Mask) := []
  /-- Lanes that acted, and lanes whose access has completed. -/
  lanes : Mask
  done : Mask := 0
  deriving DecidableEq, Repr

/-- What an entry on its way does at its home (R172, R185). -/
inductive WKind where
  | store
  | red (op type mode : Nat)
  /-- BOEXP or BOARR through the window. -/
  | boExp (n : Nat)
  | boArr (n : Nat)
  /-- A message leaving (R134). -/
  | msg (id : Nat)
  deriving DecidableEq, Repr

/-- An entry of a store queue or of an outbound buffer (R172). -/
structure WEnt where
  seq : Nat
  /-- Number on entering the outbound buffer, from the same counter. -/
  ob : Nat := 0
  place : Place
  /-- Virtual address it was written through, for its packet's header (R126). -/
  va : Nat := 0
  data : List Byte := []
  kind : WKind := .store
  lane : Nat := 0
  /-- Release scope, 0 for none. -/
  rel : Nat := 0
  /-- Launch and team slot it belongs to. -/
  uid : Nat := 0
  slot : Nat := 0
  warp : Nat := 0
  /-- The packet that carries it has been sent and not yet performed. -/
  sent : Bool := false
  /-- Held under R120: a write outside the launch's own versions by a launch that may be squashed. -/
  held : Bool := false
  /-- What a window update of an object orders (R189). -/
  clock : Clock := []
  deriving DecidableEq, Repr

/-- A rectangle of accumulator cells on one core (R289). -/
structure Rect where
  row : Nat
  col : Nat
  rows : Nat
  cols : Nat
  deriving DecidableEq, Repr

/-- A copy record (R156). -/
structure CopyRec where
  sref : Word
  wref : Word
  dpitch : Nat
  spitch : Nat
  rows : Nat
  len : Nat
  dsp : Nat
  spv : Bool
  token : Nat
  dst : Nat
  ssp : Nat
  rel : Bool
  acq : Bool
  scope : Nat
  src : Nat
  /-- A nonzero reserved field. -/
  bad : Bool
  deriving DecidableEq, Repr

/-- A matrix operand as a task holds it (R290): register elements read at issue, a scratchpad descriptor, a reservation reference. -/
inductive MSrc where
  | regs (rows : List (List Nat))
  | scr (d0 d1 : Word)
  | resv (ref : Word)
  deriving DecidableEq, Repr

/-- What a task does (R163 to R169, R296 to R306). -/
inductive Job where
  | copy (r : CopyRec)
  | reduce (op type mode : Nat) (sat dsc ssc : Bool) (dst src n : Nat)
  | summ (type dst src n : Nat)
  /-- `bank`, and `fbank` on the follower core: 0 the committed bank, 1 from committed to shadow, 2 the shadow bank (R298). -/
  | mma (a b : MSrc) (fa fb : Nat) (rect : Rect) (k n : Nat) (pair clear : Bool) (bank fbank : Nat)
  | obld (mode type rm : Nat) (ssc : Bool) (ref : Word) (src rows cols pitch : Nat)
  | accst (type rm : Nat) (sat dsc : Bool) (rect : Rect) (dst pitch : Nat)
  deriving DecidableEq, Repr

/-- State of a task; DONE frees its entry (R150). -/
inductive TaskState where
  | waiting | ready | running
  deriving DecidableEq, Repr

/-- A task table entry (R150 to R155, R186). -/
structure Task where
  /-- Team slot, warp slot, launch. -/
  slot : Nat
  warp : Nat
  uid : Option Nat
  job : Job
  state : TaskState
  wref : Word := 0
  sref : Word := 0
  rel : Nat := 0
  /-- Scope of its acquire. -/
  acq : Nat := 0
  token : Option Nat := none
  /-- Outbound entries below this number leave before a release signals (R186). -/
  obMark : Nat := 0
  /-- Next row and byte of a copy. -/
  row : Nat := 0
  col : Nat := 0
  /-- Row and byte up to which a copy with a release has subtracted its bytes (R153). -/
  signed : Nat × Nat := (0, 0)
  /-- Source bytes bound before its start: displacement from the source address, and the bytes (R186). -/
  early : List (Nat × List Byte) := []
  /-- Its computation is made; its queue drains (R186). -/
  computed : Bool := false
  eq : List WEnt := []
  /-- Its next access waits for this page's walk: address and KIND. -/
  page : Option (Nat × Nat) := none
  /-- Suspended with this fault-queue entry (R111). -/
  seq : Option Nat := none
  /-- Its token committed while it was unfinished: its rectangle is copied when it is done (R307). -/
  copyDone : Bool := false
  agent : Nat := 0
  clock : Clock := []
  deriving DecidableEq, Repr

/-- What made a thread (R358). -/
inductive Origin where
  | spawn | message | quarter | element
  deriving DecidableEq, Repr

/-- A thread waiting to be placed, in a bin, or in a formed warp (R359). -/
structure Spawned where
  uid : Nat
  entry : DWord
  origin : Origin
  /-- Names filled at start (R194, R369, R381). -/
  regs : List (Nat × Word) := []
  elem : Iv := {}
  elemX : Iv := {}
  elemY : Iv := {}
  elemZ : Iv := {}
  depth : Nat := 0
  bounds : Bool := false
  clock : Clock := []
  deriving DecidableEq, Repr

/-- Why a gang is not ready (R327). -/
inductive Wait where
  | ready
  /-- The fetch at this address waits for a walk, or on a fault-queue entry (R110, R111). -/
  | fetch (va : Nat) (seq : Option Nat)
  /-- A memory instruction with accesses outstanding. -/
  | mem (m : MemWait)
  /-- REGANG: the mask of slices, and the instruction's length (R341). -/
  | regang (mask : Nat) (len : Nat)
  /-- REGROUP: partner WARPID, predicate destination, length (R342). -/
  | regroup (partner pd len : Nat)
  /-- SLEEP until the die's cycle (R343). -/
  | sleep (till : Nat)
  /-- BOWAIT: lanes not yet satisfied with their object and parity, scope of the acquire, length, names to free (R147). -/
  | bowait (left : List (Nat × Nat × Nat × Bool)) (acq len : Nat) (frees : List Nat)
  /-- FENCE or a release at a scope: entries of OB(c) older than `mark` must leave; `len` (R182, R184). -/
  | fence (scope mark len : Nat)
  /-- A wait on a barrier id, past its BARW or BARS (R365). -/
  | barrier (id : Nat)
  /-- RBAR on a subgroup word; what its release waits for is older than `mark`; `len` (R368). -/
  | rbar (word mark len : Nat)
  /-- SQWAIT on a handle: destination, length (R402), stamp of its operand (R173). -/
  | sqwait (handle d len stamp : Nat)
  /-- SQSTART behind other runs of its die's sequencer (R402); length. -/
  | sqstart (len : Nat)
  /-- TLBI, until the writes that each core had queued below its number are performed; WAITI (R411). -/
  | tlbi (marks : List (Nat × Nat)) (len : Nat)
  | waiti (len : Nat)
  /-- DRAIN: the tasks, by their id, that must be DONE (R165). -/
  | drain (ids : List Nat) (len : Nat)
  /-- Tasks of CPY, KICK and the other commands that have not found an entry yet; length, names to free (R152, R163, R164). -/
  | enter (tasks : List Task) (len : Nat) (frees : List Nat)
  /-- The instruction cannot proceed yet and issues again from its start: a full table, a queue that must drain, a budget. -/
  | retry
  /-- SPAWN whose warp's store queue drains first: its threads, their timer, length, names to free (R369). -/
  | spawn (ts : List Spawned) (timer len : Nat) (frees : List Nat)
  /-- SPAWN: threads up to the core's arrival number `last` are still to be placed (R359). -/
  | place (last len : Nat)
  /-- MSEND to a core whose buffer was full: its messages that have not left; length, names to free (R136). -/
  | msend (ids : List Nat) (len : Nat) (frees : List Nat)
  /-- HALT on a firmware core (R411). -/
  | halted
  deriving DecidableEq, Repr

/-- A gang: slices with one PC that issue together (R330). -/
structure Gang where
  id : Nat
  wait : Wait := .ready
  /-- Threads that completed the trapped instruction and are not performed again on RTE.rep (R220, R411). -/
  skip : Mask := 0
  /-- Entries of the instruction at work that FQDELIVER has resolved before it issues again for its other threads (R464). -/
  deliv : List (Nat × Nat × Mask) := []
  /-- The number of its core at the release that the instruction at work began with (R182, R185). -/
  mark : Option Nat := none
  /-- Agent number and what is ordered before its next access: the last epoch of each agent (R189, R190). -/
  agent : Nat := 0
  clock : Clock := []
  /-- Instruction starts of its way since it was last not kept waiting (R327). -/
  waited : Nat := 0
  deriving DecidableEq, Repr

/-- A warp (R22, R193, R407, R408). -/
structure Warp where
  /-- Team slot on the core. -/
  team : Nat
  warpId : Nat
  lanes : List Lane
  slices : List Slice
  gangs : List Gang
  /-- Mapped vector names, rising, each with one value per lane (R199). -/
  vregs : List (Nat × List RVal) := []
  /-- s0 to s63. -/
  sregs : List RVal := List.replicate 64 {}
  /-- The second bank s56 to s63 of handler mode (R408). -/
  hregs : List RVal := List.replicate 8 {}
  ix : Word := 0
  fpmode : Word := 0
  trapCause : Word := 0
  trapAddr : DWord := 0
  trapMask : Mask := 0
  tsexec : Mask := 0
  tsdone : Mask := 0
  /-- The gangs in handler mode, the trapping one and those that parted from it there, and the length of the trapped instruction (R330, R406,
  R411; log 81). -/
  handler : Option (List Nat × Nat) := none
  /-- Names in the operand buffer, and names for which a slot is reserved (R205, R206). -/
  opbuf : List Nat := []
  sq : List WEnt := []
  /-- F(w) (R172); set at the warp's first instruction. -/
  floor : Nat := 0
  started : Bool := false
  nextGang : Nat := 1
  deriving DecidableEq, Repr

/-! ## A core -/

/-- A barrier object (R141); `pend` gathers what the phase in progress orders, `clock` what the last completed phase orders (R189). -/
structure BObj where
  pendb : Int := 0
  arrv : Nat
  init : Nat
  phcnt : Nat := 0
  pend : Clock := []
  clock : Clock := []
  deriving DecidableEq, Repr

/-- A named barrier (R365). -/
structure Barrier where
  exp : Option Nat := none
  arr : Nat := 0
  phase : Bool := false
  pend : Clock := []
  clock : Clock := []
  deriving DecidableEq, Repr

/-- A signal held against a token (R161): object's core and granule offset, and bytes landed or one arrival. -/
structure Held where
  core : Nat
  off : Nat
  bytes : Option Nat
  clock : Clock := []
  deriving DecidableEq, Repr

/-- A speculation token of a team (R161, R299). -/
structure Token where
  rects : List (Nat × Rect) := []
  held : List Held := []
  deriving DecidableEq, Repr

/-- A reservation of the format operand buffer (R301). -/
structure Resv where
  base : Nat
  size : Nat
  fmt : Nat
  blk : Nat
  band : Bool
  rows : Nat
  cols : Nat
  bsoff : Nat
  bdoff : Nat
  deriving DecidableEq, Repr

/-- The exact real sum of the values added to a key, with R95's rules for infinities and NaNs (R232): i × 2^e. -/
structure Partial where
  /-- The key: virtual address and type (log 83); `addr` is the physical address of the last addition. -/
  va : Nat
  type : Nat
  addr : Nat := 0
  /-- A value has been added; otherwise an instruction that has been checked holds the entry. -/
  used : Bool := false
  i : Int := 0
  e : Int := 0
  pinf : Bool := false
  ninf : Bool := false
  nan : Bool := false
  deriving DecidableEq, Repr

/-- A bin (R359). -/
structure Bin where
  uid : Nat
  entry : DWord
  threads : List Spawned
  /-- Cycle of the core at which the timer reaches zero. -/
  deadline : Nat
  /-- Arrival order of its first thread. -/
  order : Nat
  deriving DecidableEq, Repr

/-- A formed warp that waits for room, and the cycle at which its threads were made (R357, R360). -/
structure Formed where
  threads : List Spawned
  since : Nat
  deriving DecidableEq, Repr

/-- A thread that waits for a bin, ahead of every later placement on its core (R359). -/
structure Placing where
  /-- Arrival number on the core. -/
  num : Nat
  thread : Spawned
  timer : Nat
  /-- It came in a message, and stands in the buffer of 32 (R136). -/
  msg : Bool := false
  deriving DecidableEq, Repr

/-- A message that has not arrived (R134). -/
structure Msg where
  id : Nat
  /-- Core key of the target, and core key and warp slot of the sender. -/
  core : Nat
  src : Nat
  warp : Nat
  thread : Spawned
  /-- First agent of the sending team and the warp's WARPID, which a restore does not change. -/
  sender : Nat × Nat := (0, 0)
  /-- Tasks of the sending warp that finish before a message with a release leaves. -/
  tasks : List Nat := []
  /-- It has left the outbound buffer. -/
  sent : Bool := false
  deriving DecidableEq, Repr

/-- A tile whose bounds thread took an event (R378): quartered or handed off element by element. -/
structure Tile where
  uid : Nat
  quarter : Bool
  x : Iv
  y : Iv
  z : Iv
  depth : Nat
  payload : Option Word := none
  /-- Next linear place of the tile's elements, or next quarter. -/
  next : Nat := 0
  /-- Warp slot whose store queue entries up to `mark` drain first. -/
  warp : Nat
  mark : Nat
  /-- Arrival number of its last placed thread, while that waits for a bin. -/
  last : Nat := 0
  clock : Clock := []
  deriving DecidableEq, Repr

/-- How a team came to be (R351, R360, R372, R416). -/
inductive TeamKind where
  | grid | spawned | firmware
  deriving DecidableEq, Repr

/-- A team on a core (R22, R195, R352). -/
structure Team where
  kind : TeamKind
  /-- Number of its first agent, which no other admission shares. -/
  first : Nat := 0
  /-- Launch; none on a firmware core. -/
  uid : Option Nat
  teamIdx : Nat
  teamW : Nat
  /-- Segment number and the quad's number within it; window position. -/
  seg : Nat := 0
  quad : Nat := 0
  pos : Nat := 0
  param : DWord := 0
  key : DWord := 0
  /-- Names per thread (R203). -/
  n : Nat
  /-- Physical warp-vectors reserved (R199, R207). -/
  vectors : Nat := 0
  scrBase : Nat := 0
  scrSize : Nat := 0
  barriers : List Barrier := []
  resvs : List (Nat × Resv) := []
  tokens : List Token := [{}, {}, {}, {}]
  partials : List Partial := []
  /-- Threads of a spawned team, for its re-run (R416). -/
  threads : List Spawned := []
  reruns : Nat := 0
  /-- No warp is left; its READY and RUNNING tasks run out (R155). -/
  ending : Bool := false
  /-- It is to be saved, or its core drains (R420). -/
  saving : Bool := false
  drain : Bool := false
  deriving DecidableEq, Repr

/-- A copy of a memory sector in the core view (R172). -/
structure CopyV where
  data : List Byte
  stamp : Nat
  deriving DecidableEq, Repr

/-- A core (R172, R193, R286, R301, R352, R359). -/
structure Core where
  cycOff : Nat := 0
  /-- Cycle at which each way is free (R326). -/
  wayFree : List Nat := List.replicate 8 0
  /-- Issue order of its gangs: warp slot, gang id (R327, R339). -/
  order : List (Nat × Nat) := []
  /-- Instruction words fetched ahead: launch, physical address, word (R463). -/
  ahead : List ((Option Nat × Nat) × Word) := []
  /-- The model's own: the instruction at work was issued before and stalled, so its way is paid for (R326). -/
  polling : Bool := false
  temp : Nat := 0
  thr : Bool := false
  cv : List (Nat × CopyV) := []
  ob : List WEnt := []
  seq : Nat := 0
  teams : List (Nat × Team) := []
  warps : List (Nat × Warp) := []
  /-- Scratchpad bytes by core offset; an unlisted byte is 0 (R139). -/
  scr : List (Nat × Byte) := []
  /-- Tagged granules by core offset (R141). -/
  objs : List (Nat × BObj) := []
  /-- Accumulator cells, committed and shadow, at row × 512 + column; an unlisted cell is 0. -/
  acc : List (Nat × Word) := []
  shadow : List (Nat × Word) := []
  /-- Owner slot of each owned strip (R286). -/
  strips : List (Nat × Nat) := []
  stat : List (Nat × Nat) := []
  shadowStat : List (Nat × Nat) := []
  fbuf : List (Nat × Byte) := []
  tasks : List (Nat × Task) := []
  nextTask : Nat := 0
  bins : List (Nat × Bin) := []
  placing : List Placing := []
  /-- Next arrival number of a thread. -/
  arrivals : Nat := 1
  formed : List Formed := []
  tiles : List (Nat × Tile) := []
  nextTile : Nat := 0
  /-- Witness charges not withdrawn since the last passing scan, by launch, mark, and a scan in progress with its start cycle (R439, R440). -/
  charges : List Nat := []
  marked : Bool := false
  scan : Option Nat := none
  /-- A firmware core in reset, and one that has halted (R411, R433). -/
  inReset : Bool := false
  halted : Bool := false
  deriving DecidableEq, Repr

/-! ## A die -/

/-- A cached translation (R107, R119): page base, size, and the leaf's fields. -/
structure TlbEnt where
  ctx : Nat
  base : Nat
  size : Nat
  /-- Physical base, or the staged region. -/
  frame : Nat
  stg : Bool
  fidx : Nat
  g : Bool
  rt : Bool
  s : Bool
  x : Bool
  wr : Bool
  deriving DecidableEq, Repr

/-- An entry that is suspended (R110 to R112): whose it is, on which page, and what it answers. -/
structure Susp where
  core : Nat
  warp : Nat
  /-- The gang, or the task for an engine access. -/
  gang : Nat
  task : Option Nat
  ctx : Nat
  va : Nat
  kind : Nat
  cause : Nat
  mask : Mask
  deriving DecidableEq, Repr

/-- A solver method (R387): FP64 codes. -/
structure Method where
  stages : Nat
  q : Nat
  fsal : Bool
  safety : Nat
  fmin : Nat
  fmax : Nat
  c : List Nat
  a : List (List Nat)
  b : List Nat
  bh : List Nat
  deriving DecidableEq, Repr

/-- A sample of a run (R390). -/
structure Sample where
  idx : Nat
  kbuf : Nat
  lat : Nat
  norm : Nat
  h : Nat
  /-- H as it stood before the clamp of the round (R395). -/
  h0 : Nat
  t : Nat
  steps : Nat
  rejects : Nat
  run : Nat
  k1v : Bool
  status : Nat
  fin : Bool := false
  deriving DecidableEq, Repr

/-- A solver run (R393). -/
structure SqRun where
  serial : Nat
  uid : Nat
  ctx : Nat
  core : Nat
  recAddr : Nat
  kernel : DWord
  key : DWord
  rtol : Nat
  atol : Nat
  tend : Nat
  teams : Nat
  n : Nat
  rlim : Nat
  subg : Nat
  type : Nat
  method : Method
  samples : List Sample
  /-- Stage in progress, 1 to s; 0 before the clamp of a round. -/
  stage : Nat := 0
  /-- Child launches of the stage in flight. -/
  children : List Nat := []
  killed : Bool := false
  abort : Bool := false
  rounds : Nat := 0
  deriving DecidableEq, Repr

/-- An SQSTART that waits for the sequencer (R402), in issue order: its gang, destination, record address, active threads. -/
structure SqWaiter where
  core : Nat
  warp : Nat
  gang : Nat
  dst : Nat
  record : Nat
  mask : Mask
  /-- Stamp of the record's address (R173). -/
  stamp : Nat := 0
  deriving DecidableEq, Repr

/-- A recent run's handle state (R402, R403). -/
structure SqDone where
  serial : Nat
  ctx : Nat
  status : Word
  deriving DecidableEq, Repr

/-- An open group of the launch aggregator (R364). -/
structure AggGroup where
  members : List Nat
  first : Nat
  deriving DecidableEq, Repr

/-- A compute die: its supervisor registers, translation service, weight store, aggregator and sequencer. -/
structure Die where
  cycle : Nat := 0
  tvecLo : Word := 0
  tvecHi : Word := 0
  intPend : Nat := 0
  intEn : Nat := 0
  fqBase : Nat := 0
  fqHead : Nat := 0
  fqTail : Nat := 0
  ctxBase : Nat := 0
  fwMode : Nat := 0
  mirOff : Bool := false
  mirFixed : Nat := 0
  plim : Nat := 620
  emarg : Word := 0x78502800
  thot : Nat := Config.thotFuse
  finj : Word := 0
  /-- SEV0 to SEV23. -/
  sev : List Nat
  /-- CLMAP0 to CLMAP31: PRESENT and PHYS. -/
  clmap : List (Bool × Nat)
  /-- Spare physical clusters still unused; CLSPARE counts them (R16). -/
  spares : List Nat := [32, 33, 34, 35]
  /-- Clusters whose retirement waits for their teams (R17). -/
  retiring : List Nat := []
  tlb : List TlbEnt := []
  /-- The model's own: cached translations that the TLB which answers next does not hold (R107; log 84). -/
  tlbOther : List TlbEnt := []
  /-- Walks in arrival order: context, 4 KiB page (R108). -/
  walks : List (Nat × Nat) := []
  fq : List (Nat × Susp) := []
  ws : List (Nat × Byte) := []
  wsGen : Nat := 0
  wsDigest : BitVec 256 := 0
  wsUsable : Bool := true
  /-- A write window is open; its bytes wait for CK's digest (R115). -/
  wsWindow : Bool := false
  wsSource : List (Nat × Byte) := []
  agg : List AggGroup := []
  tlaunchCount : Nat := 0
  slots : List (Nat × (Nat × Method)) := []
  run : Option SqRun := none
  sqWait : List SqWaiter := []
  recent : List SqDone := []
  sqSerial : Nat := 0
  /-- Contexts whose copies the slices drop (R130). -/
  dropCtx : List Nat := []
  resetting : Bool := false
  deriving DecidableEq, Repr

/-! ## Launches and the checker die -/

/-- Entry roles (R46). -/
inductive Role where
  | main | element | spawn | handler
  deriving DecidableEq, Repr

/-- A kernel image as the loader holds it (R36, R45, R48). Addresses are of the copy made for origin (0, 0), whose text and rodata stand
from `addr` on at physical `pa` on; the copy for an origin lies `stride` × the origin's number further. -/
structure Image where
  ctx : Nat
  /-- KERNEL address. -/
  addr : DWord
  entries : List (DWord × Role) := []
  teamW : Nat := 1
  barriers : Nat := 0
  scratch : Nat := 0
  regs : Nat := 256
  det : Bool := false
  prot : Bool := false
  bounds : Option (Nat × Nat × Nat × Nat × Nat) := none
  idem : Bool := false
  /-- .witness entries: kind, parameter-block offsets. -/
  wits : List (Nat × List Nat) := []
  /-- .summary slots: slot, parameter-block offset. -/
  summ : List (Nat × Nat) := []
  /-- Relocation table: address of the word in the origin-0 copy, low bit, width, kind 0 row 1 col 2 clrow 3 clcol, addend. -/
  relocs : List (DWord × Nat × Nat × Nat × Int) := []
  /-- Addresses of the 64-bit words of a copy that name an address of that same copy. -/
  refs : List DWord := []
  /-- Text and rodata of the origin-0 copy: physical address and length, of which text is the first part. -/
  pa : Nat := 0
  bytes : Nat := 0
  text : Nat := 0
  /-- Its one copy of data: address and length. -/
  data : DWord := 0
  dataBytes : Nat := 0
  /-- Its name, the size of its parameter layout, and the addresses of the words resolved at load: no step of the machine reads them (R48). -/
  name : String := ""
  param : Nat := 0
  loads : List DWord := []
  /-- Distance between the copies of two origins, virtual and physical. -/
  stride : Nat := 0
  deriving DecidableEq, Repr

/-- A dependence (R348). -/
inductive Dep where
  | launch (tag : DWord)
  | ws (die : Nat)
  deriving DecidableEq, Repr

/-- State of a version (R117). -/
inductive VState where
  | opened | pending | attested | failed | discarded | retired
  deriving DecidableEq, Repr

/-- A version of a staged region (R117, R119). Its number is below 65,536, but for a version of the second run of a DUAL pair, which has
none: it stands under 65,536 and the run's number. -/
structure Version where
  ctx : Nat
  region : Nat
  num : Nat
  state : VState
  /-- Pool frames in the order taken; empty once returned. -/
  frames : List Nat
  count : Nat
  producer : Nat
  digest : BitVec 256 := 0
  deriving DecidableEq, Repr

/-- A witness recorded with a launch (R310 to R312): kind 0 to 5, 6 SHADOW, and its descriptors. -/
structure Witness where
  kind : Nat
  descs : List Nat := []
  /-- The parameter-block offsets of a descriptor witness, read at submission (R313). -/
  offs : List Nat := []
  param : DWord := 0
  deriving DecidableEq, Repr

/-- A system write in the gate's FIFO (R172, R188). -/
structure SysWrite where
  addr : Nat
  data : List Byte
  deriving DecidableEq, Repr

/-- One element of a combine as the sequencer read and stored it (R399): codes of x, of the step, of coefficients and k. -/
structure CombElem where
  type : Nat
  x : Option Nat
  h : Nat
  terms : List (Nat × Nat × Nat)
  out : Nat
  deriving DecidableEq, Repr

/-- One sample of a decision round (R400). -/
structure StepElem where
  type : Nat
  n : Nat
  atol : Nat
  rtol : Nat
  safety : Nat
  fmin : Nat
  fmax : Nat
  q : Nat
  x : List Nat
  xnew : List Nat
  /-- b and b̂ of each stage, and its k values. -/
  ks : List (Nat × Nat × List Nat)
  h : Nat
  norm : Nat
  accepted : Bool
  fin : Bool
  newH : Nat
  status : Nat
  deriving DecidableEq, Repr

/-- Where a launch stands. -/
inductive LPhase where
  /-- Recorded; waits for its dependences and frames. -/
  | waiting
  /-- Dispatched (R118). -/
  | running
  /-- Counter zero and no quad left; its end flush goes on (R358, R185). -/
  | flushing
  /-- Its witnesses are with the checker (R321). -/
  | checking
  /-- Its outcome is known; its record has not passed the gate. -/
  | settled
  | ended
  deriving DecidableEq, Repr

/-- A segment of a grid (R364, R394). -/
structure Seg where
  teams : Nat
  param : DWord
  key : DWord
  deriving DecidableEq, Repr

/-- A team that waits for its re-run (R416, R459). -/
structure Rerun where
  team : Nat
  seg : Nat
  quad : Nat
  pos : Nat
  reruns : Nat
  threads : List Spawned
  core : Nat
  deriving DecidableEq, Repr

/-- A launch (R22, R346 to R358). -/
structure Launch where
  ctx : Nat
  kernel : DWord
  tag : DWord
  queue : Option Nat := none
  parent : Option Nat := none
  root : Nat
  /-- Die of the sequencer that recorded it, for a stage's grid (R394). -/
  stageOf : Option Nat := none
  /-- Origin cluster row and column, height and width in clusters. -/
  ocr : Nat
  occ : Nat
  ch : Nat
  cw : Nat
  /-- Clusters that the rotation of R319 gives its quads: segment, quad, cluster row, cluster column. -/
  fixed : List (Nat × Nat × Nat × Nat) := []
  /-- How many times the rotation of R319 has moved its teams within its rectangle. -/
  rot : Nat := 0
  segs : List Seg
  /-- Number of its first segment within a merged group (R364). -/
  seg0 : Nat := 0
  pri : Nat
  ec : Nat
  dpl : Bool
  nx : Nat := 0
  ny : Nat := 0
  nz : Nat := 0
  deps : List Dep := []
  outs : List (Nat × Nat) := []
  phase : LPhase
  age : Nat
  /-- Held in an open group of the aggregator. -/
  grouped : Bool := false
  run : Nat := 1
  counter : Nat := 0
  /-- Next segment and quad to place. -/
  nextSeg : Nat := 0
  nextQuad : Nat := 0
  /-- Cluster of each admitted quad: segment, quad, cluster row, cluster column. -/
  quads : List (Nat × Nat × Nat × Nat) := []
  reruns : List Rerun := []
  /-- Bindings: region and version number; none where no version could be bound (R118). -/
  binds : List (Nat × Option Nat) := []
  /-- Its own output versions of this run. -/
  outVers : List (Nat × Nat) := []
  /-- Bindings of run 1, which a re-run takes (R318). -/
  prevBinds : Option (List (Nat × Option Nat)) := none
  witnesses : List Witness := []
  budget : Nat := 0
  /-- Charges of witness failures: core and DETAIL of its entry (R316, R320), and charged dies without a core (R320). -/
  charges : List (Nat × Nat) := []
  chargedDies : List Nat := []
  /-- Digests of the output versions of each failed run that was not stopped (R318). -/
  digests : List (List (BitVec 256)) := []
  /-- A witness has failed and the re-run has not been placed: the die from which R448 ranks, and whether it counts as charged (R319). -/
  failed : Option (Nat × Bool) := none
  /-- Prefix digests of its PREFIX witnesses (R317). -/
  prefixes : List (BitVec 256) := []
  status : Option Nat := none
  runs : Nat := 1
  dies : Nat := 0
  mirrored : Bool := false
  gate : List SysWrite := []
  stream : List SysWrite := []
  /-- The other run of a DUAL pair, and whether this is the second (R317). -/
  twin : Option Nat := none
  second : Bool := false
  /-- Dispatched only once this launch has been dispatched in this run or a later one (R121). -/
  after : Option (Nat × Nat) := none
  /-- The end of the second run without completion (R317). -/
  broken : Bool := false
  /-- Weight-store generation recorded at dispatch, by die (R313). -/
  wsGens : List (Nat × Nat) := []
  /-- Partial sums of teams that have ended: TEAMIDX and sum (R232). -/
  sums : List (Nat × Partial) := []
  /-- Which core wrote a byte of an output by ACCST: region, byte offset, core (R316). -/
  wrote : List (Nat × Nat × Nat) := []
  /-- Decided samples of its solver runs: the record's address, the sequencer's die, what it stored (R400, R455). -/
  steps : List (Nat × Nat × StepElem) := []
  clock : Clock := []
  /-- A peer has refused one of its writes (R432). -/
  peerRefused : Bool := false
  deriving DecidableEq, Repr

/-- A check that the checker holds (R321). -/
structure Check where
  uid : Nat
  run : Nat
  wit : Witness
  comb : List CombElem := []
  step : List StepElem := []
  /-- Die of the sequencer whose witness it is (R320). -/
  seqDie : Option Nat := none
  deriving DecidableEq, Repr

/-- A queue of the front end (R427, R428, R430). -/
structure Queue where
  en : Bool := false
  gen : Nat := 0
  loc : Bool := false
  pmax : Nat := 0
  ctx : Nat := 0
  crlog : Nat := 6
  srlog : Nat := 6
  crbase : Nat := 0
  srbase : Nat := 0
  started : Bool := false
  head : Nat := 0
  tail : Nat := 0
  cqHead : Nat := 0
  count : Nat := 0
  deriving DecidableEq, Repr

/-- A leaf of a die's fabric (R124); the manual names none for the firmware core, which has one of its own here (log 23). -/
inductive Leaf where
  | cluster (n : Nat) | slice (n : Nat) | weight (n : Nat) | checker | firmware
  deriving DecidableEq, Repr

/-- An endpoint: SRC or DST of a header (R126). -/
structure Endpoint where
  die : Nat
  leaf : Leaf
  deriving DecidableEq, Repr

/-- KIND of a header (R126); `other`: every other code. -/
inductive PKind where
  | load | store | atomic | reduction | engineRead | engineWrite | message | witness | ack | response
  | other (code : Nat)
  deriving DecidableEq, Repr

/-- A packet in flight: its header (R126), its payload, the upward outputs it has taken (R125), and the exchange its SRC and TAG name. -/
structure Packet where
  kind : PKind
  xch : Nat
  copy : Nat
  src : Endpoint
  dst : Endpoint
  tag : Nat
  ctx : Nat
  addr : Nat
  /-- Payload flits. -/
  pfl : Nat
  /-- Bits 447:118. -/
  rest : Nat := 0
  data : List Byte := []
  up : List Nat := []
  deriving DecidableEq, Repr

/-- What an exchange carries (R129): an entry of OB, a returning atomic of a gang, or the head of a task's engine queue. -/
inductive Cargo where
  | ob (e : WEnt)
  | atom (warp gang : Nat) (a : Acc)
  | task (id : Nat) (e : WEnt)
  deriving DecidableEq, Repr

/-- An exchange at its source (R129). -/
structure Exchange where
  core : Nat
  tag : Nat
  ctx : Nat
  uid : Nat
  cargo : Cargo
  /-- Physical address of what it writes. -/
  pa : Nat
  /-- Its number from the core's counter. -/
  num : Nat := 0
  copies : Nat := 0
  last : Nat := 0
  answered : Bool := false
  /-- Its source has been reset, or its context killed: what arrives of it is dropped (R130). -/
  lost : Bool := false
  /-- Its launch has been squashed or stopped and its frame returned: a first arrival is answered and not performed (R119, R121). -/
  void : Bool := false
  deriving DecidableEq, Repr

/-- An entry of a replay filter (R130): copies that have arrived, the stored response, and the acknowledgement's COPY. -/
structure Filter where
  copies : List Nat
  value : List Byte := []
  ack : Option Nat := none
  ctx : Nat
  deriving DecidableEq, Repr

/-- A fault-record entry (R442). -/
structure FaultEnt where
  seq : Nat
  cls : Nat
  ck : Bool
  /-- None where the manual gives the field no value. -/
  die : Option Nat
  core : Option Nat
  ctx : Option Nat
  detail : Option Nat
  tag : DWord
  deriving DecidableEq, Repr

/-- An access the race tracker remembers for a sector (R190): 0 read, 1 write, 2 reduction of an operation and type; with its launch
and its team's `first`. -/
structure Track where
  agent : Nat
  epoch : Nat
  kind : Nat
  op : Nat := 0
  uid : Nat := 0
  team : Nat := 0
  deriving DecidableEq, Repr

/-- A team's image in the save pool (R422). -/
structure Saved where
  uid : Nat
  team : Team
  warps : List Warp
  scr : List (Nat × Byte)
  objs : List (Nat × BObj)
  tasks : List Task
  /-- Their ids on the core it was saved from, which queued messages name (R134). -/
  taskIds : List Nat := []
  acc : List (Nat × Word)
  shadow : List (Nat × Word)
  strips : List Nat
  stat : List (Nat × Nat)
  shadowStat : List (Nat × Nat)
  fbuf : List (Nat × Byte)
  /-- What the race tracker holds of its scratchpad, by sector of its allocation. -/
  tracks : List (Nat × List Track) := []
  frames : Nat
  deriving DecidableEq, Repr

/-- The outcome of a launch as an attestation report gives it (R437): outputs with their regions, versions and digests. -/
structure Result where
  tag : DWord
  status : Nat
  runs : Nat
  dies : Nat
  outs : List (Nat × Nat × BitVec 256)
  prefixes : List (BitVec 256) := []
  deriving DecidableEq, Repr

/-- What moves next. -/
inductive Sched where
  /-- An event row with its operands. -/
  | event (i : Instr) (a : EvArgs)
  /-- The gang of a warp of a core issues. -/
  | issue (core warp gang : Nat)
  /-- The next ready gang of a way in its issue order (R327). -/
  | way (core way : Nat)
  /-- Cycles pass on a die. -/
  | tick (die n : Nat)
  /-- The gang issues, and at most `n` accesses of its instruction are performed in the same step (R221). -/
  | paced (core warp gang n : Nat)
  /-- A page is walked, and its translation cached in front of older ones (R107). -/
  | tlbWalk (die ctx page : Nat)
  /-- Cached translation `n` of the die is not held by the TLB that answers next; one such is again (R107). -/
  | tlbAside (die n : Nat)
  | tlbBack (die n : Nat)
  /-- A core fetches the instruction word at a physical address ahead for a launch, or drops what it fetched (R463). -/
  | fetchAhead (core : Nat) (uid : Option Nat) (pa : Nat)
  | fetchDrop (core : Nat) (uid : Option Nat) (pa : Nat)
  /-- A task binds source bytes before its wait is satisfied: their displacement and number (R186). -/
  | bindEarly (core task disp n : Nat)
  deriving DecidableEq, Repr

/-- The whole machine: the package and what it is connected to. -/
structure State where
  /-- The model's own: what moves next, in order (log 1). -/
  agenda : List Sched
  /-- The model's own: core, warp slot and gang whose instruction `exec` performs (log 1). -/
  focus : Nat × Nat × Nat
  /-- The model's own: operands of the event row that `exec` performs (log 1). -/
  ev : EvArgs
  /-- The model's own: how many accesses of the instruction at work are performed in its own step; none: all that can be (log 1, log 58). -/
  pace : Option Nat
  /-- The model's own: counter that free values are drawn with (log 2). -/
  freeCtr : Nat
  /-- Physical memory: bytes that are not 0, at rising addresses (R102). -/
  hbm : List Host.Cell
  /-- Coherence order of each sector of memory: the writes applied to it, oldest first, each an address and its bytes (R172). -/
  coh : List (Nat × List (Nat × List Byte))
  /-- Memory beyond the links, at port × 2^47 + address (R431). -/
  sysMem : List Host.Cell
  /-- System writes of firmware cores at the release gate, in order: the die, the write, and the versions that were not attested when it entered
  (R1; log 22). -/
  fwGate : List (Nat × SysWrite × List (Nat × Nat × Nat))
  cores : List (Nat × Core)
  dies : List Die
  launches : List (Nat × Launch)
  images : List Image
  versions : List Version
  checks : List (Nat × Check)
  nextCheck : Nat
  nextUid : Nat
  nextAgent : Nat
  nextMsg : Nat
  nextXch : Nat
  nextPkt : Nat
  queues : List (Nat × Queue)
  /-- MSI-X vectors signalled, in order (R430). -/
  msix : List Nat
  /-- Messages in flight (R134). -/
  flight : List Msg
  packets : List (Nat × Packet)
  exchanges : List (Nat × Exchange)
  filters : List (Nat × Filter)
  tracks : List (Nat × List Track)
  saved : List Saved
  flash : List Byte
  recovery : Bool
  powered : Bool
  attReqs : List (Nat × AttRequest)
  nextAtt : Nat
  /-- Launch results that an attestation report reads (R437). -/
  results : List Result
  /-- Answers of the SMBus, newest last (R441). -/
  smbus : List Nat
  /-- Data that inbound reads from peers answer, newest last (R432). -/
  peerOut : List (List Byte)
  pkgLimit : Nat
  stgBase : Nat
  stgSize : Nat
  svBase : Nat
  svSize : Nat
  pwBase : Nat
  pwSize : Nat
  qcbBase : Nat
  scanPri : Nat
  scanThr : Nat
  leaseHolder : Nat
  leaseHeld : Bool
  leaseCnt : Nat
  leaseEpoch : Nat
  faultRec : List FaultEnt
  faultSeq : Nat
  faultLost : Nat
  deriving DecidableEq, Repr

/-! ## Reset -/

/-- Floor of each error class (R413). -/
def floorOf (c : Nat) : Nat :=
  [0, 1, 3, 0, 3, 3, 0, 3, 3, 0, 3, 4, 4, 0, 3, 3, 3, 1, 3, 3, 2, 1, 1, 1].getD c 0

/-- Reset severity of each error class (R413). -/
def sevReset : List Nat := [1, 1, 3, 1, 3, 3, 1, 3, 3, 1, 3, 4, 4, 0, 3, 3, 3, 1, 3, 3, 2, 2, 2, 2]

/-- A die after reset; its cluster map is that of a part whose 36 clusters are good (R15; log 8). -/
def Die.fresh : Die := { sev := sevReset, clmap := (List.range 32).map fun n => (true, n) }

/-- A firmware core in reset (R433). -/
def Core.firmware : Core := { inReset := true }

/-- The package before power-on: everything at its reset value, and power-on the next thing to happen (log 1). -/
def State.reset : State where
  agenda := [.event .packagePowerOn {}]
  focus := (128, 0, 0)
  ev := {}
  pace := none
  freeCtr := 0
  hbm := []
  coh := []
  sysMem := []
  fwGate := []
  cores := [(128, .firmware), (384, .firmware), (640, .firmware), (896, .firmware)]
  dies := [.fresh, .fresh, .fresh, .fresh]
  launches := []
  images := []
  versions := []
  checks := []
  nextCheck := 0
  nextUid := 1
  nextAgent := 1
  nextMsg := 0
  nextXch := 0
  nextPkt := 0
  queues := []
  msix := []
  flight := []
  packets := []
  exchanges := []
  filters := []
  tracks := []
  saved := []
  flash := []
  recovery := false
  powered := false
  attReqs := []
  nextAtt := 0
  results := []
  smbus := []
  peerOut := []
  pkgLimit := Config.pkgLimMax
  stgBase := 0
  stgSize := 0
  svBase := 0
  svSize := 0
  pwBase := 0
  pwSize := 0
  qcbBase := 0
  scanPri := 2
  scanThr := 2
  leaseHolder := 0
  leaseHeld := false
  leaseCnt := 0
  leaseEpoch := 0
  faultRec := []
  faultSeq := 0
  faultLost := 0

/-! ## The canonical form of memory -/

/-- A sparse memory in canonical form: addresses strictly rising, and no entry equal to what an unlisted address reads as, 0 (log 3). -/
def Memory.wf (m : List Host.Cell) : Bool := awf m && m.all fun c => c.2 != 0

/-! ## Ways to stop -/

/-- Ways in which `exec` stops without a next state. -/
inductive Fault where
  /-- Raised by every instruction meaning when `focus` names no gang; `step` never calls `exec` so. Safe. -/
  | noGang
  deriving DecidableEq, Repr

/-- Reasons for which a meaning is refused. -/
inductive Refusal where
  /-- Raised by an arm of `exec` whose instruction has no meaning yet. Safe. -/
  | notModelled (mnemonic : String)
  deriving DecidableEq, Repr

end Sys2Proof.Machine
end

