-- ==== Sys2Proof/Machine/Access.lean ====
section
/-!
DEFINITION. Reading and updating the parts of the state by their keys, and physical memory in its canonical form.
-/
namespace Sys2Proof.Machine

/-- Die of a core key. -/
def dieOf (k : Nat) : Nat := k / 256
/-- Die-local number of a core key: 0 to 127, or 128 for the firmware core. -/
def localOf (k : Nat) : Nat := k % 256
/-- A firmware core (R10). -/
def isFw (k : Nat) : Bool := localOf k = 128
/-- Logical row and column (R11); of no use for a firmware core. -/
def coreRow (k : Nat) : Nat := if isFw k then 0 else dieOf k / 2 * 8 + localOf k / 16
def coreCol (k : Nat) : Nat := if isFw k then 0 else dieOf k % 2 * 16 + localOf k % 16
/-- The core at a logical coordinate (R11). -/
def coreAt (row col : Nat) : Nat := (row / 8 * 2 + col / 16) * 256 + row % 8 * 16 + col % 16
/-- Position of a core in its cluster (R138). -/
def posOf (k : Nat) : Nat := 2 * (coreRow k % 2) + coreCol k % 2
/-- The core at position `p` of the cluster of core `k`. -/
def corePeer (k p : Nat) : Nat := coreAt (coreRow k / 2 * 2 + p / 2) (coreCol k / 2 * 2 + p % 2)
/-- The core at position `p` of package cluster (i, j) (R12). -/
def clusterCore (i j p : Nat) : Nat := coreAt (2 * i + p / 2) (2 * j + p % 2)
/-- Die and die-local index of package cluster (i, j) (R12). -/
def clusterDie (i j : Nat) : Nat := i / 4 * 2 + j / 8
def clusterIdx (i j : Nat) : Nat := i % 4 * 8 + j % 8

def State.core (s : State) (k : Nat) : Core := (alook k s.cores).getD {}
def State.setCore (s : State) (k : Nat) (c : Core) : State := { s with cores := aput k c s.cores }
def State.modCore (s : State) (k : Nat) (f : Core → Core) : State := s.setCore k (f (s.core k))

def State.die (s : State) (d : Nat) : Die := s.dies.getD d .fresh
def State.setDie (s : State) (d : Nat) (x : Die) : State := { s with dies := s.dies.set d x }
def State.modDie (s : State) (d : Nat) (f : Die → Die) : State := s.setDie d (f (s.die d))

def State.launch (s : State) (u : Nat) : Option Launch := alook u s.launches
def State.setLaunch (s : State) (u : Nat) (l : Launch) : State := { s with launches := aput u l s.launches }
def State.modLaunch (s : State) (u : Nat) (f : Launch → Launch) : State :=
  match s.launch u with
  | some l => s.setLaunch u (f l)
  | none => s

def Core.modWarp (c : Core) (w : Nat) (f : Warp → Warp) : Core :=
  match alook w c.warps with
  | some x => { c with warps := aput w (f x) c.warps }
  | none => c
def Core.modTeam (c : Core) (t : Nat) (f : Team → Team) : Core :=
  match alook t c.teams with
  | some x => { c with teams := aput t (f x) c.teams }
  | none => c
def Core.modTask (c : Core) (t : Nat) (f : Task → Task) : Core :=
  match alook t c.tasks with
  | some x => { c with tasks := aput t (f x) c.tasks }
  | none => c

/-- The gang of a warp with an id. -/
def Warp.gang? (w : Warp) (g : Nat) : Option Gang := w.gangs.find? fun x => x.id = g
def Warp.modGang (w : Warp) (g : Nat) (f : Gang → Gang) : Warp :=
  { w with gangs := w.gangs.map fun x => if x.id = g then f x else x }

def State.warp? (s : State) (k w : Nat) : Option Warp := alook w (s.core k).warps
def State.modWarp (s : State) (k w : Nat) (f : Warp → Warp) : State := s.modCore k fun c => c.modWarp w f
def State.modGang (s : State) (k w g : Nat) (f : Gang → Gang) : State := s.modWarp k w fun x => x.modGang g f
def State.modTeam (s : State) (k t : Nat) (f : Team → Team) : State := s.modCore k fun c => c.modTeam t f

/-- CYCLE of a core (R195): its die's cycle and the core's offset. -/
def State.cycleOf (s : State) (k : Nat) : Nat := (s.die (dieOf k)).cycle + (s.core k).cycOff

/-- The image a launch runs (R346, R350). -/
def State.image (s : State) (ctx : Nat) (kernel : DWord) : Option Image := s.images.find? fun i => i.ctx = ctx ∧ i.addr = kernel
def State.imageOf (s : State) (l : Launch) : Option Image := s.image l.ctx l.kernel

/-- Number of the loader's copy for an origin (R45). -/
def originNo (l : Launch) : Nat := l.ocr * 16 + l.occ
/-- An address of the origin-0 copy in the copy of the launch's origin. -/
def atOrigin (img : Image) (l : Launch) (a : DWord) : DWord := a + BitVec.ofNat 64 (img.stride * originNo l)
/-- An address is an entry of a role in the launch's copy (R46). -/
def isEntry (img : Image) (l : Launch) (r : Role) (h : DWord) : Bool := img.entries.any fun e => e.2 = r ∧ atOrigin img l e.1 = h
/-- The first entry of a role. -/
def entryOf (img : Image) (l : Launch) (r : Role) : DWord :=
  match img.entries.find? fun e => e.2 = r with
  | some e => atOrigin img l e.1
  | none => 0

def Launch.width (img : Image) : Nat := if img.prot then Config.protectedWidth else Config.warpWidth

/-! ## Physical memory (R102, R4) -/

def memByte (m : List Host.Cell) (a : Nat) : Byte := (alook a m).getD 0
def memPut (m : List Host.Cell) (a : Nat) (b : Byte) : List Host.Cell := if b = 0 then adel a m else aput a b m
def memRead (m : List Host.Cell) (a n : Nat) : List Byte := (List.range n).map fun i => memByte m (a + i)
def memWrite (m : List Host.Cell) (a : Nat) : List Byte → List Host.Cell
  | [] => m
  | b :: bs => memWrite (memPut m a b) (a + 1) bs
/-- A little-endian number of `n` bytes. -/
def memNat (m : List Host.Cell) (a n : Nat) : Nat := leNat (memRead m a n)

/-- Replace bytes of a list from an index. -/
def splice (xs : List Byte) (at' : Nat) (ys : List Byte) : List Byte := xs.take at' ++ ys ++ xs.drop (at' + ys.length)

/-- A full buffer of arrived messages at a core (R136). -/
def State.inboxFull (s : State) (k : Nat) : Bool := decide (32 ≤ ((s.core k).placing.filter (·.msg)).length)

/-! ## The fault record (R418, R442) -/

/-- Append an entry, or count it lost when 65,536 are held. -/
def State.record (s : State) (cls : Nat) (ck : Bool) (die core ctx detail : Option Nat) (tag : DWord) : State :=
  if 65536 ≤ s.faultRec.length then { s with faultLost := s.faultLost + 1 }
  else { s with
    faultRec := s.faultRec ++ [{ seq := s.faultSeq, cls := cls, ck := ck, die := die, core := core, ctx := ctx, detail := detail, tag := tag }],
    faultSeq := s.faultSeq + 1 }

/-- Log, and from action 2 on set the class's bit on the firmware core of the die, of every die where the entry names none (R412; log 41). -/
def State.logError (s : State) (sev cls : Nat) (ck : Bool) (die core ctx detail : Option Nat) (tag : DWord) : State :=
  if sev = 0 then s else
  let s := s.record cls ck die core ctx detail tag
  let set (d : Die) : Die := { d with intPend := d.intPend ||| 2 ^ cls }
  if sev < 2 then s else match die with
    | some d => s.modDie d set
    | none => { s with dies := s.dies.map set }

/-! ## Versions (R117 to R123) -/

def State.version (s : State) (ctx region num : Nat) : Option Version :=
  s.versions.find? fun v => v.ctx = ctx ∧ v.region = region ∧ v.num = num
def State.modVersion (s : State) (ctx region num : Nat) (f : Version → Version) : State :=
  { s with versions := s.versions.map fun v => if v.ctx = ctx ∧ v.region = region ∧ v.num = num then f v else v }

/-- A launch that still runs or is checked is bound to the version, or will be in its re-run (R318). -/
def boundTo (s : State) (v : Version) : Bool := s.launches.any fun p =>
  p.2.phase ≠ .ended ∧ p.2.phase ≠ .settled ∧ p.2.ctx = v.ctx ∧
  (if p.2.phase = .waiting then (p.2.prevBinds.getD []).contains (v.region, some v.num) else p.2.binds.contains (v.region, some v.num))

/-- Return the frames of finished versions to which no launch is bound (R117). -/
def State.returnFrames (s : State) : State :=
  { s with versions := s.versions.map fun v =>
      if (v.state = .failed ∨ v.state = .discarded ∨ v.state = .retired) ∧ ¬ boundTo s v then { v with frames := [] } else v }

/-- Frames held by versions (R122). -/
def State.heldFrames (s : State) : List Nat := s.versions.flatMap fun v => v.frames

/-- Free frames of the pool, ascending. -/
def State.freeFrames (s : State) : Nat := s.stgSize - s.heldFrames.length

/-- The `n` lowest free frame numbers, by fuel over the pool. -/
def pickFrames (held : List Nat) : Nat → Nat → Nat → List Nat
  | 0, _, _ => []
  | _, _, 0 => []
  | f + 1, at', n + 1 => if held.contains at' then pickFrames held f (at' + 1) (n + 1) else at' :: pickFrames held f (at' + 1) n

/-- Newest version of a region in one of some states. -/
def State.newest (s : State) (ctx region : Nat) (p : VState → Bool) : Option Version :=
  (s.versions.filter fun v => v.ctx = ctx ∧ v.region = region ∧ v.num < 65536 ∧ p v.state).getLast?

/-! ## Writes to memory -/

/-- Bytes applied at their home slices, each sector's coherence order longer by the write (R172). -/
def State.memApply (s : State) (pa : Nat) (bs : List Byte) : State :=
  { s with
    hbm := memWrite s.hbm pa bs
    coh := (List.range (ceilDiv (pa % 32 + bs.length) 32)).foldl (fun c i => aput (pa / 32 + i) ((alook (pa / 32 + i) c).getD [] ++ [(pa, bs)]) c) s.coh }

/-! ## Places in scratchpad, and barrier objects -/

/-- OFF, WIN and POS of a scratchpad address, and whether its reserved bits are zero (R138). -/
structure ScrAddr where
  win : Bool
  pos : Nat
  off : Nat
  bad : Bool
  deriving DecidableEq, Repr

def scrAddr (a : Nat) : ScrAddr :=
  { win := a.testBit 23, pos := a / 2 ^ 21 % 4, off := a % 2 ^ 20
    bad := a / 2 ^ 24 ≠ 0 || a.testBit 20 || (!a.testBit 23 && decide (a / 2 ^ 21 % 4 ≠ 0)) }

/-- The team at window position `p` of a team's quad, when resident (R140): core and team. A team is resident until its allocation is freed (R155). -/
def State.partner (s : State) (k : Nat) (t : Team) (p : Nat) : Option (Nat × Team) :=
  if t.kind ≠ .grid then none
  else
    let k' := corePeer k p
    match (s.core k').teams.find? fun x => x.2.uid = t.uid ∧ x.2.kind = .grid ∧ x.2.seg = t.seg ∧ x.2.teamIdx = t.teamIdx / 4 * 4 + p with
    | some x => some (k', x.2)
    | none => none

/-- Where `n` bytes at a scratchpad address lie, OFF given as an exact integer: the place, or the memory trap's reason (R138 to R140). -/
def State.scrPlace (s : State) (k : Nat) (t : Team) (a : ScrAddr) (off : Int) (n : Nat) : Except Nat Place :=
  let inside (k' : Nat) (x : Team) : Except Nat Place :=
    if 0 ≤ off ∧ off + n ≤ x.scrSize then .ok (.scr k' (x.scrBase + off.toNat)) else .error 7
  if a.bad then .error 7
  else if !a.win then inside k t
  else match s.partner k t a.pos with
    | none => .error 8
    | some (k', x) => inside k' x

/-- Core and offset of the granule an object reference names (R144): none when the address does not reach an allocation. -/
def State.refPlace (s : State) (k : Nat) (t : Team) (ref : Word) : Option (Nat × Nat) :=
  let a := scrAddr (ref.toNat / 16 * 16)
  match s.scrPlace k t a a.off 16 with
  | .ok (.scr k' off) => some (k', off)
  | _ => none

/-- The object at a place. -/
def State.obj? (s : State) (p : Nat × Nat) : Option BObj := alook p.2 (s.core p.1).objs

/-- An object as a discarded token leaves it (R162). -/
def State.resetObj (s : State) (p : Nat × Nat) : State := s.modCore p.1 fun (c : Core) => match alook p.2 c.objs with
  | some o => { c with objs := aput p.2 { o with arrv := o.init, pendb := 0, pend := [] } c.objs }
  | none => c

end Sys2Proof.Machine
end

