-- ==== Sys2Proof/Machine/Fabric.lean ====
section
/-!
DEFINITION. The fabric of a die and between dies (R124 to R130): endpoints, how high a packet climbs and by which outputs, the packets of an
exchange, tags, and what is lost with a die.
-/
namespace Sys2Proof.Machine

/-! ## Endpoints and paths (R124, R125) -/

/-- Physical cluster of a core (R16). -/
def State.physCluster (s : State) (k : Nat) : Nat := ((s.die (dieOf k)).clmap.getD (clusterIdx (coreRow k / 2) (coreCol k / 2)) (false, 0)).2

/-- Where a core's packets start and its responses arrive. -/
def State.endpoint (s : State) (k : Nat) : Endpoint := { die := dieOf k, leaf := if isFw k then .firmware else .cluster (s.physCluster k) }

/-- The memory slice of a physical address: on its die, one of 16 (R102, R124; log 23). -/
def sliceAt (pa : Nat) : Endpoint := { die := pa / Config.dieRegion, leaf := .slice (Config.sliceOf pa).toNat }

/-- A leaf's edge switch (R124; log 23). -/
def Endpoint.edge (e : Endpoint) : Nat :=
  match e.leaf with
  | .cluster n => (Config.edgeOf e.die 0 n).toNat
  | .slice n => (Config.edgeOf e.die 1 n).toNat
  | .weight n => (Config.edgeOf e.die 2 n).toNat
  | .checker => (Config.edgeOf e.die 3 0).toNat
  | .firmware => (Config.edgeOf e.die 4 0).toNat

/-- How high a packet climbs (R124). -/
inductive Level where
  | edge | middle | crown
  deriving DecidableEq, Repr

/-- It climbs only as high as its source and its destination require (R124). -/
def climb (a b : Endpoint) : Level := if a.die ≠ b.die then .crown else if a.edge = b.edge then .edge else .middle

/-- The upward output with the most free credits, the lowest-numbered of equals (R125). -/
def bestOutput (credits : List Nat) : Nat := (credits.findIdx? fun c => decide (c = credits.foldl max 0)).getD 0

/-- The upward outputs a packet takes: one of the 8 middle switches, then one of the 4 crown switches (R124, R125). -/
def upward (time : Nat) (a b : Endpoint) : List Nat :=
  let mid := bestOutput ((List.range 8).map (Config.credits time a.die a.edge))
  match climb a b with
  | .edge => []
  | .middle => [mid]
  | .crown => [mid, bestOutput ((List.range 4).map (Config.credits time a.die (16 + mid)))]

/-! ## Packets (R126) -/

/-- A header whose fields make it corrupt. -/
def Packet.corrupt (p : Packet) : Bool :=
  decide (9 ≤ p.copy) || decide (5 ≤ p.pfl) || decide (p.rest ≠ 0) || (match p.kind with | .other _ => true | _ => false)

/-- Die of the memory slice of an exchange. -/
def Exchange.home (x : Exchange) : Nat := x.pa / Config.dieRegion

/-- KIND of a request. -/
def Cargo.kind : Cargo → PKind
  | .ob e => (match e.kind with | .red .. => .reduction | _ => .store)
  | .atom .. => .atomic
  | .task .. => .engineWrite

/-- Bytes a request carries, and the virtual address in its header. -/
def Cargo.data : Cargo → List Byte
  | .ob e => e.data
  | .atom _ _ a => a.data
  | .task _ e => e.data
def Cargo.va : Cargo → Nat
  | .ob e => e.va
  | .atom _ _ a => a.va
  | .task _ e => e.va

/-- A packet of an exchange, between its source and its slice. -/
def State.packetOf (s : State) (n : Nat) (x : Exchange) (kind : PKind) (copy : Nat) (back : Bool) (data : List Byte) : Packet :=
  let here := s.endpoint x.core
  let there := sliceAt x.pa
  let a := if back then there else here
  let b := if back then here else there
  { kind := kind, xch := n, copy := copy, src := a, dst := b, tag := x.tag, ctx := x.ctx, addr := x.cargo.va % 2 ^ 57, pfl := ceilDiv data.length 64
    data := data, up := upward s.nextPkt a b }

/-- A packet enters the fabric. -/
def State.addPacket (s : State) (p : Packet) : State := { s with packets := aput s.nextPkt p s.packets, nextPkt := s.nextPkt + 1 }

/-- A copy of a request. -/
def State.request (s : State) (n : Nat) (x : Exchange) (copy : Nat) : State := s.addPacket (s.packetOf n x x.cargo.kind copy false x.cargo.data)
/-- A response with what the request returns. -/
def State.respond (s : State) (n : Nat) (x : Exchange) (value : List Byte) : State := s.addPacket (s.packetOf n x .response 0 true value)
/-- An acknowledgement; its COPY is the highest copy number sent. -/
def State.acknowledge (s : State) (n : Nat) (x : Exchange) : State := s.addPacket (s.packetOf n x .ack x.copies false [])

/-! ## Exchanges (R129) -/

/-- The lowest tag that no open exchange of the source uses, none while all are in use. -/
def State.freeTag (s : State) (k : Nat) : Option Nat :=
  let used := (s.exchanges.filter fun x => s.endpoint x.2.core = s.endpoint k).map (·.2.tag)
  ((List.range (used.length + 1)).find? fun t => !used.contains t).bind fun t => if t < 65536 then some t else none

/-- A source opens an exchange and sends the request for the first time; none while it has no tag. -/
def State.openXch (s : State) (k uid ctx pa : Nat) (c : Cargo) : Option State :=
  (s.freeTag k).map fun t =>
    let num := (s.core k).seq
    let x : Exchange := { core := k, tag := t, ctx := ctx, uid := uid, cargo := c, pa := pa, num := num, last := s.cycleOf k }
    let s1 : State := { s with exchanges := aput s.nextXch x s.exchanges, nextXch := s.nextXch + 1 }
    (s1.request s.nextXch x 0).modCore k fun (c : Core) => { c with seq := c.seq + 1 }

/-- Exchanges whose source is lost go once every packet of theirs has been delivered and dropped, with their filter entries (R130). -/
def State.sweepLost (s : State) : State :=
  let gone := (s.exchanges.filter fun x => x.2.lost && !(s.packets.any fun p => p.2.xch = x.1)).map (·.1)
  { s with exchanges := s.exchanges.filter fun x => ¬ gone.contains x.1, filters := s.filters.filter fun f => ¬ gone.contains f.1 }

/-- The exchanges of some sources are lost (R129, R130). -/
def State.loseXch (s : State) (p : Exchange → Bool) : State :=
  ({ s with exchanges := s.exchanges.map fun x => if p x.2 then (x.1, { x.2 with lost := true }) else x } : State).sweepLost

/-- A filter entry is freed once the acknowledgement and every copy it counts have arrived; the exchange is closed. -/
def State.closeFilter (s : State) (x : Nat) : State :=
  match alook x s.filters with
  | none => s
  | some f => match f.ack with
    | none => s
    | some n => if (List.range (n + 1)).all fun i => f.copies.contains i then { s with filters := adel x s.filters, exchanges := adel x s.exchanges } else s

/-- Entries of a slice's replay filter (R130). -/
def State.filterHeld (s : State) (pa : Nat) : Nat :=
  (s.filters.filter fun q => match alook q.1 s.exchanges with | some y => decide (sliceAt y.pa = sliceAt pa) | none => false).length

end Sys2Proof.Machine
end

