-- ==== Sys2Proof/Machine/Launches.lean ====
section
/-!
DEFINITION. What ends or moves whole launches: the spawn-tree counter, killing teams and contexts (R415), squashing (R121), placing a
rectangle (R350, R448), error classes (R412, R413) and the reset of a die (R128).
-/
namespace Sys2Proof.Machine

/-! ## The spawn-tree counter (R358) -/

def State.raiseCounter (s : State) (u n : Nat) : State := s.modLaunch u fun l => { l with counter := l.counter + n }
def State.lowerCounter (s : State) (u n : Nat) : State := s.modLaunch u fun l => { l with counter := l.counter - n }

/-! ## Rectangles -/

/-- Clusters of a rectangle, row by row from the origin. -/
def rectClusters (ocr occ ch cw : Nat) : List (Nat × Nat) := (List.range ch).flatMap fun i => (List.range cw).map fun j => (ocr + i, occ + j)

/-- Cluster (i, j) is served by a physical cluster (R15). -/
def State.present (s : State) (i j : Nat) : Bool := ((s.die (clusterDie i j)).clmap.getD (clusterIdx i j) (false, 0)).1

/-- Dies a rectangle covers. -/
def rectDies (ocr occ ch cw : Nat) : List Nat := ((rectClusters ocr occ ch cw).map fun c => clusterDie c.1 c.2).eraseDups

/-- The first rectangle of the shape with all clusters present, in a list of origins, that a test admits. -/
def State.firstRect (s : State) (ch cw : Nat) (ok : Nat × Nat → Bool) (origins : List (Nat × Nat)) : Option (Nat × Nat) :=
  origins.find? fun o => ok o ∧ o.1 + ch ≤ 8 ∧ o.2 + cw ≤ 16 ∧ (rectClusters o.1 o.2 ch cw).all fun c => s.present c.1 c.2

/-- All origins, by row and then column. -/
def allOrigins : List (Nat × Nat) := (List.range 8).flatMap fun i => (List.range 16).map fun j => (i, j)

/-- Re-placement on the same dies (R350): lowest origin row, then column. -/
def State.replace (s : State) (ocr occ ch cw : Nat) : Option (Nat × Nat) :=
  if (rectClusters ocr occ ch cw).all fun c => s.present c.1 c.2 then some (ocr, occ)
  else s.firstRect ch cw (fun o => rectDies o.1 o.2 ch cw = rectDies ocr occ ch cw) allOrigins

/-- A rectangle away from the charged dies, in the order of R448 from die `d`. -/
def State.placeAway (s : State) (ocr occ ch cw d : Nat) (charged : List Nat) : Option (Nat × Nat) :=
  s.firstRect ch cw (fun o => (rectDies o.1 o.2 ch cw).all fun x => ¬ charged.contains x)
    ([d ^^^ 2, d ^^^ 1, d ^^^ 3].flatMap fun e =>
      let r0 := e / 2 * 4
      let c0 := e % 2 * 8
      (r0 + ocr % 4, c0 + occ % 8) :: (List.range 4).flatMap fun i => (List.range 8).map fun j => (r0 + i, c0 + j))

/-! ## Taking teams off their cores -/

/-- Everything a team holds on its core goes with it: warps, store queues, tasks, strips, tokens, reservations, partial sums,
scratchpad, barriers and slots (R415). -/
def State.removeTeam (s : State) (k t : Nat) : State :=
  let c := s.core k
  match alook t c.teams with
  | none => s
  | some tm =>
    let gone (w : Nat) : Bool := match alook w c.warps with | some x => decide (x.team = t) | none => false
    let s := s.setCore k { c with
      teams := adel t c.teams
      warps := c.warps.filter fun p => p.2.team ≠ t
      order := c.order.filter fun p => ¬ gone p.1
      tasks := c.tasks.filter fun p => p.2.slot ≠ t
      strips := c.strips.filter fun p => p.2 ≠ t
      objs := c.objs.filter fun p => p.1 < tm.scrBase ∨ tm.scrBase + tm.scrSize ≤ p.1
      halted := c.halted || isFw k }
    s.modDie (dieOf k) fun d => { d with
      fq := d.fq.filter fun p => ¬ (p.2.core = k ∧ gone p.2.warp)
      sqWait := d.sqWait.filter fun x => ¬ (x.core = k ∧ gone x.warp) }

/-- Tokens that were never resolved are discarded with their team (R162, R309): the objects that their held signals and their tasks name
are reset. -/
def State.dropTokens (s : State) (k t : Nat) : State :=
  match alook t (s.core k).teams with
  | none => s
  | some tm =>
    let tasks := (s.core k).tasks.filter fun p => p.2.slot = t ∧ p.2.token.isSome
    let objs := (tm.tokens.flatMap fun x => x.held.map fun h => (h.core, h.off)) ++
      tasks.filterMap fun p => if p.2.sref.getLsbD 0 then s.refPlace k tm p.2.sref else none
    objs.foldl (fun s p => s.resetObj p) s

/-- A physical address lies in the staging pool (R122). -/
def State.inPool (s : State) (pa : Nat) : Bool := decide (s.stgBase * 65536 ≤ pa ∧ pa < (s.stgBase + s.stgSize) * 65536)

/-- Launches of the tree of a root. -/
def State.tree (s : State) (u : Nat) : List Nat := (s.launches.filter fun p => p.2.root = u).map (·.1)

/-- Some launches with all that descend from them; fuel: generations. -/
def State.subtree (s : State) : Nat → List Nat → List Nat
  | 0, us => us
  | f + 1, us =>
    let kids := (s.launches.filter fun p => !us.contains p.1 && (match p.2.parent with | some q => us.contains q | none => false)).map (·.1)
    match kids with
    | [] => us
    | _ => s.subtree f (us ++ kids)

/-- Teams of some launches: core, slot. -/
def State.teamsOf (s : State) (us : List Nat) : List (Nat × Nat) :=
  s.cores.flatMap fun p => (p.2.teams.filter fun t => match t.2.uid with | some u => us.contains u | none => false).map fun t => (p.1, t.1)

/-- Threads, bins and tiles of some launches leave a core, and what they have in OB for pool frames, the release gate or other cores' buffers
(R119, R121, R188). -/
def Core.purge (c : Core) (us : List Nat) (pool : Nat → Bool) : Core :=
  { c with
    ob := c.ob.filter fun q => !(us.contains q.uid && (match q.place with | .sys _ => true | .mem pa => pool pa | _ => false))
    bins := c.bins.filter fun b => ¬ us.contains b.2.uid
    placing := c.placing.filter fun p => ¬ us.contains p.thread.uid
    formed := c.formed.filter fun f => ¬ (f.threads.any fun t => us.contains t.uid)
    tiles := c.tiles.filter fun t => ¬ us.contains t.2.uid }

/-- Stop launches: their teams without save, their threads and messages in flight, their sequencer runs, checks and gates
(R121, R137, R398, R415). -/
def State.stopWork (s : State) (us : List Nat) : State :=
  let s := (s.teamsOf us).foldl (fun s p => (s.dropTokens p.1 p.2).removeTeam p.1 p.2) s
  { s with
    exchanges := s.exchanges.map fun x => if us.contains x.2.uid && s.inPool x.2.pa then (x.1, { x.2 with void := true }) else x
    cores := s.cores.map fun p => (p.1, p.2.purge us s.inPool)
    flight := s.flight.filter fun m => ¬ us.contains m.thread.uid
    saved := s.saved.filter fun x => ¬ us.contains x.uid
    checks := s.checks.filter fun p => ¬ us.contains p.2.uid
    dies := s.dies.map fun d => { d with
      run := match d.run with | some r => if us.contains r.uid then none else some r | none => none
      recent := match d.run with
        | some r => if us.contains r.uid then d.recent.map fun x => if x.serial = r.serial then { x with status := x.status ||| 0x40000000 } else x
          else d.recent
        | none => d.recent
      agg := d.agg.map fun g => { g with members := g.members.filter fun m => ¬ us.contains m } } }

/-- The race tracker without some accesses. -/
def dropTracks (ts : List (Nat × List Track)) (p : Track → Bool) : List (Nat × List Track) :=
  (ts.map fun x => (x.1, x.2.filter fun t => !p t)).filter fun x => x.2 ≠ []

/-- Drop the whole tree of a root: its children go, the root keeps its record. -/
def State.dropTree (s : State) (u : Nat) : State :=
  let us := s.tree u
  let s := s.stopWork us
  let s := { s with
    launches := s.launches.filter fun p => p.2.root ≠ u ∨ p.1 = u
    tracks := dropTracks s.tracks fun t => us.contains t.uid }
  s.modLaunch u fun l => { l with
    counter := 0, nextSeg := 0, nextQuad := 0, quads := [], reruns := [], gate := [], stream := [], witnesses := [], wrote := [],
    sums := [], steps := [] }

/-- Versions of a launch that are OPEN or PENDING become DISCARDED; their names. -/
def State.discardOuts (s : State) (u : Nat) : State × List (Nat × Nat × Nat) :=
  match s.launch u with
  | none => (s, [])
  | some l =>
    let live := l.outVers.filter fun o => match s.version l.ctx o.1 o.2 with
      | some v => decide (v.state = .opened ∨ v.state = .pending)
      | none => false
    (live.foldl (fun s o => s.modVersion l.ctx o.1 o.2 fun v => { v with state := .discarded }) s, live.map fun o => (l.ctx, o.1, o.2))

/-- The second run goes, with its versions (R317). -/
def State.dropTwin (s : State) (u : Nat) : State :=
  match s.launch u with
  | none => s
  | some l => match l.twin with
    | none => s
    | some t =>
      -- the dies that the second run used stand in the mask of dies used (R322)
      let used := match s.launch t with | some x => x.dies | none => 0
      let s := s.dropTree t
      let s : State := { s with
        launches := adel t s.launches
        versions := s.versions.filter fun v => ¬ (v.ctx = l.ctx ∧ v.num = 65536 + t) }
      s.modLaunch u fun x => { x with twin := none, dies := x.dies ||| used }

/-- Squash every launch bound to one of the versions, then those bound to what they wrote (R121); each is dispatched again once
`producer` has been. Fuel: the number of launches. -/
def squash : Nat → Nat → List (Nat × Nat × Nat) → State → State
  | 0, _, _, s => s
  | fuel + 1, producer, vs, s =>
    match s.launches.find? fun p => p.1 ≠ producer ∧ ¬ p.2.second ∧ p.2.phase ≠ .settled ∧ p.2.phase ≠ .ended ∧
        vs.any fun v => v.1 = p.2.ctx ∧ (if p.2.phase = .waiting then p.2.prevBinds.getD [] else p.2.binds).contains (v.2.1, some v.2.2) with
    | none => s
    | some (u, _) =>
      let (s, more) := ((s.dropTwin u).dropTree u).discardOuts u
      let prun := match s.launch producer with | some p => p.run | none => 1
      let s := s.modLaunch u fun x => { x with phase := .waiting, binds := [], outVers := [], prevBinds := none, after := some (producer, prun) }
      squash fuel producer (vs ++ more) s

/-- Discard the outputs of a launch with their squash set. -/
def State.discardWith (s : State) (u : Nat) : State :=
  let (s, vs) := s.discardOuts u
  (squash s.launches.length u vs s).returnFrames

/-- A launch stops with a completion status (R415, R313): its outputs are discarded with their squash set. The second run of a DUAL
pair stops alone (R317). -/
def State.endLaunch (s : State) (u status : Nat) : State :=
  match s.launch u with
  | none => s
  | some l =>
    let s := ((s.dropTwin u).dropTree u).discardWith u
    if l.second then (s.modLaunch u fun x => { x with phase := .settled, broken := true }).returnFrames
    else (s.modLaunch u fun x => { x with phase := .settled, status := some status }).returnFrames

/-- A team is killed (R415): re-run when its kernel is idempotent and not in bounds mode, at most three times (R416); otherwise its
launch stops with status 7. A killed team of a solver stage ends that stage's grid alone (R395). `counts`: a discard for
pre-emption does not count and is no kill of a stage's team (R420). -/
def State.killTeam (s : State) (k t : Nat) (counts : Bool) : State :=
  match alook t (s.core k).teams with
  | none => s
  | some tm =>
    let live := ((s.core k).warps.filter fun p => p.2.team = t).foldl (fun n p => n + (p.2.lanes.filter (·.live)).length) 0
    -- messages that wait in its store queues never leave (R137)
    let unsent := ((s.core k).warps.filter fun p => p.2.team = t).flatMap fun p => p.2.sq.filterMap fun q => match q.kind with | .msg id => some id | _ => none
    let s := (s.dropTokens k t).removeTeam k t
    let s : State := { s with flight := s.flight.filter fun m => ¬ unsent.contains m.id }
    match tm.uid with
    | none => s
    | some u =>
      match s.launch u with
      | none => s
      | some l =>
        let s := s.lowerCounter u (1 + unsent.length + if tm.kind = .spawned then live else 0)
        match l.stageOf, counts with
        | some d, true =>
          let s := s.modDie d fun x => { x with run := x.run.map fun r => { r with killed := true } }
          let us := s.subtree 64 [u]
          let s := s.stopWork us
          let s := { s with launches := s.launches.filter fun p => ¬ us.contains p.1 }
          (match l.parent with | some p => s.lowerCounter p 1 | none => s)
        | _, _ =>
          let idem : Bool := match s.imageOf l with | some i => i.idem ∧ i.bounds.isNone | none => false
          if idem ∧ (tm.reruns < 3 ∨ ¬ counts) then
            ({ s with tracks := dropTracks s.tracks fun t => t.team = tm.first && t.uid = u } : State).modLaunch u fun x => { x with reruns := x.reruns ++
              [{ team := tm.teamIdx, seg := tm.seg, quad := tm.quad, pos := tm.pos, reruns := tm.reruns + (if counts then 1 else 0),
                 threads := tm.threads, core := k }] }
          else s.endLaunch l.root 7

/-- Every launch of a context stops, idempotent or not (R415); the slices free its entries and drop its copies (R130). -/
def State.killContext (s : State) (ctx : Nat) : State :=
  let us := (s.launches.filter fun p => p.2.ctx = ctx ∧ p.2.root = p.1 ∧ p.2.phase ≠ .ended ∧ p.2.phase ≠ .settled).map (·.1)
  let s := us.foldl (fun s u => s.endLaunch u 7) s
  let s : State := { s with
    filters := s.filters.filter fun p => p.2.ctx ≠ ctx
    dies := s.dies.map fun d => { d with dropCtx := if d.dropCtx.contains ctx then d.dropCtx else d.dropCtx ++ [ctx] } }
  s.loseXch fun x => decide (x.ctx = ctx)

/-- The firmware core of a die starts in supervisor mode at physical address 0 (R434): one warp, its registers as R194 gives them, its ELEM
that of a team warp whose TEAMIDX and WARPID are 0 (R195; log 13). -/
def Core.started (d : Nat) : Core :=
  { ({} : Core) with
    order := [(0, 0)]
    teams := [(0, { kind := .firmware, uid := none, teamIdx := 0, teamW := 1, n := 256 })]
    warps := [(0, {
      team := 0, warpId := 0
      lanes := (List.range 32).map fun i => { live := true, exec := true, elem := { lo := i, hi := i }, elemX := { lo := i, hi := i } }
      slices := List.replicate 8 {}
      gangs := [{ id := 0, agent := d * 256 }] })] }

/-- A compute die is reset (R128, R116): its registers, cores and weight store; CK keeps the cluster map. DESIGN CHOICE (log 94):
threads in bins, formed warps and messages there of a launch that has no team there are lost, and that launch's counter is not lowered. -/
def State.resetDie (s : State) (d : Nat) (firmwareRuns : Bool) : State :=
  let hit := (s.launches.filter fun p => p.2.root = p.1 ∧ (p.2.phase = .running ∨ p.2.phase = .flushing ∨ p.2.phase = .checking) ∧
    (((s.teamsOf (s.tree p.1)).any fun t => dieOf t.1 = d) || (match (s.die d).run with | some r => (s.tree p.1).contains r.uid | none => false))).map (·.1)
  let s := hit.foldl (fun s u =>
    let s := (s.dropTree u).discardWith u
    s.modLaunch u fun l =>
      let o := (s.placeAway l.ocr l.occ l.ch l.cw d [d]).getD (l.ocr, l.occ)
      { l with phase := .waiting, binds := [], outVers := [], ocr := o.1, occ := o.2, fixed := if o = (l.ocr, l.occ) then l.fixed else [], prevBinds := if l.second then l.prevBinds else none }) s
  let old := s.die d
  let fresh : Die := { Die.fresh with
    clmap := old.clmap, spares := old.spares, retiring := old.retiring, wsGen := old.wsGen + 1
    wsDigest := Config.sm3Image Config.weightBytes [] }
  let s := s.setDie d fresh
  let keep (k : Nat) (c : Core) : Core := { ({} : Core) with temp := c.temp, thr := decide (Config.thotFuse ≤ c.temp), charges := c.charges, marked := c.marked, inReset := isFw k }
  -- what the die had sent is dropped as it arrives (R130)
  ({ s with
    cores := s.cores.map fun p => if dieOf p.1 ≠ d then p
      else if isFw p.1 ∧ firmwareRuns then (p.1, { Core.started d with temp := p.2.temp, thr := decide (Config.thotFuse ≤ p.2.temp) }) else (p.1, keep p.1 p.2) } : State).loseXch fun x => decide (dieOf x.core = d)

/-- Kill scope of a class (R413): 1 team, 2 context. -/
def killScope (cls : Nat) : Nat :=
  if [2, 4, 5, 14, 15, 16].contains cls then 1 else if [7, 8, 10, 18, 19].contains cls then 2 else 0

/-- What an error of a severity does beyond its record (R412, R413): kill its scope, reset the detecting die. -/
def State.escalate (s : State) (sev cls die k slot ctx : Nat) : State :=
  let s := if sev < 3 then s else match killScope cls with
    | 1 => s.killTeam k slot true
    | 2 => s.killContext ctx
    | _ => s
  if sev < 4 then s else s.resetDie die (s.powered && !s.recovery)

/-- An error meets the severity matrix (R412, R413): log, interrupt, kill its scope, reset the detecting die. -/
def State.raiseError (s : State) (e : ErrorReport) : State :=
  let sev := if e.onCK then sevReset.getD e.cls 0 else (s.die e.die).sev.getD e.cls 0
  let s := s.logError sev e.cls e.onCK (some e.die) (some e.core) (some e.ctx) (e.detail.map BitVec.toNat) e.tag
  s.escalate sev e.cls e.die (e.die * 256 + e.core) e.slot e.ctx

/-- An error that a die detects and attributes to no team and no context. -/
def State.dieError (s : State) (cls die core : Nat) : State :=
  let sev := (s.die die).sev.getD cls 0
  (s.logError sev cls false (some die) (some core) none none 0).escalate sev cls die 0 0 0

/-- A firmware-bound violation of a die's firmware (R20, class 21). -/
def State.violation (s : State) (die : Nat) : State := s.dieError 21 die 128

/-- Context and tag of a team, for a fault-record entry. -/
def State.teamTag (s : State) (k t : Nat) : Nat × DWord :=
  match alook t (s.core k).teams with
  | some tm => match tm.uid.bind s.launch with
    | some l => (l.ctx, l.tag)
    | none => ((s.die (dieOf k)).fwMode / 65536 % 4096, 0)
  | none => (0, 0)

/-- An error of a class whose scope is a team. -/
def State.teamError (s : State) (cls k t : Nat) : State :=
  let (ctx, tag) := s.teamTag k t
  s.raiseError { cls := cls, die := dieOf k, onCK := false, core := localOf k, slot := t, ctx := ctx, tag := tag, detail := none }

end Sys2Proof.Machine
end

