-- ==== Sys2Proof/Machine/Translate.lean ====
section
/-!
DEFINITION. Addresses and translation (R101 to R107, R119, R431, R434): the five-level walk, the permissions, staged pages resolved
through a launch's bindings, and the fault queue (R110 to R112).
-/
namespace Sys2Proof.Machine

/-- Bits 63:57 all equal bit 56 (R101). -/
def canonical (a : Nat) : Bool := bitsOf a 63 56 = 0 ∨ bitsOf a 63 56 = 255
/-- Bits 63:52 all ones (R431). -/
def sysAddr (a : Nat) : Bool := bitsOf a 63 52 = 4095
/-- Port code of a system address (R431). -/
def sysPort (a : Nat) : Nat := bitsOf a 51 47
/-- A 57-bit address extended from bit 56. -/
def ext57 (a : Nat) : Nat := if a % 2 ^ 57 < 2 ^ 56 then a % 2 ^ 57 else a % 2 ^ 57 + (2 ^ 64 - 2 ^ 57)

/-- Who accesses, for permissions and bindings: the die, the context, whether a firmware core, its launch, and the KIND of R111. -/
structure Party where
  die : Nat
  ctx : Nat
  fw : Bool
  uid : Option Nat
  deriving DecidableEq, Repr

/-- Entries in the group of a leaf, as a power of two, by level and SIZE (R104); none where the table has a dash. -/
def groupLog (level size : Nat) : Option Nat :=
  if level = 0 then (if size ≤ 4 then some (2 * size) else none)
  else if level = 1 then (if size = 0 then some 0 else if size = 1 then some 3 else if size = 2 then some 5 else if size = 3 then some 8 else none)
  else if size = 0 then some 0 else none

/-- The leaf that the first entry of a group defines (R103, R104): cause 3 when it breaks the format. DESIGN CHOICE (log 92):
a large page whose frame lies below the end of memory and whose end lies past it breaks it too. -/
def leafOf (ctx level va size : Nat) (e : Nat) : Except Nat TlbEnt :=
  let glog := (groupLog level size).getD 0
  let plog := 12 + 9 * level + glog
  let stg := e.testBit 6
  let bad : Bool := bitsOf e 63 56 ≠ 0 ∨ e.testBit 11 ∨ (stg ∧ (level ≠ 0 ∨ size ≠ 2)) ∨ (¬ stg ∧ bitsOf e 55 40 ≠ 0)
    ∨ (stg ∧ bitsOf e 39 28 ≠ 0) ∨ (¬ stg ∧ (bitsOf e 39 12 * 4096 % 2 ^ plog ≠ 0 ∨ Config.hbmBytes < bitsOf e 39 12 * 4096 + 2 ^ plog))
  if bad then .error 3 else
  .ok { ctx := ctx, base := va / 2 ^ plog * 2 ^ plog, size := 2 ^ plog, frame := if stg then bitsOf e 27 12 else bitsOf e 39 12 * 4096, stg := stg,
        fidx := bitsOf e 55 40, g := e.testBit 7, rt := e.testBit 5, s := e.testBit 4, x := e.testBit 3, wr := e.testBit 2 }

/-- The walk from a table at `level` (R103, R104); `fuel` is the level plus one. -/
def walkFrom (m : List Host.Cell) (ctx va : Nat) : Nat → Nat → Except Nat TlbEnt
  | 0, _ => .error 3
  | level + 1, table =>
    let idx := va / 2 ^ (12 + 9 * level) % 512
    let e := memNat m (table + 8 * idx) 8
    if ¬ e.testBit 0 then .error 1
    else if e.testBit 1 then
      if 3 ≤ level then .error 3
      else match groupLog level (bitsOf e 10 8) with
        | none => .error 3
        | some g =>
          let f := memNat m (table + 8 * (idx / 2 ^ g * 2 ^ g)) 8
          if ¬ f.testBit 0 ∨ ¬ f.testBit 1 ∨ bitsOf f 10 8 ≠ bitsOf e 10 8 then .error 3 else leafOf ctx level va (bitsOf e 10 8) f
    else if level = 0 ∨ bitsOf e 63 56 ≠ 0 ∨ e.testBit 11 ∨ bitsOf e 55 40 ≠ 0 ∨ bitsOf e 10 8 ≠ 0 ∨ e.testBit 6
        ∨ Config.hbmBytes ≤ bitsOf e 39 12 * 4096 then .error 3
    else walkFrom m ctx va level (bitsOf e 39 12 * 4096)

/-- The walk of a context through its table entry (R105). DESIGN CHOICE (log 92): a level-4 table past the end of memory reads as zero, so the
walk answers NOTMAPPED. -/
def walk (s : State) (die ctx va : Nat) : Except Nat TlbEnt :=
  let e := memNat s.hbm ((s.die die).ctxBase * 4096 + 8 * ctx) 8
  if ¬ e.testBit 0 then .error 1
  else if bitsOf e 63 40 ≠ 0 ∨ bitsOf e 11 1 ≠ 0 then .error 3
  else walkFrom s.hbm ctx (va % 2 ^ 57) 5 (bitsOf e 39 12 * 4096)

/-- A cached translation that covers an address (R107). -/
def tlbFind (d : Die) (ctx va : Nat) : Option TlbEnt :=
  d.tlb.find? fun t => (t.g ∨ t.ctx = ctx) ∧ t.base ≤ va % 2 ^ 57 ∧ va % 2 ^ 57 < t.base + t.size

/-- The root launch, whose bindings its children share (R118). -/
def State.rootOf (s : State) (u : Option Nat) : Option Launch := (u.bind s.launch).bind fun l => s.launch l.root

/-- A resolved memory access: where, on a race-tracked page, into the launch's own OPEN version. -/
structure Hit where
  place : Place
  rt : Bool := false
  own : Bool := false
  deriving DecidableEq, Repr

/-- Permission and binding of a leaf (R106, R118, R119); KIND as in R111. -/
def resolve (s : State) (p : Party) (t : TlbEnt) (va kind : Nat) : Except Nat Hit :=
  let write : Bool := kind = 1 ∨ kind = 2 ∨ kind = 5
  if (t.s ∧ ¬ p.fw) ∨ (kind = 3 ∧ ¬ t.x) ∨ (write ∧ ¬ t.wr) then .error 2
  else if ¬ t.stg then .ok { place := .mem (t.frame + (va % 2 ^ 57 - t.base)), rt := t.rt }
  else match s.rootOf p.uid with
    | none => .error 4
    | some l => match (l.binds.find? fun b => b.1 = t.frame).bind (·.2) with
      | none => .error 4
      | some n => match s.version l.ctx t.frame n with
        | none => .error 4
        | some v =>
          let own : Bool := l.outVers.contains (t.frame, n) ∧ v.state = .opened
          match v.frames[t.fidx]? with
          | none => .error 4
          | some fr => if write ∧ ¬ own then .error 4
            else .ok { place := .mem ((s.stgBase + fr) * 65536 + (va % 2 ^ 57 - t.base)), rt := t.rt, own := own }

/-- What translating an access gives. -/
inductive Xlat where
  | hit (h : Hit)
  /-- No translation is cached: a walk of the page is needed. -/
  | miss
  | fault (cause : Nat)
  deriving DecidableEq, Repr

/-- A firmware core with XLATE 0 (R434). -/
def State.physical (s : State) (p : Party) : Bool := p.fw ∧ (s.die p.die).fwMode % 2 = 0

/-- Translate a canonical address whose traps have been tested. -/
def translate (s : State) (p : Party) (va kind : Nat) : Xlat :=
  if s.physical p then .hit { place := .mem va }
  else if sysAddr va then .hit { place := .sys (va % 2 ^ 52) }
  else match tlbFind (s.die p.die) p.ctx va with
    | none => .miss
    | some t => match resolve s p t va kind with
      | .ok h => .hit h
      | .error c => .fault c

/-- Translation that makes the walk itself, for engines and CK's readers: their walks end within their step. -/
def translateNow (s : State) (p : Party) (va kind : Nat) : Except Nat Hit :=
  match translate s p va kind with
  | .hit h => .ok h
  | .fault c => .error c
  | .miss => (walk s p.die p.ctx va).bind fun t => resolve s p t va kind

/-! ## Walks and the fault queue -/

/-- Page number of an address at the 4 KiB grain (R101). -/
def pageOf (va : Nat) : Nat := va % 2 ^ 57 / 4096

/-- A miss joins the walk of its page, or starts one (R108). -/
def State.addWalk (s : State) (die ctx va : Nat) : State :=
  s.modDie die fun d => if d.walks.contains (ctx, pageOf va) then d else { d with walks := d.walks ++ [(ctx, pageOf va)] }

/-- The queue has no free slot (R112). -/
def fqFull (d : Die) : Bool := 4096 ≤ (d.fqTail + (2 ^ 32 - d.fqHead)) % 2 ^ 32

/-- The 32 bytes of an entry (R111). -/
def fqBytes (x : Susp) (seq : Nat) : List Byte :=
  natLe 32 (x.va + seq % 2 ^ 32 * 2 ^ 64 + x.ctx % 4096 * 2 ^ 96 + x.cause % 16 * 2 ^ 108 + x.kind % 8 * 2 ^ 112
    + (if isFw x.core then Config.fwCoreCode.toNat else localOf x.core) * 2 ^ 115 + x.warp % 64 * 2 ^ 122 + x.mask.toNat * 2 ^ 128)

/-- Place an entry: written at FQBASE, suspended under its SEQ (R110 to R112). -/
def State.placeFault (s : State) (die : Nat) (x : Susp) : State × Nat :=
  let d := s.die die
  let seq := d.fqTail
  let s := s.memApply (d.fqBase * 4096 + 32 * (seq % 4096)) (fqBytes x seq)
  (s.setDie die { d with fqTail := (seq + 1) % 2 ^ 32, fq := aput seq x d.fq }, seq)

/-! ## Speculation (R120) -/

/-- The root launch is bound to a version, outside its own outputs, that is not ATTESTED. -/
def State.speculative (s : State) (u : Option Nat) : Bool :=
  match s.rootOf u with
  | none => false
  | some l => l.binds.any fun b => match b.2 with
    | none => false
    | some n => !l.outVers.contains (b.1, n) && (match s.version l.ctx b.1 n with
      | some v => decide (v.state ≠ .attested ∧ v.state ≠ .retired)
      | none => false)

end Sys2Proof.Machine
end

