-- ==== Sys2Proof/Machine/Ops.lean ====
section
/-!
DEFINITION. The named operations every instruction is built from: the issuing gang's environment, issue time (R326), taking a trap and
returning from one (R405 to R411), retiring an instruction, parting gangs (R330), unwinding a slice (R331) and ending threads (R340).
-/
namespace Sys2Proof.Machine

/-- A trap being raised: class, index, reason, TRAPMASK (R405). -/
structure Trap where
  cls : Nat
  reason : Nat
  mask : Mask
  index : Nat := 0
  deriving DecidableEq, Repr

/-- What an instruction of the focus gang sees: whose gang it is and what governs it. -/
structure Env where
  k : Nat
  slot : Nat
  gid : Nat
  core : Core
  warp : Warp
  gang : Gang
  team : Team
  launch : Option Launch
  img : Option Image
  deriving DecidableEq, Repr

/-- The environment of a gang; none when there is no such gang. -/
def State.envOf (s : State) (k slot gid : Nat) : Option Env :=
  let c := s.core k
  match alook slot c.warps with
  | none => none
  | some w => match w.gang? gid, alook w.team c.teams with
    | some g, some t =>
      let l := t.uid.bind s.launch
      some { k := k, slot := slot, gid := gid, core := c, warp := w, gang := g, team := t, launch := l, img := l.bind s.imageOf }
    | _, _ => none

/-- The environment of the focus gang. -/
def State.env? (s : State) : Option Env := s.envOf s.focus.1 s.focus.2.1 s.focus.2.2

/-- Visible warp width (R18, R425). -/
def Env.w (e : Env) : Nat := match e.img with | some i => if i.prot then Config.protectedWidth else Config.warpWidth | none => Config.warpWidth
def Env.det (e : Env) : Bool := match e.img with | some i => i.det | none => false
def Env.prot (e : Env) : Bool := match e.img with | some i => i.prot | none => false
/-- The gang runs in handler mode (R408). -/
def Env.handling (e : Env) : Bool := match e.warp.handler with | some h => h.1.contains e.gid | none => false
/-- Supervisor mode: a firmware core, or handler mode (R408, R434). -/
def Env.super (e : Env) : Bool := isFw e.k || e.handling
/-- As an accessing party. -/
def Env.party (s : State) (e : Env) : Party :=
  { die := dieOf e.k, fw := isFw e.k, uid := e.team.uid
    ctx := match e.launch with | some l => l.ctx | none => (s.die (dieOf e.k)).fwMode / 65536 % 4096 }

def Warp.lane (w : Warp) (i : Nat) : Lane := w.lanes.getD i {}
def Warp.slice (w : Warp) (i : Nat) : Slice := w.slices.getD i {}
def Warp.modLane (w : Warp) (i : Nat) (f : Lane → Lane) : Warp := { w with lanes := w.lanes.set i (f (w.lane i)) }
def Warp.modSlice (w : Warp) (i : Nat) (f : Slice → Slice) : Warp := { w with slices := w.slices.set i (f (w.slice i)) }
def Warp.modLanes (w : Warp) (is : List Nat) (f : Lane → Lane) : Warp := is.foldl (fun w i => w.modLane i f) w
/-- Lanes of a slice. -/
def laneIds (i : Nat) : List Nat := [4 * i, 4 * i + 1, 4 * i + 2, 4 * i + 3]
/-- A slice has a live thread (R328). -/
def Warp.sliceLive (w : Warp) (i : Nat) : Bool := (laneIds i).any fun l => (w.lane l).live
/-- Slices of a gang, ascending. -/
def Warp.gangSlices (w : Warp) (g : Nat) : List Nat := (List.range 8).filter fun i => (w.slice i).gang = g && w.sliceLive i
/-- Live lanes of a gang's slices, ascending. -/
def Warp.gangLanes (w : Warp) (g : Nat) : List Nat := (w.gangSlices g).flatMap fun i => (laneIds i).filter fun l => (w.lane l).live
/-- Lanes whose EXEC bit is set. -/
def Warp.execLanes (w : Warp) (g : Nat) : List Nat := (w.gangLanes g).filter fun l => (w.lane l).exec
/-- A gang's program counter. -/
def Warp.pcOf (w : Warp) (g : Nat) : DWord := match w.gangSlices g with | i :: _ => (w.slice i).pc | [] => 0

def Env.pc (e : Env) : DWord := e.warp.pcOf e.gid
/-- The threads whose EXEC bit is set, guard aside. -/
def Env.lanes (e : Env) : List Nat := e.warp.execLanes e.gid

/-- Value of a predicate position in a thread; p7 reads true (R56, R100). -/
def Lane.pred (l : Lane) (p : Nat) : PVal := if 7 ≤ p then { v := .t } else l.preds.getD p {}

/-- Value of a guard in a thread: GS inverts (R50). -/
def guardVal (g : Guard) (l : Lane) : PVal :=
  let p := l.pred g.gp.toNat
  { p with v := if g.gs then p.v.not else p.v }

/-- An instruction without a guard. -/
def unguarded (g : Guard) : Bool := !g.gs && g.gp.toNat = 7

/-- Active threads: EXEC set and the guard passes (R7). -/
def Env.active (e : Env) (g : Guard) : List Nat := e.lanes.filter fun i => (guardVal g (e.warp.lane i)).v = .t

/-! ## Time (R326) -/

/-- The die's cycle, and the cycle at which a warp's way is free again. -/
def State.setWay (s : State) (k slot cycle free : Nat) : State :=
  (s.setDie (dieOf k) { s.die (dieOf k) with cycle := cycle }).setCore k { s.core k with wayFree := (s.core k).wayFree.set (slot % 8) free }

/-- The cycle at which a warp's way is free. -/
def State.wayFreeAt (s : State) (k slot : Nat) : Nat := (s.core k).wayFree.getD (slot % 8) 0

/-- The die's cycle moves to the way's free cycle, and the way is taken for the cost: ceil(a / 8) × f, at least 1; a protected launch
pays ceil(2a / 8) × f (R425). -/
def State.occupy (s : State) (k slot a f : Nat) : State :=
  let now := max (s.die (dieOf k)).cycle (s.wayFreeAt k slot)
  s.setWay k slot now (now + max 1 (ceilDiv a 8 * f))

/-- An instruction issues: its way is occupied. One that comes again from its stall has paid. -/
def State.charge (s : State) (k slot a f : Nat) : State :=
  if (s.core k).polling then s.setWay k slot (s.die (dieOf k)).cycle (s.wayFreeAt k slot) else s.occupy k slot a f

/-- Issue cost of a non-uniform instruction. -/
def Env.cost (e : Env) (a : Nat) : Nat := if e.prot then 2 * a else a

/-! ## Clocks of the race tracker (R189, R190) -/

/-- The epochs of two clocks together. -/
def Clock.join (a b : Clock) : Clock :=
  b.foldl (fun c p => aput p.1 (max p.2 ((alook p.1 c).getD 0)) c) a

/-- The epoch an agent is in. -/
def Clock.epoch (c : Clock) (agent : Nat) : Nat := (alook agent c).getD 0

/-- What a gang publishes at an edge, and the gang in its next epoch (R189, R190). -/
def Gang.publish (g : Gang) : Clock × Gang :=
  let n := Clock.epoch g.clock g.agent
  (aput g.agent n g.clock, { g with clock := aput g.agent (n + 1) g.clock })

/-- An edge to the gang from what was published. -/
def Gang.after (g : Gang) (c : Clock) : Gang := { g with clock := Clock.join g.clock c }

/-! ## Parting, unwinding, retiring -/

/-- The stack an instruction works on: the trap stack in handler mode (R408). -/
def Slice.stk (x : Slice) (handling : Bool) : List Entry := if handling then x.tstack else x.stack
def Slice.setStk (x : Slice) (handling : Bool) (st : List Entry) : Slice := if handling then { x with tstack := st } else { x with stack := st }

/-- EXEC bits of a slice as a mask over the warp, restricted to live lanes when set. -/
def Warp.setExec (w : Warp) (i : Nat) (m : Mask) : Warp :=
  (laneIds i).foldl (fun w j => w.modLane j fun l => { l with exec := m.getLsbD j && l.live }) w
def Warp.execMask (w : Warp) (i : Nat) : Mask := maskOf ((laneIds i).filter fun j => (w.lane j).exec)
def Warp.liveMask (w : Warp) : Mask := maskOf ((List.range 32).filter fun j => (w.lane j).live)

/-- The join action on the top split entry (R331): `join` is the JOIN's address when a JOIN performs it, and J stays as it was otherwise;
`next` is the address that follows the instruction at work. -/
def Warp.joinAction (w : Warp) (i : Nat) (handling : Bool) (join : Option DWord) (next : DWord) : Warp :=
  match (w.slice i).stk handling with
  | .split pcd md mall false j :: rest =>
    (w.setExec i md).modSlice i fun x => { x.setStk handling (.split pcd md mall true (join.or j) :: rest) with pc := pcd }
  | .split _ _ mall true j :: rest =>
    (w.setExec i mall).modSlice i fun x => { x.setStk handling rest with pc := match j with | some a => a + 4 | none => next }
  | _ => w

/-- Unwinding of a slice whose running path holds no live thread (R331); fuel: entries twice over. -/
def Warp.unwind (w : Warp) (i : Nat) (handling : Bool) (next : DWord) : Nat → Warp
  | 0 => w
  | fuel + 1 =>
    if (laneIds i).any fun j => (w.lane j).exec && (w.lane j).live then w
    else match (w.slice i).stk handling with
      | [] => w
      | .call _ :: rest => (w.modSlice i fun x => x.setStk handling rest).unwind i handling next fuel
      | .split .. :: _ => (w.joinAction i handling none next).unwind i handling next fuel

/-- Unwind every slice marked `ended`. -/
def Warp.unwindEnded (w : Warp) (g : Nat) (handling : Bool) (next : DWord) : Warp :=
  (List.range 8).foldl (fun w i =>
    if (w.slice i).ended && (w.slice i).gang = g then (w.unwind i handling next 40).modSlice i fun x => { x with ended := false } else w) w

/-- A gang that parts from one in handler mode is in handler mode too (R330, R408). -/
def Warp.partHandler (w : Warp) (g id : Nat) : Option (List Nat × Nat) := w.handler.map fun h => if h.1.contains g then (h.1 ++ [id], h.2) else h

/-- Slices of a gang that stand at different addresses part into gangs of their own (R330); agents are numbered on. -/
def partSlices (g : Nat) (pc0 : DWord) : List Nat → Warp → List (DWord × Nat) → Nat → Warp × Nat
  | [], w, _, na => (w, na)
  | i :: rest, w, seen, na =>
    let pc := (w.slice i).pc
    if pc = pc0 then partSlices g pc0 rest w seen na
    else match seen.find? fun p => p.1 = pc with
      | some p => partSlices g pc0 rest (w.modSlice i fun x => { x with gang := p.2 }) seen na
      | none =>
        let id := w.nextGang
        let old : Gang := (w.gang? g).getD { id := g }
        let new : Gang := { id := id, agent := na, clock := aput old.agent (Clock.epoch old.clock old.agent) old.clock }
        let w := { w with gangs := w.gangs ++ [new], nextGang := id + 1, handler := w.partHandler g id }
        partSlices g pc0 rest (w.modSlice i fun x => { x with gang := id }) ((pc, id) :: seen) (na + 1)

/-- Gangs without a live slice are gone; the issue order follows (R328, R340). -/
def Core.tidyWarp (c : Core) (slot : Nat) : Core :=
  match alook slot c.warps with
  | none => c
  | some w =>
    let w := { w with gangs := w.gangs.filter fun g => (w.gangSlices g.id) ≠ [] }
    let ids := w.gangs.map (·.id)
    let order := c.order.filter fun p => p.1 ≠ slot || ids.contains p.2
    let new := ids.filter fun g => ¬ order.contains (slot, g)
    { c with warps := aput slot w c.warps, order := order ++ new.map fun g => (slot, g) }

/-- Part the gang's slices and drop gangs that are gone. -/
def State.partGang (s : State) (k slot g : Nat) : State :=
  let c := s.core k
  match alook slot c.warps with
  | none => s
  | some w => match w.gangSlices g with
    | [] => s.setCore k (c.tidyWarp slot)
    | i :: rest =>
      let (w, na) := partSlices g (w.slice i).pc rest w [] s.nextAgent
      let w := if na = s.nextAgent then w else w.modGang g fun x => x.publish.2
      { s.setCore k ({ c with warps := aput slot w c.warps }.tidyWarp slot) with nextAgent := na }

/-- A team whose warps have no live thread and whose store queues are empty ends once its tasks have run out (R155). -/
def State.settleTeam (s : State) (k t : Nat) : State :=
  let c := s.core k
  match alook t c.teams with
  | none => s
  | some tm =>
    let ws := (c.warps.filter fun p => p.2.team = t).map (·.2)
    if tm.kind = .firmware ∨ ws.any fun w => w.lanes.any (·.live) then s
    else
      let dropped := c.tasks.filter fun p => p.2.slot = t ∧ p.2.state = .waiting
      let tag := s.teamTag k t
      let sev := (s.die (dieOf k)).sev.getD 14 3
      let s := if tm.ending then s else dropped.foldl (fun s _ => s.logError sev 14 false (some (dieOf k)) (some (localOf k)) (some tag.1) none tag.2) s
      let s := if tm.ending then s else s.modCore k fun (c : Core) =>
        ({ c with tasks := c.tasks.filter fun p => ¬ (p.2.slot = t ∧ p.2.state = TaskState.waiting) }).modTeam t fun x => { x with ending := true }
      if ¬ tm.ending ∧ dropped ≠ [] ∧ 4 ≤ sev then s.resetDie (dieOf k) (s.powered && !s.recovery)
      else if (s.core k).tasks.any (fun p => p.2.slot = t) ∨ ws.any fun w => w.sq ≠ [] then s
      else
        let s := match tm.uid.bind s.launch, tm.uid with
          | some l, some _ =>
            -- partial sums wait at the root for the end of the launch (R232)
            s.modLaunch l.root fun r => { r with sums := r.sums ++ tm.partials.map fun p => (tm.teamIdx, p) }
          | _, _ => s
        let s := (s.dropTokens k t).removeTeam k t
        match tm.uid with
        | some u => s.lowerCounter u 1
        | none => s

/-- Threads end (R340): bits cleared, slices whose running path empties are marked; spawned threads lower the counter (R358). -/
def State.endThreads (s : State) (k slot : Nat) (ls : List Nat) : State :=
  match s.warp? k slot with
  | none => s
  | some w0 =>
    let w := w0.modLanes ls fun l => { l with live := false, exec := false }
    let w := (ls.map (· / 4)).eraseDups.foldl (fun w i =>
      if (laneIds i).any fun j => (w.lane j).exec && (w.lane j).live then w else w.modSlice i fun x => { x with ended := true }) w
    let s := s.modWarp k slot fun _ => w
    match alook w.team (s.core k).teams with
    | some t => (match t.kind, t.uid with
      | .spawned, some u => s.lowerCounter u ls.length
      | _, _ => s)
    | none => s

/-- After an instruction: ended slices unwind, gangs part, and a team without threads ends; `next` is the address that follows it. -/
def State.settleGang (s : State) (k slot g : Nat) (next : DWord) : State :=
  match s.warp? k slot with
  | none => s
  | some w =>
    let h : Bool := match w.handler with | some x => x.1.contains g | none => false
    let w := (w.unwindEnded g h next).modGang g fun x => { x with wait := .ready, skip := 0, deliv := [], mark := none }
    ((s.modWarp k slot fun _ => w).partGang k slot g).settleTeam k w.team

/-- The instruction of length `len` is done: every slice of the gang moves past it. -/
def State.retire (s : State) (k slot g : Nat) (pc : DWord) (len : Nat) : State :=
  let next := pc + BitVec.ofNat 64 len
  (s.modWarp k slot fun w =>
    (List.range 8).foldl (fun w i => if (w.slice i).gang = g then w.modSlice i fun x => { x with pc := next } else w) w).settleGang k slot g next

/-- The gang of the environment retires its instruction. -/
def Env.done (e : Env) (len : Nat) (s : State) : State := s.retire e.k e.slot e.gid e.pc len

/-- The gang waits. -/
def Env.stall (e : Env) (x : Wait) (s : State) : State := s.modGang e.k e.slot e.gid fun g => { g with wait := x }

/-! ## Taking a trap (R405, R406, R408) -/

/-- TRAPCAUSE (R405). -/
def trapCause (t : Trap) : Word := BitVec.ofNat 32 (t.cls % 32 * 65536 + t.index % 256 * 256 + t.reason % 256)

/-- TSDONE (R407). -/
def trapDone (t : Trap) : Mask := if (t.cls = 2 ∨ t.cls = 3) ∧ 1 ≤ t.reason ∧ t.reason ≤ 4 then t.mask else 0

/-- The handler's address (R407). -/
def tvec (d : Die) : DWord := d.tvecHi ++ (d.tvecLo &&& 0xFFFFFFFC#32)

/-- Take a trap at the gang's instruction of length `len`: the trap registers are written; with TVECLO.EN the gang enters handler mode at
TVEC, otherwise the team is killed under class 16; a trap in handler mode, or a handler address that is not canonical, is a double
fault and kills under class 15. While a handler runs, a trap of a gang outside it is dropped: its instruction has no effect and issues again
after RTE, for the threads that have not completed (R406, R220). -/
def State.takeTrap (s : State) (k slot g : Nat) (t : Trap) (len : Nat) : State :=
  match s.warp? k slot with
  | none => s
  | some w =>
    let d := s.die (dieOf k)
    match w.handler with
    | some h =>
      if h.1.contains g then s.teamError 15 k w.team
      else s.modWarp k slot fun _ => w.modGang g fun x => { x with wait := .ready, skip := x.skip ||| trapDone t, deliv := [], mark := none }
    | none =>
      let sl := w.gangSlices g
      let exec := maskOf ((sl.flatMap laneIds).filter fun j => (w.lane j).exec)
      let w1 := { w with trapCause := trapCause t, trapAddr := w.pcOf g, trapMask := t.mask }
      if ¬ d.tvecLo.getLsbD 0 then (s.modWarp k slot fun _ => w1).teamError 16 k w.team
      else if ¬ canonical (tvec d).toNat then (s.modWarp k slot fun _ => w1).teamError 15 k w.team
      else
        let w2 := { w1 with tsexec := exec, tsdone := trapDone t, handler := some ([g], len) }
        let w3 := sl.foldl (fun v i => (v.setExec i w.liveMask).modSlice i fun x => { x with pc := tvec d, tstack := [], ended := false }) w2
        s.modWarp k slot fun _ => w3.modGang g fun x => { x with wait := .ready, skip := 0, deliv := [], mark := none }

/-- Return of a gang from a handler (R411): EXEC from TSEXEC restricted to live lanes, to TRAPADDR or past the trapped instruction; after
.rep the threads in TSDONE are not performed again (R220). The handler is over when the last of its gangs has returned (log 81). -/
def Warp.returnFrom (w : Warp) (g : Nat) (skip : Bool) : Warp :=
  match w.handler with
  | none => w
  | some (hs, len) =>
    let dst := if skip then w.trapAddr + BitVec.ofNat 64 len else w.trapAddr
    let w1 := (w.gangSlices g).foldl (fun v i => (v.setExec i w.tsexec).modSlice i fun x => { x with pc := dst, tstack := [] }) w
    let left := hs.filter fun h => h ≠ g ∧ w.gangSlices h ≠ []
    { w1 with handler := if left = [] then none else some (left, len) }.modGang g fun x => { x with wait := .ready, skip := if skip then 0 else w.tsdone }

/-! ## The frame of an instruction meaning -/

/-- Run a meaning for the focus gang: it answers a state or the trap it takes. `len` is the instruction's length. -/
def instr (s : State) (len : Nat) (f : Env → Except Trap State) : Host.Outcome State Fault Refusal :=
  match s.env? with
  | none => .fault .noGang
  | some e => match f e with
    | .ok s' => .next s'
    | .error t => .next (s.takeTrap e.k e.slot e.gid t len)

/-- The same for a meaning that may also change the state before it traps (FPFLAGS and draws, R88). -/
def instr2 (s : State) (len : Nat) (f : Env → State × Option Trap) : Host.Outcome State Fault Refusal :=
  match s.env? with
  | none => .fault .noGang
  | some e =>
    let r := f e
    match r.2 with
    | none => .next r.1
    | some t => .next (r.1.takeTrap e.k e.slot e.gid t len)

/-- A supervisor-only instruction outside supervisor mode: illegal instruction, detail 11 (R72). Decode reports it; a meaning called
directly does too. -/
def needSuper (e : Env) : Except Trap Unit := if e.super then .ok () else .error { cls := 1, reason := 11, mask := maskOf e.lanes }

end Sys2Proof.Machine
end

