-- ==== Sys2Proof/Machine/Admit.lean ====
section
/-!
DEFINITION. Room on a core and the admission of a team (R352, R194, R207), and the bins with their formed warps (R357 to R361).
-/
namespace Sys2Proof.Machine

/-! ## Room (R352) -/

/-- What a team takes of a core. -/
structure Need where
  warps : Nat
  vectors : Nat
  scratch : Nat
  barriers : Nat
  deriving DecidableEq, Repr

/-- Numbers below `n` that a list lacks. -/
def freeBelow (n : Nat) (used : List Nat) : List Nat := (List.range n).filter fun i => ¬ used.contains i

/-- The lowest free span of the scratchpad of a size: 0 or the end of an allocation. -/
def Core.scratchFit (c : Core) (size : Nat) : Option Nat :=
  let used := (c.teams.filter fun t => t.2.scrSize ≠ 0).map fun t => (t.2.scrBase, t.2.scrBase + t.2.scrSize)
  ((0 :: used.map (·.2)).filter fun b => decide (b + size ≤ Config.scratchBytes) && used.all fun u => decide (u.2 ≤ b ∨ b + size ≤ u.1)).min?

/-- Team slot and scratchpad base for a team, when the core has room. -/
def Core.room (c : Core) (d : Need) : Option (Nat × Nat) :=
  if 48 < c.warps.length + d.warps ∨ 4096 < (c.teams.map fun t => t.2.vectors).sum + d.vectors ∨
      48 < (c.teams.map fun t => t.2.barriers.length).sum + d.barriers then none
  else match freeBelow 48 (c.teams.map (·.1)), c.scratchFit d.scratch with
    | t :: _, some b => some (t, b)
    | _, _ => none

/-- Need of a team of `teamW` warps of a launch (R207: twice the vectors when mirrored). -/
def needOf (img : Image) (l : Launch) (teamW : Nat) (grid : Bool) : Need :=
  { warps := teamW, vectors := teamW * img.regs * (if l.mirrored then 2 else 1)
    scratch := if grid then img.scratch else 0, barriers := if grid then img.barriers else 0 }

/-! ## Starting a team -/

/-- How a warp starts. -/
structure WarpStart where
  lanes : List Lane
  vregs : List (Nat × List RVal) := []
  entry : DWord
  warpId : Nat := 0
  clock : Clock := []
  deriving DecidableEq, Repr

/-- A warp as it starts (R194): live lanes are active, every other register is zero. -/
def WarpStart.warp (x : WarpStart) (team agent : Nat) : Warp :=
  { team := team, warpId := x.warpId
    lanes := (x.lanes.map fun l => { l with exec := l.live }) ++ List.replicate (32 - x.lanes.length) {}
    slices := List.replicate 8 { pc := x.entry }
    gangs := [{ id := 0, agent := agent, clock := aput agent 1 x.clock }]
    vregs := x.vregs }

/-- A key of the race tracker is a sector of a team's scratchpad allocation on a core. -/
def trackInside (k : Nat) (tm : Team) (key : Nat) : Bool :=
  decide (2 ^ 40 + k * 2 ^ 16 ≤ key ∧ key < 2 ^ 40 + (k + 1) * 2 ^ 16) &&
  decide (tm.scrBase ≤ key % 2 ^ 16 * 32 ∧ key % 2 ^ 16 * 32 < tm.scrBase + tm.scrSize)

/-- Admit a team with its warps at a slot: its scratchpad is zero, its counter unit is taken (R139, R358). -/
def State.enterTeam (s : State) (k slot : Nat) (tm : Team) (ws : List WarpStart) : State :=
  let c := s.core k
  let slots := freeBelow 48 (c.warps.map (·.1))
  let warps := (slots.zip ws).zipIdx.map fun p => (p.1.1, p.1.2.warp slot (s.nextAgent + p.2))
  let inside (a : Nat) : Bool := decide (tm.scrBase ≤ a ∧ a < tm.scrBase + tm.scrSize)
  let s := s.setCore k { c with
    teams := aput slot { tm with first := s.nextAgent } c.teams
    warps := warps.foldl (fun m p => aput p.1 p.2 m) c.warps
    order := c.order ++ warps.map fun p => (p.1, 0)
    scr := c.scr.filter fun p => ¬ inside p.1
    objs := c.objs.filter fun p => ¬ inside p.1 }
  let s := { s with
    nextAgent := s.nextAgent + ws.length
    tracks := s.tracks.filter fun p => ¬ trackInside k tm p.1 }
  let s := match tm.uid with | some u => s.raiseCounter u 1 | none => s
  -- a warp with no live lane retires at once, and a team with no live warp ends (R373)
  let s := warps.foldl (fun s p => if p.2.lanes.any (·.live) then s else s.setCore k ((s.core k).tidyWarp p.1)) s
  s.settleTeam k slot

/-! ## Bins (R359 to R361) -/

/-- Visible width of a launch. -/
def State.widthOf (s : State) (u : Nat) : Nat :=
  match (s.launch u).bind s.imageOf with
  | some i => Launch.width i
  | none => Config.warpWidth

/-- Form a warp of a bin, when the queue of 16 has an entry. -/
def Core.formBin (c : Core) (b now : Nat) : Core :=
  match alook b c.bins with
  | none => c
  | some x => { c with bins := adel b c.bins, formed := c.formed ++ [{ threads := x.threads, since := now }] }

/-- The bin of some, whose first thread arrived earliest. -/
def earliest : List (Nat × Bin) → Option Nat
  | [] => none
  | b :: bs => some (bs.foldl (fun m x => if x.2.order < m.2.order then x else m) b).1

/-- Place one thread at cycle `now` (R359): none when it must wait. `w` is its launch's width. -/
def Core.place (c : Core) (w now num : Nat) (t : Spawned) (timer : Nat) : Option Core :=
  let open' (c : Core) : Option Core := match freeBelow 16 (c.bins.map (·.1)) with
    | b :: _ =>
      let c := { c with bins := aput b { uid := t.uid, entry := t.entry, threads := [t], deadline := now + timer, order := num } c.bins }
      some (if w ≤ 1 ∧ c.formed.length < 16 then c.formBin b now else c)
    | [] => none
  match c.bins.find? fun b => b.2.uid = t.uid ∧ b.2.entry = t.entry with
  | some (b, x) =>
    if w ≤ x.threads.length then (if c.formed.length < 16 then open' (c.formBin b now) else none)
    else
      let c := { c with bins := aput b { x with threads := x.threads ++ [t] } c.bins }
      some (if w ≤ x.threads.length + 1 ∧ c.formed.length < 16 then c.formBin b now else c)
  | none => match freeBelow 16 (c.bins.map (·.1)) with
    | _ :: _ => open' c
    | [] => if c.formed.length < 16 then (match earliest c.bins with | some b => open' (c.formBin b now) | none => none) else none

/-- A thread arrives: it is placed, or waits behind those that wait. -/
def Core.arrive (c : Core) (w now : Nat) (t : Spawned) (timer : Nat) (msg : Bool) : Core :=
  let num := c.arrivals
  let c := { c with arrivals := num + 1 }
  let wait : Core := { c with placing := c.placing ++ [{ num := num, thread := t, timer := timer, msg := msg }] }
  match c.placing with
  | [] => (c.place w now num t timer).getD wait
  | _ => wait

/-- After an entry of the formed queue is free: bins that wait to form do, the earliest first, and waiting threads are placed. Fuel. -/
def Core.settleBins (wOf : Nat → Nat) (now : Nat) : Nat → Core → Core
  | 0, c => c
  | f + 1, c =>
    let due := c.bins.filter fun b => decide (wOf b.2.uid ≤ b.2.threads.length ∨ b.2.deadline ≤ now)
    let ready : Option Nat := if c.formed.length < 16 then earliest due else none
    match ready with
    | some b => (c.formBin b now).settleBins wOf now f
    | none => match c.placing with
      | [] => c
      | p :: rest => match c.place (wOf p.thread.uid) now p.num p.thread p.timer with
        | some c1 => ({ c1 with placing := rest }).settleBins wOf now f
        | none => c

/-- The core's bins settle, and gangs whose threads have all been placed go on. -/
def State.settleBins (s : State) (k : Nat) : State :=
  let c := s.core k
  let s := s.setCore k (c.settleBins s.widthOf (s.cycleOf k) (c.placing.length + c.bins.length + 20))
  let left := (s.core k).placing.map (·.num)
  let done := (s.core k).warps.flatMap fun w => w.2.gangs.filterMap fun g => match g.wait with
    | .place last len => if left.any (· ≤ last) then none else some (w.1, g.id, len)
    | _ => none
  done.foldl (fun s q => match s.envOf k q.1 q.2.1 with | some e => e.done q.2.2 s | none => s) s

/-- Threads of one creator arrive in order. -/
def State.arriveAll (s : State) (k : Nat) (ts : List Spawned) (timer : Nat) (msg : Bool) : State :=
  let now := s.cycleOf k
  s.setCore k (ts.foldl (fun c t => c.arrive (s.widthOf t.uid) now t timer msg) (s.core k))

/-! ## Formed warps (R357, R360) -/

/-- A lane of a spawned thread. -/
def Spawned.lane (t : Spawned) : Lane :=
  { live := true, exec := true, bounds := t.bounds, elem := t.elem, elemX := t.elemX, elemY := t.elemY, elemZ := t.elemZ, depth := t.depth }

/-- Names that threads fill, with a value for each lane. -/
def spawnRegs (ts : List Spawned) : List (Nat × List RVal) :=
  ((ts.flatMap fun t => t.regs.map (·.1)).eraseDups).foldl (fun m n =>
    aput n ((List.range 32).map fun i => match (ts[i]?).bind fun t => t.regs.find? fun r => r.1 = n with
      | some r => { lo := r.2, hi := r.2 }
      | none => {}) m) []

/-- The one-warp team of formed threads: PARAM, KEY and SEG are those of segment `i` of its launch. -/
def spawnTeam (img : Image) (l : Launch) (u base i : Nat) (ts : List Spawned) : Team :=
  let g := l.segs.getD i { teams := 0, param := 0, key := 0 }
  { kind := .spawned, uid := some u, teamIdx := 0xFFFFFFFF, teamW := 1, seg := l.seg0 + i, param := g.param, key := g.key, n := img.regs
    vectors := (needOf img l 1 false).vectors, scrBase := base, threads := ts }

/-- The segment of a launch that its formed threads' team is counted under: its only one; of several, which one is open (log 95). -/
def State.spawnSeg (s : State) (l : Launch) : Nat × State :=
  if l.segs.length ≤ 1 then (0, s) else ((Config.freeWord s.freeCtr).toNat % l.segs.length, { s with freeCtr := s.freeCtr + 1 })

/-- Admit formed threads; none when the core has no room. -/
def State.admitThreads (s : State) (k : Nat) (ts : List Spawned) (reruns : Nat) : Option State :=
  match ts with
  | [] => some s
  | t :: _ => match s.launch t.uid with
    | none => some s
    | some l => match s.imageOf l with
      | none => some s
      | some img => ((s.core k).room (needOf img l 1 false)).map fun p =>
        let q := s.spawnSeg l
        q.2.enterTeam k p.1 { spawnTeam img l t.uid p.2 q.1 ts with reruns := reruns }
          [{ lanes := ts.map (·.lane), vregs := spawnRegs ts, entry := t.entry, clock := ts.foldl (fun c x => Clock.join c x.clock) [] }]

/-- FORMED_WARP_ADMISSION: core. The head of the formed queue finds room, 44 cycles after it was made (R357). -/
def execFormedWarpAdmission (s : State) : Host.Outcome State Fault Refusal :=
  let k := s.ev.core
  match (s.core k).formed with
  | [] => .next s
  | f :: rest => match s.admitThreads k f.threads 0 with
    | none => .next s
    | some s1 =>
      let late := f.since + 44 - s.cycleOf k
      .next (((s1.modCore k fun (c : Core) => { c with formed := rest }).modDie (dieOf k) fun d => { d with cycle := d.cycle + late }).settleBins k)

/-- BIN_TIMER_EXPIRY: core, `n` bin. The core's cycle reaches the bin's time; it forms unless the queue is full or an earlier bin waits. -/
def execBinTimerExpiry (s : State) : Host.Outcome State Fault Refusal :=
  let k := s.ev.core
  match alook s.ev.n (s.core k).bins with
  | none => .next s
  | some b =>
    let late := b.deadline - s.cycleOf k
    let s := s.modDie (dieOf k) fun d => { d with cycle := d.cycle + late }
    let now := s.cycleOf k
    let c := s.core k
    let first := earliest (c.bins.filter fun x => decide (x.2.deadline ≤ now ∨ s.widthOf x.2.uid ≤ x.2.threads.length))
    if 16 ≤ c.formed.length ∨ first ≠ some s.ev.n then .next s
    else .next ((s.setCore k (c.formBin s.ev.n now)).settleBins k)

end Sys2Proof.Machine
end

