-- ==== Sys2Proof/Machine/Operands.lean ====
section
/-!
DEFINITION. Every operand form: literals (R60, R61), vector, uniform and special registers (R193 to R198, R204), the run-time register
checks (R201 to R203), last reads (R200), and writing results (R75, R199).
-/
namespace Sys2Proof.Machine

/-- The literal of a position, extended to `w` bits for an integer operand (R60, R237). -/
def litInt (x : Op) (signed : Bool) (w : Nat) : Nat :=
  match x.form with
  | .l64 => if signed then wrapNat w (sIntOf 32 x.lit) else x.lit
  | .x160 => x.lit
  | .c32 => if signed then wrapNat w (sIntOf 12 x.lit) else x.lit
  | .x96 => if signed then wrapNat w (sIntOf 16 x.imm16) else x.imm16

/-- The literal of a floating position in its type (R60); an L64 literal is an FP32 value (R262). -/
def litFloat (x : Op) (t : Nat) : Nat :=
  match x.form with
  | .l64 | .x160 | .c32 => x.lit
  | .x96 => if t = 5 then x.imm16 * 2 ^ 16 else if t = 6 then x.imm16 * 2 ^ 48 else x.imm16

/-- Specials that are per thread (R198). -/
def perThread (code : Nat) : Bool := [64, 66, 77, 78, 79, 80, 81, 82, 85].contains code
/-- Specials whose value depends on placement or time (R198). -/
def placed (code : Nat) : Bool := [68, 71, 72, 73, 74, 86, 87, 88].contains code
/-- Specials whose read carries E = 0 in a bounds thread (R375). -/
def specialE0 (code : Nat) : Bool := [65, 77, 78, 79, 80, 76, 82, 83, 84].contains code

/-- RECT (R196). -/
def rectWord (l : Launch) : Nat := (l.cw - 1) * 1024 + (l.ch - 1) * 128 + l.occ * 8 + l.ocr
/-- HEAT (R197). -/
def heatWord (c : Core) : Nat := (if c.thr then 2 ^ 31 else 0) + c.temp % 4096
/-- WSPHASE (R114). -/
def wsPhase (cycle : Nat) : Nat := cycle / 256 % 16 * 2 ^ 28 + cycle % 256

/-- EXEC as the warp's mask. -/
def Warp.execAll (w : Warp) : Nat := (maskOf ((List.range 32).filter fun j => (w.lane j).exec)).toNat

/-- A special register as a thread reads it, at its own width (R195). -/
def special (s : State) (e : Env) (code lane : Nat) : SV :=
  let l := e.warp.lane lane
  let pt (n : Nat) : SV := { lo := n, hi := n, e := l.bounds && !specialE0 code }
  let iv (i : Iv) : SV := { lo := i.lo, hi := i.hi }
  if isFw e.k && [71, 72, 73, 76, 83].contains code then pt ((Config.fwSpecial (dieOf e.k) code).toNat % (if code = 76 ∨ code = 83 then 2 ^ 64 else 2 ^ 32))
  else match code with
  | 64 => pt lane
  | 65 => pt e.w
  | 66 => pt (lane / 4)
  | 67 => pt e.warp.warpId
  | 68 => pt e.warp.team
  | 69 => pt e.team.teamW
  | 70 => pt e.team.teamIdx
  | 71 => pt (coreRow e.k)
  | 72 => pt (coreCol e.k)
  | 73 => pt (match e.launch with | some l => rectWord l | none => 0)
  | 74 => pt (dieOf e.k)
  | 75 => pt e.team.seg
  | 76 => pt e.team.param.toNat
  | 77 => iv l.elem
  | 78 => iv l.elemX
  | 79 => iv l.elemY
  | 80 => iv l.elemZ
  | 81 => pt l.depth
  | 82 => pt l.draw.toNat
  | 83 => pt e.team.key.toNat
  | 84 => pt e.warp.fpmode.toNat
  | 85 => pt l.fpflags.toNat
  | 86 => pt (s.cycleOf e.k % 2 ^ 64)
  | 87 => pt (heatWord e.core)
  | 88 => pt (wsPhase (s.die (dieOf e.k)).cycle)
  | 89 => pt e.warp.trapCause.toNat
  | 90 => pt e.warp.trapAddr.toNat
  | 91 => pt e.warp.trapMask.toNat
  | 92 => pt e.warp.ix.toNat
  | _ => pt e.warp.execAll

/-- A vector name of a lane; an unmapped one reads as 0 here, the check of R201 stands before. -/
def Warp.vec (w : Warp) (name lane : Nat) : RVal := match alook name w.vregs with | some vs => vs.getD lane {} | none => {}
/-- A uniform name; s56 to s63 of handler mode are the second bank (R408). -/
def Warp.uni (w : Warp) (handling : Bool) (name : Nat) : RVal :=
  if handling && decide (56 ≤ name) then w.hregs.getD (name - 56) {} else w.sregs.getD name {}

/-- One 32-bit name as an operand. -/
def RVal.sv (r : RVal) : SV := { lo := r.lo.toNat, hi := r.hi.toNat, nan := r.nan, e := r.e, stamp := r.stamp }
/-- An even name and the odd above it (R57, R97). -/
def pairSV (a b : RVal) : SV :=
  { lo := a.lo.toNat + b.lo.toNat * 2 ^ 32, hi := a.hi.toNat + b.hi.toNat * 2 ^ 32, nan := a.nan, e := a.e || b.e, stamp := max a.stamp b.stamp }
/-- In element mode a register is the point of its value (R97). -/
def svElem (a : SV) : SV := { a with hi := a.lo, nan := false }
/-- A constant (R375). -/
def svConst (n : Nat) : SV := { lo := n, hi := n }

/-- A constant computed from operands with a stamp (R173). -/
def svStamp (n stamp : Nat) : SV := { svConst n with stamp := stamp }

/-- First name of a vector position, IX added as an exact integer (R204). -/
def Env.base (e : Env) (p : PosBits) : Nat := if p.ix then p.code + e.warp.ix.toNat else p.code

/-- Element `i` of a position of `w`-bit elements in a thread. -/
def Env.readAt (s : State) (e : Env) (p : PosBits) (w i lane : Nat) : SV :=
  let raw : SV :=
    if ¬ p.bank then
      let n := e.base p + i * (w / 32)
      if w = 64 then pairSV (e.warp.vec n lane) (e.warp.vec (n + 1) lane) else (e.warp.vec n lane).sv
    else if p.code < 64 then
      let n := p.code + i * (w / 32)
      if w = 64 then pairSV (e.warp.uni e.handling n) (e.warp.uni e.handling (n + 1)) else (e.warp.uni e.handling n).sv
    else
      let v := special s e p.code lane
      if w = 64 then v else { v with lo := v.lo % 2 ^ 32, hi := v.hi % 2 ^ 32 }
  if (e.warp.lane lane).bounds then raw else svElem raw

/-- All `n` elements. -/
def Env.readPos (s : State) (e : Env) (p : PosBits) (w n lane : Nat) : List SV := (List.range n).map fun i => Env.readAt s e p w i lane

/-- The value of a position used as `u`, empty unless a register use; the literal when the position is filled. -/
def Env.src (s : State) (e : Env) (x : Op) (r : Row) (lp : LitPos) (u : Use) (p : PosBits) (lit lane : Nat) : List SV :=
  match u with
  | .reg _ w n => if x.filled r lp then [svConst lit] else Env.readPos s e p w n lane
  | _ => []

/-! ## Register checks -/

/-- Vector positions an instruction uses: position, width, elements, whether read. -/
def vecUses (x : Op) (r : Row) : List (PosBits × Nat × Nat × Bool) :=
  let one (u : Use) (p : PosBits) (lp : LitPos) (rd : Bool) : List (PosBits × Nat × Nat × Bool) := match u with
    | .reg _ w n => if (rd && x.filled r lp) || p.bank || n = 0 then [] else [(p, w, n, rd)]
    | _ => []
  one r.a x.posA .a true ++ one r.b x.posB .b true ++ one r.c x.posC .c true ++ one r.d x.posD .none false

/-- Uniform-bank codes an instruction reads. -/
def uniUses (x : Op) (r : Row) : List Nat :=
  let one (u : Use) (p : PosBits) (lp : LitPos) : List Nat := match u with
    | .reg _ _ _ => if x.filled r lp || !p.bank then [] else [p.code]
    | _ => []
  one r.a x.posA .a ++ one r.b x.posB .b ++ one r.c x.posC .c

/-- Reasons of the register trap that apply to vector uses (R202). -/
def vecReasons (e : Env) (us : List (PosBits × Nat × Nat × Bool)) : List Nat :=
  us.flatMap fun u =>
    let b := e.base u.1
    let cnt := u.2.2.1 * (u.2.1 / 32)
    (if u.2.2.2 && (List.range cnt).any fun i => decide (b + i < e.team.n) && (alook (b + i) e.warp.vregs).isNone then [1] else []) ++
    (if e.team.n < b + cnt then [2] else []) ++
    (if u.2.1 = 64 ∧ u.1.ix ∧ b % 2 = 1 then [3] else [])

/-- The register trap of an instruction that performs in at least one thread (R201 to R203, R198). -/
def Env.regTrap (e : Env) (x : Op) (r : Row) (mask : Mask) : Option Trap :=
  let reasons := vecReasons e (vecUses x r) ++ (if e.det && (uniUses x r).any placed then [5] else [])
  reasons.min?.map fun m => { cls := 4, reason := m, mask := mask }

/-- The names last-read bits free (R200). -/
def Env.frees (e : Env) (x : Op) (r : Row) : List Nat :=
  let one (u : Use) (p : PosBits) (lp : LitPos) : List Nat := match u with
    | .reg _ w n => if p.last && !p.bank && !x.filled r lp then (List.range (n * (w / 32))).map (e.base p + ·) else []
    | _ => []
  (one r.a x.posA .a ++ one r.b x.posB .b ++ one r.c x.posC .c).filter (· < e.team.n)

/-- Free names: unmapped, and out of the operand buffer (R200, R205). -/
def Warp.free (w : Warp) (names : List Nat) : Warp :=
  { w with vregs := names.foldl (fun v n => adel n v) w.vregs, opbuf := w.opbuf.filter fun n => ¬ names.contains n }

/-! ## Writing results -/

/-- Write lanes of a vector name; a first write maps it with 0 in the other lanes (R199). -/
def Warp.writeVec (w : Warp) (name : Nat) (vals : List (Nat × RVal)) : Warp :=
  match vals with
  | [] => w
  | _ =>
    let old := (alook name w.vregs).getD (List.replicate 32 {})
    { w with vregs := aput name (vals.foldl (fun vs p => vs.set p.1 p.2) old) w.vregs }

/-- Write a uniform name. -/
def Warp.writeUni (w : Warp) (handling : Bool) (name : Nat) (v : RVal) : Warp :=
  if handling && decide (56 ≤ name) then { w with hregs := w.hregs.set (name - 56) v } else { w with sregs := w.sregs.set name v }

/-- A value as register names: one, or an even and an odd (R75, R97). -/
def svNames (a : SV) (w : Nat) : List RVal :=
  let lo (n : Nat) : RVal := { lo := BitVec.ofNat 32 (a.lo / 2 ^ n), hi := BitVec.ofNat 32 (a.hi / 2 ^ n), nan := a.nan, e := a.e, stamp := a.stamp }
  if w = 64 then [lo 0, { lo 32 with nan := false }] else [lo 0]

/-- Write elements of `w` bits to consecutive vector names in lanes. -/
def Warp.writeVecs (w : Warp) (name width : Nat) (vals : List (Nat × List SV)) : Warp :=
  let flat := vals.map fun p => (p.1, p.2.flatMap fun v => svNames v width)
  let n := (flat.map fun p => p.2.length).foldl max 0
  (List.range n).foldl (fun w i => w.writeVec (name + i) (flat.filterMap fun p => p.2[i]?.map fun v => (p.1, v))) w

/-- Write elements to consecutive uniform names. -/
def Warp.writeUnis (w : Warp) (handling : Bool) (name width : Nat) (vals : List SV) : Warp :=
  ((vals.flatMap fun v => svNames v width).zipIdx).foldl (fun w p => w.writeUni handling (name + p.2) p.1) w

/-- Write a predicate of a thread; a write of p7 is nothing. -/
def Warp.writePred (w : Warp) (lane p : Nat) (v : PVal) : Warp := w.modLane lane fun l => { l with preds := l.preds.set p v }

/-- The mode in force for an RM field (R85). -/
def Env.mode (e : Env) (rm : Nat) : Nat := if rm = 5 then (let m := e.warp.fpmode.toNat % 8; if m ≤ 4 then m else 0) else rm

/-- Opcodes that write predicates besides D, or instead of it: IADDX, ISUBX and PSET. -/
def writesPred (opc : Nat) : Bool := opc = 0x22 || opc = 0x23 || opc = 0x54

/-- D and every register source uniform or warp-wide, no predicate written, not a cross-lane opcode (R149, R198, R238). -/
def isUniform (opc : Nat) (x : Op) (r : Row) : Bool :=
  let dOk : Bool := match r.d with | .no => true | .pred _ => false | .reg _ _ _ => x.bkd
  let cOk : Bool := match r.c with | .pred true => false | _ => true
  dOk && cOk && !writesPred opc && (vecUses x r).isEmpty && !(uniUses x r).any perThread && !(decide (0x60 ≤ opc) && decide (opc ≤ 0x67))

/-- The lane as which an instruction computes that acts once for the warp. In a warp with bounds threads it is one of those, the lowest
active, so that a uniform register holds what every thread of it may read (R97, R383); otherwise the lowest active thread, or lane 0. -/
def Env.onceLane (e : Env) (act : List Nat) : Nat :=
  ((if act.isEmpty then (List.range 32).filter fun i => (e.warp.lane i).live else act).find? fun i => (e.warp.lane i).bounds).getD (act.headD 0)

/-- The entry of an opcode, empty for an unassigned one. -/
def rowAt (opc : Nat) (x : Op) : Row := (rowOf opc x).getD {}

end Sys2Proof.Machine
end

