-- ==== Sys2Proof/Machine/Bounds.lean ====
section
/-!
DEFINITION. Undecided events (R377 to R381): which fate a bounds thread's tile takes, and the quarters of a tile.
-/
namespace Sys2Proof.Machine

/-- Coordinates in an interval. -/
def ivLen (i : Iv) : Nat := i.hi + 1 - i.lo

/-- Dimension of a launch's domain (R372). -/
def domainDim (l : Launch) : Nat := if 1 < l.nz then 3 else if 1 < l.ny then 2 else 1

/-- Part `i` of four of an axis: the first L mod 4 parts are one longer (R379). -/
def fourth (a : Iv) (i : Nat) : Iv :=
  let q := ivLen a / 4
  let m := ivLen a % 4
  let lo := a.lo + i * q + min i m
  { lo := lo, hi := lo + q + (if i < m then 1 else 0) - 1 }

/-- Lower half, ceil(L / 2), or upper half of an axis (R379). -/
def half (a : Iv) (up : Bool) : Iv :=
  let h := ceilDiv (ivLen a) 2
  if up then { lo := a.lo + h, hi := a.hi } else { lo := a.lo, hi := a.lo + h - 1 }

/-- The two axes cut in two or three dimensions, 0 x, 1 y, 2 z: in three, the two longest, ties to the earlier (R379). -/
def cutAxes (dim : Nat) (x y z : Iv) : Nat × Nat :=
  if dim = 2 then (0, 1)
  else
    let lx := ivLen x
    let ly := ivLen y
    let lz := ivLen z
    -- the axis left whole is the shortest, the latest among equals
    if lz ≤ lx ∧ lz ≤ ly then (0, 1) else if ly ≤ lx ∧ ly ≤ lz then (0, 2) else (1, 2)

/-- The tile can be quartered (R379). -/
def canQuarter (dim : Nat) (x y z : Iv) : Bool :=
  if dim = 1 then 4 ≤ ivLen x
  else
    let c := cutAxes dim x y z
    let len (i : Nat) := if i = 0 then ivLen x else if i = 1 then ivLen y else ivLen z
    2 ≤ len c.1 ∧ 2 ≤ len c.2

/-- Quarter `i` of a tile (R379). -/
def quarterOf (dim : Nat) (x y z : Iv) (i : Nat) : Iv × Iv × Iv :=
  if dim = 1 then (fourth x i, y, z)
  else
    let c := cutAxes dim x y z
    let part (a : Nat) (v : Iv) : Iv := if a = c.1 then half v (i % 2 = 1) else if a = c.2 then half v (2 ≤ i) else v
    (part 0 x, part 1 y, part 2 z)

/-- Linear index of a coordinate (R374). -/
def linear (l : Launch) (x y z : Nat) : Nat := x + l.nx * (y + l.ny * z)

/-- Elements of a tile. -/
def tileCount (x y z : Iv) : Nat := ivLen x * ivLen y * ivLen z

/-- A bounds thread takes an event (R378): its tile is quartered, with a budget unit, or handed off; the counter rises at once. -/
def State.takeEvent (s : State) (k slot : Nat) (handoff : Bool) (payload : Option Word) (clock : Clock) (lane : Nat) : State :=
  match s.warp? k slot with
  | none => s
  | some w =>
    match (alook w.team (s.core k).teams).bind fun t => t.uid with
    | none => s
    | some u => match s.launch u with
      | none => s
      | some l =>
        let th := w.lane lane
        let limit := match (s.imageOf l).bind (·.bounds) with | some b => b.1 | none => 0
        let q : Bool := !handoff && decide (th.depth < limit) && canQuarter (domainDim l) th.elemX th.elemY th.elemZ && decide (0 < l.budget)
        let n := if q then 4 else tileCount th.elemX th.elemY th.elemZ
        let s := s.setLaunch u { l with budget := if q then l.budget - 1 else l.budget, counter := l.counter + n }
        s.modCore k fun (c : Core) => { c with
          tiles := aput c.nextTile { uid := u, quarter := q, x := th.elemX, y := th.elemY, z := th.elemZ, depth := th.depth, payload := payload,
                                     warp := slot, mark := c.seq, clock := clock } c.tiles
          nextTile := c.nextTile + 1 }

/-- The threads take events in ascending lane order and end (R378); what they start is ordered after the gang so far (R189). -/
def State.takeEvents (s : State) (e : Env) (handoff : Bool) (payload : Option Word) (ls : List Nat) : State :=
  match ls with
  | [] => s
  | _ =>
    let s1 := (ls.foldl (fun s i => s.takeEvent e.k e.slot handoff payload (if e.det then e.gang.publish.1 else e.gang.clock) i) s).endThreads e.k e.slot ls
    if e.det then s1.modGang e.k e.slot e.gid fun g => g.publish.2 else s1

/-- Bounds threads whose guard is undecided or has E = 1, or that an instruction names with a settled, passing guard (R377). -/
def Env.events (e : Env) (g : Guard) (p : Nat → Bool) : List Nat := e.lanes.filter fun i =>
  let l := e.warp.lane i
  let v := guardVal g l
  l.bounds && (v.v = .u || v.e || (v.v = .t && p i))

/-- Take the events of an instruction and see what is left of the gang. -/
def State.afterEvents (s : State) (e : Env) (g : Guard) (p : Nat → Bool) : State × Env :=
  let s1 := s.takeEvents e false none (e.events g p)
  (s1, (s1.envOf e.k e.slot e.gid).getD e)

/-- What a meaning answers once it has issued: its state, or the state as it issued and the trap it takes. -/
def orTrap (s : State) : Except Trap State → State × Option Trap
  | .ok s1 => (s1, none)
  | .error t => (s, some t)

/-- An instruction issues: its way is occupied (R326), its events are taken (R378), then its own course follows. `e0` is the gang as it
issued; the course gets the threads that took an event, and what they leave. -/
def issued (s : State) (len : Nat) (g : Guard) (cost : Env → Nat) (factor : Nat) (ev : State → Env → Nat → Bool)
    (f : Env → List Nat → State → Env → State × Option Trap) : Host.Outcome State Fault Refusal :=
  instr2 s len fun e0 =>
    let s1 := s.charge e0.k e0.slot (cost e0) factor
    let p := s1.afterEvents e0 g (ev s1 e0)
    f e0 (e0.events g (ev s1 e0)) p.1 p.2

/-- The same for a course that has no effect where it traps. -/
def issue (s : State) (len : Nat) (g : Guard) (cost : Env → Nat) (factor : Nat) (ev : State → Env → Nat → Bool)
    (f : List Nat → State → Env → Except Trap State) : Host.Outcome State Fault Refusal :=
  issued s len g cost factor ev fun _ evs s e => orTrap s (f evs s e)

/-- The names of an instruction's last-read bits freed as it retires (R200). -/
def Env.freed (e : Env) (x : Op) (r : Row) (s : State) : State := s.modWarp e.k e.slot fun w => w.free (e.frees x r)

/-- Cost of an instruction of one cycle, and of one that its active threads pay for (R326). -/
def oneCycle (_ : Env) : Nat := 1
def perActive (g : Guard) (e : Env) : Nat := e.cost (e.active g).length
/-- Cost of an instruction of opcode `opc`: a uniform one counts one active thread (R264, R326). -/
def opCost (opc : Nat) (x : Op) : Env → Nat := if isUniform opc x (rowAt opc x) then oneCycle else perActive x.g

end Sys2Proof.Machine
end

