-- ==== Sys2Proof/Machine/Flags.lean ====
section
/-!
DEFINITION. How an instruction that computes registers acts (R149, R200, R238, R263): which threads compute, the flags they raise in
FPFLAGS (R87), the floating-point trap (R88), draws (R84, R282), endpoint tags (R375) and stamps (R173).
-/
namespace Sys2Proof.Machine

/-- What a computing thread reads: the elements of each position, and predicate sources. -/
structure Srcs where
  a : List SV := []
  b : List SV := []
  c : List SV := []
  pa : PVal := {}
  pb : PVal := {}
  pc : PVal := {}
  deriving DecidableEq, Repr

/-- What it computes: elements of D, or a predicate D, further predicates, with flags and a count of draws. -/
structure Out where
  vals : List SV := []
  pred : Option PVal := none
  preds : List (Nat × PVal) := []
  fl : Nat := 0
  draws : Nat := 0
  deriving DecidableEq, Repr

/-- What varies between instructions: the literal's value, the issue factor (R264), stamp 0 or A's stamp (R173, R283), E always 1 or
from A alone (R375, R386), and further events (R377). -/
structure How where
  lit : Nat := 0
  factor : Nat := 1
  stamp0 : Bool := false
  stampA : Bool := false
  e1 : Bool := false
  eA : Bool := false
  event : Env → Nat → Bool := fun _ _ => false

/-- Sources of a thread. -/
def Env.srcs (s : State) (e : Env) (x : Op) (r : Row) (lit lane : Nat) : Srcs :=
  let p (u : Use) (code : Nat) : PVal := match u with | .pred false => (e.warp.lane lane).pred (code % 8) | _ => {}
  { a := Env.src s e x r .a r.a x.posA lit lane, b := Env.src s e x r .b r.b x.posB lit lane, c := Env.src s e x r .c r.c x.posC lit lane
    pa := p r.a x.a, pb := p r.b x.b, pc := p r.c x.c }

/-- Largest stamp among register sources (R173). -/
def Srcs.stamp (v : Srcs) : Nat := (v.a ++ v.b ++ v.c).foldl (fun m x => max m x.stamp) 0
/-- Some source has E = 1 (R375). -/
def Srcs.tagE (v : Srcs) : Bool := (v.a ++ v.b ++ v.c).any (·.e) || v.pa.e || v.pb.e || v.pc.e

/-- Trap enables of FPMODE that a thread's flags meet; in a bounds thread EWID alone (R86, R99). -/
def enabledFlags (w : Warp) (bounds : Bool) : Nat := (w.fpmode.toNat / 256 % 128) &&& (if bounds then fWID else 127)

/-- OR flags into FPFLAGS and advance the draw counter (R87, R282). -/
def Lane.note (l : Lane) (fl draws : Nat) : Lane :=
  { l with fpflags := l.fpflags ||| BitVec.ofNat 32 fl, draw := l.draw + BitVec.ofNat 32 draws }

/-- D is a uniform register. -/
def isUniD (x : Op) (r : Row) : Bool := match r.d with | .reg _ _ _ => x.bkd | _ => false

/-- Results of one thread, tagged and stamped. -/
def Env.compute (s : State) (e : Env) (x : Op) (r : Row) (h : How) (f : State → Env → Nat → Bool → Srcs → Out) (lane : Nat) : Nat × Out :=
  let v := Env.srcs s e x r h.lit lane
  let b := (e.warp.lane lane).bounds
  let o := f s e lane b v
  -- a uniform register of a warp with bounds threads is tagged whoever writes it
  let tag := (b || isUniD x r && e.warp.lanes.any fun l => l.live && l.bounds) && (h.e1 || if h.eA then v.a.any (·.e) else v.tagE)
  let st := if h.stamp0 then 0 else if h.stampA then v.a.foldl (fun m z => max m z.stamp) 0 else v.stamp
  let pt (z : PVal) : PVal := { z with e := tag }
  (lane, { o with
    vals := o.vals.map fun z => { z with e := tag, stamp := st }
    pred := o.pred.map pt
    preds := o.preds.map fun z => (z.1, pt z.2) })

/-- Write what the threads computed. -/
def Env.writeOut (e : Env) (w : Warp) (x : Op) (r : Row) (outs : List (Nat × Out)) : Warp :=
  let w := outs.foldl (fun w o => o.2.preds.foldl (fun w p => w.writePred o.1 p.1 p.2) w) w
  match r.d with
  | .no => w
  | .pred _ => outs.foldl (fun w o => match o.2.pred with | some p => w.writePred o.1 (x.d % 8) p | none => w) w
  | .reg _ width _ =>
    if x.bkd then (match outs with | o :: _ => w.writeUnis e.handling x.d width o.2.vals | [] => w)
    else w.writeVecs x.d width (outs.map fun o => (o.1, o.2.vals))

/-- The threads that compute: one for a uniform instruction, the active ones otherwise (R149, R198). With a uniform D and a per-thread source the
lowest active thread's result goes to D: a floating instruction (0x80 and above) computes in that thread alone (R263), any other in each
active thread (R238). -/
def aluWho (opc : Nat) (x : Op) (r : Row) (act : List Nat) : List Nat :=
  let dUni := isUniD x r
  if isUniform opc x r then (if unguarded x.g || !act.isEmpty then [act.headD 0] else [])
  else if dUni && !writesPred opc && decide (0x80 ≤ opc) then act.take 1 else act

/-- The lanes whose computation counts. A uniform instruction that reads no predicate computes as a bounds thread where one is active, for
the value, and as an element thread beside it, for the flags of those. -/
def Env.aluLanes (e : Env) (opc : Nat) (x : Op) (r : Row) (act who : List Nat) : List Nat :=
  let pred (u : Use) : Bool := match u with | .pred _ => true | _ => false
  if isUniform opc x r && !(pred r.a || pred r.b || pred r.c) && (e.warp.lane (e.onceLane act)).bounds then
    e.onceLane act :: (act.find? fun i => !(e.warp.lane i).bounds).toList
  else who

/-- Flags and draws go to the computing threads; a uniform computation's to every active thread, an element thread's as it computes, a bounds
thread's as it does. -/
def aluNoted (w : Warp) (opc : Nat) (x : Op) (r : Row) (act : List Nat) (outs : List (Nat × Out)) : List (Nat × Out) :=
  if isUniform opc x r then
    act.map fun i => (i, ((outs.find? fun o => (w.lane o.1).bounds = (w.lane i).bounds).getD (outs.headD (0, {}))).2)
  else outs

/-- Threads whose flags meet an enabled trap, and the trap they give (R88). -/
def aluHit (w : Warp) (noted : List (Nat × Out)) : List (Nat × Out) :=
  noted.filter fun o => o.2.fl &&& enabledFlags w (w.lane o.1).bounds ≠ 0
def aluTrap (w : Warp) (hit : List (Nat × Out)) : Trap :=
  { cls := 5, mask := maskOf (hit.map (·.1)), reason := hit.foldl (fun n o => n ||| (o.2.fl &&& enabledFlags w (w.lane o.1).bounds)) 0 }

/-- The warp with the flags and draws noted. -/
def noteAll (w : Warp) (noted : List (Nat × Out)) : Warp := noted.foldl (fun w o => w.modLane o.1 fun l => l.note o.2.fl o.2.draws) w

/-- The course once events have been taken: `e0` is the gang as it issued, `e` what is left of it. -/
def aluRest (e0 : Env) (opc : Nat) (x : Op) (h : How) (f : State → Env → Nat → Bool → Srcs → Out) (s : State) (e : Env) : State × Option Trap :=
  let r := rowAt opc x
  let act := e.active x.g
  let finish (w : Warp) : State := e0.done x.form.bytes (s.modWarp e.k e.slot fun _ => w)
  match aluWho opc x r act with
  | [] => (finish (e.warp.free (e.frees x r)), none)
  | who =>
    match e.regTrap x r (maskOf act) with
    | some t => (s, some t)
    | none =>
      let outs := (e.aluLanes opc x r act who).map (Env.compute s e x r h f)
      let noted := aluNoted e.warp opc x r act outs
      match aluHit e.warp noted with
      | [] => (finish (e.writeOut ((noteAll e.warp noted).free (e.frees x r)) x r outs), none)
      | hit => (s.modWarp e.k e.slot fun _ => noteAll e.warp noted, some (aluTrap e.warp hit))

/-- The shared course of a register-computing instruction. -/
def alu (s : State) (opc : Nat) (x : Op) (h : How) (f : State → Env → Nat → Bool → Srcs → Out) :
    Host.Outcome State Fault Refusal :=
  issued s x.form.bytes x.g (opCost opc x) h.factor (fun _ e0 => h.event e0) fun e0 _ s e =>
    aluRest e0 opc x h f s e

end Sys2Proof.Machine
end

