-- ==== Sys2Proof/Machine/Alu.lean ====
section
/-!
DEFINITION. What the integer, logic, predicate, move, floating and conversion instructions share: the literal's value, the issue factor
(R264), and the outcome of one thread in element or interval mode.
-/
namespace Sys2Proof.Machine

/-- First element of a position. -/
def sv1 (l : List SV) : SV := l.headD (svConst 0)
/-- An element-mode result. -/
def FR.out (r : FR) : Out := { vals := [svConst r.bits], fl := r.fl }
/-- An interval result. -/
def IR.out (r : IR) : Out := { vals := [{ lo := r.lo, hi := r.hi, nan := r.nan }], fl := r.fl }
/-- A result that copies an operand whole. -/
def copyOut (v : SV) : Out := { vals := [v] }
/-- TOP of a type (R98). -/
def topOut (t : Nat) : Out := IR.out (topOf t)

/-- Factor of R264. FCLASS and the sign operations are no .f64 arithmetic. -/
def issueFactor (opc t : Nat) : Nat :=
  if 0x94 ≤ opc ∧ opc ≤ 0x9D then (if t = 6 then 16 else 8)
  else if opc = 0xA3 ∨ opc = 0xA4 ∨ opc = 0xA5 then 2
  else if (0x80 ≤ opc ∧ opc ≤ 0x85 ∨ 0x8B ≤ opc ∧ opc ≤ 0x8D) ∧ t = 6 then 2
  else 1

/-- Element-mode or interval-mode outcome of an integer operation with `n` sources. -/
def intOut (op : IOp) (x : Op) (n : Nat) (b : Bool) (v : Srcs) : Out :=
  let p := sv1 v.a
  let q := sv1 v.b
  let r := sv1 v.c
  if b then IR.out (iBounds op x.type x.op7 (x.imm16 % 256) x.sat n p q r)
  else FR.out (iElem op x.type x.op7 (x.imm16 % 256) x.sat p.lo q.lo r.lo)

/-- An integer instruction (R237 to R250); `cnt`: the literal is a count or selector, zero-extended to 32 bits. -/
def intAlu (s : State) (opc : Nat) (op : IOp) (n : Nat) (cnt : Bool) (x : Op) : Host.Outcome State Fault Refusal :=
  let signed := if opc = 0x30 then idotAcc x.type (x.op7 = 1) = 1 else tySigned x.type
  let lit := if cnt then litInt x false 32 else if opc = 0x30 then litInt x signed 32 else litInt x signed (tyRegs x.type)
  alu s opc x { lit := lit } fun _ _ _ b v => intOut op x n b v

/-- Outcome of a floating operation with `n` sources. -/
def floatOut (op : FOp) (x : Op) (mode n : Nat) (b : Bool) (v : Srcs) : Out :=
  let p := sv1 v.a
  let q := sv1 v.b
  let r := sv1 v.c
  if b then IR.out (fBounds op x.type mode x.op7 x.sat n p q r) else FR.out (fElem op x.type mode x.sat x.op7 p.lo q.lo r.lo)

/-- A floating instruction (R262 to R275). -/
def floatAlu (s : State) (opc : Nat) (op : FOp) (n : Nat) (x : Op) : Host.Outcome State Fault Refusal :=
  let lit := if opc = 0x8C then litInt x true 32 else litFloat x x.type
  alu s opc x { lit := lit, factor := issueFactor opc x.type } fun _ e _ b v => floatOut op x (e.mode x.rm) n b v

/-- Combine a compare's result with C under COMB (R251). -/
def combine (x : Op) (r : Tri) (c : PVal) : Tri :=
  let cv := if x.op7 / 32 % 2 = 1 then c.v.not else c.v
  match x.op7 / 8 % 4 with
  | 0 => r
  | 1 => r.and cv
  | 2 => r.or cv
  | _ => r.xor cv

end Sys2Proof.Machine
end

