-- ==== Sys2Proof/Machine/Select.lean ====
section
/-!
DEFINITION. Carrying addition, comparison, selection and address formation (R243, R251 to R253), predicates (R254, R255), moves and
special registers (R206, R211 to R215).
-/
namespace Sys2Proof.Machine

/-! ## Carry, compare, select, address -/

/-- IADDX and ISUBX of a thread (R243): IMM16 bits 2:0 name pE, bit 3 negates the carry in. -/
def carryOut (sub : Bool) (x : Op) (b : Bool) (v : Srcs) : Out :=
  let w := tyBits x.type
  let p := sv1 v.a
  let q := sv1 v.b
  let nci : Bool := x.imm16 / 8 % 2 = 1
  let cv := if nci then v.pc.v.not else v.pc.v
  let e := x.imm16 % 8
  if b && (p.lo ≠ p.hi || q.lo ≠ q.hi || cv = .u) then { topOut x.type with preds := [(e, { v := .u })] }
  else
    let y := if sub then 2 ^ w - 1 - q.lo % 2 ^ w else q.lo % 2 ^ w
    let z := p.lo % 2 ^ w + y + (if cv = .f then 0 else 1)
    { vals := [svConst (z % 2 ^ w)], preds := [(e, { v := .ofBool (z / 2 ^ w = 1) })] }

/-- R243: add with carry in and out. -/
def execIaddx (x : X96) (s : State) : Host.Outcome State Fault Refusal := alu s 0x22 x.op {} fun _ _ _ b v => carryOut false x.op b v
/-- R243: subtract with carry in and out. -/
def execIsubx (x : X96) (s : State) : Host.Outcome State Fault Refusal := alu s 0x23 x.op {} fun _ _ _ b v => carryOut true x.op b v

/-- ICMP of a thread (R251). -/
def icmpOut (x : Op) (b : Bool) (v : Srcs) : Out :=
  let p := sv1 v.a
  let q := sv1 v.b
  let r : Tri × Nat := if b then iCmpIv (x.op7 % 8) x.type p q else (.ofBool (iCmp (x.op7 % 8) (intOf x.type p.lo) (intOf x.type q.lo)), 0)
  { pred := some { v := combine x r.1 v.pc }, fl := r.2 }

/-- R251: integer compare into a predicate. -/
def execIcmp (x : X96) (s : State) : Host.Outcome State Fault Refusal :=
  alu s 0x48 x.op { lit := litInt x.op (tySigned x.op.type) (tyRegs x.op.type) } fun _ _ _ b v => icmpOut x.op b v

/-- FCMP of a thread (R271). -/
def fcmpOut (x : Op) (b : Bool) (v : Srcs) : Out :=
  let p := sv1 v.a
  let q := sv1 v.b
  let r : Tri × Nat :=
    if b then fCmpIv (x.op7 % 8) x.type p q
    else let c := fCmpX (x.op7 % 8) x.type p.lo q.lo; (.ofBool c.1, c.2)
  { pred := some { v := combine x r.1 v.pc }, fl := r.2 }

/-- R271: floating compare into a predicate. -/
def execFcmp (x : X96) (s : State) : Host.Outcome State Fault Refusal :=
  alu s 0x86 x.op { lit := litFloat x.op x.op.type } fun _ _ _ b v => fcmpOut x.op b v

/-- Literal of an entry whose types are integer or floating (R60, R237). -/
def litAny (x : Op) : Nat := if tyFloat x.type then litFloat x x.type else litInt x (tySigned x.type) (tyRegs x.type)

/-- ISEL of a thread (R252). -/
def iselOut (x : Op) (v : Srcs) : Out :=
  let c := if x.op7 % 2 = 1 then v.pc.v.not else v.pc.v
  match c with
  | .t => copyOut (sv1 v.a)
  | .f => copyOut (sv1 v.b)
  | .u => IR.out (hullIv x.type (sv1 v.a) (sv1 v.b))

/-- R252: select by predicate. -/
def execIsel (x : X96) (s : State) : Host.Outcome State Fault Refusal :=
  alu s 0x49 x.op { lit := litAny x.op } fun _ _ _ _ v => iselOut x.op v

/-- LEA of a thread (R253). -/
def leaOut (x : Op) (b : Bool) (v : Srcs) : Out :=
  let p := sv1 v.a
  let q := sv1 v.b
  let sc : Int := (2 ^ (x.op7 % 8) : Nat)
  let disp := sIntOf 16 x.imm16
  let hasB : Bool := x.op7 / 8 % 2 = 1
  let qi := readI x.type q
  let ai := readI 4 p
  let point : Bool := p.lo = p.hi ∧ (¬ hasB ∨ q.lo = q.hi)
  if !b || point then
    let y : Int := if hasB then intOf x.type q.lo * sc else 0
    { vals := [svConst (wrapNat 64 ((p.lo : Int) + y + disp))] }
  else
    let l := ai.1 + (if hasB then qi.1 * sc else 0) + disp
    let h := ai.2.1 + (if hasB then qi.2.1 * sc else 0) + disp
    IR.out (fitIv 4 false (ai.2.2 ||| (if hasB then qi.2.2 else 0)) l h)

/-- R253: forms a 64-bit address. -/
def execLea (x : Long) (s : State) : Host.Outcome State Fault Refusal :=
  alu s 0x4A (x.op 0) { lit := (x.op 0).lit } fun _ _ _ b v => leaOut (x.op 0) b v

/-! ## Predicates -/

/-- A predicate operation of a thread; OP7 bits 0 and 1 negate A and B (R254). -/
def predOut (x : Op) (f : Tri → Tri → Tri) (v : Srcs) : Out :=
  let p := if x.op7 % 2 = 1 then v.pa.v.not else v.pa.v
  let q := if x.op7 / 2 % 2 = 1 then v.pb.v.not else v.pb.v
  { pred := some { v := f p q } }

/-- R254: and. -/
def execPand (x : X96) (s : State) : Host.Outcome State Fault Refusal := alu s 0x50 x.op {} fun _ _ _ _ v => predOut x.op Tri.and v
/-- R254: or. -/
def execPor (x : X96) (s : State) : Host.Outcome State Fault Refusal := alu s 0x51 x.op {} fun _ _ _ _ v => predOut x.op Tri.or v
/-- R254: exclusive or. -/
def execPxor (x : X96) (s : State) : Host.Outcome State Fault Refusal := alu s 0x52 x.op {} fun _ _ _ _ v => predOut x.op Tri.xor v
/-- R254: not. -/
def execPnot (x : X96) (s : State) : Host.Outcome State Fault Refusal := alu s 0x53 x.op {} fun _ _ _ _ v => { pred := some { v := v.pa.v.not } }

/-- The value of field `i` of a predicate word (R255). -/
def psetField (b : Bool) (a : SV) (i : Nat) : Tri :=
  let k := (readK 32 0 a).1
  let one (n : Nat) : Tri := match n with | 0 => .f | 1 => .t | _ => if b then .u else .t
  if b then
    match bitAt k (2 * i), bitAt k (2 * i + 1) with
    | .u, _ => .u
    | _, .u => .u
    | l, h => one ((if l = .t then 1 else 0) + (if h = .t then 2 else 0))
  else one (a.lo / 4 ^ i % 4)

/-- R255: predicates from a register. -/
def execPset (x : X96) (s : State) : Host.Outcome State Fault Refusal :=
  alu s 0x54 x.op {} fun _ _ _ b v =>
    { preds := ((List.range 7).filter fun i => x.op.imm16.testBit i).map fun i => (i, { v := psetField b (sv1 v.a) i })
      -- an A that is not well formed reads as TOP with WID (R98)
      fl := if b then (readI 2 (sv1 v.a)).2.2 else 0 }

/-- p0 to p6 as PGET writes them, with 0b01 for p7 (R255). -/
def predWord (l : Lane) : Nat := (List.range 7).foldl (fun n i => n + (l.pred i).v.num * 4 ^ i) 0x4000

/-- What PGET writes in a thread; E from the predicates read (R375). -/
def pgetOut (l : Lane) : List SV :=
  let tag : Bool := l.bounds && (List.range 7).any fun p => (l.pred p).e
  [{ svConst (predWord l) with e := tag }]

/-- R255: predicates into a register. -/
def execPget (x : X96) (s : State) : Host.Outcome State Fault Refusal :=
  issue s 12 x.g (perActive x.g) 1 (fun _ _ _ => false) fun _ s e =>
    match (if e.active x.g = [] then none else e.regTrap x.op (rowAt 0x55 x.op) (maskOf (e.active x.g))) with
    | some t => .error t
    | none => .ok (e.done 12 (s.modWarp e.k e.slot fun _ => e.warp.writeVecs x.op.d 32 ((e.active x.g).map fun i => (i, pgetOut (e.warp.lane i)))))

/-! ## Moves -/

/-- R211: copy one register (C32). -/
def execMovC32 (x : C32R) (s : State) : Host.Outcome State Fault Refusal := alu s 0x58 (x.op 0) {} fun _ _ _ _ v => copyOut (sv1 v.a)
/-- R211: copy one register. -/
def execMov (x : X96) (s : State) : Host.Outcome State Fault Refusal := alu s 0x58 x.op {} fun _ _ _ _ v => copyOut (sv1 v.a)

/-- R212: I12 sign-extended to 32 bits. -/
def execMoviC32 (x : C32I) (s : State) : Host.Outcome State Fault Refusal :=
  alu s 0x59 x.op { stamp0 := true } fun _ _ _ _ _ => { vals := [svConst (wrapNat 32 (sIntOf 12 x.op.lit))] }

/-- Value of MOVI's IMM16 in its type (R60, R212, R75). -/
def moviValue (x : Op) : Nat :=
  if x.type = 5 then x.imm16 * 65536
  else if x.type = 2 ∨ x.type = 13 ∨ x.type = 7 ∨ x.type = 8 then x.imm16
  else wrapNat 32 (sIntOf 16 x.imm16)

/-- R212: a 16-bit constant in its type. -/
def execMovi (x : X96) (s : State) : Host.Outcome State Fault Refusal :=
  alu s 0x59 x.op { stamp0 := true } fun _ _ _ _ _ => { vals := [svConst (moviValue x.op)] }

/-- R213: a 32-bit or 64-bit literal. -/
def execMovl (x : Long) (s : State) : Host.Outcome State Fault Refusal :=
  alu s 0x5A (x.op 0) { stamp0 := true } fun _ _ _ _ _ => { vals := [svConst (x.op 0).lit] }

/-- R214: read a special register, CYCLE as at issue. -/
def execSrd (x : X96) (s : State) : Host.Outcome State Fault Refusal :=
  alu s 0x5B x.op { stamp0 := true } fun s e lane b _ =>
    let v := special s e x.op.a lane
    copyOut (if b then v else svElem v)

/-! ## SWR and REGION -/

/-- FPMODE as stored (R86). -/
def fpmodeOf (n : Nat) : Word := BitVec.ofNat 32 (n / 256 % 128 * 256 + (if n % 8 ≤ 4 then n % 8 else 0))

/-- A write of a special register: values by lane, the first taken once for FPMODE, IX and EXEC (R215). -/
def swrWrite (e : Env) (code : Nat) (vals : List (Nat × Nat)) : Warp :=
  let v := (vals.map (·.2)).headD 0
  match code with
  | 84 => { e.warp with fpmode := fpmodeOf v }
  | 85 => vals.foldl (fun w p => w.modLane p.1 fun l => { l with fpflags := BitVec.ofNat 32 (p.2 % 128) }) e.warp
  | 92 => { e.warp with ix := BitVec.ofNat 32 v }
  | _ => (e.warp.gangSlices e.gid).foldl (fun w i => w.setExec i (BitVec.ofNat 32 v)) e.warp

/-- What FPMODE or FPFLAGS takes from an interval that is not a point: the manual states no value, so a free one (log 17). -/
def settledValue (s : State) (e : Env) (p : Nat × SV) : Nat × Nat :=
  (p.1, if (e.warp.lane p.1).bounds ∧ p.2.lo ≠ p.2.hi then (Config.freeWord (s.freeCtr + p.1)).toNat else p.2.lo)

/-- A uniform operand is taken once. -/
def swrOnce (o : Op) : Bool := o.immb || (o.bka && !(perThread o.a))

/-- The threads whose values SWR takes: every active one for FPFLAGS; an unguarded once-write acts with EXEC zero, as lane 0 reads it. -/
def swrWho (e : Env) (o : Op) : List Nat :=
  let act := e.active o.g
  if o.d = 85 then act else if swrOnce o then (if unguarded o.g || !act.isEmpty then [act.headD 0] else []) else act.take 1

/-- Their operand values. -/
def swrVals (s : State) (e : Env) (o : Op) : List (Nat × SV) :=
  (swrWho e o).map fun i => (i, sv1 (Env.srcs s e o (rowAt 0x5C o) (litInt o false 32) i).a)

/-- IX or EXEC from a value that is not a point: reason 4 of R202. -/
def swrVague (s : State) (e : Env) (o : Op) : Bool :=
  (o.d = 92 ∨ o.d = 93) ∧ (swrVals s e o).any fun p => (e.warp.lane p.1).bounds && decide (p.2.lo ≠ p.2.hi)

/-- What SWR leaves of the warp. -/
def swrWarp (s : State) (e : Env) (o : Op) : Warp :=
  swrWrite { e with warp := e.warp.free (e.frees o (rowAt 0x5C o)) } o.d ((swrVals s e o).map (settledValue s e))

/-- R215: write FPMODE, FPFLAGS, IX or EXEC. -/
def execSwr (x : X96) (s : State) : Host.Outcome State Fault Refusal :=
  let o := x.op
  issue s 12 x.g (if swrOnce o && o.d ≠ 85 then oneCycle else perActive x.g) 1 (fun _ _ _ => false) fun _ s e =>
    let r := rowAt 0x5C o
    match swrWho e o with
    | [] => .ok (e.done 12 (e.freed o r s))
    | _ => match e.regTrap o r (maskOf (e.active x.g)) with
      | some t => .error { t with reason := if swrVague s e o then min 4 t.reason else t.reason }
      | none =>
        if swrVague s e o then .error { cls := 4, reason := 4, mask := maskOf (e.active x.g) }
        else
          let s1 := e.done 12 (s.modWarp e.k e.slot fun _ => swrWarp s e o)
          .ok { s1 with freeCtr := s1.freeCtr + 32 }

/-- Names REGION lists (R206). -/
def regionNames (x : Op) : List Nat :=
  match x.form with
  | .x160 => ((List.range 4).flatMap fun k =>
      let win := x.lit / 65536 ^ k % 65536
      (List.range 8).filterMap fun i => if (win / 256).testBit i then some (win % 256 + i) else none).eraseDups
  | _ => (List.range 16).filterMap fun i => if x.imm16.testBit i then some (x.a + i) else none

/-- R206: declare the operand buffer's names; a guard that fails in every thread leaves it unchanged. -/
def execRegion (x : Long) (s : State) : Host.Outcome State Fault Refusal :=
  let o := x.op 0
  issue s o.form.bytes o.g oneCycle 1 (fun _ _ _ => false) fun _ s e =>
    .ok (e.done o.form.bytes (if unguarded o.g || !(e.active o.g).isEmpty then
        s.modWarp e.k e.slot fun w => { w with opbuf := (regionNames o).filter (· < e.team.n) }
      else s))

end Sys2Proof.Machine
end

