-- ==== Sys2Proof/Machine/Control.lean ====
section
/-!
DEFINITION. Control flow (R334 to R344), SLEEP, and the two instructions that end a bounds thread (R384, R385).
-/
namespace Sys2Proof.Machine

/-- The control trap: class 6, TRAPMASK the active threads (R344). -/
def ctlTrap (e : Env) (reason : Nat) : Trap := { cls := 6, reason := reason, mask := maskOf e.lanes }

/-- Stack of a slice as the gang uses it. -/
def Env.stk (e : Env) (i : Nat) : List Entry := (e.warp.slice i).stk e.handling
def Env.slices (e : Env) : List Nat := e.warp.gangSlices e.gid
/-- Active lanes of a slice, guard aside. -/
def Env.sliceExec (e : Env) (i : Nat) : List Nat := (laneIds i).filter fun l => (e.warp.lane l).exec && (e.warp.lane l).live

/-- A control instruction issues: 1 cycle (R326), events of its guard, then `f`. -/
def control (s : State) (len : Nat) (g : Guard) (ev : Env → Nat → Bool) (f : State → Env → Except Trap State) : Host.Outcome State Fault Refusal :=
  issue s len g oneCycle 1 (fun _ => ev) fun _ => f

/-- The gang's warp becomes `w`, its PCs set; `len` gives the fall-through address. -/
def Env.goto (e : Env) (s : State) (len : Nat) (w : Warp) : State :=
  (s.modWarp e.k e.slot fun _ => w).settleGang e.k e.slot e.gid (e.pc + BitVec.ofNat 64 len)

/-- Set the PC of every slice of the gang. -/
def Env.allTo (e : Env) (a : DWord) : Warp := e.slices.foldl (fun w i => w.modSlice i fun x => { x with pc := a }) e.warp

/-! ## Branches decided per thread (R329) -/

/-- What a slice does at a branch: nothing active, one destination, or a split with its first group, the other lanes, PCD and reuse. -/
inductive Decision where
  | fall
  | whole (dst : DWord)
  | split (dst : DWord) (first others : List Nat) (pcd : DWord) (reuse : Bool)
  deriving DecidableEq, Repr

/-- Entries the decision pushes. -/
def Decision.pushes : Decision → Nat
  | .split _ _ _ _ false => 1
  | _ => 0

/-- The decision of a slice: `dest` by lane, `lead` the lanes whose guard passes. -/
def Env.decideSlice (e : Env) (i : Nat) (dest : Nat → DWord) (lead : Nat → Bool) (pcd : DWord) (mayReuse : Bool) : Decision :=
  match e.sliceExec i with
  | [] => .fall
  | l :: rest =>
    if rest.all fun j => dest j = dest l then .whole (dest l)
    else
      let dst := match (l :: rest).find? lead with | some j => dest j | none => dest l
      let reuse : Bool := mayReuse && (match e.stk i with | .split p _ _ true _ :: _ => decide (p = pcd) | _ => false)
      .split dst ((l :: rest).filter fun j => dest j = dst) ((l :: rest).filter fun j => dest j ≠ dst) pcd reuse

/-- Apply a decision (R329, R336). -/
def Warp.apply (w : Warp) (i : Nat) (h : Bool) (fall : DWord) : Decision → Warp
  | .fall => w.modSlice i fun x => { x with pc := fall }
  | .whole dst => w.modSlice i fun x => { x with pc := dst }
  | .split dst first others pcd reuse =>
    let mall := w.execMask i
    let st := (w.slice i).stk h
    let st := match reuse, st with
      | true, .split p _ m _ j :: rest => .split p (maskOf others) m false j :: rest
      | _, _ => .split pcd (maskOf others) mall false none :: st
    (w.setExec i (maskOf first)).modSlice i fun x => { x.setStk h st with pc := dst }

/-- A target that is not a word address, or not canonical (R336). -/
def badTarget (a : DWord) : Bool := a.toNat % 4 ≠ 0 || !canonical a.toNat

/-- Displacement target: the instruction's address + 4 × a signed displacement of `w` bits (R335). -/
def relTarget (pc : DWord) (w v : Nat) : DWord := BitVec.ofInt 64 ((pc.toNat : Int) + 4 * sIntOf w v)

/-- The decision of BR in a slice (R335). -/
def brDecision (e : Env) (g : Guard) (dst fall : DWord) (i : Nat) : Decision :=
  e.decideSlice i (fun j => if (e.active g).contains j then dst else fall) (fun j => (e.active g).contains j) fall false

/-- BR (R335): uniform without a guard; otherwise per thread, the taken path first. -/
def branch (s : State) (x : Op) (w : Nat) : Host.Outcome State Fault Refusal :=
  control s x.form.bytes x.g (fun _ _ => false) fun s e =>
    let dst := relTarget e.pc w x.lit
    let fall := e.pc + BitVec.ofNat 64 x.form.bytes
    if unguarded x.g then .ok (e.goto s x.form.bytes (e.allTo dst))
    else
      let ds := e.slices.map fun i => (i, brDecision e x.g dst fall i)
      if ds.any fun d => 16 < (e.stk d.1).length + d.2.pushes then .error (ctlTrap e 1)
      else .ok (e.goto s x.form.bytes (ds.foldl (fun w d => w.apply d.1 e.handling fall d.2) e.warp))

/-- R335 (C32). -/
def execBrC32 (x : C32J) (s : State) : Host.Outcome State Fault Refusal := branch s x.op 18
/-- R335 (L64). -/
def execBrL64 (x : L64) (s : State) : Host.Outcome State Fault Refusal := branch s (x.op 0) 32

/-- The pair A of an indirect branch is the same for the warp. -/
def uniformA (x : Op) : Bool := x.bka && !(perThread x.a)

/-- The target that BRI or CALLI reads for a thread, and the decision in a slice: one target for the warp where A is uniform and there is
no guard, else by thread (R336, R337). -/
def indirectTarget (s : State) (e : Env) (opc : Nat) (x : Op) (j : Nat) : DWord := BitVec.ofNat 64 (sv1 (Env.srcs s e x (rowAt opc x) 0 j).a).lo
def indirectDecision (s : State) (e : Env) (opc : Nat) (x : Op) (i : Nat) : Decision :=
  let pass := e.active x.g
  if uniformA x && unguarded x.g then .whole (indirectTarget s e opc x (pass.headD 0))
  else e.decideSlice i (fun j => if pass.contains j then indirectTarget s e opc x j else e.pc + BitVec.ofNat 64 x.form.bytes)
    (fun j => pass.contains j) e.pc true

/-- The targets that must be addresses of instructions. -/
def indirectTargets (s : State) (e : Env) (opc : Nat) (x : Op) : List DWord :=
  let pass := e.active x.g
  if uniformA x && unguarded x.g then [indirectTarget s e opc x (pass.headD 0)] else pass.map (indirectTarget s e opc x)

/-- The entry that a call adds where its slice does not fall through. -/
def Decision.calls (call : Bool) (d : Decision) : Bool := call && decide (d ≠ .fall)

/-- BRI and CALLI (R336, R337). -/
def branchTo (s : State) (opc : Nat) (call : Bool) (x : Op) : Host.Outcome State Fault Refusal :=
  let r := rowAt opc x
  control s x.form.bytes x.g (fun e j => let v := sv1 (Env.srcs s e x r 0 j).a; v.lo ≠ v.hi || v.e) fun s e =>
    let len := x.form.bytes
    let fall := e.pc + BitVec.ofNat 64 len
    let pass := e.active x.g
    match (if uniformA x && unguarded x.g || !pass.isEmpty then e.regTrap x r (maskOf pass) else none) with
    | some t => .error t
    | none =>
      let ds := e.slices.map fun i => (i, indirectDecision s e opc x i)
      if ds.any fun d => 16 < (e.stk d.1).length + d.2.pushes + (if d.2.calls call then 1 else 0) then .error (ctlTrap e 1)
      else if (indirectTargets s e opc x).any badTarget then .error (ctlTrap e 6)
      else .ok (e.goto s len (ds.foldl (fun w d =>
        let w := w.apply d.1 e.handling fall d.2
        if d.2.calls call then w.modSlice d.1 fun y => y.setStk e.handling (.call fall :: y.stk e.handling) else w) e.warp))

/-- R336 (C32). -/
def execBriC32 (x : C32R) (s : State) : Host.Outcome State Fault Refusal := branchTo s 0x03 false (x.op 0)
/-- R336. -/
def execBri (x : X96) (s : State) : Host.Outcome State Fault Refusal := branchTo s 0x03 false x.op
/-- R337 (C32). -/
def execCalliC32 (x : C32R) (s : State) : Host.Outcome State Fault Refusal := branchTo s 0x05 true (x.op 0)
/-- R337. -/
def execCalli (x : X96) (s : State) : Host.Outcome State Fault Refusal := branchTo s 0x05 true x.op

/-- CALL (R337): every slice pushes its return address. -/
def callRel (s : State) (x : Op) (w : Nat) : Host.Outcome State Fault Refusal :=
  control s x.form.bytes x.g (fun _ _ => false) fun s e =>
    if e.slices.any fun i => 16 ≤ (e.stk i).length then .error (ctlTrap e 1)
    else
      let ra := e.pc + BitVec.ofNat 64 x.form.bytes
      .ok (e.goto s x.form.bytes (e.slices.foldl (fun w i => w.modSlice i fun y => y.setStk e.handling (.call ra :: y.stk e.handling))
        (e.allTo (relTarget e.pc w x.lit))))

/-- R337 (C32). -/
def execCallC32 (x : C32J) (s : State) : Host.Outcome State Fault Refusal := callRel s x.op 18
/-- R337 (L64). -/
def execCallL64 (x : L64) (s : State) : Host.Outcome State Fault Refusal := callRel s (x.op 0) 32

/-- R337: pop a call entry in every slice. -/
def execRet (x : C32R) (s : State) : Host.Outcome State Fault Refusal :=
  control s 4 x.g (fun _ _ => false) fun s e =>
    let isCall (i : Nat) : Bool := match e.stk i with | .call _ :: _ => true | _ => false
    if e.slices.all isCall then
      .ok (e.goto s 4 (e.slices.foldl (fun w i => match e.stk i with
        | .call ra :: rest => w.modSlice i fun y => { y.setStk e.handling rest with pc := ra }
        | _ => w) e.warp))
    else .error (ctlTrap e 2)

/-- A slice runs on with the EXEC bits `m`: a live thread is among them, or they name no lane of it (R331, R338, R339). -/
def Warp.runs (w : Warp) (i : Nat) (m : Mask) : Bool :=
  (laneIds i).all (fun j => !m.getLsbD j) || (laneIds i).any fun j => m.getLsbD j && (w.lane j).live

/-- A slice unwinds when every thread among the lanes `m` of its new running path has exited. -/
def Warp.markEmpty (w : Warp) (i : Nat) (m : Mask) : Warp :=
  if w.runs i m then w
  else w.modSlice i fun x => { x with ended := true }

/-- The lanes that the join action gives a slice: the deferred path's, then those of the entry (R331). -/
def joinMask (st : List Entry) : Mask := match st with
  | .split _ md _ false _ :: _ => md
  | .split _ _ mall true _ :: _ => mall
  | _ => 0

/-- R338: the join action in each slice with a split entry on top. -/
def execJoin (x : C32R) (s : State) : Host.Outcome State Fault Refusal :=
  control s 4 x.g (fun _ _ => false) fun s e =>
    let isCall (i : Nat) : Bool := match e.stk i with | .call _ :: _ => true | _ => false
    let next := e.pc + 4#64
    if e.slices.any isCall then .error (ctlTrap e 2)
    else .ok (e.goto s 4 (e.slices.foldl (fun w i => match e.stk i with
      | [] => w.modSlice i fun y => { y with pc := next }
      | st => (w.joinAction i e.handling (some e.pc) next).markEmpty i (joinMask st)) e.warp))

/-- R339: exchange the running and the deferred path; the gang goes to the back of its way's order. -/
def execYield (x : C32R) (s : State) : Host.Outcome State Fault Refusal :=
  control s 4 x.g (fun _ _ => false) fun s e =>
    let next := e.pc + 4#64
    let w := e.slices.foldl (fun w i => match e.stk i with
      | .split pcd md mall false j :: rest =>
        ((w.setExec i md).modSlice i fun y => { y.setStk e.handling (.split next (e.warp.execMask i) mall false j :: rest) with pc := pcd }).markEmpty i md
      | _ => w.modSlice i fun y => { y with pc := next }) e.warp
    let s := s.modCore e.k fun (c : Core) => { c with order := c.order.filter (· ≠ (e.slot, e.gid)) ++ [(e.slot, e.gid)] }
    .ok (e.goto s 4 w)

/-! ## REGANG and REGROUP at issue (R341, R342) -/

/-- REGANG: checked at issue, then stalled until the merge; a mask of the gang's own slices merges at once. -/
def regangAt (s : State) (e : Env) (len mask : Nat) : Except Trap State :=
  if 2 ^ (e.w / 4) ≤ mask ∨ e.slices.any (fun i => !mask.testBit i) then .error (ctlTrap e 3)
  else if (List.range 8).all fun i => !mask.testBit i || !(e.warp.sliceLive i) || e.slices.contains i then .ok (e.done len s)
  else .ok (e.stall (.regang mask len) s)

/-- The value of an operand that must be one number: in a bounds thread one that is not a point is open (log 17). -/
def pointOf (s : State) (v : SV) : Nat := if v.lo = v.hi then v.lo else v.lo + (Config.freeWord s.freeCtr).toNat % (v.hi + 1 - v.lo)

/-- Move the counter of free values on. -/
def State.drawn (s : State) (n : Nat) : State := { s with freeCtr := s.freeCtr + n }

/-- The value of a uniform A, or the literal (R334). -/
def uniA (s : State) (opc : Nat) (x : Op) : Nat :=
  match s.env? with
  | none => 0
  | some e => pointOf s (sv1 (Env.srcs s e x (rowAt opc x) (litInt x false 32) ((e.active x.g).headD 0)).a)

/-- R341 (C32). -/
def execRegangC32 (x : C32I) (s : State) : Host.Outcome State Fault Refusal :=
  control s 4 x.g (fun _ _ => false) fun s e => regangAt s e 4 x.op.lit
/-- R341. -/
def execRegang (x : X96) (s : State) : Host.Outcome State Fault Refusal :=
  control s 12 x.g (fun _ _ => false) fun s e => match e.regTrap x.op (rowAt 0x09 x.op) (maskOf e.lanes) with
    | some t => .error t
    | none => regangAt (s.drawn 1) e 12 (uniA s 0x09 x.op)

/-- A partner warp of the same team that still has a live thread. -/
def Core.partner (c : Core) (team warpId : Nat) : Option (Nat × Warp) :=
  c.warps.find? fun p => p.2.team = team ∧ p.2.warpId = warpId ∧ p.2.lanes.any (·.live)

/-- Write a predicate in the active threads of a gang. -/
def Env.setPred (e : Env) (s : State) (p : Nat) (v : Bool) : State :=
  s.modWarp e.k e.slot fun w => e.lanes.foldl (fun w i => w.writePred i p { v := .ofBool v }) w

/-- REGROUP: waits for the warp's store queue, then its own checks, then for the partner (R342 steps 1 and 2). -/
def regroup (s : State) (x : Op) : Host.Outcome State Fault Refusal :=
  control s x.form.bytes x.g (fun _ _ => false) fun s e =>
    match e.regTrap x (rowAt 0x0A x) (maskOf e.lanes) with
    | some t => .error t
    | none =>
      let partner := uniA s 0x0A x
      let s := s.drawn 1
      if e.warp.sq ≠ [] then .ok (e.stall .retry s)
      else if partner = e.warp.warpId ∨ e.team.teamW ≤ partner ∨ 1 < e.warp.gangs.length ∨ e.slices.any (fun i => e.stk i ≠ []) then
        .error (ctlTrap e 4)
      else match (s.core e.k).partner e.warp.team partner with
        | none => .ok (e.done x.form.bytes (e.setPred s (x.d % 8) false))
        | some _ => .ok (e.stall (.regroup partner (x.d % 8) x.form.bytes) s)

/-- R342 (C32). -/
def execRegroupC32 (x : C32R) (s : State) : Host.Outcome State Fault Refusal := regroup s (x.op 0)
/-- R342. -/
def execRegroup (x : X96) (s : State) : Host.Outcome State Fault Refusal := regroup s x.op

/-! ## EXIT, BKPT, NOP, SLEEP -/

/-- R340: each active thread ends. -/
def execExit (x : C32R) (s : State) : Host.Outcome State Fault Refusal :=
  control s 4 x.g (fun _ _ => false) fun s e => .ok (e.done 4 (s.endThreads e.k e.slot (e.active x.g)))

/-- R343: the breakpoint trap. -/
def execBkpt (x : C32R) (s : State) : Host.Outcome State Fault Refusal :=
  control s 4 x.g (fun _ _ => false) fun s e =>
    let act := e.active x.g
    if unguarded x.g || !act.isEmpty then .error { cls := 6, reason := 5, mask := maskOf act } else .ok (e.done 4 s)

/-- R343. -/
def execNop (x : C32R) (s : State) : Host.Outcome State Fault Refusal :=
  control s 4 x.g (fun _ _ => false) fun s e => .ok (e.done 4 s)

/-- R343: past the SLEEP at once, and not ready before the die's cycle. -/
def execSleep (x : X96) (s : State) : Host.Outcome State Fault Refusal :=
  control s 12 x.g (fun _ _ => false) fun s e =>
    match e.regTrap x.op (rowAt 0x0D x.op) (maskOf e.lanes) with
    | some t => .error t
    | none =>
      let n := uniA s 0x0D x.op
      let s1 := e.done 12 (s.drawn 1)
      .ok (if n = 0 then s1 else e.stall (.sleep ((s.die (dieOf e.k)).cycle + n)) s1)

/-! ## QUARTER and HANDOFF -/

/-- R384: each active bounds thread takes an event. -/
def execQuarter (x : C32R) (s : State) : Host.Outcome State Fault Refusal :=
  control s 4 x.g (fun _ _ => true) fun s e => .ok (e.done 4 s)

/-- HANDOFF (R385): the bounds threads whose guard is not settled false end and hand off; while a thread waits for a bin of the core, the gang
stalls (R359). -/
def handoffWith (s : State) (len : Nat) (g : Guard) (payload : State → Env → Except Trap (Option Word)) : Host.Outcome State Fault Refusal :=
  instr2 s len fun e0 =>
    let s := s.charge e0.k e0.slot 1 1
    let e := (s.envOf e0.k e0.slot e0.gid).getD e0
    match payload s e with
    | .error t => (s, some t)
    | .ok p =>
      let evs := e.events g fun _ => true
      if evs ≠ [] ∧ (s.core e.k).placing ≠ [] then (e.stall .retry s, none)
      else
        let s1 := s.takeEvents e true p evs
        (((s1.envOf e.k e.slot e.gid).getD e).done len s1, none)

/-- R385 (C32): no payload. -/
def execHandoffC32 (x : C32R) (s : State) : Host.Outcome State Fault Refusal := handoffWith s 4 x.g fun _ _ => .ok none
/-- R385: a uniform payload, dropped when it is not a point or has E = 1. -/
def execHandoff (x : X96) (s : State) : Host.Outcome State Fault Refusal :=
  handoffWith s 12 x.g fun s e =>
    let r := rowAt 0x16 x.op
    let act := e.events x.g fun _ => true
    match act with
    | [] => .ok none
    | i :: _ => match e.regTrap x.op r (maskOf act) with
      | some t => .error t
      | none =>
        let v := sv1 (Env.srcs s e x.op r 0 i).a
        .ok (if v.lo = v.hi ∧ ¬ v.e then some (BitVec.ofNat 32 v.lo) else none)

end Sys2Proof.Machine
end

