-- ==== Sys2Proof/Machine/Bind.lean ====
section
/-!
DEFINITION. Where bytes live and how loads bind them (R139 to R141, R172 to R175, R178), scratchpad addresses and the window (R138,
R140), store-queue entries, and the race tracker of deterministic launches (R189 to R191).
-/
namespace Sys2Proof.Machine

/-! ## Scratchpad and barrier objects -/

/-- The 16 bytes of an object as loads read them (R141). -/
def BObj.bytes (o : BObj) : List Byte :=
  natLe 4 0 ++ natLe 4 o.phcnt ++ natLe 2 o.init ++ natLe 2 o.arrv ++ natLe 4 (wrapNat 32 o.pendb)

/-- A scratchpad byte by core offset: a tagged granule reads as its object. -/
def Core.scrByte (c : Core) (off : Nat) : Byte :=
  match alook (off / 16 * 16) c.objs with
  | some o => o.bytes.getD (off % 16) 0
  | none => (alook off c.scr).getD 0

/-- Write scratchpad bytes at home; 0 is unlisted. -/
def Core.scrWrite (c : Core) (off : Nat) (bs : List Byte) : Core := { c with scr := memWrite c.scr off bs }

/-- A tagged granule meets the bytes (R143). -/
def Core.tagged (c : Core) (off n : Nat) : Bool := c.objs.any fun p => decide (p.1 < off + n ∧ off < p.1 + 16)

/-- Number of the 32-byte sector of a place; the weight store has none. -/
def Place.sector : Place → Option Nat
  | .mem pa => some (pa / 32)
  | .scr k off => some (2 ^ 40 + k * 2 ^ 16 + off / 32)
  | .sys a => some (2 ^ 60 + a / 32)
  | .ws _ => none

/-! ## Homes -/

/-- One byte at its home. -/
def State.homeByte (s : State) (die : Nat) (p : Place) (i : Nat) : Byte :=
  match p with
  | .mem pa => memByte s.hbm (pa + i)
  | .scr k off => (s.core k).scrByte (off + i)
  | .sys a => memByte s.sysMem (a + i)
  | .ws off => (alook (off + i) (s.die die).ws).getD 0

/-- `n` bytes at their home. -/
def State.homeBytes (s : State) (die : Nat) (p : Place) (n : Nat) : List Byte := (List.range n).map (s.homeByte die p)

/-- Apply bytes at their home. -/
def State.homeWrite (s : State) (p : Place) (bs : List Byte) : State :=
  match p with
  | .mem pa => s.memApply pa bs
  | .scr k off => s.modCore k fun c => c.scrWrite off bs
  | .sys a => { s with sysMem := memWrite s.sysMem a bs }
  | .ws _ => s

/-- Update any copy of the sector in a core's view; its stamp stays (R176, R179, R186). -/
def Core.cvUpdate (c : Core) (pa : Nat) (bs : List Byte) : Core :=
  match alook (pa / 32) c.cv with
  | some v => { c with cv := aput (pa / 32) { v with data := (v.data.zipIdx).map fun b =>
      let at' := pa / 32 * 32 + b.2
      if pa ≤ at' ∧ at' < pa + bs.length then bs.getD (at' - pa) b.1 else b.1 } c.cv }
  | none => c

/-- Fetch of a memory sector: the home value stamped with the core's CYCLE (R178). -/
def State.fetchSector (s : State) (k sector : Nat) : State :=
  let bs := memRead s.hbm (32 * sector) 32
  let st := s.cycleOf k
  s.modCore k fun (c : Core) => { c with cv := aput sector { data := bs, stamp := st } c.cv }

/-! ## Binding a load (R175) -/

/-- Byte `i` of an entry's bytes, when it lies in the entry. -/
def WEnt.covers (w : WEnt) (p : Place) (i : Nat) : Option Nat :=
  let inside (a b : Nat) : Option Nat := if a ≤ b + i ∧ b + i < a + w.data.length then some (b + i - a) else none
  match w.place, p with
  | .mem a, .mem b => inside a b
  | .sys a, .sys b => inside a b
  | .scr k a, .scr k' b => if k = k' then inside a b else none
  | _, _ => none

/-- The youngest entry that covers a byte. -/
def youngest (q : List WEnt) (p : Place) (i : Nat) : Option (WEnt × Nat) :=
  q.foldl (fun m w => match w.covers p i with | some j => some (w, j) | none => m) none

/-- An entry that carries bytes rather than an operand. -/
def WEnt.isStore (w : WEnt) : Bool := match w.kind with | .store => true | _ => false

/-- One byte of a load: byte, stamp, or that a pending reduction covers it. -/
inductive Bound where
  | val (b : Byte) (stamp : Nat)
  | blocked
  | home
  deriving DecidableEq, Repr

/-- Steps 1 and 2 of R175. -/
def bindQueues (sq ob : List WEnt) (p : Place) (i : Nat) : Bound :=
  match youngest sq p i with
  | some (w, j) => if w.isStore then .val (w.data.getD j 0) 0 else .blocked
  | none => match youngest ob p i with
    | some (w, j) => if w.isStore then .val (w.data.getD j 0) 0 else .blocked
    | none => .home

/-- Bind `n` bytes of one sector: the bytes with the largest stamp, a state in which a Fetch may have been made; none while a
reduction is pending. `d` is the stamp of the address. -/
def State.bindLoad (s : State) (k slot : Nat) (p : Place) (n d : Nat) : Option (List Byte × Nat × State) :=
  match s.warp? k slot with
  | none => none
  | some w =>
    let bs := (List.range n).map (bindQueues w.sq (s.core k).ob p)
    if bs.contains .blocked then none
    else
      let need := bs.contains .home
      match p with
      | .mem pa =>
        let sec := pa / 32
        let least := max d w.floor
        let s1 := if need then (match alook sec (s.core k).cv with
          | some v => if least ≤ v.stamp then s else s.fetchSector k sec
          | none => s.fetchSector k sec) else s
        let v := (alook sec (s1.core k).cv).getD { data := [], stamp := 0 }
        some (bs.zipIdx.map (fun b => match b.1 with | .val x _ => x | _ => v.data.getD (pa % 32 + b.2) 0), if need then v.stamp else 0, s1)
      | .sys _ => some (bs.zipIdx.map (fun b => match b.1 with | .val x _ => x | _ => s.homeByte (dieOf k) p b.2), if need then s.cycleOf k else 0, s)
      | _ => some (bs.zipIdx.map (fun b => match b.1 with | .val x _ => x | _ => s.homeByte (dieOf k) p b.2), 0, s)

/-- An acquire at a scope (R183). -/
def State.acquire (s : State) (k slot scope : Nat) : State :=
  if 2 ≤ scope then (let now := s.cycleOf k; s.modWarp k slot fun w => { w with floor := now }) else s

/-! ## Store queue -/

/-- Append an entry to a warp's store queue, numbered on the core. -/
def State.pushSq (s : State) (k slot : Nat) (e : WEnt) : State :=
  s.modCore k fun (c : Core) =>
    { (c.modWarp slot fun w => { w with sq := w.sq ++ [{ e with seq := c.seq }] }) with seq := c.seq + 1 }

/-! ## The race tracker -/

/-- Key of a tracked sector. -/
def Place.track : Place → Option Nat
  | .mem pa => some (pa / 32)
  | .scr k off => some (2 ^ 40 + k * 2 ^ 16 + off / 32)
  | _ => none

/-- Reason of a conflict of an access with what the tracker holds of a sector (R190, R191): kind 0 read, 1 write, 2 reduction `op`. -/
def raceOf (ts : List Track) (agent : Nat) (c : Clock) (kind op : Nat) : Option Nat :=
  let hit := ts.filter fun t => decide (t.agent ≠ agent)
    && (match alook t.agent c with | some n => decide (n < t.epoch) | none => true)
    && decide (kind ≠ 0 ∨ t.kind ≠ 0) && !decide (kind = 2 ∧ t.kind = 2 ∧ op = t.op)
  match hit with
  | [] => none
  | _ => some (if kind = 0 then 1 else if hit.any fun t => t.kind ≠ 0 then 2 else 3)

/-- The tracker after an access. -/
def trackAdd (ts : List Track) (t : Track) : List Track :=
  if t.kind = 1 then [t] else ts.filter (fun x => ¬ (x.agent = t.agent ∧ x.kind = t.kind ∧ x.op = t.op)) ++ [t]

/-- Record an access of a gang at a place. -/
def State.track (s : State) (e : Env) (p : Place) (kind op : Nat) : State :=
  match p.track with
  | none => s
  | some key =>
    let t : Track := { agent := e.gang.agent, epoch := Clock.epoch e.gang.clock e.gang.agent, kind := kind, op := op, uid := e.team.uid.getD 0, team := e.team.first }
    { s with tracks := aput key (trackAdd ((alook key s.tracks).getD []) t) s.tracks }

end Sys2Proof.Machine
end

