-- ==== Sys2Proof/Machine/Objects.lean ====
section
/-!
DEFINITION. Barrier objects at their homes (R141 to R144, R147): updates with Complete, and who an update releases.
-/
namespace Sys2Proof.Machine

/-- Complete (R142). -/
def BObj.complete (o : BObj) : BObj :=
  if o.arrv = 0 ∧ o.pendb = 0 then { o with phcnt := (o.phcnt + 1) % 2 ^ 32, arrv := o.init, clock := o.pend, pend := [] } else o

/-- PHASE. -/
def BObj.phase (o : BObj) : Bool := decide (o.phcnt % 2 = 1)

/-- An update of an object. -/
inductive BUpd where
  /-- BOEXP. -/
  | expect (n : Nat)
  /-- BOARR, and the arrival of a task. -/
  | arrive (n : Nat)
  /-- Bytes of a copy that landed. -/
  | landed (n : Nat)
  deriving DecidableEq, Repr

/-- A signed 32-bit value. -/
def fits32 (i : Int) : Bool := decide (-(2 ^ 31 : Nat) ≤ i ∧ i < ((2 ^ 31 : Nat) : Int))

/-- The object after an update; none when it breaks a bound of R148. -/
def BUpd.apply (u : BUpd) (c : Clock) (o : BObj) : Option BObj :=
  let o := { o with pend := Clock.join o.pend c }
  match u with
  | .expect n => if fits32 (o.pendb + n) then some { o with pendb := o.pendb + n }.complete else none
  | .arrive n => if n ≤ o.arrv then some { o with arrv := o.arrv - n }.complete else none
  | .landed n => if fits32 (o.pendb - n) then some { o with pendb := o.pendb - n }.complete else none

/-- A task as an accessing party. -/
def Task.party (s : State) (k : Nat) (t : Task) : Party :=
  { die := dieOf k, fw := isFw k, uid := t.uid
    ctx := match t.uid.bind s.launch with | some l => l.ctx | none => (s.die (dieOf k)).fwMode / 65536 % 4096 }

/-- The update that a held signal is. -/
def Held.upd (h : Held) : BUpd := match h.bytes with | some n => .landed n | none => .arrive 1

/-- An object as tasks of a token see it: its held signals applied in order (R161). -/
def Token.see (k : Token) (p : Nat × Nat) (o : BObj) : BObj :=
  k.held.foldl (fun o h => if (h.core, h.off) = p then
    (h.upd.apply h.clock o).getD o else o) o

/-- An object as a task sees it. -/
def Task.sees (t : Task) (tm : Team) (p : Nat × Nat) (o : BObj) : BObj :=
  match t.token with
  | some k => (tm.tokens.getD k {}).see p o
  | none => o

/-- A task's wait reference is satisfied: none is named, or PHASE ≠ PARITY (R144). -/
def State.waitMet (s : State) (k : Nat) (tm : Team) (t : Task) : Bool :=
  !t.wref.getLsbD 0 || (match s.refPlace k tm t.wref with
    | some p => (match s.obj? p with | some o => (t.sees tm p o).phase != t.wref.getLsbD 1 | none => false)
    | none => false)

/-- Threads of a gang in BOWAIT that the object at a place satisfies now stay satisfied (R147). -/
def Gang.tell (g : Gang) (p : Nat × Nat) (o : BObj) : Gang :=
  match g.wait with
  | .bowait left acq len fr =>
    let hit := left.any fun x => decide (x.2.1 = p.1 ∧ x.2.2.1 = p.2) && o.phase != x.2.2.2
    if hit then ({ g with wait := .bowait (left.filter fun x => ¬ (x.2.1 = p.1 ∧ x.2.2.1 = p.2 ∧ o.phase ≠ x.2.2.2)) acq len fr }).after o.clock else g
  | _ => g

/-- After an update, waiting gangs and tasks of the cluster test the object (R147, R151). -/
def State.tellAll (s : State) (p : Nat × Nat) (o : BObj) : State :=
  let ks := (List.range 4).map (corePeer p.1)
  { s with cores := s.cores.map fun c =>
      if isFw p.1 && c.1 ≠ p.1 || !isFw p.1 && !(ks.contains c.1) then c
      else (c.1, { c.2 with
        warps := c.2.warps.map fun w => (w.1, { w.2 with gangs := w.2.gangs.map fun g => g.tell p o })
        tasks := c.2.tasks.map fun t =>
          let seen : Option BObj := match alook t.2.slot c.2.teams with
            | some tm => if t.2.wref.getLsbD 0 ∧ s.refPlace c.1 tm t.2.wref = some p then some (t.2.sees tm p o) else none
            | none => none
          match t.2.state, seen.filter fun x => x.phase != t.2.wref.getLsbD 1 with
          | .waiting, some x => (t.1, { t.2 with state := .ready, clock := Clock.join t.2.clock x.clock })
          | _, _ => t }) }

/-- Apply an update at an object's home; one that no longer fits is dropped (log 21). -/
def State.updateObj (s : State) (p : Nat × Nat) (u : BUpd) (c : Clock) : State :=
  match (s.obj? p).bind (u.apply c) with
  | none => s
  | some o => (s.modCore p.1 fun (x : Core) => { x with objs := aput p.2 o x.objs }).tellAll p o

/-- Tag a granule with a fresh object, or free it: it then holds zero (R143, R146). -/
def State.tagObj (s : State) (p : Nat × Nat) (n : Nat) : State :=
  let o : BObj := { arrv := n, init := n }
  (s.modCore p.1 fun (x : Core) => { x with objs := aput p.2 o x.objs }).tellAll p o
def State.untagObj (s : State) (p : Nat × Nat) : State :=
  s.modCore p.1 fun (x : Core) => { x with objs := adel p.2 x.objs, scr := memWrite x.scr p.2 (natLe 16 0) }

/-- A gang waits on the object, or a task in a table references it (R148 reason 5). -/
def State.objBusy (s : State) (p : Nat × Nat) : Bool := s.cores.any fun c =>
  (c.2.warps.any fun w => w.2.gangs.any fun g => match g.wait with
    | .bowait left _ _ _ => left.any fun x => decide (x.2.1 = p.1 ∧ x.2.2.1 = p.2)
    | _ => false) ||
  (c.2.tasks.any fun t => match alook t.2.slot c.2.teams with
    | some tm => (t.2.wref.getLsbD 0 && decide (s.refPlace c.1 tm t.2.wref = some p)) || (t.2.sref.getLsbD 0 && decide (s.refPlace c.1 tm t.2.sref = some p))
    | none => false)

end Sys2Proof.Machine
end

