-- ==== Sys2Proof/Machine/BarrierObjs.lean ====
section
/-!
DEFINITION. The barrier-object instructions BOINIT, BOEXP, BOARR, BOWAIT and BOFREE (R145 to R149).
-/
namespace Sys2Proof.Machine

/-- What the gang publishes in a deterministic launch, and the state in its next epoch (R189). -/
def Env.publish (e : Env) (s : State) : Clock × State :=
  if e.det then (e.gang.publish.1, s.modGang e.k e.slot e.gid fun g => g.publish.2) else ([], s)

/-- The lanes that act (R146, R149): one for the warp, or each active thread. -/
def actors (e : Env) (opc : Nat) (x : Op) (single : Bool) : List Nat :=
  let act := e.active x.g
  if isUniform opc x (rowAt opc x) then (if unguarded x.g || !act.isEmpty then [act.headD 0] else [])
  else if single then act.take 1 else act

/-- The four instructions that change an object. -/
inductive ObjOp where
  | init | expect | arrive | free
  deriving DecidableEq, Repr

/-- The place of an object operand, or reason 1 (R148). -/
def objAddr (s : State) (e : Env) (a : Nat) : Except Nat (Nat × Nat) :=
  if a % 16 ≠ 0 then .error 1
  else match s.scrPlace e.k e.team (scrAddr a) (scrAddr a).off 16 with
    | .ok (.scr k off) => .ok (k, off)
    | _ => .error 1

/-- One thread's effect on an object, or its reason (R148). -/
def objTry (s : State) (e : Env) (op : ObjOp) (c : Clock) (p : Nat × Nat) (v : Nat) (o : Option BObj) : Except Nat (Option BObj) :=
  match op, o with
  | .init, some _ => .error 2
  | .init, none => if v = 0 ∨ 65535 < v then .error 3 else if p.1 ≠ e.k then .error 6 else .ok (some { arrv := v, init := v })
  | _, none => .error 2
  | .expect, some o => if 2 ^ 31 ≤ v then .error 3 else (match (BUpd.expect v).apply c o with | some n => .ok (some n) | none => .error 3)
  | .arrive, some o => (match (BUpd.arrive v).apply c o with | some n => .ok (some n) | none => .error 4)
  | .free, some _ => if s.objBusy p then .error 5 else if p.1 ≠ e.k then .error 6 else .ok none

/-- The checks of the acting threads in lane order, each seeing what the lower ones did: the failing lanes with their reasons. -/
def objCheck (s : State) (e : Env) (op : ObjOp) (c : Clock) : List (Nat × Nat × Nat) → List ((Nat × Nat) × Option BObj) → List (Nat × Nat)
  | [], _ => []
  | (lane, a, v) :: rest, seen =>
    match objAddr s e a with
    | .error r => (lane, r) :: objCheck s e op c rest seen
    | .ok p =>
      let o := match seen.find? fun q => q.1 = p with | some q => q.2 | none => s.obj? p
      match objTry s e op c p v o with
      | .error r => (lane, r) :: objCheck s e op c rest seen
      | .ok n => objCheck s e op c rest ((p, n) :: seen)

/-- One thread's effect, applied on the own allocation; through the window it leaves with a release at cluster scope (R185). -/
def objDo (e : Env) (op : ObjOp) (c : Clock) (s : State) (t : Nat × Nat × Nat) : State :=
  match objAddr s e t.2.1 with
  | .error _ => s
  | .ok p =>
    let away (kind : WKind) : State := s.pushSq e.k e.slot
      { seq := 0, place := .scr p.1 p.2, kind := kind, lane := t.1, rel := 2, uid := e.team.uid.getD 0, slot := e.warp.team, warp := e.slot, clock := c }
    match op with
    | .init => s.tagObj p t.2.2
    | .free => s.untagObj p
    | .expect => if p.1 = e.k then s.updateObj p (.expect t.2.2) c else away (.boExp t.2.2)
    | .arrive => if p.1 = e.k then s.updateObj p (.arrive t.2.2) c else away (.boArr t.2.2)

/-- Event of a thread whose object address has E = 1 (R377). -/
def objE (s : State) (opc : Nat) (x : Op) (e : Env) (i : Nat) : Bool := (sv1 (Env.srcs s e x (rowAt opc x) (litInt x false 32) i).a).e

/-- Lane, object address and value of the acting threads. -/
def objTodo (s : State) (e : Env) (opc : Nat) (x : Op) : List (Nat × Nat × Nat) :=
  (actors e opc x (x.op7 % 2 = 1)).map fun i =>
    let v := Env.srcs s e x (rowAt opc x) (litInt x false 32) i
    (i, pointOf s (sv1 v.a), pointOf (s.drawn 1) (sv1 v.b))

/-- The shared course (R146, R185): checks, then the warp's store queue drains, then the effects. -/
def objInstr (s : State) (opc : Nat) (op : ObjOp) (x : Op) : Host.Outcome State Fault Refusal :=
  issue s x.form.bytes x.g (opCost opc x) 1 (fun s e0 => objE s opc x e0) fun _ s e =>
    let r := rowAt opc x
    let act := e.active x.g
    let who := actors e opc x (x.op7 % 2 = 1)
    let fin (s : State) : State := e.done x.form.bytes (e.freed x r s)
    match who with
    | [] => .ok (fin s)
    | _ => match e.regTrap x r (maskOf act) with
      | some t => .error t
      | none =>
        let todo := objTodo s e opc x
        let c := if e.det then e.gang.publish.1 else []
        let bad := objCheck s e op c todo []
        match bad with
        | b :: bs => .error { cls := 8, mask := maskOf (bad.map (·.1)), reason := bs.foldl (fun m y => min m y.2) b.2 }
        | [] =>
          if e.warp.sq ≠ [] then .ok (e.stall .retry s)
          else
            let (c, s) := e.publish s
            .ok (fin ((todo.foldl (objDo e op c) s).drawn 2))

/-- BOINIT. -/
def execBoinit (x : X96) (s : State) : Host.Outcome State Fault Refusal := objInstr s 0xE2 .init x.op
/-- BOEXP. -/
def execBoexp (x : X96) (s : State) : Host.Outcome State Fault Refusal := objInstr s 0xE3 .expect x.op
/-- BOARR. -/
def execBoarr (x : X96) (s : State) : Host.Outcome State Fault Refusal := objInstr s 0xE4 .arrive x.op
/-- BOFREE. -/
def execBofree (x : X96) (s : State) : Host.Outcome State Fault Refusal := objInstr s 0xE6 .free x.op

/-- The acting threads of BOWAIT: a restored gang's satisfied threads stay satisfied (R147, R422). -/
def bowaitWho (e : Env) (x : Op) : List Nat :=
  if x.op7 = 1 then e.active x.g else (actors e 0xE5 x false).filter fun i => !e.gang.skip.getLsbD i

/-- Lane, object, parity and tag of each. -/
def bowaitTodo (s : State) (e : Env) (x : Op) : List (Nat × Except Nat (Nat × Nat) × Bool × Bool) :=
  (bowaitWho e x).map fun i =>
    let v := Env.srcs s e x (rowAt 0xE5 x) (litInt x false 32) i
    (i, objAddr s e (pointOf s (sv1 v.a)), decide (pointOf (s.drawn 1) (sv1 v.b) % 2 = 1), v.tagE)

/-- Lanes that take the barrier-object trap, with their reasons (R148). -/
def bowaitBad (s : State) (e : Env) (x : Op) : List (Nat × Nat) :=
  (bowaitTodo s e x).filterMap fun t => match t.2.1 with
    | .error n => some (t.1, n)
    | .ok p => if (s.obj? p).isNone then some (t.1, 2) else if x.op7 = 1 ∧ e.det then some (t.1, 7) else none

/-- The phase with the parity has completed (R147). -/
def State.objMet (s : State) (p : Nat × Nat) (par : Bool) : Bool := match s.obj? p with | some o => o.phase != par | none => false

/-- The threads' objects. -/
def bowaitPlaces (s : State) (e : Env) (x : Op) : List (Nat × (Nat × Nat) × Bool) :=
  (bowaitTodo s e x).filterMap fun t => match t.2.1 with | .ok p => some (t.1, p, t.2.2.1) | .error _ => none

/-- The predicates that .try writes. -/
def bowaitPreds (s : State) (e : Env) (x : Op) : Warp :=
  (bowaitTodo s e x).foldl (fun w t => match t.2.1 with
    | .ok p => w.writePred t.1 (x.d % 8) { v := .ofBool (s.objMet p t.2.2.1), e := (e.warp.lane t.1).bounds && t.2.2.2 }
    | .error _ => w) e.warp

/-- The scope of BOWAIT's acquire. -/
def bowaitScope (x : Op) : Nat := if x.acq then x.scope else 0

/-- The state in which a BOWAIT's own acquire takes place: edges from the phases already completed (R189). -/
def bowaitJoined (s : State) (e : Env) (x : Op) : State :=
  if e.det then (s.drawn 2).modGang e.k e.slot e.gid fun g => g.after (((bowaitPlaces s e x).filter fun t => s.objMet t.2.1 t.2.2).foldl
    (fun c t => match s.obj? t.2.1 with | some o => Clock.join c o.clock | none => c) []) else s.drawn 2

/-- The threads that a BOWAIT still waits for. -/
def bowaitLeft (s : State) (e : Env) (x : Op) : List (Nat × (Nat × Nat) × Bool) := (bowaitPlaces s e x).filter fun t => !(s.objMet t.2.1 t.2.2)

/-- BOWAIT (R147): .try writes a predicate; otherwise the gang waits until every thread has been satisfied. -/
def bowait (s : State) (x : Op) : Host.Outcome State Fault Refusal :=
  issue s x.form.bytes x.g (opCost 0xE5 x) 1 (fun s e0 => objE s 0xE5 x e0) fun _ s e =>
    let len := x.form.bytes
    let r := rowAt 0xE5 x
    match bowaitWho e x with
    | [] => .ok (e.done len (e.freed x r s))
    | _ => match e.regTrap x r (maskOf (e.active x.g)) with
      | some t => .error t
      | none => match bowaitBad s e x with
        | b :: bs => .error { cls := 8, mask := maskOf ((b :: bs).map (·.1)), reason := bs.foldl (fun m y => min m y.2) b.2 }
        | [] =>
          if x.op7 = 1 then .ok (e.done len (e.freed x r (((s.drawn 2).modWarp e.k e.slot fun _ => bowaitPreds s e x).acquire e.k e.slot (bowaitScope x))))
          else
            (match bowaitLeft s e x with
            | [] => .ok (e.done len (e.freed x r ((bowaitJoined s e x).acquire e.k e.slot (bowaitScope x))))
            | l => .ok (e.stall (.bowait (l.map fun t => (t.1, t.2.1.1, t.2.1.2, t.2.2)) (bowaitScope x) len (e.frees x r)) (bowaitJoined s e x)))

/-- BOWAIT (C32). -/
def execBowaitC32 (x : C32R) (s : State) : Host.Outcome State Fault Refusal := bowait s (x.op 0)
/-- BOWAIT. -/
def execBowait (x : X96) (s : State) : Host.Outcome State Fault Refusal := bowait s x.op

/-- BOWAIT_SATISFIED (R147): every thread of a stalled BOWAIT is satisfied; it returns, with its acquire. -/
def execBowaitSatisfied (s : State) : Host.Outcome State Fault Refusal :=
  let a := s.ev
  match s.envOf a.core a.warp a.gang with
  | none => .next s
  | some e => match e.gang.wait with
    | .bowait [] acq len fr => .next (e.done len ((s.modWarp e.k e.slot fun w => w.free fr).acquire e.k e.slot acq))
    | _ => .next s

end Sys2Proof.Machine
end

