-- ==== Sys2Proof/Machine/MemOps.lean ====
section
/-!
DEFINITION. The course of a memory instruction (R109, R217 to R222, R464, R465): its accesses are checked for every acting thread,
the ones whose translation is at hand are performed in lane order, the others wait.
-/
namespace Sys2Proof.Machine

/-! ## Performing one access -/

/-- A loaded element as its register holds it (R75, R217). -/
def loadValue (t raw : Nat) : Nat := if tySigned t then wrapNat (tyRegs t) (sIntOf (tyBits t) raw) else raw

/-- Bytes of an element of a TYPE. -/
def tyBytes (t : Nat) : Nat := tyBits t / 8

/-- Elements of loaded bytes. -/
def elemsOf (t count : Nat) (bs : List Byte) : List Nat :=
  (List.range count).map fun i => loadValue t (leNat ((bs.drop (i * tyBytes t)).take (tyBytes t)))

/-- Write a load's elements. -/
def Warp.putLoad (w : Warp) (handling : Bool) (lane d : Nat) (uni : Bool) (t : Nat) (vals : List SV) : Warp :=
  if uni then w.writeUnis handling d (tyRegs t) vals else w.writeVecs d (tyRegs t) [(lane, vals)]

/-- New value of an atomic operation (R228). -/
def atomNew (op t mode old c : Nat) : Nat :=
  match op with
  | 6 => c
  | 7 => if c ≤ old then 0 else old + 1
  | 8 => if old = 0 ∨ c < old then c else old - 1
  | _ => (opApply op t mode false old c).bits

/-- The exact value of a partial sum with a value added (R232, R95). -/
def Partial.add (p : Partial) (v : Fx) : Partial :=
  match v with
  | .nan _ => { p with nan := true }
  | .inf neg => if neg then { p with ninf := true } else { p with pinf := true }
  | .fin neg m e => let d := Dy.add { i := p.i, e := p.e } (dyOf neg m e); { p with i := d.i, e := d.e }

/-- The entry of a key in a team's table, made when there is none and fewer than 256 (R232). -/
def Team.keyPartial (t : Team) (va type : Nat) : Team :=
  if (t.partials.any fun p => p.va = va ∧ p.type = type) ∨ 256 ≤ t.partials.length then t else { t with partials := t.partials ++ [{ va := va, type := type }] }

/-- A redirected addition in a team's table (R232): none when the table is full. -/
def Team.addPartial (t : Team) (va addr type : Nat) (v : Fx) : Option Team :=
  let t := t.keyPartial va type
  if t.partials.any fun p => p.va = va ∧ p.type = type then
    some { t with partials := t.partials.map fun p => if p.va = va ∧ p.type = type then { p.add v with addr := addr, used := true } else p }
  else none

/-- RED.add on a floating type in a deterministic launch to memory is redirected (R231, R232). -/
def redirected (det : Bool) (a : Acc) (p : Place) : Bool :=
  det && (match a.kind, p with | .red 0 t _, .mem _ => tyFloat t | _, _ => false)

/-- Kind and operation of an access for the race tracker; none when it is not an access (R190, R231, R232). -/
def raceKind (det : Bool) (a : Acc) (p : Place) : Option (Nat × Nat) :=
  if redirected det a p then none
  else match a.kind with
    | .load .. => some (0, 0)
    | .store => some (1, 0)
    | .red op t _ => if tyFloat t then some (1, 0) else some (2, op * 16 + t)
    | .atom .. => some (1, 0)
    | .cas .. => some (1, 0)
    | .touch => none

/-- An OB entry covers the sector of a place. -/
def obHas (ob : List WEnt) (p : Place) : Bool := ob.any fun w => decide (w.place.sector = p.sector ∧ p.sector ≠ none)

/-- A release or fence of a warp at a scope, numbered `mark`, waits for an entry of OB (R182): the entry stood there then, or it came
from older entries of the warp's own store queue; entries to system addresses matter at system scope alone. -/
def mustLeave (q : WEnt) (scope slot mark : Nat) : Bool :=
  (decide (q.ob < mark) || decide (q.warp = slot ∧ q.seq < mark)) &&
  (match q.kind, q.place with | .msg _, _ => false | _, .sys _ => decide (scope = 5) | _, _ => true)

/-- A release has nothing left to wait for in OB. -/
def releasedAt (ob : List WEnt) (scope slot mark : Nat) : Bool := decide (scope < 2) || !(ob.any fun q => mustLeave q scope slot mark)

/-- A place is race-tracked in a deterministic launch (R190). -/
def Hit.tracked (e : Env) (h : Hit) : Bool := e.det && (match h.place with | .mem _ => h.rt | .scr _ _ => true | _ => false)

/-- The access noted in the race tracker, where it is one (R190). -/
def State.trackAcc (s : State) (e : Env) (a : Acc) (h : Hit) : State :=
  match h.tracked e, raceKind e.det a h.place with
  | true, some (kind, op) => s.track e h.place kind op
  | _, _ => s

/-- The write-queue entry of a store or a non-returning reduction. -/
def accEntry (s : State) (e : Env) (a : Acc) (h : Hit) : WEnt :=
  { seq := 0, place := h.place, va := a.va, data := a.data, lane := a.lane, rel := a.rel, uid := e.team.uid.getD 0, slot := e.warp.team, warp := e.slot
    held := (match h.place with | .mem _ => !h.own && s.speculative e.team.uid | _ => false) }

/-- A redirected addition (R232); none while the table is full. -/
def State.addRed (s : State) (e : Env) (a : Acc) (h : Hit) (t : Nat) : Option State :=
  match h.place with
  | .mem pa => ((alook e.warp.team (s.core e.k).teams).bind fun tm => tm.addPartial a.va pa t (fDecode (fmtOf t) (leNat a.data))).map fun tm =>
      s.modTeam e.k e.warp.team fun _ => tm
  | _ => none

/-- The weight store's bank is being refreshed (R113). -/
def State.wsBusy (s : State) (k : Nat) (p : Place) : Bool :=
  match p with
  | .ws off => decide (off / 4096 % 16 = (s.die (dieOf k)).cycle / 256 % 16)
  | _ => false

/-- A load binds (R175), writes its elements, and performs its acquire; none while it must wait. -/
def State.loadAt (s : State) (e : Env) (a : Acc) (h : Hit) (d : Nat) (uni : Bool) : Option State :=
  if s.wsBusy e.k h.place then none
  else match s.bindLoad e.k e.slot h.place a.size a.stamp with
    | none => none
    | some (bs, st, s1) =>
      some ((s1.modWarp e.k e.slot fun w => w.putLoad e.handling a.lane d uni a.type
        ((elemsOf a.type a.count bs).map fun n => { svConst n with stamp := st, e := a.e })).acquire e.k e.slot a.acq)

/-- The home and any copy in the core's own view take new bytes. -/
def State.atomWrite (s : State) (k : Nat) (p : Place) (bs : List Byte) : State :=
  let s := s.homeWrite p bs
  match p with
  | .mem pa => s.modCore k fun c => c.cvUpdate pa bs
  | _ => s

/-- What a returning atomic waits for (R229): the warp's stores, and what its release waits for, have left. -/
def State.atomWaits (s : State) (e : Env) (w : Warp) (a : Acc) (h : Hit) : Bool :=
  let c := s.core e.k
  decide (w.sq ≠ []) || obHas c.ob h.place || !releasedAt c.ob a.rel e.slot a.mark || (accEntry s e a h).held

/-- Destination of a returning atomic, and what it writes over an old value; none where CAS does not match. -/
def Acc.atomDst (a : Acc) : Nat := match a.kind with | .atom _ _ _ d => d | .cas _ d => d | _ => 0
def Acc.atomOut (a : Acc) (old : Nat) : Option Nat :=
  match a.kind with
  | .atom op t mode _ => some (atomNew op t mode old (leNat a.data))
  | .cas cmp _ => if old = cmp then some (leNat a.data) else none
  | _ => none

/-- The read-modify-write at the home (R229): the state and the old value. -/
def State.atomHome (s : State) (k : Nat) (p : Place) (a : Acc) : State × Nat :=
  let old := leNat (s.homeBytes (dieOf k) p a.size)
  (match a.atomOut old with
    | none => s
    | some n => s.atomWrite k p (natLe a.size n), old)

/-- The thread takes the old value, and performs its acquire. -/
def State.atomTake (s : State) (e : Env) (a : Acc) (old : Nat) : State :=
  (s.modWarp e.k e.slot fun w => w.putLoad e.handling a.lane a.atomDst false a.type [{ svConst old with stamp := s.cycleOf e.k }]).acquire e.k e.slot a.acq

/-- A returning atomic is performed at its home and returns at once; none while it must wait. -/
def State.atomAt (s : State) (e : Env) (w : Warp) (a : Acc) (h : Hit) : Option State :=
  if s.atomWaits e w a h then none else let r := s.atomHome e.k h.place a; some (r.1.atomTake e a r.2)

/-- Perform an access at its place; none while it must wait. -/
def State.performAcc (s : State) (e : Env) (a : Acc) (h : Hit) : Option State :=
  match s.warp? e.k e.slot with
  | none => none
  | some w =>
    match a.kind with
    | .touch => some s
    | .store => some (s.pushSq e.k e.slot (accEntry s e a h))
    | .red op t mode =>
      if redirected e.det a h.place then s.addRed e a h t else some (s.pushSq e.k e.slot { accEntry s e a h with kind := .red op t mode })
    | .load d uni => s.loadAt e a h d uni
    | .atom .. => s.atomAt e w a h
    | .cas .. => s.atomAt e w a h

/-- KIND of an access (R111). -/
def Acc.kindCode (a : Acc) : Nat := match a.kind with | .load .. => 0 | .touch => 0 | .store => 1 | _ => 2

/-- Where an access goes now. -/
def Acc.xlat (s : State) (p : Party) (a : Acc) : Xlat :=
  match a.place with
  | some pl => .hit { place := pl }
  | none => translate s p a.va a.kindCode

/-! ## The instruction as a whole -/

/-- Free the names of last-read bits when the instruction retires; a freed name that it wrote is mapped afresh (R200). -/
def Warp.freeAfter (w : Warp) (frees dests : List Nat) (lanes : Mask) : Warp :=
  let keep := if lanes = 0 then [] else frees.filter dests.contains
  let w := w.free (frees.filter fun n => !keep.contains n)
  { w with
    vregs := keep.foldl (fun v n => match alook n v with
      | some vs => aput n (vs.zipIdx.map fun p => if lanes.getLsbD p.2 then p.1 else {}) v
      | none => v) w.vregs
    opbuf := w.opbuf.filter fun n => !keep.contains n }

/-- Threads whose entries FQDELIVER has resolved. -/
def MemWait.delivered (m : MemWait) : Mask := m.deliv.foldl (fun x d => x ||| d.2.2) 0

/-- What to do when no access is left: retire, issue again for the threads that have not been performed, or take the delivered memory trap
(R464, R465). -/
def State.finishMem (s : State) (e : Env) (m : MemWait) : State :=
  match m.deliv with
  | [] =>
    if m.again then s.modGang e.k e.slot e.gid fun g => { g with wait := .retry }
    else
      let s := s.modWarp e.k e.slot fun w => w.freeAfter m.frees m.dests m.lanes
      let s := match m.count with
        | some (d, n) => s.modWarp e.k e.slot fun w => w.writeUnis e.handling d 32 [svConst n]
        | none => s
      e.done m.len s
  | d :: ds =>
    if m.again ∧ m.lanes &&& ~~~(m.done ||| m.delivered) ≠ 0 then s.modGang e.k e.slot e.gid fun g => { g with wait := .retry, deliv := m.deliv }
    else
    let low := ds.foldl (fun b x => if x.1 < b.1 then x else b) d
    s.takeTrap e.k e.slot e.gid { cls := 2, reason := low.2.1, mask := if m.once then 0 else m.done } m.len

/-- Try the accesses in order, at most `go` of them: the ones left over, with the walks they need. A translated access that must wait holds
the ones after it back (R174, R221); one whose page must be walked does not (R109). -/
def State.tryAccs (e : Env) (p : Party) : Nat → List Acc → State → State × List Acc
  | _, [], s => (s, [])
  | go, a :: rest, s =>
    match a.seq, a.xlat s p, go with
    | none, .hit h, n + 1 => match s.performAcc e a h with
      | some s1 => State.tryAccs e p n rest s1
      | none => let r := State.tryAccs e p 0 rest s; (r.1, a :: r.2)
    | none, .hit _, 0 => let r := State.tryAccs e p 0 rest s; (r.1, a :: r.2)
    | none, _, go => let r := State.tryAccs e p go rest (s.addWalk p.die p.ctx a.va); (r.1, a :: r.2)
    | some _, _, go => let r := State.tryAccs e p go rest s; (r.1, a :: r.2)

/-- Lanes that have nothing left among the lanes that began. -/
def doneLanes (began : List Nat) (left : List Acc) : Mask := maskOf (began.filter fun i => !(left.any fun a => a.lane = i))

/-- A race trap for the threads that conflict: the lowest reason (R191). -/
def raceTrap : List (Nat × Nat) → Option Trap
  | [] => none
  | b :: bs => some { cls := 12, mask := maskOf ((b :: bs).map (·.1)), reason := bs.foldl (fun m x => min m x.2) b.2 }

/-- The conflict of an access of a kind at a place with what the tracker holds (R190). -/
def State.conflict (s : State) (e : Env) (h : Hit) (kind op : Nat) : Option Nat :=
  match h.tracked e, h.place.track with
  | true, some key => raceOf ((alook key s.tracks).getD []) e.gang.agent e.gang.clock kind op
  | _, _ => none

/-- Threads whose accesses conflict, where their place is known. -/
def State.raceHits (s : State) (e : Env) (p : Party) (accs : List Acc) : List (Nat × Nat) :=
  accs.filterMap fun a => match a.xlat s p with
    | .hit h => (raceKind e.det a h.place).bind fun q => (s.conflict e h q.1 q.2).map fun r => (a.lane, r)
    | _ => none

/-- Race conflicts of accesses whose place is known, as the trap they give (R191). -/
def State.races (s : State) (e : Env) (p : Party) (accs : List Acc) : Option Trap := if ¬ e.det then none else raceTrap (s.raceHits e p accs)

/-- The accesses noted in the race tracker, before any of them is performed (R190, R191). -/
def State.trackAll (s : State) (e : Env) (p : Party) (accs : List Acc) : State :=
  accs.foldl (fun s a => match a.xlat s p with | .hit h => s.trackAcc e a h | _ => s) s

/-- Every access has its translation at hand. -/
def State.known (s : State) (p : Party) (accs : List Acc) : Bool :=
  accs.all fun a => a.seq.isNone && (match a.xlat s p with | .hit _ => true | _ => false)

/-- The walks that accesses without a translation need (R108). -/
def State.walked (s : State) (p : Party) (accs : List Acc) : State :=
  accs.foldl (fun s a => match a.seq, a.xlat s p with | none, .hit _ => s | none, _ => s.addWalk p.die p.ctx a.va | _, _ => s) s

/-- Keys of redirected additions: a floating RED.add to memory in a deterministic launch. -/
def redKeys (det : Bool) (accs : List Acc) : List (Nat × Nat) :=
  if det then (accs.filterMap fun a => match a.kind, a.place with
    | .red 0 t _, none => if tyFloat t ∧ ¬ sysAddr a.va then some (a.va, t) else none
    | _, _ => none).eraseDups
  else []

/-- Keys that redirected additions would need beyond a team's 256: reason 12 (R219, R232). -/
def State.fullReason (s : State) (e : Env) (accs : List Acc) : List Nat :=
  let old := match alook e.warp.team (s.core e.k).teams with | some t => t.partials | none => []
  let new := (redKeys e.det accs).filter fun q => !(old.any fun o => o.va = q.1 ∧ o.type = q.2)
  if new ≠ [] ∧ 256 < old.length + new.length then [12] else []

/-- The table entries of an instruction that has been checked (log 83). -/
def State.keepKeys (s : State) (e : Env) (accs : List Acc) : State :=
  (redKeys e.det accs).foldl (fun s q => s.modTeam e.k e.warp.team fun t => t.keyPartial q.1 q.2) s

/-- The machine once the accesses at hand have been performed in lane order, as many as the step takes, and the accesses left over. -/
def performed (s : State) (e : Env) (l : List Acc) : State × List Acc :=
  let p := Env.party s e
  State.tryAccs e p (s.pace.getD l.length) l ((s.keepKeys e l).trackAll e p l)

/-- Start the accesses of an instruction whose checks have passed. In a deterministic launch all are translated and checked for races
before one is performed (R191; log 82). -/
def State.startMem (s : State) (e : Env) (m : MemWait) : Except Trap State :=
  let p := Env.party s e
  if e.det && !s.known p m.accs then
    .ok (e.stall (.mem m) ((s.keepKeys e m.accs).walked p m.accs))
  else match s.races e p m.accs with
    | some t => .error t
    | none =>
      let began := ((m.accs.map (·.lane)).eraseDups).filter fun i => !(m.deliv.any fun d => d.2.2.getLsbD i)
      let r := performed s e m.accs
      let m1 := { m with accs := r.2, done := m.done ||| doneLanes began r.2, checked := true }
      match m1.accs with
      | [] => .ok (r.1.finishMem e m1)
      | _ => .ok (e.stall (.mem m1) r.1)

/-! ## Checks before any thread performs (R219) -/

/-- Reasons of a virtual address, for an access of `n` bytes. -/
def glbReasons (s : State) (p : Party) (va n : Nat) (atomic : Bool) : List Nat :=
  if s.physical p then (if Config.hbmBytes ≤ va then [5] else []) ++ (if va % n ≠ 0 then [6] else [])
  else
    (if ¬ canonical va then [5] else []) ++ (if va % n ≠ 0 then [6] else []) ++
    (if sysAddr va ∧ atomic then [14] else []) ++ (if sysAddr va ∧ 17 ≤ sysPort va then [15] else [])

/-- What one thread asks for: reasons to trap, its accesses, or TOP for a range address (R222). -/
structure MemReq where
  reasons : List Nat := []
  accs : List Acc := []
  top : Option SV := none
  deriving DecidableEq, Repr

/-- An address of a thread: its value, whether it is a point, its tags. -/
structure Addr where
  va : Int
  point : Bool
  e : Bool
  stamp : Nat
  deriving DecidableEq, Repr

/-- Sum of address terms: the values with their extension, and a displacement. -/
def addrSum (b : Bool) (a : List SV) (q : List SV) (disp : Int) (signedA : Bool) : Addr :=
  let va : Int := a.foldl (fun n x => n + (if signedA then sIntOf 64 x.lo else (x.lo : Int))) 0
  let vb : Int := q.foldl (fun n x => n + sIntOf 32 x.lo) 0
  let all := a ++ q
  { va := va + vb + disp, point := !b || all.all (fun x => decide (x.lo = x.hi)), e := all.any (·.e), stamp := all.foldl (fun m x => max m x.stamp) 0 }

/-- Address of a memory-space access (R218). -/
def glbAddr (s : State) (e : Env) (x : Op) (r : Row) (lane : Nat) : Addr :=
  let v := Env.srcs s e x r x.lit lane
  let a := addrSum (e.warp.lane lane).bounds v.a (match r.b with | .reg _ _ _ => v.b | _ => []) (sIntOf 16 x.imm16) false
  { a with va := a.va % 2 ^ 64 }

/-- Scratchpad address of a thread, OFF with the displacement added (R218). -/
def scrAddrOf (s : State) (e : Env) (x : Op) (r : Row) (lane : Nat) : Addr × ScrAddr × Int :=
  let v := Env.srcs s e x r x.lit lane
  let a := addrSum (e.warp.lane lane).bounds v.a [] 0 false
  let sa := scrAddr (sv1 v.a).lo
  (a, sa, (sa.off : Int) + (if x.form = .c32 then 0 else sIntOf 16 x.imm16))

/-- Target core of a coordinate operand and its trap (R216, R218): the window position, or reason 8. -/
def coordPos (k t : Nat) : Except Nat Nat :=
  if t / 512 ≠ 0 then .error 8
  else
    let row := t % 16
    let col := t / 16 % 32
    if isFw k then .error 8
    else if coreAt row col / 256 = dieOf k ∧ row / 2 = coreRow k / 2 ∧ col / 2 = coreCol k / 2 then .ok (2 * (row % 2) + col % 2) else .error 8

/-- LDW, STW and ATOMW: a window access at a named core; the address is A, the tags are those of A and T. -/
def coordAddrOf (s : State) (e : Env) (x : Op) (r : Row) (lane : Nat) : Addr × Except Nat ScrAddr :=
  let v := Env.srcs s e x r x.lit lane
  let t := if timm x then svConst (x.imm16 % 512) else sv1 v.b
  let a := addrSum (e.warp.lane lane).bounds (v.a ++ (if timm x then [] else v.b)) [] 0 false
  let sa := scrAddr (sv1 v.a).lo
  ({ a with va := (sv1 v.a).lo }, if sa.bad || sa.win then .error 7 else match coordPos e.k t.lo with
    | .error c => .error c
    | .ok p => .ok { sa with win := true, pos := p })

/-- A scratchpad access of `n` bytes as a request: alignment, bounds, the window, tagged granules for a write. -/
def scrReq (s : State) (e : Env) (sa : ScrAddr) (off : Int) (n : Nat) (write : Bool) (acc : Acc) : MemReq :=
  let al : List Nat := if off % (n : Int) ≠ 0 then [6] else []
  match s.scrPlace e.k e.team sa off n with
  | .error c => { reasons := al ++ [c] }
  | .ok p =>
    let tag : List Nat := match p with | .scr k o => if write && (s.core k).tagged o n then [9] else [] | _ => []
    { reasons := al ++ tag, accs := [{ acc with place := some p }] }

/-- Vector names that a destination position covers (R57, R75). -/
def destVecs (x : Op) (r : Row) : List Nat :=
  match r.d with
  | .reg _ width n => if x.bkd then [] else (List.range (n * (width / 32))).map (x.d + ·)
  | _ => []

/-- What a per-thread memory instruction holds before its accesses. -/
def memBase (opc : Nat) (x : Op) (count : Env → Option (Nat × Nat)) (e : Env) : MemWait :=
  { accs := [], len := x.form.bytes, frees := e.frees x (rowAt opc x), lanes := maskOf (e.active x.g), done := e.gang.skip, count := count e, deliv := e.gang.deliv
    dests := destVecs x (rowAt opc x) }

/-- The threads of a memory instruction that are to be performed: those that have not completed and whose entries are not delivered (R220,
R464). -/
def todoLanes (e : Env) (g : Guard) : List Nat :=
  (e.active g).filter fun i => !e.gang.skip.getLsbD i && !(e.gang.deliv.any fun d => d.2.2.getLsbD i)

/-- What its threads ask for. -/
def memReqs (x : Op) (req : State → Env → Nat → MemReq) (s : State) (e : Env) : List (Nat × MemReq) :=
  (todoLanes e x.g).map fun i => (i, req s e i)

/-- The accesses they ask for, in lane order. -/
def memAccs (x : Op) (req : State → Env → Nat → MemReq) (s : State) (e : Env) : List Acc := (memReqs x req s e).flatMap fun q => q.2.accs

/-- The course of a per-thread memory instruction once it has issued: the checks of every thread, TOP for a range address, then the
accesses. An instruction that was an event of each of its threads is not performed (R222). -/
def memCourse (opc : Nat) (x : Op) (pre : Env → List Nat) (count : Env → Option (Nat × Nat)) (req : State → Env → Nat → MemReq) (evs : List Nat)
    (s : State) (e : Env) : State × Option Trap :=
  let r := rowAt opc x
  let base := memBase opc x count e
  match e.active x.g with
  | [] => (s.finishMem e (if evs = [] then base else { base with count := none }), none)
  | _ =>
    let reqs := memReqs x req s e
    match e.regTrap x r (maskOf (e.active x.g)) with
    | some t => (s, some t)
    | none => match (pre e ++ (reqs.flatMap fun q => q.2.reasons) ++ s.fullReason e (memAccs x req s e)).min? with
      | some c => (s, some { cls := 2, reason := c, mask := 0 })
      | none => match reqs.filterMap fun q => q.2.top.map fun t => (q.1, t) with
        | [] => (match s.startMem e { base with accs := memAccs x req s e } with
          | .ok s1 => (s1, none)
          | .error t => (s, some t))
        | tops =>
          let w1 := tops.foldl (fun w q => w.modLane q.1 fun l => l.note fWID 0) e.warp
          if enabledFlags e.warp true &&& fWID ≠ 0 then
            (s.modWarp e.k e.slot fun _ => w1, some { cls := 5, reason := fWID, mask := maskOf (tops.map (·.1)) })
          else
            let n := match r.d with | .reg _ _ n => n | _ => 1
            let w2 := tops.foldl (fun w q => w.putLoad e.handling q.1 x.d x.bkd x.type (List.replicate n q.2)) w1
            (match (s.modWarp e.k e.slot fun _ => w2).startMem { e with warp := w2 }
                { base with accs := memAccs x req s e, done := base.done ||| maskOf (tops.map (·.1)) } with
            | .ok s1 => (s1, none)
            | .error t => (s, some t))

/-- A per-thread memory instruction: `store` names the ones that are events in a bounds thread (R222), `ev` an address with E = 1 (R377),
`req` what a thread asks for. -/
def memInstr (s : State) (opc : Nat) (x : Op) (store : Bool) (ev : Env → Nat → Bool) (pre : Env → List Nat) (count : Env → Option (Nat × Nat))
    (req : State → Env → Nat → MemReq) : Host.Outcome State Fault Refusal :=
  issued s x.form.bytes x.g (perActive x.g) 1 (fun _ e0 i => store || ev e0 i) fun _ evs s e => memCourse opc x pre count req evs s e

/-- What an instruction that acts once for the warp holds. -/
def onceBase (opc : Nat) (x : Op) (e : Env) : MemWait := { accs := [], len := x.form.bytes, frees := e.frees x (rowAt opc x), once := true, lanes := 0 }

/-- The course of an instruction that acts once for the warp (SLD, SST; R221, R223, R465): as the lowest active thread, or lane 0. -/
def memOnceCourse (opc : Nat) (x : Op) (req : State → Env → Nat → MemReq) (evs : List Nat) (s : State) (e : Env) : State × Option Trap :=
  let r := rowAt opc x
  let act := e.active x.g
  let base := onceBase opc x e
  if act = [] ∧ (¬ unguarded x.g ∨ evs ≠ []) then (s.finishMem e base, none)
  else
    let lane := act.headD 0
    let q := req s e lane
    match e.regTrap x r (maskOf act) with
    | some t => (s, some t)
    | none => match q.reasons.min? with
      | some c => (s, some { cls := 2, reason := c, mask := 0 })
      | none => match q.top with
        | some t =>
          let hit := act.filter fun i => (e.warp.lane i).bounds
          let w1 := hit.foldl (fun w i => w.modLane i fun l => l.note fWID 0) e.warp
          let s1 := s.modWarp e.k e.slot fun _ => w1
          if hit ≠ [] ∧ enabledFlags e.warp true &&& fWID ≠ 0 then (s1, some { cls := 5, reason := fWID, mask := maskOf hit })
          else
            let n := match r.d with | .reg _ _ n => n | _ => 1
            ((s1.modWarp e.k e.slot fun w => w.putLoad e.handling lane x.d true x.type (List.replicate n t)).finishMem e base, none)
        | none => match s.startMem e { base with accs := q.accs } with
          | .ok s1 => (s1, none)
          | .error t => (s, some t)

/-- Such an instruction. -/
def memOnce (s : State) (opc : Nat) (x : Op) (store : Bool) (req : State → Env → Nat → MemReq) : Host.Outcome State Fault Refusal :=
  issued s x.form.bytes x.g (opCost opc x) 1 (fun s e0 i => store || (glbAddr s e0 x (rowAt opc x) i).e) fun _ evs s e => memOnceCourse opc x req evs s e

end Sys2Proof.Machine
end

