-- ==== Sys2Proof/Machine/Memory.lean ====
section
/-!
DEFINITION. The memory instructions 0xC0 to 0xD6 (R217 to R236).
-/
namespace Sys2Proof.Machine

/-! ## What a thread asks for -/

/-- TOP of a type as a value (R98). -/
def topSV (t : Nat) : SV := let r := topOf t; { lo := r.lo, hi := r.hi, nan := r.nan }
/-- TOP for an operand of a stamp (R173). -/
def topAt (t stamp : Nat) : SV := { topSV t with stamp := stamp }

/-- VEC as an element count (R217). -/
def vecOf (x : Op) : Nat := vecNames (x.op7 / 2 % 4)

/-- Scope of the acquire, of the release; 0 for none (R64). -/
def acqOf (x : Op) : Nat := if x.acq then x.scope else 0
def relOf (x : Op) : Nat := if x.rel then x.scope else 0

/-- Bytes of elements (R217: a narrow value from the low bits). -/
def dataBytes (t : Nat) (vals : List SV) : List Byte := vals.flatMap fun v => natLe (tyBytes t) v.lo

/-- A load of `n` elements with its type, address tags and acquire. -/
def loadAcc (x : Op) (lane n : Nat) (uni : Bool) (a : Addr) : Acc :=
  { lane := lane, va := a.va.toNat, size := n * tyBytes x.type, kind := .load x.d uni, type := x.type, count := n, acq := acqOf x,
    stamp := a.stamp, e := a.e }

/-- A store of bytes. -/
def storeAcc (x : Op) (lane : Nat) (a : Addr) (bs : List Byte) : Acc :=
  { lane := lane, va := a.va.toNat, size := bs.length, data := bs, kind := .store, type := x.type, rel := relOf x }

/-- An access of memory with its address checks. -/
def memReq (s : State) (e : Env) (atomic : Bool) (a : Acc) : MemReq :=
  { reasons := glbReasons s (Env.party s e) a.va a.size atomic, accs := [a] }

/-- The address of a memory-space access shifted by bytes (CSTORE, XLOAD). -/
def Addr.add (a : Addr) (n : Nat) : Addr := { a with va := (a.va + n) % 2 ^ 64 }

/-- The address has E = 1 (R377). -/
def glbE (s : State) (opc : Nat) (x : Op) (e : Env) (i : Nat) : Bool := (glbAddr s e x (rowAt opc x) i).e
def scrE (s : State) (opc : Nat) (x : Op) (e : Env) (i : Nat) : Bool := (scrAddrOf s e x (rowAt opc x) i).1.e
def coordE (s : State) (opc : Nat) (x : Op) (e : Env) (i : Nat) : Bool := (coordAddrOf s e x (rowAt opc x) i).1.e

def noPre (_ : Env) : List Nat := []
def noCount (_ : Env) : Option (Nat × Nat) := none
/-- A returning atomic or CAS in a deterministic launch (R231). -/
def detAtomic (e : Env) : List Nat := if e.det then [11] else []

/-- A window access at a named core: alignment, then the place. -/
def coordReq (s : State) (e : Env) (x : Op) (opc lane n : Nat) (write : Bool) (acc : Acc) : MemReq :=
  let r := coordAddrOf s e x (rowAt opc x) lane
  match r.2 with
  | .error c => { reasons := (if r.1.va % (n : Int) ≠ 0 then [6] else []) ++ [c] }
  | .ok sa => scrReq s e sa sa.off n write acc

/-! ## Plain loads and stores (R223) -/

/-- What a thread of LD asks for. -/
def ldReq (x : Op) (s : State) (e : Env) (i : Nat) : MemReq :=
  let a := glbAddr s e x (rowAt 0xC0 x) i
  if a.point then memReq s e false (loadAcc x i (vecOf x) false a) else { top := some (topAt x.type a.stamp) }

/-- LD. -/
def execLd (x : Long) (s : State) : Host.Outcome State Fault Refusal :=
  memInstr s 0xC0 (x.op 0) false (glbE s 0xC0 (x.op 0)) noPre noCount (ldReq (x.op 0))

/-- What a thread of ST asks for. -/
def stReq (x : Op) (s : State) (e : Env) (i : Nat) : MemReq :=
  let v := Env.srcs s e x (rowAt 0xC1 x) x.lit i
  memReq s e false (storeAcc x i (glbAddr s e x (rowAt 0xC1 x) i) (dataBytes x.type v.c))

/-- ST. -/
def execSt (x : Long) (s : State) : Host.Outcome State Fault Refusal :=
  memInstr s 0xC1 (x.op 0) true (fun _ _ => false) noPre noCount (stReq (x.op 0))

/-- What a thread of LDS asks for: its own allocation, or the window. -/
def ldsReq (x : Op) (s : State) (e : Env) (i : Nat) : MemReq :=
  let a := scrAddrOf s e x (rowAt 0xC2 x) i
  if a.1.point then scrReq s e a.2.1 a.2.2 (vecOf x * tyBytes x.type) false (loadAcc x i (vecOf x) false a.1)
  else { top := some (topAt x.type a.1.stamp) }

/-- Both forms of LDS. -/
def loadScr (s : State) (x : Op) : Host.Outcome State Fault Refusal := memInstr s 0xC2 x false (scrE s 0xC2 x) noPre noCount (ldsReq x)

/-- LDS (C32). -/
def execLdsC32 (x : C32R) (s : State) : Host.Outcome State Fault Refusal := loadScr s (x.op 0)
/-- LDS. -/
def execLds (x : X96) (s : State) : Host.Outcome State Fault Refusal := loadScr s x.op

/-- What a thread of STS asks for. -/
def stsReq (x : Op) (s : State) (e : Env) (i : Nat) : MemReq :=
  let a := scrAddrOf s e x (rowAt 0xC3 x) i
  let bs := dataBytes x.type (Env.srcs s e x (rowAt 0xC3 x) 0 i).b
  scrReq s e a.2.1 a.2.2 bs.length true (storeAcc x i a.1 bs)

/-- Both forms of STS. -/
def storeScr (s : State) (x : Op) : Host.Outcome State Fault Refusal :=
  memInstr s 0xC3 x true (fun _ _ => false) noPre noCount (stsReq x)

/-- STS (C32). -/
def execStsC32 (x : C32R) (s : State) : Host.Outcome State Fault Refusal := storeScr s (x.op 0)
/-- STS. -/
def execSts (x : X96) (s : State) : Host.Outcome State Fault Refusal := storeScr s x.op

/-- What a thread of LDW asks for. -/
def ldwReq (x : Op) (s : State) (e : Env) (i : Nat) : MemReq :=
  let a := (coordAddrOf s e x (rowAt 0xC4 x) i).1
  if a.point then coordReq s e x 0xC4 i (vecOf x * tyBytes x.type) false (loadAcc x i (vecOf x) false a)
  else { top := some (topAt x.type a.stamp) }

/-- LDW. -/
def execLdw (x : X96) (s : State) : Host.Outcome State Fault Refusal :=
  memInstr s 0xC4 x.op false (coordE s 0xC4 x.op) noPre noCount (ldwReq x.op)

/-- What a thread of STW asks for. -/
def stwReq (x : Op) (s : State) (e : Env) (i : Nat) : MemReq :=
  let bs := dataBytes x.type (Env.srcs s e x (rowAt 0xC5 x) 0 i).c
  coordReq s e x 0xC5 i bs.length true (storeAcc x i (coordAddrOf s e x (rowAt 0xC5 x) i).1 bs)

/-- STW. -/
def execStw (x : X96) (s : State) : Host.Outcome State Fault Refusal :=
  memInstr s 0xC5 x.op true (fun _ _ => false) noPre noCount (stwReq x.op)

/-- What SLD asks for. -/
def sldReq (x : Op) (s : State) (e : Env) (i : Nat) : MemReq :=
  let a := glbAddr s e x (rowAt 0xC6 x) i
  if a.point then memReq s e false (loadAcc x i (vecOf x) true a) else { top := some (topAt x.type a.stamp) }

/-- SLD. -/
def execSld (x : Long) (s : State) : Host.Outcome State Fault Refusal := memOnce s 0xC6 (x.op 0) false (sldReq (x.op 0))

/-- What SST asks for. -/
def sstReq (x : Op) (s : State) (e : Env) (i : Nat) : MemReq :=
  let v := Env.srcs s e x (rowAt 0xC7 x) x.lit i
  memReq s e false (storeAcc x i (glbAddr s e x (rowAt 0xC7 x) i) (dataBytes x.type v.c))

/-- SST. -/
def execSst (x : Long) (s : State) : Host.Outcome State Fault Refusal := memOnce s 0xC7 (x.op 0) true (sstReq (x.op 0))

/-- The launch of the gang, or the launch it is a child of, has declared reads of its die's weight store (R115). -/
def Env.declaresWs (s : State) (e : Env) : Bool := match e.launch with
  | none => false
  | some l => l.deps.contains (.ws (dieOf e.k)) || (match s.launch l.root with | some r => r.deps.contains (.ws (dieOf e.k)) | none => false)

/-- What a thread of LDWT asks for: a die-local offset of the weight store (R113, R115, R218). -/
def ldwtReq (x : Op) (s : State) (e : Env) (i : Nat) : MemReq :=
  let v := Env.srcs s e x (rowAt 0xC8 x) 0 i
  let a := addrSum (e.warp.lane i).bounds v.a [] (sIntOf 16 x.imm16) false
  let n := vecOf x * tyBytes x.type
  if ¬ a.point then { top := some (topAt x.type a.stamp) }
  else
    { reasons := (if a.va % (n : Int) ≠ 0 then [6] else []) ++ (if ¬ e.declaresWs s ∨ a.va < 0 ∨ (Config.weightBytes : Int) ≤ a.va then [10] else [])
      accs := [{ loadAcc x i (vecOf x) false a with place := some (.ws a.va.toNat) }] }

/-- LDWT. -/
def execLdwt (x : X96) (s : State) : Host.Outcome State Fault Refusal :=
  memInstr s 0xC8 x.op false (scrE s 0xC8 x.op) noPre noCount (ldwtReq x.op)

/-! ## Compress and expand (R224) -/

/-- Number of active threads below a lane. -/
def rankOf (e : Env) (g : Guard) (lane : Nat) : Nat := ((e.active g).filter (· < lane)).length

/-- What a thread of CSTORE asks for. -/
def cstoreReq (x : Op) (s : State) (e : Env) (i : Nat) : MemReq :=
  let v := Env.srcs s e x (rowAt 0xCB x) 0 i
  memReq s e false (storeAcc x i ((glbAddr s e x (rowAt 0xCB x) i).add (rankOf e x.g i * tyBytes x.type)) (dataBytes x.type v.c))

/-- CSTORE's count, written to D when it retires. -/
def cstoreCount (x : Op) (e : Env) : Option (Nat × Nat) := some (x.d, (e.active x.g).length)

/-- CSTORE. -/
def execCstore (x : X96) (s : State) : Host.Outcome State Fault Refusal :=
  memInstr s 0xCB x.op true (fun _ _ => false) noPre (cstoreCount x.op) (cstoreReq x.op)

/-- What a thread of XLOAD asks for. -/
def xloadReq (x : Op) (s : State) (e : Env) (i : Nat) : MemReq :=
  let a := glbAddr s e x (rowAt 0xCC x) i
  if a.point then memReq s e false (loadAcc x i 1 false (a.add (rankOf e x.g i * tyBytes x.type))) else { top := some (topAt x.type a.stamp) }

/-- XLOAD. -/
def execXload (x : X96) (s : State) : Host.Outcome State Fault Refusal :=
  memInstr s 0xCC x.op false (glbE s 0xCC x.op) noPre noCount (xloadReq x.op)

/-! ## Atomics and reductions (R228 to R232) -/

/-- A returning atomic of a thread. -/
def atomAcc (s : State) (x : Op) (e : Env) (lane op : Nat) (a : Addr) (c : SV) : Acc :=
  { lane := lane, va := a.va.toNat, size := tyBytes x.type, data := natLe (tyBytes x.type) c.lo, kind := .atom op x.type (e.mode x.rm) x.d,
    type := x.type, acq := acqOf x, rel := relOf x, stamp := a.stamp, mark := (s.core e.k).seq }

/-- A non-returning reduction of a thread. -/
def redAcc (x : Op) (e : Env) (lane op : Nat) (a : Addr) (c : SV) : Acc :=
  { lane := lane, va := a.va.toNat, size := tyBytes x.type, data := natLe (tyBytes x.type) c.lo, kind := .red op x.type (e.mode x.rm),
    type := x.type, rel := relOf x }

/-- Operand C of a thread. -/
def opC (s : State) (e : Env) (x : Op) (opc lane : Nat) : SV := sv1 (Env.srcs s e x (rowAt opc x) x.lit lane).c

/-- What a thread of ATOM, ATOMS, ATOMW, RED, REDS or CAS (R230: C is the compare value, the name after it the new one) asks for. -/
def atomReq (x : Op) (s : State) (e : Env) (i : Nat) : MemReq :=
  memReq s e true (atomAcc s x e i (x.op7 % 16) (glbAddr s e x (rowAt 0xCD x) i) (opC s e x 0xCD i))
def atomsReq (x : Op) (s : State) (e : Env) (i : Nat) : MemReq :=
  let a := scrAddrOf s e x (rowAt 0xCE x) i
  scrReq s e a.2.1 a.2.2 (tyBytes x.type) true (atomAcc s x e i (x.op7 % 16) a.1 (opC s e x 0xCE i))
def atomwReq (x : Op) (s : State) (e : Env) (i : Nat) : MemReq :=
  coordReq s e x 0xCF i (tyBytes x.type) true (atomAcc s x e i (x.op7 % 16) (coordAddrOf s e x (rowAt 0xCF x) i).1 (opC s e x 0xCF i))
def redReq (x : Op) (s : State) (e : Env) (i : Nat) : MemReq :=
  memReq s e true (redAcc x e i (x.op7 % 16) (glbAddr s e x (rowAt 0xD0 x) i) (opC s e x 0xD0 i))
def redsReq (x : Op) (s : State) (e : Env) (i : Nat) : MemReq :=
  let a := scrAddrOf s e x (rowAt 0xD1 x) i
  scrReq s e a.2.1 a.2.2 (tyBytes x.type) true (redAcc x e i (x.op7 % 16) a.1 (opC s e x 0xD1 i))
def casReq (x : Op) (s : State) (e : Env) (i : Nat) : MemReq :=
  let c := (Env.srcs s e x (rowAt 0xD2 x) 0 i).c
  let n := tyBytes x.type
  let acc (a : Addr) : Acc :=
    { lane := i, va := a.va.toNat, size := n, data := natLe n (c.getD 1 (svConst 0)).lo, kind := .cas (sv1 c).lo x.d, type := x.type, acq := acqOf x,
      rel := relOf x, stamp := a.stamp, mark := (s.core e.k).seq }
  if x.op7 % 4 = 1 then
    let a := scrAddrOf s e x (rowAt 0xD2 x) i
    scrReq s e a.2.1 a.2.2 n true (acc a.1)
  else memReq s e true (acc (glbAddr s e x (rowAt 0xD2 x) i))

/-- ATOM. -/
def execAtom (x : X96) (s : State) : Host.Outcome State Fault Refusal :=
  memInstr s 0xCD x.op true (fun _ _ => false) detAtomic noCount (atomReq x.op)
/-- ATOMS. -/
def execAtoms (x : X96) (s : State) : Host.Outcome State Fault Refusal :=
  memInstr s 0xCE x.op true (fun _ _ => false) detAtomic noCount (atomsReq x.op)
/-- ATOMW. -/
def execAtomw (x : X96) (s : State) : Host.Outcome State Fault Refusal :=
  memInstr s 0xCF x.op true (fun _ _ => false) detAtomic noCount (atomwReq x.op)
/-- RED. -/
def execRed (x : X96) (s : State) : Host.Outcome State Fault Refusal :=
  memInstr s 0xD0 x.op true (fun _ _ => false) noPre noCount (redReq x.op)
/-- REDS. -/
def execReds (x : X96) (s : State) : Host.Outcome State Fault Refusal :=
  memInstr s 0xD1 x.op true (fun _ _ => false) noPre noCount (redsReq x.op)
/-- CAS. -/
def execCas (x : X96) (s : State) : Host.Outcome State Fault Refusal :=
  memInstr s 0xD2 x.op true (fun _ _ => false) detAtomic noCount (casReq x.op)

/-! ## Reads an instruction makes before its own accesses -/

/-- What such a read gives. -/
inductive PreRead where
  | got (bs : List Byte) (stamp : Nat) (s : State)
  /-- The page must be translated first. -/
  | need (va : Nat)
  /-- A pending reduction covers it. -/
  | blocked
  /-- It conflicts in a deterministic launch (R191). -/
  | race (reason : Nat)
  deriving DecidableEq, Repr

/-- An ordinary load of `n` bytes within a sector, made at issue. -/
def State.preRead (s : State) (e : Env) (va n stamp : Nat) : PreRead :=
  match translate s (Env.party s e) va 0 with
  | .hit h =>
    match s.conflict e h 0 0 with
    | some r => .race r
    | none =>
      let s := if h.tracked e then s.track e h.place 0 0 else s
      (match s.bindLoad e.k e.slot h.place n stamp with
      | some (bs, st, s1) => .got bs st s1
      | none => .blocked)
  | _ => .need va

/-- Reads of several spans, each within a sector, in order: their bytes, the largest stamp. -/
def State.preReads (e : Env) (stamp : Nat) : List (Nat × Nat) → State → List (List Byte) → Nat → PreRead × List (List Byte)
  | [], s, acc, st => (.got [] st s, acc)
  | p :: rest, s, acc, st => match s.preRead e p.1 p.2 stamp with
    | .got bs st' s1 => State.preReads e stamp rest s1 (acc ++ [bs]) (max st st')
    | o => (o, acc)

/-- The threads whose reads conflict, each a lane and an address (R191). -/
def State.readHits (s : State) (e : Env) (reads : List (Nat × Nat)) : List (Nat × Nat) :=
  reads.filterMap fun q => match translate s (Env.party s e) q.2 0 with
    | .hit h => (s.conflict e h 0 0).map fun r => (q.1, r)
    | _ => none

/-- An instruction whose reads lack a translation waits for it and issues again (R465); `m` carries its length and lanes. -/
def Env.awaitPages (e : Env) (s : State) (m : MemWait) (needs : List (Nat × Nat)) : State :=
  let p := Env.party s e
  e.stall (.mem { m with again := true, accs := needs.map fun q => { lane := q.1, va := q.2, size := 1, kind := .touch } })
    (needs.foldl (fun s q => s.addWalk p.die p.ctx q.2) s)

/-! ## Fill stores (R225, R226) -/

/-- A buffer descriptor. -/
structure BufDesc where
  base : Nat
  nx : Nat
  ny : Nat
  nz : Nat
  type : Nat
  pitchy : Nat
  pitchz : Nat
  deriving DecidableEq, Repr

/-- The descriptor of 32 bytes; none when it breaks the map. -/
def bufDesc (v : Nat) : Option BufDesc :=
  let t := bitsOf v 163 160
  if t = 11 ∨ bitsOf v 191 164 ≠ 0 ∨ bitsOf v 223 192 % tyBytes t ≠ 0 ∨ bitsOf v 63 0 % tyBytes t ≠ 0 then none
  else some { base := bitsOf v 63 0, nx := bitsOf v 95 64, ny := bitsOf v 127 96, nz := bitsOf v 159 128, type := t
              pitchy := bitsOf v 223 192, pitchz := bitsOf v 255 224 }

/-- Coordinates of an interval below an extent. -/
def clip (i : Iv) (n : Nat) : List Nat := if n ≤ i.lo then [] else (List.range (min (i.hi + 1) n - i.lo)).map (i.lo + ·)

/-- The element addresses a thread fills, in order. -/
def fillAddrs (d : BufDesc) (l : Lane) : List Nat :=
  (clip l.elemZ d.nz).flatMap fun z => (clip l.elemY d.ny).flatMap fun y => (clip l.elemX d.nx).map fun x =>
    (d.base + x * tyBytes d.type + y * d.pitchy + z * d.pitchz * d.pitchy) % 2 ^ 64

/-- The descriptors of lanes, read at issue. -/
def State.readDescs (e : Env) : List (Nat × Addr) → State → List (Nat × Nat) → List (Nat × Nat) → State × List (Nat × Nat) × List (Nat × Nat) × Option PreRead
  | [], s, got, need => (s, got, need, none)
  | p :: rest, s, got, need => match s.preRead e p.2.va.toNat 32 p.2.stamp with
    | .got bs _ s1 => State.readDescs e rest s1 (got ++ [(p.1, leNat bs)]) need
    | .need va => State.readDescs e rest s got (need ++ [(p.1, va)])
    | o => (s, got, need, some o)

/-- Event of a thread of STF when C is read as `r` has it (R226, R377). -/
def stfEventAs (x : Op) (r : Row) (s : State) (e : Env) (i : Nat) : Bool :=
  let v := Env.srcs s e x r 0 i
  v.tagE || decide ((sv1 v.a).lo ≠ (sv1 v.a).hi) || decide ((sv1 v.c).lo ≠ (sv1 v.c).hi) || (sv1 v.c).nan

/-- Event of a thread of STF before its descriptor is read: in A, or in the first name of C. -/
def stfEvent (x : Op) (s : State) (e : Env) (i : Nat) : Bool := stfEventAs x (rowAt 0xCA x) s e i

/-- Descriptor addresses of STF. -/
def stfAddrs (s : State) (e : Env) (x : Op) : List (Nat × Addr) :=
  (todoLanes e x.g).map fun i => (i, addrSum false (Env.srcs s e x (rowAt 0xCA x) 0 i).a [] 0 false)

/-- STF's row with the value as the descriptors' types have it. -/
def stfRow (x : Op) (width : Nat) : Row := { rowAt 0xCA x with c := .reg none width 1 }

/-- The stores of STF's threads. -/
def stfAccs (s : State) (e : Env) (x : Op) (ds : List (Nat × BufDesc)) : List Acc :=
  ds.flatMap fun d =>
    let c := sv1 (Env.srcs s e x (stfRow x (tyRegs d.2.type)) 0 d.1).c
    (fillAddrs d.2 (e.warp.lane d.1)).map fun va =>
      ({ lane := d.1, va := va, size := tyBytes d.2.type, data := natLe (tyBytes d.2.type) c.lo, kind := .store, type := d.2.type } : Acc)

/-- The cost of the stores themselves: eight threads for each sector of 32 bytes (R226). -/
def stfCost (accs : List Acc) : Nat := 8 * ceilDiv (accs.foldl (fun n a => n + a.size) 0) 32

/-- What STF holds, with the names of its value at the descriptors' width. -/
def stfBase (e : Env) (x : Op) (width : Nat) : MemWait := { memBase 0xCA x noCount e with frees := e.frees x (stfRow x width) }

/-- Descriptors that keep their map (R225). -/
def goodDescs (ds : List (Nat × Nat)) : List (Nat × BufDesc) := ds.filterMap fun g => (bufDesc g.2).map fun d => (g.1, d)

/-- Threads whose 64-bit value is an event that its first name does not show (R226). -/
def stfLate (s : State) (e : Env) (x : Op) (ds : List (Nat × BufDesc)) : List Nat :=
  (ds.filter fun d => decide (tyRegs d.2.type = 64) && (e.warp.lane d.1).bounds && stfEventAs x (stfRow x 64) s e d.1).map (·.1)

/-- Those threads take their event. -/
def stfRest (s : State) (e : Env) (x : Op) (ds : List (Nat × BufDesc)) : State × Env :=
  match stfLate s e x ds with
  | [] => (s, e)
  | l :: ls => let s1 := s.takeEvents e false none (l :: ls); (s1, (s1.envOf e.k e.slot e.gid).getD e)

/-- STF once its descriptors have been read; reason 13 stands beside the reasons of the elements (R219, R225). -/
def stfStore (s0 : State) (e0 : Env) (x : Op) (got : List (Nat × Nat)) : State × Option Trap :=
  let wide := if (goodDescs got).any fun d => decide (tyRegs d.2.type = 64) then 64 else 32
  match e0.regTrap x (stfRow x wide) (maskOf (e0.active x.g)) with
  | some t => (s0, some t)
  | none =>
    let r := stfRest s0 e0 x (goodDescs got)
    let s := r.1
    let e := r.2
    let accs := stfAccs s e x ((goodDescs got).filter fun d => !(stfLate s0 e0 x (goodDescs got)).contains d.1)
    let bad := if got.any fun g => (bufDesc g.2).isNone then [13] else []
    match (bad ++ accs.flatMap fun a => glbReasons s (Env.party s e) a.va a.size false).min? with
    | some c => (s, some { cls := 2, reason := c, mask := 0 })
    | none =>
      let s2 := s.occupy e.k e.slot (stfCost accs) 1
      match s2.startMem e { stfBase e x wide with accs := accs } with
      | .ok s3 => (s3, none)
      | .error t => (s2, some t)

/-- The course of STF: the descriptors are checked and read, then come the stores. -/
def stfCourse (x : Op) (s : State) (e : Env) : State × Option Trap :=
  match e.active x.g with
  | [] => (s.finishMem e (memBase 0xCA x noCount e), none)
  | _ => match e.regTrap x (rowAt 0xCA x) (maskOf (e.active x.g)) with
    | some t => (s, some t)
    | none => match ((stfAddrs s e x).flatMap fun q => glbReasons s (Env.party s e) q.2.va.toNat 32 false).min? with
      | some c => (s, some { cls := 2, reason := c, mask := 0 })
      | none => match raceTrap (s.readHits e ((stfAddrs s e x).map fun q => (q.1, q.2.va.toNat))) with
        | some t => (s, some t)
        | none => match State.readDescs e (stfAddrs s e x) s [] [] with
          | (_, _, _, some _) => (e.stall .retry s, none)
          | (s1, got, need, none) => if need ≠ [] then (e.awaitPages s1 (memBase 0xCA x noCount e) need, none) else stfStore s1 e x got

/-- STF. A descriptor address that is not a point is an event too (log 20). -/
def execStf (x : X96) (s : State) : Host.Outcome State Fault Refusal :=
  issued s 12 x.op.g (perActive x.op.g) 1 (stfEvent x.op) fun _ _ s e => stfCourse x.op s e

/-! ## Summary loads (R227) -/

/-- Entries of the levels of a summary over `n` elements (R168); fuel: levels. -/
def summLevels : Nat → Nat → List Nat
  | 0, _ => []
  | f + 1, n => if n = 0 then [] else let m := ceilDiv n 16; if m = 1 then [1] else m :: summLevels f m

/-- Bytes before level `k` in the pyramid, entries of `w` bytes. -/
def levelOffset (levels : List Nat) (k w : Nat) : Nat := 32 + (levels.take k).foldl (· + ·) 0 * (2 * w)

/-- The level and first entry that a range reads: the least level where it spans at most two, or the top; fuel: levels. -/
def summLevel (levels lo hi : Nat) : Nat → Nat → Nat
  | 0, k => k
  | f + 1, k => if levels ≤ k + 1 ∨ hi / 16 ^ (k + 1) - lo / 16 ^ (k + 1) + 1 ≤ 2 then k else summLevel levels lo hi f (k + 1)

/-- What a thread of LDSM does. -/
inductive SummUse where
  /-- TOP with WID, or reason 13 outside a bounds thread. -/
  | bad
  | point (va : Nat)
  | range (spans : List (Nat × Nat))
  deriving DecidableEq, Repr

/-- The use a thread makes of a summary with header `h` at `at'`. -/
def summUse (x : Op) (at' h : Nat) (b : Bool) (a : SV) : SummUse :=
  let n := bitsOf h 63 0
  let w := tyBytes x.type
  let (lo, hi, bad) := readI 2 { a with hi := if b then a.hi else a.lo }
  if bitsOf h 71 64 ≠ x.type ∨ bad ≠ 0 ∨ (n : Int) ≤ hi then .bad
  else if lo = hi then .point ((bitsOf h 191 128 + lo.toNat * w) % 2 ^ 64)
  else
    let levels := summLevels 16 n
    let k := summLevel (bitsOf h 79 72) lo.toNat hi.toNat 16 0
    let first := lo.toNat / 16 ^ (k + 1)
    let count := hi.toNat / 16 ^ (k + 1) - first + 1
    .range ((List.range count).map fun i => ((at' + levelOffset levels k w + (first + i) * (2 * w)) % 2 ^ 64, 2 * w))

/-- An entry as an interval: two canonical NaNs are TOP with N = 1. -/
def summEntry (t : Nat) (bs : List Byte) : SV :=
  let v := leNat bs
  let w := tyBits t
  let lo := v % 2 ^ w
  let hi := v / 2 ^ w % 2 ^ w
  if tyFloat t && anyNan [fDecode (fmtOf t) lo] then topSV t else { lo := loadValue t lo, hi := loadValue t hi }

/-- Hull of entries. -/
def summHull (t : Nat) : List SV → SV
  | [] => topSV t
  | v :: vs => vs.foldl (fun a b => let r := hullIv t a b; { lo := r.lo, hi := r.hi, nan := r.nan }) v

/-- The ranges of lanes, read at issue, each lane's at its address stamp `d`. -/
def State.readRanges (e : Env) (t : Nat) (d : Nat → Nat) : List (Nat × List (Nat × Nat)) → State → List (Nat × SV) → List (Nat × Nat) →
    State × List (Nat × SV) × List (Nat × Nat) × Option PreRead
  | [], s, got, need => (s, got, need, none)
  | p :: rest, s, got, need => match State.preReads e (d p.1) p.2 s [] 0 with
    | (.got _ st s1, bs) => State.readRanges e t d rest s1 (got ++ [(p.1, { summHull t (bs.map (summEntry t)) with stamp := st })]) need
    | (.need va, _) => State.readRanges e t d rest s got (need ++ [(p.1, va)])
    | (o, _) => (s, got, need, some o)

/-- Header of the slot's summary: the word at PARAM + off, then 32 bytes; `stamp` is the larger of the two reads'. -/
inductive SummHead where
  | none
  | got (at' h stamp : Nat) (s : State)
  | stop (o : PreRead)
  | bad (reasons : List Nat)
  deriving DecidableEq, Repr

def State.summHead (s : State) (e : Env) (slot : Nat) : SummHead :=
  match e.img.bind fun i => (i.summ.find? fun p => p.1 = slot).map (·.2) with
  | none => .none
  | some off =>
    let p := Env.party s e
    let pa := (e.team.param.toNat + off) % 2 ^ 64
    match glbReasons s p pa 8 false with
    | _ :: _ => .bad (glbReasons s p pa 8 false)
    | [] => match s.preRead e pa 8 0 with
      | .got bs st s1 =>
        let at' := leNat bs
        (match glbReasons s p at' 32 false with
        | _ :: _ => .bad (glbReasons s p at' 32 false)
        | [] => match s1.preRead e at' 32 st with
          | .got hb st' s2 => .got at' (leNat hb) (max st st') s2
          | o => .stop o)
      | o => .stop o

/-- The index of a thread of LDSM. -/
def ldsmIndex (s : State) (e : Env) (x : Op) (i : Nat) : SV := sv1 (Env.srcs s e x (rowAt 0xC9 x) 0 i).a

/-- What each thread of LDSM does with the summary found. -/
def ldsmUses (s : State) (e : Env) (x : Op) (h : SummHead) : List (Nat × SummUse) :=
  (todoLanes e x.g).map fun i => (i, match h with
    | .got at' hd _ _ => summUse x at' hd (e.warp.lane i).bounds (ldsmIndex s e x i)
    | _ => SummUse.bad)

/-- Stamp of a thread's addresses: that of its index and that of the header they are made from (R173, R175). -/
def ldsmStamp (s : State) (e : Env) (x : Op) (d i : Nat) : Nat := max (ldsmIndex s e x i).stamp d

/-- The loads of LDSM's threads at a point. -/
def ldsmAccs (s : State) (e : Env) (x : Op) (d : Nat) (uses : List (Nat × SummUse)) : List Acc :=
  uses.filterMap fun u => match u.2 with
    | .point va => some ({ lane := u.1, va := va, size := tyBytes x.type, kind := .load x.d false, type := x.type, stamp := ldsmStamp s e x d u.1 } : Acc)
    | _ => none

/-- The ranges its threads read. -/
def ldsmSpans (uses : List (Nat × SummUse)) : List (Nat × List (Nat × Nat)) := uses.filterMap fun u => match u.2 with | .range ss => some (u.1, ss) | _ => none

/-- The race trap of LDSM's reads, ranges and points together (R191). -/
def ldsmRace (s : State) (e : Env) (spans : List (Nat × List (Nat × Nat))) (accs : List Acc) : Option Trap :=
  raceTrap (s.readHits e (spans.flatMap fun q => q.2.map fun c => (q.1, c.1)) ++ s.raceHits e (Env.party s e) accs)

/-- LDSM once its header has been read, under stamp `d`: ranges are read at issue, points are loads. -/
def ldsmLoad (s : State) (e : Env) (x : Op) (d : Nat) (uses : List (Nat × SummUse)) : State × Option Trap :=
  let p := Env.party s e
  let base := memBase 0xC9 x noCount e
  let bads := (uses.filter fun u => u.2 = .bad).map (·.1)
  let accs := ldsmAccs s e x d uses
  let spans := ldsmSpans uses
  let rs := (if bads.any fun i => !(e.warp.lane i).bounds then [13] else []) ++ accs.flatMap (fun a => glbReasons s p a.va a.size false)
    ++ spans.flatMap fun q => q.2.flatMap fun c => glbReasons s p c.1 c.2 false
  match rs.min? with
  | some c => (s, some { cls := 2, reason := c, mask := 0 })
  | none => match ldsmRace s e spans accs with
    | some t => (s, some t)
    | none => match State.readRanges e x.type (ldsmStamp s e x d) spans s [] [] with
      | (_, _, _, some _) => (e.stall .retry s, none)
      | (s2, got, need, none) =>
        if need ≠ [] then (e.awaitPages s2 base need, none)
        else
          let w1 := bads.foldl (fun w i => w.modLane i fun l => l.note fWID 0) e.warp
          if bads ≠ [] ∧ enabledFlags e.warp true &&& fWID ≠ 0 then
            (s2.modWarp e.k e.slot fun _ => w1, some { cls := 5, reason := fWID, mask := maskOf bads })
          else
            let w2 := (got ++ bads.map fun i => (i, topAt x.type (ldsmIndex s e x i).stamp)).foldl (fun w q => w.putLoad e.handling q.1 x.d false x.type [q.2]) w1
            let s3 := s2.modWarp e.k e.slot fun _ => w2
            match s3.startMem { e with warp := w2 } { base with accs := accs, done := base.done ||| maskOf (bads ++ got.map (·.1)) } with
            | .ok s4 => (s4, none)
            | .error t => (s2, some t)

/-- The course of LDSM: the header is found and read, then come the loads. -/
def ldsmCourse (x : Op) (s : State) (e : Env) : State × Option Trap :=
  match e.active x.g with
  | [] => (s.finishMem e (memBase 0xC9 x noCount e), none)
  | _ => match e.regTrap x (rowAt 0xC9 x) (maskOf (e.active x.g)) with
    | some t => (s, some t)
    | none => match s.summHead e x.op7 with
      | .bad rs => (s, some { cls := 2, reason := (rs.min?).getD 5, mask := 0 })
      | .stop (.need va) => (e.awaitPages s (memBase 0xC9 x noCount e) ((todoLanes e x.g).map fun i => (i, va)), none)
      | .stop (.race n) => (s, some { cls := 12, reason := n, mask := maskOf (todoLanes e x.g) })
      | .stop _ => (e.stall .retry s, none)
      | .none => ldsmLoad s e x 0 (ldsmUses s e x .none)
      | .got at' hd d s1 => ldsmLoad s1 e x d (ldsmUses s1 e x (.got at' hd d s1))

/-- LDSM. -/
def execLdsm (x : X96) (s : State) : Host.Outcome State Fault Refusal :=
  issued s 12 x.op.g (perActive x.op.g) 1 (fun s e0 i => (Env.srcs s e0 x.op (rowAt 0xC9 x.op) 0 i).tagE) fun _ _ s e => ldsmCourse x.op s e

/-! ## FENCE, PREF, PROBE and CCTL (R233 to R236) -/

/-- A fence at a scope has nothing left to wait for (R182, R184): FENCE.core finds the warp's store queue empty, a wider one without what stood
there when it issued. -/
def fenceDone (c : Core) (slot scope mark : Nat) : Bool :=
  decide (scope = 0) || ((match alook slot c.warps with
    | some w => if scope = 1 then w.sq.isEmpty else !(w.sq.any fun q => decide (q.seq < mark))
    | none => true) && releasedAt c.ob scope slot mark)

/-- The number of its core at the release with which an instruction began, which it keeps while it stalls (R182, R185). -/
def Env.relMark (e : Env) (s : State) : Nat := e.gang.mark.getD (s.core e.k).seq

/-- The instruction stalls until what stood at its release has left. -/
def Env.relWait (e : Env) (mark : Nat) (s : State) : State := (e.stall .retry s).modGang e.k e.slot e.gid fun g => { g with mark := some mark }

/-- FENCE (R184): the release, then the acquire; FENCE.warp raises the floor alone. -/
def fence (s : State) (len scope : Nat) (g : Guard) : Host.Outcome State Fault Refusal :=
  control s len g (fun _ _ => false) fun s e =>
    let mark := (s.core e.k).seq
    if scope = 0 then .ok (e.done len (s.acquire e.k e.slot 2))
    else if fenceDone (s.core e.k) e.slot scope mark then .ok (e.done len (s.acquire e.k e.slot scope))
    else .ok (e.stall (.fence scope mark len) s)

/-- FENCE (C32). -/
def execFenceC32 (x : C32R) (s : State) : Host.Outcome State Fault Refusal := fence s 4 0 x.g
/-- FENCE. -/
def execFence (x : X96) (s : State) : Host.Outcome State Fault Refusal := fence s 12 x.op.scope x.g

/-- The place of an address for the operations that take no fault; none where it would fault. -/
def quietPlace (s : State) (p : Party) (va : Nat) : Option Hit :=
  if s.physical p then (if va < Config.hbmBytes then some { place := .mem va } else none)
  else if ¬ canonical va ∨ sysAddr va then none
  else match translateNow s p va 0 with
    | .ok h => some h
    | .error _ => none

/-- A lane's vector operands are mapped and inside the allocation. -/
def Env.readable (e : Env) (x : Op) (r : Row) : Bool := (e.regTrap x r 0).isNone

/-- The sectors PREF.cv fetches into the core's view: those of points that translate; .msc changes nothing a program can observe. -/
def prefFetch (s : State) (e : Env) (x : Op) : State :=
  if x.op7 / 2 % 4 ≠ 0 ∨ !e.readable x (rowAt 0xD4 x) then s
  else (e.active x.g).foldl (fun s i =>
    let a := glbAddr s e x (rowAt 0xD4 x) i
    match a.point, quietPlace s (Env.party s e) a.va.toNat with
    | true, some { place := .mem pa, .. } => s.fetchSector e.k (pa / 32)
    | _, _ => s) s

/-- PREF. It takes no trap: what would trap is ignored. -/
def execPref (x : X96) (s : State) : Host.Outcome State Fault Refusal :=
  issue s 12 x.op.g (perActive x.op.g) 1 (fun s e0 i => (glbAddr s e0 x.op (rowAt 0xD4 x.op) i).e) fun _ s e =>
    .ok ((prefFetch s e x.op).finishMem e { accs := [], len := 12, frees := e.frees x.op (rowAt 0xD4 x.op), lanes := maskOf (e.active x.op.g) })

/-- What a thread's PROBE finds. -/
inductive Probe where
  | range (stamp : Nat)
  | no (stamp : Nat)
  | yes (a : Acc)
  deriving DecidableEq, Repr

/-- The address is not a point. -/
def Probe.isRange : Probe → Bool
  | .range _ => true
  | _ => false

/-- The probe of an address: translated with the permissions of a load, reasons 5, 6 and 15 passed. -/
def probeAt (s : State) (e : Env) (x : Op) (lane : Nat) : Probe × Option Hit :=
  let a := glbAddr s e x (rowAt 0xD5 x) lane
  let p := Env.party s e
  if ¬ a.point then (.range a.stamp, none)
  else if glbReasons s p a.va.toNat (tyBytes x.type) false ≠ [] then (.no a.stamp, none)
  else match translateNow s p a.va.toNat 0 with
    | .ok h => (.yes { loadAcc x lane 1 false a with place := some h.place }, some h)
    | .error _ => (.no a.stamp, none)

/-- What PROBE's threads find. -/
def probes (s : State) (e : Env) (x : Op) : List (Nat × Probe × Option Hit) := (todoLanes e x.g).map fun i => (i, probeAt s e x i)

/-- The accesses that the race tracker notes. -/
def probeKeys (e : Env) (ps : List (Nat × Probe × Option Hit)) : List (Nat × Place × Nat) :=
  ps.filterMap fun q => match q.2.2 with
    | some h => if e.det && h.rt then h.place.track.map fun k => (q.1, h.place, k) else none
    | none => none

/-- What PROBE writes at issue: TOP and an undecided predicate for a range, zero and false where the load would fault, true elsewhere. -/
def probeWarp (e : Env) (x : Op) (ps : List (Nat × Probe × Option Hit)) (w : Warp) : Warp :=
  ps.foldl (fun w q => match q.2.1 with
    | .range d => (w.putLoad e.handling q.1 x.d false x.type [topAt x.type d]).writePred q.1 (x.c % 8) { v := .u }
    | .no d => (w.putLoad e.handling q.1 x.d false x.type [{ svConst 0 with stamp := d }]).writePred q.1 (x.c % 8) { v := .f }
    | .yes _ => w.writePred q.1 (x.c % 8) { v := .t }) w

/-- The loads that PROBE makes. -/
def probeAccs (ps : List (Nat × Probe × Option Hit)) : List Acc := ps.filterMap fun q => match q.2.1 with | .yes a => some a | _ => none

/-- Lanes whose PROBE needs no load. -/
def probeDone (ps : List (Nat × Probe × Option Hit)) : List Nat := (ps.filter fun q => !((probeAccs ps).any fun a => a.lane = q.1)).map (·.1)

/-- The machine in which PROBE has noted its reads and written `w`, before its loads. -/
def probeState (s : State) (e : Env) (x : Op) (w : Warp) : State :=
  ((probeKeys e (probes s e x)).foldl (fun s q => s.track e q.2.1 0 0) s).modWarp e.k e.slot fun _ => w

/-- The course of PROBE. -/
def probeCourse (x : Op) (s : State) (e : Env) : State × Option Trap :=
  let base := memBase 0xD5 x noCount e
  match e.active x.g with
  | [] => (s.finishMem e base, none)
  | _ => match e.regTrap x (rowAt 0xD5 x) (maskOf (e.active x.g)) with
    | some t => (s, some t)
    | none =>
      match raceTrap ((probeKeys e (probes s e x)).filterMap fun q =>
          (raceOf ((alook q.2.2 s.tracks).getD []) e.gang.agent e.gang.clock 0 0).map fun n => (q.1, n)) with
      | some t => (s, some t)
      | none =>
        let tops := ((probes s e x).filter fun q => q.2.1.isRange).map (·.1)
        let w1 := tops.foldl (fun w i => w.modLane i fun l => l.note fWID 0) e.warp
        if tops ≠ [] ∧ enabledFlags e.warp true &&& fWID ≠ 0 then
          (s.modWarp e.k e.slot fun _ => w1, some { cls := 5, reason := fWID, mask := maskOf tops })
        else
          let w2 := probeWarp e x (probes s e x) w1
          match (probeState s e x w2).startMem { e with warp := w2 }
              { base with accs := probeAccs (probes s e x), done := base.done ||| maskOf (probeDone (probes s e x)) } with
          | .ok s2 => (s2, none)
          | .error t => (s, some t)

/-- PROBE. -/
def execProbe (x : X96) (s : State) : Host.Outcome State Fault Refusal :=
  issued s 12 x.op.g (perActive x.op.g) 1 (fun s e0 i => (glbAddr s e0 x.op (rowAt 0xD5 x.op) i).e) fun _ _ s e => probeCourse x.op s e

/-- The core's view without the sector that CCTL.ev names, or empty after CCTL.evall; CCTL takes no fault. -/
def cctlDrop (s : State) (e : Env) (x : Op) : State :=
  if x.op7 = 1 then s.modCore e.k fun (c : Core) => { c with cv := [] }
  else
    let a := glbAddr s e x (rowAt 0xD6 x) ((e.active x.g).headD 0)
    match a.point, quietPlace s (Env.party s e) a.va.toNat with
    | true, some { place := .mem pa, .. } => s.modCore e.k fun (c : Core) => { c with cv := adel (pa / 32) c.cv }
    | _, _ => s

/-- CCTL acts once for the warp. -/
def cctl (s : State) (x : Op) : Host.Outcome State Fault Refusal :=
  issue s 12 x.g (opCost 0xD6 x) 1 (fun s e0 i => decide (x.op7 = 0) && (glbAddr s e0 x (rowAt 0xD6 x) i).e) fun _ s e =>
    let r := rowAt 0xD6 x
    let fin (s : State) : State := s.finishMem e { accs := [], len := 12, frees := e.frees x r, lanes := 0 }
    if e.active x.g = [] ∧ ¬ unguarded x.g then .ok (fin s)
    else match e.regTrap x r (maskOf (e.active x.g)) with
      | some t => .error t
      | none => .ok (fin (cctlDrop s e x))

/-- CCTL.ev. -/
def execCctlEv (x : X96) (s : State) : Host.Outcome State Fault Refusal := cctl s x.op
/-- CCTL.evall. -/
def execCctlEvall (x : X96) (s : State) : Host.Outcome State Fault Refusal := cctl s x.op

end Sys2Proof.Machine
end

