-- ==== Sys2Proof/Machine/MemEvents.lean ====
section
/-!
DEFINITION. The steps that move writes and accesses on: Drain, Send, Fetch and Evict (R176 to R178), the fabric's exchanges (R129, R130),
walks (R108 to R110), accesses that complete (R109, R179), and the fault queue's registers (R112, R464, R465).
-/
namespace Sys2Proof.Machine

/-! ## Applying writes -/

/-- A reduction at its home: one read-modify-write (R177). -/
def State.applyRed (s : State) (p : Place) (op t mode : Nat) (bs : List Byte) : State :=
  s.homeWrite p (natLe bs.length (atomNew op t mode (leNat (s.homeBytes 0 p bs.length)) (leNat bs)))

/-- The launch whose gate a system write joins: the root, whose versions and witnesses hold it (R118, R188). -/
def State.gateOf (s : State) (uid : Nat) : Option Nat := (s.launch uid).map (·.root)

/-- Versions that are not yet attested. -/
def State.unattested (s : State) : List (Nat × Nat × Nat) :=
  (s.versions.filter fun v => decide (v.state = .opened ∨ v.state = .pending)).map fun v => (v.ctx, v.region, v.num)

/-- A system write joins the gate of its launch (R188). A firmware core's joins the gate of its die behind every version that is not attested
when it enters, since it may hold that version's bytes; with none, and none of its own before it, it passes (R1, R10; log 22). -/
def State.gateWrite (s : State) (k uid a : Nat) (bs : List Byte) : State :=
  if isFw k then
    if s.unattested = [] ∧ s.fwGate.all (fun q => decide (q.1 ≠ dieOf k)) ∧ a < 2 ^ 47 then s.homeWrite (.sys a) bs
    else { s with fwGate := s.fwGate ++ [(dieOf k, { addr := a, data := bs }, s.unattested)] }
  else match s.gateOf uid with
    | none => s
    | some r => s.modLaunch r fun l => { l with gate := l.gate ++ [{ addr := a, data := bs }], stream := l.stream ++ [{ addr := a, data := bs }] }

/-- An entry of OB reaches its target (R177). A memory reduction leaves no older copy of its sector in the core view (R175). -/
def State.applyEnt (s : State) (k : Nat) (e : WEnt) : State :=
  match e.kind, e.place with
  | .store, .sys a => s.gateWrite k e.uid a e.data
  | .store, p => s.homeWrite p e.data
  | .red op t mode, .mem pa => (s.applyRed e.place op t mode e.data).modCore k fun (c : Core) => { c with cv := adel (pa / 32) c.cv }
  | .red op t mode, p => s.applyRed p op t mode e.data
  | .boExp n, .scr k' off => s.updateObj (k', off) (.expect n) e.clock
  | .boArr n, .scr k' off => s.updateObj (k', off) (.arrive n) e.clock
  | .msg id, _ => { s with flight := s.flight.map fun m => if m.id = id then { m with sent := true } else m }
  | _, _ => s

/-- Waiting fences of a core that have nothing left to wait for complete (R184). -/
def State.wakeFences (s : State) (k : Nat) : State :=
  let c := s.core k
  let ready := c.warps.flatMap fun w => w.2.gangs.filterMap fun g => match g.wait with
    | .fence scope mark len => if fenceDone c w.1 scope mark then some (w.1, g.id, scope, len) else none
    | _ => none
  let s1 := ready.foldl (fun s q => match s.envOf k q.1 q.2.1 with
    | some e => e.done q.2.2.2 (s.acquire k q.1 q.2.2.1)
    | none => s) s
  -- a gang whose MSEND met a full buffer goes on once its messages have left (R136)
  let senders := (s1.core k).warps.flatMap fun w => w.2.gangs.filterMap fun g => match g.wait with
    | .msend ids len fr => if s1.flight.any fun m => !m.sent && ids.contains m.id then none else some (w.1, g.id, len, fr)
    | _ => none
  senders.foldl (fun s q => match s.envOf k q.1 q.2.1 with
    | some e => e.done q.2.2.1 (s.modWarp k q.1 fun w => w.free q.2.2.2)
    | none => s) s1

/-! ## Drain (R176) -/

/-- The head of a store queue may leave: it is not held (R120), and an own-scratchpad write with a release wide of the core has nothing
to wait for in OB (R182). -/
def canDrain (s : State) (k slot : Nat) (e : WEnt) : Bool :=
  !(e.held && (match s.warp? k slot with
    | some w => (match alook w.team (s.core k).teams with | some t => s.speculative t.uid | none => false)
    | none => false)) &&
  (match e.place with
    | .scr k' _ => decide (k' ≠ k) || releasedAt (s.core k).ob e.rel slot (s.core k).seq
    | _ => true)

/-- Drain the head of a warp's store queue. -/
def State.drain (s : State) (k slot : Nat) : State :=
  match s.warp? k slot with
  | none => s
  | some w => match w.sq with
    | [] => s
    | e :: rest =>
      if ¬ canDrain s k slot e then s
      else
        let s1 := s.modWarp k slot fun w => { w with sq := rest }
        let out (f : Core → Core) : State := s1.modCore k fun (c : Core) =>
          let c := f c
          { c with ob := c.ob ++ [{ e with ob := c.seq }], seq := c.seq + 1 }
        let s2 := match e.place, e.kind with
          | .scr k' _, .store => if k' = k then s1.homeWrite e.place e.data else out id
          | .scr k' _, .red op t mode => if k' = k then s1.applyRed e.place op t mode e.data else out id
          | .mem pa, .store => out fun c => c.cvUpdate pa e.data
          | .mem pa, .red .. => out fun c => { c with cv := adel (pa / 32) c.cv }
          | _, _ => out id
        (s2.wakeFences k).settleTeam k w.team

/-- STORE_QUEUE_DRAIN: core, warp. -/
def execStoreQueueDrain (s : State) : Host.Outcome State Fault Refusal := .next (s.drain s.ev.core s.ev.warp)

/-! ## Send (R177) -/

/-- Entry `i` of OB may leave: no older entry covers its sector, and its release has waited (R177, R182). -/
def canSend (ob : List WEnt) (i : Nat) : Bool :=
  match ob[i]? with
  | none => false
  | some e =>
    let older := ob.take i
    !e.sent && !(obHas older e.place) &&
    (decide (e.rel < 2) || !(older.any fun q => match q.kind, q.place with | .msg _, _ => false | _, .sys _ => decide (e.rel = 5) | _, _ => true))

/-- A message with a release waits for the tasks its warp had entered (R134), and any for room at its target (R136). -/
def State.msgHeld (s : State) (k : Nat) (e : WEnt) : Bool :=
  match e.kind with
  | .msg id => (match s.flight.find? fun m => m.id = id with
    | some m => s.inboxFull m.core || m.tasks.any fun t => (alook t (s.core k).tasks).isSome
    | none => false)
  | _ => false

/-- Remove an entry of OB by its number. -/
def Core.dropOb (c : Core) (n : Nat) : Core := { c with ob := c.ob.filter fun q => q.ob ≠ n }

/-- After entries of a core have left, what waited for them goes on. -/
def State.left (s : State) (k : Nat) : State := s.wakeFences k

/-- Context that a core's writes for a launch carry; a firmware core's is that of its FWMODE (R434). -/
def State.ctxOf (s : State) (k uid : Nat) : Nat :=
  if isFw k then (s.die (dieOf k)).fwMode / 65536 % 4096 else match s.launch uid with | some l => l.ctx | none => 0

/-- OUTBOUND_SEND: core, `n` place in the buffer. With `k` 0 the entry reaches its target at once; with `k` 1 a memory write travels as
a packet whose arrival is a step of its own (R129; log 23). -/
def execOutboundSend (s : State) : Host.Outcome State Fault Refusal :=
  let k := s.ev.core
  let c := s.core k
  if ¬ canSend c.ob s.ev.n then .next s
  else match c.ob[s.ev.n]? with
    | none => .next s
    | some e =>
      if s.msgHeld k e then .next s
      else match s.ev.k, e.place with
        | 1, .mem pa => .next (((s.openXch k e.uid (s.ctxOf k e.uid) pa (.ob e)).map fun s1 =>
            s1.modCore k fun (c : Core) => { c with ob := c.ob.map fun q => if q.ob = e.ob then { q with sent := true } else q }).getD s)
        | _, _ => .next (((s.applyEnt k e).modCore k fun (c : Core) => c.dropOb e.ob).left k)

/-! ## Fetch and Evict (R178) -/

/-- FETCH: core, `n` sector of memory. -/
def execFetch (s : State) : Host.Outcome State Fault Refusal :=
  .next (if 32 * s.ev.n + 32 ≤ Config.hbmBytes then s.fetchSector s.ev.core s.ev.n else s)

/-- EVICT: core, `n` sector. -/
def execEvict (s : State) : Host.Outcome State Fault Refusal :=
  .next (s.modCore s.ev.core fun (c : Core) => { c with cv := adel s.ev.n c.cv })

/-! ## Accesses that complete (R109, R179) -/

/-- The next access: the first that is translated, in lane order (R174, R221). -/
def nextAcc (s : State) (p : Party) : List Acc → Option (Acc × Hit)
  | [] => none
  | a :: rest => match a.seq, a.xlat s p with
    | none, .hit h => some (a, h)
    | _, _ => nextAcc s p rest

/-- A lane with nothing left, of which no entry was delivered, has completed; one that was only held for its page has not (R220, R464). -/
def MemWait.without (m : MemWait) (a : Acc) : MemWait :=
  let accs := m.accs.erase a
  { m with accs := accs
           done := if m.again || accs.any (fun b => b.lane = a.lane) || m.deliv.any (fun d => d.2.2.getLsbD a.lane) then m.done else m.done ||| maskOf [a.lane] }

/-- The threads that have not completed, for a fault-queue entry (R111, R465). -/
def MemWait.open (m : MemWait) : Mask := if m.once then maskOf (m.accs.map (·.lane)) else m.lanes &&& ~~~m.done

/-- An access has been performed: the instruction retires with the last one. -/
def State.accDone (s : State) (e : Env) (m : MemWait) (a : Acc) : State :=
  let m1 := m.without a
  match m1.accs with
  | [] => s.finishMem e m1
  | _ => s.modGang e.k e.slot e.gid fun x => { x with wait := .mem m1 }

/-- Take the next access, of a lane and a kind. A deterministic launch first has every access translated, then checks all of them (R191); an access
that has lost its translation asks for it again. -/
def State.takeAcc (s : State) (k slot g lane : Nat) (want : AccKind → Bool) : State :=
  match s.envOf k slot g with
  | none => s
  | some e => match e.gang.wait with
    | .mem m =>
      let p := Env.party s e
      if e.det && !m.checked && !m.again then
        (match s.startMem e m with
        | .ok s1 => s1
        | .error t => s.takeTrap k slot g t m.len)
      else match nextAcc s p m.accs with
        | none => s.walked p m.accs
        | some (a, h) =>
          if ¬ want a.kind ∨ a.lane ≠ lane ∨ a.xch ≠ none then s.walked p (m.accs.filter fun b => b.lane = lane)
          else match s.performAcc e a h with
            | none => s
            | some s1 => s1.accDone e m a
    | _ => s

/-- A returning atomic. -/
def AccKind.returns : AccKind → Bool
  | .atom .. => true
  | .cas .. => true
  | _ => false

/-- ACCESS_COMPLETE: core, warp, gang, lane. -/
def execAccessComplete (s : State) : Host.Outcome State Fault Refusal :=
  .next (s.takeAcc s.ev.core s.ev.warp s.ev.gang s.ev.lane fun k => !k.returns)

/-- The next access of a gang, a returning atomic of the lane on memory, is sent as an exchange (R129); the gang waits for its response. -/
def State.sendAtom (s : State) (k slot g lane : Nat) : State :=
  match s.envOf k slot g with
  | none => s
  | some e => match e.gang.wait with
    | .mem m =>
      if e.det && !m.checked && !m.again then s
      else match nextAcc s (Env.party s e) m.accs with
        | none => s
        | some (a, h) => match h.place with
          | .mem pa =>
            if ¬ a.kind.returns ∨ a.lane ≠ lane ∨ a.xch ≠ none ∨ s.atomWaits e e.warp a h then s
            else
              let uid := e.team.uid.getD 0
              ((s.openXch k uid (s.ctxOf k uid) pa (.atom slot g a)).map fun s1 =>
                s1.modGang k slot g fun x => { x with wait := .mem { m with accs := m.accs.map fun b => if b = a then { b with xch := some s.nextXch, place := some h.place } else b } }).getD s
          | _ => s
    | _ => s

/-- ATOMIC_PERFORM: core, warp, gang, lane. With `k` 0 it is performed at its home and returns at once; with `k` 1 an atomic on memory travels as an
exchange (R129; log 23). -/
def execAtomicPerform (s : State) : Host.Outcome State Fault Refusal :=
  .next (if s.ev.k = 1 then s.sendAtom s.ev.core s.ev.warp s.ev.gang s.ev.lane else s.takeAcc s.ev.core s.ev.warp s.ev.gang s.ev.lane AccKind.returns)

/-! ## Walks (R108 to R110) -/

/-- A waiter of a page: a gang whose fetch or accesses wait for it, or a task. -/
inductive Waiter where
  | gang (core warp gang : Nat)
  | task (core id : Nat)
  deriving DecidableEq, Repr

/-- Accesses of an instruction that wait for the walk of a page. -/
def waitsOn (s : State) (p : Party) (page : Nat) (a : Acc) : Bool :=
  a.seq.isNone && a.place.isNone && decide (pageOf a.va = page) && (match a.xlat s p with | .hit _ => false | _ => true)

/-- Gangs of a die that wait for the walk of a page of a context, and tasks. -/
def State.waiters (s : State) (die ctx page : Nat) : List Waiter :=
  (s.cores.filter fun c => dieOf c.1 = die).flatMap fun c =>
    (c.2.warps.flatMap fun w => w.2.gangs.filterMap fun g =>
      match s.envOf c.1 w.1 g.id with
      | none => none
      | some e =>
        let p := Env.party s e
        let hit : Bool := match g.wait with
          | .mem m => m.accs.any (waitsOn s p page)
          | .fetch va none => decide (pageOf va = page)
          | _ => false
        if p.ctx = ctx ∧ ¬ s.physical p ∧ hit then some (.gang c.1 w.1 g.id) else none) ++
    c.2.tasks.filterMap fun t => match t.2.page with
      | some (va, _) => if t.2.seq.isNone ∧ pageOf va = page ∧ (t.2.party s c.1).ctx = ctx then some (.task c.1 t.1) else none
      | none => none

/-- Cache a translation in front of older ones, which TLBI alone drops (R107). -/
def State.cache (s : State) (die : Nat) (t : TlbEnt) : State := s.modDie die fun d => { d with tlb := t :: d.tlb.filter (· ≠ t) }

/-- A task ends in an engine error (R154): recorded under class 14, the team is killed. -/
def State.taskError (s : State) (k id : Nat) : State :=
  match alook id (s.core k).tasks with
  | none => s
  | some t => (s.modCore k fun (c : Core) => { c with tasks := adel id c.tasks }).teamError 14 k t.slot

/-- One waiter meets the outcome of the walk; a STAGED fault ends a task at once (R154); false when an entry is needed and the queue is full.
DESIGN CHOICE (log 92): one page, one entry is taken per 4 KiB piece of a larger page. -/
def State.serve (s : State) (die ctx page : Nat) (r : Except Nat TlbEnt) (w : Waiter) : State × Bool :=
  match w with
  | .gang k slot g =>
    (match s.envOf k slot g with
    | none => (s, true)
    | some e =>
      let p := Env.party s e
      let cause (va kind : Nat) : Option Nat := match r with
        | .error c => some c
        | .ok t => (match resolve s p t va kind with | .error c => some c | .ok _ => none)
      match e.gang.wait with
      | .fetch va none =>
        (match cause va 3 with
        | none => (s.modGang k slot g fun x => { x with wait := .ready }, true)
        | some c =>
          if fqFull (s.die die) then (s, false)
          else
            let (s1, n) := s.placeFault die { core := k, warp := slot, gang := g, task := none, ctx := ctx, va := va, kind := 3, cause := c, mask := 0 }
            (s1.modGang k slot g fun x => { x with wait := .fetch va (some n) }, true))
      | .mem m =>
        let here := m.accs.filter fun a => a.seq.isNone && a.place.isNone && decide (pageOf a.va = page)
        (match here.find? fun a => (cause a.va a.kindCode).isSome with
        | none =>
          -- a touch is complete once its page is translated
          let m1 := here.foldl (fun m a => match a.kind with | .touch => m.without a | _ => m) m
          (match m1.accs with
          | [] => (s.finishMem e m1, true)
          | _ => (s.modGang k slot g fun x => { x with wait := .mem m1 }, true))
        | some a =>
          if fqFull (s.die die) then (s, false)
          else
            let (s1, n) := s.placeFault die { core := k, warp := slot, gang := g, task := none, ctx := ctx, va := a.va, kind := a.kindCode
                                              cause := (cause a.va a.kindCode).getD 1, mask := m.open }
            (s1.modGang k slot g fun x => { x with wait := .mem { m with accs := m.accs.map fun b => if here.contains b then { b with seq := some n } else b } }, true))
      | _ => (s, true))
  | .task k id =>
    (match alook id (s.core k).tasks with
    | none => (s, true)
    | some t => match t.page with
      | none => (s, true)
      | some (va, kind) =>
        let p := t.party s k
        let cause : Option Nat := match r with
          | .error c => some c
          | .ok e => (match resolve s p e va kind with | .error c => some c | .ok _ => none)
        match cause with
        | none => (s.modCore k fun (c : Core) => c.modTask id fun t => { t with page := none }, true)
        | some c =>
          if c = 4 then (s.taskError k id, true)
          else if fqFull (s.die die) then (s, false)
          else
            let (s1, n) := s.placeFault die { core := k, warp := t.warp, gang := 0, task := some id, ctx := ctx, va := va, kind := kind, cause := c, mask := 0 }
            (s1.modCore k fun (c : Core) => c.modTask id fun t => { t with seq := some n }, true))

/-- WALK_COMPLETE: die, `n` context, `k` page, one of the oldest 32, which have a walker (R108). A walk that ends in a fault while the queue is
full waits there (R110). -/
def execWalkComplete (s : State) : Host.Outcome State Fault Refusal :=
  let die := s.ev.die
  let ctx := s.ev.n
  let page := s.ev.k
  if ¬ ((s.die die).walks.take 32).contains (ctx, page) then .next s
  else
    let va := ext57 (page * 4096)
    let r := walk s die ctx va
    let s1 := match r with | .ok t => s.cache die t | .error _ => s
    let (s2, all) := (s.waiters die ctx page).foldl (fun (q : State × Bool) w => let x := q.1.serve die ctx page r w; (x.1, q.2 && x.2)) (s1, true)
    .next (if all then s2.modDie die fun d => { d with walks := d.walks.filter (· ≠ (ctx, page)) } else s2)

/-! ## The fault queue's registers (R112) -/

/-- The entries with a number are retried: the walk is made again. -/
def State.fqRetry (s : State) (die seq : Nat) : State :=
  match alook seq (s.die die).fq with
  | none => s
  | some x =>
    let s := s.modDie die fun d => { d with fq := adel seq d.fq }
    let s := s.addWalk die x.ctx x.va
    match x.task with
    | some id => s.modCore x.core fun (c : Core) => c.modTask id fun t => if t.seq = some seq then { t with seq := none } else t
    | none => s.modGang x.core x.warp x.gang fun g => match g.wait with
      | .fetch va (some n) => if n = seq then { g with wait := .fetch va none } else g
      | .mem m => { g with wait := .mem { m with accs := m.accs.map fun a => if a.seq = some seq then { a with seq := none } else a } }
      | _ => g

/-- An entry is delivered (R112, R464, R465): the fetch traps, the instruction traps once its last entry is resolved, the task ends. -/
def State.fqDeliver (s : State) (die seq : Nat) : State :=
  match alook seq (s.die die).fq with
  | none => s
  | some x =>
    let s := s.modDie die fun d => { d with fq := adel seq d.fq }
    match x.task with
    | some id => s.taskError x.core id
    | none => match s.envOf x.core x.warp x.gang with
      | none => s
      | some e => match e.gang.wait with
        | .fetch _ (some n) => if n = seq then s.takeTrap x.core x.warp x.gang { cls := 3, reason := x.cause, mask := 0 } 4 else s
        | .mem m =>
          let here := m.accs.filter fun (a : Acc) => a.seq = some seq
          let ls := maskOf (here.map fun a => a.lane)
          let m1 := { m with accs := m.accs.filter fun a => a.seq ≠ some seq, deliv := m.deliv ++ [(seq, x.cause, ls)] }
          (match m1.accs with
          | [] => s.finishMem e m1
          | _ => s.modGang x.core x.warp x.gang fun g => { g with wait := .mem m1 })
        | _ => s

/-- FQHEAD moves only within what is queued. -/
def State.fqHeadTo (s : State) (die h : Nat) : State :=
  s.modDie die fun d =>
    if (h + (2 ^ 32 - d.fqHead)) % 2 ^ 32 ≤ (d.fqTail + (2 ^ 32 - d.fqHead)) % 2 ^ 32 then { d with fqHead := h % 2 ^ 32 } else d

/-- FQRETRY_WRITE: die, value. -/
def execFqretryWrite (s : State) : Host.Outcome State Fault Refusal := .next (s.fqRetry s.ev.die (s.ev.v.toNat % 2 ^ 32))
/-- FQDELIVER_WRITE: die, value. -/
def execFqdeliverWrite (s : State) : Host.Outcome State Fault Refusal := .next (s.fqDeliver s.ev.die (s.ev.v.toNat % 2 ^ 32))
/-- FQHEAD_WRITE: die, value. -/
def execFqheadWrite (s : State) : Host.Outcome State Fault Refusal := .next (s.fqHeadTo s.ev.die (s.ev.v.toNat % 2 ^ 32))

/-- REFRESH_SLOT_END: the die's cycle moves to the next slot of the weight store's rotation (R113). -/
def execRefreshSlotEnd (s : State) : Host.Outcome State Fault Refusal :=
  let d := s.die s.ev.die
  let s1 := s.setDie s.ev.die { d with cycle := (d.cycle / 256 + 1) * 256 }
  -- stalled reads are served
  let waiting := (s1.cores.filter fun c => dieOf c.1 = s.ev.die).flatMap fun c => c.2.warps.flatMap fun w => w.2.gangs.flatMap fun g => match g.wait with
    | .mem m => m.accs.filterMap fun a => match a.place with | some (.ws _) => some (c.1, w.1, g.id, a.lane) | _ => none
    | _ => []
  .next (waiting.foldl (fun s q => s.takeAcc q.1 q.2.1 q.2.2.1 q.2.2.2 fun k => match k with | .load .. => true | _ => false) s1)

end Sys2Proof.Machine
end

