-- ==== Sys2Proof/Machine/NamedBarriers.lean ====
section
/-!
DEFINITION. Named barriers BARA, BARW and BARS (R365 to R367), and the rectangle barrier RBAR (R368).
-/
namespace Sys2Proof.Machine

/-- The barrier trap: class 7, TRAPMASK the active threads (R367). -/
def barTrap (e : Env) (reason : Nat) : Trap := { cls := 7, reason := reason, mask := maskOf e.lanes }

/-! ## Arrivals and waits (R365) -/

/-- A barrier after an arrival of `a` threads under a count, with what they publish; whether the phase completes, or the reason. -/
def Barrier.arrive (b : Barrier) (w a count : Nat) (c : Clock) : Except Nat (Barrier × Bool) :=
  if count = 0 ∨ 16 * w < count then .error 2
  else
    let exp := b.exp.getD count
    if count ≠ exp then .error 2
    else if exp < b.arr + a then .error 3
    else
      let p := Clock.join b.pend c
      if b.arr + a = exp then .ok ({ b with exp := none, arr := 0, phase := !b.phase, pend := [], clock := p }, true)
      else .ok ({ b with exp := some exp, arr := b.arr + a, pend := p }, false)

/-- A slice of the gang has the barrier's pending bit. -/
def Warp.pendingAt (w : Warp) (g id : Nat) : Bool := (w.gangSlices g).any fun i => (w.slice i).pending.contains id

/-- A completed phase clears its pending bits in the team, and gangs that waited for it go on (R365, R189 edge 3). -/
def State.clearPending (s : State) (k t id : Nat) (c : Clock) : State :=
  s.modCore k fun (x : Core) => { x with warps := x.warps.map fun p =>
    if p.2.team ≠ t then p
    else
      let w := { p.2 with slices := p.2.slices.map fun (i : Slice) => 
        if i.pending.contains id then { i with pending := i.pending.filter (· ≠ id), passed := aput id c i.passed } else i }
      (p.1, { w with gangs := w.gangs.map fun g => match g.wait with
        | .barrier j => if j = id then ({ g with wait := .ready }).after c else g
        | _ => g }) }

/-- The gang arrives: its live slices become pending. -/
def State.arrive (s : State) (e : Env) (id : Nat) (b : Barrier) (full : Bool) : State :=
  let s := s.modTeam e.k e.warp.team fun t => { t with barriers := t.barriers.set id b }
  let s := s.modWarp e.k e.slot fun w => (w.gangSlices e.gid).foldl (fun w i => w.modSlice i fun x =>
    { x with pending := if x.pending.contains id then x.pending else x.pending ++ [id] }) w
  if full then s.clearPending e.k e.warp.team id b.clock else s

/-- What the phases that a gang's slices arrived in have ordered before it. -/
def Warp.passedAt (w : Warp) (g id : Nat) : Clock := (w.gangSlices g).foldl (fun c i => Clock.join c ((alook id (w.slice i).passed).getD [])) []

/-- After its BARW or BARS the gang stays while a slice is pending; otherwise it passes, ordered after the phase that it arrived in. -/
def State.waitAt (s : State) (k slot g id : Nat) : State :=
  match s.envOf k slot g with
  | none => s
  | some e =>
    if e.warp.pendingAt g id then e.stall (.barrier id) s
    else s.modGang k slot g fun x => x.after (e.warp.passedAt g id)

/-- BARA, BARW and BARS: `arr` arrives, `wait` waits, `count` for an arrival. The arrival follows the drain of the warp's store queue. -/
def namedBarrier (s : State) (len : Nat) (g : Guard) (id : Nat) (arr wait : Bool) (count : State → Env → Nat) (trap : Env → Option Trap) :
    Host.Outcome State Fault Refusal :=
  control s len g (fun _ _ => false) fun s e =>
    match trap e with
    | some t => .error t
    | none =>
      if e.team.barriers.length ≤ id then .error (barTrap e 1)
      else if ¬ arr then .ok ((e.done len s).waitAt e.k e.slot e.gid id)
      else
        let n := count s e
        match (e.team.barriers.getD id {}).arrive e.w e.lanes.length n [] with
        | .error r => .error (barTrap e r)
        | .ok _ =>
          if e.warp.sq ≠ [] then .ok (e.stall .retry s)
          else
            let (c, s) := e.publish (s.drawn 1)
            match (e.team.barriers.getD id {}).arrive e.w e.lanes.length n c with
            | .error r => .error (barTrap e r)
            | .ok (b, full) =>
              let s1 := (s.arrive e id b full)
              let s2 := e.done len s1
              .ok (if wait then s2.waitAt e.k e.slot e.gid id else s2)

/-- The C32 count is k × W of the launch. -/
def countC32 (x : Op) (_ : State) (e : Env) : Nat := x.lit / 64 % 32 * e.w
/-- The X96 count. -/
def countX (opc : Nat) (x : Op) (s : State) (_ : Env) : Nat := uniA s opc x
/-- Register trap of an X96 count. -/
def countTrap (opc : Nat) (x : Op) (e : Env) : Option Trap := e.regTrap x (rowAt opc x) (maskOf e.lanes)

/-- BARA (C32). -/
def execBaraC32 (x : C32I) (s : State) : Host.Outcome State Fault Refusal :=
  namedBarrier s 4 x.op.g (x.op.lit % 64) true false (countC32 x.op) fun _ => none
/-- BARA. -/
def execBara (x : X96) (s : State) : Host.Outcome State Fault Refusal :=
  namedBarrier s 12 x.op.g (x.op.op7 % 64) true false (countX 0x10 x.op) (countTrap 0x10 x.op)
/-- BARW (C32). -/
def execBarwC32 (x : C32I) (s : State) : Host.Outcome State Fault Refusal :=
  namedBarrier s 4 x.op.g (x.op.lit % 64) false true (fun _ _ => 0) fun _ => none
/-- BARW. -/
def execBarw (x : X96) (s : State) : Host.Outcome State Fault Refusal :=
  namedBarrier s 12 x.op.g (x.op.op7 % 64) false true (fun _ _ => 0) fun _ => none
/-- BARS (C32). -/
def execBarsC32 (x : C32I) (s : State) : Host.Outcome State Fault Refusal :=
  namedBarrier s 4 x.op.g (x.op.lit % 64) true true (countC32 x.op) fun _ => none
/-- BARS. -/
def execBars (x : X96) (s : State) : Host.Outcome State Fault Refusal :=
  namedBarrier s 12 x.op.g (x.op.op7 % 64) true true (countX 0x12 x.op) (countTrap 0x12 x.op)

/-! ## Subgroups (R363) and RBAR (R368) -/

/-- Origin cluster, height and width of a subgroup word in a launch; none when the word is invalid. -/
def subgroupOf (l : Launch) (word : Nat) : Option (Nat × Nat × Nat × Nat) :=
  let h := 2 ^ bitsOf word 12 10
  let w := 2 ^ bitsOf word 9 7
  let oy := bitsOf word 6 4
  let ox := bitsOf word 3 0
  if word / 2 ^ 13 ≠ 0 ∨ 3 < bitsOf word 12 10 ∨ 4 < bitsOf word 9 7 ∨ ox % w ≠ 0 ∨ oy % h ≠ 0 ∨ l.cw < ox + w ∨ l.ch < oy + h then none
  else some (l.ocr + oy, l.occ + ox, h, w)

/-- Teams of a launch's record. -/
def Launch.teamCount (l : Launch) : Nat := l.segs.foldl (fun n g => n + g.teams) 0

/-- A one-per-core launch (R355): one grid of four teams for each cluster of its rectangle. -/
def Launch.onePerCore (l : Launch) : Bool := decide (l.segs.length = 1 ∧ l.teamCount = 4 * (l.ch * l.cw))

/-- A core lies in a subgroup. -/
def inSubgroup (r : Nat × Nat × Nat × Nat) (k : Nat) : Bool :=
  let i := coreRow k / 2
  let j := coreCol k / 2
  !isFw k && decide (r.1 ≤ i ∧ i < r.1 + r.2.2.1 ∧ r.2.1 ≤ j ∧ j < r.2.1 + r.2.2.2)

/-- A gang stands at an RBAR on the word and its release is met. -/
def Gang.rbarReady (g : Gang) (c : Core) (slot word : Nat) : Bool :=
  match g.wait with
  | .rbar w mark _ => decide (w = word) && fenceDone c slot 4 mark
  | _ => false

/-- A team has arrived: every gang of every warp it still has. -/
def Core.teamAt (c : Core) (t word : Nat) : Bool :=
  c.warps.all fun w => decide (w.2.team ≠ t) || !(w.2.lanes.any (·.live)) || w.2.gangs.all fun g => g.rbarReady c w.1 word

/-- Every team of the subgroup has arrived: those on its cores, and none waits for a re-run or a restore there. -/
def State.rbarMet (s : State) (u word : Nat) : Bool :=
  match s.launch u with
  | none => false
  | some l => match subgroupOf l word with
    | none => false
    | some r =>
      (s.cores.all fun c => !(inSubgroup r c.1) || c.2.teams.all fun t => decide (t.2.uid ≠ some u ∨ t.2.kind ≠ .grid) || c.2.teamAt t.1 word) &&
      !(l.reruns.any fun q => inSubgroup r q.core) &&
      !(s.saved.any fun x => decide (x.uid = u) && l.quads.any fun q => decide (q.1 = x.team.seg ∧ q.2.1 = x.team.quad) &&
        inSubgroup r (clusterCore q.2.2.1 q.2.2.2 x.team.pos))

/-- Gangs of a launch that stand at an RBAR on the word: core, warp, gang, length. -/
def State.rbarGangs (s : State) (u word : Nat) : List (Nat × Nat × Nat × Nat) :=
  s.cores.flatMap fun c => c.2.warps.flatMap fun w => w.2.gangs.filterMap fun g => match g.wait with
    | .rbar x _ len => if x = word ∧ ((alook w.2.team c.2.teams).bind fun t => t.uid) = some u then some (c.1, w.1, g.id, len) else none
    | _ => none

/-- When the phase completes, every warp stalled at that RBAR goes on, with an acquire at package scope and after every arrival. -/
def State.tryRbar (s : State) (u word : Nat) : State :=
  if ¬ s.rbarMet u word then s
  else
    let gs := s.rbarGangs u word
    let c := gs.foldl (fun c q => match s.envOf q.1 q.2.1 q.2.2.1 with | some e => Clock.join c e.gang.publish.1 | none => c) []
    gs.foldl (fun s q => match s.envOf q.1 q.2.1 q.2.2.1 with
      | some e => e.done q.2.2.2 ((s.modGang q.1 q.2.1 q.2.2.1 fun g => g.publish.2.after c).acquire q.1 q.2.1 4)
      | none => s) s

/-- Gangs of a core at RBARs whose phases have completed go on. -/
def State.wakeRbars (s : State) (k : Nat) : State :=
  ((s.core k).warps.flatMap fun w => w.2.gangs.filterMap fun g => match g.wait with
    | .rbar word _ _ => ((alook w.2.team (s.core k).teams).bind fun t => t.uid).map fun u => (u, word)
    | _ => none).foldl (fun s q => s.tryRbar q.1 q.2) s

/-- RBAR. -/
def execRbar (x : X96) (s : State) : Host.Outcome State Fault Refusal :=
  let x := x.op
  control s 12 x.g (fun _ _ => false) fun s e =>
    match countTrap 0x13 x e with
    | some t => .error t
    | none =>
      let word := uniA s 0x13 x
      let s := s.drawn 1
      let bad : Bool := match e.launch with
        | none => true
        | some l => !l.onePerCore || (match subgroupOf l word with | none => true | some r => !(inSubgroup r e.k))
      let clash : Bool := (s.core e.k).warps.any fun w => decide (w.1 ≠ e.slot ∧ w.2.team = e.warp.team) && w.2.gangs.any fun g => match g.wait with
        | .rbar o _ _ => decide (o ≠ word)
        | _ => false
      if bad ∨ clash then .error (barTrap e 4)
      else .ok ((e.stall (.rbar word (s.core e.k).seq 12) s).tryRbar (e.team.uid.getD 0) word)

end Sys2Proof.Machine
end

