-- ==== Sys2Proof/Machine/Engine.lean ====
section
/-!
DEFINITION. The engines' common course (R150 to R154, R158, R159, R186): entering tasks, starting them, their reads and writes, their
signals and their end.
-/
namespace Sys2Proof.Machine

/-! ## Entering the table (R150, R152) -/

/-- Engine of a job: 0 copy engine, 1 matrix unit, 2 reduction engine, 3 summary engine. -/
def Job.engine : Job → Nat
  | .copy _ => 0
  | .mma .. => 1
  | .obld .. => 1
  | .accst .. => 1
  | .reduce .. => 2
  | .summ .. => 3

/-- Spaces a job writes, as DRAIN's mask (R165). -/
def Job.writes : Job → Nat
  | .copy r => 2 ^ r.dsp
  | .reduce _ _ _ _ dsc _ _ _ _ => if dsc then 2 else 1
  | .summ .. => 1
  | .accst _ _ _ dsc _ _ _ => if dsc then 2 else 1
  | .mma .. => 0
  | .obld .. => 0

/-- The follower of a leader core (R13). -/
def followerOf (k : Nat) : Nat := corePeer k (posOf k + 2)

/-- Rectangles of a task: core and rectangle; a pair task counts on both cores (R289). -/
def Task.rects (k : Nat) (t : Task) : List (Nat × Rect) :=
  match t.job with
  | .mma _ _ _ _ r _ _ pair _ _ _ => if pair then [(k, r), (followerOf k, r)] else [(k, r)]
  | .accst _ _ _ _ r _ _ => [(k, r)]
  | _ => []

/-- A speculative MMA enters (R298, R299): its bank on each core is the shadow that the token has already written, else the shadow fed from the
committed bank; its rectangles are recorded. -/
def Task.recorded (k : Nat) (tm : Team) (t : Task) : Task × Team :=
  match t.token, t.job with
  | some tok, .mma a b fa fb r kk n pair clear _ _ =>
    let old := tm.tokens.getD tok {}
    let bank (c : Nat) : Nat := if old.rects.contains (c, r) then 2 else 1
    ({ t with job := .mma a b fa fb r kk n pair clear (bank k) (bank (followerOf k)) },
      { tm with tokens := tm.tokens.set tok { old with rects := old.rects ++ t.rects k } })
  | _, _ => (t, tm)

/-- An entry is free for a team of the core: 64 in all, 32 for one team. -/
def Core.entryFree (c : Core) (slot : Nat) : Bool :=
  decide (c.tasks.length < 64) && decide ((c.tasks.filter fun p => p.2.slot = slot).length < 32)

/-- The team's own allocation: window bit 0, or WIN = 1 at its own position (R157). -/
def ownScr (k : Nat) (a : Nat) : Bool := !(scrAddr a).win || decide ((scrAddr a).pos = posOf k)

/-- An engine error (R154): recorded, the team killed. -/
def State.engineError (s : State) (k slot : Nat) : State := s.teamError 14 k slot

/-- Enter one task: its wait is tested; a wait reference to an untagged granule is an error. -/
def State.enterTask (s : State) (k : Nat) (t : Task) : State :=
  match alook t.slot (s.core k).teams with
  | none => s
  | some tm =>
    let c := s.core k
    let untagged : Bool := t.wref.getLsbD 0 && ((s.refPlace k tm t.wref).bind s.obj?).isNone
    if untagged then s.engineError k t.slot
    else
      let met := s.waitMet k tm t
      let ck : Clock := match met, (s.refPlace k tm t.wref).bind s.obj? with
        | true, some o => if t.wref.getLsbD 0 then Clock.join t.clock ((((s.refPlace k tm t.wref).map fun p => t.sees tm p o).getD o).clock) else t.clock
        | _, _ => t.clock
      let (t, tm) := Task.recorded k tm { t with state := if met then .ready else .waiting, obMark := c.seq, agent := s.nextAgent, clock := ck }
      { s.setCore k ({ c with tasks := aput c.nextTask t c.tasks, nextTask := c.nextTask + 1 }.modTeam t.slot fun _ => tm) with nextAgent := s.nextAgent + 1 }

/-- Enter tasks while entries are free; what is left. -/
def State.enterMany (k : Nat) : List Task → State → State × List Task
  | [], s => (s, [])
  | t :: rest, s =>
    if (s.core k).entryFree t.slot then State.enterMany k rest (s.enterTask k t) else (s, t :: rest)

/-! ## What waits on a core -/

/-- What every core had queued when a TLBI issued has been performed (R411). -/
def State.tlbiDone (s : State) (marks : List (Nat × Nat)) : Bool := marks.all fun m =>
  let c := s.core m.1
  !(c.ob.any fun q => decide (q.seq < m.2)) && !(c.warps.any fun w => w.2.sq.any fun q => decide (q.seq < m.2)) &&
  !(c.tasks.any fun t => t.2.eq.any fun q => decide (q.seq < m.2)) &&
  !(s.exchanges.any fun x => decide (x.2.core = m.1 ∧ x.2.num < m.2) && !x.2.lost && (alook x.1 s.filters).isNone)

/-- A run that a handle names among the 16 most recent of its die, and whether it is still active (R402). -/
def State.sqLook (s : State) (h : Nat) : Option (SqDone × Bool) :=
  let d := s.die (h / 2 ^ 30 % 4)
  (d.recent.find? fun x => x.serial = h % 2 ^ 30).map fun x => (x, match d.run with | some r => decide (r.serial = x.serial) | none => false)

/-- Gangs that wait for an entry enter more; gangs in DRAIN whose tasks are gone go on; fences complete. -/
def State.wakeCore (s : State) (k : Nat) : State :=
  let gangs := (s.core k).warps.flatMap fun w => w.2.gangs.map fun g => (w.1, g.id)
  (gangs.foldl (fun s q => match s.envOf k q.1 q.2 with
    | none => s
    | some e => match e.gang.wait with
      | .enter ts len fr =>
        let r := State.enterMany k ts s
        (match r.2 with
        | [] => e.done len (r.1.modWarp k q.1 fun w => w.free fr)
        | rest => if rest.length = ts.length then s else e.stall (.enter rest len fr) r.1)
      | .tlbi marks len => if s.tlbiDone marks then e.done len s else s
      | .sqwait h d len st => (match s.sqLook h with
        | none => e.stall .ready s
        | some (x, active) => if active then s
          else e.done len ((s.acquire k q.1 4).modWarp k q.1 fun w => w.writeUnis e.handling d 32 [svStamp x.status.toNat st]))
      | .drain ids len => if (s.core k).tasks.any fun t => ids.contains t.1 then s else e.done len s
      | _ => s) s).wakeFences k |>.wakeRbars k

/-- A task leaves the table: its entry is free, what waited goes on, an ending team may end. -/
def State.freeTask (s : State) (k id : Nat) : State :=
  match alook id (s.core k).tasks with
  | none => s
  | some t => ((s.modCore k fun (c : Core) => { c with tasks := adel id c.tasks }).wakeCore k).settleTeam k t.slot

/-! ## Reads and writes of a task (R158, R186) -/

/-- Why an engine's access does not take place now. -/
inductive EngStop where
  /-- A page must be translated first. -/
  | page (va kind : Nat)
  /-- It must wait. -/
  | later
  /-- It ends the task, in the state that its work so far has left (R154). -/
  | err (s : State)
  deriving DecidableEq, Repr

/-- Where `n` bytes at an address of a space (0 virtual, 1 scratchpad, 2 weight store) with a byte displacement lie. -/
def engPlace (s : State) (k : Nat) (tm : Team) (t : Task) (space base disp n kind : Nat) : Except EngStop Hit :=
  match space with
  | 0 =>
    let p := t.party s k
    let va := (base + disp) % 2 ^ 64
    if s.physical p then (if va + n ≤ Config.hbmBytes then .ok { place := .mem va } else .error (.err s))
    else if ¬ canonical va ∨ (sysAddr va ∧ 17 ≤ sysPort va) then .error (.err s)
    else (match translate s p va kind with
      | .hit h => .ok h
      | _ => .error (.page va kind))
  | 1 => (match s.scrPlace k tm (scrAddr base) ((scrAddr base).off + disp) n with
    | .ok pl => .ok { place := pl }
    | .error _ => .error (.err s))
  | _ => if base + disp + n ≤ Config.weightBytes then .ok { place := .ws (base + disp) } else .error (.err s)

/-- The launch of a task is deterministic. -/
def Task.det (s : State) (t : Task) : Bool := match (t.uid.bind s.launch).bind s.imageOf with | some i => i.det | none => false

/-- Sectors of `n` bytes at a place, as tracker keys. -/
def trackKeys (h : Hit) (n : Nat) : List Nat :=
  let tracked : Bool := match h.place with | .mem _ => h.rt | .scr _ _ => true | _ => false
  match tracked, h.place with
  | true, .mem pa => (List.range ((pa + n - 1) / 32 + 1 - pa / 32)).map (pa / 32 + ·)
  | true, .scr k off => (List.range ((off + n - 1) / 32 + 1 - off / 32)).map (2 ^ 40 + k * 2 ^ 16 + off / 32 + ·)
  | _, _ => []

/-- A task's access meets the race tracker (R190): none on a conflict. -/
def State.trackTask (s : State) (first : Nat) (t : Task) (h : Hit) (n kind : Nat) : Option State :=
  if ¬ t.det s then some s
  else
    let keys := trackKeys h n
    if keys.any fun key => (raceOf ((alook key s.tracks).getD []) t.agent t.clock kind 0).isSome then none
    else
      let x : Track := { agent := t.agent, epoch := Clock.epoch t.clock t.agent, kind := kind, uid := t.uid.getD 0, team := first }
      some { s with tracks := keys.foldl (fun m key => aput key (trackAdd ((alook key m).getD []) x) m) s.tracks }

/-- The bank of the weight store that refreshes (R113). -/
def Die.refreshing (d : Die) (off : Nat) : Bool := decide (off / 4096 % 16 = d.cycle / 256 % 16)

/-- Bytes at a place as a task reads them (R186): memory from the youngest entry of OB, else from its home. -/
def State.engBytes (s : State) (k : Nat) (p : Place) (n : Nat) : Option (List Byte) :=
  let ob := (s.core k).ob
  match p with
  | .scr _ _ => some (s.homeBytes 0 p n)
  | .ws off =>
    if (List.range n).any fun i => (s.die (dieOf k)).refreshing (off + i) then none else some (s.homeBytes (dieOf k) p n)
  | _ =>
    let bs := (List.range n).map (bindQueues [] ob p)
    if bs.contains .blocked then none
    else some (bs.zipIdx.map fun b => match b.1 with | .val x _ => x | _ => s.homeByte (dieOf k) p b.2)

/-- Space and address of what a task reads from memory, a window or the weight store. -/
def Job.source : Job → Option (Nat × Nat)
  | .copy r => some (r.ssp, r.src)
  | .reduce _ _ _ _ _ ssc _ src _ => some (if ssc then 1 else 0, src)
  | .summ _ _ src _ => some (0, src)
  | .obld _ _ _ ssc _ src _ _ _ => some (if ssc then 1 else 0, src)
  | .accst .. => none
  | .mma .. => none

/-- `m` bytes of the source at a displacement that were bound before the task started. -/
def Task.bound (t : Task) (space base d m : Nat) : Option (List Byte) :=
  if t.job.source = some (space, base) then (t.early.find? fun q => q.1 = d ∧ q.2.length = m).map (·.2) else none

/-- The task's own queue holds a write to one of the bytes: a later unit of a copy reads it after the write (R158). -/
def Task.queued (t : Task) (p : Place) (m : Nat) : Bool := t.eq.any fun q => (List.range m).any fun i => (q.covers p i).isSome

/-- Read `n` bytes, in parts that lie on one page each. -/
def State.engRead (s : State) (k : Nat) (tm : Team) (t : Task) (space base disp n : Nat) : Except EngStop (List Byte × State) :=
  let m := if space = 0 then min n (4096 - (base + disp) % 4096) else n
  let one (s : State) (d m : Nat) : Except EngStop (List Byte × State) :=
    if m = 0 then .ok ([], s)
    else match t.bound space base d m with
    | some bs => .ok (bs, s)
    | none => match engPlace s k tm t space base d m 4 with
      | .error x => .error x
      | .ok h => if t.queued h.place m then .error .later else match s.engBytes k h.place m with
        | none => .error .later
        | some bs => match s.trackTask tm.first t h m 0 with
          | none => .error (.err s)
          | some s1 => .ok (bs, s1)
  match one s disp m with
  | .error x => .error x
  | .ok (bs, s1) => match one s1 (disp + m) (n - m) with
    | .error x => .error x
    | .ok (bs', s2) => .ok (bs ++ bs', s2)

/-- A task that has not started may bind source bytes of memory, or of another position's allocation, unless its acquire covers them (R186);
not in a deterministic launch (log 85). -/
def State.bindEarly (s : State) (k id disp n : Nat) : State :=
  match alook id (s.core k).tasks with
  | none => s
  | some t => match t.job.source, alook t.slot (s.core k).teams with
    | some (space, base), some tm =>
      let may : Bool := !t.det s && decide (t.state ≠ .running ∧ n ≤ 32) && (decide (space = 0 ∧ t.acq < 2) || (decide (space = 1 ∧ t.acq < 2) && !ownScr k base))
      if ¬ may then s
      else match engPlace s k tm t space base disp n 4 with
        | .error _ => s
        | .ok h => match s.engBytes k h.place n with
          | none => s
          | some bs => s.modCore k fun (c : Core) => c.modTask id fun x => { x with early := x.early ++ [(disp, bs)] }
    | _, _ => s

/-- Read a long span in parts of 32 bytes; fuel: parts. -/
def State.engReadLong (k : Nat) (tm : Team) (t : Task) (space base : Nat) : Nat → Nat → Nat → State → List Byte → Except EngStop (List Byte × State)
  | 0, _, _, s, acc => .ok (acc, s)
  | f + 1, disp, n, s, acc =>
    if n = 0 then .ok (acc, s)
    else
      let m := min n (32 - (base + disp) % 32)
      match s.engRead k tm t space base disp m with
      | .error x => .error x
      | .ok (bs, s1) => State.engReadLong k tm t space base f (disp + m) (n - m) s1 (acc ++ bs)

/-- Write bytes within one sector: at once to scratchpad or the weight store, through the engine queue to memory (R186). -/
def State.engWrite (s : State) (k id : Nat) (tm : Team) (t : Task) (space base disp : Nat) (bs : List Byte) : Except EngStop State :=
  match engPlace s k tm t space base disp bs.length 5 with
  | .error x => .error x
  | .ok h =>
    match s.trackTask tm.first t h bs.length 1 with
    | none => .error (.err s)
    | some s1 => match h.place with
      | .scr k' off => if (s1.core k').tagged off bs.length then .error (.err s1) else .ok (s1.homeWrite h.place bs)
      | .ws off =>
        if ¬ (s1.die (dieOf k)).wsWindow then .error .later
        else .ok (s1.modDie (dieOf k) fun d => { d with
          ws := memWrite d.ws off bs, wsSource := memWrite d.wsSource off bs })
      | pl =>
        let e : WEnt := { seq := (s1.core k).seq, place := pl, va := (base + disp) % 2 ^ 64, data := bs, uid := t.uid.getD 0, slot := t.slot, warp := t.warp
                          held := (match pl with | .mem _ => !h.own && s.speculative t.uid | _ => false) }
        .ok (s1.modCore k fun (c : Core) => { (c.modTask id fun x => { x with eq := x.eq ++ [e] }) with seq := c.seq + 1 })

/-- Write a long span in units of the destination's sectors, ascending; fuel: units. -/
def State.engWriteLong (k id : Nat) (tm : Team) (t : Task) (space base : Nat) : Nat → Nat → List Byte → State → Except EngStop State
  | 0, _, _, s => .ok s
  | f + 1, disp, bs, s =>
    match bs with
    | [] => .ok s
    | _ =>
      let m := 32 - (base + disp) % 32
      match s.engWrite k id tm t space base disp (bs.take m) with
      | .error x => .error x
      | .ok s1 => State.engWriteLong k id tm t space base f (disp + m) (bs.drop m) s1

/-! ## Signals (R153, R161) -/

/-- Apply a task's signal, or hold it against its token; none is an engine error. -/
def State.signal (s : State) (k : Nat) (tm : Team) (t : Task) (u : BUpd) : Option State :=
  if ¬ t.sref.getLsbD 0 then some s
  else match s.refPlace k tm t.sref with
    | none => none
    | some p => match s.obj? p with
      | none => none
      | some o =>
        let ck : Clock := if t.det s then aput t.agent (Clock.epoch t.clock t.agent) t.clock else []
        match t.token with
        | some tok =>
          let h : Held := { core := p.1, off := p.2, bytes := (match u with | .landed n => some n | _ => none), clock := ck }
          some ((s.modTeam k t.slot fun x => { x with
            tokens := x.tokens.set tok { x.tokens.getD tok {} with held := (x.tokens.getD tok {}).held ++ [h] } }).tellAll p o)
        | none => match u.apply ck o with
          | none => none
          | some _ => some (s.updateObj p u ck)

/-- What an engine's stop does to its task: it waits for a page, stays as it is, or ends in an error. -/
def State.engStop (s : State) (k id : Nat) (x : EngStop) : State :=
  match x with
  | .later => s
  | .err s1 => s1.taskError k id
  | .page va kind => match alook id (s.core k).tasks with
    | none => s
    | some t =>
      let p := t.party s k
      (s.modCore k fun (c : Core) => c.modTask id fun t => { t with page := some (va, kind) }).addWalk p.die p.ctx va

/-- The release of a task has waited: every OB entry that stood at its entry has left (R186), messages apart, which write nothing. -/
def Task.released (c : Core) (t : Task) : Bool :=
  decide (t.rel < 2) || !(c.ob.any fun q => decide (q.ob < t.obMark) && (match q.kind with | .msg _ => false | _ => true))

/-- Nothing suspends the task. -/
def Task.moving (t : Task) : Bool := t.page.isNone && t.seq.isNone && decide (t.state = .running)

/-! ## The engine queue (R186) -/

/-- The head of a task's EQ is applied at its home; a copy's bytes land (R153, R186). -/
def State.eqApply (s : State) (k id : Nat) : State :=
  match alook id (s.core k).tasks with
  | none => s
  | some t => match t.eq, alook t.slot (s.core k).teams with
    | e :: rest, some tm =>
      let s1 := match e.place with
        | .sys a => s.gateWrite k e.uid a e.data
        | .mem pa => (s.homeWrite e.place e.data).modCore k fun (c : Core) => c.cvUpdate pa e.data
        | p => s.homeWrite p e.data
      let s2 := s1.modCore k fun (c : Core) => c.modTask id fun x => { x with eq := rest }
      (match t.job with
      | .copy _ => if t.rel ≠ 0 then s2 else (s2.signal k tm t (.landed e.data.length)).getD (s2.taskError k id)
      | _ => s2)
    | _, _ => s

/-- ENGINE_QUEUE_APPLY: core, `n` task. The head of EQ is applied at its home unless it is held (R187); with `k` 1 a memory write travels as an
exchange, and the queue waits for it (R129; log 23). -/
def execEngineQueueApply (s : State) : Host.Outcome State Fault Refusal :=
  let k := s.ev.core
  let id := s.ev.n
  match alook id (s.core k).tasks with
  | none => .next s
  | some t => match t.eq with
    | [] => .next s
    | e :: rest =>
      if e.sent || (e.held && s.speculative t.uid) then .next s
      else match s.ev.k, e.place with
        | 1, .mem pa => .next (((s.openXch k e.uid (s.ctxOf k e.uid) pa (.task id e)).map fun s1 =>
            s1.modCore k fun (c : Core) => c.modTask id fun x => { x with eq := { e with sent := true } :: rest }).getD s)
        | _, _ => .next (s.eqApply k id)

/-! ## Packets that arrive (R126 to R130) -/

/-- A packet is read at its destination, with the error of its flits that `k` says (R127, R128): 0 none, 1 corrected, 2 a payload flit that cannot be
corrected, 3 a header that cannot. Delivered: the state without it; otherwise what the error does. -/
def State.receive (s : State) (p : Packet) (x : Exchange) : Bool × State :=
  let gone : State := { s with packets := adel s.ev.n s.packets }
  let err (cls : Nat) : ErrorReport := { cls := cls, die := p.dst.die, onCK := false, core := localOf x.core, slot := 0, ctx := p.ctx, tag := 0, detail := none }
  if p.corrupt ∨ s.ev.k = 3 then (false, gone.raiseError (err 11))
  else if s.ev.k = 2 ∧ p.pfl ≠ 0 then (false, gone.raiseError (err 10))
  else if s.ev.k = 1 then (true, gone.raiseError (err 9))
  else (true, gone)

/-- The first arrival of a request is performed at its slice; what it returns (R130). -/
def State.performXch (s : State) (x : Exchange) : State × List Byte :=
  if x.void then (s, [])
  else match x.cargo with
    | .ob e =>
      if (s.core x.core).ob.any fun q => decide (q.ob = e.ob) then (((s.applyEnt x.core e).modCore x.core fun (c : Core) => c.dropOb e.ob).left x.core, [])
      else (s, [])
    | .atom _ _ a => let r := s.atomHome x.core (.mem x.pa) a; (r.1, natLe a.size r.2)
    | .task id e => match alook id (s.core x.core).tasks with
      | some t => if t.eq.head? = some { e with sent := true } then (s.eqApply x.core id, []) else (s, [])
      | none => (s, [])

/-- A packet with its exchange, of one of some kinds. -/
def State.packetAt (s : State) (kind : PKind → Bool) : Option (Packet × Exchange) :=
  (alook s.ev.n s.packets).bind fun p => if kind p.kind then (alook p.xch s.exchanges).map fun x => (p, x) else none

/-- KIND of a request that a replay filter sees, or of a header that makes it corrupt. -/
def PKind.isRequest : PKind → Bool
  | .ack => false
  | .response => false
  | _ => true

/-- FABRIC_REQUEST_ARRIVAL: `n` packet, `k` error. -/
def execFabricRequestArrival (s : State) : Host.Outcome State Fault Refusal :=
  match s.packetAt PKind.isRequest with
  | none => .next s
  | some (p, x) =>
    let full := (alook p.xch s.filters).isNone && decide (1024 ≤ s.filterHeld x.pa)
    let drop := x.lost || (s.die x.home).dropCtx.contains x.ctx
    let r := s.receive p x
    if full && !drop && !p.corrupt && decide (s.ev.k = 0) then .next s
    else if !r.1 then .next r.2.sweepLost
    else if drop then .next r.2.sweepLost
    else match alook p.xch r.2.filters with
      | some f => .next (({ r.2 with filters := aput p.xch { f with copies := f.copies ++ [p.copy] } r.2.filters }.respond p.xch x f.value).closeFilter p.xch)
      | none =>
        let d := r.2.performXch x
        .next (({ d.1 with filters := aput p.xch { copies := [p.copy], value := d.2, ctx := x.ctx } d.1.filters } : State).respond p.xch x d.2)

/-- The source takes a response (R129): an atomic's value goes to its thread. -/
def State.takeResponse (s : State) (n : Nat) (x : Exchange) (bs : List Byte) : State :=
  match x.cargo with
  | .atom slot g _ => match s.envOf x.core slot g with
    | none => s
    | some e => match e.gang.wait with
      | .mem m => match m.accs.find? fun a => a.xch = some n with
        | some a => (s.atomTake e a (leNat bs)).accDone e m a
        | none => s
      | _ => s
  | _ => s

/-- FABRIC_RESPONSE_ARRIVAL: `n` packet, `k` error. The first response counts: the source sends no further copy and acknowledges. -/
def execFabricResponseArrival (s : State) : Host.Outcome State Fault Refusal :=
  match s.packetAt fun k => k = .response with
  | none => .next s
  | some (p, x) =>
    let r := s.receive p x
    if !r.1 ∨ x.lost ∨ x.answered then .next r.2.sweepLost
    else
      let s1 : State := { r.2 with exchanges := aput p.xch { x with answered := true } r.2.exchanges }
      .next ((s1.takeResponse p.xch x p.data).acknowledge p.xch x)

/-- FABRIC_ACK_ARRIVAL: `n` packet, `k` error. -/
def execFabricAckArrival (s : State) : Host.Outcome State Fault Refusal :=
  match s.packetAt fun k => k = .ack with
  | none => .next s
  | some (p, x) =>
    let r := s.receive p x
    if !r.1 ∨ x.lost then .next r.2.sweepLost
    else match alook p.xch r.2.filters with
      | none => .next r.2
      | some f => .next (({ r.2 with filters := aput p.xch { f with ack := some p.copy } r.2.filters } : State).closeFilter p.xch)

/-- RETRANSMIT_TIMER_EXPIRY: `n` exchange. No response within 4,096 of the source's cycles: the next copy, at most 8 times, then the
fabric-timeout class. -/
def execRetransmitTimerExpiry (s : State) : Host.Outcome State Fault Refusal :=
  match alook s.ev.n s.exchanges with
  | none => .next s
  | some x =>
    let now := s.cycleOf x.core
    if x.lost ∨ x.answered ∨ now < x.last + 4096 then .next s
    else if 8 ≤ x.copies then
      .next (s.raiseError { cls := 12, die := dieOf x.core, onCK := false, core := localOf x.core, slot := 0, ctx := x.ctx, tag := 0, detail := none })
    else
      let x1 := { x with copies := x.copies + 1, last := now }
      .next (({ s with exchanges := aput s.ev.n x1 s.exchanges } : State).request s.ev.n x1 x1.copies)

end Sys2Proof.Machine
end

