-- ==== Sys2Proof/Machine/Tasks.lean ====
section
/-!
DEFINITION. CPY, KICK, DRAIN, REDUCE and SUMM (R156 to R170), and what their tasks compute.
-/
namespace Sys2Proof.Machine

/-! ## Records and references -/

/-- A copy record of 256 bits (R156). -/
def recOf (v : Nat) : CopyRec :=
  { sref := BitVec.ofNat 32 (bitsOf v 255 224), wref := BitVec.ofNat 32 (bitsOf v 223 192), dpitch := bitsOf v 191 176, spitch := bitsOf v 175 160
    rows := bitsOf v 159 148, len := bitsOf v 147 128, dsp := bitsOf v 127 126, spv := v.testBit 125, token := bitsOf v 124 123
    dst := if bitsOf v 127 126 = 0 then ext57 (bitsOf v 120 64) else bitsOf v 120 64
    ssp := bitsOf v 63 62, rel := v.testBit 61, acq := v.testBit 60, scope := bitsOf v 59 57
    src := if bitsOf v 63 62 = 0 then ext57 (bitsOf v 56 0) else bitsOf v 56 0
    bad := bitsOf v 122 121 ≠ 0 }

/-- Reasons of an object reference (R144, R170). -/
def refReasons (s : State) (e : Env) (ref : Word) (sig : Bool) : List Nat :=
  (if ref.getLsbD 2 || ref.getLsbD 3 || (sig && ref.getLsbD 1) then [1] else []) ++
  (if ¬ ref.getLsbD 0 then [] else match s.refPlace e.k e.team ref with
    | none => [2]
    | some p => if (s.obj? p).isNone then [3] else [])

/-- Reasons of a scratchpad span of an engine command: reserved bits above the address (1), bounds or window (2). DESIGN CHOICE (log 93):
reserved bits inside the 32-bit address are R139's failure, reason 2. -/
def spanReasons (s : State) (e : Env) (a n : Nat) : List Nat :=
  (if a / 2 ^ 32 ≠ 0 then [1] else []) ++
  (match s.scrPlace e.k e.team (scrAddr (a % 2 ^ 32)) (scrAddr (a % 2 ^ 32)).off n with | .ok _ => [] | .error _ => [2])

/-- Reasons of a virtual address of an engine command (R170). -/
def virtReasons (s : State) (e : Env) (a : Nat) : List Nat :=
  if s.physical (Env.party s e) then (if Config.hbmBytes ≤ a then [1] else [])
  else if ¬ canonical a ∨ (sysAddr a ∧ 17 ≤ sysPort a) then [1] else []

/-- Every check of a record made at issue (R157, R170). -/
def copyReasons (s : State) (e : Env) (r : CopyRec) : List Nat :=
  let flags := r.acq || r.rel
  let span (pitch : Nat) : Nat := max 1 (r.rows * pitch * 32 + r.len)
  (if r.bad ∨ r.ssp = 3 ∨ r.dsp = 3 ∨ r.src % 4 ≠ 0 ∨ r.dst % 4 ≠ 0 ∨ r.len % 4 ≠ 0 ∨ (if flags then r.scope = 0 ∨ 5 < r.scope else r.scope ≠ 0)
      ∨ (r.ssp = 2 ∧ r.src / 2 ^ 29 ≠ 0) ∨ (r.dsp = 2 ∧ r.dst / 2 ^ 29 ≠ 0) then [1] else []) ++
  (if r.ssp = 0 then virtReasons s e r.src else if r.ssp = 1 then spanReasons s e r.src (span r.spitch) else []) ++
  (if r.dsp = 0 then virtReasons s e r.dst else if r.dsp = 1 then spanReasons s e r.dst (span r.dpitch) else []) ++
  refReasons s e r.wref false ++ refReasons s e r.sref true ++
  (if r.spv ∧ (r.dsp ≠ 1 ∨ ¬ ownScr e.k r.dst ∨ r.ssp = 1) then [4] else []) ++
  (if 0 < r.rows ∧ r.dpitch * 32 < r.len then [5] else []) ++
  (if (r.ssp = 2 ∧ ¬ e.declaresWs s) ∨ (r.dsp = 2 ∧ e.declaresWs s) then [6] else [])

/-- A task of the gang with its references, release and token. -/
def Env.newTask (e : Env) (job : Job) (wref sref : Word) (rel : Nat) (token : Option Nat) (c : Clock) : Task :=
  { slot := e.warp.team, warp := e.slot, uid := e.team.uid, job := job, state := .waiting, wref := wref, sref := sref, rel := rel, token := token, clock := c }

/-- The task of a record. -/
def copyTask (e : Env) (c : Clock) (r : CopyRec) : Task :=
  { e.newTask (.copy r) r.wref r.sref (if r.rel then r.scope else 0) (if r.spv then some r.token else none) c with acq := if r.acq then r.scope else 0 }

/-- The engine-command trap of failing threads (R170). -/
def engTrap (bad : List (Nat × Nat)) (index : Nat) : Option Trap :=
  match bad with
  | [] => none
  | b :: bs => some { cls := 9, index := index, mask := maskOf (bad.map (·.1)), reason := bs.foldl (fun m y => min m y.2) b.2 }

/-- The lowest reason of each lane that has one. -/
def lowest (l : List (Nat × List Nat)) : List (Nat × Nat) := l.filterMap fun q => q.2.min?.map fun m => (q.1, m)

/-- Enter the tasks after the warp's earlier stores have drained (R159, R186); the gang waits while entries lack (R152). -/
def Env.enterAll (e : Env) (s : State) (len : Nat) (frees : List Nat) (mk : Clock → List Task) : State :=
  if e.warp.sq ≠ [] then e.stall .retry s
  else
    let (c, s) := e.publish s
    let r := State.enterMany e.k (mk c) s
    match r.2 with
    | [] => e.done len (r.1.modWarp e.k e.slot fun w => w.free frees)
    | rest => e.stall (.enter rest len frees) r.1

/-- The shared course of an engine command that enters one task for each acting lane: `reasons` of a lane, `task` of a lane. -/
def engineInstr (s : State) (opc : Nat) (x : Op) (vals : State → Env → Nat → List Nat) (reasons : State → Env → List Nat → List Nat)
    (task : Env → Clock → List Nat → Task) : Host.Outcome State Fault Refusal :=
  issue s x.form.bytes x.g (opCost opc x) 1 (fun s e0 i => (Env.srcs s e0 x (rowAt opc x) 0 i).tagE) fun _ s e =>
    let r := rowAt opc x
    match actors e opc x false with
    | [] => .ok (e.done x.form.bytes (s.modWarp e.k e.slot fun w => w.free (e.frees x r)))
    | who => match e.regTrap x r (maskOf (e.active x.g)) with
      | some t => .error t
      | none =>
        let vs := who.map fun i => (i, vals s e i)
        match engTrap (lowest (vs.map fun q => (q.1, reasons s e q.2))) 0 with
        | some t => .error t
        | none => .ok ((e.enterAll s x.form.bytes (e.frees x r) fun c => vs.map fun q => task e c q.2).drawn 1)

/-! ## CPY (R163) -/

/-- Record words of a lane: A to A + 7, or A to A + 5 above the literal. -/
def cpyWords (x : Op) (s : State) (e : Env) (lane : Nat) : List Nat :=
  let regs := (Env.srcs s e x (rowAt 0xE0 x) 0 lane).a.map (pointOf s)
  if x.form = .x160 then x.lit % 2 ^ 32 :: x.lit / 2 ^ 32 :: regs else regs

/-- The record with ACQ, REL and SCOPE from the instruction; its own must be zero. -/
def cpyRec (x : Op) (ws : List Nat) : CopyRec :=
  let v := ws.foldr (fun w n => n * 2 ^ 32 + w % 2 ^ 32) 0
  { recOf v with bad := bitsOf v 122 121 ≠ 0 ∨ bitsOf v 61 57 ≠ 0, acq := x.acq, rel := x.rel, scope := x.scope }

/-- CPY. -/
def execCpy (x : Long) (s : State) : Host.Outcome State Fault Refusal :=
  let x := x.op 0
  engineInstr s 0xE0 x (cpyWords x) (fun s e ws => copyReasons s e (cpyRec x ws)) (fun e c ws => copyTask e c (cpyRec x ws))

/-! ## KICK (R164) -/

/-- Records in the team's allocation, in address order. -/
def kickRecs (s : State) (e : Env) (a n : Nat) : List CopyRec :=
  match s.scrPlace e.k e.team (scrAddr a) (scrAddr a).off (32 * n) with
  | .ok p => (List.range n).map fun i => recOf (leNat (((s.homeBytes 0 p (32 * n)).drop (32 * i)).take 32))
  | .error _ => []

/-- KICK: the records are validated before any enters; the first invalid one is reported by its index. DESIGN CHOICE (log 93): a record address
through the window at another core's position takes reason 2. -/
def kick (s : State) (x : Op) : Host.Outcome State Fault Refusal :=
  issue s x.form.bytes x.g (opCost 0xE1 x) 1 (fun s e0 i => (sv1 (Env.srcs s e0 x (rowAt 0xE1 x) (litInt x false 32) i).a).e) fun _ s e =>
    let r := rowAt 0xE1 x
    let len := x.form.bytes
    let fin (s : State) : State := e.done len (s.modWarp e.k e.slot fun w => w.free (e.frees x r))
    match actors e 0xE1 x true with
    | [] => .ok (fin s)
    | lane :: _ => match e.regTrap x r (maskOf (e.active x.g)) with
      | some t => .error t
      | none =>
        let v := Env.srcs s e x r (litInt x false 32) lane
        let a := pointOf s (sv1 v.a)
        let n := pointOf (s.drawn 1) (sv1 v.b)
        let bad : List Nat := if n = 0 then [] else
          (if a % 32 ≠ 0 then [1] else []) ++ (if n ≤ 64 then spanReasons s e a (32 * n) else []) ++ (if ownScr e.k a then [] else [2]) ++ (if 64 < n then [5] else [])
        match bad.min? with
        | some c => .error { cls := 9, reason := c, mask := maskOf ([lane].filter fun i => (e.active x.g).contains i) }
        | none =>
          if n = 0 then .ok (fin (s.drawn 2))
          else if e.warp.sq ≠ [] then .ok (e.stall .retry s)
          else
            let recs := kickRecs s e a n
            match (recs.zipIdx.filterMap fun q => (copyReasons s e q.1).min?.map fun c => (q.2, c)).head? with
            | some (i, c) => .error { cls := 9, index := i, reason := c, mask := maskOf ([lane].filter fun i => (e.active x.g).contains i) }
            | none => .ok ((e.enterAll s len (e.frees x r) fun c => recs.map (copyTask e c)).drawn 2)

/-- KICK (C32). -/
def execKickC32 (x : C32R) (s : State) : Host.Outcome State Fault Refusal := kick s (x.op 0)
/-- KICK. -/
def execKick (x : X96) (s : State) : Host.Outcome State Fault Refusal := kick s x.op

/-! ## DRAIN (R165) -/

/-- DRAIN waits for the tasks of the core that write the named spaces and had entered when it issued. -/
def execDrain (x : X96) (s : State) : Host.Outcome State Fault Refusal :=
  let x := x.op
  control s 12 x.g (fun _ _ => false) fun s e =>
    if ¬ unguarded x.g ∧ (e.active x.g).isEmpty then .ok (e.done 12 s)
    else match ((s.core e.k).tasks.filter fun t => decide (t.2.job.writes &&& x.op7 ≠ 0)).map (·.1) with
      | [] => .ok (e.done 12 s)
      | ids => .ok (e.stall (.drain ids 12) s)

/-! ## REDUCE and SUMM (R166 to R169) -/

/-- Values of a lane: destination, source, N, wait reference, signal reference. -/
def redVals (opc : Nat) (x : Op) (s : State) (e : Env) (lane : Nat) : List Nat :=
  let v := Env.srcs s e x (rowAt opc x) 0 lane
  [pointOf s (sv1 v.a), pointOf s (sv1 v.b)] ++ v.c.map (pointOf s)

/-- Checks of REDUCE at issue. -/
def reduceReasons (x : Op) (s : State) (e : Env) (v : List Nat) : List Nat :=
  let w := tyBytes x.type
  let a := v.getD 0 0
  let b := v.getD 1 0
  let n := v.getD 2 0
  let dsc := decide (x.op7 / 8 % 2 = 1)
  (if a % w ≠ 0 ∨ b % w ≠ 0 then [1] else []) ++
  (if dsc then spanReasons s e a w else virtReasons s e a) ++
  (if x.op7 / 4 % 2 = 1 then spanReasons s e b (max 1 (n * w)) else virtReasons s e b) ++
  refReasons s e (BitVec.ofNat 32 (v.getD 3 0)) false ++ refReasons s e (BitVec.ofNat 32 (v.getD 4 0)) true ++
  (if x.op7 / 64 = 1 ∧ (¬ ownScr e.k a ∨ x.op7 / 4 % 2 = 1) then [4] else [])

/-- REDUCE. -/
def execReduce (x : X96) (s : State) : Host.Outcome State Fault Refusal :=
  let x := x.op
  engineInstr s 0xE8 x (redVals 0xE8 x) (reduceReasons x) fun e c v =>
    { e.newTask (.reduce (x.op7 % 4) x.type (e.mode x.rm) x.sat (x.op7 / 8 % 2 = 1) (x.op7 / 4 % 2 = 1) (v.getD 0 0) (v.getD 1 0) (v.getD 2 0))
      (BitVec.ofNat 32 (v.getD 3 0)) (BitVec.ofNat 32 (v.getD 4 0)) (relOf x) (if x.op7 / 64 = 1 then some (x.op7 / 16 % 4) else none) c with acq := acqOf x }

/-- SUMM. DESIGN CHOICE (log 93): a buffer address not aligned to the element width takes reason 1. -/
def execSumm (x : X96) (s : State) : Host.Outcome State Fault Refusal :=
  let x := x.op
  engineInstr s 0xE9 x (redVals 0xE9 x)
    (fun s e v => (if v.getD 0 0 % 32 ≠ 0 ∨ v.getD 1 0 % tyBytes x.type ≠ 0 then [1] else []) ++ virtReasons s e (v.getD 0 0) ++ virtReasons s e (v.getD 1 0) ++
      refReasons s e (BitVec.ofNat 32 (v.getD 3 0)) false ++ refReasons s e (BitVec.ofNat 32 (v.getD 4 0)) true)
    fun e c v => { e.newTask (.summ x.type (v.getD 0 0) (v.getD 1 0) (v.getD 2 0)) (BitVec.ofNat 32 (v.getD 3 0)) (BitVec.ofNat 32 (v.getD 4 0)) (relOf x) none c with acq := acqOf x }

/-! ## What the tasks compute -/

/-- The fixed tree of R167 over a list; fuel: its length. -/
def foldTree (op : Nat → Nat → Nat) (z : Nat) : Nat → List Nat → Nat
  | 0, _ => z
  | _ + 1, [] => z
  | _ + 1, [x] => x
  | f + 1, xs =>
    let m := 2 ^ (Nat.log2 (xs.length - 1))
    op (foldTree op z f (xs.take m)) (foldTree op z f (xs.drop m))

/-- Elements of bytes, as patterns of the element's width. -/
def patsOf (t : Nat) (n : Nat) (bs : List Byte) : List Nat :=
  (List.range n).map fun i => leNat ((bs.drop (i * tyBytes t)).take (tyBytes t))

/-- REDUCE's result (R167). -/
def reduceValue (op type mode : Nat) (sat : Bool) (xs : List Nat) : Nat :=
  foldTree (fun a b => (opApply op type mode sat a b).bits) (opIdentity op type) (xs.length + 1) xs

/-- Minimum or maximum of two patterns in a type's order. -/
def summPick (type : Nat) (isMax : Bool) (a b : Nat) : Nat := (opApply (if isMax then 2 else 1) type 0 false a b).bits

/-- An entry of a group: (lo, hi), or two canonical NaNs where one stands (R168). -/
def summGroup (type : Nat) : List (Nat × Nat) → Nat × Nat
  | [] => (0, 0)
  | e :: es =>
    let nan (p : Nat × Nat) : Bool := tyFloat type && anyNan [fDecode (fmtOf type) p.1, fDecode (fmtOf type) p.2]
    if (e :: es).any nan then ((fmtOf type).qnan, (fmtOf type).qnan)
    else es.foldl (fun a b => (summPick type false a.1 b.1, summPick type true a.2 b.2)) e

/-- Groups of 16; fuel: their number. -/
def groups16 {α : Type} : Nat → List α → List (List α)
  | 0, _ => []
  | f + 1, xs => match xs with
    | [] => []
    | _ => xs.take 16 :: groups16 f (xs.drop 16)

/-- The levels of a summary; fuel: levels. -/
def summPyramid (type : Nat) : Nat → List (Nat × Nat) → List (List (Nat × Nat))
  | 0, _ => []
  | f + 1, xs => match xs with
    | [] => []
    | _ =>
      let l := (groups16 xs.length xs).map (summGroup type)
      if l.length = 1 then [l] else l :: summPyramid type f l

/-- The summary's bytes: the header, then the levels (R169). -/
def summBytes (type buf n : Nat) (xs : List Nat) : List Byte :=
  let ls := summPyramid type 16 (xs.map fun x => (x, x))
  let w := tyBytes type
  natLe 32 (n + type * 2 ^ 64 + ls.length * 2 ^ 72 + buf % 2 ^ 64 * 2 ^ 128) ++ ls.flatMap fun l => l.flatMap fun p => natLe w p.1 ++ natLe w p.2

/-! ## A copy's unit (R158) -/

/-- Bytes of the unit at a row and byte, and the row and byte that follow it. -/
def CopyRec.unit (r : CopyRec) (row col : Nat) : Nat := min (r.len - col) (32 - (r.dst + row * r.dpitch * 32 + col) % 32)
def CopyRec.after (r : CopyRec) (row col : Nat) : Nat × Nat := if r.len ≤ col + r.unit row col then (row + 1, 0) else (row, col + r.unit row col)

/-- The next unit of a running copy is read and written; its bytes land, without a release, once they are at their home. -/
def State.copyUnit (s : State) (k id : Nat) (tm : Team) (t : Task) (r : CopyRec) : Except EngStop State :=
  let disp := t.row * r.dpitch * 32 + t.col
  let m := r.unit t.row t.col
  let next := r.after t.row t.col
  match s.engRead k tm t r.ssp r.src (t.row * r.spitch * 32 + t.col) m with
  | .error x => .error x
  | .ok (bs, s1) => match s1.engWrite k id tm t r.dsp r.dst disp bs with
    | .error x => .error x
    | .ok s2 =>
      let s3 := s2.modCore k fun (c : Core) => c.modTask id fun x =>
        { x with row := next.1, col := next.2 }
      if t.rel ≠ 0 ∨ r.dsp = 0 then .ok s3
      else match s3.signal k tm t (.landed m) with
        | some s4 => .ok s4
        | none => .error (.err s3)

end Sys2Proof.Machine
end

