-- ==== Sys2Proof/Machine/Matrix.lean ====
section
/-!
DEFINITION. The matrix unit (R285 to R309): accumulator banks, operands, reservations, MMA, OBLD, ACCRD, ACCST, ACCZ and RESOLVE, and
what their tasks compute.
-/
namespace Sys2Proof.Machine

/-! ## Product kinds (R285) -/

/-- Chunk length and K granule of a format, and the row of R285 it stands in. -/
def mKind (f : Nat) : Option (Nat × Nat × Nat) :=
  match f with
  | 6 => some (4, 16, 0)
  | 7 => some (16, 16, 1)
  | 8 => some (16, 16, 2)
  | 9 => some (32, 32, 3)
  | 10 => some (32, 32, 3)
  | 11 => some (64, 64, 4)
  | 12 => some (16, 16, 5)
  | 14 => some (32, 32, 6)
  | 15 => some (32, 32, 6)
  | _ => none

/-- Formats of one product kind. -/
def sameKind (a b : Nat) : Bool := match mKind a, mKind b with | some x, some y => decide (x.2.2 = y.2.2) | _, _ => false

/-! ## Banks (R286 to R289) -/

/-- ROW and COL of an accumulator address; none when it is malformed (R287). -/
def accAddr (a : Nat) : Option (Nat × Nat) :=
  let row := bitsOf a 8 0
  let col := bitsOf a 24 16
  if bitsOf a 31 25 ≠ 0 ∨ bitsOf a 15 9 ≠ 0 ∨ row % 16 ≠ 0 ∨ col % 16 ≠ 0 then none else some (row, col)

/-- A cell of a bank. -/
def bankGet (b : List (Nat × Word)) (row col : Nat) : Word := (alook (row * 512 + col) b).getD 0
def bankPut (b : List (Nat × Word)) (row col : Nat) (v : Word) : List (Nat × Word) :=
  if v = 0 then adel (row * 512 + col) b else aput (row * 512 + col) v b

/-- Set cells of a rectangle. -/
def Rect.cells (r : Rect) : List (Nat × Nat) := (List.range r.rows).flatMap fun i => (List.range r.cols).map fun j => (r.row + i, r.col + j)
def bankClear (b : List (Nat × Word)) (r : Rect) : List (Nat × Word) :=
  b.filter fun p => ¬ (r.row ≤ p.1 / 512 ∧ p.1 / 512 < r.row + r.rows ∧ r.col ≤ p.1 % 512 ∧ p.1 % 512 < r.col + r.cols)
/-- Copy a rectangle of one bank into another. -/
def bankCopy (dst src : List (Nat × Word)) (r : Rect) : List (Nat × Word) :=
  r.cells.foldl (fun b c => bankPut b c.1 c.2 (bankGet src c.1 c.2)) dst

/-- Two rectangles share a cell. -/
def Rect.meets (a b : Rect) : Bool :=
  decide (a.row < b.row + b.rows ∧ b.row < a.row + a.rows ∧ a.col < b.col + b.cols ∧ b.col < a.col + a.cols)

/-- Strips of a rectangle. -/
def Rect.strips (r : Rect) : List Nat := (List.range ((r.row + r.rows + 15) / 16 - r.row / 16)).map (r.row / 16 + ·)

/-- The team owns every strip of the rectangle. -/
def Core.owns (c : Core) (slot : Nat) (r : Rect) : Bool := r.strips.all fun i => alook i c.strips = some slot

/-- The window partner, a core and its team there, owns the rectangle's strips on its core (R294). -/
def State.partnerOwns (s : State) (f : Nat × Team) (r : Rect) : Bool :=
  match (s.core f.1).teams.find? fun t => t.2 = f.2 with | some t => (s.core f.1).owns t.1 r | none => false

/-- OR bits into a strip's status. -/
def statOr (st : List (Nat × Nat)) (strip bits : Nat) : List (Nat × Nat) :=
  if bits = 0 then st else aput strip ((alook strip st).getD 0 ||| bits) st

/-- An unfinished non-speculative task, entered before `before`, of the team or a pair task on the team's core from its leader, meets
the rectangle (R289). -/
def State.rectBusy (s : State) (k slot : Nat) (r : Rect) (before : Nat) : Bool :=
  let meets (k' : Nat) (t : Task) : Bool := decide (t.token = none ∧ t.agent < before) && (t.rects k').any fun q => decide (q.1 = k) && q.2.meets r
  ((s.core k).tasks.any fun t => decide (t.2.slot = slot) && meets k t.2) ||
  (!isFw k && decide (2 ≤ posOf k) && (s.core (corePeer k (posOf k - 2))).tasks.any fun t => meets (corePeer k (posOf k - 2)) t.2)

/-- A task in the core's table, or a pair task on it from its leader, has a rectangle there. -/
def State.rectTask (s : State) (k : Nat) (r : Rect) : Bool :=
  let meets (k' : Nat) : Bool := (s.core k').tasks.any fun t => (t.2.rects k').any fun q => decide (q.1 = k) && q.2.meets r
  meets k || (!isFw k && decide (2 ≤ posOf k) && meets (corePeer k (posOf k - 2)))

/-- A rectangle recorded under an unresolved token meets the rectangle (R289). -/
def State.tokenBusy (s : State) (k : Nat) (r : Rect) : Bool :=
  let ks := if isFw k then [k] else (List.range 4).map (corePeer k)
  ks.any fun k' => (s.core k').teams.any fun t => t.2.tokens.any fun x => x.rects.any fun q => decide (q.1 = k) && q.2.meets r

/-! ## Operands (R290 to R293) -/

/-- Bits of an element. -/
def elBits (f : Nat) : Nat := tyBits f

/-- Byte offset of an element of a scratchpad tile (R292). -/
def tileOff (d1 : Nat) (w r k : Nat) : Nat :=
  let b := k * w / 8
  (r / 16) * bitsOf d1 29 16 * 64 + (r % 16) * bitsOf d1 15 0 + ((b / 16) ^^^ (r % 2 ^ bitsOf d1 31 30)) * 16 + b % 16

/-- Reasons of a scratchpad descriptor for a tile (R292). -/
def tileReasons (s : State) (e : Env) (d0 d1 w rows k : Nat) : List Nat :=
  let rot := bitsOf d1 31 30
  let len := k * w / 8
  let a := scrAddr d0
  let last := (List.range rows).foldl (fun m r => max m ((List.range (len / 16)).foldl (fun m u => max m (tileOff d1 8 r (16 * u) + 16)) 0)) 0
  let inside : Bool := match s.scrPlace e.k e.team a a.off (max 1 last) with | .ok _ => true | .error _ => false
  if a.bad ∨ bitsOf d1 15 0 % 16 ≠ 0 ∨ len % (16 * 2 ^ rot) ≠ 0 ∨ ¬ inside then [5] else []

/-- Elements per block scale. -/
def Resv.blkLen (r : Resv) : Nat := if r.blk = 3 then 8 else if r.blk = 4 then 16 else 32
/-- Block scales per row. -/
def Resv.perRow (r : Resv) : Nat := ceilDiv r.cols r.blkLen
/-- Ends of the three regions: elements, block scales, band scales. -/
def Resv.regions (r : Resv) : List (Nat × Nat) :=
  [(0, r.rows * r.cols * elBits r.fmt / 8)] ++ (if r.blk ≠ 0 then [(r.bsoff, r.bsoff + r.rows * r.perRow)] else []) ++
  (if r.band then [(r.bdoff, r.bdoff + 2 * ceilDiv r.rows 64)] else [])

/-- A byte of the format buffer. -/
def Core.fb (c : Core) (a : Nat) : Byte := (alook a c.fbuf).getD 0

/-- Pattern of element (r, c) of a reservation. -/
def Core.resvPat (c : Core) (v : Resv) (r col : Nat) : Nat :=
  let w := elBits v.fmt
  let i := r * v.cols + col
  if w = 4 then (c.fb (v.base + i / 2)).toNat / 16 ^ (i % 2) % 16
  else leNat ((List.range (w / 8)).map fun j => c.fb (v.base + i * (w / 8) + j))

/-- Its value with scales (R91, R293). -/
def Core.resvVal (c : Core) (v : Resv) (r col : Nat) : Fx :=
  let x := fDecode (fmtOf v.fmt) (c.resvPat v r col)
  if v.blk = 0 then x
  else
    let (sm, se) := e3m5Decode (c.fb (v.base + v.bsoff + r * v.perRow + col / v.blkLen)).toNat
    let band : Fx := if v.band then fDecode bf16 (leNat [c.fb (v.base + v.bdoff + 2 * (r / 64)), c.fb (v.base + v.bdoff + 2 * (r / 64) + 1)]) else .fin false 1 0
    match x, band with
    | .fin n m e, .fin t k g => .fin (n != t) (m * sm * k) (e + se + g)
    | .fin n m _, _ => if m = 0 then .fin n 0 0 else .nan false
    | .inf n, .fin t k _ => if sm * k = 0 then .nan false else .inf (n != t)
    | _, _ => .nan false

/-- An element as the array reads it: a floating value, or an integer. -/
inductive MEl where
  | f (x : Fx)
  | i (x : Int)
  deriving DecidableEq, Repr

/-- A pattern in a format. -/
def mElem (fmt pat : Nat) : MEl := if tyFloat fmt then .f (fDecode (fmtOf fmt) pat) else .i (intOf fmt pat)

/-- Element (r, k) of an operand when its task runs; none ends the task (R154). -/
def mRead (s : State) (k : Nat) (tm : Team) (src : MSrc) (fmt r c : Nat) : Option MEl :=
  match src with
  | .regs rows => some (mElem fmt ((rows.getD r []).getD c 0))
  | .scr d0 d1 =>
    let a := scrAddr d0.toNat
    let w := elBits fmt
    (match s.scrPlace k tm a (a.off + tileOff d1.toNat w r c) (w / 8) with
    | .ok p => some (mElem fmt (leNat (s.homeBytes 0 p (w / 8))))
    | .error _ => none)
  | .resv ref => match alook (ref.toNat % 16) tm.resvs with
    | none => none
    | some v =>
      let row := 16 * bitsOf ref.toNat 15 4 + r
      let col := 64 * bitsOf ref.toNat 31 16 + c
      some (if tyFloat v.fmt then .f ((s.core k).resvVal v row col) else mElem v.fmt ((s.core k).resvPat v row col))

/-! ## The summation (R94 to R96, R288) -/

/-- A cell and the status bits it met. -/
structure CellOut where
  bits : Nat
  st : Nat := 0
  deriving DecidableEq, Repr

def MEl.fx : MEl → Fx
  | .f x => x
  | .i _ => .nan false
def MEl.int : MEl → Int
  | .i x => x
  | .f _ => 0

/-- One chunk of floating products. -/
def fChunk (f : Fmt) (c : CellOut) (ps : List (MEl × MEl)) : CellOut :=
  let acc := fDecode f c.bits
  let s := (fxSum (ps.map fun p => fxMul p.1.fx p.2.fx) false).1
  let r := (fAddX f 0 false acc s).bits
  let nanIn := anyNan (acc :: ps.flatMap fun p => [p.1.fx, p.2.fx])
  let isFin (x : Fx) : Bool := match x with | .fin .. => true | _ => false
  let isInf (x : Fx) : Bool := match x with | .inf _ => true | _ => false
  { bits := r
    st := c.st ||| (if anyNan [fDecode f r] && !nanIn then 2 else 0) ||| (if isFin acc && isFin s && isInf (fDecode f r) then 4 else 0) }

/-- One chunk of integer products. -/
def iChunk (c : CellOut) (ps : List (MEl × MEl)) : CellOut :=
  let x := sIntOf 32 c.bits + ps.foldl (fun n p => n + p.1.int * p.2.int) 0
  { bits := wrapNat 32 x, st := c.st ||| (if fits32 x then 0 else 1) }

/-- Chunks of `l`; fuel: their number. -/
def chunks {α : Type} (l : Nat) : Nat → List α → List (List α)
  | 0, _ => []
  | f + 1, xs => xs.take l :: chunks l f (xs.drop l)

/-- A cell after the sum over K. -/
def mCell (fa : Nat) (x : Nat) (as bs : List MEl) : CellOut :=
  let l := match mKind fa with | some q => q.1 | none => 16
  let cs := chunks l (ceilDiv as.length l) (as.zip bs)
  cs.foldl (if tyFloat fa then fChunk (if fa = 6 then fp64 else fp32) else iChunk) { bits := x }

/-- The state with some list elements all present. -/
def allSome {α : Type} : List (Option α) → Option (List α)
  | [] => some []
  | none :: _ => none
  | some x :: rest => (allSome rest).map (x :: ·)

/-- The input cell of a column: one cell, or two adjacent ones for FP64. -/
def cellIn (b : List (Nat × Word)) (fa row col : Nat) : Nat :=
  if fa = 6 then (bankGet b row col).toNat + (bankGet b row (col + 1)).toNat * 2 ^ 32 else (bankGet b row col).toNat

/-- Write an output cell. -/
def cellOut (b : List (Nat × Word)) (fa row col v : Nat) : List (Nat × Word) :=
  if fa = 6 then bankPut (bankPut b row col (BitVec.ofNat 32 v)) row (col + 1) (BitVec.ofNat 32 (v / 2 ^ 32)) else bankPut b row col (BitVec.ofNat 32 v)

/-- The array's work on one core: its columns from `j0` on (R294, R298). -/
def State.arrayRun (s : State) (k kc : Nat) (tm : Team) (a b : MSrc) (fa fb : Nat) (r : Rect) (kk j0 : Nat) (clear : Bool) (bank : Nat) : Option State :=
  let step := if fa = 6 then 2 else 1
  let n := r.cols / step
  match allSome ((List.range r.rows).map fun i => allSome ((List.range kk).map fun x => mRead s k tm a fa i x)),
        allSome ((List.range n).map fun j => allSome ((List.range kk).map fun x => mRead s k tm b fb (j0 + j) x)) with
  | some as, some bs =>
    let c := s.core kc
    let src := if bank = 2 then c.shadow else c.acc
    let outs := (List.range r.rows).flatMap fun i => (List.range n).map fun j =>
      (r.row + i, r.col + j * step,
        mCell fa (if clear then 0 else cellIn src fa (r.row + i) (r.col + j * step)) (as.getD i []) (bs.getD j []))
    let cells (b0 : List (Nat × Word)) : List (Nat × Word) := outs.foldl (fun b o => cellOut b fa o.1 o.2.1 o.2.2.bits) b0
    let stats (s0 : List (Nat × Nat)) : List (Nat × Nat) := outs.foldl (fun m o => statOr m (o.1 / 16) o.2.2.st) s0
    some (s.setCore kc (if bank = 0 then { c with acc := cells c.acc, stat := stats c.stat }
      else { c with shadow := cells c.shadow, shadowStat := stats c.shadowStat }))
  | _, _ => none

/-- Copy a rectangle from the shadow bank to the committed bank on a core, its status merged (R307). -/
def State.commitRect (s : State) (q : Nat × Rect) : State :=
  s.modCore q.1 fun (c : Core) => { c with
    acc := bankCopy c.acc c.shadow q.2
    stat := q.2.strips.foldl (fun m i => statOr m i ((alook i c.shadowStat).getD 0)) c.stat }

/-! ## The trap and the frame of an instruction that acts once -/

/-- The matrix trap; TRAPMASK every active thread (R308). -/
def mTrap (e : Env) (g : Guard) (reason : Nat) : Trap := { cls := 10, reason := reason, mask := maskOf (e.active g) }

/-- A matrix instruction that acts once under R149: an undecided event in a bounds thread, then checks, then `f`. -/
def matrixOnce (s : State) (opc : Nat) (x : Op) (lit : Nat) (f : State → Env → Srcs → Except Nat State) : Host.Outcome State Fault Refusal :=
  issue s x.form.bytes x.g (opCost opc x) 1 (fun _ _ _ => true) fun evs s e =>
    let r := rowAt opc x
    let act := e.active x.g
    if act.isEmpty ∧ (¬ unguarded x.g ∨ evs ≠ []) then .ok (e.done x.form.bytes (s.modWarp e.k e.slot fun w => w.free (e.frees x r)))
    else match e.regTrap x r (maskOf act) with
      | some t => .error t
      | none => match f s e (Env.srcs s e x r lit (act.headD 0)) with
        | .ok s1 => .ok s1
        | .error c => .error (mTrap e x.g c)

/-- Values of a position. -/
def natsOf (l : List SV) : List Nat := l.map (·.lo)

/-! ## MMA (R296 to R299) -/

/-- What a source code and its registers give at issue: the operand, its format when a reservation, reasons. -/
structure MOp where
  src : MSrc
  fmt : Nat
  /-- Vector names of a register tile. -/
  names : List Nat := []
  reasons : List Nat := []
  deriving DecidableEq, Repr

/-- The reservation window of an operand. -/
def resvReasons (tm : Team) (ref rows cols : Nat) : List Nat :=
  match alook (ref % 16) tm.resvs with
  | none => [4]
  | some v => if v.rows < 16 * bitsOf ref 15 4 + rows ∨ v.cols < 64 * bitsOf ref 31 16 + cols then [4] else []

/-- An operand of MMA: `code` its source, `first` its first vector name, `v` its uniform registers. -/
def mOperand (s : State) (e : Env) (code first : Nat) (v : List Nat) (fmt rows k : Nat) : MOp :=
  let w := elBits fmt
  match code with
  | 0 =>
    let p := k * w / 32
    let span := ceilDiv rows e.w * p
    if 64 < rows ∨ 64 < span then { src := .regs [], fmt := fmt, reasons := [2] }
    else
      let row (r : Nat) : List Nat := (List.range k).map fun c =>
        (e.warp.vec (first + r / e.w * p + c * w / 32) (r % e.w)).lo.toNat / 2 ^ (c * w % 32) % 2 ^ min w 32 +
        (if w = 64 then (e.warp.vec (first + r / e.w * p + c * w / 32 + 1) (r % e.w)).lo.toNat * 2 ^ 32 else 0)
      { src := .regs ((List.range rows).map row), fmt := fmt, names := (List.range span).map (first + ·) }
  | 1 =>
    let d := v.getD 0 0
    { src := .scr (BitVec.ofNat 32 d) (BitVec.ofNat 32 (d / 2 ^ 32)), fmt := fmt, reasons := tileReasons s e (d % 2 ^ 32) (d / 2 ^ 32) w rows k }
  | _ => { src := .resv (BitVec.ofNat 32 (v.getD 0 0)), fmt := fmt, reasons := resvReasons e.team (v.getD 0 0) rows k }

/-- Format of an operand that may come from a reservation. -/
def resvFmt (tm : Team) (ref : Nat) : Option Nat := (alook (ref % 16) tm.resvs).map (·.fmt)

/-- Token rules of a speculative rectangle (R299). -/
def tokenReasons (tm : Team) (tok : Nat) (rs : List (Nat × Rect)) : List Nat :=
  let clash (same : Bool) (q : Nat × Rect) : Bool := rs.any fun r => decide (r.1 = q.1) && r.2.meets q.2 && !(same && decide (r.2 = q.2))
  if tm.tokens.zipIdx.any fun t => t.1.rects.any (clash (decide (t.2 = tok))) then [7] else []

/-- What an MMA asks for, read from its operands. -/
structure MmaPlan where
  oa : MOp
  ob : MOp
  fa : Nat
  fb : Nat
  rect : Rect
  /-- Its rectangles: the core's, and the follower's for a pair. -/
  rects : List (Nat × Rect)
  k : Nat
  n : Nat
  pair : Bool
  clear : Bool
  spec : Bool
  tok : Nat
  wref : Word
  sref : Word
  /-- Reasons of the matrix trap (R308). -/
  reasons : List Nat
  /-- Vector names read as tiles. -/
  tiles : List (PosBits × Nat × Nat × Bool)
  frees : List Nat
  deriving DecidableEq, Repr

/-- The plan of an MMA in its one active thread. -/
def mmaPlan (s : State) (e : Env) (x : Op) (lane : Nat) : MmaPlan :=
  let v := Env.srcs s e x (rowAt 0xEA x) 0 lane
  let sa := x.op7 % 4
  let sb := x.op7 / 4 % 4
  let pair := decide (x.op7 / 16 % 2 = 1)
  let spec := decide (x.op7 / 64 = 1)
  let tok := x.imm16 / 16 % 4
  let bxt := x.imm16 % 16
  let c := if x.form = .x160 then [x.lit % 2 ^ 32, x.lit / 2 ^ 32, 0, 0] else natsOf v.c
  let shape := c.getD 0 0
  let m := 16 * (shape % 32 + 1)
  let n := 16 * (bitsOf shape 15 10 + 1)
  let k := 16 * (bitsOf shape 31 16 + 1)
  let va := natsOf v.a
  let vb := natsOf v.b
  let fa? := if sa = 2 then resvFmt e.team (va.getD 0 0) else some x.type
  let fa := fa?.getD 8
  let fb? := if sb = 2 then resvFmt e.team (vb.getD 0 0) else some (if bxt = 0 then fa else bxt)
  let fb := fb?.getD fa
  let step := if fa = 6 then 2 else 1
  let nc := if pair then n / 2 else n
  let addr := accAddr (c.getD 1 0)
  let rect : Rect := { row := (addr.getD (0, 0)).1, col := (addr.getD (0, 0)).2, rows := m, cols := nc * step }
  let granule := match mKind fa with | some q => q.2.1 | none => 16
  let tooWide : Bool := decide (512 / step < n) && !pair
  let shapeBad : Bool := addr.isNone || decide (bitsOf shape 9 5 ≠ 0) || decide (k % granule ≠ 0) || tooWide ||
    decide (512 < rect.row + rect.rows) || decide (512 < rect.col + rect.cols)
  let fmtBad : Bool := fa?.isNone || fb?.isNone || !(sameKind fa fb) || (fa = 11 && decide (sa ≠ 2)) || (fb = 11 && decide (sb ≠ 2))
  let oa := mOperand s e sa (e.base x.posA) va fa m k
  let ob := mOperand s e sb (e.base x.posB) vb fb n k
  -- on an odd row no follower stands under the core: reason 6 alone
  let follower := if posOf e.k < 2 then s.partner e.k e.team (posOf e.k + 2) else none
  let pairBad : Bool := pair && (decide (posOf e.k ≥ 2) || follower.isNone || decide (n % 32 ≠ 0) || decide (512 / step < n / 2))
  let ownBad : Bool := !((s.core e.k).owns e.warp.team rect) || (pair && (match follower with | some f => !(s.partnerOwns f rect) | none => false))
  let rects := if pair then [(e.k, rect), (followerOf e.k, rect)] else [(e.k, rect)]
  let tile (p : PosBits) (o : MOp) (code : Nat) : List (PosBits × Nat × Nat × Bool) :=
    if code = 0 then [({ p with ix := false, code := e.base p }, 32, max 1 o.names.length, true)] else []
  { oa := oa, ob := ob, fa := fa, fb := fb, rect := rect, rects := rects, k := k, n := n, pair := pair, clear := decide (x.op7 / 32 % 2 = 1), spec := spec
    tok := tok, wref := BitVec.ofNat 32 (c.getD 2 0), sref := BitVec.ofNat 32 (c.getD 3 0)
    reasons := (if shapeBad then [2] else []) ++ (if ownBad then [3] else []) ++ (if fmtBad then [4] else []) ++
      (if shapeBad then [] else (if fa?.isSome then oa.reasons else []) ++ (if fb?.isSome then ob.reasons else [])) ++ (if pairBad then [6] else []) ++ (if spec then tokenReasons e.team tok rects else [])
    tiles := tile x.posA oa sa ++ tile x.posB ob sb
    frees := (if sa = 0 ∧ x.la then oa.names else []) ++ (if sb = 0 ∧ x.lb then ob.names else []) }

/-- Its task; a speculative one finds its banks, and records its rectangles, when it enters (R298). -/
def mmaTask (e : Env) (p : MmaPlan) (ck : Clock) : Task :=
  e.newTask (.mma p.oa.src p.ob.src p.fa p.fb p.rect p.k p.n p.pair p.clear 0 0) p.wref p.sref 0 (if p.spec then some p.tok else none) ck

/-- Reasons of the register trap of an MMA: its register tiles, and a register that depends on the placement as its A, B or C (R198, R202). -/
def mmaRegs (e : Env) (x : Op) (p : MmaPlan) : List Nat :=
  vecReasons e p.tiles ++ (if e.det && (uniUses x (rowAt 0xEA x)).any placed then [5] else [])

/-- MMA. -/
def execMma (x : Long) (s : State) : Host.Outcome State Fault Refusal :=
  let x := x.op 0
  issue s x.form.bytes x.g (perActive x.g) 1 (fun _ _ _ => true) fun _ s e =>
    match e.active x.g with
    | [] => .ok (e.done x.form.bytes (s.modWarp e.k e.slot fun w => w.free (mmaPlan s e x 0).frees))
    | _ :: _ :: _ => .error (mTrap e x.g 1)
    | [lane] =>
      let p := mmaPlan s e x lane
      match (mmaRegs e x p).min? with
      | some q => .error { cls := 4, reason := q, mask := maskOf (e.active x.g) }
      | none => match p.reasons.min? with
        | some q => .error (mTrap e x.g q)
        | none =>
          if e.warp.sq ≠ [] then .ok (e.stall .retry s)
          else .ok (e.enterAll s x.form.bytes p.frees fun ck => [mmaTask e p ck])

/-- MMA's task (R298): the arrays of its cores; none ends it (R154), as do strips that its teams no longer own (R286; log 86). -/
def State.mmaRun (s : State) (k : Nat) (tm : Team) (slot : Nat) (a b : MSrc) (fa fb : Nat) (r : Rect) (kk n : Nat) (pair clear : Bool) (bank fbank : Nat) :
    Option State :=
  let held : Bool := (s.core k).owns slot r && (!pair || (match s.partner k tm (posOf k + 2) with | some f => s.partnerOwns f r | none => false))
  if ¬ held then none
  else match s.arrayRun k k tm a b fa fb r kk 0 clear bank with
  | none => none
  | some s1 => if pair then s1.arrayRun k (followerOf k) tm a b fa fb r kk (n / 2) clear fbank else some s1

/-! ## Reservations (R301, R302) -/

/-- A reservation record of 128 bits; none when it is invalid. -/
def resvOf (v : Nat) : Option Resv :=
  let r : Resv := { base := 0, size := 0, fmt := bitsOf v 3 0, blk := bitsOf v 6 4, band := v.testBit 7, rows := bitsOf v 47 32, cols := bitsOf v 63 48
                    bsoff := bitsOf v 82 64, bdoff := bitsOf v 114 96 }
  let gs := r.regions
  let apart : Bool := (List.range gs.length).all fun i => (List.range i).all fun j =>
    decide ((gs.getD i (0, 0)).2 ≤ (gs.getD j (0, 0)).1 ∨ (gs.getD j (0, 0)).2 ≤ (gs.getD i (0, 0)).1)
  let size := roundUp (gs.foldl (fun m g => max m g.2) 0) 1024
  if bitsOf v 127 115 ≠ 0 ∨ bitsOf v 95 83 ≠ 0 ∨ bitsOf v 31 8 ≠ 0 ∨ (mKind r.fmt).isNone ∨ ¬ (r.blk = 0 ∨ r.blk = 3 ∨ r.blk = 4 ∨ r.blk = 5)
    ∨ (r.blk ≠ 0 ∧ ¬ (r.fmt = 9 ∨ r.fmt = 10 ∨ r.fmt = 11)) ∨ (r.fmt = 11 ∧ (r.blk = 0 ∨ ¬ r.band)) ∨ (r.band ∧ r.blk = 0)
    ∨ r.rows = 0 ∨ r.cols = 0 ∨ r.rows % 16 ≠ 0 ∨ r.cols % (if r.fmt = 11 then 64 else 16) ≠ 0 ∨ r.bsoff % 16 ≠ 0 ∨ r.bdoff % 16 ≠ 0
    ∨ ¬ apart ∨ 524288 < size then none
  else some { r with size := size }

/-- Ranges of the format buffer in use, by base. -/
def Core.fbufUsed (c : Core) : List (Nat × Nat) := c.teams.flatMap fun t => t.2.resvs.map fun v => (v.2.base, v.2.base + v.2.size)

/-- The lowest free range of a size: 0 or the end of a range in use. -/
def Core.fbufFit (c : Core) (size : Nat) : Option Nat :=
  let used := c.fbufUsed
  ((0 :: used.map (·.2)).filter fun b => decide (b + size ≤ 524288) && used.all fun u => decide (u.2 ≤ b ∨ b + size ≤ u.1)).min?

/-- RSV. -/
def execRsv (x : X96) (s : State) : Host.Outcome State Fault Refusal :=
  let x := x.op
  matrixOnce s 0xEB x 0 fun s e v =>
    match resvOf ((natsOf v.a).foldr (fun w n => n * 2 ^ 32 + w) 0) with
    | none => .error 8
    | some r =>
      match (List.range 16).find? fun i => (alook i e.team.resvs).isNone with
      | none => .error 8
      | some id => match (s.core e.k).fbufFit r.size with
        | none => .ok (e.stall .retry s)
        | some b =>
          let s1 := (s.modTeam e.k e.warp.team fun t => { t with resvs := aput id { r with base := b } t.resvs }).modCore e.k fun (c : Core) =>
            { c with fbuf := c.fbuf.filter fun p => ¬ (b ≤ p.1 ∧ p.1 < b + r.size) }
          .ok (e.done 12 (s1.modWarp e.k e.slot fun w => w.writeUni e.handling x.d { lo := BitVec.ofNat 32 id, hi := BitVec.ofNat 32 id }))

/-- A task of the core names a reservation of the team. -/
def Core.resvBusy (c : Core) (slot id : Nat) : Bool := c.tasks.any fun t => decide (t.2.slot = slot) && (match t.2.job with
  | .mma a b .. =>
    (match a with | .resv ref => decide (ref.toNat % 16 = id) | _ => false) || (match b with | .resv ref => decide (ref.toNat % 16 = id) | _ => false)
  | .obld _ _ _ _ ref _ _ _ _ => decide (ref.toNat % 16 = id)
  | _ => false)

/-- RSVFREE. -/
def rsvfree (s : State) (x : Op) : Host.Outcome State Fault Refusal :=
  matrixOnce s 0xEC x 0 fun s e v =>
    let id := (sv1 v.a).lo
    if 16 ≤ id ∨ (alook id e.team.resvs).isNone ∨ (s.core e.k).resvBusy e.warp.team id then .error 9
    else .ok (e.done x.form.bytes (s.modTeam e.k e.warp.team fun t => { t with resvs := adel id t.resvs }))

/-- RSVFREE (C32). -/
def execRsvfreeC32 (x : C32R) (s : State) : Host.Outcome State Fault Refusal := rsvfree s (x.op 0)
/-- RSVFREE. -/
def execRsvfree (x : X96) (s : State) : Host.Outcome State Fault Refusal := rsvfree s x.op

/-! ## OBLD (R303) -/

/-- Conditions of a mode on a window of a reservation. -/
def obldBad (v : Resv) (mode ref rows cols : Nat) : Bool :=
  let ro := 16 * bitsOf ref 15 4
  let co := 64 * bitsOf ref 31 16
  decide (v.rows < ro + rows ∨ v.cols < co + cols) ||
  (match mode with
  | 0 => decide (v.blk ≠ 0) && (decide (ro % 64 ≠ 0 ∨ co ≠ 0 ∨ cols ≠ v.cols) || (decide (rows % 64 ≠ 0) && decide (ro + rows ≠ v.rows)))
  | 1 => decide (v.fmt ≠ 11 ∨ v.blk ≠ 3 ∨ cols % 8 ≠ 0)
  | 2 => decide (cols * elBits v.fmt % 8 ≠ 0)
  | _ => !v.band || decide (ro % 64 ≠ 0))

/-- OBLD. -/
def execObld (x : X96) (s : State) : Host.Outcome State Fault Refusal :=
  let x := x.op
  matrixOnce s 0xED x 0 fun s e v =>
    let ref := (sv1 v.a).lo
    let c := natsOf v.c
    let rows := c.getD 0 0 % 65536
    let cols := c.getD 0 0 / 65536
    match alook (ref % 16) e.team.resvs with
    | none => .error 4
    | some r =>
      if obldBad r (x.op7 % 4) ref rows cols then .error 4
      else .ok (e.enterAll s 12 [] fun ck =>
        [e.newTask (.obld (x.op7 % 4) x.type (e.mode x.rm) (x.op7 / 4 % 2 = 1) (BitVec.ofNat 32 ref) (sv1 v.b).lo rows cols (c.getD 1 0))
          (BitVec.ofNat 32 (c.getD 2 0)) (BitVec.ofNat 32 (c.getD 3 0)) 0 none ck])

/-- Write the pattern of an element of a reservation. -/
def Core.resvPut (c : Core) (v : Resv) (r col pat : Nat) : Core :=
  let w := elBits v.fmt
  let i := r * v.cols + col
  if w = 4 then
    let a := v.base + i / 2
    let old := (c.fb a).toNat
    let new := if i % 2 = 0 then old / 16 * 16 + pat % 16 else old % 16 + pat % 16 * 16
    { c with fbuf := memPut c.fbuf a (BitVec.ofNat 8 new) }
  else { c with fbuf := memWrite c.fbuf (v.base + i * (w / 8)) (natLe (w / 8) pat) }

/-- Rows of a source: the rows' bytes, read in order; fuel: rows. -/
def State.obldRows (k : Nat) (tm : Team) (t : Task) (ssc : Bool) (src pitch n : Nat) : List Nat → State → List (List Byte) →
    Except EngStop (List (List Byte) × State)
  | [], s, acc => .ok (acc, s)
  | r :: rest, s, acc => match State.engReadLong k tm t (if ssc then 1 else 0) src (n + 1) (r * pitch) n s [] with
    | .error x => .error x
    | .ok (bs, s1) => State.obldRows k tm t ssc src pitch n rest s1 (acc ++ [bs])

/-- .cvt into a reservation with scales: R92 over one band of rows, given as decoded values. -/
def Core.cvtBand (c : Core) (v : Resv) (mode row : Nat) (xs : List (List Fx)) : Core :=
  let kb := if v.band then bandLog2 (amax xs.flatten) else 0
  let c := if v.band then { c with fbuf := memWrite c.fbuf (v.base + v.bdoff + 2 * (row / 64)) (natLe 2 ((kb + 127).toNat * 128)) } else c
  (xs.zipIdx).foldl (fun c x =>
    (chunks v.blkLen (ceilDiv x.1.length v.blkLen) x.1).zipIdx.foldl (fun (c : Core) b =>
      let ks := blockLog2 (amax b.1) kb
      let c := { c with fbuf := memPut c.fbuf (v.base + v.bsoff + (row + x.2) * v.perRow + b.2) (BitVec.ofNat 8 ((ks + 3).toNat * 32)) }
      b.1.zipIdx.foldl (fun c y =>
        let pat := if v.fmt = 11 then (qntX mode 0 y.1 false 1 (kb + ks)).bits
          else (match y.1 with
            | .fin n m e => (roundTo (fmtOf v.fmt) mode true 0 { neg := n, m := m, e := e - (kb + ks) }).bits
            | z => (cvtX (fmtOf v.fmt) mode true 0 z).bits)
        c.resvPut v (row + x.2) (b.2 * v.blkLen + y.2) pat) c) c) c

/-- OBLD's task. -/
def State.obldRun (s : State) (k : Nat) (tm : Team) (t : Task) (mode type rm : Nat) (ssc : Bool) (ref : Nat) (src rows cols pitch : Nat) : Except EngStop State :=
  match alook (ref % 16) tm.resvs with
  | none => .error (.err s)
  | some v =>
    let ro := 16 * bitsOf ref 15 4
    let co := 64 * bitsOf ref 31 16
    let bands := ceilDiv rows 64
    let n := match mode with | 0 => cols * tyBytes type | 1 => cols / 8 * 5 | 2 => cols * elBits v.fmt / 8 | _ => 2 * bands
    match State.obldRows k tm t ssc src pitch n (if mode = 3 then [0] else List.range rows) s [] with
    | .error x => .error x
    | .ok (rs, s1) => .ok (s1.modCore k fun (c : Core) =>
      match mode with
      | 0 =>
        let vals := rs.map fun bs => (patsOf type cols bs)
        if v.blk = 0 then
          (vals.zipIdx).foldl (fun c x => x.1.zipIdx.foldl (fun c y => c.resvPut v (ro + x.2) (co + y.2) (convElem v.fmt type rm true 0 y.1).bits) c) c
        else
          (List.range bands).foldl (fun c i =>
            c.cvtBand v rm (ro + 64 * i) (((vals.drop (64 * i)).take 64).map fun r => r.map (fDecode (fmtOf type)))) c
      | 1 => (rs.zipIdx).foldl (fun c x => (List.range (cols / 8)).foldl (fun (c : Core) b =>
          let blk := (x.1.drop (5 * b)).take 5
          let c := { c with fbuf := memPut c.fbuf (v.base + v.bsoff + (ro + x.2) * v.perRow + co / 8 + b) (blk.getD 4 0) }
          (List.range 8).foldl (fun c j => c.resvPut v (ro + x.2) (co + 8 * b + j) (leNat (blk.take 4) / 16 ^ j % 16)) c) c) c
      | 2 => (rs.zipIdx).foldl (fun c x => (List.range cols).foldl (fun c j =>
          c.resvPut v (ro + x.2) (co + j) (leNat x.1 / 2 ^ (elBits v.fmt * j) % 2 ^ elBits v.fmt)) c) c
      | _ => { c with fbuf := memWrite c.fbuf (v.base + v.bdoff + 2 * (ro / 64)) (rs.getD 0 []) })

/-! ## ACCZ (R304) -/

/-- ACCZ.take: from a strip on, `n` strips. -/
def execAcczTake (x : X96) (s : State) : Host.Outcome State Fault Refusal :=
  let x := x.op
  matrixOnce s 0xF0 x (litInt x false 32) fun s e v =>
    let n := (sv1 v.b).lo
    match accAddr (sv1 v.a).lo with
    | none => .error 2
    | some (row, _) =>
      let first := row / 16
      let strips := (List.range (min n 33)).map (first + ·)
      let c := s.core e.k
      if n = 0 ∨ 32 < first + n ∨ strips.any (fun i => alook i c.strips = some e.warp.team) then .error 8
      else
      let r : Rect := { row := row, col := 0, rows := 16 * n, cols := 512 }
      if strips.any (fun i => (alook i c.strips).isSome) ∨ s.rectBusy e.k e.warp.team r s.nextAgent then .ok (e.stall .retry s)
      else
        .ok (e.done 12 (s.setCore e.k { c with
          strips := strips.foldl (fun m i => aput i e.warp.team m) c.strips
          acc := bankClear c.acc r, shadow := bankClear c.shadow r
          stat := strips.foldl (fun m i => adel i m) c.stat, shadowStat := strips.foldl (fun m i => adel i m) c.shadowStat }))

/-- ACCZ.give: in accumulator order (R289), and then a task left in a table, which is speculative, still bars it (R304; log 86). -/
def execAcczGive (x : X96) (s : State) : Host.Outcome State Fault Refusal :=
  let x := x.op
  matrixOnce s 0xF0 x (litInt x false 32) fun s e v =>
    let n := (sv1 v.b).lo
    match accAddr (sv1 v.a).lo with
    | none => .error 2
    | some (row, _) =>
      let first := row / 16
      let strips := (List.range (min n 33)).map (first + ·)
      let c := s.core e.k
      let r : Rect := { row := row, col := 0, rows := 16 * n, cols := 512 }
      if n = 0 ∨ 32 < first + n ∨ strips.any (fun i => alook i c.strips ≠ some e.warp.team) then .error 8
      else if s.rectBusy e.k e.warp.team r s.nextAgent then .ok (e.stall .retry s)
      else if s.rectTask e.k r then .error 8
      else .ok (e.done 12 (s.setCore e.k { c with
        strips := strips.foldl (fun m i => adel i m) c.strips
        stat := strips.foldl (fun m i => adel i m) c.stat, shadowStat := strips.foldl (fun m i => adel i m) c.shadowStat }))

/-- A shape word with KS = 0 as a rectangle of columns of `step` cells; none when it or the address is malformed or does not fit. -/
def shapeRect (addr shape step : Nat) : Option Rect :=
  match accAddr addr with
  | none => none
  | some (row, col) =>
    let m := 16 * (shape % 32 + 1)
    let n := 16 * (bitsOf shape 15 10 + 1) * step
    if bitsOf shape 9 5 ≠ 0 ∨ bitsOf shape 31 16 ≠ 0 ∨ 512 < row + m ∨ 512 < col + n then none else some { row := row, col := col, rows := m, cols := n }

/-- ACCZ.clr. -/
def execAcczClr (x : X96) (s : State) : Host.Outcome State Fault Refusal :=
  let x := x.op
  matrixOnce s 0xF0 x (litInt x false 32) fun s e v =>
    match shapeRect (sv1 v.a).lo (sv1 v.b).lo 1 with
    | none => .error 2
    | some r =>
      let c := s.core e.k
      if ¬ c.owns e.warp.team r then .error 3
      else if s.tokenBusy e.k r then .error 7
      else if s.rectBusy e.k e.warp.team r s.nextAgent then .ok (e.stall .retry s)
      else
        let fresh (st : List (Nat × Nat)) : List (Nat × Nat) := r.strips.foldl (fun m i => adel i m) st
        .ok (e.done 12 (s.setCore e.k { c with acc := bankClear c.acc r, stat := fresh c.stat, shadowStat := fresh c.shadowStat }))

/-! ## ACCRD (R305) -/

/-- The elements a thread reads: values and flags. -/
def accrdOut (c : Core) (x : Op) (mode row col n : Nat) : Out :=
  if x.op7 = 1 then { vals := [svConst ((alook (row / 16) c.stat).getD 0)] }
  else
    let outs : List FR := (List.range n).map fun j =>
      if x.type = 6 then { bits := cellIn c.acc 6 row (col + 2 * j), fl := 0 }
      else
        let w := (bankGet c.acc row (col + j)).toNat
        if x.type = 7 ∨ x.type = 8 then cvtX (fmtOf x.type) mode x.sat 0 (fDecode fp32 w) else { bits := w, fl := 0 }
    { vals := outs.map fun r => svConst r.bits, fl := outs.foldl (fun f r => f ||| r.fl) 0 }

/-- Row, column and cells of an ACCRD: the address of A, the elements read. -/
def accrdPlace (s : State) (e : Env) (x : Op) : Option (Nat × Nat) × Nat :=
  let n := if x.op7 = 1 then 1 else x.imm16 % 32
  (accAddr (sv1 (Env.srcs s e x (rowAt 0xEE x) 0 ((e.active x.g).headD 0)).a).lo, if x.op7 = 1 then 0 else if x.type = 6 then 2 * n else n)

/-- Reasons of its threads (R305, R308). -/
def accrdBad (s : State) (e : Env) (x : Op) : List (Nat × Nat) :=
  let p := accrdPlace s e x
  let (row0, col) := p.1.getD (0, 0)
  (e.active x.g).filterMap fun i =>
    if p.1.isNone ∨ 512 ≤ row0 + i ∨ 512 < col + p.2 then some (i, 2)
    else if alook ((row0 + i) / 16) (s.core e.k).strips ≠ some e.warp.team then some (i, 3) else none

/-- A task that has not ended writes what it reads. -/
def accrdBusy (s : State) (e : Env) (x : Op) : Bool :=
  let p := accrdPlace s e x
  let (row0, col) := p.1.getD (0, 0)
  (e.active x.g).any fun i => s.rectBusy e.k e.warp.team { row := row0 + i, col := col, rows := 1, cols := max 1 p.2 } s.nextAgent

/-- What its threads read. -/
def accrdOuts (s : State) (e : Env) (x : Op) : List (Nat × Out) :=
  let (row0, col) := (accrdPlace s e x).1.getD (0, 0)
  let a := sv1 (Env.srcs s e x (rowAt 0xEE x) 0 ((e.active x.g).headD 0)).a
  (e.active x.g).map fun i =>
    let o := accrdOut (s.core e.k) x (e.mode x.rm) (row0 + i) col (if x.op7 = 1 then 1 else x.imm16 % 32)
    let bd := (e.warp.lane i).bounds
    -- a bounds thread raises no flag but WID (R99, R376)
    (i, { o with fl := if bd then o.fl &&& fWID else o.fl, vals := o.vals.map fun z => { z with e := bd && a.e, stamp := a.stamp } })

/-- The course of ACCRD. -/
def accrdCourse (x : Op) (s : State) (e : Env) : State × Option Trap :=
  match e.active x.g with
  | [] => (e.done 12 s, none)
  | act => match e.regTrap x (rowAt 0xEE x) (maskOf act) with
    | some t => (s, some t)
    | none => match accrdBad s e x with
      | b :: bs => (s, some { cls := 10, mask := maskOf ((b :: bs).map (·.1)), reason := bs.foldl (fun m y => min m y.2) b.2 })
      | [] =>
        if accrdBusy s e x then (e.stall .retry s, none)
        else
          let outs := accrdOuts s e x
          let w1 := outs.foldl (fun w o => w.modLane o.1 fun l => l.note o.2.fl 0) e.warp
          match outs.filter fun o => o.2.fl &&& enabledFlags e.warp (e.warp.lane o.1).bounds ≠ 0 with
          | [] => (e.done 12 (s.modWarp e.k e.slot fun _ => e.writeOut w1 x (rowAt 0xEE x) outs), none)
          | hit => (s.modWarp e.k e.slot fun _ => w1,
              some { cls := 5, mask := maskOf (hit.map (·.1))
                     reason := hit.foldl (fun m o => m ||| (o.2.fl &&& enabledFlags e.warp (e.warp.lane o.1).bounds)) 0 })

/-- ACCRD. -/
def execAccrd (x : X96) (s : State) : Host.Outcome State Fault Refusal :=
  issued s 12 x.op.g (perActive x.op.g) 1 (fun _ _ _ => false) fun _ _ s e => accrdCourse x.op s e

/-! ## ACCST (R306) -/

/-- ACCST. -/
def execAccst (x : X96) (s : State) : Host.Outcome State Fault Refusal :=
  let x := x.op
  matrixOnce s 0xEF x 0 fun s e v =>
    let c := natsOf v.c
    let w := tyBytes x.type
    let step := if x.type = 6 then 2 else 1
    let dst := (sv1 v.b).lo
    let pitch := c.getD 1 0
    let dsc := decide (x.op7 = 1)
    match shapeRect (sv1 v.a).lo (c.getD 0 0) step with
    | none => .error 2
    | some r =>
      let n := r.cols / step
      let outside : Bool := dsc && (match s.scrPlace e.k e.team (scrAddr dst) (scrAddr dst).off ((r.rows - 1) * pitch + n * w) with
        | .ok _ => false
        | .error _ => true)
      if pitch < n * w ∨ dst % w ≠ 0 ∨ outside then .error 2
      else if ¬ (s.core e.k).owns e.warp.team r then .error 3
      else .ok (e.enterAll s 12 [] fun ck => [e.newTask (.accst x.type (e.mode x.rm) x.sat dsc r dst pitch)
        (BitVec.ofNat 32 (c.getD 2 0)) (BitVec.ofNat 32 (c.getD 3 0)) (relOf x) none ck])

/-- Bytes of one row of an ACCST. -/
def accRow (c : Core) (type rm : Nat) (sat : Bool) (r : Rect) (i : Nat) : List Byte :=
  let step := if type = 6 then 2 else 1
  (List.range (r.cols / step)).flatMap fun j =>
    let col := r.col + j * step
    let raw := cellIn c.acc type (r.row + i) col
    natLe (tyBytes type) (if type = 5 ∨ type = 1 ∨ type = 6 then raw else (cvtX (fmtOf type) rm sat 0 (fDecode fp32 raw)).bits)

/-- Region and byte offset of an address in a staged region (R119), for the placement that ACCST records. -/
def stagedAt (s : State) (p : Party) (va : Nat) : Option (Nat × Nat) :=
  match tlbFind (s.die p.die) p.ctx va with
  | some t => if t.stg then some (t.frame, t.fidx * 65536 + (va % 2 ^ 57 - t.base)) else none
  | none => none

/-- ACCST's task: rows in order, in units of the destination's sectors; the placement goes to the launch (R309, R316). -/
def State.accstRun (k id : Nat) (tm : Team) (t : Task) (type rm : Nat) (sat dsc : Bool) (r : Rect) (dst pitch : Nat) : List Nat → State → Except EngStop State
  | [], s => .ok s
  | i :: rest, s =>
    let bs := accRow (s.core k) type rm sat r i
    match State.engWriteLong k id tm t (if dsc then 1 else 0) dst (bs.length + 1) (i * pitch) bs s with
    | .error x => .error x
    | .ok s1 =>
      let marks := if dsc then [] else (List.range bs.length).filterMap fun j =>
        (stagedAt s1 (t.party s1 k) ((dst + i * pitch + j) % 2 ^ 64)).map fun q => (q.1, q.2, k)
      let s2 := match (t.uid.bind s1.launch).map (·.root) with
        | some u => s1.modLaunch u fun l => { l with wrote := (l.wrote.filter fun q => ¬ (marks.any fun m => m.1 = q.1 ∧ m.2.1 = q.2.1)) ++ marks }
        | none => s1
      State.accstRun k id tm t type rm sat dsc r dst pitch rest s2

/-! ## RESOLVE (R162, R307) -/

/-- The first held signal of a token is applied, with the clock of the task that made it (R187, R189); one that breaks a bound is an engine error. -/
def State.applyHeld (s : State) (k slot tok : Nat) (h : Held) : State :=
  let s := s.modTeam k slot fun t => { t with tokens := t.tokens.set tok { t.tokens.getD tok {} with held := (t.tokens.getD tok {}).held.drop 1 } }
  match (s.obj? (h.core, h.off)).bind (h.upd.apply h.clock) with
  | some _ => s.updateObj (h.core, h.off) h.upd h.clock
  | none => s.engineError k slot

/-- Commit a token with no held signal left: its unfinished tasks go on as ordinary ones, and the rectangles recorded are copied, but for those of
tasks that still run. -/
def State.commitToken (s : State) (k slot tok : Nat) : State :=
  match alook slot (s.core k).teams with
  | none => s
  | some tm =>
    let x := tm.tokens.getD tok {}
    let open' := (s.core k).tasks.filter fun t => t.2.slot = slot ∧ t.2.token = some tok
    let busy := open'.flatMap fun t => t.2.rects k
    let s := s.modTeam k slot fun t => { t with tokens := t.tokens.set tok {} }
    let s := s.modCore k fun (c : Core) => { c with tasks := c.tasks.map (fun t => if t.2.slot = slot ∧ t.2.token = some tok then (t.1, { t.2 with token := none, copyDone := true }) else t) }
    (x.rects.filter fun q => !(busy.contains q)).foldl (fun s q => s.commitRect q) s

/-- Discard a token: its tasks go, its signals and rectangles are dropped, the objects they name are reset. -/
def State.discardToken (s : State) (k slot tok : Nat) : State :=
  match alook slot (s.core k).teams with
  | none => s
  | some tm =>
    let x := tm.tokens.getD tok {}
    let dropped := (s.core k).tasks.filter fun t => t.2.slot = slot ∧ t.2.token = some tok
    let objs := (x.held.map fun h => (h.core, h.off)) ++ dropped.filterMap fun t => if t.2.sref.getLsbD 0 then s.refPlace k tm t.2.sref else none
    let s := s.modTeam k slot fun t => { t with tokens := t.tokens.set tok {} }
    let s := dropped.foldl (fun s t => s.freeTask k t.1) s
    objs.foldl (fun s p => s.resetObj p) s

/-- RESOLVE. A commit applies the held signals in order, one step each (R187), and then settles the token. -/
def resolveTok (s : State) (x : Op) : Host.Outcome State Fault Refusal :=
  issue s x.form.bytes x.g oneCycle 1 (fun _ _ _ => true) fun _ s e =>
    let r := rowAt 0xF1 x
    let len := x.form.bytes
    let fin (s : State) : State := e.done len (s.modWarp e.k e.slot fun w => w.free (e.frees x r))
    match e.active x.g with
    | [] => .ok (fin s)
    | lane :: rest => match e.regTrap x r (maskOf (lane :: rest)) with
      | some t => .error t
      | none =>
        let p (i : Nat) : Bool := decide (((e.warp.lane i).pred (x.a % 8)).v = .t)
        let tok := (sv1 (Env.srcs s e x r (litInt x false 32) lane).b).lo
        if 4 ≤ tok ∨ (rest.any fun i => p i != p lane) = true then .error (mTrap e x.g 7)
        else if ¬ p lane then .ok (fin (s.discardToken e.k e.warp.team tok))
        else match (e.team.tokens.getD tok {}).held with
          | h :: _ => .ok ((e.stall .retry s).applyHeld e.k e.warp.team tok h)
          | [] => .ok (fin (s.commitToken e.k e.warp.team tok))

/-- RESOLVE (C32). -/
def execResolveC32 (x : C32R) (s : State) : Host.Outcome State Fault Refusal := resolveTok s (x.op 0)
/-- RESOLVE. -/
def execResolve (x : X96) (s : State) : Host.Outcome State Fault Refusal := resolveTok s x.op

end Sys2Proof.Machine
end

