-- ==== Sys2Proof/Machine/Save.lean ====
section
/-!
DEFINITION. The save pool (R423): what a team's image takes of it (log 27).
-/
namespace Sys2Proof.Machine

/-- Frames of 64 KiB for a team's image: 8 KiB a warp, its mapped names, its scratchpad, its strips in both banks, its reservations. -/
def Core.imageFrames (c : Core) (slot : Nat) : Nat :=
  match alook slot c.teams with
  | none => 0
  | some t =>
    let ws := c.warps.filter fun w => w.2.team = slot
    let strips := (c.strips.filter fun p => p.2 = slot).length
    ceilDiv ((ws.map fun w => 8192 + 128 * w.2.vregs.length).sum + t.scrSize + 65536 * strips + (t.resvs.map fun v => v.2.size).sum) 65536

/-- Frames of the pool that images hold. -/
def State.savedFrames (s : State) : Nat := (s.saved.map fun x => x.frames).sum

/-- The pool has room for a team's image. -/
def State.saveFits (s : State) (k slot : Nat) : Bool := decide (s.savedFrames + (s.core k).imageFrames slot ≤ s.svSize)

end Sys2Proof.Machine
end

