-- ==== Sys2Proof/Machine/EngineEvents.lean ====
section
/-!
DEFINITION. The engines' steps: TASK_START (R151, R289, R294), COPY_SECTOR_LAND (R158), TASK_COMPLETE (R153), and the weight store's
write window (R115).
-/
namespace Sys2Proof.Machine

/-! ## Starting (R143, R151, R289, R294) -/

/-- Tagged granules of a core meet a span. -/
def State.spanTagged (s : State) (k : Nat) (tm : Team) (base disp n : Nat) : Bool :=
  match s.scrPlace k tm (scrAddr base) ((scrAddr base).off + disp) n with
  | .ok (.scr k' off) => (s.core k').tagged off n
  | _ => false

/-- A task would write a tagged granule (R143). -/
def State.writesTagged (s : State) (k : Nat) (tm : Team) (t : Task) : Bool :=
  match t.job with
  | .copy r => decide (r.dsp = 1) && decide (r.len ≠ 0) && (List.range (r.rows + 1)).any fun i => s.spanTagged k tm r.dst (i * r.dpitch * 32) r.len
  | .reduce _ type _ _ true _ dst _ _ => s.spanTagged k tm dst 0 (tyBytes type)
  | .accst type _ _ true r dst pitch =>
    (List.range r.rows).any fun i => s.spanTagged k tm dst (i * pitch) (r.cols / (if type = 6 then 2 else 1) * tyBytes type)
  | _ => false

/-- An MMA task runs on a core. -/
def Core.arrayBusy (c : Core) (pairOnly : Bool) : Bool := c.tasks.any fun t => match t.2.job with
  | .mma _ _ _ _ _ _ _ pair _ _ _ => decide (t.2.state = .running) && (pair || !pairOnly)
  | _ => false

/-- The accumulator conditions of a matrix task (R289), and those of the arrays (R294). -/
def State.matrixFree (s : State) (k : Nat) (t : Task) : Bool :=
  let ordered : Bool := t.token.isSome || (!((t.rects k).any fun q => decide (q.1 = k) && s.rectBusy k t.slot q.2 t.agent) && !((t.rects k).any fun q => s.tokenBusy q.1 q.2))
  let arrays : Bool := match t.job with
    | .mma _ _ _ _ _ _ _ pair _ _ _ =>
      !(pair && (s.core (followerOf k)).arrayBusy false) && !(decide (2 ≤ posOf k) && !isFw k && (s.core (corePeer k (posOf k - 2))).arrayBusy true)
    | _ => true
  ordered && arrays

/-- A READY task may start: first of its engine in the table's order, and its engine has room. -/
def State.mayStart (s : State) (k id : Nat) (t : Task) : Bool :=
  let ts := (s.core k).tasks
  let same := ts.filter fun x => x.2.job.engine = t.job.engine
  decide (t.state = .ready) &&
  !(same.any fun x => decide (x.1 < id ∧ x.2.state = .ready)) &&
  decide ((same.filter fun x => x.2.state = .running).length < (if t.job.engine = 0 then 8 else 1)) &&
  s.matrixFree k t

/-- TASK_START: core, `n` task. -/
def execTaskStart (s : State) : Host.Outcome State Fault Refusal :=
  let k := s.ev.core
  let id := s.ev.n
  match alook id (s.core k).tasks with
  | none => .next s
  | some t => match alook t.slot (s.core k).teams with
    | none => .next s
    | some tm =>
      if ¬ s.mayStart k id t ∨ (tm.saving ∧ s.saveFits k t.slot) then .next s
      else if s.writesTagged k tm t then .next (s.taskError k id)
      else .next (s.modCore k fun (c : Core) => c.modTask id fun x => { x with state := .running })

/-! ## Running -/

/-- COPY_SECTOR_LAND: core, `n` task; the next unit of a running copy (R158). -/
def execCopySectorLand (s : State) : Host.Outcome State Fault Refusal :=
  let k := s.ev.core
  let id := s.ev.n
  match alook id (s.core k).tasks with
  | none => .next s
  | some t => match t.job, alook t.slot (s.core k).teams with
    | .copy r, some tm =>
      if ¬ t.moving ∨ r.len = 0 ∨ r.rows < t.row then .next s
      else match s.copyUnit k id tm t r with
        | .ok s1 => .next s1
        | .error x => .next (s.engStop k id x)
    | _, _ => .next s

/-- An armed flip meets an MMA task's rectangle on a core: the bit of the cell in the bank written is inverted, and ARM cleared (R446). -/
def State.finjFlip (s : State) (bank : Nat) (q : Nat × Rect) : State :=
  let d := s.die (dieOf q.1)
  let v := d.finj.toNat
  let row := bitsOf v 16 8
  let col := bitsOf v 25 17
  let cell : Rect := { row := row, col := col, rows := 1, cols := 1 }
  if ¬ d.finj.getLsbD 31 ∨ v % 128 ≠ localOf q.1 ∨ ¬ q.2.meets cell then s
  else
    let flip (b : List (Nat × Word)) : List (Nat × Word) := bankPut b row col (bankGet b row col ^^^ BitVec.ofNat 32 (2 ^ bitsOf v 30 26))
    (s.modCore q.1 fun (c : Core) => if bank = 0 then { c with acc := flip c.acc } else { c with shadow := flip c.shadow }).modDie (dieOf q.1)
      fun x => { x with finj := x.finj &&& 0x7FFFFFFF#32 }

/-- What a task that is no copy computes and writes. -/
def State.compute (s : State) (k id : Nat) (tm : Team) (t : Task) : Except EngStop State :=
  match t.job with
  | .copy _ => .ok s
  | .reduce op type mode sat dsc ssc dst src n =>
    let w := tyBytes type
    (match State.engReadLong k tm t (if ssc then 1 else 0) src (n * w + 1) 0 (n * w) s [] with
    | .error x => .error x
    | .ok (bs, s1) => s1.engWrite k id tm t (if dsc then 1 else 0) dst 0 (natLe w (reduceValue op type mode sat (patsOf type n bs))))
  | .summ type dst src n =>
    let w := tyBytes type
    (match State.engReadLong k tm t 0 src (n * w + 1) 0 (n * w) s [] with
    | .error x => .error x
    | .ok (bs, s1) =>
      let out := summBytes type src n (patsOf type n bs)
      State.engWriteLong k id tm t 0 dst (out.length + 1) 0 out s1)
  | .mma a b fa fb r kk n pair clear bank fbank => (match s.mmaRun k tm t.slot a b fa fb r kk n pair clear bank fbank with
    | some s1 => .ok ((t.rects k).foldl (fun s q => s.finjFlip bank q) s1)
    | none => .error (.err s))
  | .obld mode type rm ssc ref src rows cols pitch => s.obldRun k tm t mode type rm ssc ref.toNat src rows cols pitch
  | .accst type rm sat dsc r dst pitch =>
    if (s.core k).owns t.slot r then State.accstRun k id tm t type rm sat dsc r dst pitch (List.range r.rows) s else .error (.err s)

/-- The end of a task whose writes are all performed: its signal, the copy of its rectangles, and its entry (R153, R307). -/
def State.taskDone (s : State) (k id : Nat) (tm : Team) (t : Task) : State :=
  match (match t.job with | .copy _ => some s | _ => s.signal k tm t (.arrive 1)) with
  | none => s.taskError k id
  | some s1 =>
    let s2 := if t.copyDone then (t.rects k).foldl (fun s q => s.commitRect q) s1 else s1
    s2.freeTask k id

/-- The end of a task whose writes are performed under its release: a copy with a release subtracts one unit's bytes at a time, each with its
Complete (R142, R153); then the task is DONE. -/
def State.taskEnd (s : State) (k id : Nat) (tm : Team) (t : Task) : State :=
  match t.job with
  | .copy r =>
    if t.rel = 0 ∨ r.len = 0 ∨ r.rows < t.signed.1 then s.taskDone k id tm t
    else match s.signal k tm t (.landed (r.unit t.signed.1 t.signed.2)) with
      | none => s.taskError k id
      | some s1 => s1.modCore k fun (c : Core) => c.modTask id fun x => { x with signed := r.after t.signed.1 t.signed.2 }
  | _ => s.taskDone k id tm t

/-- TASK_COMPLETE: core, `n` task. What is not a copy computes; once its queue is empty and its release is met, the task ends. -/
def execTaskComplete (s : State) : Host.Outcome State Fault Refusal :=
  let k := s.ev.core
  let id := s.ev.n
  match alook id (s.core k).tasks with
  | none => .next s
  | some t => match alook t.slot (s.core k).teams with
    | none => .next s
    | some tm =>
      if ¬ t.moving then .next s
      else
        let made : Except EngStop State := match t.job with
          | .copy r => if r.len = 0 ∨ r.rows < t.row then .ok s else .error .later
          | _ => if t.computed then .ok s else (match s.compute k id tm t with
            | .ok s1 => .ok (s1.modCore k fun (c : Core) => c.modTask id fun x => { x with computed := true })
            | .error x => .error x)
        match made with
        | .error x => .next (s.engStop k id x)
        | .ok s1 => match alook id (s1.core k).tasks, alook t.slot (s1.core k).teams with
          | some t1, some tm1 => if t1.eq ≠ [] ∨ ¬ t1.released (s1.core k) then .next s1 else .next (s1.taskEnd k id tm1 t1)
          | _, _ => .next s1

/-! ## The weight store's write window (R115) -/

/-- A copy into the die's weight store has arrived and is not complete. -/
def State.wsPending (s : State) (die : Nat) : Bool := s.cores.any fun c => decide (dieOf c.1 = die) && c.2.tasks.any fun t => match t.2.job with
  | .copy r => decide (r.dsp = 2 ∧ t.2.state ≠ .waiting)
  | _ => false

/-- A launch declares reads of a die's weight store. -/
def Launch.readsWs (l : Launch) (die : Nat) : Bool := l.deps.contains (.ws die)

/-- A declaring launch runs. -/
def State.wsReaders (s : State) (die : Nat) : Bool := s.launches.any fun l =>
  l.2.readsWs die && decide (l.2.phase = .running ∨ l.2.phase = .flushing)

/-- WEIGHT_STORE_DIGEST_CHECK: die. The copies are complete: the store's digest against that of what they read, under a new generation;
on a mismatch the store is unusable until a later window's digests match (class 8 in the record: log 24). -/
def execWeightStoreDigestCheck (s : State) : Host.Outcome State Fault Refusal :=
  let d := s.ev.die
  let x := s.die d
  if ¬ x.wsWindow ∨ s.wsPending d then .next s
  else
    let dig := Config.sm3Image Config.weightBytes x.ws
    let same := decide (dig = Config.sm3Image Config.weightBytes x.wsSource)
    let s1 := s.setDie d { x with wsWindow := false, wsSource := [], wsGen := x.wsGen + 1, wsDigest := dig, wsUsable := same }
    .next (if same then s1 else s1.record 8 true (some d) none none none 0)

end Sys2Proof.Machine
end

