-- ==== Sys2Proof/Machine/Quads.lean ====
section
/-!
DEFINITION. The launch scheduler of a die (R351 to R356, R459): which launch a die picks, where its next quad goes, what is pre-empted for
it (R420), re-runs, and the teams and threads of a grid (R195, R373).
-/
namespace Sys2Proof.Machine

/-! ## Asking for a pre-emption -/

/-- A team that may be discarded for pre-emption (R382, R420). -/
def State.discardable (s : State) (t : Team) : Bool :=
  match (t.uid.bind s.launch).bind s.imageOf with
  | some i => i.idem && i.bounds.isNone
  | none => false

/-- Mode 0: the team is to be saved; without a save pool nothing happens (R423). -/
def State.askSave (s : State) (k slot : Nat) : State :=
  if s.svSize = 0 then s else s.modTeam k slot fun t => { t with saving := true }

/-- Mode 1: no quad is admitted to the team's core until it has ended. -/
def State.askDrain (s : State) (k slot : Nat) : State := s.modTeam k slot fun t => { t with drain := true }

/-- Mode 2: discarded when it qualifies, otherwise saved (R421). -/
def State.askDiscard (s : State) (k slot : Nat) : State :=
  match alook slot (s.core k).teams with
  | none => s
  | some t => if s.discardable t then s.killTeam k slot false else s.askSave k slot

/-! ## Where quads may go -/

/-- A core takes a team of a quad of a priority: nothing drains on it, no formed warp waits (R357), no scan runs, and it is not marked,
but for priorities that abort scans (R440; log 28). -/
def Core.takes (c : Core) (pri thr : Nat) : Bool :=
  c.scan.isNone && (!c.marked || decide (thr ≤ pri)) && decide (c.formed = []) && !(c.teams.any fun t => t.2.drain)

/-- A cluster takes quads of a priority. -/
def State.clusterTakes (s : State) (i j pri : Nat) : Bool :=
  s.present i j && !((s.die (clusterDie i j)).retiring.contains (clusterIdx i j)) &&
  (List.range 4).all fun p => (s.core (clusterCore i j p)).takes pri s.scanPri

/-- Dies used by a launch, for its completion record (R322). -/
def State.useDie (s : State) (u d : Nat) : State :=
  match s.launch u with
  | none => s
  | some l => s.modLaunch l.root fun r => { r with dies := r.dies ||| 2 ^ d }

/-- Core of a resident grid team of a quad. -/
def State.residentOf (s : State) (u seg quad : Nat) : Option Nat :=
  (s.cores.find? fun c => c.2.teams.any fun t => t.2.uid = some u ∧ t.2.kind = .grid ∧ t.2.seg = seg ∧ t.2.quad = quad).map (·.1)

/-! ## Clusters of a quad -/

/-- Teams of a quad of a segment. -/
def quadTeams (g : Seg) (q : Nat) : Nat := min 4 (g.teams - 4 * q)

/-- A cluster of a launch's rectangle after some rotations of R319: along its rows where it spans two rows of dies, otherwise its columns. -/
def Launch.turn (l : Launch) (times : Nat) (c : Nat × Nat) : Nat × Nat :=
  if decide (l.ocr / 4 ≠ (l.ocr + l.ch - 1) / 4) then (l.ocr + (c.1 - l.ocr + times * ceilDiv l.ch 2) % l.ch, c.2)
  else (c.1, l.occ + (c.2 - l.occ + times * ceilDiv l.cw 2) % l.cw)

/-- Clusters that a quad of segment `si` could take by its launch's placement (R319, R353 to R355). A rotated re-run puts a quad that no earlier run
had placed where the rotation takes its deterministic or one-per-core place. -/
def Launch.spots (l : Launch) (si q : Nat) : List (Nat × Nat) :=
  let cs := rectClusters l.ocr l.occ l.ch l.cw
  match l.fixed.find? fun f => f.1 = l.seg0 + si ∧ f.2.1 = q, l.segs[si]? with
  | some f, _ => [(f.2.2.1, f.2.2.2)]
  | none, none => []
  | none, some g =>
    if l.onePerCore then ((cs.drop q).take 1).map (l.turn l.rot)
    else if l.dpl then ((cs.drop ((drizzle g.key.toNat q 0 0xFFFFFFFE).headD 0 % (l.ch * l.cw))).take 1).map (l.turn l.rot)
    else cs

/-- A cluster takes a quad of `n` teams of a launch and has room for it (R351, R352). -/
def State.quadFits (s : State) (img : Image) (l : Launch) (n : Nat) (c : Nat × Nat) : Bool :=
  s.clusterTakes c.1 c.2 l.pri && (List.range n).all fun p => ((s.core (clusterCore c.1 c.2 p)).room (needOf img l img.teamW true)).isSome

/-- A launch with a quad left: where that may go, and where it fits now. -/
structure Cand where
  uid : Nat
  l : Launch
  img : Image
  spots : List (Nat × Nat)
  free : List (Nat × Nat)
  deriving DecidableEq, Repr

/-- Teams of the quads that are admitted together: the next quad, or all of a one-per-core launch. -/
def State.candOf (s : State) (u : Nat) (l : Launch) : Option Cand :=
  match s.imageOf l, l.segs[l.nextSeg]? with
  | some img, some g =>
    if l.phase ≠ .running ∨ l.grouped then none
    else if l.onePerCore ∧ l.nextQuad = 0 then
      let qs := List.range (ceilDiv g.teams 4)
      let whole := qs.all fun q => (l.spots l.nextSeg q).all fun c => s.quadFits img l (quadTeams g q) c
      let spots := qs.flatMap fun q => l.spots l.nextSeg q
      some { uid := u, l := l, img := img, spots := spots, free := if whole then spots else [] }
    else
      let spots := l.spots l.nextSeg l.nextQuad
      some { uid := u, l := l, img := img, spots := spots, free := spots.filter fun c => s.quadFits img l (quadTeams g l.nextQuad) c }
  | _, _ => none

/-- Every launch with quads left to place. -/
def State.cands (s : State) : List Cand := s.launches.filterMap fun p => s.candOf p.1 p.2

/-- Clusters that waiting quads of a higher priority could use: nothing of a lower priority is admitted there (R356). -/
def State.blockedAbove (s : State) (pri : Nat) : List (Nat × Nat) :=
  (s.cands.filter fun c => decide (pri < c.l.pri ∧ c.free = [])).flatMap (·.spots)

/-- Clusters a re-run may take (R459). -/
def State.rerunSpots (s : State) (u : Nat) (l : Launch) (r : Rerun) : List (Nat × Nat) :=
  match s.residentOf u r.seg r.quad with
  | some k => [(coreRow k / 2, coreCol k / 2)]
  | none =>
    if r.threads ≠ [] then [(coreRow r.core / 2, coreCol r.core / 2)]
    else if l.dpl then (l.quads.filter fun q => q.1 = r.seg ∧ q.2.1 = r.quad).map fun q => (q.2.2.1, q.2.2.2)
    else rectClusters l.ocr l.occ l.ch l.cw

/-- Clusters that pending re-runs of a priority or above could use: they go ahead of its quads (R459). -/
def State.rerunBlocked (s : State) (pri : Nat) : List (Nat × Nat) :=
  s.launches.flatMap fun p => if p.2.phase = .running ∧ pri ≤ p.2.pri then p.2.reruns.flatMap (s.rerunSpots p.1 p.2) else []

/-! ## The pick of a die (R356) -/

/-- PWR of a die: 0 until the first window of 2^16 cycles has passed (R438; log 42). -/
def Die.power (d : Die) (die : Nat) : Nat := let w := d.cycle / 65536; if w = 0 then 0 else (Config.dieWatts die w).toNat

/-- The die's heat budget admits a class (R438). -/
def Die.admitsClass (d : Die) (die ec : Nat) : Bool := decide (d.power die + d.emarg.toNat / 2 ^ (8 * ec) % 256 ≤ d.plim)

/-- The oldest of some. -/
def oldest : List Cand → Option Cand
  | [] => none
  | c :: cs => some (cs.foldl (fun m x => if x.l.age < m.l.age ∨ (x.l.age = m.l.age ∧ x.uid < m.uid) then x else m) c)

/-- Highest priority, then energy class, then age. -/
def Die.choose (d : Die) (die : Nat) (cs : List Cand) : Option Cand :=
  let top := (cs.map (·.l.pri)).foldl max 0
  let p := cs.filter fun c => decide (c.l.pri = top)
  let fit := p.filter fun c => d.admitsClass die c.l.ec
  let low := (p.map (·.l.ec)).foldl min 3
  oldest (match fit with | [] => p.filter fun c => decide (c.l.ec = low) | _ => fit)

/-- The team pre-empted next for a quad on some clusters (R420): on a core that lacks room for it, of the lowest priority below its own,
the youngest launch; none where that would not make room, or a save is under way. -/
def State.victim (s : State) (c : Cand) (cs : List (Nat × Nat)) : Option (Nat × Nat) :=
  let n := match c.l.segs[c.l.nextSeg]? with | some g => quadTeams g c.l.nextQuad | none => 0
  let need := needOf c.img c.l c.img.teamW true
  let below (t : Team) : Option Launch := match t.uid.bind s.launch with
    | some l => if l.pri < c.l.pri ∧ (s.discardable t ∨ s.svSize ≠ 0) then some l else none
    | none => none
  cs.findSome? fun q =>
    let ks := (List.range n).map fun p => clusterCore q.1 q.2 p
    let short := ks.filter fun k => ((s.core k).room need).isNone
    let fits := short.all fun k =>
      let x := s.core k
      let gone (t : Nat) : Bool := match alook t x.teams with | some tm => (below tm).isSome | none => false
      (({ x with teams := x.teams.filter fun t => (below t.2).isNone, warps := x.warps.filter fun w => !gone w.2.team } : Core).room need).isSome
    let saving := ks.any fun k => (s.core k).teams.any fun t => t.2.saving
    if ¬ s.clusterTakes q.1 q.2 c.l.pri ∨ short = [] ∨ ¬ fits ∨ saving then none
    else
      let vs := short.flatMap fun k => (s.core k).teams.filterMap fun t => (below t.2).map fun l => (k, t.1, l)
      match vs with
      | [] => none
      | v :: rest =>
        let m := rest.foldl (fun m x => if x.2.2.pri < m.2.2.pri ∨ (x.2.2.pri = m.2.2.pri ∧ m.2.2.age < x.2.2.age) then x else m) v
        some (m.1, m.2.1)

/-- What a die's scheduler does. -/
inductive Pick where
  | nothing
  | preempt (core slot : Nat)
  | place (c : Cand) (clusters : List (Nat × Nat))
  deriving DecidableEq, Repr

/-- The pick among launches with quads for the die; clusters of quads that cannot be placed are closed to what follows. Fuel: launches. -/
def State.pickOn (s : State) (die : Nat) : Nat → List Cand → List (Nat × Nat) → Pick
  | 0, _, _ => .nothing
  | f + 1, cs, closed =>
    match (s.die die).choose die cs with
    | none => .nothing
    | some c =>
      let mine := c.spots.filter fun q => decide (clusterDie q.1 q.2 = die)
      let shut := closed ++ s.rerunBlocked c.l.pri
      let whole : Bool := c.l.onePerCore && decide (c.l.nextQuad = 0)
      let free := (c.free.filter fun q => decide (clusterDie q.1 q.2 = die)).filter fun q => ¬ shut.contains q
      let good : Bool := if whole then c.free ≠ [] && c.free.all fun q => ¬ shut.contains q else free ≠ []
      if good then .place c free
      else match s.victim c (mine.filter fun q => ¬ shut.contains q) with
        | some v => .preempt v.1 v.2
        | none => s.pickOn die f (cs.filter fun x => x.uid ≠ c.uid) (closed ++ mine)

/-- The pick of a die. -/
def State.pick (s : State) (die : Nat) : Pick :=
  let cs := s.cands.filter fun c => c.spots.any fun q => decide (clusterDie q.1 q.2 = die)
  s.pickOn die cs.length cs []

/-! ## Teams and threads of a grid (R195, R373) -/

/-- The root tile of a number (R372). -/
def rootTile (b : Nat × Nat × Nat × Nat × Nat) (l : Launch) (r : Nat) : Iv × Iv × Iv :=
  let tx := max 1 b.2.1
  let ty := max 1 b.2.2.1
  let tz := max 1 b.2.2.2.1
  let cx := ceilDiv l.nx tx
  let cy := ceilDiv l.ny ty
  let iv (t n i : Nat) : Iv := { lo := t * i, hi := min (t * (i + 1)) n - 1 }
  (iv tx l.nx (r % cx), iv ty l.ny (r / cx % cy), iv tz l.nz (r / (cx * cy)))

/-- A thread of a grid by its index. -/
def gridLane (img : Image) (l : Launch) (n : Nat) : Lane :=
  match img.bounds with
  | none => { live := true, elem := { lo := n % 2 ^ 64, hi := n % 2 ^ 64 }, elemX := { lo := n % 2 ^ 32, hi := n % 2 ^ 32 } }
  | some b =>
    let total := ceilDiv l.nx (max 1 b.2.1) * ceilDiv l.ny (max 1 b.2.2.1) * ceilDiv l.nz (max 1 b.2.2.2.1)
    if total ≤ n then {}
    else
      let (x, y, z) := rootTile b l n
      { live := true, bounds := true, elemX := x, elemY := y, elemZ := z, elem := { lo := linear l x.lo y.lo z.lo, hi := linear l x.hi y.hi z.hi } }

/-- The warps of a grid team. -/
def gridStarts (img : Image) (l : Launch) (idx : Nat) : List WarpStart :=
  let w := Launch.width img
  (List.range img.teamW).map fun i =>
    { lanes := (List.range w).map fun j => gridLane img l ((idx * img.teamW + i) * w + j), entry := entryOf img l .main, warpId := i, clock := l.clock }

/-- A grid team of segment `si`. -/
def gridTeam (img : Image) (l : Launch) (u si idx : Nat) : Team :=
  let g := l.segs.getD si { teams := 0, param := 0, key := 0 }
  { kind := .grid, uid := some u, teamIdx := idx, teamW := img.teamW, seg := l.seg0 + si, quad := idx / 4, pos := idx % 4, param := g.param, key := g.key
    n := img.regs, vectors := (needOf img l img.teamW true).vectors, scrSize := img.scratch, barriers := List.replicate img.barriers {} }

/-- Admit a grid team on a core; nothing happens without room. -/
def State.admitGrid (s : State) (img : Image) (u k si idx reruns : Nat) : State :=
  match s.launch u with
  | none => s
  | some l => match (s.core k).room (needOf img l img.teamW true) with
    | none => s
    | some (slot, base) =>
      ((s.enterTeam k slot { gridTeam img l u si idx with scrBase := base, reruns := reruns } (gridStarts img l idx))).useDie u (dieOf k)

/-- Admit a quad whole on a cluster, teams in ascending order (R351). -/
def State.admitQuad (s : State) (img : Image) (u : Nat) (c : Nat × Nat) : State :=
  match s.launch u with
  | none => s
  | some l => match l.segs[l.nextSeg]? with
    | none => s
    | some g =>
      let q := l.nextQuad
      let last := decide (g.teams ≤ 4 * q + 4)
      let s := s.modLaunch u fun x => { x with
        quads := x.quads ++ [(x.seg0 + x.nextSeg, q, c.1, c.2)]
        nextSeg := if last then x.nextSeg + 1 else x.nextSeg, nextQuad := if last then 0 else q + 1 }
      (List.range (quadTeams g q)).foldl (fun s p => s.admitGrid img u (clusterCore c.1 c.2 p) l.nextSeg (4 * q + p) 0) s

/-- Hottest TEMP of a cluster. -/
def State.clusterTemp (s : State) (c : Nat × Nat) : Nat := ((List.range 4).map fun p => (s.core (clusterCore c.1 c.2 p)).temp).foldl max 0

/-- The coolest of some clusters, the first among equals (R353). -/
def State.coolest (s : State) : List (Nat × Nat) → Option (Nat × Nat)
  | [] => none
  | c :: cs => some (cs.foldl (fun m x => if s.clusterTemp x < s.clusterTemp m then x else m) c)

/-- Clusters on which a die's scheduler could place the next quad of a launch, if it picks that launch. -/
def State.pickedOn (s : State) (u d : Nat) : List (Nat × Nat) := match s.pick d with | .place x cs => if x.uid = u then cs else [] | _ => []

/-- QUAD_ADMISSION: die. The launch its scheduler picks gets its next quad, on a cluster of a die whose scheduler has picked it; a
one-per-core launch is admitted whole once every die of its rectangle picks it; or one team is pre-empted for the quad. -/
def execQuadAdmission (s : State) : Host.Outcome State Fault Refusal :=
  match s.pick s.ev.die with
  | .nothing => .next s
  | .preempt k slot => .next (s.askDiscard k slot)
  | .place c _ =>
    let picks (d : Nat) : Bool := match s.pick d with | .place x _ => decide (x.uid = c.uid) | _ => false
    let dies := rectDies c.l.ocr c.l.occ c.l.ch c.l.cw
    if c.l.onePerCore && decide (c.l.nextQuad = 0) then
      (if dies.all picks then .next (c.spots.foldl (fun s q => s.admitQuad c.img c.uid q) s) else .next s)
    else
      let open' := dies.flatMap (s.pickedOn c.uid)
      match s.coolest (c.spots.filter fun q => open'.contains q) with
      | some q => .next (s.admitQuad c.img c.uid q)
      | none => .next s

/-- TEAM_RERUN_ADMISSION: `n` launch, `k` team index (R459). A cluster that retires takes no team but beside a partner, and one that is gone none; with all of
its clusters gone the launch cannot be placed (R17; log 87). -/
def execTeamRerunAdmission (s : State) : Host.Outcome State Fault Refusal :=
  match s.launch s.ev.n with
  | none => .next s
  | some l => match s.imageOf l, l.reruns.find? fun r => r.team = s.ev.k with
    | some img, some r =>
      let drop (t : State) : State := t.modLaunch s.ev.n fun x => { x with reruns := x.reruns.erase r }
      let held := s.blockedAbove l.pri
      let core (c : Nat × Nat) : Nat := clusterCore c.1 c.2 r.pos
      let beside : Bool := decide (r.threads = []) && (s.residentOf s.ev.n r.seg r.quad).isSome
      let retires (c : Nat × Nat) : Bool := (s.die (clusterDie c.1 c.2)).retiring.contains (clusterIdx c.1 c.2)
      let takes (c : Nat × Nat) : Bool :=
        (s.core (core c)).takes l.pri s.scanPri && !held.contains c && s.present c.1 c.2 && (beside || !retires c)
      if l.phase ≠ .running then .next s
      else if (s.rerunSpots s.ev.n l r).all fun c => !(s.present c.1 c.2) then .next (s.endLaunch l.root 4)
      else if r.threads ≠ [] then
        (if ¬ takes (coreRow r.core / 2, coreCol r.core / 2) then .next s
        else match s.admitThreads r.core r.threads r.reruns with
          | some s1 => .next (drop (s1.raiseCounter s.ev.n (r.threads.length)))
          | none => .next s)
      else
        let cs := (s.rerunSpots s.ev.n l r).filter fun c => takes c && ((s.core (core c)).room (needOf img l img.teamW true)).isSome
        (match s.coolest cs with
        | none => .next s
        | some c => .next (drop (s.admitGrid img s.ev.n (core c) (r.seg - l.seg0) r.team r.reruns)))
    | _, _ => .next s

end Sys2Proof.Machine
end

