-- ==== Sys2Proof/Machine/Spawn.lean ====
section
/-!
DEFINITION. SPAWN and its placement (R369, R371), MSEND and the arrival of a message (R132 to R137), quarter events and hand-offs
(R379, R381).
-/
namespace Sys2Proof.Machine

/-- The spawn-tree counter can rise by `n` (R358). -/
def State.canRaise (s : State) (u n : Nat) : Bool := match s.launch u with | some l => decide (l.counter + n ≤ 2 ^ 63) | none => true

/-- A launch in deterministic mode. -/
def State.detLaunch (s : State) (u : Nat) : Bool := match (s.launch u).bind s.imageOf with | some i => i.det | none => false

/-- Threads form warps at once, W at a time (R361); none while the queue lacks room or others wait. -/
def State.formNow (s : State) (k u : Nat) (ts : List Spawned) : Option State :=
  let c := s.core k
  let w := s.widthOf u
  let n := ceilDiv ts.length w
  if c.placing ≠ [] ∨ 16 < c.formed.length + n then none
  else
    let now := s.cycleOf k
    some (s.setCore k { c with formed := c.formed ++ (List.range n).map fun i => { threads := (ts.drop (w * i)).take w, since := now } })

/-! ## SPAWN -/

/-- The placement of a SPAWN whose store queue has drained: counter, threads; the gang stays while some wait for a bin. -/
def State.spawnNow (s : State) (e : Env) (ts : List Spawned) (timer len : Nat) (frees : List Nat) : State :=
  let free (s : State) : State := s.modWarp e.k e.slot fun w => w.free frees
  let u := e.team.uid.getD 0
  if ¬ s.canRaise u ts.length then e.stall (.spawn ts timer len frees) s
  else
    let (c, s0) := e.publish s
    let ts := ts.map fun t => { t with clock := c }
    if s.detLaunch u then (match s0.formNow e.k u ts with
      | some s1 => e.done len (free (s1.raiseCounter u ts.length))
      | none => e.stall (.spawn ts timer len frees) s)
    else
      let s1 := (s0.raiseCounter u ts.length).arriveAll e.k ts timer false
      let last := (s1.core e.k).arrivals - 1
      if (s1.core e.k).placing.any fun p => decide (p.num ≤ last) then e.stall (.place last len) (free s1) else e.done len (free s1)

/-- SPAWN. -/
def execSpawn (x : Long) (s : State) : Host.Outcome State Fault Refusal :=
  let x := x.op 0
  issue s x.form.bytes x.g (perActive x.g) 1 (fun _ _ _ => true) fun _ s e =>
    let r := rowAt 0x0E x
    let len := x.form.bytes
    let frees := e.frees x r
    match e.active x.g with
    | [] => .ok (e.done len (s.modWarp e.k e.slot fun w => w.free frees))
    | act => match e.regTrap x r (maskOf act) with
      | some t => .error t
      | none =>
        let src (i : Nat) : Srcs := Env.srcs s e x r (litInt x false 64) i
        let entry (i : Nat) : DWord := BitVec.ofNat 64 (sv1 (src i).c).lo
        let good (i : Nat) : Bool := match e.launch, e.img with | some l, some g => isEntry g l .spawn (entry i) | _, _ => false
        match act.filter fun i => !(good i) with
        | b :: bs => .error { cls := 13, reason := 1, mask := maskOf (b :: bs) }
        | [] =>
          let ts := act.map fun i =>
            let p := (sv1 (src i).a).lo
            ({ uid := e.team.uid.getD 0, entry := entry i, origin := .spawn, regs := [(0, BitVec.ofNat 32 p), (1, BitVec.ofNat 32 (p / 2 ^ 32))] } : Spawned)
          let timer := if x.imm16 = 0 then 256 else x.imm16
          .ok (if e.warp.sq ≠ [] then e.stall (.spawn ts timer len frees) s else s.spawnNow e ts timer len frees)

/-- SPAWN_PLACEMENT: core, warp, gang. The store queue has drained, or threads that wait for a bin may find one. -/
def execSpawnPlacement (s : State) : Host.Outcome State Fault Refusal :=
  let a := s.ev
  match s.envOf a.core a.warp a.gang with
  | none => .next s
  | some e => match e.gang.wait with
    | .spawn ts timer len frees => if e.warp.sq ≠ [] then .next s else .next (s.spawnNow e ts timer len frees)
    | .place _ _ => .next (s.settleBins a.core)
    | _ => .next s

/-! ## MSEND -/

/-- Target of a thread: row, column and whether bits above are set. -/
def msgTarget (x : Op) (t : Nat) : Nat × Nat × Bool :=
  let v := if timm x then x.imm16 % 512 else t
  (v % 16, v / 16 % 32, decide (v / 512 ≠ 0))

/-- Reasons of a thread (R134). DESIGN CHOICE (log 91): on a firmware core, which has no launch rectangle and no kernel, reasons 2 and 3 apply. -/
def msgReasons (s : State) (e : Env) (x : Op) (t h lane : Nat) : List Nat :=
  let (row, col, high) := msgTarget x t
  (if high then [1] else []) ++
  (match e.launch with
    | some l => if row / 2 < l.ocr ∨ l.ocr + l.ch ≤ row / 2 ∨ col / 2 < l.occ ∨ l.occ + l.cw ≤ col / 2 ∨ ¬ s.present (row / 2) (col / 2) then [2] else []
    | none => [2]) ++
  (match e.launch, e.img with | some l, some g => if isEntry g l .handler (BitVec.ofNat 64 h) then [] else [3] | _, _ => [3]) ++
  (if e.det then [4] else []) ++ (if (e.warp.lane lane).bounds then [5] else [])

/-- The sender of a message as its order counts (R136): its team and WARPID, which a restore does not change. -/
def Env.sender (e : Env) : Nat × Nat := (e.team.first, e.warp.warpId)

/-- Queue one message: with a release behind the warp's stores, otherwise straight into the outbound buffer (R185). -/
def State.sendMsg (e : Env) (rel : Nat) (tasks : List Nat) (s : State) (m : Nat × Nat × Spawned) : State :=
  let id := s.nextMsg
  let s := { s with nextMsg := id + 1, flight := s.flight ++ [({ id := id, core := m.2.1, src := e.k, warp := e.slot, thread := m.2.2, sender := e.sender, tasks := tasks } : Msg)] }
  let ent : WEnt := { seq := 0, place := .sys 0, kind := .msg id, lane := m.1, rel := rel, uid := e.team.uid.getD 0, slot := e.warp.team, warp := e.slot }
  if rel ≠ 0 then s.pushSq e.k e.slot ent
  else s.modCore e.k fun (c : Core) => { c with ob := c.ob ++ [{ ent with seq := c.seq, ob := c.seq }], seq := c.seq + 1 }

/-- MSEND. -/
def execMsend (x : Long) (s : State) : Host.Outcome State Fault Refusal :=
  let x := x.op 0
  issue s x.form.bytes x.g (perActive x.g) 1 (fun _ _ _ => false) fun _ s e =>
    let r := rowAt 0xF3 x
    let len := x.form.bytes
    let fin (s : State) : State := e.done len (s.modWarp e.k e.slot fun w => w.free (e.frees x r))
    match e.active x.g with
    | [] => .ok (fin s)
    | act => match e.regTrap x r (maskOf act) with
      | some t => .error t
      | none =>
        let src (i : Nat) : Srcs := Env.srcs s e x r (litInt x false 64) i
        let bad := act.filterMap fun i => ((msgReasons s e x (sv1 (src i).b).lo (sv1 (src i).c).lo i).min?).map fun n => (i, n)
        match bad with
        | b :: bs => .error { cls := 11, mask := maskOf (bad.map (·.1)), reason := bs.foldl (fun m y => min m y.2) b.2 }
        | [] =>
          let u := e.team.uid.getD 0
          let msgs := act.map fun i =>
            let (row, col, _) := msgTarget x (sv1 (src i).b).lo
            let words := (src i).a.map fun v => BitVec.ofNat 32 v.lo
            (i, coreAt row col, ({ uid := u, entry := BitVec.ofNat 64 (sv1 (src i).c).lo, origin := .message
                                   regs := (List.range 16).map fun j => (j, words.getD j 0) } : Spawned))
          if ¬ s.canRaise u msgs.length then .ok (e.stall .retry s)
          else
            let rel := relOf x
            let tasks := if rel = 0 then [] else ((s.core e.k).tasks.filter fun t => t.2.slot = e.warp.team ∧ t.2.warp = e.slot).map (·.1)
            let s1 := msgs.foldl (State.sendMsg e rel tasks) (s.raiseCounter u msgs.length)
            .ok (if msgs.any fun m => s.inboxFull m.2.1 then e.stall (.msend ((List.range msgs.length).map (s.nextMsg + ·)) len (e.frees x r)) s1 else fin s1)

/-- MESSAGE_ARRIVAL: core, `n` message. It has left, no earlier one of its warp to this core is still under way, and the buffer of 32
has room (R135, R136). -/
def execMessageArrival (s : State) : Host.Outcome State Fault Refusal :=
  match s.flight.find? fun m => m.id = s.ev.n with
  | none => .next s
  | some m =>
    if ¬ m.sent ∨ m.core ≠ s.ev.core ∨ (s.flight.any fun o => o.id < m.id ∧ o.sender = m.sender ∧ o.core = m.core) ∨
        s.inboxFull m.core then .next s
    else .next (({ s with flight := s.flight.filter fun o => o.id ≠ m.id } : State).arriveAll m.core [m.thread] 256 true)

/-! ## Quarters and hand-offs (R379, R381) -/

/-- The store queue entries of the ending thread's warp that stood at the event have drained. -/
def State.tileDrained (s : State) (k : Nat) (t : Tile) : Bool :=
  match s.warp? k t.warp with
  | some w => !(w.sq.any fun q => decide (q.seq < t.mark))
  | none => true

/-- A bounds thread for a tile (R374). -/
def boundsThread (img : Image) (l : Launch) (u depth : Nat) (c : Clock) (x y z : Iv) : Spawned :=
  { uid := u, entry := entryOf img l .main, origin := .quarter, bounds := true, elemX := x, elemY := y, elemZ := z
    elem := { lo := linear l x.lo y.lo z.lo, hi := linear l x.hi y.hi z.hi }, depth := depth, clock := c }

/-- An element thread (R381). -/
def elementThread (img : Image) (l : Launch) (t : Tile) (x y z : Nat) : Spawned :=
  let n := linear l x y z
  { uid := t.uid, entry := entryOf img l .element, origin := .element
    elemX := { lo := x, hi := x }, elemY := { lo := y, hi := y }, elemZ := { lo := z, hi := z }, elem := { lo := n, hi := n }, depth := t.depth, clock := t.clock
    regs := [(0, BitVec.ofNat 32 n), (1, BitVec.ofNat 32 (n / 2 ^ 32))] ++ (match t.payload with | some p => [(2, p)] | none => []) }

/-- Place threads of an event, in a deterministic launch as warps at once; none when they must wait. -/
def State.placeEvent (s : State) (k u : Nat) (ts : List Spawned) : Option State :=
  if s.detLaunch u then s.formNow k u ts else some (s.arriveAll k ts 64 false)

/-- QUARTER_EVENT: core, `n` event. Four bounds threads are placed. -/
def execQuarterEvent (s : State) : Host.Outcome State Fault Refusal :=
  let k := s.ev.core
  match alook s.ev.n (s.core k).tiles with
  | none => .next s
  | some t => match s.launch t.uid with
    | none => .next s
    | some l => match s.imageOf l with
      | none => .next s
      | some img =>
        if ¬ t.quarter ∨ ¬ s.tileDrained k t then .next s
        else
          let ts := (List.range 4).map fun i => let q := quarterOf (domainDim l) t.x t.y t.z i; boundsThread img l t.uid (t.depth + 1) t.clock q.1 q.2.1 q.2.2
          match s.placeEvent k t.uid ts with
          | none => .next s
          | some s1 => .next (s1.modCore k fun (c : Core) => { c with tiles := adel s.ev.n c.tiles })

/-- Element threads of a tile from a place on: at most `n`. -/
def tileElems (img : Image) (l : Launch) (t : Tile) (n : Nat) : List Spawned :=
  let lx := ivLen t.x
  let ly := ivLen t.y
  (List.range (min n (tileCount t.x t.y t.z - t.next))).map fun j =>
    let i := t.next + j
    elementThread img l t (t.x.lo + i % lx) (t.y.lo + i / lx % ly) (t.z.lo + i / (lx * ly))

/-- HANDOFF_GROUP_PLACE: core, `n` event. The next group of up to 4,096 elements, once the one before has been placed; in a deterministic
launch as many whole warps of it as the formed queue takes. -/
def execHandoffGroupPlace (s : State) : Host.Outcome State Fault Refusal :=
  let k := s.ev.core
  match alook s.ev.n (s.core k).tiles with
  | none => .next s
  | some t => match s.launch t.uid with
    | none => .next s
    | some l => match s.imageOf l with
      | none => .next s
      | some img =>
        if t.quarter ∨ ¬ s.tileDrained k t ∨ (s.core k).placing.any (fun p => p.num ≤ t.last) then .next s
        else
          let room := (16 - (s.core k).formed.length) * s.widthOf t.uid
          let ts := tileElems img l t (if s.detLaunch t.uid then min room 4096 else 4096)
          match s.placeEvent k t.uid ts with
          | none => .next s
          | some s1 => .next (s1.modCore k fun (c : Core) => { c with
              tiles := if tileCount t.x t.y t.z ≤ t.next + ts.length then adel s.ev.n c.tiles
                else aput s.ev.n { t with next := t.next + ts.length, last := c.arrivals - 1 } c.tiles })

end Sys2Proof.Machine
end

