-- ==== Sys2Proof/Machine/Records.lean ====
section
/-!
DEFINITION. Launch records (R346 to R350), reads made once for a warp (R465), and child launches: TLAUNCH (R362, R364, R370, R371) with
the launch aggregator.
-/
namespace Sys2Proof.Machine

/-! ## The record (R346) -/

/-- A launch record. -/
structure LRec where
  kernel : DWord
  param : DWord
  key : DWord
  teams : Nat
  rect : Nat
  ec : Nat
  pri : Nat
  dpl : Bool
  nx : Nat
  ny : Nat
  nz : Nat
  nout : Nat
  ndep : Nat
  outs : Nat
  deps : Nat
  /-- A reserved field is nonzero. -/
  bad : Bool
  deriving DecidableEq, Repr

/-- The record in 512 bits. -/
def lrecOf (v : Nat) : LRec :=
  { kernel := BitVec.ofNat 64 v, param := BitVec.ofNat 64 (v / 2 ^ 64), key := BitVec.ofNat 64 (v / 2 ^ 128), teams := bitsOf v 223 192
    rect := bitsOf v 237 224, ec := bitsOf v 241 240, pri := bitsOf v 243 242, dpl := v.testBit 244, nx := bitsOf v 287 256
    ny := bitsOf v 319 288, nz := bitsOf v 351 320, nout := bitsOf v 359 352, ndep := bitsOf v 367 360, outs := bitsOf v 447 384
    deps := bitsOf v 511 448, bad := bitsOf v 239 238 ≠ 0 ∨ bitsOf v 255 245 ≠ 0 ∨ bitsOf v 383 368 ≠ 0 }

/-- RECT (R196): origin cluster row and column, height and width. -/
def rectOf (r : Nat) : Nat × Nat × Nat × Nat := (bitsOf r 2 0, bitsOf r 6 3, bitsOf r 9 7 + 1, bitsOf r 13 10 + 1)

/-- An output entry (R347): region and FRAMES; none when it is invalid. -/
def outEntry (e : Nat) : Option (Nat × Nat) :=
  if bitsOf e 63 32 ≠ 0 ∨ bitsOf e 31 16 = 0 then none else some (bitsOf e 15 0, bitsOf e 31 16)

/-- A dependence entry (R348, R349): none when it is invalid; `next` the next index of a queue of the context, none for other SRC. -/
def depEntry (next : Nat → Option Nat) (e : Nat) : Option Dep :=
  let tag := e / 2 ^ 64 % 2 ^ 64
  if bitsOf e 1 0 = 0 then
    if bitsOf e 63 2 ≠ 0 then none
    else match next (tag / 2 ^ 48) with
      | some n => if n ≤ tag % 2 ^ 48 then none else some (.launch (BitVec.ofNat 64 tag))
      | none => some (.launch (BitVec.ofNat 64 tag))
  else if bitsOf e 1 0 = 1 then (if bitsOf e 63 4 ≠ 0 ∨ tag ≠ 0 then none else some (.ws (bitsOf e 3 2)))
  else none

/-- Every entry valid, in order. -/
def allEntries {α : Type} (f : Nat → Option α) : List Nat → Option (List α)
  | [] => some []
  | e :: es => match f e, allEntries f es with
    | some a, some as => some (a :: as)
    | _, _ => none

/-- Next index of a queue that carries a context. -/
def State.nextIndex (s : State) (ctx src : Nat) : Option Nat :=
  match alook src s.queues with
  | some q => if q.started ∧ q.ctx = ctx then some q.head else none
  | none => none

/-- Root tiles of a bounds domain (R372). -/
def rootTiles (b : Nat × Nat × Nat × Nat × Nat) (r : LRec) : Nat :=
  ceilDiv r.nx (max 1 b.2.1) * ceilDiv r.ny (max 1 b.2.2.1) * ceilDiv r.nz (max 1 b.2.2.2.1)

/-- The record's own fields pass R350 for its image: TEAMS, extents, one team's resources, and the root tiles of R372. -/
def recordOk (img : Image) (r : LRec) : Bool :=
  !r.bad && decide (1 ≤ r.teams ∧ r.teams ≤ 16777216 ∧ r.nout ≤ 16 ∧ r.ndep ≤ 16) &&
  (match img.bounds with
    | none => decide (r.nx = 0 ∧ r.ny = 0 ∧ r.nz = 0)
    | some b => decide (r.nx ≠ 0 ∧ r.ny ≠ 0 ∧ r.nz ≠ 0) && decide (rootTiles b r ≤ r.teams * img.teamW * Launch.width img)) &&
  decide (img.teamW * img.regs ≤ 4096 ∧ img.scratch ≤ Config.scratchBytes ∧ img.barriers ≤ 48)

/-- Launches of a context that dependences may still name: those that have not ended. -/
def State.tagged (s : State) (ctx : Nat) (tag : DWord) : Option (Nat × Launch) :=
  s.launches.find? fun p => p.2.ctx = ctx ∧ p.2.tag = tag ∧ p.2.phase ≠ .ended ∧ ¬ p.2.second

/-- Dependences as recorded: a tag that is no longer in flight counts as completed (R348). -/
def State.liveDeps (s : State) (ctx : Nat) (ds : List Dep) : List Dep := ds.filter fun d => match d with
  | .launch t => (s.tagged ctx t).isSome
  | .ws _ => true

/-! ## Reads made once for a warp (R465) -/

/-- What a once-read gives. -/
inductive OnceRead where
  | got (vals : List Nat) (stamp : Nat) (s : State)
  | wait (s : State)
  | trap (t : Trap)
  deriving DecidableEq, Repr

/-- Spans of 32 bytes of a block. -/
def spansOf (va n unit : Nat) : List (Nat × Nat) := (List.range (n / unit)).map fun i => ((va + unit * i) % 2 ^ 64, unit)

/-- Read spans, each within a sector, at a base address of an alignment: the address traps, the wait for pages, or the values. -/
def State.onceRead (s : State) (e : Env) (m : MemWait) (lane stamp base align : Nat) (spans : List (Nat × Nat)) : OnceRead :=
  let p := Env.party s e
  match (glbReasons s p base align false ++ spans.flatMap fun q => glbReasons s p q.1 1 false).min? with
  | some c => .trap { cls := 2, reason := c, mask := 0 }
  | none =>
    let needs := (spans.filter fun q => match translate s p q.1 0 with | .hit _ => false | _ => true).map fun q => (lane, q.1)
    if needs ≠ [] then .wait (e.awaitPages s m needs)
    else match State.preReads e stamp spans s [] 0 with
      | (.got _ st s1, bss) => .got (bss.map leNat) st s1
      | (.race n, _) => .trap { cls := 12, reason := n, mask := maskOf [lane] }
      | _ => .wait (e.stall .retry s)

/-- A number from the values of spans of `unit` bytes. -/
def joinVals (unit : Nat) : List Nat → Nat
  | [] => 0
  | v :: vs => v + 2 ^ (8 * unit) * joinVals unit vs

/-! ## Recording a launch -/

/-- Append a witness to a launch, unless it holds the same or 64 (R310, R323). -/
def Launch.addWitness (l : Launch) (w : Witness) : Launch :=
  if l.witnesses.contains w ∨ 64 ≤ l.witnesses.length then l else { l with witnesses := l.witnesses ++ [w] }

/-- The witnesses a kernel gives a launch or its root: the descriptor's entries with a parameter block, and SHADOW (R310). -/
def kernelWitnesses (img : Image) (param : DWord) : List Witness :=
  (img.wits.map fun w => ({ kind := w.1, offs := w.2, param := param } : Witness)) ++ (if img.prot then [{ kind := 6 }] else [])

/-- Put a launch into the table under the next number. -/
def State.addLaunch (s : State) (l : Launch) : State := { s.setLaunch s.nextUid l with nextUid := s.nextUid + 1 }

/-- Record a child launch: the parent's counter rises, its witnesses go to the root (R310, R358). -/
def State.recordChild (s : State) (parent : Nat) (img : Image) (l : Launch) : State :=
  let s := (s.addLaunch l).raiseCounter parent 1
  (l.segs.flatMap fun g => kernelWitnesses img g.param).foldl (fun s w => s.modLaunch l.root fun r => r.addWitness w) s

/-- Draw budget of a bounds launch (R380). -/
def budgetOf (img : Image) : Nat := match img.bounds with | some b => b.2.2.2.2 | none => 0

/-- Two children may merge (R364). -/
def mayMerge (a b : Launch) : Bool :=
  decide (a.ctx = b.ctx ∧ a.kernel = b.kernel ∧ a.ocr = b.ocr ∧ a.occ = b.occ ∧ a.ch = b.ch ∧ a.cw = b.cw ∧ a.pri = b.pri ∧ a.ec = b.ec ∧
    a.dpl = b.dpl ∧ a.nx = b.nx ∧ a.ny = b.ny ∧ a.nz = b.nz ∧ a.deps = [] ∧ b.deps = [])

/-- A closed group's members enter the scheduler, aged by the first (R364). -/
def State.closeGroup (s : State) (g : AggGroup) : State :=
  let age := match g.members.head?.bind s.launch with | some l => l.age | none => 0
  g.members.foldl (fun s u => s.modLaunch u fun l => { l with grouped := false, age := age }) s

/-- The aggregator of a die takes a child that has just been recorded as `u`. -/
def State.aggregate (s : State) (die u : Nat) : State :=
  match s.launch u with
  | none => s
  | some l =>
    let now := (s.die die).cycle
    match (s.die die).agg.find? fun g => decide (now ≤ g.first + 256) && (match g.members.head?.bind s.launch with | some f => mayMerge f l | none => false) with
    | some g =>
      let g1 := { g with members := g.members ++ [u] }
      let s1 := s.modLaunch u fun x => { x with seg0 := g.members.length, grouped := true }
      if g1.members.length < 256 then s1.modDie die fun d => { d with agg := d.agg.map fun x => if x = g then g1 else x }
      else (s1.modDie die fun d => { d with agg := d.agg.filter (· ≠ g) }).closeGroup g1
    | none =>
      if l.deps ≠ [] then s
      else (s.modLaunch u fun x => { x with grouped := true }).modDie die fun d => { d with agg := d.agg ++ [{ members := [u], first := now }] }

/-- AGGREGATOR_GROUP_CLOSE: die. The oldest open group's 256 cycles pass. -/
def execAggregatorGroupClose (s : State) : Host.Outcome State Fault Refusal :=
  match (s.die s.ev.die).agg with
  | [] => .next s
  | g :: rest => .next ((s.modDie s.ev.die fun d => { d with agg := rest, cycle := max d.cycle (g.first + 256) }).closeGroup g)

/-! ## TLAUNCH (R370) -/

/-- The child of a launch that a record and a subgroup word name; none is reason 2, 3 or 4 (R371). -/
def childOf (s : State) (e : Env) (u : Nat) (l : Launch) (word : Nat) (r : LRec) (deps : List Nat) : Except Nat (Image × Launch) :=
  let ds := allEntries (depEntry (s.nextIndex l.ctx)) deps
  match subgroupOf l word, s.image l.ctx r.kernel, ds with
  | none, _, _ => .error 2
  | _, none, _ => .error 3
  | _, _, none => .error 3
  | some (i, j, h, w), some img, some ds =>
    if ¬ recordOk img r ∨ r.outs ≠ 0 ∨ r.nout ≠ 0 then .error 3
    else if e.det ∧ ¬ img.det then .error 4
    else
      let d := dieOf e.k
      let tag := 0xFFFF * 2 ^ 48 + d * 2 ^ 46 + (s.die d).tlaunchCount % 2 ^ 46
      .ok (img, { ctx := l.ctx, kernel := r.kernel, tag := BitVec.ofNat 64 tag, parent := some u, root := l.root, ocr := i, occ := j, ch := h, cw := w, rot := l.rot
                  segs := [{ teams := r.teams, param := r.param, key := r.key }], pri := r.pri, ec := r.ec, dpl := r.dpl || img.det
                  nx := r.nx, ny := r.ny, nz := r.nz, deps := s.liveDeps l.ctx ds, phase := .waiting, age := s.nextUid, budget := budgetOf img })

/-- TLAUNCH. -/
def execTlaunch (x : X96) (s : State) : Host.Outcome State Fault Refusal :=
  let x := x.op
  issue s 12 x.g (opCost 0x0F x) 1 (fun _ _ _ => true) fun evs s e =>
    let r := rowAt 0x0F x
    let act := e.active x.g
    let lane := act.headD 0
    let m : MemWait := { accs := [], len := 12, frees := e.frees x r, once := true, lanes := 0 }
    if act = [] ∧ (¬ unguarded x.g ∨ evs ≠ []) then .ok (s.finishMem e m)
    else match e.regTrap x r (maskOf act) with
      | some t => .error t
      | none =>
        let src := Env.srcs s e x r (litInt x false 32) lane
        let a := pointOf s (sv1 src.a)
        let word := pointOf s (sv1 src.b)
        let mark := e.relMark s
        if ¬ fenceDone (s.core e.k) e.slot 4 mark then .ok (e.relWait mark s)
        else match s.onceRead e m lane (sv1 src.a).stamp a 64 (spansOf a 64 32) with
          | .trap t => .error t
          | .wait s1 => .ok s1
          | .got vs _ s1 =>
            let lr := lrecOf (joinVals 32 vs)
            let fail (n : Nat) : Trap := { cls := 13, reason := n, mask := maskOf act }
            match e.team.uid, e.launch with
            | some u, some l =>
              if (subgroupOf l word).isNone then .error (fail 2)
              else if 16 < lr.ndep ∨ (lr.ndep ≠ 0 ∧ lr.deps % 16 ≠ 0) then .error (fail 3)
              else
                let list : OnceRead := if lr.ndep = 0 then .got [] 0 s1 else s1.onceRead e m lane 0 lr.deps 16 (spansOf lr.deps (16 * lr.ndep) 16)
                (match list with
                | .trap t => .error t
                | .wait s2 => .ok s2
                | .got ds _ s2 => match childOf s2 e u l word lr ds with
                  | .error n => .error (fail n)
                  | .ok (img, c) =>
                    if ¬ s2.canRaise u 1 then .ok (e.stall .retry s2)
                    else
                      let (ck, s3) := e.publish s2
                      let id := s3.nextUid
                      let s4 := s3.recordChild u img { c with clock := ck }
                      let s5 := s4.modDie (dieOf e.k) fun d => { d with tlaunchCount := d.tlaunchCount + 1 }
                      let s6 := if e.det then s5 else s5.aggregate (dieOf e.k) id
                      let s7 := s6.modWarp e.k e.slot fun w => w.writeUnis e.handling x.d 64 [svConst c.tag.toNat]
                      .ok ((s7.drawn 2).finishMem e m))
            | _, _ => .error (fail 2)

end Sys2Proof.Machine
end

