-- ==== Sys2Proof/Machine/Queues.lean ====
section
/-!
DEFINITION. The front end's queues (R426 to R429): doorbells, control blocks, and the fetch of launch records (R346 to R350, R122).
-/
namespace Sys2Proof.Machine

/-! ## What CK reads and writes in virtual memory -/

/-- CK as a reader of a context's memory: no launch's bindings, through the context table that die 0 holds (log 30). -/
def ckParty (ctx : Nat) : Party := { die := 0, ctx := ctx, fw := false, uid := none }

/-- The place of an address for CK; none where it does not translate. -/
def State.ckPlace (s : State) (p : Party) (va kind : Nat) : Option Place :=
  if ¬ canonical va ∨ (sysAddr va ∧ 17 ≤ sysPort va) then none
  else match translateNow s p va kind with
    | .ok h => some h.place
    | .error _ => none

/-- The number in `n` units of `unit` bytes, each within a page. -/
def State.ckRead (s : State) (p : Party) (va unit : Nat) : Nat → Option Nat
  | 0 => some 0
  | n + 1 => match s.ckPlace p (va % 2 ^ 64) 0, s.ckRead p (va + unit) unit n with
    | some pl, some rest => some (leNat (s.homeBytes 0 pl unit) + 2 ^ (8 * unit) * rest)
    | _, _ => none

/-- A ring slot's number: in host memory, or in device memory of the queue's context (R428). -/
def State.ringRead (s : State) (q : Queue) (addr bytes : Nat) : Option Nat :=
  if q.loc then s.ckRead (ckParty q.ctx) addr 32 (bytes / 32) else some (memNat s.sysMem (addr % 2 ^ 47) bytes)

/-- Bytes written into a ring slot; a slot that does not translate takes nothing (log 30). -/
def State.ringWrite (s : State) (q : Queue) (addr : Nat) (bs : List Byte) : State :=
  if q.loc then (match s.ckPlace (ckParty q.ctx) addr 1 with
    | some pl => s.homeWrite pl bs
    | none => s)
  else { s with sysMem := memWrite s.sysMem (addr % 2 ^ 47) bs }

/-! ## Doorbells (R426, R427, R430) -/

def State.queue? (s : State) (q : Nat) : Option Queue := alook q s.queues
def State.setQueue (s : State) (q : Nat) (x : Queue) : State := { s with queues := aput q x s.queues }

/-- SQ_DOORBELL_WRITE: `n` queue, `v`. -/
def execSqDoorbellWrite (s : State) : Host.Outcome State Fault Refusal :=
  let v := s.ev.v.toNat % 2 ^ 48
  match s.queue? s.ev.n with
  | none => .next s
  | some q => if q.started ∧ q.tail < v ∧ v ≤ q.head + 2 ^ q.srlog then .next (s.setQueue s.ev.n { q with tail := v }) else .next s

/-- CQ_DOORBELL_WRITE: `n` queue, `v`. -/
def execCqDoorbellWrite (s : State) : Host.Outcome State Fault Refusal :=
  let v := s.ev.v.toNat % 2 ^ 48
  match s.queue? s.ev.n with
  | none => .next s
  | some q => if q.started ∧ q.cqHead < v then .next (s.setQueue s.ev.n { q with cqHead := v }) else .next s

/-! ## Control blocks (R428, R429) -/

/-- The block's content: GEN with the queue; none outside its limits. -/
def qcbOf (v : Nat) : Option (Nat × Queue) :=
  let cr := bitsOf v 143 136
  let sr := bitsOf v 135 128
  if bitsOf v 479 160 ≠ 0 ∨ cr < 6 ∨ 16 < cr ∨ sr < 6 ∨ 16 < sr ∨ bitsOf v 127 64 % 32 ≠ 0 ∨ bitsOf v 63 0 % 64 ≠ 0 then none
  else some (bitsOf v 511 480, { en := v.testBit 159, loc := v.testBit 158, pmax := bitsOf v 157 156, ctx := bitsOf v 155 144
                                 crlog := cr, srlog := sr, crbase := bitsOf v 127 64, srbase := bitsOf v 63 0 })

/-- The writing die holds the lease (R436). -/
def State.leads (s : State) (die : Nat) : Bool := s.leaseHeld && decide (s.leaseHolder = die)

/-- A commit of a queue's block. -/
def State.qcommit (s : State) (die v : Nat) : State :=
  if ¬ s.leads die then s.violation die
  else
    let n := v % 4096
    let old := (s.queue? n).getD {}
    match qcbOf (memNat s.hbm (s.qcbBase * 4096 + 64 * n) 64) with
    | none => s
    | some (g, q) =>
      let d := (g + 2 ^ 32 - old.gen) % 2 ^ 32
      if d = 0 ∨ 2 ^ 31 ≤ d then s
      else
        -- the context is set up again: the slices take its packets (R130; log 23)
        let s : State := { s with dies := s.dies.map fun d => { d with dropCtx := if q.en then d.dropCtx.filter (· ≠ q.ctx) else d.dropCtx } }
        s.setQueue n { q with
        gen := g, started := old.started || q.en, head := old.head, tail := old.tail, cqHead := old.cqHead, count := old.count }

/-- QCOMMIT_WRITE: die, `v`. -/
def execQcommitWrite (s : State) : Host.Outcome State Fault Refusal := .next (s.qcommit s.ev.die s.ev.v.toNat)

/-! ## Fetching a record -/

/-- A launch that ends before it runs. -/
def deadLaunch (q : Nat) (x : Queue) (u status : Nat) : Launch :=
  { ctx := x.ctx, kernel := 0, tag := BitVec.ofNat 64 (q * 2 ^ 48 + x.head % 2 ^ 48), queue := some q, root := u, ocr := 0, occ := 0, ch := 1, cw := 1
    segs := [], pri := 0, ec := 0, dpl := false, phase := .settled, age := u, status := some status }

/-- The lists of a record: output regions with frames, and dependences; none when one cannot be read or an entry is invalid. -/
def State.recordLists (s : State) (ctx : Nat) (r : LRec) : Option (List (Nat × Nat) × List Dep) :=
  if 16 < r.nout ∨ 16 < r.ndep ∨ (r.nout ≠ 0 ∧ r.outs % 8 ≠ 0) ∨ (r.ndep ≠ 0 ∧ r.deps % 16 ≠ 0) then none
  else match s.ckRead (ckParty ctx) r.outs 8 r.nout, s.ckRead (ckParty ctx) r.deps 16 r.ndep with
    | some ov, some dv =>
      let os := (List.range r.nout).map fun i => ov / 2 ^ (64 * i) % 2 ^ 64
      let ds := (List.range r.ndep).map fun i => dv / 2 ^ (128 * i) % 2 ^ 128
      (match allEntries outEntry os, allEntries (depEntry (s.nextIndex ctx)) ds with
      | some a, some b => some (a, b)
      | _, _ => none)
    | _, _ => none

/-- The launch of a record, or the status with which it fails at submission (R350, R122). -/
def State.launchOf (s : State) (q : Nat) (x : Queue) (v : Nat) : Except Nat Launch :=
  let r := lrecOf v
  let (i, j, h, w) := rectOf r.rect
  match s.image x.ctx r.kernel, s.recordLists x.ctx r with
  | some img, some (os, ds) =>
    if ¬ recordOk img r ∨ 8 < i + h ∨ 16 < j + w then .error 6
    else if os ≠ [] ∧ (s.stgSize = 0 ∨ s.stgSize < (os.map (·.2)).sum) then .error 5
    else
      let u := s.nextUid
      .ok { ctx := x.ctx, kernel := r.kernel, tag := BitVec.ofNat 64 (q * 2 ^ 48 + x.head % 2 ^ 48), queue := some q, root := u
            ocr := i, occ := j, ch := h, cw := w, segs := [{ teams := r.teams, param := r.param, key := r.key }], pri := min r.pri x.pmax, ec := r.ec
            dpl := r.dpl || img.det, nx := r.nx, ny := r.ny, nz := r.nz, deps := s.liveDeps x.ctx ds, outs := os, phase := .waiting, age := u
            witnesses := kernelWitnesses img r.param, budget := budgetOf img }
  | _, _ => .error 6

/-- LAUNCH_RECORD_FETCH: `n` queue. -/
def execLaunchRecordFetch (s : State) : Host.Outcome State Fault Refusal :=
  match s.queue? s.ev.n with
  | none => .next s
  | some q =>
    if ¬ s.powered ∨ s.recovery ∨ ¬ q.en ∨ ¬ q.started ∨ q.tail ≤ q.head then .next s
    else
      let l := match s.ringRead q (q.srbase + 64 * (q.head % 2 ^ q.srlog)) 64 with
        | none => deadLaunch s.ev.n q s.nextUid 6
        | some v => match s.launchOf s.ev.n q v with
          | .ok l => l
          | .error c => deadLaunch s.ev.n q s.nextUid c
      .next ((s.addLaunch l).setQueue s.ev.n { q with head := q.head + 1 })

end Sys2Proof.Machine
end

