-- ==== Sys2Proof/Machine/LaunchFlow.lean ====
section
/-!
DEFINITION. A launch from its dispatch to its completion record: dependences (R348), staging frames (R122, R123), bindings (R118), the
relocated copy of its kernel (R45), completion (R358), the end of its flush (R185, R232), the release gate (R188) and the record (R430).
-/
namespace Sys2Proof.Machine

/-! ## Dependences -/

/-- How a dependence stands. -/
inductive DepState where
  | met | waits | failed
  deriving DecidableEq, Repr

/-- A dependence of a launch of a context (R348, R115). -/
def State.depState (s : State) (ctx : Nat) (d : Dep) : DepState :=
  match d with
  | .ws die => if (s.die die).wsWindow ∨ s.wsPending die ∨ ¬ (s.die die).wsUsable then .waits else .met
  | .launch tag =>
    match s.launches.find? fun p => p.2.ctx = ctx ∧ p.2.tag = tag ∧ ¬ p.2.second with
    | none => .met
    | some (_, l) => match l.phase with
      | .checking => .met
      | .settled | .ended => if l.status.getD 0 ≤ 1 then .met else .failed
      | _ => .waits

/-- The launch after whose re-run it is dispatched again has been dispatched, or will not be (R121). -/
def State.afterMet (s : State) (l : Launch) : Bool :=
  match l.after with
  | none => true
  | some (p, run) => match s.launch p with
    | none => true
    | some x => match x.phase with
      | .waiting => false
      | .settled | .ended => true
      | _ => decide (run ≤ x.run)

/-- A re-run waits until every version it takes over is ATTESTED (R318); the second run of a DUAL pair does not (R317). -/
def State.prevMet (s : State) (l : Launch) : Bool :=
  l.second || (l.prevBinds.getD []).all fun b => match b.2 with
    | none => true
    | some n => match s.version l.ctx b.1 n with
      | some v => decide (v.state = .attested ∨ v.state = .retired)
      | none => true

/-- Nothing but frames keeps a launch from its dispatch. -/
def State.dispatchable (s : State) (l : Launch) : Bool :=
  decide (l.phase = .waiting ∧ l.failed = none) && !l.grouped && s.afterMet l && s.prevMet l && l.deps.all fun d => s.depState l.ctx d = .met

/-- Frames of a launch's outputs. -/
def Launch.frames (l : Launch) : Nat := (l.outs.map (·.2)).sum

/-- Versions of a region that are not RETIRED are fewer than 32,767 (R117). -/
def State.regionOpen (s : State) (ctx region : Nat) : Bool :=
  decide ((s.versions.filter fun v => v.ctx = ctx ∧ v.region = region ∧ v.state ≠ .retired).length < 32767)

/-- The pool supplies the launch: it has the frames, and no launch before it in the ordinary order waits for frames (R123). -/
def State.framesMet (s : State) (u : Nat) (l : Launch) : Bool :=
  decide (l.outs = []) || (decide (l.frames ≤ s.freeFrames) && (l.outs.all fun o => s.regionOpen l.ctx o.1) &&
    !(s.launches.any fun p => decide (p.1 ≠ u ∧ p.2.outs ≠ []) && s.dispatchable p.2 &&
      decide (l.pri < p.2.pri ∨ (l.pri = p.2.pri ∧ (p.2.age < l.age ∨ (p.2.age = l.age ∧ p.1 < u))))))

/-- Launches that wait for frames (R122). -/
def State.stgWait (s : State) : Nat := (s.launches.filter fun p => decide (p.2.outs ≠ []) && s.dispatchable p.2 && !s.framesMet p.1 p.2).length

/-! ## Ending without running -/

/-- A launch completes with a status before it is dispatched; a child that never runs has completed for its parent (R348). A placement
status of a child stands in its root's record (R358). -/
def State.failLaunch (s : State) (u status : Nat) : State :=
  match s.launch u with
  | none => s
  | some l => match l.parent with
    | some p => if status = 4 then s.endLaunch l.root 4 else (s.modLaunch u fun x => { x with phase := .ended }).lowerCounter p 1
    | none => if l.second then s.modLaunch u fun x => { x with phase := .settled, broken := true }
      else s.modLaunch u fun x => { x with phase := .settled, status := some status }

/-! ## Relocation (R45) -/

/-- Origin component of a kind, and its limit. -/
def originPart (l : Launch) (kind : Nat) : Nat × Nat :=
  match kind with
  | 0 => (2 * l.ocr, 15)
  | 1 => (2 * l.occ, 31)
  | 2 => (l.ocr, 7)
  | _ => (l.occ, 15)

/-- Replace `width` bits from `low` in a word. -/
def putBits (v low width x : Nat) : Nat := v % 2 ^ low + x % 2 ^ width * 2 ^ low + v / 2 ^ (low + width) * 2 ^ (low + width)

/-- The relocated copy for the launch's origin; none when a value leaves the mesh. A copy in use is shared. -/
def State.placeCopy (s : State) (u : Nat) (img : Image) (l : Launch) : Option State :=
  let off := img.stride * originNo l
  if img.relocs.any fun r => (let o := originPart l r.2.2.2.1; decide (o.1 + r.2.2.2.2 < 0 ∨ (o.2 : Int) < o.1 + r.2.2.2.2)) then none
  else if (s.launches.any fun p => decide (p.1 ≠ u ∧ p.2.ctx = l.ctx ∧ p.2.kernel = l.kernel ∧ originNo p.2 = originNo l) &&
      decide (p.2.phase = .running ∨ p.2.phase = .flushing ∨ p.2.phase = .checking)) then some s
  else
    let m0 := if off = 0 then s.hbm else memWrite s.hbm (img.pa + off) (memRead s.hbm img.pa img.bytes)
    let at' (a : DWord) : Nat := img.pa + (a - img.addr).toNat
    let m1 := img.relocs.foldl (fun m (r : DWord × Nat × Nat × Nat × Int) =>
      memWrite m (at' r.1 + off) (natLe 4 (putBits (memNat m (at' r.1 + off) 4) r.2.1 r.2.2.1 (((originPart l r.2.2.2.1).1 : Int) + r.2.2.2.2).toNat))) m0
    let m2 := if off = 0 then m1 else img.refs.foldl (fun m r => memWrite m (at' r + off) (natLe 8 (memNat m (at' r) 8 + off))) m1
    some { s with hbm := m2 }

/-! ## Bindings and versions (R117 to R119) -/

/-- Next version number of a region: numbers follow in dispatch order, from 1 (log 31). -/
def State.nextVersion (s : State) (ctx region : Nat) : Nat :=
  match (s.versions.filter fun v => v.ctx = ctx ∧ v.region = region ∧ v.num < 65536).getLast? with
  | some v => (v.num + 1) % 65536
  | none => 1

/-- Open a version: its frames are taken and zero. -/
def State.openVersion (s : State) (u : Nat) (l : Launch) (o : Nat × Nat) : State × (Nat × Nat) :=
  let num := if l.second then 65536 + u else s.nextVersion l.ctx o.1
  let fs := pickFrames s.heldFrames s.stgSize 0 o.2
  let inside (a : Nat) : Bool := fs.any fun f => decide ((s.stgBase + f) * 65536 ≤ a ∧ a < (s.stgBase + f + 1) * 65536)
  let v : Version := { ctx := l.ctx, region := o.1, num := num, state := .opened, frames := fs, count := o.2, producer := u }
  ({ s with
      versions := (s.versions.filter fun x => ¬ (x.ctx = l.ctx ∧ x.region = o.1 ∧ x.num = num)) ++ [v]
      hbm := s.hbm.filter fun p => ¬ inside p.1 }, (o.1, num))

/-- Bindings of the regions that are not outputs: fresh, or those taken over (R118, R318). -/
def State.inputBinds (s : State) (l : Launch) : List (Nat × Option Nat) :=
  let ours (r : Nat) : Bool := l.outs.any fun o => o.1 = r
  match l.prevBinds with
  | some bs => bs.filter fun b => ¬ ours b.1
  | none =>
    let rs := ((s.versions.filter fun v => v.ctx = l.ctx).map (·.region)).eraseDups.filter fun r => ¬ ours r
    rs.map fun r => (r, (s.newest l.ctx r fun x => decide (x = .pending ∨ x = .attested)).map (·.num))

/-! ## Clocks across launches (R189, edge 7) -/

/-- The last epochs of the agents of some launches that the tracker holds. -/
def State.accessClock (s : State) (us : List Nat) : Clock :=
  s.tracks.foldl (fun c p => p.2.foldl (fun c t => if us.contains t.uid then Clock.join c [(t.agent, t.epoch)] else c) c) []

/-- What the launches that a launch depends on have accessed. -/
def State.depClock (s : State) (l : Launch) : Clock :=
  l.deps.foldl (fun c d => match d with
    | .ws _ => c
    | .launch tag => Clock.join c (s.accessClock (s.subtree 64 ((s.launches.filter fun p => p.2.ctx = l.ctx ∧ p.2.tag = tag).map (·.1))))) []

/-! ## Dispatch -/

/-- Mirrored (R207, R425). -/
def State.mirrors (s : State) (img : Image) (l : Launch) : Bool :=
  decide (ceilDiv l.teamCount (4 * (l.ch * l.cw)) * img.teamW * img.regs ≤ 2048) && !img.prot && !(s.die (clusterDie l.ocr l.occ)).mirOff

/-- The launch takes its frames and bindings and runs; no core has fetched its words ahead (R463). -/
def State.start (s : State) (u : Nat) (img : Image) (l : Launch) : State :=
  let ins := if l.parent.isNone then s.inputBinds l else []
  let (s, outs) := l.outs.foldl (fun (q : State × List (Nat × Nat)) o => let r := q.1.openVersion u l o; (r.1, q.2 ++ [r.2])) (s, [])
  let clock := Clock.join l.clock (s.depClock l)
  let s : State := { s with cores := s.cores.map fun c => (c.1, { c.2 with ahead := c.2.ahead.filter fun a => a.1.1 ≠ some u }) }
  s.setLaunch u { l with
    phase := .running, binds := ins ++ outs.map fun o => (o.1, some o.2), outVers := outs, mirrored := s.mirrors img l, budget := budgetOf img
    witnesses := if l.parent.isSome ∨ l.second then [] else kernelWitnesses img (match l.segs with | g :: _ => g.param | [] => 0)
    wsGens := (List.range 4).map fun d => (d, (s.die d).wsGen), clock := clock, after := none, nextSeg := 0, nextQuad := 0 }

/-- Dispatch a launch that waits, when nothing keeps it. -/
def State.dispatch (s : State) (u : Nat) : State :=
  match s.launch u with
  | none => s
  | some l =>
    if l.phase ≠ .waiting ∨ l.failed ≠ none ∨ l.grouped then s
    else if l.deps.any fun d => s.depState l.ctx d = .failed then s.failLaunch u 3
    else if ¬ s.dispatchable l ∨ ¬ s.framesMet u l then s
    else match s.imageOf l with
      | none => s.failLaunch u 6
      | some img =>
        match s.replace l.ocr l.occ l.ch l.cw with
        | none => s.failLaunch u 4
        | some (i, j) =>
          let l1 := if i = l.ocr ∧ j = l.occ then l else { l with ocr := i, occ := j, fixed := [], rot := 0 }
          match s.placeCopy u img l1 with
          | none => s.failLaunch u 4
          | some s1 => s1.start u img l1

/-! ## Completion -/

/-- LAUNCH_COMPLETION: `n` launch. Its counter is zero, no quad and no re-run is left (R358, R459). A child has then completed. -/
def execLaunchCompletion (s : State) : Host.Outcome State Fault Refusal :=
  let u := s.ev.n
  match s.launch u with
  | none => .next s
  | some l =>
    if l.phase ≠ .running ∨ l.counter ≠ 0 ∨ l.nextSeg < l.segs.length ∨ l.reruns ≠ [] then .next s
    else match l.parent with
      | some p => .next ((s.modLaunch u fun x => { x with phase := .ended }).lowerCounter p 1)
      | none => .next (s.modLaunch u fun x => { x with phase := .flushing })

/-- The end flush of a tree is complete: no entry of its launches is left in an outbound buffer or a queue (R185). -/
def State.flushed (s : State) (u : Nat) : Bool :=
  let us := s.tree u
  s.cores.all fun c => !(c.2.ob.any fun q => us.contains q.uid) && !(c.2.tasks.any fun t => match t.2.uid with | some v => us.contains v | none => false)

/-- The exact value of a partial sum, rounded to its type (R232). -/
def Partial.value (p : Partial) : Nat :=
  let f := fmtOf p.type
  if p.nan || (p.pinf && p.ninf) then f.qnan
  else if p.pinf then infCode f
  else if p.ninf then withSign f true (infCode f)
  else (roundTo f 0 false 0 (Dy.ex { i := p.i, e := p.e } false)).bits

/-- The partial sums of a launch are combined at their homes, each key along the tree of R167, teams ascending (R232). -/
def State.combineSums (s : State) (u : Nat) : State :=
  match s.launch u with
  | none => s
  | some l =>
    let sums := l.sums.filter fun p => p.2.used
    let keys := (sums.map fun p => (p.2.va, p.2.addr, p.2.type)).eraseDups
    let s1 := keys.foldl (fun s k =>
      let mine := sums.filter fun p => p.2.va = k.1 ∧ p.2.addr = k.2.1 ∧ p.2.type = k.2.2
      let ts := (mine.map (·.1)).eraseDups.mergeSort
      let xs := ts.flatMap fun t => (mine.filter fun p => p.1 = t).map fun p => p.2.value
      let n := tyBytes k.2.2
      let x0 := memNat s.hbm k.2.1 n
      s.homeWrite (.mem k.2.1) (natLe n (reduceValue 0 k.2.2 0 false (x0 :: xs)))) s
    s1.modLaunch u fun x => { x with sums := [] }

/-! ## The gate and the record (R188, R430) -/

/-- A peer refuses a write to it, when the step's `v` is not 0 (R432). -/
def State.peerRefuses (s : State) (w : SysWrite) : Bool := decide (s.ev.v ≠ 0 ∧ 2 ^ 47 ≤ w.addr)

/-- A refused write is not performed, and is logged under class 23 at this end (R432). -/
def State.refusedWrite (s : State) (ctx : Option Nat) (tag : DWord) : State := s.logError (sevReset.getD 23 2) 23 true none none ctx none tag

/-- The first write of a die's firmware at the gate: it waits for the versions it may hold, passes once all are attested, and is dropped when one
is squashed (R1; log 22). -/
def State.fwDeliver (s : State) (die : Nat) : State :=
  match s.fwGate.find? fun q => q.1 = die with
  | none => s
  | some q =>
    let is (p : VState → Bool) : Bool := q.2.2.any fun v => match s.version v.1 v.2.1 v.2.2 with | some x => p x.state | none => p .discarded
    let gone : State := { s with fwGate := s.fwGate.erase q }
    if is fun x => decide (x = .failed ∨ x = .discarded) then gone
    else if is fun x => decide (x = .opened ∨ x = .pending) then s
    else if s.peerRefuses q.2.1 then gone.refusedWrite none 0
    else gone.homeWrite (.sys q.2.1.addr) q.2.1.data

/-- RELEASE_GATE_DELIVERY: `n` launch; with `k` 1 die; `v` not 0: the peer refuses. The first write of its gate is delivered, once it is attested. -/
def execReleaseGateDelivery (s : State) : Host.Outcome State Fault Refusal :=
  if s.ev.k = 1 then .next (s.fwDeliver s.ev.die)
  else match s.launch s.ev.n with
  | none => .next s
  | some l => match l.gate with
    | [] => .next s
    | w :: rest =>
      if l.phase ≠ .settled ∨ l.second ∨ 1 < l.status.getD 7 then .next s
      else if s.peerRefuses w then
        .next ((s.refusedWrite (some l.ctx) l.tag).modLaunch s.ev.n fun x => { x with
          gate := rest
          peerRefused := true })
      else .next ((s.homeWrite (.sys w.addr) w.data).modLaunch s.ev.n fun x => { x with gate := rest })

/-- A completion record. -/
def completionBytes (l : Launch) (status : Nat) (ph : Bool) : List Byte :=
  natLe 32 (l.tag.toNat * 2 ^ 64 + l.dies % 16 * 2 ^ 12 + l.run % 4 * 2 ^ 10 + status % 8 * 2 ^ 4 + (if ph then 1 else 0))

/-- The status a record carries: 7 after a peer's refusal (R322, R432). -/
def Launch.finalStatus (l : Launch) (status : Nat) : Nat := if l.peerRefused then 7 else status

/-- What an attestation report reads of a launch (R437). -/
def State.resultOf (s : State) (l : Launch) (status : Nat) : Result :=
  { tag := l.tag, status := status, runs := l.run, dies := l.dies, prefixes := l.prefixes
    outs := l.outVers.map fun o => (o.1, o.2, match s.version l.ctx o.1 o.2 with | some v => v.digest | none => 0) }

/-- The launch has ended: its children are gone, and the tracker forgets the tree (log 32). -/
def State.bury (s : State) (u : Nat) : State :=
  let us := s.tree u
  let s : State := { s with
    launches := s.launches.filter fun p => p.2.root ≠ u ∨ p.1 = u
    tracks := dropTracks s.tracks fun t => us.contains t.uid }
  (s.modLaunch u fun x => { x with phase := .ended, binds := [] }).returnFrames

/-- COMPLETION_RECORD_WRITE: `n` launch. -/
def execCompletionRecordWrite (s : State) : Host.Outcome State Fault Refusal :=
  match s.launch s.ev.n with
  | none => .next s
  | some l => match l.queue, l.status with
    | some n, some st =>
      let status := l.finalStatus st
      let q := (s.queue? n).getD {}
      if l.phase ≠ .settled ∨ l.gate ≠ [] ∨ q.cqHead + 2 ^ q.crlog ≤ q.count then .next s
      else
        let bs := completionBytes l status (decide (q.count / 2 ^ q.crlog % 2 = 0))
        let s1 := s.ringWrite q (q.crbase + 32 * (q.count % 2 ^ q.crlog)) bs
        let s2 : State := { s1 with msix := s1.msix ++ [n % 2048], results := s1.results ++ [s1.resultOf l status] }
        .next ((s2.setQueue n { q with count := q.count + 1 }).bury s.ev.n)
    | _, _ => .next s

end Sys2Proof.Machine
end

