-- ==== Sys2Proof/Machine/Witness.lean ====
section
/-!
DEFINITION. What the checker computes: operand descriptors (R312, R313, R455), the projection test (R314 to R316), the other tests (R317),
and digests.
-/
namespace Sys2Proof

/-! ## Dyadic arithmetic -/

def Dy.zero : Dy := { i := 0, e := 0 }
def Dy.one : Dy := { i := 1, e := 0 }
def Dy.sum (xs : List Dy) : Dy := xs.foldl Dy.add .zero
def Dy.neg (a : Dy) : Dy := { a with i := -a.i }
def Dy.sub (a b : Dy) : Dy := a.add b.neg
def Dy.abs (a : Dy) : Dy := { a with i := a.i.natAbs }
def Dy.le (a b : Dy) : Bool := !b.lt a
def Dy.max (a b : Dy) : Dy := if a.lt b then b else a
def Dy.ofInt (i : Int) : Dy := { i := i, e := 0 }

/-- The dyadic of a finite value; none of a NaN or an infinity. -/
def Fx.dy (x : Fx) : Option Dy := match x with | .fin n m e => some (dyOf n m e) | _ => none

end Sys2Proof
namespace Sys2Proof.Machine

/-! ## Operand descriptors (R312) -/

/-- An operand descriptor. -/
structure Opd where
  base : Nat
  rows : Nat
  cols : Nat
  pitch : Nat
  tr : Bool
  type : Nat
  wdie : Nat
  ws : Bool
  aux : Nat
  /-- A reserved field is nonzero. -/
  bad : Bool
  deriving DecidableEq, Repr

/-- The descriptor in 256 bits. -/
def opdOf (v : Nat) : Opd :=
  { base := bitsOf v 63 0, rows := bitsOf v 95 64, cols := bitsOf v 127 96, pitch := bitsOf v 159 128, tr := v.testBit 160, type := bitsOf v 167 164
    wdie := bitsOf v 169 168, ws := v.testBit 170, aux := bitsOf v 255 192
    bad := bitsOf v 191 171 ≠ 0 || bitsOf v 163 161 ≠ 0 || (!v.testBit 170 && decide (bitsOf v 169 168 ≠ 0)) }

/-- Physical address, region and byte offset of an address on a staged page that the party's launch is bound to (R313, R119). -/
def stagedPa (s : State) (p : Party) (va : Nat) : Option (Nat × Nat × Nat) :=
  if ¬ canonical va ∨ sysAddr va then none
  else
    let leaf : Except Nat TlbEnt := match tlbFind (s.die p.die) p.ctx va with | some t => .ok t | none => walk s p.die p.ctx va
    match leaf with
    | .error _ => none
    | .ok t =>
      if ¬ t.stg then none
      else match resolve s p t va 0 with
        | .ok { place := .mem pa, .. } => some (pa, t.frame, t.fidx * 65536 + (va % 2 ^ 57 - t.base))
        | _ => none

/-- `n` bytes that a witness may read at an address, or at an offset of a weight store. -/
def witBytes (s : State) (p : Party) (o : Opd) (at' n : Nat) : Option (List Byte) :=
  if o.ws then (if at' + n ≤ Config.weightBytes then some ((List.range n).map fun i => (alook (at' + i) (s.die o.wdie).ws).getD 0) else none)
  else allSome ((List.range n).map fun i => (stagedPa s p ((at' + i) % 2 ^ 64)).map fun q => memByte s.hbm q.1)

/-- Address of element (r, c), or of its block. -/
def Opd.at' (o : Opd) (r c : Nat) : Nat :=
  if o.type = 11 then o.base + r * o.pitch + c / 8 * 5
  else if o.tr then o.base + c * o.pitch + r * tyBytes o.type else o.base + r * o.pitch + c * tyBytes o.type

/-- The pattern of an element. -/
def Opd.pat (s : State) (p : Party) (o : Opd) (r c : Nat) : Option Nat := (witBytes s p o (o.at' r c) (tyBytes o.type)).map leNat

/-- The value of an element (R91 for blocks); the outer none where it may not be read. -/
def Opd.val (s : State) (p : Party) (o : Opd) (r c : Nat) : Option Fx :=
  if o.type = 11 then
    match witBytes s p o (o.at' r c) 5, witBytes s p { o with ws := false } (o.aux + 2 * (r / 64)) 2 with
    | some b, some band => some (dqFx (leNat b / 16 ^ (c % 8) % 16) (leNat b / 2 ^ 32) (leNat band))
    | _, _ => none
  else (o.pat s p r c).map fun n => if tyFloat o.type then fDecode (fmtOf o.type) n
    else (let i := intOf o.type n; .fin (decide (i < 0)) i.natAbs 0)

/-- Every element may be read (R313). -/
def Opd.inside (s : State) (p : Party) (o : Opd) : Bool :=
  (List.range o.rows).all fun r => (List.range o.cols).all fun c => (o.val s p r c).isSome

/-- The descriptors of a kind agree with each other (R312, R314, R317, R455). -/
def shapeGood (kind : Nat) (os : List Opd) : Bool :=
  os.all (fun o => !o.bad) &&
  match kind, os with
  | 0, [a, b, c] =>
    decide (a.cols = b.rows ∧ c.rows = a.rows ∧ c.cols = b.cols) && sameKind a.type b.type && decide (c.aux ≤ 4) &&
    (if a.type = 11 then !a.tr && !b.tr else decide (a.aux = 0 ∧ b.aux = 0)) &&
    decide (if tyFloat a.type then (if a.type = 6 then c.type = 6 else [5, 7, 8, 9, 10].contains c.type) else c.type = 1)
  | 1, [x, y] => decide (x.type = y.type ∧ x.type ≠ 11 ∧ x.rows = 1 ∧ y.rows = 1 ∧ x.cols = y.cols ∧ x.aux = 0 ∧ y.aux ≤ 1)
  | 2, [a, x, b] =>
    decide ((a.type = 5 ∨ a.type = 6) ∧ x.type = a.type ∧ b.type = a.type ∧ a.rows = a.cols ∧ x.rows = a.rows ∧ b.rows = a.rows ∧ x.cols = b.cols ∧
      a.aux = 0 ∧ x.aux = 0) && (match fDecode fp64 b.aux with | .fin n m _ => !n || decide (m = 0) | _ => false)
  | 3, [x, y] =>
    decide (x.type = y.type ∧ x.rows = 1 ∧ y.rows = 1 ∧ x.cols = y.cols ∧ x.aux = 0 ∧ y.aux / 128 = 0 ∧ bitsOf y.aux 2 0 ≤ 5 ∧ bitsOf y.aux 6 4 ≤ 4) &&
    (opTypes (bitsOf y.aux 2 0)).contains x.type
  | 4, [r] => decide (r.rows = 1 ∧ r.cols ≠ 0 ∧ r.pitch = 64 ∧ r.type = 6 ∧ r.tr = false ∧ r.aux = 0 ∧ r.ws = false)
  | 5, [] => true
  | _, _ => false

/-- Number of descriptors of a kind (R311). -/
def descCount (kind : Nat) : Nat := [3, 2, 3, 2, 1, 0].getD kind 0

/-- The lowest reason of R325 for descriptors, none when they are good. -/
def witReason (s : State) (p : Party) (kind : Nat) (descs : List Nat) : Option Nat :=
  let os := descs.map opdOf
  if ¬ shapeGood kind os then some 1
  else if kind = 4 then
    (match os with
    -- SAMPLES is compared before the rest is read: reason 1 is the lower (R455)
    | [r] => (match witBytes s p r r.base 8 with
      | none => some 2
      | some bs => if leNat bs % 2 ^ 13 ≠ r.cols then some 1 else if (witBytes s p r (r.base + 8) (56 + 64 * r.cols)).isNone then some 2 else none)
    | _ => some 1)
  else if os.all fun o => o.inside s p then none else some 2

/-! ## The projection test (R315, R316) -/

/-- ρ_j of a check: nonzero, in [−2^15, 2^15). -/
def rhoOf (n j : Nat) : Int := let r := Config.secretDraw n j % 65535; if r < 32768 then (r : Int) - 32768 else (r : Int) - 32767

/-- Smallest subnormal of a format, halved. -/
def etaOf (f : Fmt) : Dy := { i := 1, e := 1 - (f.bias : Int) - f.p - 1 }

/-- The floating bound of R315, both sides multiplied by (1 − n_c u_a)(1 − u_o). -/
def projBound (a c : Opd) (k : Nat) (diff t v z : Dy) : Bool :=
  let chunk := match mKind a.type with | some m => m.1 | none => 1
  let acc := if a.type = 6 then fp64 else fp32
  let nc : Dy := { i := k, e := -(Nat.log2 chunk : Int) }
  let nu := nc.mul { i := 1, e := if a.type = 6 then -53 else -24 }
  let same : Bool := decide (c.type = if a.type = 6 then 6 else 5)
  let fc := fmtOf c.type
  let directed : Bool := decide (1 ≤ c.aux ∧ c.aux ≤ 3)
  let uo : Dy := if same then .zero else { i := if directed then 2 else 1, e := -((fc.p : Int) + 1) }
  let eta := (nc.mul (etaOf acc)).add (if same then .zero else etaOf fc)
  let p := Dy.one.sub nu
  let q := Dy.one.sub uo
  Dy.lt .zero p && Dy.le (diff.abs.mul (p.mul q)) (Dy.sum [(nu.mul t).mul q, (uo.mul v).mul p, (eta.mul z).mul (p.mul q)])

/-- The test of row `i` over some columns of check `n`. -/
def projRow (s : State) (p : Party) (n : Nat) (a b c : Opd) (i : Nat) (cols : List Nat) : Bool :=
  let ks := List.range a.cols
  let val (o : Opd) (r x : Nat) : Option Dy := (o.val s p r x).bind Fx.dy
  let parts := cols.map fun j =>
    match allSome (ks.map fun k => val a i k), allSome (ks.map fun k => val b k j), val c i j with
    | some as, some bs, some cij =>
      let rho := Dy.ofInt (rhoOf n j)
      let ps := as.zip bs
      some (rho.mul cij, rho.mul (Dy.sum (ps.map fun x => x.1.mul x.2)), rho.abs.mul (Dy.sum (ps.map fun x => x.1.abs.mul x.2.abs)),
        rho.abs.mul cij.abs, rho.abs)
    | _, _, _ => none
  match allSome parts with
  | none => false
  | some xs =>
    let diff := (Dy.sum (xs.map (·.1))).sub (Dy.sum (xs.map (·.2.1)))
    if tyFloat a.type then
      projBound a c a.cols diff (Dy.sum (xs.map (·.2.2.1))) (Dy.sum (xs.map (·.2.2.2.1))) (Dy.sum (xs.map (·.2.2.2.2)))
    else decide (diff.i = 0)

/-- What a test finds: whether it passes, failing rows, cores charged. -/
structure Verdict where
  pass : Bool
  rows : Nat := 0
  cores : List Nat := []
  deriving DecidableEq, Repr

/-- Core that wrote an element of C, as ACCST recorded it (R309); no ACCST writes a weight store. -/
def writerOf (s : State) (p : Party) (wrote : List (Nat × Nat × Nat)) (c : Opd) (i j : Nat) : Option Nat :=
  if c.ws then none else (stagedPa s p (c.at' i j % 2 ^ 64)).bind fun q => (wrote.find? fun w => w.1 = q.2.1 ∧ w.2.1 = q.2.2).map (·.2.2)

/-- Cores charged for a failing row (R316): those whose own range fails; all recorded for it when every range passes. -/
def rowCharges (s : State) (p : Party) (n : Nat) (wrote : List (Nat × Nat × Nat)) (a b c : Opd) (i : Nat) : List Nat :=
  let own := (List.range c.cols).map fun j => (j, writerOf s p wrote c i j)
  let groups := (own.map (·.2)).eraseDups
  let bad := groups.filter fun g => !projRow s p n a b c i ((own.filter fun x => x.2 = g).map (·.1))
  (match bad with | [] => groups | _ => bad).filterMap id

/-- The verdict of a projection witness. -/
def projVerdict (s : State) (p : Party) (n : Nat) (wrote : List (Nat × Nat × Nat)) (a b c : Opd) : Verdict :=
  let bad := (List.range c.rows).filter fun i => !projRow s p n a b c i (List.range c.cols)
  { pass := bad = [], rows := bad.length, cores := (bad.flatMap (rowCharges s p n wrote a b c)).eraseDups }

/-! ## ORDER, RESIDUAL, PREFIX (R317) -/

/-- Place of a pattern in its type's order: −0 below +0, NaNs above +∞ by their bits. -/
def orderKey (t v : Nat) : Int :=
  if tyFloat t then
    match fDecode (fmtOf t) v with
    | .nan _ => (2 ^ 64 : Nat) + (v : Int)
    | _ => if signBit (fmtOf t) v then -(magCode (fmtOf t) v : Int) - 1 else (magCode (fmtOf t) v : Int)
  else intOf t v

/-- Adjacent pairs ascend. -/
def ascends : List Int → Bool
  | a :: b :: rest => decide (a ≤ b) && ascends (b :: rest)
  | _ => true

/-- Π (z − x) mod 2^61 − 1. -/
def multisetHash (z : Nat) (xs : List Nat) : Nat :=
  let m := 2 ^ 61 - 1
  xs.foldl (fun h x => h * ((z % m + m - x % m) % m) % m) 1

/-- Elements of a one-row operand. -/
def Opd.row (s : State) (p : Party) (o : Opd) : Option (List Nat) := allSome ((List.range o.cols).map fun j => o.pat s p 0 j)

/-- ORDER. -/
def orderGood (s : State) (p : Party) (n : Nat) (x y : Opd) : Bool :=
  match x.row s p, y.row s p with
  | some xs, some ys =>
    let keys := ys.map (orderKey y.type)
    let z := Config.secretDraw n 0
    ascends (if y.aux = 1 then keys.reverse else keys) && decide (multisetHash z xs = multisetHash z ys)
  | _, _ => false

/-- RESIDUAL. -/
def residualGood (s : State) (p : Party) (a x b : Opd) : Bool :=
  let is := List.range a.rows
  let val (o : Opd) (r c : Nat) : Option Dy := (o.val s p r c).bind Fx.dy
  match allSome (is.map fun i => allSome (is.map fun j => val a i j)), fDecode fp64 b.aux with
  | some rows, .fin _ m e =>
    let norm (xs : List Dy) : Dy := (xs.map Dy.abs).foldl Dy.max .zero
    let na := norm (rows.map fun r => Dy.sum (r.map Dy.abs))
    (List.range x.cols).all fun c => match allSome (is.map fun i => val x i c), allSome (is.map fun i => val b i c) with
      | some xs, some bs =>
        let res := (rows.zip bs).map fun q => q.2.sub (Dy.sum ((q.1.zip xs).map fun y => y.1.mul y.2))
        Dy.le (norm res) ((dyOf false m e).mul ((na.mul (norm xs)).add (norm bs)))
      | _, _ => false
  | _, _ => false

/-- PREFIX: each step from the stored value before it. -/
def prefixGood (s : State) (p : Party) (x y : Opd) : Bool :=
  match x.row s p, y.row s p with
  | some xs, some ys =>
    let op := bitsOf y.aux 2 0
    let t := y.type
    let excl := y.aux.testBit 3
    let step (a b : Nat) : Nat := (opApply op t (bitsOf y.aux 6 4) false (loadValue t a) (loadValue t b)).bits % 2 ^ tyBits t
    (List.range ys.length).all fun i =>
      let want := if excl then (if i = 0 then opIdentity op t else if i = 1 then xs.getD 0 0 else step (ys.getD (i - 1) 0) (xs.getD (i - 1) 0))
        else if i = 0 then xs.getD 0 0 else step (ys.getD (i - 1) 0) (xs.getD i 0)
      decide (ys.getD i 0 = want)
  | _, _ => false

/-! ## Digests (R317, R318) -/

/-- The bytes of a version that are not 0, by offset. -/
def State.versionBytes (s : State) (v : Version) : List (Nat × Byte) :=
  v.frames.zipIdx.flatMap fun f =>
    let b := (s.stgBase + f.1) * 65536
    (s.hbm.filter fun p => decide (b ≤ p.1 ∧ p.1 < b + 65536)).map fun p => (f.2 * 65536 + (p.1 - b), p.2)

/-- SM3 of a version. -/
def State.versionDigest (s : State) (v : Version) : BitVec 256 := Config.sm3Image (65536 * v.count) (s.versionBytes v)

/-- SM3 of a launch's stream of system writes. -/
def streamDigest (l : Launch) : BitVec 256 := Config.sm3 (l.stream.flatMap fun w => natLe 8 w.addr ++ natLe 8 w.data.length ++ w.data)

/-- Digests of each output version of a run, in order: what R318 compares between runs. -/
def State.outDigests (s : State) (l : Launch) : List (BitVec 256) :=
  l.outVers.map fun o => match s.version l.ctx o.1 o.2 with | some v => s.versionDigest v | none => 0

/-- Those, then the digest of the stream: what DUAL compares (R317; log 33). -/
def State.runDigests (s : State) (l : Launch) : List (BitVec 256) := s.outDigests l ++ [streamDigest l]

end Sys2Proof.Machine
end

