-- ==== Sys2Proof/Machine/Checker.lean ====
section
/-!
DEFINITION. The checker die at work (R310 to R325, R448): submission of witnesses, verdicts, attestation, failures and re-runs, DUAL and
SHADOW, and the instructions WITN and WSTAT.
-/
namespace Sys2Proof.Machine

/-! ## Attestation (R117, R318, R321) -/

/-- The versions a launch was bound to, apart from its own outputs. -/
def Launch.inputs (l : Launch) : List (Nat × Option Nat) := l.binds.filter fun b => match b.2 with | some n => !l.outVers.contains (b.1, n) | none => true

/-- A launch whose checks have all ended well and whose inputs are all ATTESTED. -/
def State.attestable (s : State) (u : Nat) (l : Launch) : Bool :=
  decide (l.phase = .checking ∧ l.twin = none) && !l.second && !(s.checks.any fun c => c.2.uid = u) &&
  l.inputs.all fun b => match b.2 with
    | none => true
    | some n => match s.version l.ctx b.1 n with
      | some v => decide (v.state = .attested ∨ v.state = .retired)
      | none => true

/-- Its versions become ATTESTED, and the older ATTESTED ones of their regions RETIRED; numbers follow one another modulo 2^16 (R117). -/
def State.attest (s : State) (u : Nat) (l : Launch) : State :=
  let ours (v : Version) : Bool := decide (v.ctx = l.ctx) && l.outVers.contains (v.region, v.num)
  let older (v : Version) : Bool := decide (v.ctx = l.ctx ∧ v.num < 65536) && l.outVers.any fun o => decide (o.1 = v.region ∧ (o.2 + 65536 - v.num) % 65536 < 32768)
  let next (v : Version) : Version :=
    if ours v then { v with state := .attested } else if older v && decide (v.state = .attested) then { v with state := .retired } else v
  let s : State := { s with versions := s.versions.map next }
  s.modLaunch u fun x => { x with phase := .settled, status := some (x.status.getD 0) }

/-- Attest what can be, again and again. Fuel: launches. -/
def State.attestAll : Nat → State → State
  | 0, s => s.returnFrames
  | f + 1, s => match s.launches.find? fun p => s.attestable p.1 p.2 with
    | some p => State.attestAll f (s.attest p.1 p.2)
    | none => s.returnFrames

/-! ## The second run of a DUAL pair (R317) -/

/-- Clusters that the rotation of R319 gives the quads a run has placed. -/
def Launch.rotated (l : Launch) : List (Nat × Nat × Nat × Nat) := l.quads.map fun q => (q.1, q.2.1, l.turn 1 q.2.2)

/-- Where the second run goes: a rectangle on no die of the first, else off the die of its origin, else the rotation (log 34). -/
def State.twinSpot (s : State) (l : Launch) : Nat × Nat × List (Nat × Nat × Nat × Nat) × Nat :=
  let d := clusterDie l.ocr l.occ
  match s.placeAway l.ocr l.occ l.ch l.cw d (rectDies l.ocr l.occ l.ch l.cw), s.placeAway l.ocr l.occ l.ch l.cw d [d] with
  | some o, _ => (o.1, o.2, [], 0)
  | none, some o => (o.1, o.2, [], 0)
  | none, none => (l.ocr, l.occ, l.rotated, l.rot + 1)

/-- A dependence on a weight store. -/
def isWs : Dep → Bool
  | .ws _ => true
  | .launch _ => false

/-- Record the second run: the same bindings and key, frames of its own; a run of a launch that declares reads of the weight store declares those
of its own dies too (log 34). -/
def State.addTwin (s : State) (u : Nat) : State :=
  match s.launch u with
  | none => s
  | some l =>
    let t := s.nextUid
    let (i, j, fx, rot) := s.twinSpot l
    let x : Launch := { l with
      root := t, queue := none, second := true, twin := none, phase := .waiting, ocr := i, occ := j, fixed := fx, rot := rot, counter := 0, nextSeg := 0, nextQuad := 0
      quads := [], reruns := [], binds := [], outVers := [], prevBinds := some l.inputs, witnesses := [], gate := [], stream := []
      deps := if l.deps.any isWs then l.deps.filter isWs ++ (rectDies i j l.ch l.cw).map Dep.ws else []
      wrote := [], sums := [], steps := [], dies := 0, status := none, charges := [], chargedDies := [], digests := [], prefixes := [] }
    (s.addLaunch x).modLaunch u fun y => { y with twin := some t }

/-- The check that the checker takes next: STEP first, then in the order of submission (R321). -/
def State.headCheck (s : State) : Option (Nat × Check) :=
  match s.checks.filter fun c => c.2.wit.kind = 4 with
  | c :: _ => some c
  | [] => s.checks.head?

/-- A DUAL witness whose turn has come is taken: its second run is recorded, and the comparison waits for it (R317, R321; log 90). -/
def State.takeDuals : Nat → State → State
  | 0, s => s
  | f + 1, s => match s.headCheck with
    | some (n, c) => if c.wit.kind = 5 then State.takeDuals f (({ s with checks := adel n s.checks } : State).addTwin c.uid) else s
    | none => s

/-- DUAL witnesses whose turn has come are taken, and what can be is attested. -/
def State.settleChecks (s : State) : State := let s := State.takeDuals s.checks.length s; State.attestAll s.launches.length s

/-- LAUNCH_DISPATCH: `n` launch. A DUAL witness that waits at the checker's head has its second run recorded first. -/
def execLaunchDispatch (s : State) : Host.Outcome State Fault Refusal := .next ((State.takeDuals s.checks.length s).dispatch s.ev.n)

/-! ## Failure and re-execution (R316, R318 to R320) -/

/-- A failed witness: its kind code, failing rows, cores charged, and the die of a sequencer. -/
structure Failure where
  kind : Nat
  rows : Nat := 0
  cores : List Nat := []
  seqDie : Option Nat := none
  deriving DecidableEq, Repr

/-- A class-17 entry of a launch (R320). -/
def State.record17 (s : State) (l : Launch) (die core detail : Nat) : State := s.logError 1 17 true (some die) (some core) (some l.ctx) (some detail) l.tag

/-- DETAIL of a class-17 entry. -/
def Failure.detail (f : Failure) (run : Nat) : Nat :=
  min f.rows 0xFFFFFF * 256 + (if f.cores = [] then 64 else 0) + f.kind * 4 + run

/-- A core is charged; at the threshold it is marked (R439). -/
def State.chargeCore (s : State) (u k : Nat) : State :=
  let thr := s.scanThr
  s.modCore k fun (c : Core) => { c with charges := c.charges ++ [u], marked := c.marked || decide (thr ≤ c.charges.length + 1) }

/-- The entries and charges of a failure. -/
def State.logFailure (s : State) (u : Nat) (l : Launch) (f : Failure) : State :=
  let d := f.detail l.run
  let s := match f.cores with
    | [] => s.record17 l (f.seqDie.getD (clusterDie l.ocr l.occ)) 0 d
    | cs => cs.foldl (fun s k => (s.record17 l (dieOf k) (localOf k) d).chargeCore u k) s
  s.modLaunch u fun x => { x with
    charges := x.charges ++ f.cores.map fun k => (k, d)
    chargedDies := x.chargedDies ++ (match f.seqDie with | some q => [q] | none => []) }

/-- Agreement withdraws every charge (R318, R320). -/
def State.withdraw (s : State) (u : Nat) : State :=
  match s.launch u with
  | none => s
  | some l =>
    let s := l.charges.foldl (fun s c => (s.record17 l (dieOf c.1) (localOf c.1) (c.2 + 32)).modCore c.1 fun (x : Core) => { x with charges := x.charges.erase u }) s
    s.modLaunch u fun x => { x with charges := [] }

/-- Every launch bound to one of the versions, and those bound to what they wrote, ends with the input-failed status (R318). -/
def failSet : Nat → List (Nat × Nat × Nat) → State → State
  | 0, _, s => s
  | fuel + 1, vs, s =>
    match s.launches.find? fun p => p.2.phase ≠ .settled ∧ p.2.phase ≠ .ended ∧ p.2.parent = none ∧
        vs.any fun v => v.1 = p.2.ctx ∧ (if p.2.phase = .waiting then p.2.prevBinds.getD [] else p.2.binds).contains (v.2.1, some v.2.2) with
    | none => s
    | some (u, l) =>
      let (s, more) := ((s.dropTwin u).dropTree u).discardOuts u
      let s := s.modLaunch u fun x => { x with phase := .settled, broken := l.second, status := if l.second then none else some 3 }
      failSet fuel (vs ++ more) s

/-- The outputs of a launch become FAILED; their names. -/
def State.failOuts (s : State) (u : Nat) : State × List (Nat × Nat × Nat) :=
  match s.launch u with
  | none => (s, [])
  | some l => (l.outVers.foldl (fun s o => s.modVersion l.ctx o.1 o.2 fun v => { v with state := .failed }) s, l.outVers.map fun o => (l.ctx, o.1, o.2))

/-- A witness of a root launch fails (R318). A run that was stopped has no digests, and agrees with none. -/
def State.failRun (s : State) (u : Nat) (f : Failure) : State :=
  match s.launch u with
  | none => s
  | some l =>
    let whole : Bool := decide (l.phase = .checking)
    let digs := s.outDigests l
    let s := s.logFailure u l f
    let s : State := { s with checks := s.checks.filter fun c => c.2.uid ≠ u }
    let s := s.dropTwin u
    if 2 ≤ l.run ∧ whole ∧ l.digests.contains digs then
      ((s.withdraw u).modLaunch u fun x => { x with status := some 1 }).settleChecks
    else
      let place := match f.seqDie, f.cores with
        | some d, _ => (d, false)
        | none, k :: _ => (dieOf k, false)
        | none, [] => (clusterDie l.ocr l.occ, true)
      let (s, vs) := (s.dropTree u).failOuts u
      if 3 ≤ l.run then
        let s := s.modLaunch u fun x => { x with phase := .settled, status := some 2 }
        (failSet s.launches.length vs s).returnFrames
      else
        let s := s.modLaunch u fun x => { x with
          phase := .waiting, run := x.run + 1, prevBinds := some l.inputs, binds := [], outVers := [], failed := some place
          fixed := l.rotated, rot := l.rot + 1, digests := x.digests ++ (if whole then [digs] else []), prefixes := [], counter := 0 }
        (squash s.launches.length u vs s).returnFrames

/-- RERUN_DISPATCH: `n` launch. Placed away from the charged dies, or rotated within its rectangle (R319, R448), and dispatched. -/
def execRerunDispatch (s : State) : Host.Outcome State Fault Refusal :=
  match s.launch s.ev.n with
  | none => .next s
  | some l => match l.phase, l.failed with
    | .waiting, some (d, counts) =>
      let charged := (l.charges.map fun c => dieOf c.1) ++ l.chargedDies ++ (if counts then [d] else [])
      let l1 : Launch := match s.placeAway l.ocr l.occ l.ch l.cw d charged with
        | some o => { l with ocr := o.1, occ := o.2, fixed := [], rot := 0, failed := none }
        | none => { l with failed := none }
      .next ((s.setLaunch s.ev.n l1).dispatch s.ev.n)
    | _, _ => .next s

/-! ## Submission (R313, R321) -/

/-- A witness with its descriptors read through the parameter block; none when one cannot be read (R311). -/
def State.readDescriptors (s : State) (p : Party) (w : Witness) : Option Witness :=
  if w.kind = 5 ∨ w.kind = 6 ∨ w.descs ≠ [] then some w
  else
    let one (off : Nat) : Option Nat := match s.ckRead p (w.param.toNat + off) 8 1 with
      | none => none
      | some a => if a % 32 ≠ 0 then none else s.ckRead p a 32 1
    (allSome (w.offs.map one)).map fun ds => { w with descs := ds, offs := [] }

/-- A weight-store operand is the image recorded at dispatch (R313). -/
def State.imageKept (s : State) (l : Launch) (descs : List Nat) : Bool :=
  descs.all fun v => let o := opdOf v; !o.ws || (match l.wsGens.find? fun g => g.1 = o.wdie with | some g => decide (g.2 = (s.die o.wdie).wsGen) | none => false)

/-- The end of a flush: the partial sums are combined, and the outputs are PENDING with their digests (R117, R232, R321). -/
def State.closeOuts (s : State) (u : Nat) (l : Launch) : State :=
  let s := l.outVers.foldl (fun s o => s.modVersion l.ctx o.1 o.2 fun v => { v with state := .pending }) (s.combineSums u)
  l.outVers.foldl (fun s o => match s.version l.ctx o.1 o.2 with
    | some v => (let dig := s.versionDigest v; s.modVersion l.ctx o.1 o.2 fun y => { y with digest := dig })
    | none => s) s

/-- A witness whose operands do not stand: R325, or a weight-store image that is no longer the one recorded. -/
def State.witnessBad (s : State) (l : Launch) (p : Party) (w : Witness) : Bool :=
  decide (w.kind ≤ 5) && ((witReason s p w.kind w.descs).isSome || !s.imageKept l w.descs)

/-- The witnesses of a run go to the checker (R310, R321). -/
def State.submit (s : State) (u : Nat) (l : Launch) (ws : List Witness) : State :=
  let s := ws.foldl (fun s w => if 6 ≤ w.kind then s
    else ({ s with checks := aput s.nextCheck { uid := u, run := l.run, wit := w } s.checks, nextCheck := s.nextCheck + 1 } : State)) s
  (s.modLaunch u fun x => { x with phase := .checking, witnesses := ws }).settleChecks

/-- WITNESS_SUBMISSION: `n` launch. Its end flush completes; its outputs become PENDING and its witnesses go to the checker, DUAL where it has none. -/
def execWitnessSubmission (s : State) : Host.Outcome State Fault Refusal :=
  let u := s.ev.n
  match s.launch u with
  | none => .next s
  | some l =>
    if l.phase ≠ .flushing ∨ ¬ s.flushed u then .next s
    else
      let s1 := s.closeOuts u l
      if l.second then .next (s1.modLaunch u fun x => { x with phase := .checking })
      else
        let p : Party := { die := 0, ctx := l.ctx, fw := false, uid := some u }
        match allSome (l.witnesses.map (s1.readDescriptors p)) with
        | none => .next (s1.endLaunch u 6)
        | some ws =>
          -- what WITN recorded was checked at its issue (R313)
          if (l.witnesses.zip ws).any fun q => decide (q.1.descs = []) && s1.witnessBad l p q.2 then .next (s1.endLaunch u 6)
          else .next (s1.submit u l (match ws with | [] => [{ kind := 5 }] | _ => ws))

/-! ## Checks -/

/-- The check `n`, when the checker takes it next (R321). -/
def State.nextCheckIs (s : State) (n : Nat) : Option Check := s.headCheck.bind fun q => if q.1 = n then some q.2 else none

/-- A verdict: the check is over, or the run fails. -/
def State.judge (s : State) (n : Nat) (c : Check) (f : Option Failure) : State :=
  let s : State := { s with checks := adel n s.checks }
  match f with
  | none => s.settleChecks
  | some x => s.failRun c.uid x

/-- Party of a check. -/
def State.checkParty (s : State) (c : Check) : Party :=
  { die := 0, ctx := (match s.launch c.uid with | some l => l.ctx | none => 0), fw := false, uid := some c.uid }

/-- A check of a kind with its operands, when it is its turn. -/
def checkOf (s : State) (kind : Nat) (f : Check → Party → List Opd → State) : Host.Outcome State Fault Refusal :=
  match s.nextCheckIs s.ev.n with
  | none => .next s
  | some c => if c.wit.kind ≠ kind then .next s else .next (f c (s.checkParty c) (c.wit.descs.map opdOf))

/-- PROJ_CHECK: `n` check. -/
def execProjCheck (s : State) : Host.Outcome State Fault Refusal :=
  checkOf s 0 fun c p os => match os with
    | [a, b, x] =>
      let wrote := match s.launch c.uid with | some l => l.wrote | none => []
      let v := projVerdict s p s.ev.n wrote a b x
      s.judge s.ev.n c (if v.pass then none else some { kind := 0, rows := v.rows, cores := v.cores })
    | _ => s.judge s.ev.n c none

/-- ORDER_CHECK: `n` check. -/
def execOrderCheck (s : State) : Host.Outcome State Fault Refusal :=
  checkOf s 1 fun c p os => match os with
    | [x, y] => s.judge s.ev.n c (if orderGood s p s.ev.n x y then none else some { kind := 1 })
    | _ => s.judge s.ev.n c none

/-- RESIDUAL_CHECK: `n` check. -/
def execResidualCheck (s : State) : Host.Outcome State Fault Refusal :=
  checkOf s 2 fun c p os => match os with
    | [a, x, b] => s.judge s.ev.n c (if residualGood s p a x b then none else some { kind := 2 })
    | _ => s.judge s.ev.n c none

/-- PREFIX_CHECK: `n` check. The digest of the output is recorded. -/
def execPrefixCheck (s : State) : Host.Outcome State Fault Refusal :=
  checkOf s 3 fun c p os => match os with
    | [x, y] =>
      let dig := Config.sm3 ((y.row s p).getD [] |>.flatMap fun v => natLe (tyBytes y.type) v)
      let s1 := s.modLaunch c.uid fun l => { l with prefixes := l.prefixes ++ [dig] }
      s1.judge s.ev.n c (if prefixGood s p x y then none else some { kind := 3 })
    | _ => s.judge s.ev.n c none

/-- DUAL_COMPARISON: `n` launch. Both runs are flushed, or the second has ended without completing (R317). -/
def execDualComparison (s : State) : Host.Outcome State Fault Refusal :=
  let u := s.ev.n
  match s.launch u with
  | none => .next s
  | some l => match l.twin.bind s.launch with
    | none => .next s
    | some t =>
      if l.phase ≠ .checking then .next s
      else if t.broken then .next (s.failRun u { kind := 5 })
      else if t.phase ≠ .checking then .next s
      else
        if s.runDigests l = s.runDigests t then .next (s.dropTwin u).settleChecks else .next (s.failRun u { kind := 5 })

/-- The launch whose runs a root belongs to: itself, or the first run's where it is the second of a DUAL pair (R317). -/
def State.ownerOf (s : State) (root : Nat) : Nat :=
  match s.launches.find? fun p => p.2.twin = some root with
  | some p => p.1
  | none => root

/-- SHADOW_MISMATCH: core, warp. Nothing is performed; the launch stops and its witness fails, in either run of a DUAL pair (R317, R425). -/
def execShadowMismatch (s : State) : Host.Outcome State Fault Refusal :=
  match (s.warp? s.ev.core s.ev.warp).bind fun w => alook w.team (s.core s.ev.core).teams with
  | none => .next s
  | some t => match t.uid.bind s.launch with
    | none => .next s
    | some l => if (match s.imageOf l with | some i => i.prot | none => false) then .next (s.failRun (s.ownerOf l.root) { kind := 6, cores := [s.ev.core] }) else .next s

/-! ## WITN (R323) -/

/-- An instruction that acts once for the warp, over the gang's active threads: nothing under a guard that none passes. -/
def onceInstr (s : State) (opc : Nat) (x : Op) (ev : State → Env → Nat → Bool) (f : State → Env → Row → List Nat → Nat → Except Trap State) :
    Host.Outcome State Fault Refusal :=
  issue s 12 x.g (opCost opc x) 1 ev fun evs s e =>
    let r := rowAt opc x
    let act := e.active x.g
    if act = [] ∧ (¬ unguarded x.g ∨ evs ≠ []) then .ok (s.finishMem e { accs := [], len := 12, frees := e.frees x r, once := true, lanes := 0 })
    else match e.regTrap x r (maskOf act) with
      | some t => .error t
      | none => f s e r act (act.headD 0)

/-- What a memory wait of such an instruction holds. -/
def Env.onceWait (e : Env) (x : Op) (r : Row) : MemWait := { accs := [], len := 12, frees := e.frees x r, once := true, lanes := 0 }

/-- A recorded witness has a kind and descriptors, bit for bit; a .witness entry's are read through the parameter block (R311, R323). -/
def State.sameWitness (s : State) (p : Party) (w v : Witness) : Bool :=
  decide (v.kind = w.kind) && (match s.readDescriptors p v with | some r => decide (r.descs = w.descs) | none => false)

/-- Append a witness at the root: a duplicate is dropped, a 65th takes reason 3. -/
def State.appendWitness (s : State) (root : Nat) (w : Witness) : Option State :=
  match s.launch root with
  | none => some s
  | some l => if l.witnesses.any (s.sameWitness { die := 0, ctx := l.ctx, fw := false, uid := some root } w) then some s
    else if 64 ≤ l.witnesses.length then none
    else some (s.modLaunch root fun x => { x with witnesses := x.witnesses ++ [w] })

/-- WITN. -/
def execWitn (x : X96) (s : State) : Host.Outcome State Fault Refusal :=
  let x := x.op
  let kind := x.op7
  onceInstr s 0xF4 x (fun s e i => decide (kind ≠ 5) && (let v := sv1 (Env.srcs s e x (rowAt 0xF4 x) 0 i).a; !v.isPoint)) fun s e r act lane =>
    let m := e.onceWait x r
    let fail (n : Nat) : Trap := { cls := 14, reason := n, mask := maskOf act }
    match e.team.uid, e.launch with
    | some u, some l =>
      let add (s : State) (ds : List Nat) : Except Trap State :=
        match witReason s { Env.party s e with uid := some u } kind ds with
        | some n => .error (fail n)
        | none => match s.appendWitness l.root { kind := kind, descs := ds } with
          | none => .error (fail 3)
          | some s1 => .ok (s1.finishMem e m)
      if kind = 5 then add s []
      else
        let a := sv1 (Env.srcs s e x r 0 lane).a
        (match s.onceRead e m lane a.stamp a.lo 32 (spansOf a.lo (32 * descCount kind) 32) with
        | .trap t => .error t
        | .wait s1 => .ok s1
        | .got vs _ s1 => add s1 vs)
    | _, _ => .error (fail 2)

/-! ## WSTAT (R324) -/

/-- State code of a version. -/
def VState.code : VState → Nat
  | .opened => 0
  | .pending => 1
  | .attested => 2
  | .failed => 3
  | .discarded => 4
  | .retired => 5

/-- A STG leaf under the table `at'` of a level maps a region (R103, R119). -/
def mapsRegion (m : List Host.Cell) (region : Nat) : Nat → Nat → Bool
  | 0, _ => false
  | level + 1, at' => (List.range 512).any fun i =>
    let e := memNat m (at' + 8 * i) 8
    e.testBit 0 && (if e.testBit 1 then decide (level = 0) && e.testBit 6 && decide (bitsOf e 27 12 = region)
      else mapsRegion m region level (bitsOf e 39 12 * 4096))

/-- The tables of a context, as some die's CTXBASE gives them (R105), map a region. -/
def State.regionMapped (s : State) (ctx region : Nat) : Bool :=
  s.dies.any fun d =>
    let e := memNat s.hbm (d.ctxBase * 4096 + 8 * ctx) 8
    e.testBit 0 && mapsRegion s.hbm region 5 (bitsOf e 39 12 * 4096)

/-- A region id names a staged region of a context: a version of it has been made, a launch in flight declares it, or its pages are mapped (log 35). -/
def State.isRegion (s : State) (ctx region : Nat) : Bool :=
  (s.versions.any fun v => v.ctx = ctx ∧ v.region = region) || (s.launches.any fun p => decide (p.2.ctx = ctx) && p.2.outs.any fun o => o.1 = region)
    || s.regionMapped ctx region

/-- The word WSTAT writes. -/
def State.wstat (s : State) (ctx region : Nat) (att : Bool) : Nat :=
  match s.newest ctx region fun v => !att || decide (v = .attested) with
  | none => 2 ^ 31
  | some v => if att then v.num % 65536 else v.num % 65536 + v.state.code * 65536

/-- Both forms. -/
def wstat (s : State) (x : Op) (att : Bool) : Host.Outcome State Fault Refusal :=
  onceInstr s 0xF5 x (fun _ _ _ => false) fun s e r act lane =>
    let v := Env.srcs s e x r 0 lane
    let a := pointOf s (sv1 v.a)
    let ctx := match e.launch with | some l => l.ctx | none => (Env.party s e).ctx
    let reasons := (if a / 65536 ≠ 0 then [1] else []) ++ (if e.det then [4] else []) ++ (if ¬ s.isRegion ctx (a % 65536) then [5] else [])
    match reasons.min? with
    | some n => .error { cls := 14, reason := n, mask := maskOf act }
    | none =>
      let s1 := s.modWarp e.k e.slot fun w => w.writeUnis e.handling x.d 32 [svConst (s.wstat ctx (a % 65536) att)]
      .ok ((s1.drawn 1).finishMem e (e.onceWait x r))

/-- An operand descriptor that lies in a die's weight store (R312). -/
def descWs (v die : Nat) : Bool := v.testBit 170 && decide (bitsOf v 169 168 = die)

/-- A witness that a launch has recorded, or a check under way, reads the die's weight store (R313); a .witness entry's descriptors are those
that its parameter block names now. -/
def State.wsChecked (s : State) (die : Nat) : Bool :=
  (s.checks.any fun c => c.2.wit.descs.any fun v => descWs v die) ||
  s.launches.any fun p => decide (p.2.phase = .running ∨ p.2.phase = .flushing) && p.2.witnesses.any fun w =>
    match s.readDescriptors { die := 0, ctx := p.2.ctx, fw := false, uid := some p.1 } w with
    | some r => r.descs.any fun v => descWs v die
    | none => false

/-- WEIGHT_WRITE_WINDOW_OPEN: die. -/
def execWeightWriteWindowOpen (s : State) : Host.Outcome State Fault Refusal :=
  let d := s.ev.die
  if (s.die d).wsWindow ∨ ¬ s.wsPending d ∨ s.wsReaders d ∨ s.wsChecked d then .next s
  else .next (s.modDie d fun x => { x with wsWindow := true, wsSource := x.ws })

/-- WSTAT.reg. -/
def execWstatReg (x : X96) (s : State) : Host.Outcome State Fault Refusal := wstat s x.op false
/-- WSTAT.att. -/
def execWstatAtt (x : X96) (s : State) : Host.Outcome State Fault Refusal := wstat s x.op true

end Sys2Proof.Machine
end

