-- ==== Sys2Proof/Machine/Convert.lean ====
section
/-!
DEFINITION. Packed floating arithmetic and short dot products (R268, R269), conversions (R276 to R278), quantisation (R279, R280),
Drizzle draws (R84, R281 to R284), and the interval helpers (R386).
-/
namespace Sys2Proof.Machine

/-- Every element of the sources is a point (R97). -/
def allPoints (l : List SV) : Bool := l.all SV.isPoint
/-- In a bounds thread the point result of an element computation raises nothing (R99). -/
def pointOut (b : Bool) (o : Out) : Out := if b then { o with fl := 0 } else o

/-! ## Packed arithmetic -/

def packedOut (op : FOp) (x : Op) (mode : Nat) (b : Bool) (v : Srcs) : Out :=
  if b && !allPoints (v.a ++ v.b ++ v.c) then topOut 0
  else pointOut b (FR.out (fElem2 op x.type mode x.sat (sv1 v.a).lo (sv1 v.b).lo (sv1 v.c).lo))

/-- An instruction on two packed elements; IMM16 supplies both elements (R268). -/
def packedAlu (s : State) (opc : Nat) (op : FOp) (x : Op) : Host.Outcome State Fault Refusal :=
  alu s opc x { lit := x.imm16 * 65537 } fun _ e _ b v => packedOut op x (e.mode x.rm) b v

/-- R268: packed add. -/
def execFadd2 (x : X96) (s : State) : Host.Outcome State Fault Refusal := packedAlu s 0x8E .add x.op
/-- R268: packed multiply. -/
def execFmul2 (x : X96) (s : State) : Host.Outcome State Fault Refusal := packedAlu s 0x8F .mul x.op
/-- R268: packed fused multiply-add. -/
def execFma2 (x : X96) (s : State) : Host.Outcome State Fault Refusal := packedAlu s 0x90 .fma x.op

/-- R269: short dot product into FP32, one rounding. -/
def execFdot (x : X96) (s : State) : Host.Outcome State Fault Refusal :=
  let o := x.op
  alu s 0x91 o { lit := o.imm16 * 65536 } fun _ e _ b v =>
    if b && !allPoints (v.a ++ v.b ++ v.c) then topOut 5
    else
      let r := fDotX o.type (e.mode o.rm) o.sat (sv1 v.a).lo (sv1 v.b).lo (sv1 v.c).lo
      if b && anyNan [fDecode fp32 r.bits] then topOut 5 else pointOut b (FR.out r)

/-! ## Draws -/

/-- Draw `j` after the thread's counter, on a stream and index (R281). -/
def drawWords (e : Env) (lane j index stream : Nat) : List Nat :=
  drizzle e.team.key.toNat index ((e.warp.lane lane).draw.toNat + j) stream

/-- The thread whose draws a computation takes: for a uniform instruction the lowest active thread, or lane 0, otherwise the computing one (R84). -/
def stoLane (e : Env) (opc : Nat) (x : Op) (lane : Nat) : Nat := if isUniform opc x (rowAt opc x) then (e.active x.g).headD 0 else lane
/-- The word q of stochastic rounding of element `j` (R84). DESIGN CHOICE (log 88): a bounds thread whose ELEM is no point draws at its low end. -/
def stoWord (e : Env) (opc : Nat) (x : Op) (lane j : Nat) : Nat :=
  let l := stoLane e opc x lane
  (drawWords e l j (e.warp.lane l).elem.lo 0xFFFFFFFF).headD 0

/-! ## Conversions -/

/-- The literal of CVT, CVTI and CVTF, in the source type (R60; integers extended by their sign as R237 has it). -/
def convLit (x : Op) : Nat :=
  let src := x.op7 % 16
  if tyFloat src then litFloat x src else litInt x (tySigned src) (tyRegs src)

/-- CVT, CVTI and CVTF (R276, R277): source type in OP7. -/
def convAlu (s : State) (opc : Nat) (x : Op) : Host.Outcome State Fault Refusal :=
  alu s opc x { lit := convLit x } fun _ e t b v =>
    let mode := e.mode x.rm
    let n := if mode = 6 then 1 else 0
    let src := x.op7 % 16
    let o := if b then IR.out (convBounds x.type src mode x.sat (sv1 v.a))
      else FR.out (convElem x.type src mode x.sat (if mode = 6 then stoWord e opc x t 0 else 0) (sv1 v.a).lo)
    { o with draws := n }

/-- R276: between floating formats. -/
def execCvt (x : X96) (s : State) : Host.Outcome State Fault Refusal := convAlu s 0xA0 x.op
/-- R276: floating to integer. -/
def execCvti (x : X96) (s : State) : Host.Outcome State Fault Refusal := convAlu s 0xA1 x.op
/-- R276: integer to floating. -/
def execCvtf (x : X96) (s : State) : Host.Outcome State Fault Refusal := convAlu s 0xA2 x.op

/-- R278: convert and pack several values. -/
def execPackn (x : X96) (s : State) : Host.Outcome State Fault Refusal :=
  let o := x.op
  alu s 0xA3 o { factor := 2 } fun _ e t b v =>
    let mode := e.mode o.rm
    let k := packCount o.type
    let out :=
      if b && !(v.a.all (pointF (o.op7 % 16))) then topOut 0
      else pointOut b (FR.out (packElems o.type (o.op7 % 16) mode o.sat
        (v.a.zipIdx.map fun p => (p.1.lo, if mode = 6 then stoWord e 0xA3 o t p.2 else 0)) 0))
    { out with draws := if mode = 6 then k else 0 }

/-! ## Quantisation -/

/-- TOP of .b32 in every destination name, with WID (R280). -/
def topNames (n : Nat) : Out := { vals := List.replicate n { lo := (topOf 0).lo, hi := (topOf 0).hi }, fl := fWID }

/-- R279: quantise a block of eight elements. -/
def execQnt (x : X96) (s : State) : Host.Outcome State Fault Refusal :=
  let o := x.op
  alu s 0xA4 o { lit := o.imm16 * 65536, factor := 2 } fun _ e t b v =>
    let mode := e.mode o.rm
    let out :=
      -- FP32 inputs and the band of .auto are read in that type: a NaN is TOP (R98)
      let pts : Bool := (if o.type = 5 then v.a.all (pointF 5) else allPoints v.a) && (if o.op7 = 1 then allPoints v.c else v.c.all (pointF 5))
      if b && !pts then topNames 2
      else
        let r := qntBlock (o.op7 = 1) mode (qntInputs o.type (v.a.map (·.lo))) (sv1 v.c).lo
          ((List.range 8).map fun j => if mode = 6 then stoWord e 0xA4 o t j else 0)
        pointOut b { vals := [svConst r.codes, svConst r.scales], fl := r.fl }
    { out with draws := if mode = 6 then 8 else 0 }

/-- Pairs of 16-bit results in one name each. -/
def pairUp : List FR → List Nat
  | a :: b :: rest => (b.bits * 65536 + a.bits) :: pairUp rest
  | _ => []

/-- R280: expand a quantised block. -/
def execDqnt (x : X96) (s : State) : Host.Outcome State Fault Refusal :=
  let o := x.op
  alu s 0xA5 o { factor := 2 } fun _ e _ b v =>
    if b && !allPoints v.a then topNames (if o.type = 5 then 8 else 4)
    else
      let rs := dqntBlock o.type (e.mode o.rm) o.sat (sv1 v.a).lo ((v.a.getD 1 (svConst 0)).lo)
      let top := topOf 5
      -- an FP32 result that is NaN for every value is TOP with N = 1 (R98)
      let nans := rs.map fun r => b && o.type = 5 && anyNan [fDecode fp32 r.bits]
      if nans.any id then
        { vals := (rs.zip nans).map fun p => if p.2 then { lo := top.lo, hi := top.hi, nan := true } else svConst p.1.bits, fl := fWID }
      else
        pointOut b { vals := if o.type = 5 then rs.map fun r => svConst r.bits else (pairUp rs).map svConst
                     fl := rs.foldl (fun n r => n ||| r.fl) 0 }

/-! ## RND, RNDF, RNDM -/

/-- The index a draw uses, an interval in a bounds thread (R281, R283). -/
def drawIndex (e : Env) (x : Op) (t : Nat) (v : Srcs) : SV :=
  if x.op7.testBit 2 then sv1 v.a else { lo := (e.warp.lane t).elem.lo, hi := (e.warp.lane t).elem.hi }

/-- A draw of an instruction: `f` on the words, `vague` when the index or the stream is not a point (R284). One that is not well formed raises
WID (R98). -/
def drawAlu (s : State) (opc : Nat) (x : Op) (strm : Srcs → SV) (f : Srcs → List Nat → Out) (vague : Srcs → Out) : Host.Outcome State Fault Refusal :=
  let idx := x.op7.testBit 2
  let lit := litInt x false 32
  let ev (e : Env) (i : Nat) : Bool :=
    let v := Env.srcs s e x (rowAt opc x) lit i
    (idx && v.a.any (·.e)) || (strm v).e
  alu s opc x { lit := lit, stamp0 := !idx, stampA := idx, event := ev } fun _ e t b v =>
    let i := drawIndex e x t v
    let q := strm v
    let o := if b && !allPoints [i, q] then vague v else f v (drawWords e t 0 i.lo q.lo)
    { o with draws := 1, fl := if b then o.fl ||| (readI 4 i).2.2 ||| (readI 2 q).2.2 else o.fl }

/-- R283: Drizzle words. -/
def execRnd (x : X96) (s : State) : Host.Outcome State Fault Refusal :=
  let n := if x.op.op7 % 4 = 0 then 1 else if x.op.op7 % 4 = 1 then 2 else 4
  drawAlu s 0xA8 x.op (fun v => sv1 v.b) (fun _ ys => { vals := (ys.take n).map svConst })
    (fun _ => { vals := List.replicate n { lo := (topOf 2).lo, hi := (topOf 2).hi }, fl := fWID })

/-- R283: a uniform value in [0, 1). -/
def execRndf (x : X96) (s : State) : Host.Outcome State Fault Refusal :=
  let f64 : Bool := x.op.type = 6
  drawAlu s 0xA9 x.op (fun v => sv1 v.b)
    (fun _ ys =>
      let y0 := ys.getD 0 0
      let y1 := ys.getD 1 0
      if f64 then { vals := [svConst (roundTo fp64 0 false 0 { neg := false, m := (y1 * 2 ^ 32 + y0) / 2 ^ 11, e := -53 }).bits] }
      else { vals := [svConst (roundTo fp32 0 false 0 { neg := false, m := y0 / 256, e := -24 }).bits] })
    (fun _ => { vals := [{ lo := 0, hi := if f64 then 0x3FEFFFFFFFFFFFFF else 0x3F7FFFFF }] })

/-- RNDM's predicate from the low half of y0 and P, an interval in a bounds thread, TOP where it is not well formed (R98, R283, R284). -/
def rndmPred (y : Nat) (p : SV) : Tri := if p.hi < p.lo then .u else if y % 65536 < p.lo then .t else if p.hi ≤ y % 65536 then .f else .u

/-- WID of a P that is not well formed (R98). -/
def rndmWid (v : Srcs) : Nat := (readI 2 (sv1 v.b)).2.2

/-- R283: a Bernoulli predicate. -/
def execRndm (x : X96) (s : State) : Host.Outcome State Fault Refusal :=
  drawAlu s 0xAA x.op (fun v => sv1 v.c)
    (fun v ys => { pred := some { v := rndmPred (ys.getD 0 0) (sv1 v.b) }, fl := rndmWid v })
    (fun v =>
      let p := sv1 v.b
      { pred := some { v := if p.isPoint ∧ p.lo = 0 then .f else if p.isPoint ∧ 65536 ≤ p.lo then .t else .u }, fl := rndmWid v })

/-! ## IVMK, IVLO, IVHI (R386) -/

/-- R386: widen to a hull; E from A alone. -/
def execIvmk (x : X96) (s : State) : Host.Outcome State Fault Refusal :=
  let o := x.op
  alu s 0xB0 o { lit := litAny o, eA := true } fun _ _ _ b v =>
    if b then IR.out (hullIv o.type (sv1 v.a) (sv1 v.b)) else copyOut (sv1 v.a)

/-- One end of an interval as a point (R386); an operand that is not well formed is read as TOP (R98). -/
def endOut (t : Nat) (hi : Bool) (a : SV) : Out :=
  let top := topOf t
  let bad : Bool := if tyFloat t then (readF t a).2.2.2 ≠ 0 else (readI t a).2.2 ≠ 0
  let n := if bad then (if hi then top.hi else top.lo) else (if hi then a.hi else a.lo)
  { vals := [{ lo := n, hi := n, nan := if bad then top.nan else a.nan }], fl := if bad then fWID else 0 }

def endAlu (s : State) (opc : Nat) (hi : Bool) (x : Op) : Host.Outcome State Fault Refusal :=
  alu s opc x { lit := litAny x, e1 := true } fun _ _ _ b v => if b then endOut x.type hi (sv1 v.a) else copyOut (sv1 v.a)

/-- R386: the low end as a point. -/
def execIvlo (x : X96) (s : State) : Host.Outcome State Fault Refusal := endAlu s 0xB1 false x.op
/-- R386: the high end as a point. -/
def execIvhi (x : X96) (s : State) : Host.Outcome State Fault Refusal := endAlu s 0xB2 true x.op

end Sys2Proof.Machine
end

