-- ==== Sys2Proof/Machine/CrossLane.lean ====
section
/-!
DEFINITION. Cross-lane instructions (R256 to R261) and ELECT (R295).
-/
namespace Sys2Proof.Machine

/-- A of another lane when it is available (R256); 0 otherwise. Availability is being active in the gang. -/
def peerA (s : State) (e : Env) (x : Op) (r : Row) (lit : Nat) (u : Int) : SV :=
  if 0 ≤ u ∧ u < e.w ∧ (e.active x.g).contains u.toNat then sv1 (Env.srcs s e x r lit u.toNat).a else svConst 0

/-- W >> j (R256). -/
def widthShift (w j : Nat) : Nat := if 32 ≤ j then 0 else w / 2 ^ j

/-- A cross-lane instruction: stamp 0, E = 1 in bounds threads; a selector that is not a point gives TOP (R99). -/
def crossAlu (s : State) (opc : Nat) (x : Op) (lit : Nat) (f : (Int → SV) → Env → Nat → Srcs → Out) : Host.Outcome State Fault Refusal :=
  alu s opc x { lit := lit, stamp0 := true, e1 := true } fun s e lane _ v =>
    let q := sv1 v.b
    if q.lo ≠ q.hi then topOut x.type else f (peerA s e x (rowAt opc x) lit) e lane v

/-- PERM's source lane (R257). -/
def permSrc (op7 w t b : Nat) : Int :=
  match op7 with
  | 0 => b
  | 1 => (t ^^^ b : Nat)
  | _ => (t ^^^ widthShift w b : Nat)

/-- SHIFTW's source lane (R257). -/
def shiftSrc (op7 w t b : Nat) : Int :=
  let k : Int := if op7.testBit 2 then widthShift w b else sIntOf 32 b
  let z : Int := if op7.testBit 0 then (t : Int) - k else t + k
  if op7.testBit 1 then z % (w : Int) else z

def permAlu (s : State) (x : Op) : Host.Outcome State Fault Refusal :=
  crossAlu s 0x60 x (litInt x false 32) fun a e t v => copyOut (a (permSrc x.op7 e.w t (sv1 v.b).lo))
def shiftAlu (s : State) (x : Op) : Host.Outcome State Fault Refusal :=
  -- the literal is a signed count, or a width-relative operand
  crossAlu s 0x61 x (litInt x (!x.op7.testBit 2) 32) fun a e t v => copyOut (a (shiftSrc x.op7 e.w t (sv1 v.b).lo))
def bcastAlu (s : State) (x : Op) : Host.Outcome State Fault Refusal :=
  crossAlu s 0x64 x (litInt x false 32) fun a _ _ v => copyOut (a (sv1 v.b).lo)

/-- R257: read lane B, or the lane at an exclusive-or distance. -/
def execPerm (x : X96) (s : State) : Host.Outcome State Fault Refusal := permAlu s x.op
/-- R257: read the lane at a distance (C32). -/
def execShiftwC32 (x : C32R) (s : State) : Host.Outcome State Fault Refusal := shiftAlu s (x.op 0)
/-- R257: read the lane at a distance. -/
def execShiftw (x : X96) (s : State) : Host.Outcome State Fault Refusal := shiftAlu s x.op
/-- R257: read one lane (C32). -/
def execBcastC32 (x : C32R) (s : State) : Host.Outcome State Fault Refusal := bcastAlu s (x.op 0)
/-- R257: read one lane. -/
def execBcast (x : X96) (s : State) : Host.Outcome State Fault Refusal := bcastAlu s x.op

/-- VOTE over predicate values of the available lanes (R258); `u` stands for an undecided one. -/
def voteKind (op7 : Nat) (ps : List (Nat × Tri)) (u : Bool) : Nat :=
  let val (p : Nat × Tri) : Bool := p.2 = .t || (p.2 = .u && u)
  match op7 with
  | 0 => (maskOf ((ps.filter val).map (·.1))).toNat
  | 1 => if ps.any val then 1 else 0
  | 2 => if ps.all val then 1 else 0
  | _ => if ps.all val || ps.all (fun p => !val p) then 1 else 0

def voteAlu (s : State) (x : Op) : Host.Outcome State Fault Refusal :=
  alu s 0x62 x { stamp0 := true, e1 := true } fun _ e _ b _ =>
    let ps := (e.active x.g).map fun i => (i, ((e.warp.lane i).pred x.a).v)
    if x.op7 = 3 ∧ ps.any (fun p => p.2 = .u) then { vals := [{ lo := 0, hi := if b then 1 else 0 }] }
    else { vals := [{ lo := voteKind x.op7 ps false, hi := voteKind x.op7 ps b }] }

/-- R258: ballot (C32). -/
def execVoteC32 (x : C32R) (s : State) : Host.Outcome State Fault Refusal := voteAlu s (x.op 0)
/-- R258: ballot, any, all or uniform. -/
def execVote (x : X96) (s : State) : Host.Outcome State Fault Refusal := voteAlu s x.op

/-- MATCH of two lanes: surely equal, possibly equal (R258). -/
def matchPair (b : Bool) (t : Nat) (p q : SV) : Bool × Bool :=
  if b then
    let pi := readI t p
    let qi := readI t q
    (decide (pi.1 = pi.2.1 ∧ qi.1 = qi.2.1 ∧ pi.1 = qi.1), decide (pi.1 ≤ qi.2.1 ∧ qi.1 ≤ pi.2.1))
  else let eq : Bool := p.lo % 2 ^ tyBits t = q.lo % 2 ^ tyBits t; (eq, eq)

/-- R258: mask of lanes that hold equal bits. -/
def execMatchLanes (x : X96) (s : State) : Host.Outcome State Fault Refusal :=
  let o := x.op
  let lit := litInt o false (tyRegs o.type)
  alu s 0x65 o { lit := lit, stamp0 := true, e1 := true } fun s e _ b v =>
    let ms := (e.active o.g).map fun (i : Nat) => (i, matchPair b o.type (peerA s e o (rowAt 0x65 o) lit i) (sv1 v.a))
    let wid := (e.active o.g).foldl (fun n (i : Nat) => n ||| (readI o.type (peerA s e o (rowAt 0x65 o) lit i)).2.2) 0
    { vals := [{ lo := (maskOf ((ms.filter (·.2.1)).map (·.1))).toNat, hi := (maskOf ((ms.filter (·.2.2)).map (·.1))).toNat }]
      fl := if b then wid else 0 }

/-! ## Combining (R259) -/

/-- Op of R259 on two values with flags, in element or interval mode. -/
def laneOp (x : Op) (mode : Nat) (b : Bool) (p q : SV × Nat) : SV × Nat :=
  let op := x.op7 % 8
  let t := x.type
  let fl := p.2 ||| q.2
  let ofIR (r : IR) : SV × Nat := ({ lo := r.lo, hi := r.hi, nan := r.nan }, fl ||| r.fl)
  if b then
    let io (o : IOp) : SV × Nat := ofIR (iBounds o t 0 0 x.sat 2 p.1 q.1 (svConst 0))
    let fo (o : FOp) : SV × Nat := ofIR (fBounds o t mode 0 false 2 p.1 q.1 (svConst 0))
    match op with
    | 0 => if tyFloat t then fo .add else io .iadd
    | 1 => if tyFloat t then fo .fmin else io .imin
    | 2 => if tyFloat t then fo .fmax else io .imax
    | 3 => io .land
    | 4 => io .lor
    | _ => io .lxor
  else
    let r := opApply op t mode x.sat p.1.lo q.1.lo
    (svConst r.bits, fl ||| r.fl)

/-- The tree of R167 over a list; fuel: its length. -/
def treeRed {α : Type} (f : α → α → α) : Nat → List α → Option α
  | _, [] => none
  | _, [a] => some a
  | 0, _ => none
  | fuel + 1, l =>
    let m := 2 ^ (bitLen (l.length - 1) - 1)
    match treeRed f fuel (l.take m), treeRed f fuel (l.drop m) with
    | some a, some b => some (f a b)
    | _, _ => none

/-- Outcome of a value with flags. -/
def pairOut (v : SV × Nat) : Out := { vals := [v.1], fl := v.2 }

/-- R260: one butterfly step. -/
def execRstep (x : X96) (s : State) : Host.Outcome State Fault Refusal :=
  let o := x.op
  crossAlu s 0x63 o (litInt o false 32) fun a e t v =>
    let u := t ^^^ widthShift e.w (sv1 v.b).lo
    let b := (e.warp.lane t).bounds
    let p := (sv1 v.a, 0)
    let q := (a u, 0)
    pairOut (if t < u then laneOp o (e.mode o.rm) b p q else laneOp o (e.mode o.rm) b q p)

/-- R261: reduction over the available lanes along the tree. -/
def execRedw (x : X96) (s : State) : Host.Outcome State Fault Refusal :=
  let o := x.op
  let lit := litAny o
  alu s 0x66 o { lit := lit, stamp0 := true, e1 := true } fun s e _ b _ =>
    let xs := (e.active o.g).map fun (i : Nat) => (peerA s e o (rowAt 0x66 o) lit i, 0)
    match treeRed (laneOp o (e.mode o.rm) b) xs.length xs with
    | some r => pairOut r
    | none => copyOut (svConst (opIdentity (o.op7 % 8) o.type))

/-- Running sums of a scan, first to last (R261). -/
def scanRed {α : Type} (f : α → α → α) : α → List α → List α
  | a, [] => [a]
  | a, b :: rest => a :: scanRed f (f a b) rest

/-- R261: inclusive or exclusive scan over the available lanes. -/
def execScanw (x : X96) (s : State) : Host.Outcome State Fault Refusal :=
  let o := x.op
  let lit := litAny o
  alu s 0x67 o { lit := lit, stamp0 := true, e1 := true } fun s e t b _ =>
    let act := e.active o.g
    let k := act.idxOf t
    match act.map fun (i : Nat) => ((peerA s e o (rowAt 0x67 o) lit i, 0) : SV × Nat) with
    | [] => {}
    | a :: rest =>
      let sums := scanRed (laneOp o (e.mode o.rm) b) a rest
      let excl := o.op7.testBit 3
      if excl && k = 0 then copyOut (svConst (opIdentity (o.op7 % 8) o.type))
      else pairOut (sums.getD (if excl then k - 1 else k) a)

/-- R295: true in the lowest active thread, false in the others; E = 1 in bounds threads (R375). -/
def execElect (x : C32R) (s : State) : Host.Outcome State Fault Refusal :=
  let o := x.op 0
  alu s 0x14 o { e1 := true } fun _ e t _ _ => { pred := some { v := .ofBool ((e.active o.g).headD 0 = t) } }

end Sys2Proof.Machine
end

