-- ==== Sys2Proof/Machine/Power.lean ====
section
/-!
DEFINITION. Power-on, the firmware image and recovery (R433, R434), and die reset (R128, R116).
-/
namespace Sys2Proof.Machine

/-- An image verifies, and fits (R433, R434). -/
def imageGood (bs : List Byte) : Bool := Config.sm2Verify bs && decide (bs.length ≤ Config.fwRegion)

/-- The image is written from physical address 0 upward. -/
def State.writeImage (s : State) (bs : List Byte) : State := { s with hbm := memWrite s.hbm 0 bs }

/-- A die's firmware core leaves reset; what its outbound buffer holds stays to be sent (log 29). -/
def State.startFirmware (s : State) (d : Nat) : State :=
  let k := d * 256 + 128
  let old := s.core k
  let s := s.setCore k { Core.started d with ob := old.ob, seq := old.seq, temp := old.temp, thr := old.thr }
  s.modDie d fun x => { x with fwMode := 0, fq := x.fq.filter fun p => p.2.core ≠ k }

/-- The image is loaded: verified, written, and every firmware core started; otherwise recovery. -/
def State.loadImage (s : State) (bs : List Byte) : State :=
  if imageGood bs then
    let s := { s.writeImage bs with recovery := false }
    (List.range 4).foldl (fun s d => s.startFirmware d) s
  else { s with recovery := true }

/-- PACKAGE_POWER_ON. The stores are clear under generation 0, with the digest of zeros (R116). -/
def execPackagePowerOn (s : State) : Host.Outcome State Fault Refusal :=
  if s.powered then .next s
  else
    let dig := Config.sm3Image Config.weightBytes []
    let s1 : State := { s with powered := true, dies := s.dies.map fun d => { d with ws := [], wsGen := 0, wsDigest := dig, wsUsable := true } }
    .next (s1.loadImage s.flash)

/-- FIRMWARE_WATCHDOG_RESET: die. CK verifies the image again and loads it; the core of that die starts anew (log 29). -/
def execFirmwareWatchdogReset (s : State) : Host.Outcome State Fault Refusal :=
  if ¬ s.powered ∨ s.recovery then .next s
  else if imageGood s.flash then .next ((s.writeImage s.flash).startFirmware s.ev.die)
  else .next (({ s with recovery := true } : State).setCore (s.ev.die * 256 + 128) .firmware)

/-- RECOVERY_MAILBOX_WRITE: `v` host address, `n` length. The image is fetched, verified, written to the flash and loaded. -/
def execRecoveryMailboxWrite (s : State) : Host.Outcome State Fault Refusal :=
  if ¬ s.recovery then .next s
  else
    let bs := memRead s.sysMem (s.ev.v.toNat % 2 ^ 47) (min s.ev.n (Config.fwRegion + 1))
    if imageGood bs then .next (({ s with flash := bs } : State).loadImage bs) else .next s

/-- DIE_RESET: die. -/
def execDieReset (s : State) : Host.Outcome State Fault Refusal :=
  .next (s.resetDie s.ev.die (s.powered && !s.recovery))

end Sys2Proof.Machine
end

