-- ==== Sys2Proof/Machine/Faults.lean ====
section
/-!
DEFINITION. Errors (R209, R412, R413), heat (R438), scans and retirement (R17, R439, R440), accesses from peers (R432), attestation
reports (R437), and the management interface with the fault record (R441, R442).
-/
namespace Sys2Proof.Machine

/-- ERROR_DETECTED. A register error answered from a mirror is counted in FIXED (R209). -/
def execErrorDetected (err : ErrorReport) (s : State) : Host.Outcome State Fault Refusal :=
  if 24 ≤ err.cls ∨ 4 ≤ err.die then .next s
  else
    let s1 := if err.cls = 1 then s.modDie err.die fun d => { d with mirFixed := min (d.mirFixed + 1) 0xFFFF } else s
    .next (s1.raiseError err)

/-! ## Heat (R438) -/

/-- THR follows TEMP and THOT. -/
def Core.heat (c : Core) (thot : Nat) : Core :=
  if thot ≤ c.temp then { c with thr := true } else if c.temp + 32 ≤ thot then { c with thr := false } else c

/-- TEMPERATURE_SAMPLE: core, `n` TEMP. A reading that goes above the trip temperature raises class 20. -/
def execTemperatureSample (s : State) : Host.Outcome State Fault Refusal :=
  let k := s.ev.core
  let t := s.ev.n % 4096
  let old := (s.core k).temp
  let s1 := s.modCore k fun (c : Core) => Core.heat { c with temp := t } (s.die (dieOf k)).thot
  if Config.tripTemp < t ∧ old ≤ Config.tripTemp then
    .next (s1.dieError 20 (dieOf k) (localOf k))
  else .next s1

/-! ## Scans and retirement (R17, R439, R440) -/

/-- Cluster of a core, package coordinates. -/
def clusterOf (k : Nat) : Nat × Nat := (coreRow k / 2, coreCol k / 2)

/-- DOLDRUMS_SCAN_START: core. It is marked and holds no team. -/
def execDoldrumsScanStart (s : State) : Host.Outcome State Fault Refusal :=
  let k := s.ev.core
  let c := s.core k
  if isFw k ∨ ¬ c.marked ∨ c.scan ≠ none ∨ c.teams ≠ [] then .next s
  else .next (s.modCore k fun (c : Core) => { c with scan := some (s.cycleOf k) })

/-- SCAN_COMPLETE: core, `n` 1 pass 0 fail. The 220,000 cycles have passed. -/
def execScanComplete (s : State) : Host.Outcome State Fault Refusal :=
  let k := s.ev.core
  let d := dieOf k
  match (s.core k).scan with
  | none => .next s
  | some t =>
    let s1 := s.modDie d fun x => { x with cycle := max x.cycle (t + 220000 - (s.core k).cycOff) }
    if s.ev.n = 1 then .next (s1.modCore k fun (c : Core) => { c with scan := none, charges := [], marked := false })
    else
      let q := clusterOf k
      let i := clusterIdx q.1 q.2
      let s2 := s1.logError (sevReset.getD 22 2) 22 true (some d) (some (localOf k)) none none 0
      .next ((s2.modCore k fun (c : Core) => { c with scan := none }).modDie d fun x =>
        { x with retiring := if x.retiring.contains i then x.retiring else x.retiring ++ [i] })

/-- A quad of a launch that aborts scans could go to a cluster (R440). -/
def State.wanted (s : State) (c : Nat × Nat) : Bool := s.launches.any fun p =>
  decide (p.2.phase = .running ∧ s.scanPri ≤ p.2.pri ∧ p.2.nextSeg < p.2.segs.length) && (p.2.spots p.2.nextSeg p.2.nextQuad).contains c

/-- SCAN_ABORT: core. It returns to use, still marked. -/
def execScanAbort (s : State) : Host.Outcome State Fault Refusal :=
  let k := s.ev.core
  if (s.core k).scan ≠ none ∧ s.wanted (clusterOf k) then .next (s.modCore k fun (c : Core) => { c with scan := none }) else .next s

/-- A core has threads, placed or on their way, that would form teams on it. -/
def State.expects (s : State) (k : Nat) : Bool :=
  let c := s.core k
  !c.bins.isEmpty || !c.formed.isEmpty || !c.placing.isEmpty || !c.tiles.isEmpty || s.flight.any fun m => decide (m.core = k)

/-- CLUSTER_MAP_UPDATE: die, `n` cluster. A retired cluster without teams, nor threads that would make one, is served by a spare, which one is open
(log 43), or is lost. -/
def execClusterMapUpdate (s : State) : Host.Outcome State Fault Refusal :=
  let d := s.ev.die
  let n := s.ev.n
  let x := s.die d
  let i := d / 2 * 4 + n / 8
  let j := d % 2 * 8 + n % 8
  let ks := (List.range 4).map (clusterCore i j)
  if 32 ≤ n ∨ ¬ x.retiring.contains n ∨ (ks.any fun k => (s.core k).teams ≠ [] ∨ s.expects k) then .next s
  else
    let spare := x.spares.getD ((Config.freeWord s.freeCtr).toNat % x.spares.length) 0
    let entry : Bool × Nat := match x.spares with | [] => (false, 0) | _ => (true, spare)
    let s1 := s.setDie d { x with clmap := x.clmap.set n entry, spares := x.spares.erase spare, retiring := x.retiring.filter (· ≠ n) }
    .next ((ks.foldl (fun s k => s.modCore k fun (c : Core) => { c with charges := [], marked := false, scan := none }) s1).drawn 1)

/-! ## Peers (R432) -/

/-- An inbound access of `n` bytes is refused. -/
def State.peerRefused (s : State) (o n : Nat) : Bool :=
  let a := s.pwBase * 65536 + o
  let hits (base size : Nat) : Bool := decide (a < (base + size) * 65536 ∧ base * 65536 < a + n)
  decide (s.pwSize * 65536 < o + n ∨ Config.hbmBytes < a + n) || hits s.stgBase s.stgSize || hits s.svBase s.svSize

/-- KAUSH_INBOUND_ACCESS. -/
def execKaushInboundAccess (acc : PeerAccess) (s : State) : Host.Outcome State Fault Refusal :=
  let n := match acc.data with | some bs => bs.length | none => acc.len
  let a := s.pwBase * 65536 + acc.offset
  if s.peerRefused acc.offset n then .next (s.logError (sevReset.getD 23 2) 23 true none none none none 0)
  else match acc.data with
    | some bs => .next (s.memApply a bs)
    | none => .next { s with peerOut := s.peerOut ++ [memRead s.hbm a n] }

/-! ## Attestation reports (R437) -/

/-- ATTESTATION_REQUEST. -/
def execAttestationRequest (req : AttRequest) (s : State) : Host.Outcome State Fault Refusal :=
  if req.kind = 1 ∨ req.kind = 2 then .next { s with attReqs := aput s.nextAtt req s.attReqs, nextAtt := s.nextAtt + 1 } else .next s

/-- A report's bytes 0 to 927. -/
def State.reportBody (s : State) (req : AttRequest) (r : Option Result) : List Byte :=
  let outs := match r with | some x => x.outs.flatMap fun o => natLe 2 o.1 ++ natLe 2 o.2.1 ++ natLe 4 0 ++ natLe 32 o.2.2.toNat | none => []
  let status := match r with | some x => x.status + x.runs * 256 + x.dies * 65536 | none => 0
  natLe 8 req.kind ++ natLe 32 req.nonce.toNat ++ natLe 32 Config.identityDigest.toNat ++ natLe 32 (Config.sm3 s.flash).toNat ++ natLe 8 s.faultSeq ++
    natLe 8 (if req.kind = 2 then req.tag.toNat else 0) ++ natLe 8 status ++
    (s.dies.flatMap fun d => natLe 8 d.wsGen ++ natLe 32 d.wsDigest.toNat) ++ outs ++ natLe (640 - outs.length) 0

/-- ATTESTATION_REPORT_WRITE: `n` request. A launch's report waits for its completion record; one for an unknown tag waits for good (log 44). -/
def execAttestationReportWrite (s : State) : Host.Outcome State Fault Refusal :=
  match alook s.ev.n s.attReqs with
  | none => .next s
  | some req =>
    let r := (s.results.filter fun x => x.tag = req.tag).getLast?
    if req.kind = 2 ∧ r = none then .next s
    else
      let body := s.reportBody req (if req.kind = 2 then r else none)
      let report := body ++ natLe 64 (Config.sm2Sign (Config.sm3 body)).toNat
      .next { s with sysMem := memWrite s.sysMem (req.addr.toNat % 2 ^ 47) report, attReqs := adel s.ev.n s.attReqs }

/-! ## Management (R441, R442) -/

/-- An answer on the SMBus. -/
def State.answer (s : State) (v : Nat) : State := { s with smbus := s.smbus ++ [v] }

/-- PKGLIM. -/
def execPkglim (write : Option Nat) (s : State) : Host.Outcome State Fault Refusal :=
  match write with
  | some w => .next { s with pkgLimit := min w Config.pkgLimMax }
  | none => .next (s.answer s.pkgLimit)

/-- DIELIM. -/
def execDielim (die : Nat) (write : Option Nat) (s : State) : Host.Outcome State Fault Refusal :=
  let d := min die 3
  match write with
  | some w => .next (s.modDie d fun x => { x with plim := min w Config.plimMax })
  | none => .next (s.answer (s.die d).plim)

/-- TEMPS: the four dies, then CK, whose reading is open (log 42). -/
def execTemps (s : State) : Host.Outcome State Fault Refusal :=
  let hot (d : Nat) : Nat := ((s.cores.filter fun c => dieOf c.1 = d).map fun c => c.2.temp).foldl max 0
  .next (((List.range 4).foldl (fun s d => s.answer (hot d)) s |>.answer ((Config.freeWord s.freeCtr).toNat % 4096)).drawn 1)

/-- An entry in 256 bits (R442). -/
def FaultEnt.bits (f : FaultEnt) : Nat :=
  let free (i : Nat) : Nat := (Config.faultField f.seq i).toNat
  let core := match f.core with | some 128 => Config.fwCoreCode.toNat | some c => c | none => free 1
  f.seq % 2 ^ 64 + f.cls * 2 ^ 128 + (if f.ck then 2 ^ 138 else 0) + f.die.getD (free 0) % 4 * 2 ^ 139 + core % 128 * 2 ^ 141
    + f.ctx.getD (free 2) % 4096 * 2 ^ 148 + f.detail.getD (free 3) % 2 ^ 32 * 2 ^ 160 + f.tag.toNat * 2 ^ 192

/-- FREAD: `n` command. LOST at 2^64 − 1; any other number is clamped to the entries held; with none held the answer is open (log 45). -/
def execFread (s : State) : Host.Outcome State Fault Refusal :=
  if s.ev.n = 2 ^ 64 - 1 then .next (s.answer s.faultLost)
  else match s.faultRec, s.faultRec.getLast? with
    | a :: _, some b =>
      let n := max a.seq (min s.ev.n b.seq)
      .next (s.answer (match s.faultRec.find? fun f => f.seq = n with | some f => f.bits | none => 0))
    | _, _ =>
      let w (i : Nat) : Nat := (Config.freeWord (s.freeCtr + i)).toNat * 2 ^ (32 * i)
      .next ((s.answer ((List.range 8).map w).sum).drawn 8)

/-- FACK: `n` SEQ. -/
def execFack (s : State) : Host.Outcome State Fault Refusal := .next { s with faultRec := s.faultRec.filter fun f => s.ev.n ≤ f.seq }

end Sys2Proof.Machine
end

