-- ==== Sys2Proof/Machine/Fetch.lean ====
section
/-!
DEFINITION. What a step does before an instruction runs: the scheduling item at the head of the agenda, the next ready gang of a way
(R327), and the fetch of an instruction's words (R68, R110, R405, R434, R463).
-/
namespace Sys2Proof.Machine

/-- What a step has come to: an instruction or event to perform, or a state already reached. -/
inductive Plan where
  | run (i : Instr) (s : State)
  | reached (s : State)
  deriving DecidableEq, Repr

/-- Why a fetch stops: a trap's reason (R405), or a page that must be walked, since no translation is cached or the cached one does
not allow the fetch. -/
inductive FetchStop where
  | trap (reason : Nat)
  | walk (va : Nat)
  deriving DecidableEq, Repr

/-- The word at a physical address as a core fetches it: what it has fetched ahead for the launch, else the home's bytes (R463). -/
def State.instrWord (s : State) (k : Nat) (uid : Option Nat) (pa : Nat) : Word :=
  ((s.core k).ahead.find? fun a => a.1 = (uid, pa)).elim (BitVec.ofNat 32 (memNat s.hbm pa 4)) (·.2)

/-- One word at an address (R463). -/
def fetchWord (s : State) (k : Nat) (p : Party) (va : Nat) : Except FetchStop Word :=
  if s.physical p then
    if Config.hbmBytes ≤ va then .error (.trap 5) else .ok (s.instrWord k p.uid va)
  else if ¬ canonical va then .error (.trap 5)
  else if sysAddr va then .error (.trap 6)
  else match translate s p va 3 with
    | .miss => .error (.walk va)
    | .fault _ => .error (.walk va)
    | .hit h => match h.place with
      | .mem pa => .ok (s.instrWord k p.uid pa)
      | _ => .error (.trap 6)

/-- `n` words from an address. -/
def fetchWords (s : State) (k : Nat) (p : Party) : Nat → Nat → Except FetchStop (List Word)
  | 0, _ => .ok []
  | n + 1, va => match fetchWord s k p va with
    | .error x => .error x
    | .ok w => match fetchWords s k p n ((va + 4) % 2 ^ 64) with
      | .error x => .error x
      | .ok ws => .ok (w :: ws)

/-- Every word that LEN announces, before anything else is examined (R68). -/
def fetchAll (s : State) (k : Nat) (p : Party) (va : Nat) : Except FetchStop (Word × List Word) :=
  match fetchWord s k p va with
  | .error x => .error x
  | .ok w0 => match fetchWords s k p (lenWords w0 - 1) ((va + 4) % 2 ^ 64) with
    | .error x => .error x
    | .ok ws => .ok (w0, ws)

/-- A gang whose stall allows it can issue (R327, R406): no handler of its warp runs without it, its core runs, its team is not being saved
(R422; it runs on while the pool has too few frames, R423). -/
def State.runs (s : State) (k slot g : Nat) (free : Wait) : Bool :=
  let c := s.core k
  match alook slot c.warps with
  | none => false
  | some w => match w.gang? g with
    | none => false
    | some x =>
      let mine : Bool := match w.handler with | some h => h.1.contains g | none => true
      let held : Bool := match alook w.team c.teams with
        | some t => t.saving && w.handler.isNone && s.saveFits k w.team
        | none => true
      decide (x.wait = free) && mine && !c.inReset && !c.halted && !held

/-- A gang is ready: nothing stalls it (R327). -/
def State.ready (s : State) (k slot g : Nat) : Bool := s.runs k slot g .ready
/-- A gang whose stalled instruction tries again whether it can proceed. -/
def State.polls (s : State) (k slot g : Nat) : Bool := s.runs k slot g .retry

/-- Gangs resident on a way. -/
def State.wayGangs (s : State) (k way : Nat) : List (Nat × Nat) := (s.core k).order.filter fun p => p.1 % 8 = way

/-- Starts of its way that a gang has been kept waiting for. -/
def State.waitedOf (s : State) (k : Nat) (p : Nat × Nat) : Nat := (((s.warp? k p.1).bind fun w => w.gang? p.2).map (·.waited)).getD 0

/-- With G gangs resident on the way, every ready gang can still start within 2 × G starts when this one starts now (R327): the starts left
to the others, and that no `j` starts are owed to more than `j` of them. -/
def State.fair (s : State) (k slot g : Nat) : Bool :=
  let gs := s.wayGangs k (slot % 8)
  let left := (gs.filter fun p => p ≠ (slot, g) ∧ s.ready k p.1 p.2).map fun p => (2 * gs.length : Int) - 1 - s.waitedOf k p
  (List.range (2 * gs.length)).all fun j => ((left.filter fun d => d ≤ (j : Int)).length ≤ j)

/-- A gang may issue: it is ready and no other is kept waiting too long, or its stalled instruction tries again. -/
def State.mayIssue (s : State) (k slot g : Nat) : Bool := (s.ready k slot g && s.fair k slot g) || s.polls k slot g

/-- A gang issues: the other ready gangs of its way are kept waiting (R327), and an instruction that stalled has paid for its way (R326). `pace`
bounds the accesses that it performs in this step. -/
def State.starting (s : State) (pace : Option Nat) (k slot g : Nat) : State :=
  let again := s.polls k slot g
  ({ s with pace := pace } : State).modCore k fun (c : Core) => { c with
    polling := again
    warps := if again then c.warps else c.warps.map fun p => if p.1 % 8 = slot % 8 then
      (p.1, { p.2 with gangs := p.2.gangs.map fun (x : Gang) =>
        if (p.1, x.id) = (slot, g) then { x with waited := 0 } else if s.ready k p.1 x.id then { x with waited := x.waited + 1 } else x }) else p }

/-- The first instruction of a warp sets its floor (R173). -/
def State.startWarp (s : State) (k slot : Nat) : State :=
  let now := s.cycleOf k
  s.modWarp k slot fun w => if w.started then w else { w with started := true, floor := now }

/-- Fetch and decode for the focus gang. -/
def fetchFocus (pace : Option Nat) (s0 : State) : Plan :=
  let k := s0.focus.1
  let slot := s0.focus.2.1
  let g := s0.focus.2.2
  let s := (s0.starting pace k slot g).startWarp k slot
  match s.env? with
  | none => .reached s
  | some e =>
    let p := Env.party s e
    match fetchAll s k p e.pc.toNat with
    | .ok (w0, ws) => match decodeWords e.super w0 ws with
      | .instr i _ => .run i s
      | .illegal d => .run (.illegalInstruction d) s
    | .error (.trap r) => .run (.instructionFetchFault r) s
    | .error (.walk va) => .reached ((s.addWalk p.die p.ctx va).modGang k slot g fun x => { x with wait := .fetch va none })

/-- Cycles pass on a die. -/
def State.tick (s : State) (d n : Nat) : State := s.modDie d fun x => { x with cycle := x.cycle + n }

/-- The next gang of a way that may issue, in the way's order; it goes to the back (R327). -/
def State.wayNext (s : State) (k way : Nat) : Option (Nat × Nat) :=
  (s.core k).order.find? fun p => p.1 % 8 = way ∧ s.mayIssue k p.1 p.2

/-- A gang issues. When others of its way have waited too long, the way's next goes instead; when it is not ready, what a freed entry or an
emptied buffer lets go on does, and one cycle passes on its die. -/
def State.issue (s : State) (pace : Option Nat) (k slot g : Nat) : Plan :=
  if s.mayIssue k slot g then fetchFocus pace { s with focus := (k, slot, g) }
  else match s.ready k slot g, s.wayNext k (slot % 8) with
    | true, some p => fetchFocus pace { s with focus := (k, p.1, p.2) }
    | _, _ => .reached ((s.wakeCore k).tick (dieOf k) 1)

/-- An event row: no encoding, and not one of the two fates of a fetch. -/
def isEventRow (i : Instr) : Bool :=
  match i with
  | .illegalInstruction _ => false
  | .instructionFetchFault _ => false
  | _ => i.code.isNone

/-- A page of a context is walked and its translation cached; faults are not (R107). -/
def State.tlbFill (s : State) (die ctx page : Nat) : State :=
  match walk s die ctx (ext57 (page * 4096)) with
  | .ok t => s.cache die t
  | .error _ => s

/-- A die's TLBs among which an access may hit: translation `n` is set aside, or one set aside comes in front. -/
def Die.tlbAside (d : Die) (n : Nat) : Die := match d.tlb[n]? with | some t => { d with tlb := d.tlb.eraseIdx n, tlbOther := d.tlbOther ++ [t] } | none => d
def Die.tlbBack (d : Die) (n : Nat) : Die := match d.tlbOther[n]? with | some t => { d with tlb := t :: d.tlb, tlbOther := d.tlbOther.eraseIdx n } | none => d

/-- A word fetched ahead for a running launch, or for a firmware core (R463). -/
def State.fetchAhead (s : State) (k : Nat) (uid : Option Nat) (pa : Nat) : State :=
  let runs : Bool := match uid with | some u => (match s.launch u with | some l => decide (l.phase = .running) | none => false) | none => isFw k
  if runs then s.modCore k fun (c : Core) => { c with ahead := ((uid, pa), BitVec.ofNat 32 (memNat s.hbm pa 4)) :: c.ahead.filter fun a => a.1 ≠ (uid, pa) } else s
def State.fetchDrop (s : State) (k : Nat) (uid : Option Nat) (pa : Nat) : State :=
  s.modCore k fun (c : Core) => { c with ahead := c.ahead.filter fun a => a.1 ≠ (uid, pa) }

/-- What the step does next. -/
def State.plan (s : State) : Plan :=
  match s.agenda with
  | [] => s.issue none s.focus.1 s.focus.2.1 s.focus.2.2
  | .event i a :: rest =>
    let s1 := { s with agenda := rest, ev := a }
    if isEventRow i then .run i s1 else .reached s1
  | .issue k slot g :: rest => { s with agenda := rest }.issue none k slot g
  | .paced k slot g n :: rest => { s with agenda := rest }.issue (some n) k slot g
  | .way k way :: rest =>
    let s1 := { s with agenda := rest }
    match s1.wayNext k way with
    | none => .reached ((s1.wakeCore k).tick (dieOf k) 1)
    | some p => (s1.modCore k fun (c : Core) => { c with order := c.order.filter (· ≠ p) ++ [p] }).issue none k p.1 p.2
  | .tick d n :: rest => .reached ({ s with agenda := rest }.tick d n)
  | .tlbWalk d c page :: rest => .reached ({ s with agenda := rest }.tlbFill d c page)
  | .tlbAside d n :: rest => .reached ({ s with agenda := rest }.modDie d fun x => x.tlbAside n)
  | .tlbBack d n :: rest => .reached ({ s with agenda := rest }.modDie d fun x => x.tlbBack n)
  | .fetchAhead k u pa :: rest => .reached ({ s with agenda := rest }.fetchAhead k u pa)
  | .fetchDrop k u pa :: rest => .reached ({ s with agenda := rest }.fetchDrop k u pa)
  | .bindEarly k id d n :: rest => .reached ({ s with agenda := rest }.bindEarly k id d n)

/-- Memory with `n` zero-extended words of `w` at physical 0. -/
def putWord (m : List Host.Cell) (w : Nat) : List Host.Cell := memWrite m 0 (natLe 20 w)

end Sys2Proof.Machine
end

