-- ==== Sys2Proof/Machine/Float.lean ====
section
/-!
DEFINITION. Floating arithmetic (R266, R267, R270, R272 to R275).
-/
namespace Sys2Proof.Machine

/-- R266: A + B (C32) -/
def execFaddC32 (x : C32R) (s : State) : Host.Outcome State Fault Refusal := floatAlu s 0x80 .add 2 (x.op 5)
/-- R266: A + B -/
def execFadd (x : Long) (s : State) : Host.Outcome State Fault Refusal := floatAlu s 0x80 .add 2 (x.op 5)
/-- R266: A − B (C32) -/
def execFsubC32 (x : C32R) (s : State) : Host.Outcome State Fault Refusal := floatAlu s 0x81 .sub 2 (x.op 5)
/-- R266: A − B -/
def execFsub (x : Long) (s : State) : Host.Outcome State Fault Refusal := floatAlu s 0x81 .sub 2 (x.op 5)
/-- R266: A × B (C32) -/
def execFmulC32 (x : C32R) (s : State) : Host.Outcome State Fault Refusal := floatAlu s 0x82 .mul 2 (x.op 5)
/-- R266: A × B -/
def execFmul (x : Long) (s : State) : Host.Outcome State Fault Refusal := floatAlu s 0x82 .mul 2 (x.op 5)
/-- R266: A × B + C, one rounding -/
def execFma (x : Long) (s : State) : Host.Outcome State Fault Refusal := floatAlu s 0x83 .fma 3 (x.op 0)
/-- R267: the lesser (C32) -/
def execFminC32 (x : C32R) (s : State) : Host.Outcome State Fault Refusal := floatAlu s 0x84 .fmin 2 (x.op 5)
/-- R267: the lesser -/
def execFmin (x : X96) (s : State) : Host.Outcome State Fault Refusal := floatAlu s 0x84 .fmin 2 x.op
/-- R267: the greater (C32) -/
def execFmaxC32 (x : C32R) (s : State) : Host.Outcome State Fault Refusal := floatAlu s 0x85 .fmax 2 (x.op 5)
/-- R267: the greater -/
def execFmax (x : X96) (s : State) : Host.Outcome State Fault Refusal := floatAlu s 0x85 .fmax 2 x.op
/-- R272: class mask -/
def execFclass (x : X96) (s : State) : Host.Outcome State Fault Refusal := floatAlu s 0x87 .cls 1 x.op
/-- R270: sign cleared (C32) -/
def execFabsC32 (x : C32R) (s : State) : Host.Outcome State Fault Refusal := floatAlu s 0x88 .fabs 1 (x.op 5)
/-- R270: sign cleared -/
def execFabs (x : X96) (s : State) : Host.Outcome State Fault Refusal := floatAlu s 0x88 .fabs 1 x.op
/-- R270: sign inverted (C32) -/
def execFnegC32 (x : C32R) (s : State) : Host.Outcome State Fault Refusal := floatAlu s 0x89 .fneg 1 (x.op 5)
/-- R270: sign inverted -/
def execFneg (x : X96) (s : State) : Host.Outcome State Fault Refusal := floatAlu s 0x89 .fneg 1 x.op
/-- R270: sign copied, negated or combined -/
def execFsgn (x : X96) (s : State) : Host.Outcome State Fault Refusal := floatAlu s 0x8A .sgn 2 x.op
/-- R273: integral value -/
def execFrnd (x : X96) (s : State) : Host.Outcome State Fault Refusal := floatAlu s 0x8B .rnd 1 x.op
/-- R273: A × 2^B -/
def execFscale (x : X96) (s : State) : Host.Outcome State Fault Refusal := floatAlu s 0x8C .scale 2 x.op
/-- R273: floor(log2 |A|) -/
def execFlogb (x : X96) (s : State) : Host.Outcome State Fault Refusal := floatAlu s 0x8D .logb 1 x.op
/-- R274: A ÷ B -/
def execFdiv (x : X96) (s : State) : Host.Outcome State Fault Refusal := floatAlu s 0x94 .div 2 x.op
/-- R274: √A -/
def execFsqrt (x : X96) (s : State) : Host.Outcome State Fault Refusal := floatAlu s 0x95 .sqrt 1 x.op
/-- R274: 1 ÷ A -/
def execFrcp (x : X96) (s : State) : Host.Outcome State Fault Refusal := floatAlu s 0x96 .rcp 1 x.op
/-- R274: 1 ÷ √A -/
def execFrsq (x : X96) (s : State) : Host.Outcome State Fault Refusal := floatAlu s 0x97 .rsq 1 x.op
/-- R274: e^A -/
def execFexp (x : X96) (s : State) : Host.Outcome State Fault Refusal := floatAlu s 0x98 .exp 1 x.op
/-- R274: e^A − 1 -/
def execFexpm1 (x : X96) (s : State) : Host.Outcome State Fault Refusal := floatAlu s 0x99 .expm1 1 x.op
/-- R274: ln A -/
def execFlog (x : X96) (s : State) : Host.Outcome State Fault Refusal := floatAlu s 0x9A .log 1 x.op
/-- R274: ln(1 + A) -/
def execFlog1p (x : X96) (s : State) : Host.Outcome State Fault Refusal := floatAlu s 0x9B .log1p 1 x.op
/-- R274: erf A -/
def execFerf (x : X96) (s : State) : Host.Outcome State Fault Refusal := floatAlu s 0x9C .erf 1 x.op
/-- R274: erfc A -/
def execFerfc (x : X96) (s : State) : Host.Outcome State Fault Refusal := floatAlu s 0x9D .erfc 1 x.op

end Sys2Proof.Machine
end

