-- ==== Sys2Proof/Machine/Integer.lean ====
section
/-!
DEFINITION. Integer arithmetic (R242, R244, R245).
-/
namespace Sys2Proof.Machine

/-- R242: Fit(A + B) (C32) -/
def execIaddC32 (x : C32R) (s : State) : Host.Outcome State Fault Refusal := intAlu s 0x20 .iadd 2 false (x.op 1)
/-- R242: Fit(A + B) -/
def execIadd (x : Long) (s : State) : Host.Outcome State Fault Refusal := intAlu s 0x20 .iadd 2 false (x.op 1)
/-- R242: Fit(A − B) (C32) -/
def execIsubC32 (x : C32R) (s : State) : Host.Outcome State Fault Refusal := intAlu s 0x21 .isub 2 false (x.op 1)
/-- R242: Fit(A − B) -/
def execIsub (x : Long) (s : State) : Host.Outcome State Fault Refusal := intAlu s 0x21 .isub 2 false (x.op 1)
/-- R244: Fit(A × B) (C32) -/
def execImulC32 (x : C32R) (s : State) : Host.Outcome State Fault Refusal := intAlu s 0x24 .imul 2 false (x.op 1)
/-- R244: Fit(A × B) -/
def execImul (x : Long) (s : State) : Host.Outcome State Fault Refusal := intAlu s 0x24 .imul 2 false (x.op 1)
/-- R244: floor(A × B ÷ 2^w) (C32) -/
def execImulhC32 (x : C32R) (s : State) : Host.Outcome State Fault Refusal := intAlu s 0x25 .imulh 2 false (x.op 1)
/-- R244: floor(A × B ÷ 2^w) -/
def execImulh (x : X96) (s : State) : Host.Outcome State Fault Refusal := intAlu s 0x25 .imulh 2 false x.op
/-- R244: A × B in 2w bits -/
def execImulw (x : X96) (s : State) : Host.Outcome State Fault Refusal := intAlu s 0x26 .imulw 2 false x.op
/-- R244: Fit(A × B + C) -/
def execImad (x : Long) (s : State) : Host.Outcome State Fault Refusal := intAlu s 0x27 .imad 3 false (x.op 0)
/-- R245: trunc(A ÷ B) -/
def execIdiv (x : X96) (s : State) : Host.Outcome State Fault Refusal := intAlu s 0x28 .idiv 2 false x.op
/-- R245: A − B × trunc(A ÷ B) -/
def execIrem (x : X96) (s : State) : Host.Outcome State Fault Refusal := intAlu s 0x29 .irem 2 false x.op
/-- R242: Fit(−A) (C32) -/
def execInegC32 (x : C32R) (s : State) : Host.Outcome State Fault Refusal := intAlu s 0x2A .ineg 1 false (x.op 1)
/-- R242: Fit(−A) -/
def execIneg (x : X96) (s : State) : Host.Outcome State Fault Refusal := intAlu s 0x2A .ineg 1 false x.op
/-- R242: Fit(|A|) (C32) -/
def execIabsC32 (x : C32R) (s : State) : Host.Outcome State Fault Refusal := intAlu s 0x2B .iabs 1 false (x.op 1)
/-- R242: Fit(|A|) -/
def execIabs (x : X96) (s : State) : Host.Outcome State Fault Refusal := intAlu s 0x2B .iabs 1 false x.op
/-- R242: the lesser (C32) -/
def execIminC32 (x : C32R) (s : State) : Host.Outcome State Fault Refusal := intAlu s 0x2C .imin 2 false (x.op 1)
/-- R242: the lesser -/
def execImin (x : Long) (s : State) : Host.Outcome State Fault Refusal := intAlu s 0x2C .imin 2 false (x.op 1)
/-- R242: the greater (C32) -/
def execImaxC32 (x : C32R) (s : State) : Host.Outcome State Fault Refusal := intAlu s 0x2D .imax 2 false (x.op 1)
/-- R242: the greater -/
def execImax (x : Long) (s : State) : Host.Outcome State Fault Refusal := intAlu s 0x2D .imax 2 false (x.op 1)
/-- R242: Fit(|A − B| + C) -/
def execIsad (x : X96) (s : State) : Host.Outcome State Fault Refusal := intAlu s 0x2E .isad 3 false x.op
/-- R242: min(max(A, B), C) -/
def execIclamp (x : Long) (s : State) : Host.Outcome State Fault Refusal := intAlu s 0x2F .iclamp 3 false (x.op 0)
/-- R244: Fit(C + Σ a_i × b_i) -/
def execIdot (x : X96) (s : State) : Host.Outcome State Fault Refusal := intAlu s 0x30 .idot 3 false x.op

end Sys2Proof.Machine
end

