-- ==== Sys2Proof/Machine/Logic.lean ====
section
/-!
DEFINITION. Logic, shifts and bit fields (R246 to R250).
-/
namespace Sys2Proof.Machine

/-- R246: A AND B (C32) -/
def execAndC32 (x : C32R) (s : State) : Host.Outcome State Fault Refusal := intAlu s 0x34 .land 2 false (x.op 0)
/-- R246: A AND B -/
def execAnd (x : Long) (s : State) : Host.Outcome State Fault Refusal := intAlu s 0x34 .land 2 false (x.op 0)
/-- R246: A OR B (C32) -/
def execOrC32 (x : C32R) (s : State) : Host.Outcome State Fault Refusal := intAlu s 0x35 .lor 2 false (x.op 0)
/-- R246: A OR B -/
def execOr (x : Long) (s : State) : Host.Outcome State Fault Refusal := intAlu s 0x35 .lor 2 false (x.op 0)
/-- R246: A XOR B (C32) -/
def execXorC32 (x : C32R) (s : State) : Host.Outcome State Fault Refusal := intAlu s 0x36 .lxor 2 false (x.op 0)
/-- R246: A XOR B -/
def execXor (x : Long) (s : State) : Host.Outcome State Fault Refusal := intAlu s 0x36 .lxor 2 false (x.op 0)
/-- R246: NOT A (C32) -/
def execNotC32 (x : C32R) (s : State) : Host.Outcome State Fault Refusal := intAlu s 0x37 .lnot 1 false (x.op 0)
/-- R246: NOT A -/
def execNot (x : X96) (s : State) : Host.Outcome State Fault Refusal := intAlu s 0x37 .lnot 1 false x.op
/-- R246: A AND NOT B (C32) -/
def execAndnC32 (x : C32R) (s : State) : Host.Outcome State Fault Refusal := intAlu s 0x38 .landn 2 false (x.op 0)
/-- R246: A AND NOT B -/
def execAndn (x : Long) (s : State) : Host.Outcome State Fault Refusal := intAlu s 0x38 .landn 2 false (x.op 0)
/-- R246: a three-input function by table -/
def execTern (x : X96) (s : State) : Host.Outcome State Fault Refusal := intAlu s 0x39 .tern 3 false x.op
/-- R247: shift left (C32) -/
def execShlC32 (x : C32R) (s : State) : Host.Outcome State Fault Refusal := intAlu s 0x3A .shl 2 true (x.op 0)
/-- R247: shift left -/
def execShl (x : X96) (s : State) : Host.Outcome State Fault Refusal := intAlu s 0x3A .shl 2 true x.op
/-- R247: shift right (C32) -/
def execShrC32 (x : C32R) (s : State) : Host.Outcome State Fault Refusal := intAlu s 0x3B .shr 2 true (x.op 0)
/-- R247: shift right -/
def execShr (x : X96) (s : State) : Host.Outcome State Fault Refusal := intAlu s 0x3B .shr 2 true x.op
/-- R247: shift right with sign fill (C32) -/
def execSarC32 (x : C32R) (s : State) : Host.Outcome State Fault Refusal := intAlu s 0x3C .sar 2 true (x.op 0)
/-- R247: shift right with sign fill -/
def execSar (x : X96) (s : State) : Host.Outcome State Fault Refusal := intAlu s 0x3C .sar 2 true x.op
/-- R247: rotate left (C32) -/
def execRolC32 (x : C32R) (s : State) : Host.Outcome State Fault Refusal := intAlu s 0x3D .rol 2 true (x.op 0)
/-- R247: rotate left -/
def execRol (x : X96) (s : State) : Host.Outcome State Fault Refusal := intAlu s 0x3D .rol 2 true x.op
/-- R247: funnel shift -/
def execFuns (x : X96) (s : State) : Host.Outcome State Fault Refusal := intAlu s 0x3E .funs 3 true x.op
/-- R248: field extract -/
def execBfx (x : X96) (s : State) : Host.Outcome State Fault Refusal := intAlu s 0x3F .bfx 2 true x.op
/-- R248: field insert -/
def execBfi (x : X96) (s : State) : Host.Outcome State Fault Refusal := intAlu s 0x40 .bfi 3 true x.op
/-- R249: bits reversed (C32) -/
def execBrevC32 (x : C32R) (s : State) : Host.Outcome State Fault Refusal := intAlu s 0x41 .brev 1 false (x.op 0)
/-- R249: bits reversed -/
def execBrev (x : X96) (s : State) : Host.Outcome State Fault Refusal := intAlu s 0x41 .brev 1 false x.op
/-- R249: bytes permuted -/
def execBperm (x : X96) (s : State) : Host.Outcome State Fault Refusal := intAlu s 0x42 .bperm 3 true x.op
/-- R249: count of 1 bits (C32) -/
def execPopcC32 (x : C32R) (s : State) : Host.Outcome State Fault Refusal := intAlu s 0x43 .popc 1 false (x.op 0)
/-- R249: count of 1 bits -/
def execPopc (x : X96) (s : State) : Host.Outcome State Fault Refusal := intAlu s 0x43 .popc 1 false x.op
/-- R249: leading zeros (C32) -/
def execClzC32 (x : C32R) (s : State) : Host.Outcome State Fault Refusal := intAlu s 0x44 .clz 1 false (x.op 0)
/-- R249: leading zeros -/
def execClz (x : X96) (s : State) : Host.Outcome State Fault Refusal := intAlu s 0x44 .clz 1 false x.op
/-- R249: trailing zeros (C32) -/
def execCtzC32 (x : C32R) (s : State) : Host.Outcome State Fault Refusal := intAlu s 0x45 .ctz 1 false (x.op 0)
/-- R249: trailing zeros -/
def execCtz (x : X96) (s : State) : Host.Outcome State Fault Refusal := intAlu s 0x45 .ctz 1 false x.op
/-- R250: a narrow value extended -/
def execIext (x : X96) (s : State) : Host.Outcome State Fault Refusal := intAlu s 0x46 .iext 1 false x.op

end Sys2Proof.Machine
end

