-- ==== Sys2Proof/Machine/Merge.lean ====
section
/-!
DEFINITION. The steps that end a stall of control flow: SLEEP_EXPIRY (R343), REGANG_MERGE (R341) and REGROUP_FUSION (R342, R210).
-/
namespace Sys2Proof.Machine

/-- SLEEP_EXPIRY: core, warp, gang. The die's cycle reaches the end of the sleep. -/
def execSleepExpiry (s : State) : Host.Outcome State Fault Refusal :=
  let a := s.ev
  match s.envOf a.core a.warp a.gang with
  | none => .next s
  | some e => match e.gang.wait with
    | .sleep till => .next ((e.stall .ready s).modDie (dieOf a.core) fun d => { d with cycle := max d.cycle till })
    | _ => .next s

/-! ## REGANG -/

/-- Address and mask of a gang stalled at REGANG. -/
def Warp.atRegang (w : Warp) (g : Nat) : Option (DWord × Nat × Nat) :=
  match w.gang? g with
  | some x => (match x.wait with | .regang m len => some (w.pcOf g, m, len) | _ => none)
  | none => none

/-- The gangs become gang `g`, ordered after all that each did (R189 edge 2). -/
def Warp.mergeGangs (w : Warp) (g : Nat) (gs : List Nat) : Warp :=
  let c := gs.foldl (fun c h => match w.gang? h with | some x => Clock.join c x.publish.1 | none => c) []
  let w := { w with
    slices := w.slices.map fun (x : Slice) => if gs.contains x.gang then { x with gang := g } else x
    gangs := w.gangs.filter fun x => x.id = g ∨ ¬ gs.contains x.id }
  w.modGang g fun x => x.publish.2.after c

/-- Gangs of a warp, the one whose instruction was issued first at the head (R327, R406 item 2). -/
def State.issuedFirst (s : State) (k slot : Nat) (gs : List Nat) : List Nat :=
  (((s.core k).order.filterMap fun p => if p.1 = slot ∧ gs.contains p.2 then some p.2 else none) ++ gs).eraseDups

/-- REGANG_MERGE: core, warp, gang. Every live slice that the mask names stands at a REGANG: they merge, or trap on a mismatch,
where the trap delivered is that of the REGANG issued first (R406 item 2, log 79). -/
def execRegangMerge (s : State) : Host.Outcome State Fault Refusal :=
  let k := s.ev.core
  let slot := s.ev.warp
  match s.envOf k slot s.ev.gang with
  | none => .next s
  | some e => match e.warp.atRegang e.gid with
    | none => .next s
    | some (pc, mask, len) =>
      let named := (List.range 8).filter fun i => mask.testBit i && e.warp.sliceLive i
      let gs := (named.map fun i => (e.warp.slice i).gang).eraseDups
      let at' := gs.map e.warp.atRegang
      if at'.any (·.isNone) then .next s
      else if at'.all fun x => match x with | some y => decide (y.1 = pc ∧ y.2.1 = mask) | none => false then
        let w := e.warp.mergeGangs e.gid gs
        .next ((s.modWarp k slot fun _ => w).retire k slot e.gid pc len)
      else .next ((s.issuedFirst k slot gs).foldl (fun s g =>
        match s.envOf k slot g with
        | some x => s.takeTrap k slot g (ctlTrap x 3) len
        | none => s) s)

/-! ## REGROUP -/

/-- What a warp stalled at REGROUP waits for: partner, predicate, length. -/
def Warp.atRegroup (w : Warp) : Option (Gang × Nat × Nat × Nat) :=
  w.gangs.findSome? fun g => match g.wait with | .regroup p d len => some (g, p, d, len) | _ => none

/-- Numbers of the live lanes. -/
def Warp.liveLanes (w : Warp) : List Nat := (List.range 32).filter fun i => (w.lane i).live

/-- The survivor of two warps whose gangs `gl` and `gh` stand at REGROUP: live threads of the lower, then of the higher (R342, R210); its
next instruction sets its floor as a first one does (R173). -/
def fuse (lo hi : Warp) (gl gh : Gang) (pc : DWord) (pd len : Nat) : Warp :=
  let la := lo.liveLanes
  let lb := hi.liveLanes
  let pad (n : Nat) : List Lane := List.replicate n {}
  let mark (l : Lane) : Lane := if l.exec then { l with preds := l.preds.set pd { v := .t } } else l
  let lanes := la.map (fun i => mark (lo.lane i)) ++ lb.map fun i => mark (hi.lane i)
  let names := (lo.vregs.map (·.1) ++ hi.vregs.map (·.1)).eraseDups
  let next := pc + BitVec.ofNat 64 len
  { lo with
    lanes := lanes ++ pad (32 - lanes.length)
    slices := List.replicate 8 { pc := next, gang := gl.id }
    gangs := [{ gl.publish.2.after gh.publish.1 with wait := .ready, skip := 0 }]
    vregs := names.foldl (fun m n => aput n ((la.map (lo.vec n) ++ lb.map (hi.vec n)) ++ List.replicate (32 - lanes.length) {}) m) []
    opbuf := []
    started := false }

/-- The warp goes on from its REGROUP with the predicate 0. -/
def State.regroupFails (s : State) (k slot : Nat) : State :=
  match s.warp? k slot with
  | none => s
  | some w => match w.atRegroup with
    | none => s
    | some (g, _, d, len) => match s.envOf k slot g.id with
      | none => s
      | some e => e.done len (e.setPred s d false)

/-- REGROUP_FUSION: core, warp. The rest of R342's order: partner gone, rendezvous, too many threads, fusion. -/
def execRegroupFusion (s : State) : Host.Outcome State Fault Refusal :=
  let k := s.ev.core
  let slot := s.ev.warp
  match s.warp? k slot with
  | none => .next s
  | some w => match w.atRegroup with
    | none => .next s
    | some (g, partner, pd, len) => match (s.core k).partner w.team partner with
      | none => .next (s.regroupFails k slot)
      | some (slot', w') => match w'.atRegroup with
        | none => .next s
        | some (g', back, _, len') =>
          let pc := w.pcOf g.id
          let trap (s : State) (sl gg n : Nat) : State := match s.envOf k sl gg with
            | some x => s.takeTrap k sl gg (ctlTrap x 4) n
            | none => s
          if back ≠ w.warpId ∨ w'.pcOf g'.id ≠ pc then .next (trap (trap s slot g.id len) slot' g'.id len')
          else
            let width := match s.envOf k slot g.id with | some e => e.w | none => Config.warpWidth
            if width < w.liveLanes.length + w'.liveLanes.length then .next ((s.regroupFails k slot).regroupFails k slot')
            else
              let low := decide (w.warpId < w'.warpId)
              let x := if low then fuse w w' g g' pc pd len else fuse w' w g' g pc pd len
              let keep := if low then slot else slot'
              let gone := if low then slot' else slot
              -- the retiring warp's vectors are released (R207, R210)
              let share (t : Team) : Nat := t.n * (match t.uid.bind s.launch with | some l => if l.mirrored then 2 else 1 | none => 1)
              let s := s.modTeam k w.team fun t => { t with vectors := t.vectors - share t }
              .next (s.modCore k fun (c : Core) =>
                ({ c with warps := aput keep x (adel gone c.warps), order := c.order.filter fun p => p.1 ≠ gone }).tidyWarp keep)

end Sys2Proof.Machine
end

