-- ==== Sys2Proof/Machine/Preempt.lean ====
section
/-!
DEFINITION. Pre-emption (R420 to R424, R345, R155, R309): discard, drain, save and restore of a team.
-/
namespace Sys2Proof.Machine

/-! ## Asking for a pre-emption -/

/-- PREEMPT_SAVE: core, `n` slot. -/
def execPreemptSave (s : State) : Host.Outcome State Fault Refusal := .next (s.askSave s.ev.core s.ev.n)
/-- PREEMPT_DRAIN: core, `n` slot. -/
def execPreemptDrain (s : State) : Host.Outcome State Fault Refusal := .next (s.askDrain s.ev.core s.ev.n)
/-- PREEMPT_DISCARD: core, `n` slot. -/
def execPreemptDiscard (s : State) : Host.Outcome State Fault Refusal := .next (s.askDiscard s.ev.core s.ev.n)

/-- A PREEMPT write on a die (R421). -/
def State.preemptWrite (s : State) (die v : Nat) : State :=
  let k := die * 256 + bitsOf v 6 0
  let slot := bitsOf v 13 8
  if bitsOf v 31 18 ≠ 0 ∨ bitsOf v 15 14 ≠ 0 ∨ v.testBit 7 then s
  else match bitsOf v 17 16 with
    | 0 => s.askSave k slot
    | 1 => s.askDrain k slot
    | 2 => s.askDiscard k slot
    | _ => s

/-! ## Save -/

/-- Warp slots of a team, ascending. -/
def Core.teamWarps (c : Core) (slot : Nat) : List Nat := (c.warps.filter fun w => w.2.team = slot).map (·.1)

/-- An atomic of the gang has been sent and has not returned (R129). -/
def Gang.atomSent (g : Gang) : Bool := match g.wait with | .mem m => m.accs.any fun a => a.xch ≠ none | _ => false

/-- The team can be saved now: no handler runs, no task of it runs or waits for entries of OB that stood at its entry (R186), nor a pair task on its core from its leader, its entries of OB have
left, its ended tiles have been placed, and the pool has room (R422, R309, R424). -/
def State.saveReady (s : State) (k slot : Nat) (t : Team) : Bool :=
  let c := s.core k
  let ws := c.teamWarps slot
  t.saving && t.uid.isSome && !t.ending && s.saveFits k slot &&
  c.warps.all (fun w => decide (w.2.team ≠ slot) || w.2.handler.isNone) &&
  !(c.tasks.any fun x => decide (x.2.slot = slot) && (decide (x.2.state = .running) || !x.2.released c)) &&
  !(!isFw k && decide (2 ≤ posOf k) && (s.core (corePeer k (posOf k - 2))).arrayBusy true) &&
  !(c.ob.any fun q => decide (t.uid = some q.uid ∧ q.slot = slot)) && !(c.warps.any fun w => decide (w.2.team = slot) && w.2.gangs.any Gang.atomSent) && !(c.tiles.any fun x => ws.contains x.2.warp)

/-- A gang as its save holds it: an instruction under way issues again after the restore, for the threads that had not completed
(R220, R345, R422); tasks name their warp by its place among the team's. -/
def Gang.saved (place : Nat → Nat) (g : Gang) : Gang :=
  match g.wait with
  | .mem m => { g with wait := .ready, skip := (if m.again || m.once then g.skip else m.done), deliv := m.deliv, mark := none }
  | .bowait left .. => { g with wait := .ready, skip := ~~~ (maskOf (left.map (·.1))) }
  | .enter ts len fr => { g with wait := .enter (ts.map fun t => { t with warp := place t.warp }) len fr }
  | .regang .. | .regroup .. | .barrier .. | .place .. | .msend .. => g
  | _ => { g with wait := .ready, mark := none }

/-- Gangs of a team that have only their retirement left retire: threads placed by SPAWN, a BOWAIT with every thread satisfied. -/
def State.retireDone (s : State) (k slot : Nat) : State :=
  let gs := (s.core k).warps.flatMap fun w => if w.2.team = slot then w.2.gangs.map fun g => (w.1, g.id) else []
  gs.foldl (fun s q => match s.envOf k q.1 q.2 with
    | none => s
    | some e => match e.gang.wait with
      | .place _ len => e.done len s
      | .bowait [] acq len fr => e.done len ((s.modWarp k q.1 fun w => w.free fr).acquire k q.1 acq)
      | _ => s) s

/-- Entries of a bank in strips. -/
def stripCells (strips : List Nat) (b : List (Nat × Word)) : List (Nat × Word) := b.filter fun p => strips.contains (p.1 / 512 / 16)

/-- The image of a team (R422): scratchpad and objects by offset in its allocation. -/
def Core.imageOf (c : Core) (k : Nat) (ts : List (Nat × List Track)) (slot : Nat) (t : Team) : Saved :=
  let ws := c.teamWarps slot
  let place (w : Nat) : Nat := ws.idxOf w
  let inside (a : Nat) : Bool := decide (t.scrBase ≤ a ∧ a < t.scrBase + t.scrSize)
  let strips := (c.strips.filter fun p => p.2 = slot).map (·.1)
  { uid := t.uid.getD 0, team := { t with saving := false, drain := false }
    warps := (c.warps.filter fun w => w.2.team = slot).map fun w => { w.2 with gangs := w.2.gangs.map (Gang.saved place), opbuf := [] }
    scr := (c.scr.filter fun p => inside p.1).map fun p => (p.1 - t.scrBase, p.2)
    objs := (c.objs.filter fun p => inside p.1).map fun p => (p.1 - t.scrBase, p.2)
    tasks := (c.tasks.filter fun p => p.2.slot = slot).map fun p => { p.2 with warp := place p.2.warp }
    taskIds := (c.tasks.filter fun p => p.2.slot = slot).map (·.1)
    acc := stripCells strips c.acc, shadow := stripCells strips c.shadow, strips := strips
    stat := c.stat.filter fun p => strips.contains p.1, shadowStat := c.shadowStat.filter fun p => strips.contains p.1
    fbuf := c.fbuf.filter fun p => t.resvs.any fun v => v.2.base ≤ p.1 ∧ p.1 < v.2.base + v.2.size
    tracks := (ts.filter fun p => trackInside k t p.1).map fun p => (p.1 - (2 ^ 40 + k * 2 ^ 16) - t.scrBase / 32, p.2)
    frames := c.imageFrames slot }

/-- TEAM_SAVE: core, `n` slot. The counter does not fall. -/
def execTeamSave (s : State) : Host.Outcome State Fault Refusal :=
  let k := s.ev.core
  let slot := s.ev.n
  match alook slot (s.core k).teams with
  | none => .next s
  | some t =>
    if ¬ s.saveReady k slot t then .next s
    else
      let s1 := s.retireDone k slot
      match alook slot (s1.core k).teams with
      | none => .next s1
      | some t1 =>
        let x := (s1.core k).imageOf k s1.tracks slot t1
        .next { s1.removeTeam k slot with saved := s1.saved ++ [{ x with team := { x.team with pos := if isFw k then 0 else posOf k } }] }

/-! ## Restore (R423, R309) -/

/-- Ranges for a team's reservations, none when one does not fit. -/
def Core.fbufPlace (slot : Nat) : List (Nat × Resv) → Core → Option Core
  | [], c => some c
  | v :: rest, c => match c.fbufFit v.2.size with
    | none => none
    | some b => Core.fbufPlace slot rest (c.modTeam slot fun t => { t with resvs := aput v.1 { v.2 with base := b } t.resvs })

/-- Where a saved team would stand on a core: slot and scratchpad base. -/
def Saved.fits (x : Saved) (c : Core) : Option (Nat × Nat) :=
  match c.room { warps := x.warps.length, vectors := x.team.vectors, scratch := x.team.scrSize, barriers := x.team.barriers.length } with
  | none => none
  | some (slot, base) =>
    let strips : Bool := x.strips.all fun i => (alook i c.strips).isNone
    let table : Bool := decide (c.tasks.length + x.tasks.length ≤ 64)
    let bare : Core := { c with teams := aput slot { x.team with resvs := [] } c.teams }
    if strips && table && (Core.fbufPlace slot x.team.resvs bare).isSome then some (slot, base) else none

/-- A saved team with its new core, slot and scratchpad base. -/
structure Landing where
  img : Saved
  core : Nat
  slot : Nat
  base : Nat
  deriving DecidableEq, Repr

/-- A scratchpad place of the quad after the restore: partners that return move with it. -/
def movePlace (ls : List Landing) (k2 : Nat) (p : Nat × Nat) : Nat × Nat :=
  let pos := posOf p.1
  match ls.find? fun x => x.img.team.pos = pos ∧ x.img.team.scrBase ≤ p.2 ∧ p.2 < x.img.team.scrBase + x.img.team.scrSize with
  | some x => (x.core, p.2 - x.img.team.scrBase + x.base)
  | none => (corePeer k2 pos, p.2)

/-- A register value without its stamp (R173). -/
def RVal.fresh (r : RVal) : RVal := { r with stamp := 0 }

/-- A warp as it comes back at a slot: stamps and floor restart, its store queue is numbered on. -/
def Warp.back (w : Warp) (ls : List Landing) (x : Landing) (at' seq : Nat) : Warp :=
  { w with
    team := x.slot, floor := 0, started := false
    vregs := w.vregs.map fun p => (p.1, p.2.map RVal.fresh), sregs := w.sregs.map RVal.fresh, hregs := w.hregs.map RVal.fresh
    gangs := w.gangs.map fun g => match g.wait with
      | .enter ts len fr => { g with wait := .enter (ts.map fun t => { t with slot := x.slot, warp := at' }) len fr }
      | _ => g
    sq := w.sq.zipIdx.map fun q => { q.1 with
      seq := seq + q.2, slot := x.slot, warp := at'
      place := match q.1.place with
        | .scr k off => (let m := movePlace ls x.core (k, off); .scr m.1 m.2)
        | p => p } }

/-- A token's records after the restore. -/
def Token.back (k : Token) (ls : List Landing) (k2 : Nat) : Token :=
  { rects := k.rects.map fun r => (corePeer k2 (posOf r.1), r.2)
    held := k.held.map fun h => (let m := movePlace ls k2 (h.core, h.off); { h with core := m.1, off := m.2 }) }

/-- Messages that a restored warp's store queue holds: they name its tasks by their new ids, and leave from its new place (R134). -/
def State.landMsgs (s : State) (x : Landing) (at' : Nat) (w : Warp) (ids : List (Nat × Nat)) : State :=
  let mine := w.sq.filterMap fun q => match q.kind with | .msg id => some id | _ => none
  { s with flight := s.flight.map fun m => if mine.contains m.id then { m with src := x.core, warp := at', tasks := m.tasks.filterMap fun t => alook t ids } else m }

/-- Put one team back; its waiting tasks are tested once its partners stand too (R151, R155). -/
def State.land (ls : List Landing) (s : State) (x : Landing) : State :=
  let c := s.core x.core
  let slots := freeBelow 48 (c.warps.map (·.1))
  let inside (a : Nat) : Bool := decide (x.base ≤ a ∧ a < x.base + x.img.team.scrSize)
  let total := (x.img.warps.map fun w => w.sq.length).sum
  let bare : Core := { c with teams := aput x.slot { x.img.team with scrBase := x.base, resvs := [], tokens := x.img.team.tokens.map fun t => t.back ls x.core } c.teams }
  let c1 := (Core.fbufPlace x.slot x.img.team.resvs bare).getD bare
  let news := match alook x.slot c1.teams with | some t => t.resvs | none => []
  let ws := (slots.zip x.img.warps).foldl (fun (q : List (Nat × Warp) × Nat) p => (aput p.1 (p.2.back ls x p.1 q.2) q.1, q.2 + p.2.sq.length)) (c1.warps, c1.seq)
  let r : Rect := { row := 0, col := 0, rows := 512, cols := 512 }
  let cells (b saved : List (Nat × Word)) : List (Nat × Word) :=
    saved.foldl (fun m p => aput p.1 p.2 m) (b.filter fun p => ¬ (x.img.strips.contains (p.1 / r.cols / 16)))
  let marks (b saved : List (Nat × Nat)) : List (Nat × Nat) := saved.foldl (fun m p => aput p.1 p.2 m) (b.filter fun p => ¬ x.img.strips.contains p.1)
  let c2 : Core := { c1 with
    warps := ws.1, seq := c1.seq + total
    order := c1.order ++ (slots.zip x.img.warps).flatMap fun p => p.2.gangs.map fun g => (p.1, g.id)
    scr := x.img.scr.foldl (fun m p => aput (x.base + p.1) p.2 m) (c1.scr.filter fun p => ¬ inside p.1)
    objs := x.img.objs.foldl (fun m p => aput (x.base + p.1) p.2 m) (c1.objs.filter fun p => ¬ inside p.1)
    strips := x.img.strips.foldl (fun m i => aput i x.slot m) c1.strips
    acc := cells c1.acc x.img.acc, shadow := cells c1.shadow x.img.shadow
    stat := marks c1.stat x.img.stat, shadowStat := marks c1.shadowStat x.img.shadowStat
    fbuf := x.img.team.resvs.foldl (fun f v => match alook v.1 news with
      | some n => (x.img.fbuf.filter fun p => v.2.base ≤ p.1 ∧ p.1 < v.2.base + v.2.size).foldl (fun f p => aput (p.1 - v.2.base + n.base) p.2 f)
          (f.filter fun p => ¬ (n.base ≤ p.1 ∧ p.1 < n.base + n.size))
      | none => f) c1.fbuf }
  let s1 : State := { s.setCore x.core c2 with
    tracks := x.img.tracks.foldl (fun m p => aput (2 ^ 40 + x.core * 2 ^ 16 + x.base / 32 + p.1) p.2 m)
      (s.tracks.filter fun p => ¬ trackInside x.core { x.img.team with scrBase := x.base } p.1) }
  let ids := x.img.taskIds.zipIdx.map fun q => (q.1, c2.nextTask + q.2)
  let s2 := x.img.tasks.foldl (fun s t => s.modCore x.core fun (c : Core) => { c with
    tasks := aput c.nextTask { t with slot := x.slot, warp := slots.getD t.warp 0, obMark := 0 } c.tasks, nextTask := c.nextTask + 1 }) s1
  ((slots.zip x.img.warps).foldl (fun s p => s.landMsgs x p.1 p.2 ids) s2).useDie x.img.uid (dieOf x.core)

/-- A task waits whose reference is satisfied: it is ready (R151). -/
def State.retest (s : State) (x : Landing) : State :=
  match alook x.slot (s.core x.core).teams with
  | none => s
  | some tm => s.modCore x.core fun (c : Core) => { c with tasks := c.tasks.map fun p =>
      if p.2.slot = x.slot ∧ p.2.state = .waiting ∧ s.waitMet x.core tm p.2 then (p.1, { p.2 with state := .ready }) else p }

/-- Where the teams of a quad land on a cluster: none when one lacks room. -/
def landings (s : State) (i j pri : Nat) : List Saved → Option (List Landing)
  | [] => some []
  | x :: rest =>
    let k := clusterCore i j x.team.pos
    if ¬ s.clusterTakes i j pri then none
    else match x.fits (s.core k), landings s i j pri rest with
      | some (slot, base), some ls => some ({ img := x, core := k, slot := slot, base := base } :: ls)
      | _, _ => none

/-- Clusters a saved quad may return to: the one its partners stand on, else its own, then the others of the rectangle; none that a
waiting quad of higher priority could use. -/
def State.homesOf (s : State) (l : Launch) (x : Saved) : List (Nat × Nat) :=
  let held := s.blockedAbove l.pri
  let homes : List (Nat × Nat) := match (if x.team.kind = .grid then s.residentOf x.uid x.team.seg x.team.quad else none) with
    | some k => [(coreRow k / 2, coreCol k / 2)]
    | none =>
      let own := (l.quads.filter fun q => q.1 = x.team.seg ∧ q.2.1 = x.team.quad).map fun q => (q.2.2.1, q.2.2.2)
      own ++ (rectClusters l.ocr l.occ l.ch l.cw).filter fun c => ¬ own.contains c
  homes.filter fun c => ¬ held.contains c

/-- TEAM_RESTORE: `n` launch, `k` place among the saved images; the quad's saved teams return together. -/
def execTeamRestore (s : State) : Host.Outcome State Fault Refusal :=
  match s.saved[s.ev.k]?, s.launch s.ev.n with
  | some x, some l =>
    if x.uid ≠ s.ev.n then .next s
    else
      let group := if x.team.kind = .grid then s.saved.filter fun y => y.uid = x.uid ∧ y.team.kind = .grid ∧ y.team.seg = x.team.seg ∧ y.team.quad = x.team.quad
        else [x]
      (match (s.homesOf l x).findSome? fun c => (landings s c.1 c.2 l.pri group).map fun ls => (c, ls) with
      | none => .next s
      | some (c, ls) =>
        let s1 := ls.foldl State.retest (ls.foldl (State.land ls) { s with saved := s.saved.filter fun y => ¬ group.contains y })
        .next (s1.modLaunch s.ev.n fun r => { r with quads := r.quads.map fun q =>
          if x.team.kind = .grid ∧ q.1 = x.team.seg ∧ q.2.1 = x.team.quad then (q.1, q.2.1, c.1, c.2) else q }))
  | _, _ => .next s

end Sys2Proof.Machine
end

