-- ==== Sys2Proof/Machine/SolverMath.lean ====
section
/-!
DEFINITION. The arithmetic of the solver sequencer (R393, R396, R397) and of the checks of its witnesses (R399, R400).
-/
namespace Sys2Proof

/-- A nonnegative fraction; `d` is not 0. -/
structure Fr where
  n : Nat
  d : Nat
  deriving DecidableEq, Repr

def Fr.add (a b : Fr) : Fr := { n := a.n * b.d + b.n * a.d, d := a.d * b.d }
def Fr.le (a b : Fr) : Bool := decide (a.n * b.d ≤ b.n * a.d)
def Fr.lt (a b : Fr) : Bool := decide (a.n * b.d < b.n * a.d)
/-- Magnitude of a dyadic. -/
def Dy.fr (a : Dy) : Fr := if 0 ≤ a.e then { n := a.i.natAbs * 2 ^ a.e.toNat, d := 1 } else { n := a.i.natAbs, d := 2 ^ (-a.e).toNat }

def Fx.finite (x : Fx) : Bool := match x with | .fin .. => true | _ => false
def Fx.isZero (x : Fx) : Bool := match x with | .fin _ m _ => decide (m = 0) | _ => false
/-- Greater than zero. -/
def Fx.positive (x : Fx) : Bool := fxLt (.fin false 0 0) x

end Sys2Proof
namespace Sys2Proof.Machine

/-- Rd: an exact value rounded to FP64 (R393). -/
def rd64 (x : Fx) : Nat := (cvtX fp64 0 false 0 x).bits
/-- The value of an FP64 code. -/
def f64 (c : Nat) : Fx := fDecode fp64 c
/-- The exact sum of values (R95). -/
def exactSum (xs : List Fx) : Fx := (fxSum xs false).1

/-! ## Combines (R393, R396, R399) -/

/-- A coefficient: b, or b − b̂ where b̂ is not zero. -/
def coefVal (b bh : Nat) : Fx := if (f64 bh).isZero then f64 b else exactSum [f64 b, Fx.negate (f64 bh)]

/-- The exact sum of a combine: x, and H times each coefficient times its k. -/
def CombElem.exact (c : CombElem) : Fx :=
  let f := fmtOf c.type
  exactSum ((match c.x with | some x => [fDecode f x] | none => []) ++
    c.terms.map fun t => fxMul (fxMul (f64 c.h) (coefVal t.1 t.2.1)) (fDecode f t.2.2))

/-- Its single rounding: to the latent's type, and to FP64 for the error vector. -/
def CombElem.value (c : CombElem) : Nat := match c.x with
  | some _ => (cvtX (fmtOf c.type) 0 false 0 c.exact).bits
  | none => rd64 c.exact

/-- An element made: its output is the rounding. -/
def CombElem.make (c : CombElem) : CombElem := { c with out := c.value }

/-! ## The norm (R396) -/

/-- The larger magnitude of two finite values. -/
def maxAbs (a b : Fx) : Fx := match Fx.dy a, Fx.dy b with
  | some x, some y => (let m := Dy.max x.abs y.abs; .fin false m.i.natAbs m.e)
  | _, _ => .nan false

/-- sc_j exactly. -/
def scaleOf (atol rtol : Nat) (x xnew : Fx) : Fx := exactSum [f64 atol, fxMul (f64 rtol) (maxAbs x xnew)]

/-- w_j, from the codes of e_j and sc_j. -/
def weightOf (e sc : Nat) : Nat :=
  let a := f64 e
  let b := f64 sc
  if a.isZero then 0
  else if b.isZero then infCode fp64
  else match a, b with
    | .fin _ m x, .fin _ n y => (roundTo fp64 0 false 0 (exDiv false (m * m) (2 * x) (n * n) (2 * y))).bits
    | .fin .., .inf _ => 0
    | .inf _, .fin .. => infCode fp64
    | _, _ => fp64.qnan

/-- RoundTo(FP64, √(S ÷ N)). -/
def rootMean (sum n : Nat) : Nat := match f64 sum with
  | .fin _ m e =>
    if m = 0 then 0
    else
      let t : Nat := 256 + bitLen n + (if (e - bitLen n) % 2 = 0 then 0 else 1)
      let r := isqrt (m * 2 ^ t / n)
      (roundTo fp64 0 false 0 { neg := false, m := r, e := (e - t) / 2, st := r * r * n ≠ m * 2 ^ t }).bits
  | .inf _ => infCode fp64
  | .nan _ => fp64.qnan

/-- The norm of a sample: NaN where a k, x or X_NEW is not finite. -/
def normOf (type n atol rtol : Nat) (x xnew : List Nat) (ks : List (List Nat)) (es : List Nat) : Nat :=
  let f := fmtOf type
  if (x ++ xnew ++ ks.flatten).any fun v => !(fDecode f v).finite then fp64.qnan
  else
    let ws := ((x.zip xnew).zip es).map fun q => weightOf q.2 (rd64 (scaleOf atol rtol (fDecode f q.1.1) (fDecode f q.1.2)))
    rootMean (foldTree (fun a b => (fAddX fp64 0 false (f64 a) (f64 b)).bits) 0 (ws.length + 1) ws) n

/-! ## The step factor (R397) -/

/-- RoundTo(FP64, SAFETY × ν^(−1/p)), from a quotient and a root long enough for one rounding. -/
def rootFactor (safety nu p : Nat) : Nat := match f64 safety, f64 nu with
  | .fin _ m e, .fin _ n g =>
    if n = 0 then infCode fp64
    else
      let t : Int := p * e - g
      let x : Int := (t - (80 * p + bitLen n : Nat)) / (p : Int)
      let num := m ^ p * 2 ^ (t - p * x).toNat
      let r := iroot p (num / n)
      (roundTo fp64 0 false 0 { neg := false, m := r, e := x, st := r ^ p * n ≠ num }).bits
  | _, .inf _ => 0
  | _, _ => fp64.qnan

/-- factor(ν); positive codes stand in the order of their values. -/
def factorOf (safety fmin fmax q nu : Nat) : Nat := min fmax (max fmin (rootFactor safety nu (q + 1)))

/-- Rd(H × factor(norm)). -/
def newStep (safety fmin fmax q h norm : Nat) : Nat := rd64 (fxMul (f64 h) (f64 (factorOf safety fmin fmax q norm)))

/-! ## The STEP check (R400) -/

/-- The new H that R397 gives for the recorded norm. -/
def StepElem.ruleH (s : StepElem) : Nat :=
  if s.accepted && s.fin then s.h else if s.status = 2 then s.h else newStep s.safety s.fmin s.fmax s.q s.h s.norm

/-- (e_j ÷ sc_j)² of each element, e_j and sc_j without rounding; none where sc_j is zero and e_j is not. -/
def StepElem.terms (s : StepElem) : List (Option Fr) :=
  let f := fmtOf s.type
  (List.range s.n).map fun j =>
    let e := exactSum (s.ks.map fun k => fxMul (fxMul (f64 s.h) (coefVal k.1 k.2.1)) (fDecode f (k.2.2.getD j 0)))
    let sc := scaleOf s.atol s.rtol (fDecode f (s.x.getD j 0)) (fDecode f (s.xnew.getD j 0))
    match Fx.dy e, Fx.dy sc with
    | some a, some b =>
      if a.i = 0 then some { n := 0, d := 1 }
      else if b.i = 0 then none
      else
        let p := (a.mul a).fr
        let q := (b.mul b).fr
        some { n := p.n * q.d, d := p.d * q.n }
    | _, _ => none

/-- A sample passes. -/
def StepElem.good (s : StepElem) : Bool :=
  let f := fmtOf s.type
  if ((s.x ++ s.xnew ++ s.ks.flatMap fun k => k.2.2).any fun v => !(fDecode f v).finite) || !(f64 s.h).finite then decide (s.status = 3)
  else
    let hGood : Bool := decide (s.newH = s.ruleH)
    match allSome s.terms with
    | none => !s.accepted && decide (s.norm = infCode fp64) && hGood
    | some ts =>
      let sum := ts.foldl Fr.add { n := 0, d := 1 }
      let v : Fr := { n := sum.n, d := sum.d * s.n }
      let b := 2 ^ 39
      let inBand : Bool := Fr.le { n := b - 1, d := b } v && Fr.le v { n := b + 1, d := b }
      let decision : Bool := inBand || decide (s.accepted = Fr.lt v { n := 1, d := 1 })
      let normGood : Bool := match Fx.dy (f64 s.norm) with
        | some d => (let q := (d.mul d).fr
            Fr.le { n := v.n * (b - 1), d := v.d * b } q && Fr.le q { n := v.n * (b + 1), d := v.d * b })
        | none => false
      decision && normGood && hGood

end Sys2Proof.Machine
end

