-- ==== Sys2Proof/Machine/Solver.lean ====
section
/-!
DEFINITION. The solver sequencer (R387 to R404): its instructions, the rounds of a run, and the checks of its witnesses.
-/
namespace Sys2Proof.Machine

/-! ## Method tables (R387, R388) -/

/-- FP64 values that follow a header of `s` stages. -/
def methodLen (s : Nat) : Nat := 3 * s + s * (s - 1) / 2

/-- The method of a header and its values; none where R388 finds it invalid. -/
def methodOf (h : Nat) (vs : List Nat) : Option Method :=
  let s := bitsOf h 3 0
  let tri := s * (s - 1) / 2
  let c := vs.take s
  let flat := (vs.drop s).take tri
  let b := (vs.drop (s + tri)).take s
  let bh := (vs.drop (2 * s + tri)).take s
  let rowOf' (i : Nat) : List Nat := (flat.drop (i * (i - 1) / 2)).take i
  let one : Fx := .fin false 1 0
  let safety := bitsOf h 127 64
  let fmin := bitsOf h 191 128
  let fmax := bitsOf h 255 192
  let atMost (x y : Fx) : Bool := !fxLt y x
  let fsal := h.testBit 8
  if bitsOf h 63 9 ≠ 0 ∨ s < 2 ∨ 12 < s ∨ bitsOf h 7 4 = 0 then none
  else if ([safety, fmin, fmax] ++ vs).any fun v => !(f64 v).finite then none
  else if !(f64 (c.headD 0)).isZero || !(f64 safety).positive || !atMost (f64 safety) one || !(f64 fmin).positive || !atMost (f64 fmin) one
      || !atMost one (f64 fmax) then none
  else if fsal && (!fxEq (f64 (c.getLastD 0)) one || ((rowOf' (s - 1)).zip b).any (fun q => !fxEq (f64 q.1) (f64 q.2)) || !(f64 (b.getLastD 1)).isZero) then none
  else some { stages := s, q := bitsOf h 7 4, fsal := fsal, safety := safety, fmin := fmin, fmax := fmax, c := c
              a := (List.range s).map rowOf', b := b, bh := bh }

/-- SQLOAD. -/
def execSqload (x : X96) (s : State) : Host.Outcome State Fault Refusal :=
  let x := x.op
  onceInstr s 0xF2 x (fun _ _ _ => true) fun s e r act lane =>
    let m := e.onceWait x r
    let src := Env.srcs s e x r (litInt x false 32) lane
    let a := (sv1 src.a).lo
    let slot := (sv1 src.b).lo
    let fail (n : Nat) : Except Trap State := .error { cls := 15, reason := n, mask := maskOf act }
    match s.onceRead e m lane (sv1 src.a).stamp a 8 (spansOf a 32 8) with
    | .trap t => .error t
    | .wait s1 => .ok s1
    | .got hs _ s1 =>
      let h := joinVals 8 hs
      let st := bitsOf h 3 0
      if st < 2 ∨ 12 < st then fail 1
      else match s1.onceRead e m lane 0 ((a + 32) % 2 ^ 64) 8 (spansOf (a + 32) (8 * methodLen st) 8) with
        | .trap t => .error t
        | .wait s2 => .ok s2
        | .got vs _ s2 => match methodOf h vs with
          | none => fail 1
          | some md =>
            if 7 < slot then fail 2
            else
              let s3 := s2.modDie (dieOf e.k) fun d => { d with slots := aput slot ((Env.party s e).ctx, md) d.slots }
              .ok (s3.finishMem e m)

/-! ## Records (R389, R390, R404) -/

/-- The header of a record. -/
structure SqHdr where
  kernel : DWord
  key : DWord
  rtol : Nat
  atol : Nat
  tend : Nat
  teams : Nat
  n : Nat
  rlim : Nat
  subg : Nat
  type : Nat
  slot : Nat
  samples : Nat
  /-- A reserved bit is set. -/
  bad : Bool
  deriving DecidableEq, Repr

/-- The header in 512 bits. -/
def sqHdrOf (v : Nat) : SqHdr :=
  { kernel := BitVec.ofNat 64 (v / 2 ^ 448), key := BitVec.ofNat 64 (v / 2 ^ 384), rtol := bitsOf v 383 320, atol := bitsOf v 319 256
    tend := bitsOf v 255 192, teams := bitsOf v 191 160, n := bitsOf v 159 128, rlim := bitsOf v 127 112, subg := bitsOf v 111 99
    type := bitsOf v 98 95, slot := bitsOf v 82 80, samples := bitsOf v 12 0, bad := bitsOf v 94 83 ≠ 0 ∨ bitsOf v 79 13 ≠ 0 }

/-- A header within the limits of R389; its kernel and subgroup are tested beside it. -/
def SqHdr.good (h : SqHdr) : Bool :=
  let nonneg (c : Nat) : Bool := (f64 c).finite && !fxLt (f64 c) (.fin false 0 0)
  !h.bad && nonneg h.rtol && nonneg h.atol && (f64 h.tend).finite && decide (1 ≤ h.teams ∧ h.teams ≤ 65536 ∧ 1 ≤ h.n ∧ h.n ≤ 2 ^ 28 ∧ 1 ≤ h.rlim ∧
    (h.type = 5 ∨ h.type = 6) ∧ 1 ≤ h.samples ∧ h.samples ≤ 4096)

/-- A sample entry, with K1V and RUN cleared in a running one (R393). -/
def sampleOf (idx v : Nat) : Sample :=
  let st := bitsOf v 2 0
  { idx := idx, kbuf := bitsOf v 511 448, lat := bitsOf v 447 384, norm := bitsOf v 383 320, h := bitsOf v 319 256, h0 := bitsOf v 319 256
    t := bitsOf v 255 192, steps := bitsOf v 191 160, rejects := bitsOf v 159 128, run := if st = 0 then 0 else bitsOf v 127 112
    k1v := if st = 0 then false else v.testBit 3, status := st }

/-- An entry's bits are valid (R390, R404). -/
def sampleGood (tend v : Nat) : Bool :=
  let t := f64 (bitsOf v 255 192)
  let h := f64 (bitsOf v 319 256)
  decide (bitsOf v 111 4 = 0 ∧ bitsOf v 2 0 ≤ 4) &&
  (decide (bitsOf v 2 0 ≠ 0) || (t.finite && h.finite && h.positive && !fxLt (f64 tend) t))

/-- Bytes of a buffer of `n` elements, rounded up (R391). -/
def bufBytes (type n : Nat) : Nat := roundUp (n * tyBytes type) 64

/-- `n` bytes from an address lie within the launch's own OPEN versions: each 4 KiB page of them does (R118). -/
def State.inOwn (s : State) (p : Party) (va n : Nat) : Bool :=
  (List.range ((va % 4096 + n + 4095) / 4096)).all fun i =>
    let a := (if i = 0 then va else va / 4096 * 4096 + 4096 * i) % 2 ^ 64
    canonical a && !sysAddr a && (match translateNow s p a 1 with | .ok h => h.own | .error _ => false)

/-- What a run's buffers must satisfy (R404, reason 5): for each running sample, and the record that is written back (R398). -/
def State.buffersGood (s : State) (p : Party) (record : Nat) (h : SqHdr) (m : Method) (xs : List Sample) : Bool :=
  let pb := bufBytes h.type h.n
  (xs.all fun x => decide (x.status ≠ 0) ||
    (decide (x.lat % 64 = 0 ∧ x.kbuf % 64 = 0) && s.inOwn p x.lat (h.n * tyBytes h.type) && s.inOwn p x.kbuf (64 + (m.stages + 2) * pb))) &&
  (!(xs.any fun x => x.status = 0) || s.inOwn p (record + 64) (64 * h.samples))

/-! ## The run's state -/

/-- The status word of a run (R403). -/
def SqRun.word (r : SqRun) (state : Nat) : Word :=
  BitVec.ofNat 32 (state * 2 ^ 30 + (r.samples.filter fun x => x.status = 0).length * 2 ^ 15 + min r.rounds 0x7FFF)

/-- Put a run, and what its handle reads. -/
def State.setRun (s : State) (d : Nat) (r : SqRun) : State :=
  s.modDie d fun x => { x with
    run := some r
    recent := x.recent.map fun q => if q.serial = r.serial then { q with status := r.word 0 } else q }

/-- Everything that waits on cores looks again. -/
def State.wakeAll (s : State) : State := (s.cores.map (·.1)).foldl (fun s k => s.wakeCore k) s

/-- The run ends: the counter falls, its handle keeps the status, SQWAITs return (R398, R402). -/
def State.endRun (s : State) (d : Nat) (r : SqRun) (state : Nat) : State :=
  ((s.modDie d fun x => { x with
    run := none
    recent := x.recent.map fun q => if q.serial = r.serial then { q with status := r.word state } else q }).lowerCounter r.uid 1).wakeAll

/-- The sequencer as a reader and writer: the issuing launch's memory. -/
def SqRun.party (r : SqRun) (d : Nat) : Party := { die := d, ctx := r.ctx, fw := false, uid := some r.uid }

/-- Physical address of a 64-byte line, when the access translates. -/
def State.seqLine (s : State) (p : Party) (va kind : Nat) : Option Nat :=
  let a := va % 2 ^ 64
  if ¬ canonical a ∨ sysAddr a then none
  else match translateNow s p a kind with
    | .ok { place := .mem pa, .. } => some pa
    | _ => none

/-- `n` bytes at a 64-aligned address; none while a line does not translate (log 37). -/
def State.seqRead (s : State) (p : Party) (va n : Nat) : Option (List Byte) :=
  (allSome ((List.range (ceilDiv n 64)).map fun i => (s.seqLine p (va + 64 * i) 0).map fun pa => memRead s.hbm pa (min 64 (n - 64 * i)))).map List.flatten

/-- Write bytes at a 64-aligned address; fuel: lines. -/
def State.seqWrite (p : Party) : Nat → Nat → List Byte → State → Option State
  | 0, _, _, s => some s
  | f + 1, va, bs, s => match bs with
    | [] => some s
    | _ => (s.seqLine p va 1).bind fun pa => State.seqWrite p f (va + 64) (bs.drop 64) (s.memApply pa (bs.take 64))

/-- Write a block. -/
def State.put (s : State) (p : Party) (va : Nat) (bs : List Byte) : Option State := State.seqWrite p (ceilDiv bs.length 64) va bs s

/-- Address of k_i; s + 1 gives X_S and s + 2 gives X_NEW (R391). -/
def SqRun.buf (r : SqRun) (x : Sample) (i : Nat) : Nat := x.kbuf + 64 + (i - 1) * bufBytes r.type r.n

/-- The elements of a buffer. -/
def State.vec (s : State) (p : Party) (r : SqRun) (va : Nat) : Option (List Nat) :=
  (s.seqRead p va (r.n * tyBytes r.type)).map (patsOf r.type r.n)

/-- Write the elements of a buffer. -/
def State.putVec (s : State) (p : Party) (r : SqRun) (va : Nat) (vs : List Nat) : Option State := s.put p va (vs.flatMap (natLe (tyBytes r.type)))

/-- The 64 bytes of an entry; a RUN of 65,536 leaves its 16-bit field open (log 38). -/
def Sample.bytes (x : Sample) (free : Nat) : List Byte :=
  natLe 64 (x.status + (if x.k1v then 8 else 0) + (if x.run < 65536 then x.run else free % 65536) * 2 ^ 112 + x.rejects * 2 ^ 128 + x.steps * 2 ^ 160
    + x.t * 2 ^ 192 + x.h * 2 ^ 256 + x.norm * 2 ^ 320 + x.lat * 2 ^ 384 + x.kbuf * 2 ^ 448)

/-- Write an entry back (R398). -/
def State.putSample (s : State) (p : Party) (r : SqRun) (x : Sample) : Option State :=
  (s.put p (r.recAddr + 64 + 64 * x.idx) (x.bytes (Config.freeWord s.freeCtr).toNat)).map fun s1 => if x.run < 65536 then s1 else s1.drawn 1

/-- Entries back, one after another. -/
def putSamples (p : Party) (r : SqRun) : List Sample → State → Option State
  | [], s => some s
  | x :: xs, s => (s.putSample p r x).bind (putSamples p r xs)

/-- Every running sample is written back with STATUS 4, at its last accepted x, T and H, and the run ends (R395, R402). -/
def State.abandon (s : State) (d : Nat) (r : SqRun) (state : Nat) : Option State :=
  let stop (x : Sample) : Sample := if x.status = 0 then { x with status := 4, h := x.h0 } else x
  (putSamples (r.party d) r ((r.samples.filter fun x => x.status = 0).map stop) s).map fun s1 =>
    s1.endRun d { r with samples := r.samples.map stop } state

/-! ## SQSTART (R402) -/

/-- SQSTART once its release is done: read and check the record; start, or wait in the queue of the sequencer. -/
def sqStart (s : State) (e : Env) (m : MemWait) (lane a dst : Nat) (mask : Mask) (stamp : Nat) : Except Trap State :=
  let di := dieOf e.k
  let d := s.die di
  let fail (n : Nat) : Except Trap State := .error { cls := 15, reason := n, mask := mask }
  let p := Env.party s e
  match s.onceRead e m lane stamp a 64 (spansOf a 64 32) with
  | .trap t => .error t
  | .wait s1 => .ok s1
  | .got hs _ s1 =>
    let h := sqHdrOf (joinVals 32 hs)
    match alook h.slot d.slots with
    | none => fail 3
    | some (ctx, md) =>
      if ctx ≠ p.ctx then fail 3
      else match e.team.uid, e.launch with
        | some u, some l =>
          if ¬ h.good ∨ (subgroupOf l h.subg).isNone ∨ (s.image l.ctx h.kernel).isNone then fail 4
          else match s1.onceRead e m lane 0 ((a + 64) % 2 ^ 64) 64 (spansOf (a + 64) (64 * h.samples) 32) with
            | .trap t => .error t
            | .wait s2 => .ok s2
            | .got es _ s2 =>
              let rows := (List.range h.samples).map fun j => joinVals 32 ((es.drop (2 * j)).take 2)
              let xs := rows.zipIdx.map fun q => sampleOf q.2 q.1
              if ¬ rows.all (sampleGood h.tend) then fail 4
              else if ¬ s2.buffersGood p a h md xs then fail 5
              else
                let mine (w : SqWaiter) : Bool := decide (w.core = e.k ∧ w.warp = e.slot ∧ w.gang = e.gid)
                let first : Bool := match d.sqWait with | [] => true | w :: _ => mine w
                let queued : Bool := d.sqWait.any mine
                if d.run ≠ none ∨ ¬ first then
                  let s3 := if queued then s2
                    else s2.modDie di fun d => { d with sqWait := d.sqWait ++ [({ core := e.k, warp := e.slot, gang := e.gid, dst := dst, record := a, mask := mask, stamp := stamp } : SqWaiter)] }
                  .ok (e.stall (.sqstart m.len) s3)
                else if ¬ s2.canRaise u 1 then .ok (e.stall .retry s2)
                else
                  let serial := d.sqSerial
                  let r : SqRun := { serial := serial, uid := u, ctx := l.ctx, core := e.k, recAddr := a, kernel := h.kernel, key := h.key, rtol := h.rtol
                                     atol := h.atol, tend := h.tend, teams := h.teams, n := h.n, rlim := h.rlim, subg := h.subg, type := h.type
                                     method := md, samples := xs }
                  let s3 := s2.modDie di fun d => { d with
                    run := some r, sqSerial := (serial + 1) % 2 ^ 30, sqWait := d.sqWait.filter fun w => !mine w
                    recent := (d.recent ++ [({ serial := serial, ctx := l.ctx, status := r.word 0 } : SqDone)]).drop (d.recent.length - 15) }
                  let s4 := (s3.raiseCounter u 1).modWarp e.k e.slot fun w => w.writeUnis e.handling dst 32 [svConst (di * 2 ^ 30 + serial)]
                  let s5 := if xs.any fun x => x.status = 0 then s4 else s4.endRun di r 1
                  .ok (s5.finishMem e m)
        | _, _ => fail 4

/-- SQSTART. -/
def execSqstart (x : X96) (s : State) : Host.Outcome State Fault Refusal :=
  let x := x.op
  onceInstr s 0xF2 x (fun _ _ _ => true) fun s e r act lane =>
    let a := sv1 (Env.srcs s e x r 0 lane).a
    let mark := e.relMark s
    if ¬ fenceDone (s.core e.k) e.slot 4 mark then .ok (e.relWait mark s)
    else sqStart s e (e.onceWait x r) lane a.lo x.d (maskOf act) a.stamp

/-- SOLVER_RUN_START: die. The first waiting SQSTART starts its run, once the sequencer is free. -/
def execSolverRunStart (s : State) : Host.Outcome State Fault Refusal :=
  let d := s.die s.ev.die
  match d.run, d.sqWait with
  | none, w :: _ => match s.envOf w.core w.warp w.gang with
    | none => .next (s.modDie s.ev.die fun x => { x with sqWait := x.sqWait.drop 1 })
    | some e => match e.gang.wait with
      | .sqstart len =>
        let m : MemWait := { accs := [], len := len, frees := [], once := true, lanes := 0 }
        (match sqStart s e m ((lanesOf w.mask).headD 0) w.record w.dst w.mask w.stamp with
        | .ok s1 => .next s1
        | .error t => .next ((s.modDie s.ev.die fun x => { x with sqWait := x.sqWait.drop 1 }).takeTrap w.core w.warp w.gang t len))
      | _ => .next s
  | _, _ => .next s

/-! ## SQWAIT, SQSTAT, SQABORT (R402) -/

/-- A handle known to its die and of the party's context. -/
def State.sqHandle (s : State) (ctx h : Nat) : Option (SqDone × Bool) := (s.sqLook h).bind fun q => if q.1.ctx = ctx then some q else none

/-- The form of the three: the lowest reason, or what the handle gives. -/
def sqHandled (s : State) (x : Op) (detBars : Bool) (f : State → Env → MemWait → SV → SqDone × Bool → State) : Host.Outcome State Fault Refusal :=
  onceInstr s 0xF2 x (fun _ _ _ => true) fun s e r act lane =>
    let h := sv1 (Env.srcs s e x r 0 lane).a
    let fail (n : Nat) : Except Trap State := .error { cls := 15, reason := n, mask := maskOf act }
    match s.sqHandle (Env.party s e).ctx h.lo with
    | none => fail 6
    | some q => if detBars ∧ e.det then fail 7 else .ok (f s e (e.onceWait x r) h q)

/-- SQWAIT. -/
def execSqwait (x : X96) (s : State) : Host.Outcome State Fault Refusal :=
  sqHandled s x.op false fun s e m h q =>
    if q.2 then e.stall (.sqwait h.lo x.op.d m.len h.stamp) s
    else ((s.acquire e.k e.slot 4).modWarp e.k e.slot fun w => w.writeUnis e.handling x.op.d 32 [svStamp q.1.status.toNat h.stamp]).finishMem e m

/-- SQSTAT. -/
def execSqstat (x : X96) (s : State) : Host.Outcome State Fault Refusal :=
  sqHandled s x.op true fun s e m h q =>
    (s.modWarp e.k e.slot fun w => w.writeUnis e.handling x.op.d 32 [svStamp q.1.status.toNat h.stamp]).finishMem e m

/-- SQABORT. -/
def execSqabort (x : X96) (s : State) : Host.Outcome State Fault Refusal :=
  sqHandled s x.op true fun s e m h q =>
    (if q.2 then s.modDie (h.lo / 2 ^ 30 % 4) fun d => { d with run := d.run.map fun r => { r with abort := true } } else s).finishMem e m

/-! ## Rounds (R393 to R395) -/

/-- A combine witness or a STEP witness goes to the checker, for the root (R399). -/
def State.seqCheck (s : State) (d : Nat) (r : SqRun) (kind : Nat) (comb : List CombElem) (step : List StepElem) : State :=
  match s.rootOf (some r.uid), s.launch r.uid with
  | some root, some l =>
    { s with
      checks := aput s.nextCheck { uid := l.root, run := root.run, wit := { kind := kind }, comb := comb, step := step, seqDie := some d } s.checks
      nextCheck := s.nextCheck + 1 }
  | _, _ => s

/-- The root keeps what a decision round stored, for STEP witnesses that name its record (R455). -/
def State.keepSteps (s : State) (d : Nat) (r : SqRun) (es : List StepElem) : State :=
  match s.launch r.uid with
  | some l => s.modLaunch l.root fun x => { x with steps := x.steps ++ es.map fun e => (r.recAddr, d, e) }
  | none => s

/-- The clamp of a sample. -/
def clampSample (tend : Nat) (x : Sample) : Sample :=
  if x.status ≠ 0 then x
  else
    let t := f64 x.t
    let sum := exactSum [t, f64 x.h]
    let fin := !fxLt sum (f64 tend)
    let h := if fin then rd64 (exactSum [f64 tend, t.negate]) else x.h
    let stuck : Bool := !fin && fxEq (f64 (rd64 sum)) t
    let bad : Bool := !(f64 h).finite || !(f64 h).positive || stuck
    { x with h := h, fin := fin, status := if bad then 3 else 0 }

/-- The samples a stage covers. -/
def SqRun.covers (r : SqRun) (i : Nat) : List Sample := r.samples.filter fun x => decide (x.status = 0) && !(decide (i = 1) && x.k1v)

/-- A list of values, or none as soon as one is missing. -/
def vecs (s : State) (p : Party) (r : SqRun) (x : Sample) (is : List Nat) : Option (List (List Nat)) := allSome (is.map fun i => s.vec p r (r.buf x i))

/-- The combine of stage `i` for a sample: its elements. -/
def stageElems (s : State) (p : Party) (r : SqRun) (x : Sample) (i : Nat) : Option (List CombElem) :=
  match s.vec p r x.lat, vecs s p r x ((List.range (i - 1)).map (· + 1)) with
  | some xs, some ks =>
    let row := r.method.a.getD (i - 1) []
    some ((List.range r.n).map fun j => CombElem.make { type := r.type, x := some (xs.getD j 0), h := x.h, out := 0
                                                        terms := (row.zip ks).map fun q => (q.1, 0, q.2.getD j 0) })
  | _, _ => none

/-- X_S of stage `i` for samples, in turn; with all their elements. -/
def formStage (p : Party) (r : SqRun) (i : Nat) : List Sample → List CombElem → State → Option (State × List CombElem)
  | [], acc, s => some (s, acc)
  | x :: xs, acc, s => (stageElems s p r x i).bind fun es =>
    (s.putVec p r (r.buf x (r.method.stages + 1)) (es.map (·.out))).bind (formStage p r i xs (acc ++ es))

/-- The combine before stage `i`, with its witness; nothing before stage 1. -/
def State.combine (s : State) (d : Nat) (r : SqRun) (i : Nat) : Option State :=
  if i ≤ 1 then some s
  else (formStage (r.party d) r i (r.covers i) [] s).map fun q => q.1.seqCheck d r 7 q.2 []

/-- A stage block (R392). -/
def stageBlock (r : SqRun) (x : Sample) (i : Nat) : List Byte :=
  let ti := rd64 (exactSum [f64 x.t, fxMul (f64 (r.method.c.getD (i - 1) 0)) (f64 x.h)])
  let xin := if i = 1 then x.lat else r.buf x (r.method.stages + 1)
  natLe 64 ((i - 1) * 2 ^ 172 + x.idx * 2 ^ 176 + r.n * 2 ^ 192 + x.steps * 2 ^ 224 + ti * 2 ^ 256 + x.h * 2 ^ 320 + xin % 2 ^ 64 * 2 ^ 384
    + r.buf x i % 2 ^ 64 * 2 ^ 448)

/-- The stage blocks of some samples. -/
def putBlocks (p : Party) (r : SqRun) (i : Nat) : List Sample → State → Option State
  | [], s => some s
  | x :: xs, s => (s.put p x.kbuf (stageBlock r x i)).bind (putBlocks p r i xs)

/-- Consecutive runs of whole samples, each of at most `n`; fuel: samples. -/
def sampleRuns (n : Nat) : Nat → List Sample → List (List Sample)
  | 0, _ => []
  | _ + 1, [] => []
  | f + 1, xs => xs.take n :: sampleRuns n f (xs.drop n)

/-- Record the child launches of a stage (R394). -/
def State.recordStage (s : State) (d : Nat) (r : SqRun) (i : Nat) (xs : List Sample) : Option State :=
  match s.launch r.uid, s.image r.ctx r.kernel with
  | some l, some img =>
    (match subgroupOf l r.subg with
    | none => none
    | some (oi, oj, h, w) =>
      let cs := sampleRuns (16777216 / r.teams) xs.length xs
      if ¬ s.canRaise r.uid cs.length then none
      else
        let child (c : List Sample) : Launch :=
          { ctx := l.ctx, kernel := r.kernel, tag := l.tag, parent := some r.uid, root := l.root, stageOf := some d, rot := l.rot, ocr := oi, occ := oj, ch := h, cw := w
            segs := c.map fun x => { teams := r.teams, param := BitVec.ofNat 64 x.kbuf, key := BitVec.ofNat 64 (r.key.toNat % 2 ^ 52 + x.idx * 2 ^ 52) }
            pri := l.pri, ec := l.ec, dpl := l.dpl, phase := .waiting, age := l.age, budget := budgetOf img }
        let ids := (List.range cs.length).map (s.nextUid + ·)
        let s1 := cs.foldl (fun s c => s.recordChild r.uid img (child c)) s
        some (s1.setRun d { r with stage := i, children := ids }))
  | _, _ => none

/-- Launch stage `i`: its blocks and its grids. -/
def State.launchStage (s : State) (d : Nat) (r : SqRun) (i : Nat) : Option State :=
  let xs := r.covers i
  (putBlocks (r.party d) r i xs s).bind fun s1 => s1.recordStage d r i xs

/-- The clamp of a round: samples that cannot go on are written back (log 39); none when an access waits. -/
def State.clampRound (s : State) (d : Nat) (r : SqRun) : Option (State × SqRun) :=
  let r1 := { r with samples := r.samples.map (clampSample r.tend) }
  let out := r1.samples.filter fun x => decide (x.status = 3) && r.samples.any fun y => decide (y.idx = x.idx ∧ y.status = 0)
  (putSamples (r.party d) r1 out s).map fun s1 => (s1.setRun d r1, r1)

/-- SOLVER_STAGE_LAUNCH: die. No stage is in flight: the clamp where a round begins, then the next stage with a sample to cover. -/
def execSolverStageLaunch (s : State) : Host.Outcome State Fault Refusal :=
  let di := s.ev.die
  match (s.die di).run with
  | none => .next s
  | some r =>
    if r.children ≠ [] then .next s
    else if r.abort then .next ((s.abandon di r 2).getD s)
    else match (if r.stage = 0 then s.clampRound di r else some (s, r)) with
      | none => .next s
      | some (s1, r1) =>
        if ¬ r1.samples.any fun x => x.status = 0 then .next (s1.endRun di r1 1)
        else if r1.stage = 0 ∧ r1.covers 1 = [] then .next (((s1.combine di r1 2).bind fun s2 => s2.launchStage di r1 2).getD s)
        else .next ((s1.launchStage di r1 (r1.stage + 1)).getD s)

/-! ## The end of a stage and the decision (R395 to R398) -/

/-- Every team of the stage's grids has ended and every write of them is performed at package scope. -/
def State.stageOver (s : State) (r : SqRun) : Bool :=
  let us := s.subtree 64 r.children
  (r.children.all fun u => match s.launch u with | none => true | some l => decide (l.phase = .ended)) &&
  s.cores.all fun c => !(c.2.ob.any fun q => us.contains q.uid && (match q.place with | .sys _ => false | _ => true)) &&
    !(c.2.tasks.any fun t => match t.2.uid with | some v => us.contains v | none => false)

/-- What a decision reads and makes of a sample. -/
structure SqDecision where
  sample : Sample
  elem : StepElem
  combs : List CombElem
  xnew : List Nat
  /-- k_s, where it becomes k_1. -/
  first : Option (List Nat)
  accepted : Bool
  deriving DecidableEq, Repr

/-- The decision for a sample (R396, R397). -/
def decideSample (s : State) (p : Party) (r : SqRun) (x : Sample) : Option SqDecision :=
  let m := r.method
  match s.vec p r x.lat, vecs s p r x ((List.range m.stages).map (· + 1)) with
  | some xs, some ks =>
    let js := List.range r.n
    let news := js.map fun j => CombElem.make { type := r.type, x := some (xs.getD j 0), h := x.h, out := 0
                                                terms := (m.b.zip ks).map fun q => (q.1, 0, q.2.getD j 0) }
    let errs := js.map fun j => CombElem.make { type := r.type, x := none, h := x.h, out := 0
                                                terms := ((m.b.zip m.bh).zip ks).map fun q => (q.1.1, q.1.2, q.2.getD j 0) }
    let xnew := news.map (·.out)
    let norm := normOf r.type r.n r.atol r.rtol xs xnew ks (errs.map (·.out))
    let nan : Bool := match f64 norm with | .nan _ => true | _ => false
    let accepted : Bool := !nan && !fxLt (.fin false 1 0) (f64 norm)
    let resized := newStep m.safety m.fmin m.fmax m.q x.h norm
    let y : Sample :=
      if nan then { x with status := 3 }
      else if accepted then
        { x with
          t := if x.fin then r.tend else rd64 (exactSum [f64 x.t, f64 x.h]), steps := min (x.steps + 1) 0xFFFFFFFF, run := 0, norm := norm
          k1v := m.fsal, status := if x.fin then 1 else 0, h := if x.fin then x.h else resized }
      else
        { x with
          rejects := min (x.rejects + 1) 0xFFFFFFFF, run := x.run + 1, norm := norm, k1v := true
          status := if r.rlim < x.run + 1 then 2 else 0, h := if r.rlim < x.run + 1 then x.h else resized }
    let z : Sample := { y with h0 := y.h }
    some {
      sample := z, combs := news ++ errs, xnew := xnew, accepted := accepted
      first := if accepted && m.fsal then ks.getLast? else none
      elem := { type := r.type, n := r.n, atol := r.atol, rtol := r.rtol, safety := m.safety, fmin := m.fmin, fmax := m.fmax, q := m.q, x := xs, xnew := xnew
                ks := ((m.b.zip m.bh).zip ks).map fun q => (q.1.1, q.1.2, q.2), h := x.h, norm := z.norm, accepted := accepted, fin := x.fin
                newH := z.h, status := z.status } }
  | _, _ => none

/-- The writes of a decision: X_NEW, LAT and k_1 where it is accepted, and the entry. -/
def State.putDecision (s : State) (p : Party) (r : SqRun) (c : SqDecision) : Option State :=
  let x := c.sample
  (s.putVec p r (r.buf x (r.method.stages + 2)) c.xnew).bind fun s1 =>
  (if c.accepted then s1.putVec p r x.lat c.xnew else some s1).bind fun s2 =>
  (match c.first with | some k => s2.putVec p r (r.buf x 1) k | none => some s2).bind fun s3 => s3.putSample p r x

/-- The decisions of a round, one sample after another. -/
def decideAll (p : Party) (r : SqRun) : List Sample → List SqDecision → State → Option (State × List SqDecision)
  | [], acc, s => some (s, acc)
  | x :: xs, acc, s => (decideSample s p r x).bind fun c => (s.putDecision p r c).bind (decideAll p r xs (acc ++ [c]))

/-- The round ends: its entries, its combine witness and its STEP witness (R398, R399). -/
def State.decideRound (s : State) (d : Nat) (r : SqRun) : Option State :=
  (decideAll (r.party d) r (r.samples.filter fun x => x.status = 0) [] s).map fun q =>
    let cs := q.2
    let s1 := ((q.1.seqCheck d r 7 (cs.flatMap (·.combs)) []).seqCheck d r 4 [] (cs.map (·.elem))).keepSteps d r (cs.map (·.elem))
    let next (x : Sample) : Sample := match cs.find? fun c => c.sample.idx = x.idx with | some c => c.sample | none => x
    let r1 := { r with samples := r.samples.map next, rounds := r.rounds + 1, stage := 0, children := [] }
    if r1.samples.any fun x => x.status = 0 then s1.setRun d r1 else s1.endRun d r1 1

/-- SOLVER_STAGE_END: die. -/
def execSolverStageEnd (s : State) : Host.Outcome State Fault Refusal :=
  let di := s.ev.die
  match (s.die di).run with
  | none => .next s
  | some r =>
    if r.children = [] ∨ ¬ s.stageOver r then .next s
    else if r.killed then .next ((s.abandon di r 3).getD s)
    else if r.abort then .next ((s.abandon di r 2).getD s)
    else if r.method.stages ≤ r.stage then .next ((s.decideRound di r).getD s)
    else
      let r1 := { r with children := [] }
      .next ((((s.setRun di r1).combine di r1 (r.stage + 1))).getD s)

/-! ## The checks of the sequencer's witnesses (R399, R400) -/

/-- COMBINE_WITNESS_CHECK: `n` check. -/
def execCombineWitnessCheck (s : State) : Host.Outcome State Fault Refusal :=
  checkOf s 7 fun c _ _ => s.judge s.ev.n c (if c.comb.all fun e => decide (e.out = e.value) then none else some { kind := 7, seqDie := c.seqDie })

/-- What a STEP check tests: the round of the sequencer's own witness, or every round that the launch's runs made on the record that a program's
descriptor names (R399, R455). -/
def stepElems (s : State) (c : Check) (os : List Opd) : List (Option Nat × StepElem) :=
  match os, s.launch c.uid with
  | o :: _, some l => (l.steps.filter fun q => q.1 = o.base).map fun q => (some q.2.1, q.2.2)
  | _, _ => c.step.map fun e => (c.seqDie, e)

/-- STEP_CHECK: `n` check. -/
def execStepCheck (s : State) : Host.Outcome State Fault Refusal :=
  checkOf s 4 fun c _ os => s.judge s.ev.n c (match (stepElems s c os).filter fun q => !q.2.good with
    | [] => none
    | q :: _ => some { kind := 4, seqDie := q.1 })

end Sys2Proof.Machine
end

