-- ==== Sys2Proof/Machine/System.lean ====
section
/-!
DEFINITION. The supervisor registers (R5, R15, R105, R112, R122, R208, R407, R414, R419, R421, R423, R429, R432 to R442, R446) and the
system instructions (R410, R411); the two fates of a fetch that runs no instruction (R67, R405).
-/
namespace Sys2Proof.Machine

/-! ## Who reads and writes a supervisor register -/

/-- A party at the supervisor registers: its core, and its warp and gang when it is a handler. -/
structure CsrUser where
  k : Nat
  handler : Option (Nat × Nat)
  deriving DecidableEq, Repr

def Env.csrUser (e : Env) : CsrUser := { k := e.k, handler := if e.handling then some (e.slot, e.gid) else none }

/-- The firmware core of a die, as the rows of single registers name it. -/
def firmwareUser (die : Nat) : CsrUser := { k := die * 256 + 128, handler := none }

/-- Lanes of a gang's slices as a mask. -/
def Warp.sliceMask (w : Warp) (g : Nat) : Mask := maskOf ((w.gangSlices g).flatMap laneIds)

/-- A register's value; none where the manual gives a read no value: TSEXEC and TSDONE outside a handler, another core's FWMODE, and
FINJ from a launch's thread (log 47). -/
def State.csr (s : State) (u : CsrUser) (n : Nat) : Option Nat :=
  let di := dieOf u.k
  let d := s.die di
  let w := u.handler.bind fun h => s.warp? u.k h.1
  if 0x140 ≤ n ∧ n ≤ 0x15F then (let c := d.clmap.getD (n - 0x140) (false, 0); some (if c.1 then 2 ^ 31 + c.2 else 0))
  else if 0x200 ≤ n ∧ n ≤ 0x217 then some (floorOf (n - 0x200) * 8 + d.sev.getD (n - 0x200) 0)
  else match n with
    | 0x100 => some d.tvecLo.toNat
    | 0x101 => some d.tvecHi.toNat
    | 0x102 => w.map fun x => x.tsexec.toNat
    | 0x103 => w.map fun x => x.tsdone.toNat
    | 0x110 => some d.intPend
    | 0x111 => some d.intEn
    | 0x130 => some (s.leaseHolder * 2 ^ 30 + (if s.leaseHeld then 2 ^ 29 else 0) + s.leaseCnt * 2 ^ 24 + s.leaseEpoch)
    | 0x160 => some d.spares.length
    | 0x170 => some d.ctxBase
    | 0x171 => some d.fqBase
    | 0x172 => some d.fqHead
    | 0x173 => some d.fqTail
    | 0x178 => if isFw u.k then some d.fwMode else none
    | 0x180 => some s.stgBase
    | 0x181 => some s.stgSize
    | 0x182 => some s.freeFrames
    | 0x183 => some (min s.stgWait 0xFFFF)
    | 0x184 => some s.svBase
    | 0x185 => some s.svSize
    | 0x190 => some (d.mirFixed * 256 + (if d.mirOff then 1 else 0))
    | 0x1A0 => some d.plim
    | 0x1A1 => some (d.power di)
    | 0x1A2 => some d.emarg.toNat
    | 0x1A3 => some d.thot
    | 0x1B0 => some (s.scanPri * 256 + s.scanThr)
    -- the fault record is in no address space: a read returns zero (R19)
    | 0x1C0 => some 0
    | 0x1D0 => if isFw u.k then some d.finj.toNat else none
    | 0x1E0 => some s.qcbBase
    | 0x1E2 => some s.pwBase
    | 0x1E3 => some s.pwSize
    | _ => some 0

/-! ## Writes -/

/-- A span of frames overlaps the firmware region (R434). -/
def overlapsFirmware (base size : Nat) : Bool := decide (0 < size ∧ base * 65536 < Config.fwRegion)

/-- A write of a leader-only register (R436). -/
def State.leaderWrite (s : State) (die : Nat) (f : State → State) : State := if s.leads die then f s else s.violation die

/-- Base or size of a pool or window: ignored with a violation while it is in use, or where the span would overlap the firmware region. -/
def State.spanWrite (s : State) (die : Nat) (busy : Bool) (base size : Nat) (f : State → State) : State :=
  s.leaderWrite die fun s => if busy ∨ overlapsFirmware base size then s.violation die else f s

/-- SEV (R414). -/
def State.sevWrite (s : State) (die c v : Nat) : State :=
  let a := v % 8
  if 5 ≤ a then s
  else if a < floorOf c then (s.modDie die fun d => { d with sev := d.sev.set c (floorOf c) }).violation die
  else s.modDie die fun d => { d with sev := d.sev.set c a }

/-- LCLAIM and LRENEW (R435). -/
def State.leaseClaim (s : State) (die v : Nat) : State :=
  if v % 2 ^ 24 = (s.leaseEpoch + 1) % 2 ^ 24 then { s with leaseEpoch := v % 2 ^ 24, leaseHolder := die, leaseHeld := true } else s
def State.leaseRenew (s : State) (die v : Nat) : State :=
  if s.leads die ∧ v % 2 ^ 24 = s.leaseEpoch then { s with leaseCnt := (s.leaseCnt + 1) % 32 } else s

/-- SCANCFG (R439): a core whose count has reached the new threshold is marked. -/
def State.scanWrite (s : State) (v : Nat) : State :=
  let thr := max 1 (min 16 (v % 256))
  let mark (c : Core) : Core := { c with marked := c.marked || decide (thr ≤ c.charges.length) }
  { s with scanPri := bitsOf v 9 8, scanThr := thr, cores := s.cores.map fun p => (p.1, mark p.2) }

/-- PLIM and THOT, clamped with a violation (R20, R438; log 46); THR follows THOT. -/
def State.plimWrite (s : State) (die v : Nat) : State :=
  let w := v % 1024
  let s1 := s.modDie die fun d => { d with plim := min w Config.plimMax }
  if Config.plimMax < w then s1.violation die else s1
def State.thotWrite (s : State) (die v : Nat) : State :=
  let t := v % 4096
  let t1 := min t Config.thotFuse
  let s1 := s.modDie die fun d => { d with thot := t1 }
  let s2 : State := { s1 with cores := s1.cores.map fun p => if dieOf p.1 = die then (p.1, p.2.heat t1) else p }
  if Config.thotFuse < t then s2.violation die else s2

/-- A class-31 note of a die (R442, R446). -/
def State.note (s : State) (k v : Nat) : State := s.record 31 false (some (dieOf k)) (some (localOf k)) none (some v) 0

/-- A write of a register (R5, R6, R411). -/
def State.csrWrite (s : State) (u : CsrUser) (n v : Nat) : State :=
  let di := dieOf u.k
  let mod (f : Die → Die) : State := s.modDie di f
  if 0x140 ≤ n ∧ n ≤ 0x160 then s.violation di
  else if 0x200 ≤ n ∧ n ≤ 0x217 then s.sevWrite di (n - 0x200) v
  else match n with
    | 0x100 => mod fun d => { d with tvecLo := BitVec.ofNat 32 v &&& 0xFFFFFFFD#32 }
    | 0x101 => mod fun d => { d with tvecHi := BitVec.ofNat 32 v }
    | 0x102 => (match u.handler with
      | some h => s.modWarp u.k h.1 fun w => { w with tsexec := BitVec.ofNat 32 v &&& w.sliceMask h.2 }
      | none => s)
    | 0x110 => mod fun d => { d with intPend := d.intPend &&& ((2 ^ 24 - 1) ^^^ (v % 2 ^ 24)) }
    | 0x111 => mod fun d => { d with intEn := v % 2 ^ 24 }
    | 0x120 => s.preemptWrite di v
    | 0x131 => s.leaseClaim di v
    | 0x132 => s.leaseRenew di v
    | 0x170 => mod fun d => { d with ctxBase := v % 2 ^ 28 }
    | 0x171 => mod fun d => { d with fqBase := v % 2 ^ 28 }
    | 0x172 => s.fqHeadTo di (v % 2 ^ 32)
    | 0x174 => s.fqRetry di (v % 2 ^ 32)
    | 0x175 => s.fqDeliver di (v % 2 ^ 32)
    | 0x178 => if isFw u.k then mod fun d => { d with fwMode := v &&& 0x0FFF0001 } else s
    | 0x180 => s.spanWrite di (s.heldFrames ≠ []) (v % 2 ^ 24) s.stgSize fun s => { s with stgBase := v % 2 ^ 24 }
    | 0x181 => s.spanWrite di (s.heldFrames ≠ []) s.stgBase (v % 2 ^ 24) fun s => { s with stgSize := v % 2 ^ 24 }
    | 0x184 => s.spanWrite di (s.saved ≠ []) (v % 2 ^ 24) s.svSize fun s => { s with svBase := v % 2 ^ 24 }
    | 0x185 => s.spanWrite di (s.saved ≠ []) s.svBase (v % 2 ^ 24) fun s => { s with svSize := v % 2 ^ 24 }
    | 0x190 => mod fun d => { d with mirOff := v.testBit 0 }
    | 0x1A0 => s.plimWrite di v
    | 0x1A2 => s.leaderWrite di fun s => s.modDie di fun d => { d with emarg := BitVec.ofNat 32 v }
    | 0x1A3 => s.thotWrite di v
    | 0x1B0 => s.leaderWrite di fun s => s.scanWrite v
    | 0x1C0 => s.note u.k v
    | 0x1D0 => if isFw u.k then (mod fun d => { d with finj := BitVec.ofNat 32 v &&& 0xFFFFFF7F#32 }).note u.k v else s
    | 0x1E0 => s.leaderWrite di fun s => { s with qcbBase := v % 2 ^ 28 }
    | 0x1E1 => s.qcommit di v
    | 0x1E2 => s.spanWrite di false (v % 2 ^ 24) s.pwSize fun s => { s with pwBase := v % 2 ^ 24 }
    | 0x1E3 => s.spanWrite di false s.pwBase (v % 2 ^ 24) fun s => { s with pwSize := v % 2 ^ 24 }
    | _ => s

/-! ## CSRR and CSRW -/

/-- An instruction that acts once for the gang, in supervisor mode; events do not arise. -/
def systemInstr (s : State) (len : Nat) (f : State → Env → Except Trap State) : Host.Outcome State Fault Refusal :=
  instr2 s len fun e0 => match needSuper e0 with
    | .error t => (s, some t)
    | .ok () =>
      let s1 := s.charge e0.k e0.slot 1 1
      orTrap s1 (f s1 ((s1.envOf e0.k e0.slot e0.gid).getD e0))

/-- A system instruction that reads registers: the register trap comes first (R198, R202). -/
def sysReads (opc : Nat) (x : Op) (f : State → Env → Except Trap State) (s : State) (e : Env) : Except Trap State :=
  match e.regTrap x (rowAt opc x) (maskOf e.lanes) with
  | some t => .error t
  | none => f s e

/-- CSRR. -/
def execCsrr (x : X96) (s : State) : Host.Outcome State Fault Refusal :=
  systemInstr s 12 fun s e =>
    let got := s.csr e.csrUser x.op.imm16
    let v := got.getD (Config.freeWord s.freeCtr).toNat
    let s1 := if got.isSome then s else s.drawn 1
    .ok (e.done 12 (s1.modWarp e.k e.slot fun w => w.writeUnis e.handling x.op.d 32 [svConst v]))

/-- CSRW. The instruction retires and the register is written. -/
def execCsrw (x : X96) (s : State) : Host.Outcome State Fault Refusal :=
  systemInstr s 12 <| sysReads 0xFB x.op fun s e =>
    let v := pointOf s (sv1 (Env.srcs s e x.op (rowAt 0xFB x.op) 0 0).a)
    .ok ((e.done 12 (s.drawn 1)).csrWrite e.csrUser x.op.imm16 v)

/-! ## TRAP and RTE -/

/-- The software trap. -/
def softTrap (s : State) (len code : Nat) : Host.Outcome State Fault Refusal :=
  issue s len ⟨false, 7⟩ oneCycle 1 (fun _ _ _ => false) fun _ _ e => .error { cls := 16, reason := code % 256, mask := maskOf e.lanes }

/-- TRAP (C32). -/
def execTrapC32 (x : C32I) (s : State) : Host.Outcome State Fault Refusal := softTrap s 4 x.op.lit
/-- TRAP. -/
def execTrap (x : X96) (s : State) : Host.Outcome State Fault Refusal := softTrap s 12 x.op.imm16

/-- Both forms of RTE. -/
def rte (s : State) (skip : Bool) : Host.Outcome State Fault Refusal :=
  systemInstr s 4 fun s e =>
    if ¬ e.handling then .error { cls := 1, reason := 11, mask := maskOf e.lanes }
    else
      let w := e.warp.returnFrom e.gid skip
      let w1 := ((w.gangSlices e.gid).foldl (fun w i => w.markEmpty i e.warp.tsexec) w).unwindEnded e.gid false (w.pcOf e.gid)
      .ok (((s.modWarp e.k e.slot fun _ => w1).partGang e.k e.slot e.gid).settleTeam e.k e.warp.team)

/-- RTE.rep. -/
def execRteRep (_x : C32R) (s : State) : Host.Outcome State Fault Refusal := rte s false
/-- RTE.skip. -/
def execRteSkip (_x : C32R) (s : State) : Host.Outcome State Fault Refusal := rte s true

/-! ## HALT, TLBI, WAITI -/

/-- HALT: a firmware core stops until die reset; a handler's team is killed under class 16. -/
def execHalt (_x : C32R) (s : State) : Host.Outcome State Fault Refusal :=
  systemInstr s 4 fun s e =>
    if isFw e.k then .ok ((e.stall .halted s).modCore e.k fun (c : Core) => { c with halted := true })
    else .ok (s.teamError 16 e.k e.warp.team)

/-- Drop translations on every die, and wait for the accesses that used them. -/
def tlbi (s : State) (x : Op) (drop : State → Env → TlbEnt → Bool) : Host.Outcome State Fault Refusal :=
  systemInstr s 12 <| sysReads 0xFD x fun s e =>
    let gone := drop s e
    let s1 : State := { s with
      dies := s.dies.map fun d => { d with tlb := d.tlb.filter fun t => !gone t, tlbOther := d.tlbOther.filter fun t => !gone t }
      cores := s.cores.map fun c => (c.1, { c.2 with ahead := [] }) }
    let marks := s1.cores.map fun c => (c.1, c.2.seq)
    .ok (if s1.tlbiDone marks then e.done 12 s1 else e.stall (.tlbi marks 12) s1)

/-- Context of a TLBI: bits 11:0 of B. -/
def tlbiContext (s : State) (e : Env) (x : Op) : Nat := pointOf s (sv1 (Env.srcs s e x (rowAt 0xFD x) 0 0).b) % 4096

/-- TLBI.all. -/
def execTlbiAll (x : X96) (s : State) : Host.Outcome State Fault Refusal := tlbi s x.op fun _ _ _ => true
/-- TLBI.ctx. -/
def execTlbiCtx (x : X96) (s : State) : Host.Outcome State Fault Refusal := tlbi s x.op fun s e t => !t.g && decide (t.ctx = tlbiContext s e x.op)
/-- TLBI.page. -/
def execTlbiPage (x : X96) (s : State) : Host.Outcome State Fault Refusal :=
  tlbi s x.op fun s e t =>
    let a := pointOf s (sv1 (Env.srcs s e x.op (rowAt 0xFD x.op) 0 0).a) % 2 ^ 57
    (t.g || decide (t.ctx = tlbiContext s e x.op)) && decide (t.base ≤ a ∧ a < t.base + t.size)

/-- An enabled interrupt is pending (R419). -/
def Die.interrupted (d : Die) : Bool := decide (d.intPend &&& d.intEn ≠ 0)

/-- WAITI. -/
def execWaiti (_x : C32R) (s : State) : Host.Outcome State Fault Refusal :=
  systemInstr s 4 fun s e =>
    if ¬ isFw e.k ∨ (s.die (dieOf e.k)).interrupted then .ok (e.done 4 s) else .ok (e.stall (.waiti 4) s)

/-- WAITI_WAKE: die. -/
def execWaitiWake (s : State) : Host.Outcome State Fault Refusal :=
  let k := s.ev.die * 256 + 128
  if ¬ (s.die s.ev.die).interrupted then .next s
  else
    let gs := (s.core k).warps.flatMap fun w => w.2.gangs.filterMap fun g => match g.wait with | .waiti len => some (w.1, g.id, len) | _ => none
    .next (gs.foldl (fun s q => match s.envOf k q.1 q.2.1 with | some e => e.done q.2.2 s | none => s) s)

/-! ## Fates of a fetch -/

/-- ILLEGAL_INSTRUCTION: the words encode no instruction. Its length is what its first word announces. -/
def execIllegalInstruction (detail : Nat) (s : State) : Host.Outcome State Fault Refusal :=
  let len := match s.env? with
    | some e => (match fetchAll s e.k (Env.party s e) e.pc.toNat with | .ok (w, _) => 4 * lenWords w | .error _ => 4)
    | none => 4
  instr s len fun e => .error { cls := 1, reason := detail, mask := maskOf e.lanes }

/-- INSTRUCTION_FETCH_FAULT: the address is not canonical, or a system address. -/
def execInstructionFetchFault (reason : Nat) (s : State) : Host.Outcome State Fault Refusal :=
  instr s 4 fun _ => .error { cls := 3, reason := reason, mask := 0 }

/-! ## Rows of single registers -/

/-- SEV_WRITE: die, `n` class, `v`. -/
def execSevWrite (s : State) : Host.Outcome State Fault Refusal :=
  .next (if s.ev.n < 24 then s.csrWrite (firmwareUser s.ev.die) (0x200 + s.ev.n) s.ev.v.toNat else s)
/-- STAGING_POOL_CONFIG_WRITE: die, `n` 0 base 1 size, `v`. -/
def execStagingPoolConfigWrite (s : State) : Host.Outcome State Fault Refusal :=
  .next (s.csrWrite (firmwareUser s.ev.die) (if s.ev.n = 0 then 0x180 else 0x181) s.ev.v.toNat)
/-- SAVE_POOL_CONFIG_WRITE: die, `n` 0 base 1 size, `v`. -/
def execSavePoolConfigWrite (s : State) : Host.Outcome State Fault Refusal :=
  .next (s.csrWrite (firmwareUser s.ev.die) (if s.ev.n = 0 then 0x184 else 0x185) s.ev.v.toNat)
/-- PEER_WINDOW_CONFIG_WRITE: die, `n` 0 base 1 size, `v`. -/
def execPeerWindowConfigWrite (s : State) : Host.Outcome State Fault Refusal :=
  .next (s.csrWrite (firmwareUser s.ev.die) (if s.ev.n = 0 then 0x1E2 else 0x1E3) s.ev.v.toNat)
/-- FWMODE_WRITE: die, `v`. -/
def execFwmodeWrite (s : State) : Host.Outcome State Fault Refusal := .next (s.csrWrite (firmwareUser s.ev.die) 0x178 s.ev.v.toNat)
/-- LCLAIM_WRITE: die, `v`. -/
def execLclaimWrite (s : State) : Host.Outcome State Fault Refusal := .next (s.csrWrite (firmwareUser s.ev.die) 0x131 s.ev.v.toNat)
/-- LRENEW_WRITE: die, `v`. -/
def execLrenewWrite (s : State) : Host.Outcome State Fault Refusal := .next (s.csrWrite (firmwareUser s.ev.die) 0x132 s.ev.v.toNat)
/-- PLIM_WRITE: die, `v`. -/
def execPlimWrite (s : State) : Host.Outcome State Fault Refusal := .next (s.csrWrite (firmwareUser s.ev.die) 0x1A0 s.ev.v.toNat)
/-- THOT_WRITE: die, `v`. -/
def execThotWrite (s : State) : Host.Outcome State Fault Refusal := .next (s.csrWrite (firmwareUser s.ev.die) 0x1A3 s.ev.v.toNat)
/-- SCANCFG_WRITE: die, `v`. -/
def execScancfgWrite (s : State) : Host.Outcome State Fault Refusal := .next (s.csrWrite (firmwareUser s.ev.die) 0x1B0 s.ev.v.toNat)
/-- FRAPP_WRITE: die, `v`. -/
def execFrappWrite (s : State) : Host.Outcome State Fault Refusal := .next (s.csrWrite (firmwareUser s.ev.die) 0x1C0 s.ev.v.toNat)
/-- FINJ_WRITE: die, `v`. -/
def execFinjWrite (s : State) : Host.Outcome State Fault Refusal := .next (s.csrWrite (firmwareUser s.ev.die) 0x1D0 s.ev.v.toNat)

end Sys2Proof.Machine
end

