-- ==== Sys2Proof/Machine/Dispatch.lean ====
section
/-!
DEFINITION. Which meaning each constructor of `Instr` has.
-/
namespace Sys2Proof.Machine

def exec (i : Instr) (s : State) : Host.Outcome State Fault Refusal :=
  match i with
  | .nop x => Sys2Proof.Machine.execNop x s
  | .brC32 x => Sys2Proof.Machine.execBrC32 x s
  | .brL64 x => Sys2Proof.Machine.execBrL64 x s
  | .briC32 x => Sys2Proof.Machine.execBriC32 x s
  | .bri x => Sys2Proof.Machine.execBri x s
  | .callC32 x => Sys2Proof.Machine.execCallC32 x s
  | .callL64 x => Sys2Proof.Machine.execCallL64 x s
  | .calliC32 x => Sys2Proof.Machine.execCalliC32 x s
  | .calli x => Sys2Proof.Machine.execCalli x s
  | .ret x => Sys2Proof.Machine.execRet x s
  | .join x => Sys2Proof.Machine.execJoin x s
  | .yield x => Sys2Proof.Machine.execYield x s
  | .regangC32 x => Sys2Proof.Machine.execRegangC32 x s
  | .regang x => Sys2Proof.Machine.execRegang x s
  | .regroupC32 x => Sys2Proof.Machine.execRegroupC32 x s
  | .regroup x => Sys2Proof.Machine.execRegroup x s
  | .exit x => Sys2Proof.Machine.execExit x s
  | .bkpt x => Sys2Proof.Machine.execBkpt x s
  | .sleep x => Sys2Proof.Machine.execSleep x s
  | .spawn x => Sys2Proof.Machine.execSpawn x s
  | .tlaunch x => Sys2Proof.Machine.execTlaunch x s
  | .baraC32 x => Sys2Proof.Machine.execBaraC32 x s
  | .bara x => Sys2Proof.Machine.execBara x s
  | .barwC32 x => Sys2Proof.Machine.execBarwC32 x s
  | .barw x => Sys2Proof.Machine.execBarw x s
  | .barsC32 x => Sys2Proof.Machine.execBarsC32 x s
  | .bars x => Sys2Proof.Machine.execBars x s
  | .rbar x => Sys2Proof.Machine.execRbar x s
  | .elect x => Sys2Proof.Machine.execElect x s
  | .quarter x => Sys2Proof.Machine.execQuarter x s
  | .handoffC32 x => Sys2Proof.Machine.execHandoffC32 x s
  | .handoff x => Sys2Proof.Machine.execHandoff x s
  | .iaddC32 x => Sys2Proof.Machine.execIaddC32 x s
  | .iadd x => Sys2Proof.Machine.execIadd x s
  | .isubC32 x => Sys2Proof.Machine.execIsubC32 x s
  | .isub x => Sys2Proof.Machine.execIsub x s
  | .iaddx x => Sys2Proof.Machine.execIaddx x s
  | .isubx x => Sys2Proof.Machine.execIsubx x s
  | .imulC32 x => Sys2Proof.Machine.execImulC32 x s
  | .imul x => Sys2Proof.Machine.execImul x s
  | .imulhC32 x => Sys2Proof.Machine.execImulhC32 x s
  | .imulh x => Sys2Proof.Machine.execImulh x s
  | .imulw x => Sys2Proof.Machine.execImulw x s
  | .imad x => Sys2Proof.Machine.execImad x s
  | .idiv x => Sys2Proof.Machine.execIdiv x s
  | .irem x => Sys2Proof.Machine.execIrem x s
  | .inegC32 x => Sys2Proof.Machine.execInegC32 x s
  | .ineg x => Sys2Proof.Machine.execIneg x s
  | .iabsC32 x => Sys2Proof.Machine.execIabsC32 x s
  | .iabs x => Sys2Proof.Machine.execIabs x s
  | .iminC32 x => Sys2Proof.Machine.execIminC32 x s
  | .imin x => Sys2Proof.Machine.execImin x s
  | .imaxC32 x => Sys2Proof.Machine.execImaxC32 x s
  | .imax x => Sys2Proof.Machine.execImax x s
  | .isad x => Sys2Proof.Machine.execIsad x s
  | .iclamp x => Sys2Proof.Machine.execIclamp x s
  | .idot x => Sys2Proof.Machine.execIdot x s
  | .andC32 x => Sys2Proof.Machine.execAndC32 x s
  | .and x => Sys2Proof.Machine.execAnd x s
  | .orC32 x => Sys2Proof.Machine.execOrC32 x s
  | .or x => Sys2Proof.Machine.execOr x s
  | .xorC32 x => Sys2Proof.Machine.execXorC32 x s
  | .xor x => Sys2Proof.Machine.execXor x s
  | .notC32 x => Sys2Proof.Machine.execNotC32 x s
  | .not x => Sys2Proof.Machine.execNot x s
  | .andnC32 x => Sys2Proof.Machine.execAndnC32 x s
  | .andn x => Sys2Proof.Machine.execAndn x s
  | .tern x => Sys2Proof.Machine.execTern x s
  | .shlC32 x => Sys2Proof.Machine.execShlC32 x s
  | .shl x => Sys2Proof.Machine.execShl x s
  | .shrC32 x => Sys2Proof.Machine.execShrC32 x s
  | .shr x => Sys2Proof.Machine.execShr x s
  | .sarC32 x => Sys2Proof.Machine.execSarC32 x s
  | .sar x => Sys2Proof.Machine.execSar x s
  | .rolC32 x => Sys2Proof.Machine.execRolC32 x s
  | .rol x => Sys2Proof.Machine.execRol x s
  | .funs x => Sys2Proof.Machine.execFuns x s
  | .bfx x => Sys2Proof.Machine.execBfx x s
  | .bfi x => Sys2Proof.Machine.execBfi x s
  | .brevC32 x => Sys2Proof.Machine.execBrevC32 x s
  | .brev x => Sys2Proof.Machine.execBrev x s
  | .bperm x => Sys2Proof.Machine.execBperm x s
  | .popcC32 x => Sys2Proof.Machine.execPopcC32 x s
  | .popc x => Sys2Proof.Machine.execPopc x s
  | .clzC32 x => Sys2Proof.Machine.execClzC32 x s
  | .clz x => Sys2Proof.Machine.execClz x s
  | .ctzC32 x => Sys2Proof.Machine.execCtzC32 x s
  | .ctz x => Sys2Proof.Machine.execCtz x s
  | .iext x => Sys2Proof.Machine.execIext x s
  | .icmp x => Sys2Proof.Machine.execIcmp x s
  | .isel x => Sys2Proof.Machine.execIsel x s
  | .lea x => Sys2Proof.Machine.execLea x s
  | .pand x => Sys2Proof.Machine.execPand x s
  | .por x => Sys2Proof.Machine.execPor x s
  | .pxor x => Sys2Proof.Machine.execPxor x s
  | .pnot x => Sys2Proof.Machine.execPnot x s
  | .pset x => Sys2Proof.Machine.execPset x s
  | .pget x => Sys2Proof.Machine.execPget x s
  | .movC32 x => Sys2Proof.Machine.execMovC32 x s
  | .mov x => Sys2Proof.Machine.execMov x s
  | .moviC32 x => Sys2Proof.Machine.execMoviC32 x s
  | .movi x => Sys2Proof.Machine.execMovi x s
  | .movl x => Sys2Proof.Machine.execMovl x s
  | .srd x => Sys2Proof.Machine.execSrd x s
  | .swr x => Sys2Proof.Machine.execSwr x s
  | .region x => Sys2Proof.Machine.execRegion x s
  | .perm x => Sys2Proof.Machine.execPerm x s
  | .shiftwC32 x => Sys2Proof.Machine.execShiftwC32 x s
  | .shiftw x => Sys2Proof.Machine.execShiftw x s
  | .voteC32 x => Sys2Proof.Machine.execVoteC32 x s
  | .vote x => Sys2Proof.Machine.execVote x s
  | .rstep x => Sys2Proof.Machine.execRstep x s
  | .bcastC32 x => Sys2Proof.Machine.execBcastC32 x s
  | .bcast x => Sys2Proof.Machine.execBcast x s
  | .matchLanes x => Sys2Proof.Machine.execMatchLanes x s
  | .redw x => Sys2Proof.Machine.execRedw x s
  | .scanw x => Sys2Proof.Machine.execScanw x s
  | .faddC32 x => Sys2Proof.Machine.execFaddC32 x s
  | .fadd x => Sys2Proof.Machine.execFadd x s
  | .fsubC32 x => Sys2Proof.Machine.execFsubC32 x s
  | .fsub x => Sys2Proof.Machine.execFsub x s
  | .fmulC32 x => Sys2Proof.Machine.execFmulC32 x s
  | .fmul x => Sys2Proof.Machine.execFmul x s
  | .fma x => Sys2Proof.Machine.execFma x s
  | .fminC32 x => Sys2Proof.Machine.execFminC32 x s
  | .fmin x => Sys2Proof.Machine.execFmin x s
  | .fmaxC32 x => Sys2Proof.Machine.execFmaxC32 x s
  | .fmax x => Sys2Proof.Machine.execFmax x s
  | .fcmp x => Sys2Proof.Machine.execFcmp x s
  | .fclass x => Sys2Proof.Machine.execFclass x s
  | .fabsC32 x => Sys2Proof.Machine.execFabsC32 x s
  | .fabs x => Sys2Proof.Machine.execFabs x s
  | .fnegC32 x => Sys2Proof.Machine.execFnegC32 x s
  | .fneg x => Sys2Proof.Machine.execFneg x s
  | .fsgn x => Sys2Proof.Machine.execFsgn x s
  | .frnd x => Sys2Proof.Machine.execFrnd x s
  | .fscale x => Sys2Proof.Machine.execFscale x s
  | .flogb x => Sys2Proof.Machine.execFlogb x s
  | .fadd2 x => Sys2Proof.Machine.execFadd2 x s
  | .fmul2 x => Sys2Proof.Machine.execFmul2 x s
  | .fma2 x => Sys2Proof.Machine.execFma2 x s
  | .fdot x => Sys2Proof.Machine.execFdot x s
  | .fdiv x => Sys2Proof.Machine.execFdiv x s
  | .fsqrt x => Sys2Proof.Machine.execFsqrt x s
  | .frcp x => Sys2Proof.Machine.execFrcp x s
  | .frsq x => Sys2Proof.Machine.execFrsq x s
  | .fexp x => Sys2Proof.Machine.execFexp x s
  | .fexpm1 x => Sys2Proof.Machine.execFexpm1 x s
  | .flog x => Sys2Proof.Machine.execFlog x s
  | .flog1p x => Sys2Proof.Machine.execFlog1p x s
  | .ferf x => Sys2Proof.Machine.execFerf x s
  | .ferfc x => Sys2Proof.Machine.execFerfc x s
  | .cvt x => Sys2Proof.Machine.execCvt x s
  | .cvti x => Sys2Proof.Machine.execCvti x s
  | .cvtf x => Sys2Proof.Machine.execCvtf x s
  | .packn x => Sys2Proof.Machine.execPackn x s
  | .qnt x => Sys2Proof.Machine.execQnt x s
  | .dqnt x => Sys2Proof.Machine.execDqnt x s
  | .rnd x => Sys2Proof.Machine.execRnd x s
  | .rndf x => Sys2Proof.Machine.execRndf x s
  | .rndm x => Sys2Proof.Machine.execRndm x s
  | .ivmk x => Sys2Proof.Machine.execIvmk x s
  | .ivlo x => Sys2Proof.Machine.execIvlo x s
  | .ivhi x => Sys2Proof.Machine.execIvhi x s
  | .ld x => Sys2Proof.Machine.execLd x s
  | .st x => Sys2Proof.Machine.execSt x s
  | .ldsC32 x => Sys2Proof.Machine.execLdsC32 x s
  | .lds x => Sys2Proof.Machine.execLds x s
  | .stsC32 x => Sys2Proof.Machine.execStsC32 x s
  | .sts x => Sys2Proof.Machine.execSts x s
  | .ldw x => Sys2Proof.Machine.execLdw x s
  | .stw x => Sys2Proof.Machine.execStw x s
  | .sld x => Sys2Proof.Machine.execSld x s
  | .sst x => Sys2Proof.Machine.execSst x s
  | .ldwt x => Sys2Proof.Machine.execLdwt x s
  | .ldsm x => Sys2Proof.Machine.execLdsm x s
  | .stf x => Sys2Proof.Machine.execStf x s
  | .cstore x => Sys2Proof.Machine.execCstore x s
  | .xload x => Sys2Proof.Machine.execXload x s
  | .atom x => Sys2Proof.Machine.execAtom x s
  | .atoms x => Sys2Proof.Machine.execAtoms x s
  | .atomw x => Sys2Proof.Machine.execAtomw x s
  | .red x => Sys2Proof.Machine.execRed x s
  | .reds x => Sys2Proof.Machine.execReds x s
  | .cas x => Sys2Proof.Machine.execCas x s
  | .fenceC32 x => Sys2Proof.Machine.execFenceC32 x s
  | .fence x => Sys2Proof.Machine.execFence x s
  | .pref x => Sys2Proof.Machine.execPref x s
  | .probe x => Sys2Proof.Machine.execProbe x s
  | .cctlEv x => Sys2Proof.Machine.execCctlEv x s
  | .cctlEvall x => Sys2Proof.Machine.execCctlEvall x s
  | .cpy x => Sys2Proof.Machine.execCpy x s
  | .kickC32 x => Sys2Proof.Machine.execKickC32 x s
  | .kick x => Sys2Proof.Machine.execKick x s
  | .boinit x => Sys2Proof.Machine.execBoinit x s
  | .boexp x => Sys2Proof.Machine.execBoexp x s
  | .boarr x => Sys2Proof.Machine.execBoarr x s
  | .bowaitC32 x => Sys2Proof.Machine.execBowaitC32 x s
  | .bowait x => Sys2Proof.Machine.execBowait x s
  | .bofree x => Sys2Proof.Machine.execBofree x s
  | .drain x => Sys2Proof.Machine.execDrain x s
  | .reduce x => Sys2Proof.Machine.execReduce x s
  | .summ x => Sys2Proof.Machine.execSumm x s
  | .mma x => Sys2Proof.Machine.execMma x s
  | .rsv x => Sys2Proof.Machine.execRsv x s
  | .rsvfreeC32 x => Sys2Proof.Machine.execRsvfreeC32 x s
  | .rsvfree x => Sys2Proof.Machine.execRsvfree x s
  | .obld x => Sys2Proof.Machine.execObld x s
  | .accrd x => Sys2Proof.Machine.execAccrd x s
  | .accst x => Sys2Proof.Machine.execAccst x s
  | .acczTake x => Sys2Proof.Machine.execAcczTake x s
  | .acczGive x => Sys2Proof.Machine.execAcczGive x s
  | .acczClr x => Sys2Proof.Machine.execAcczClr x s
  | .resolveC32 x => Sys2Proof.Machine.execResolveC32 x s
  | .resolve x => Sys2Proof.Machine.execResolve x s
  | .sqload x => Sys2Proof.Machine.execSqload x s
  | .sqstart x => Sys2Proof.Machine.execSqstart x s
  | .sqwait x => Sys2Proof.Machine.execSqwait x s
  | .sqstat x => Sys2Proof.Machine.execSqstat x s
  | .sqabort x => Sys2Proof.Machine.execSqabort x s
  | .msend x => Sys2Proof.Machine.execMsend x s
  | .witn x => Sys2Proof.Machine.execWitn x s
  | .wstatReg x => Sys2Proof.Machine.execWstatReg x s
  | .wstatAtt x => Sys2Proof.Machine.execWstatAtt x s
  | .trapC32 x => Sys2Proof.Machine.execTrapC32 x s
  | .trap x => Sys2Proof.Machine.execTrap x s
  | .rteRep x => Sys2Proof.Machine.execRteRep x s
  | .rteSkip x => Sys2Proof.Machine.execRteSkip x s
  | .csrr x => Sys2Proof.Machine.execCsrr x s
  | .csrw x => Sys2Proof.Machine.execCsrw x s
  | .halt x => Sys2Proof.Machine.execHalt x s
  | .tlbiAll x => Sys2Proof.Machine.execTlbiAll x s
  | .tlbiCtx x => Sys2Proof.Machine.execTlbiCtx x s
  | .tlbiPage x => Sys2Proof.Machine.execTlbiPage x s
  | .waiti x => Sys2Proof.Machine.execWaiti x s
  | .errorDetected err => Sys2Proof.Machine.execErrorDetected err s
  | .kaushInboundAccess acc => Sys2Proof.Machine.execKaushInboundAccess acc s
  | .attestationRequest req => Sys2Proof.Machine.execAttestationRequest req s
  | .pkglim write => Sys2Proof.Machine.execPkglim write s
  | .dielim die write => Sys2Proof.Machine.execDielim die write s
  | .illegalInstruction detail => Sys2Proof.Machine.execIllegalInstruction detail s
  | .instructionFetchFault reason => Sys2Proof.Machine.execInstructionFetchFault reason s
  | .packagePowerOn => Sys2Proof.Machine.execPackagePowerOn s
  | .firmwareWatchdogReset => Sys2Proof.Machine.execFirmwareWatchdogReset s
  | .recoveryMailboxWrite => Sys2Proof.Machine.execRecoveryMailboxWrite s
  | .dieReset => Sys2Proof.Machine.execDieReset s
  | .sqDoorbellWrite => Sys2Proof.Machine.execSqDoorbellWrite s
  | .cqDoorbellWrite => Sys2Proof.Machine.execCqDoorbellWrite s
  | .qcommitWrite => Sys2Proof.Machine.execQcommitWrite s
  | .launchRecordFetch => Sys2Proof.Machine.execLaunchRecordFetch s
  | .launchDispatch => Sys2Proof.Machine.execLaunchDispatch s
  | .quadAdmission => Sys2Proof.Machine.execQuadAdmission s
  | .teamRerunAdmission => Sys2Proof.Machine.execTeamRerunAdmission s
  | .formedWarpAdmission => Sys2Proof.Machine.execFormedWarpAdmission s
  | .binTimerExpiry => Sys2Proof.Machine.execBinTimerExpiry s
  | .aggregatorGroupClose => Sys2Proof.Machine.execAggregatorGroupClose s
  | .launchCompletion => Sys2Proof.Machine.execLaunchCompletion s
  | .witnessSubmission => Sys2Proof.Machine.execWitnessSubmission s
  | .projCheck => Sys2Proof.Machine.execProjCheck s
  | .orderCheck => Sys2Proof.Machine.execOrderCheck s
  | .residualCheck => Sys2Proof.Machine.execResidualCheck s
  | .prefixCheck => Sys2Proof.Machine.execPrefixCheck s
  | .stepCheck => Sys2Proof.Machine.execStepCheck s
  | .shadowMismatch => Sys2Proof.Machine.execShadowMismatch s
  | .dualComparison => Sys2Proof.Machine.execDualComparison s
  | .rerunDispatch => Sys2Proof.Machine.execRerunDispatch s
  | .completionRecordWrite => Sys2Proof.Machine.execCompletionRecordWrite s
  | .releaseGateDelivery => Sys2Proof.Machine.execReleaseGateDelivery s
  | .storeQueueDrain => Sys2Proof.Machine.execStoreQueueDrain s
  | .outboundSend => Sys2Proof.Machine.execOutboundSend s
  | .fetch => Sys2Proof.Machine.execFetch s
  | .evict => Sys2Proof.Machine.execEvict s
  | .engineQueueApply => Sys2Proof.Machine.execEngineQueueApply s
  | .atomicPerform => Sys2Proof.Machine.execAtomicPerform s
  | .walkComplete => Sys2Proof.Machine.execWalkComplete s
  | .accessComplete => Sys2Proof.Machine.execAccessComplete s
  | .fqretryWrite => Sys2Proof.Machine.execFqretryWrite s
  | .fqdeliverWrite => Sys2Proof.Machine.execFqdeliverWrite s
  | .fqheadWrite => Sys2Proof.Machine.execFqheadWrite s
  | .fabricRequestArrival => Sys2Proof.Machine.execFabricRequestArrival s
  | .fabricResponseArrival => Sys2Proof.Machine.execFabricResponseArrival s
  | .fabricAckArrival => Sys2Proof.Machine.execFabricAckArrival s
  | .retransmitTimerExpiry => Sys2Proof.Machine.execRetransmitTimerExpiry s
  | .messageArrival => Sys2Proof.Machine.execMessageArrival s
  | .spawnPlacement => Sys2Proof.Machine.execSpawnPlacement s
  | .quarterEvent => Sys2Proof.Machine.execQuarterEvent s
  | .handoffGroupPlace => Sys2Proof.Machine.execHandoffGroupPlace s
  | .taskStart => Sys2Proof.Machine.execTaskStart s
  | .copySectorLand => Sys2Proof.Machine.execCopySectorLand s
  | .taskComplete => Sys2Proof.Machine.execTaskComplete s
  | .refreshSlotEnd => Sys2Proof.Machine.execRefreshSlotEnd s
  | .weightWriteWindowOpen => Sys2Proof.Machine.execWeightWriteWindowOpen s
  | .weightStoreDigestCheck => Sys2Proof.Machine.execWeightStoreDigestCheck s
  | .sleepExpiry => Sys2Proof.Machine.execSleepExpiry s
  | .bowaitSatisfied => Sys2Proof.Machine.execBowaitSatisfied s
  | .regangMerge => Sys2Proof.Machine.execRegangMerge s
  | .regroupFusion => Sys2Proof.Machine.execRegroupFusion s
  | .teamSave => Sys2Proof.Machine.execTeamSave s
  | .teamRestore => Sys2Proof.Machine.execTeamRestore s
  | .preemptSave => Sys2Proof.Machine.execPreemptSave s
  | .preemptDrain => Sys2Proof.Machine.execPreemptDrain s
  | .preemptDiscard => Sys2Proof.Machine.execPreemptDiscard s
  | .sevWrite => Sys2Proof.Machine.execSevWrite s
  | .stagingPoolConfigWrite => Sys2Proof.Machine.execStagingPoolConfigWrite s
  | .savePoolConfigWrite => Sys2Proof.Machine.execSavePoolConfigWrite s
  | .peerWindowConfigWrite => Sys2Proof.Machine.execPeerWindowConfigWrite s
  | .fwmodeWrite => Sys2Proof.Machine.execFwmodeWrite s
  | .lclaimWrite => Sys2Proof.Machine.execLclaimWrite s
  | .lrenewWrite => Sys2Proof.Machine.execLrenewWrite s
  | .plimWrite => Sys2Proof.Machine.execPlimWrite s
  | .thotWrite => Sys2Proof.Machine.execThotWrite s
  | .scancfgWrite => Sys2Proof.Machine.execScancfgWrite s
  | .frappWrite => Sys2Proof.Machine.execFrappWrite s
  | .finjWrite => Sys2Proof.Machine.execFinjWrite s
  | .temperatureSample => Sys2Proof.Machine.execTemperatureSample s
  | .doldrumsScanStart => Sys2Proof.Machine.execDoldrumsScanStart s
  | .scanComplete => Sys2Proof.Machine.execScanComplete s
  | .scanAbort => Sys2Proof.Machine.execScanAbort s
  | .clusterMapUpdate => Sys2Proof.Machine.execClusterMapUpdate s
  | .attestationReportWrite => Sys2Proof.Machine.execAttestationReportWrite s
  | .temps => Sys2Proof.Machine.execTemps s
  | .fread => Sys2Proof.Machine.execFread s
  | .fack => Sys2Proof.Machine.execFack s
  | .waitiWake => Sys2Proof.Machine.execWaitiWake s
  | .solverRunStart => Sys2Proof.Machine.execSolverRunStart s
  | .solverStageLaunch => Sys2Proof.Machine.execSolverStageLaunch s
  | .solverStageEnd => Sys2Proof.Machine.execSolverStageEnd s
  | .combineWitnessCheck => Sys2Proof.Machine.execCombineWitnessCheck s

end Sys2Proof.Machine
end

