-- ==== Sys2Proof/Machine/Step.lean ====
section
/-!
DEFINITION. One step of the machine: the plan of Fetch.lean, then `exec` of the instruction or event it has come to.
-/
namespace Sys2Proof.Machine

/-- One step. -/
def step (s : State) : Host.Outcome State Fault Refusal :=
  match s.plan with
  | .run i s1 => exec i s1
  | .reached s1 => .next s1

/-- The state with an instruction where the next step fetches: at physical address 0, where the firmware core of die 0 has just been
released with FWMODE 0 (R433, R434); no other item waits. -/
def State.withFetchWord (s : State) (nbits w : Nat) : State :=
  let s1 := s.modDie 0 fun d => { d with fwMode := 0 }
  let s2 := s1.setCore 128 (Core.started 0)
  { s2 with agenda := [], focus := (128, 0, 0), hbm := putWord s2.hbm (w % 2 ^ nbits) }

end Sys2Proof.Machine
end

