-- ==== Sys2Proof/Safety.lean ====
section
/-!
DEFINITION. What counts as a good state and a good step, in the terms statements use: the forms the model keeps, and how far a step of
one gang reaches.
-/
namespace Sys2Proof.Machine

/-- Memory on both sides of the links in its canonical form (R102; log 3). -/
def MemoryCanonical (s : State) : Prop := Memory.wf s.hbm = true ∧ Memory.wf s.sysMem = true

/-- The focus gang, with environment `e`, stands between two instructions as R328 has it: its warp has its 32 lanes and 8 slices, a
thread of the gang lives, and no slice of it is still to be unwound. -/
structure Steady (s : State) (e : Env) : Prop where
  env : s.env? = some e
  lanes : e.warp.lanes.length = 32
  slices : e.warp.slices.length = 8
  live : e.warp.gangSlices e.gid ≠ []
  settled : ∀ x ∈ e.warp.slices, x.gang = e.gid → x.ended = false

/-- No thread of the warp is a bounds thread (R97, R374). -/
def ElementMode (e : Env) : Prop := ∀ i, (e.warp.lane i).bounds = false

/-- `t` is `s` but for one warp of one core, the die's cycle, the cycles at which the core's ways are free, its issue order, and the two
counters that number gangs and free values. Memory, scratchpad, every other warp, core, die and launch are as before. -/
structure OnlyWarp (s t : State) (k slot : Nat) : Prop where
  rest : t = { s with cores := t.cores, dies := t.dies, nextAgent := t.nextAgent, freeCtr := t.freeCtr }
  cores : ∀ j, j ≠ k → t.core j = s.core j
  core : t.core k = { s.core k with wayFree := (t.core k).wayFree, order := (t.core k).order, warps := (t.core k).warps }
  warps : ∀ j, j ≠ slot → t.warp? k j = s.warp? k j
  dies : ∀ d, d ≠ dieOf k → t.die d = s.die d
  die : t.die (dieOf k) = { s.die (dieOf k) with cycle := (t.die (dieOf k)).cycle }

/-- The warp with gang `g` past its instruction: its slices at `next`, the gang ready, gangs without a live slice gone. -/
def Warp.past (w : Warp) (g : Nat) (next : DWord) : Warp :=
  let w1 : Warp := { w with
    slices := w.slices.map fun (x : Slice) => if x.gang = g then { x with pc := next } else x
    gangs := w.gangs.map fun (x : Gang) => if x.id = g then { x with wait := .ready, skip := 0, deliv := [], mark := none } else x }
  { w1 with gangs := w1.gangs.filter fun x => w1.gangSlices x.id ≠ [] }

/-- The gang of `e` has retired an instruction of `len` bytes whose whole effect is on its warp, which it leaves as `w`: only that warp
differs, and the gang stands past the instruction. -/
structure Retired (s t : State) (e : Env) (len : Nat) (w : Warp) : Prop where
  only : OnlyWarp s t e.k e.slot
  warp : t.warp? e.k e.slot = some (w.past e.gid (e.pc + BitVec.ofNat 64 len))

/-- The gang's environment with its core as it stands in another state: an instruction's course runs in the state in which it has issued. -/
def Env.recore (e : Env) (c : Core) : Env := { e with core := c }
/-- The state in which the course of an instruction that costs `a` threads at factor `f` runs (R326), and its gang there. -/
def Env.issued (e : Env) (s : State) (a f : Nat) : State := s.charge e.k e.slot a f
def Env.issuing (e : Env) (s : State) (a f : Nat) : Env := e.recore ((e.issued s a f).core e.k)
/-- The same at the cost of an instruction of opcode `opc` with operands `x`: a uniform one counts one thread (R264, R326). -/
abbrev Env.paid (e : Env) (s : State) (opc : Nat) (x : Op) : State := e.issued s (opCost opc x e) 1
abbrev Env.paying (e : Env) (s : State) (opc : Nat) (x : Op) : Env := e.issuing s (opCost opc x e) 1

/-- `v` is `w` with some of its slices edited: each of `l` by `g`, its EXEC bits set to `m` where that is given. -/
structure SlicesEdited (w v : Warp) (l : List Nat) (m : Nat → Option Mask) (g : Nat → Slice → Slice) : Prop where
  rest : v = { w with lanes := v.lanes, slices := v.slices }
  slices : ∀ i ∈ l, v.slice i = g i (w.slice i)
  others : ∀ i, i ∉ l → v.slice i = w.slice i
  exec : ∀ i ∈ l, ∀ j ∈ laneIds i, v.lane j = match m i with
    | some b => { w.lane j with exec := b.getLsbD j && (w.lane j).live }
    | none => w.lane j
  kept : ∀ i, i ∉ l → ∀ j ∈ laneIds i, v.lane j = w.lane j

/-- The instruction edits the slices of its gang, in the machine `s1` as it stands once it has issued; then the gang goes on where its
slices stand, which settles it (`settleGang`: R330, R331). -/
def Steers (i : Instr) (s : State) (e : Env) (s1 : State) (len : Nat) (m : Nat → Option Mask) (g : Nat → Slice → Slice) : Prop :=
  ∃ w, exec i s = .next (e.goto s1 len w) ∧ SlicesEdited e.warp w e.slices m g

/-- EXEC bits that a branch's decision leaves a slice, where it changes them (R329, R336). -/
def Decision.exec : Decision → Option Mask
  | .split _ first _ _ _ => some (maskOf first)
  | _ => none

/-- What a branch's decision does to its slice's record; `mall` are the slice's EXEC bits before it (R329, R336). -/
def Decision.slice (h : Bool) (fall : DWord) (mall : Mask) : Decision → Slice → Slice
  | .fall, x => { x with pc := fall }
  | .whole dst, x => { x with pc := dst }
  | .split dst _ others pcd reuse, x =>
    let st := match reuse, x.stk h with
      | true, .split p _ m _ j :: rest => .split p (maskOf others) m false j :: rest
      | _, st => .split pcd (maskOf others) mall false none :: st
    { x.setStk h st with pc := dst }

/-- A call entry on top of a slice's stack. -/
def Slice.called (h : Bool) (ra : DWord) (x : Slice) : Slice := x.setStk h (.call ra :: x.stk h)

/-- The call on top of a slice's stack returned from (R337). -/
def Slice.returned (h : Bool) (x : Slice) : Slice := match x.stk h with
  | .call ra :: rest => { x.setStk h rest with pc := ra }
  | _ => x

/-- The EXEC bits that JOIN leaves a slice, and its record (R331, R338): the deferred path first, then both together. -/
def joinExec (st : List Entry) : Option Mask := match st with
  | .split _ md _ false _ :: _ => some md
  | .split _ _ mall true _ :: _ => some mall
  | _ => none
def Slice.joined (w : Warp) (i : Nat) (h : Bool) (pc next : DWord) (x : Slice) : Slice := match x.stk h with
  | .split pcd md mall false _ :: rest =>
    { x.setStk h (.split pcd md mall true (some pc) :: rest) with pc := pcd, ended := x.ended || !(w.runs i md) }
  | .split _ _ mall true j :: rest =>
    { x.setStk h rest with pc := (match j with | some a => a + 4 | none => next), ended := x.ended || !(w.runs i mall) }
  | _ => { x with pc := next }

/-- The EXEC bits that YIELD leaves a slice, and its record (R339): running and deferred path exchanged. -/
def yieldExec (st : List Entry) : Option Mask := match st with
  | .split _ md _ false _ :: _ => some md
  | _ => none
def Slice.yielded (w : Warp) (i : Nat) (h : Bool) (next : DWord) (x : Slice) : Slice := match x.stk h with
  | .split pcd md mall false j :: rest =>
    { x.setStk h (.split next (w.execMask i) mall false j :: rest) with pc := pcd, ended := x.ended || !(w.runs i md) }
  | _ => { x with pc := next }

/-- The instruction's gang goes on at `dst`: the machine around its warp is as in `s'`, the warp as in `w`, all its slices at `dst`. -/
def Moves (i : Instr) (s : State) (e : Env) (dst : DWord) (s' : State) (w : Warp) : Prop :=
  ∃ t, exec i s = .next t ∧ OnlyWarp s' t e.k e.slot ∧ t.warp? e.k e.slot = some (w.past e.gid dst)

/-- The instruction completes and retires: the gang stands past its `len` bytes; the machine around its warp is as in `s'`, the warp as in `w`. -/
def Completes (i : Instr) (s : State) (e : Env) (len : Nat) (s' : State) (w : Warp) : Prop := Moves i s e (e.pc + BitVec.ofNat 64 len) s' w

/-- Uniform names, and the predicate, that a destination position covers (R57, R75). -/
def destUnis (x : Op) (r : Row) : List Nat := match r.d with
  | .reg _ w n => if x.bkd then (List.range (n * (w / 32))).map (x.d + ·) else []
  | _ => []
def destPreds (x : Op) (r : Row) : List Nat := match r.d with
  | .pred _ => [x.d % 8]
  | _ => []

/-- What a register-computing instruction leaves of a warp (R198 to R200): only the named vector names, uniform names and predicates, and
flags that are raised; draw counters only where `draws` says so. -/
structure WarpFrame (w v : Warp) (vecs unis preds : List Nat) (draws : Bool) : Prop where
  rest : v = { w with lanes := v.lanes, vregs := v.vregs, sregs := v.sregs, hregs := v.hregs, opbuf := v.opbuf }
  lanes : ∀ i, v.lane i = { w.lane i with preds := (v.lane i).preds, fpflags := (v.lane i).fpflags, draw := (v.lane i).draw }
  preds : ∀ i p, p ∉ preds → (v.lane i).pred p = (w.lane i).pred p
  flags : ∀ i, (v.lane i).fpflags &&& (w.lane i).fpflags = (w.lane i).fpflags
  draws : draws = false → ∀ i, (v.lane i).draw = (w.lane i).draw
  vecs : ∀ n, n ∉ vecs → alook n v.vregs = alook n w.vregs
  unis : ∀ h n, n ∉ unis → v.uni h n = w.uni h n

/-- Predicates that an opcode writes besides D: pE of IADDX and ISUBX (R243), the ones PSET's IMM16 names (R255). -/
def extraPreds (opc : Nat) (x : Op) : List Nat :=
  if opc = 0x22 ∨ opc = 0x23 then [x.imm16 % 8] else if opc = 0x54 then (List.range 7).filter fun i => x.imm16.testBit i else []

/-- Opcodes that may advance the draw counter: conversions and packing under mode 6, RND, RNDF and RNDM (R84, R282). -/
def drawing (opc : Nat) : Bool := [0xA0, 0xA1, 0xA2, 0xA3, 0xA4, 0xA8, 0xA9, 0xAA].contains opc

/-- Instruction `i`, of opcode `opc` with operands `x`, retires for a steady gang outside bounds mode to whom no register trap is due and
whose FPMODE enables no trap, and changes nothing but its destinations, what its last-read bits free, and the flags and draws of threads. -/
def RegisterRetires (i : Instr) (opc : Nat) (x : Op) : Prop :=
  ∀ s e, Steady s e → ElementMode e → e.regTrap x (rowAt opc x) (maskOf (e.active x.g)) = none → e.warp.fpmode.toNat / 256 % 128 = 0 →
    ∃ t w, exec i s = .next t ∧ Retired s t e x.form.bytes w ∧
      WarpFrame e.warp w (e.frees x (rowAt opc x) ++ destVecs x (rowAt opc x)) (destUnis x (rowAt opc x))
        (extraPreds opc x ++ destPreds x (rowAt opc x)) (drawing opc)

/-- The opcodes whose instructions compute registers (chapters 11 and 12, ELECT): they share one course. -/
def registerOpcode (opc : Nat) : Bool :=
  opc = 0x14 ∨ (0x20 ≤ opc ∧ opc ≤ 0x30) ∨ (0x34 ≤ opc ∧ opc ≤ 0x46) ∨ (0x48 ≤ opc ∧ opc ≤ 0x4A) ∨ (0x50 ≤ opc ∧ opc ≤ 0x54) ∨
  (0x58 ≤ opc ∧ opc ≤ 0x5B) ∨ (0x60 ≤ opc ∧ opc ≤ 0x67) ∨ (0x80 ≤ opc ∧ opc ≤ 0xB2)

/-- Every mapped vector name holds a value for each of 32 lanes (R199). -/
def FullVectors (w : Warp) : Prop := ∀ p ∈ w.vregs, p.2.length = 32

/-- The bits of a vector register of 32 or 64 bits in a thread. -/
def Warp.vecBits (w : Warp) (width name lane : Nat) : Nat :=
  if width = 64 then (w.vec name lane).lo.toNat + (w.vec (name + 1) lane).lo.toNat * 2 ^ 32 else (w.vec name lane).lo.toNat

/-- Instruction `i`, of opcode `opc` with operands `x`, retires under the conditions of `RegisterRetires`, and its vector destination, of
`width` bits, then holds in each active thread the value `val` of that thread's operands; `lit` is what a literal stands for. -/
def ResultIn (i : Instr) (opc : Nat) (x : Op) (lit width : Nat) (val : Env → Nat → Srcs → Nat) : Prop :=
  ∀ s e, Steady s e → ElementMode e → FullVectors e.warp → e.regTrap x (rowAt opc x) (maskOf (e.active x.g)) = none →
    e.warp.fpmode.toNat / 256 % 128 = 0 → x.bkd = false →
    ∃ a f t w, exec i s = .next t ∧ Retired s t e x.form.bytes w ∧
      ∀ j ∈ e.active x.g, w.vecBits width x.d j = val e j (Env.srcs (e.issued s a f) (e.issuing s a f) x (rowAt opc x) lit j)

/-! ## Control and synchronization -/

/-- The mask names the gang's slices and no live slice of another gang (R341). -/
def ownSlices (e : Env) (mask : Nat) : Prop :=
  mask < 2 ^ (e.w / 4) ∧ (∀ i ∈ e.slices, mask.testBit i = true) ∧
  ∀ i, i < 8 → mask.testBit i = true → e.warp.sliceLive i = true → i ∈ e.slices

/-- The predicate of REGROUP written in the gang's active threads. -/
def Env.predAll (e : Env) (p : Nat) (v : Bool) : Warp := e.lanes.foldl (fun w i => w.writePred i p { v := .ofBool v }) e.warp

/-- The state after an arrival, with what the gang publishes. -/
def arrived (s : State) (e : Env) (len id : Nat) (q : Barrier × Bool) : State := e.done len ((e.publish (s.drawn 1)).2.arrive e id q.1 q.2)

/-- The cost of SWR. -/
def swrCost (o : Op) (e : Env) : Nat := (if swrOnce o && o.d ≠ 85 then oneCycle else perActive o.g) e

/-- The machine with the translations that `gone` names dropped on every die, and what cores have fetched ahead (R411, R463). -/
def dropped (s : State) (gone : TlbEnt → Bool) : State :=
  { s with
    dies := s.dies.map fun d => { d with tlb := d.tlb.filter fun t => !gone t, tlbOther := d.tlbOther.filter fun t => !gone t }
    cores := s.cores.map fun c => (c.1, { c.2 with ahead := [] }) }

/-! ## Memory instructions -/

/-- How a per-thread memory instruction runs: its opcode and operands, whether it is a store, the checks before its threads', what it
counts, and what a thread asks for. -/
structure MemForm where
  opc : Nat
  x : Op
  store : Bool
  pre : Env → List Nat
  count : Env → Option (Nat × Nat)
  req : State → Env → Nat → MemReq

/-- The per-thread memory instructions (R223, R224, R228 to R230). -/
def memForm : Instr → Option MemForm
  | .ld x => some { opc := 0xC0, x := x.op 0, store := false, pre := noPre, count := noCount, req := ldReq (x.op 0) }
  | .st x => some { opc := 0xC1, x := x.op 0, store := true, pre := noPre, count := noCount, req := stReq (x.op 0) }
  | .ldsC32 x => some { opc := 0xC2, x := x.op 0, store := false, pre := noPre, count := noCount, req := ldsReq (x.op 0) }
  | .lds x => some { opc := 0xC2, x := x.op, store := false, pre := noPre, count := noCount, req := ldsReq x.op }
  | .stsC32 x => some { opc := 0xC3, x := x.op 0, store := true, pre := noPre, count := noCount, req := stsReq (x.op 0) }
  | .sts x => some { opc := 0xC3, x := x.op, store := true, pre := noPre, count := noCount, req := stsReq x.op }
  | .ldw x => some { opc := 0xC4, x := x.op, store := false, pre := noPre, count := noCount, req := ldwReq x.op }
  | .stw x => some { opc := 0xC5, x := x.op, store := true, pre := noPre, count := noCount, req := stwReq x.op }
  | .ldwt x => some { opc := 0xC8, x := x.op, store := false, pre := noPre, count := noCount, req := ldwtReq x.op }
  | .cstore x => some { opc := 0xCB, x := x.op, store := true, pre := noPre, count := cstoreCount x.op, req := cstoreReq x.op }
  | .xload x => some { opc := 0xCC, x := x.op, store := false, pre := noPre, count := noCount, req := xloadReq x.op }
  | .atom x => some { opc := 0xCD, x := x.op, store := true, pre := detAtomic, count := noCount, req := atomReq x.op }
  | .atoms x => some { opc := 0xCE, x := x.op, store := true, pre := detAtomic, count := noCount, req := atomsReq x.op }
  | .atomw x => some { opc := 0xCF, x := x.op, store := true, pre := detAtomic, count := noCount, req := atomwReq x.op }
  | .red x => some { opc := 0xD0, x := x.op, store := true, pre := noPre, count := noCount, req := redReq x.op }
  | .reds x => some { opc := 0xD1, x := x.op, store := true, pre := noPre, count := noCount, req := redsReq x.op }
  | .cas x => some { opc := 0xD2, x := x.op, store := true, pre := detAtomic, count := noCount, req := casReq x.op }
  | _ => none

/-- Its accesses in lane order, and the reasons of R219 that apply. -/
def MemForm.accs (f : MemForm) (s : State) (e : Env) : List Acc := (memReqs f.x f.req s e).flatMap fun q => q.2.accs
def MemForm.reasons (f : MemForm) (s : State) (e : Env) : List Nat :=
  f.pre e ++ ((memReqs f.x f.req s e).flatMap fun q => q.2.reasons) ++ s.fullReason e (f.accs s e)

/-- Nothing stands in the way of accesses: they are translated where the launch is deterministic, no race is due (R191), and all of them can be
performed at issue. -/
structure AtOnce (s : State) (e : Env) (accs : List Acc) : Prop where
  known : (e.det && !s.known (Env.party s e) accs) = false
  races : s.races e (Env.party s e) accs = none
  all : (performed s e accs).2 = []

/-- Nothing stands in the way of a memory instruction: no fault of it is being resolved (R464), no register trap and no reason of R219 is
due, and its accesses are performed at issue. -/
structure MemForm.Free (f : MemForm) (s : State) (e : Env) : Prop where
  fresh : e.gang.deliv = []
  regs : e.regTrap f.x (rowAt f.opc f.x) (maskOf (e.active f.x.g)) = none
  reasons : f.reasons s e = []
  runs : AtOnce s e (f.accs s e)

/-- The machine in which a form's accesses have been performed. -/
abbrev MemForm.after (f : MemForm) (s : State) (e : Env) : State :=
  (performed (e.issued s (perActive f.x.g e) 1) (e.issuing s (perActive f.x.g e) 1)
    (f.accs (e.issued s (perActive f.x.g e) 1) (e.issuing s (perActive f.x.g e) 1))).1

/-- The warp of a memory instruction that retires: last-read names freed, the count written. -/
def memRetired (e : Env) (w : Warp) (m : MemWait) : Warp :=
  let w := w.freeAfter m.frees m.dests m.lanes
  match m.count with
  | some (d, n) => w.writeUnis e.handling d 32 [svConst n]
  | none => w

/-- What a per-thread memory instruction holds when it retires (R200, R224). -/
def MemForm.wait (f : MemForm) (e : Env) : MemWait := memBase f.opc f.x f.count e

/-- The two memory instructions that act once for the warp (R223, R465): opcode, operands, what is asked for. -/
def onceForm : Instr → Option (Nat × Op × (State → Env → Nat → MemReq))
  | .sld x => some (0xC6, x.op 0, sldReq (x.op 0))
  | .sst x => some (0xC7, x.op 0, sstReq (x.op 0))
  | _ => none

/-- Nothing stands in the way of what the warp asks for once. -/
structure OnceFree (opc : Nat) (x : Op) (req : State → Env → Nat → MemReq) (s : State) (e : Env) : Prop where
  acts : unguarded x.g = true ∨ e.active x.g ≠ []
  regs : e.regTrap x (rowAt opc x) (maskOf (e.active x.g)) = none
  reasons : (req s e ((e.active x.g).headD 0)).reasons = []
  runs : AtOnce s e (req s e ((e.active x.g).headD 0)).accs

/-- The warp after an acquire: at scope cluster or wider its floor is its core's CYCLE (R183). -/
def acquired (s : State) (k scope : Nat) (w : Warp) : Warp := if 2 ≤ scope then { w with floor := s.cycleOf k } else w

/-- What PREF and CCTL hold. -/
def quietWait (e : Env) (opc : Nat) (x : Op) (m : Mask) : MemWait := { accs := [], len := 12, frees := e.frees x (rowAt opc x), lanes := m }

/-- What PROBE writes before its loads, the machine and the gang with it. -/
def probeWrites (s : State) (e : Env) (x : Op) : Warp := probeWarp e x (probes s e x) e.warp
def probeEnv (s : State) (e : Env) (x : Op) : Env := { e with warp := probeWrites s e x }
def probeBegun (s : State) (e : Env) (x : Op) : State := probeState s e x (probeWrites s e x)

/-- Nothing stands in the way of PROBE. -/
structure ProbeFree (x : Op) (s : State) (e : Env) : Prop where
  fresh : e.gang.deliv = []
  regs : e.regTrap x (rowAt 0xD5 x) (maskOf (e.active x.g)) = none
  reads : ((probeKeys e (probes s e x)).filterMap fun q => (raceOf ((alook q.2.2 s.tracks).getD []) e.gang.agent e.gang.clock 0 0).map fun n => (q.1, n)) = []
  runs : AtOnce (probeBegun s e x) (probeEnv s e x) (probeAccs (probes s e x))

/-- The machine in which PROBE's loads have been made. -/
def probeAfter (s : State) (e : Env) (x : Op) : State := (performed (probeBegun s e x) (probeEnv s e x) (probeAccs (probes s e x))).1

/-- STF's descriptors as they are read at issue. -/
def stfRead (s : State) (e : Env) (x : Op) : State × List (Nat × Nat) × List (Nat × Nat) × Option PreRead := State.readDescs e (stfAddrs s e x) s [] []
def stfDescs (s : State) (e : Env) (x : Op) : List (Nat × BufDesc) := goodDescs (stfRead s e x).2.1
/-- Its stores, and the machine in which they begin: their own cost is paid. -/
def stfStores (s : State) (e : Env) (x : Op) : List Acc := stfAccs (stfRead s e x).1 e x (stfDescs s e x)
def stfBegun (s : State) (e : Env) (x : Op) : State := (stfRead s e x).1.occupy e.k e.slot (stfCost (stfStores s e x)) 1
/-- Width of its value: 64 bits where a descriptor's type has 64 (R226). -/
def stfWide (s : State) (e : Env) (x : Op) : Nat := if (stfDescs s e x).any fun d => decide (tyRegs d.2.type = 64) then 64 else 32

/-- Nothing stands in the way of STF. -/
structure StfFree (x : Op) (s : State) (e : Env) : Prop where
  fresh : e.gang.deliv = []
  regs : e.regTrap x (rowAt 0xCA x) (maskOf (e.active x.g)) = none
  descs : ((stfAddrs s e x).flatMap fun q => glbReasons s (Env.party s e) q.2.va.toNat 32 false) = []
  clear : raceTrap (s.readHits e ((stfAddrs s e x).map fun q => (q.1, q.2.va.toNat))) = none
  pages : (stfRead s e x).2.2.1 = []
  reads : (stfRead s e x).2.2.2 = none
  good : ((stfRead s e x).2.1.any fun g => (bufDesc g.2).isNone) = false
  value : e.regTrap x (stfRow x (stfWide s e x)) (maskOf (e.active x.g)) = none
  points : stfLate (stfRead s e x).1 e x (stfDescs s e x) = []
  places : ((stfStores s e x).flatMap fun a => glbReasons (stfRead s e x).1 (Env.party (stfRead s e x).1 e) a.va a.size false) = []
  runs : AtOnce (stfBegun s e x) e (stfStores s e x)

/-- The machine in which STF's stores have been made. -/
def stfAfter (s : State) (e : Env) (x : Op) : State := (performed (stfBegun s e x) e (stfStores s e x)).1

/-- The loads of LDSM outside bounds mode, under the header `hd` found at `at'` and read with stamp `d`, and the machine in which they begin. -/
def ldsmLoads (s1 : State) (e : Env) (x : Op) (at' hd d : Nat) : List Acc := ldsmAccs s1 e x d (ldsmUses s1 e x (.got at' hd d s1))
def ldsmBegun (s1 : State) (e : Env) : State := s1.modWarp e.k e.slot fun _ => e.warp

/-- Nothing stands in the way of LDSM outside bounds mode: the header is read, in `s1` then, and every thread's index is an element of it. -/
structure LdsmFree (x : Op) (s : State) (e : Env) (at' hd d : Nat) (s1 : State) : Prop where
  fresh : e.gang.deliv = []
  regs : e.regTrap x (rowAt 0xC9 x) (maskOf (e.active x.g)) = none
  head : s.summHead e x.op7 = .got at' hd d s1
  points : ∀ u ∈ ldsmUses s1 e x (.got at' hd d s1), ∃ va, u.2 = .point va
  places : ((ldsmLoads s1 e x at' hd d).flatMap fun a => glbReasons s1 (Env.party s1 e) a.va a.size false) = []
  clear : ldsmRace s1 e [] (ldsmLoads s1 e x at' hd d) = none
  runs : AtOnce (ldsmBegun s1 e) e (ldsmLoads s1 e x at' hd d)

/-- The machine in which LDSM's loads have been made. -/
def ldsmAfter (s1 : State) (e : Env) (x : Op) (at' hd d : Nat) : State := (performed (ldsmBegun s1 e) e (ldsmLoads s1 e x at' hd d)).1

/-! ## Engine, matrix and solver commands, spawns -/

/-- An instruction that acts once for the warp acts: it is not guarded, or a thread passes its guard (R149). -/
def ActsOnce (e : Env) (x : Op) : Prop := unguarded x.g = true ∨ e.active x.g ≠ []

/-- The operands of such an instruction: those of the lowest active thread, or of lane 0. -/
def onceOps (s : State) (e : Env) (opc : Nat) (x : Op) (lit : Nat) : Srcs := Env.srcs s e x (rowAt opc x) lit ((e.active x.g).headD 0)

/-- Nothing holds the tasks of a command back: the warp's store queue is empty and every task finds an entry (R152, R159). -/
def AllEnter (s : State) (e : Env) (mk : Clock → List Task) : Prop :=
  e.warp.sq = [] ∧ (State.enterMany e.k (mk (e.publish s).1) (e.publish s).2).2 = []

/-- The machine in which they have entered and the gang has gone on. -/
def entered (s : State) (e : Env) (len : Nat) (frees : List Nat) (mk : Clock → List Task) : State :=
  e.done len ((State.enterMany e.k (mk (e.publish s).1) (e.publish s).2).1.modWarp e.k e.slot fun w => w.free frees)

/-- The engine commands that enter one task for each acting lane: opcode, operands, a lane's values, their reasons, its task. -/
structure EngineForm where
  opc : Nat
  x : Op
  vals : State → Env → Nat → List Nat
  reasons : State → Env → List Nat → List Nat
  task : Env → Clock → List Nat → Task

def engineForm : Instr → Option EngineForm
  | .cpy x => some { opc := 0xE0, x := x.op 0, vals := cpyWords (x.op 0), reasons := fun s e ws => copyReasons s e (cpyRec (x.op 0) ws)
                     task := fun e c ws => copyTask e c (cpyRec (x.op 0) ws) }
  | .reduce x => some { opc := 0xE8, x := x.op, vals := redVals 0xE8 x.op, reasons := reduceReasons x.op
                        task := fun e c v => { e.newTask (.reduce (x.op.op7 % 4) x.op.type (e.mode x.op.rm) x.op.sat (x.op.op7 / 8 % 2 = 1) (x.op.op7 / 4 % 2 = 1)
                          (v.getD 0 0) (v.getD 1 0) (v.getD 2 0)) (BitVec.ofNat 32 (v.getD 3 0)) (BitVec.ofNat 32 (v.getD 4 0)) (relOf x.op)
                          (if x.op.op7 / 64 = 1 then some (x.op.op7 / 16 % 4) else none) c with acq := acqOf x.op } }
  | .summ x => some { opc := 0xE9, x := x.op, vals := redVals 0xE9 x.op
                      reasons := fun s e v => (if v.getD 0 0 % 32 ≠ 0 ∨ v.getD 1 0 % tyBytes x.op.type ≠ 0 then [1] else []) ++ virtReasons s e (v.getD 0 0) ++
                        virtReasons s e (v.getD 1 0) ++ refReasons s e (BitVec.ofNat 32 (v.getD 3 0)) false ++ refReasons s e (BitVec.ofNat 32 (v.getD 4 0)) true
                      task := fun e c v => { e.newTask (.summ x.op.type (v.getD 0 0) (v.getD 1 0) (v.getD 2 0)) (BitVec.ofNat 32 (v.getD 3 0))
                        (BitVec.ofNat 32 (v.getD 4 0)) (relOf x.op) none c with acq := acqOf x.op } }
  | _ => none

/-- The values of its acting lanes. -/
def EngineForm.lanes (f : EngineForm) (s : State) (e : Env) : List (Nat × List Nat) := (actors e f.opc f.x false).map fun i => (i, f.vals s e i)

/-- The threads of a SPAWN. -/
def spawnEntry (s : State) (e : Env) (x : Op) (i : Nat) : DWord := BitVec.ofNat 64 (sv1 (Env.srcs s e x (rowAt 0x0E x) (litInt x false 64) i).c).lo
def spawnThreads (s : State) (e : Env) (x : Op) : List Spawned := (e.active x.g).map fun i =>
  let p := (sv1 (Env.srcs s e x (rowAt 0x0E x) (litInt x false 64) i).a).lo
  { uid := e.team.uid.getD 0, entry := spawnEntry s e x i, origin := .spawn, regs := [(0, BitVec.ofNat 32 p), (1, BitVec.ofNat 32 (p / 2 ^ 32))] }

/-- The messages of an MSEND: lane, core, thread; their reasons (R134). -/
def msendSrc (s : State) (e : Env) (x : Op) (i : Nat) : Srcs := Env.srcs s e x (rowAt 0xF3 x) (litInt x false 64) i
def msendMsgs (s : State) (e : Env) (x : Op) : List (Nat × Nat × Spawned) := (e.active x.g).map fun i =>
  let (row, col, _) := msgTarget x (sv1 (msendSrc s e x i).b).lo
  (i, coreAt row col, { uid := e.team.uid.getD 0, entry := BitVec.ofNat 64 (sv1 (msendSrc s e x i).c).lo, origin := .message
                        regs := (List.range 16).map fun j => (j, ((msendSrc s e x i).a.map fun v => BitVec.ofNat 32 v.lo).getD j 0) })

end Sys2Proof.Machine
end

