-- ==== Sys2Proof/Certificates/Slice0/Obligations.lean ====
section
/-!
DEFINITION. The statements for the provers. `Steady s e`: the focus gang of `s`, seen as `e`, stands between two instructions; `e.issued s a f`
is `s` once an instruction of that gang has issued at cost `a` and factor `f` (R326), `e.issuing s a f` the gang there.
-/
open Sys2Proof Sys2Proof.Machine

/-! ## Encoding, fetch, the step -/

/-- Every well-formed instruction decodes from the bytes of its encoding, with every field at every value, whatever follows (R49 to R55,
R67, R71). -/
def Obligations.DecodeEncode : Prop :=
  ∀ i : Instr, i.wf = true → ∀ tail : List Byte, decodeBytes true (bytesOfWords (encode i) ++ tail) = some (i, (encode i).length)

/-- Words that decode are the encoding of what they decode to: no bit of an instruction's words is dropped. -/
def Obligations.EncodeDecode : Prop :=
  ∀ (super : Bool) (w0 : Word) (rest : List Word) (i : Instr) (n : Nat), decodeWords super w0 rest = .instr i n →
    encode i = w0 :: rest.take (n - 1) ∧ n = (encode i).length

/-- What decodes has an encoding, raises no detail code of R67 in its mode, and is as many words long as LEN announces. -/
def Obligations.DecodedHasNoDetail : Prop :=
  ∀ (super : Bool) (w0 : Word) (rest : List Word) (i : Instr) (n : Nat), decodeWords super w0 rest = .instr i n →
    i.code.isSome = true ∧ i.detail super = none ∧ n = lenWords w0

/-- R49: LEN fixes the number of words; they are fetched from consecutive ascending addresses, first word lowest, each little-endian; an
L64 literal is word 1, and an X160 literal has its low half in word 3. -/
def Obligations.InstructionLength : Prop :=
  (∀ super w0 rest i n, decodeWords super w0 rest = .instr i n → n = [1, 2, 3, 5].getD (w0.toNat % 4) 0) ∧
  (∀ s k p va w0 ws, fetchAll s k p va = .ok (w0, ws) → ws.length + 1 = [1, 2, 3, 5].getD (w0.toNat % 4) 0 ∧ fetchWord s k p va = .ok w0 ∧
    ∀ j, j < ws.length → fetchWord s k p ((va + 4 * (j + 1)) % 2 ^ 64) = .ok (ws.getD j 0)) ∧
  (∀ s k p va, s.physical p = true → va + 4 ≤ Config.hbmBytes → fetchWord s k p va = .ok (s.instrWord k p.uid va) ∧
    ((∀ w, ((p.uid, va), w) ∉ (s.core k).ahead) → s.instrWord k p.uid va =
      memByte s.hbm (va + 3) ++ memByte s.hbm (va + 2) ++ memByte s.hbm (va + 1) ++ memByte s.hbm va)) ∧
  (∀ super w0 w1 tail i n, w0.toNat % 4 = 1 → decodeWords super w0 (w1 :: tail) = .instr i n →
    ∃ opc f, i.code = some (opc, .l f) ∧ f.lit = w1) ∧
  (∀ super w0 w1 w2 w3 w4 tail i n, w0.toNat % 4 = 3 → decodeWords super w0 (w1 :: w2 :: w3 :: w4 :: tail) = .instr i n →
    ∃ opc f, i.code = some (opc, .y f (w4 ++ w3)))

/-- Words written out from the encodings of the spec decode to the instructions they stand for (R295, R334, chapter 11's worked encodings). -/
def Obligations.DecodeWords : Prop :=
  decodeWords false 0x00001C04#32 [] = .instr (.nop ⟨⟨false, 7⟩, 0, 0, 0⟩) 1 ∧
  decodeWords false 0x00001C2C#32 [] = .instr (.exit ⟨⟨false, 7⟩, 0, 0, 0⟩) 1 ∧
  decodeWords false 0x0000A408#32 [] = .instr (.brC32 ⟨⟨true, 1⟩, 2⟩) 1 ∧
  decodeWords false 0x0000DC50#32 [] = .instr (.elect ⟨⟨false, 7⟩, 3, 0, 0⟩) 1 ∧
  decodeWords false 0xC4615CE8#32 [] = .instr (.shlC32 ⟨⟨false, 7⟩, 5, 6, 49⟩) 1 ∧
  decodeWords false 0x00109D88#32 [] = .instr (.voteC32 ⟨⟨false, 7⟩, 2, 1, 0⟩) 1 ∧
  (∃ x : X96, decodeWords false 0x00C09D22#32 [0x82000000#32, 0x000A0010#32] = .instr (.icmp x) 3 ∧
    x.d = 2 ∧ x.a = 3 ∧ x.immb = true ∧ x.op7 = 2 ∧ x.imm16 = 10 ∧ x.type = 1) ∧
  decodeWords false 0x00000000#32 [] = .illegal 1

/-- A step of a machine with an empty agenda, or with an issue at its head, runs the instruction that the focus gang's words decode to: the
gang may issue, its wait for a start is over (R327), its warp's floor is set if this is its first instruction (R173), the words at its PC are
fetched and decoded, and `exec` runs what they stand for; words that are no instruction and a fetch that stops take their trap rows (R67, R405). -/
def Obligations.StepRunsDecoded : Prop :=
  ∀ (s0 s s1 : State) (k slot g : Nat) (pace : Option Nat) (e : Env),
    (s0.agenda = [] ∧ (k, slot, g) = s0.focus ∧ pace = none ∧ s = s0) ∨
      (∃ rest, s0.agenda = .issue k slot g :: rest ∧ pace = none ∧ s = { s0 with agenda := rest, focus := (k, slot, g) }) ∨
      (∃ n rest, s0.agenda = .paced k slot g n :: rest ∧ pace = some n ∧ s = { s0 with agenda := rest, focus := (k, slot, g) }) →
    s.mayIssue k slot g = true → s1 = (s.starting pace k slot g).startWarp k slot → s1.env? = some e →
    (∀ w0 ws, fetchAll s1 k (Env.party s1 e) e.pc.toNat = .ok (w0, ws) →
      (∀ i n, decodeWords e.super w0 ws = .instr i n → step s0 = exec i s1) ∧
      (∀ d, decodeWords e.super w0 ws = .illegal d → step s0 = exec (.illegalInstruction d) s1)) ∧
    (∀ r, fetchAll s1 k (Env.party s1 e) e.pc.toNat = .error (.trap r) → step s0 = exec (.instructionFetchFault r) s1) ∧
    (∀ va, fetchAll s1 k (Env.party s1 e) e.pc.toNat = .error (.walk va) →
      ∃ t, step s0 = .next t ∧ t.hbm = s.hbm ∧ ∀ i, i ≠ slot → t.warp? k i = s1.warp? k i)

/-- The agenda's other items: an event row runs at its operands; a way starts the first gang of its order that may issue, which goes to the
back, and with none one cycle passes; a tick lets cycles pass; a core fetches a word ahead, which keeps the content of memory then (R463); and
while a ready gang of a way with G gangs has waited for 2 × G − 1 starts no other starts there (R326, R327; the agenda is the model's own, log 1). -/
def Obligations.StepFollowsAgenda : Prop :=
  (∀ (s : State) (i : Instr) (a : EvArgs) (rest : List Sched), s.agenda = .event i a :: rest → isEventRow i = true →
    step s = exec i { s with agenda := rest, ev := a }) ∧
  (∀ (s : State) (k way : Nat) (rest : List Sched) (p : Nat × Nat), s.agenda = .way k way :: rest →
    ({ s with agenda := rest } : State).wayNext k way = some p →
    step s = step { (({ s with agenda := rest } : State).modCore k fun (c : Core) => { c with order := c.order.filter (· ≠ p) ++ [p] }) with
      agenda := .issue k p.1 p.2 :: rest }) ∧
  (∀ (s : State) (k way : Nat) (p : Nat × Nat), s.wayNext k way = some p →
    p.1 % 8 = way ∧ s.mayIssue k p.1 p.2 = true ∧ p ∈ (s.core k).order) ∧
  (∀ (s : State) (k slot g : Nat) (p : Nat × Nat), p ∈ s.wayGangs k (slot % 8) → p ≠ (slot, g) → s.ready k p.1 p.2 = true →
    2 * (s.wayGangs k (slot % 8)).length ≤ s.waitedOf k p + 1 → s.ready k slot g = true → s.polls k slot g = false → s.mayIssue k slot g = false) ∧
  (∀ (s : State) (k u pa : Nat) (rest : List Sched) (l : Launch), s.agenda = .fetchAhead k (some u) pa :: rest → s.launch u = some l → l.phase = .running →
    ∃ t, step s = .next t ∧ t.instrWord k (some u) pa = BitVec.ofNat 32 (memNat s.hbm pa 4) ∧
      ∀ m, ({ t with hbm := m } : State).instrWord k (some u) pa = BitVec.ofNat 32 (memNat s.hbm pa 4)) ∧
  (∀ (s : State) (d n : Nat) (rest : List Sched), s.agenda = .tick d n :: rest →
    step s = .next (({ s with agenda := rest } : State).modDie d fun x => { x with cycle := x.cycle + n }))

/-- Every step answers a next state: no instruction, no event and no state stops the machine. -/
def Obligations.StepAlwaysAnswers : Prop := ∀ s : State, ∃ t, step s = .next t

/-- Every step keeps both memories in their canonical form: addresses strictly rising, no listed byte at the value an unlisted one has. -/
def Obligations.StepKeepsMemoryCanonical : Prop := ∀ s t : State, MemoryCanonical s → step s = .next t → MemoryCanonical t

/-- After reset both memories are canonical, and on every compute die TVEC, INTPEND, INTEN and the fault queue's indices are 0 and every severity is
the reset severity of its class (R407, R419, R112, R413). -/
def Obligations.ResetState : Prop := MemoryCanonical State.reset ∧ State.reset.dies.length = 4 ∧ ∀ d ∈ State.reset.dies,
  d.tvecLo = 0 ∧ d.tvecHi = 0 ∧ d.intPend = 0 ∧ d.intEn = 0 ∧ d.fqHead = 0 ∧ d.fqTail = 0 ∧ d.sev = sevReset

/-! ## Control flow -/

/-- NOP changes nothing but the PC of its gang; outside bounds mode neither do QUARTER and HANDOFF (R343, R384, R385). -/
def Obligations.NopAndBoundsEndersOnly : Prop := ∀ s e, Steady s e → ElementMode e →
  (∀ x : C32R, Completes (.nop x) s e 4 s e.warp) ∧ (∀ x : C32R, Completes (.quarter x) s e 4 s e.warp) ∧
  (∀ x : C32R, Completes (.handoffC32 x) s e 4 s e.warp) ∧ (∀ x : X96, Completes (.handoff x) s e 12 s e.warp)

/-- R329: what a slice does at a branch decided per thread. With no active thread it falls through; with one destination it goes there; else
the lanes of the first group, those with the destination of the lowest lane that leads, go on and the others are deferred at PCD. -/
def Obligations.SliceDecision : Prop := ∀ (e : Env) (i : Nat) (dest : Nat → DWord) (lead : Nat → Bool) (pcd : DWord),
  (e.sliceExec i = [] → e.decideSlice i dest lead pcd false = .fall) ∧
  (∀ d, e.sliceExec i ≠ [] → (∀ j ∈ e.sliceExec i, dest j = d) → e.decideSlice i dest lead pcd false = .whole d) ∧
  (∀ j ∈ e.sliceExec i, lead j = true → (∀ l ∈ e.sliceExec i, l < j → lead l = false) → (∃ l ∈ e.sliceExec i, dest l ≠ dest j) →
    e.decideSlice i dest lead pcd false =
      .split (dest j) ((e.sliceExec i).filter fun l => dest l = dest j) ((e.sliceExec i).filter fun l => dest l ≠ dest j) pcd false)

/-- BR (R335): without a guard every slice of the gang goes to the target, the BR's own address and 4 times the signed displacement; under a
guard each slice decides, the taken path first (`brDecision`), with room for what it pushes. Nothing but slices and EXEC bits of the gang changes. -/
def Obligations.BranchesSteer : Prop := ∀ s e, Steady s e → ElementMode e →
  (∀ pc w n, relTarget pc w n = BitVec.ofInt 64 ((pc.toNat : Int) + 4 * sIntOf w n)) ∧
  (∀ x : C32J, unguarded x.g = true →
    Steers (.brC32 x) s e (e.issued s 1 1) 4 (fun _ => none) (fun _ y => { y with pc := relTarget e.pc 18 x.j.toNat })) ∧
  (∀ x : L64, unguarded x.g = true →
    Steers (.brL64 x) s e (e.issued s 1 1) 8 (fun _ => none) (fun _ y => { y with pc := relTarget e.pc 32 x.lit.toNat })) ∧
  (∀ x : C32J, unguarded x.g = false →
    (∀ i ∈ e.slices, (e.stk i).length + (brDecision e x.g (relTarget e.pc 18 x.j.toNat) (e.pc + 4#64) i).pushes ≤ 16) →
    Steers (.brC32 x) s e (e.issued s 1 1) 4 (fun i => (brDecision e x.g (relTarget e.pc 18 x.j.toNat) (e.pc + 4#64) i).exec)
      (fun i => (brDecision e x.g (relTarget e.pc 18 x.j.toNat) (e.pc + 4#64) i).slice e.handling (e.pc + 4#64) (e.warp.execMask i))) ∧
  (∀ x : L64, unguarded x.g = false →
    (∀ i ∈ e.slices, (e.stk i).length + (brDecision e x.g (relTarget e.pc 32 x.lit.toNat) (e.pc + 8#64) i).pushes ≤ 16) →
    Steers (.brL64 x) s e (e.issued s 1 1) 8 (fun i => (brDecision e x.g (relTarget e.pc 32 x.lit.toNat) (e.pc + 8#64) i).exec)
      (fun i => (brDecision e x.g (relTarget e.pc 32 x.lit.toNat) (e.pc + 8#64) i).slice e.handling (e.pc + 8#64) (e.warp.execMask i)))

/-- BRI and CALLI (R336, R337): where A is mapped and every target is a canonical word address, each slice decides between the targets of its
active threads (`indirectDecision`: PCD is the instruction itself, and an entry of its own in phase 1 is used again); under CALLI each slice
that does not fall through then pushes its return address. -/
def Obligations.IndirectBranchesSteer : Prop := ∀ s e, Steady s e → ElementMode e → ∀ (opc : Nat) (call : Bool) (x : Op) (i : Instr),
  (call = false ∧ opc = 0x03 ∧ ((∃ f : C32R, i = .briC32 f ∧ x = f.op 0) ∨ ∃ f : X96, i = .bri f ∧ x = f.op)) ∨
    (call = true ∧ opc = 0x05 ∧ ((∃ f : C32R, i = .calliC32 f ∧ x = f.op 0) ∨ ∃ f : X96, i = .calli f ∧ x = f.op)) →
  e.regTrap x (rowAt opc x) (maskOf (e.active x.g)) = none →
  (∀ a ∈ indirectTargets (e.issued s 1 1) (e.issuing s 1 1) opc x, badTarget a = false) →
  (∀ j ∈ e.slices, (e.stk j).length + (indirectDecision (e.issued s 1 1) (e.issuing s 1 1) opc x j).pushes +
    (if (indirectDecision (e.issued s 1 1) (e.issuing s 1 1) opc x j).calls call then 1 else 0) ≤ 16) →
  Steers i s e (e.issued s 1 1) x.form.bytes (fun j => (indirectDecision (e.issued s 1 1) (e.issuing s 1 1) opc x j).exec)
    (fun j y =>
      let d := indirectDecision (e.issued s 1 1) (e.issuing s 1 1) opc x j
      let y1 := d.slice e.handling (e.pc + BitVec.ofNat 64 x.form.bytes) (e.warp.execMask j) y
      if d.calls call then Slice.called e.handling (e.pc + BitVec.ofNat 64 x.form.bytes) y1 else y1)

/-- CALL pushes its return address in every slice and goes to its target; RET pops it and returns (R337). -/
def Obligations.CallsAndReturns : Prop := ∀ s e, Steady s e → ElementMode e →
  (∀ x : C32J, (∀ i ∈ e.slices, (e.stk i).length < 16) → Steers (.callC32 x) s e (e.issued s 1 1) 4 (fun _ => none)
    (fun _ y => Slice.called e.handling (e.pc + 4#64) { y with pc := relTarget e.pc 18 x.j.toNat })) ∧
  (∀ x : L64, (∀ i ∈ e.slices, (e.stk i).length < 16) → Steers (.callL64 x) s e (e.issued s 1 1) 8 (fun _ => none)
    (fun _ y => Slice.called e.handling (e.pc + 8#64) { y with pc := relTarget e.pc 32 x.lit.toNat })) ∧
  (∀ x : C32R, (∀ i ∈ e.slices, ∃ ra rest, e.stk i = .call ra :: rest) →
    Steers (.ret x) s e (e.issued s 1 1) 4 (fun _ => none) (fun _ => Slice.returned e.handling))

/-- JOIN applies the join action to the split entry on top of each slice, and passes a slice with an empty stack (R331, R338); YIELD exchanges
the running and the deferred path, and the gang goes to the back of its way's order (R339). -/
def Obligations.JoinAndYield : Prop := ∀ s e, Steady s e → ElementMode e →
  (∀ x : C32R, (∀ i ∈ e.slices, ∀ ra rest, e.stk i ≠ .call ra :: rest) →
    Steers (.join x) s e (e.issued s 1 1) 4 (fun i => joinExec (e.stk i)) (fun i => Slice.joined e.warp i e.handling e.pc (e.pc + 4#64))) ∧
  (∀ x : C32R, Steers (.yield x) s e ((e.issued s 1 1).modCore e.k fun (c : Core) =>
      { c with order := c.order.filter (· ≠ (e.slot, e.gid)) ++ [(e.slot, e.gid)] }) 4
    (fun i => yieldExec (e.stk i)) (fun i => Slice.yielded e.warp i e.handling (e.pc + 4#64)))

/-- R332: an instruction that would push onto a stack of 16 entries takes the control trap with reason 1, and no PC, EXEC bit or stack has
changed where it takes it; so do RET and JOIN with reason 2 (R344). -/
def Obligations.StackTraps : Prop := ∀ s e, Steady s e → ElementMode e →
  (∀ x : C32J, (∃ i ∈ e.slices, 16 ≤ (e.stk i).length) →
    exec (.callC32 x) s = .next ((e.issued s 1 1).takeTrap e.k e.slot e.gid { cls := 6, reason := 1, mask := maskOf e.lanes } 4)) ∧
  (∀ x : L64, (∃ i ∈ e.slices, 16 ≤ (e.stk i).length) →
    exec (.callL64 x) s = .next ((e.issued s 1 1).takeTrap e.k e.slot e.gid { cls := 6, reason := 1, mask := maskOf e.lanes } 8)) ∧
  (∀ x : C32J, unguarded x.g = false → (∃ i ∈ e.slices, 16 ≤ (e.stk i).length ∧
      (brDecision e x.g (relTarget e.pc 18 x.j.toNat) (e.pc + 4#64) i).pushes = 1) →
    exec (.brC32 x) s = .next ((e.issued s 1 1).takeTrap e.k e.slot e.gid { cls := 6, reason := 1, mask := maskOf e.lanes } 4)) ∧
  (∀ x : C32R, (∃ i ∈ e.slices, ∀ ra rest, e.stk i ≠ .call ra :: rest) →
    exec (.ret x) s = .next ((e.issued s 1 1).takeTrap e.k e.slot e.gid { cls := 6, reason := 2, mask := maskOf e.lanes } 4)) ∧
  (∀ x : C32R, (∃ i ∈ e.slices, ∃ ra rest, e.stk i = .call ra :: rest) →
    exec (.join x) s = .next ((e.issued s 1 1).takeTrap e.k e.slot e.gid { cls := 6, reason := 2, mask := maskOf e.lanes } 4)) ∧
  (e.issued s 1 1).warp? e.k e.slot = some e.warp

/-- REGANG whose mask names the gang's own slices and no other live one passes at once (R341); REGROUP with a partner that has retired writes
0 to its predicate in every active thread and goes on (R342). -/
def Obligations.RegangAndRegroup : Prop := ∀ s e, Steady s e → ElementMode e →
  (∀ x : C32I, ownSlices e x.imm.toNat → Completes (.regangC32 x) s e 4 s e.warp) ∧
  (∀ x : X96, e.regTrap x.op (rowAt 0x09 x.op) (maskOf e.lanes) = none → ownSlices e (uniA (e.issued s 1 1) 0x09 x.op) →
    Completes (.regang x) s e 12 s e.warp) ∧
  (e.warp.sq = [] → e.warp.gangs.length ≤ 1 → (∀ i ∈ e.slices, e.stk i = []) →
    (∀ x : C32R, e.regTrap (x.op 0) (rowAt 0x0A (x.op 0)) (maskOf e.lanes) = none →
      uniA (e.issued s 1 1) 0x0A (x.op 0) ≠ e.warp.warpId ∧ uniA (e.issued s 1 1) 0x0A (x.op 0) < e.team.teamW →
      (s.core e.k).partner e.warp.team (uniA (e.issued s 1 1) 0x0A (x.op 0)) = none →
      Completes (.regroupC32 x) s e 4 s (e.predAll ((x.op 0).d % 8) false)) ∧
    (∀ x : X96, e.regTrap x.op (rowAt 0x0A x.op) (maskOf e.lanes) = none →
      uniA (e.issued s 1 1) 0x0A x.op ≠ e.warp.warpId ∧ uniA (e.issued s 1 1) 0x0A x.op < e.team.teamW →
      (s.core e.k).partner e.warp.team (uniA (e.issued s 1 1) 0x0A x.op) = none →
      Completes (.regroup x) s e 12 s (e.predAll (x.op.d % 8) false)))

/-- EXIT ends the active threads whose guard passes (R340); SLEEP stands past itself and stalls for the cycles that A gives, SLEEP of 0 not at
all; BKPT takes the breakpoint trap when it is unguarded or a thread passes its guard (R343). -/
def Obligations.ExitSleepBreakpoint : Prop := ∀ s e, Steady s e → ElementMode e →
  (∀ x : C32R, exec (.exit x) s = .next (e.done 4 ((e.issued s 1 1).endThreads e.k e.slot (e.active x.g)))) ∧
  (∀ (w : Warp) (ls : List Nat) (s1 : State), s1.warp? e.k e.slot = some w → w.lanes.length = 32 →
    ∃ v, (s1.endThreads e.k e.slot ls).warp? e.k e.slot = some v ∧ v.vregs = w.vregs ∧ v.sq = w.sq ∧
      (∀ j ∈ ls, j < 32 → (v.lane j).live = false ∧ (v.lane j).exec = false) ∧ (∀ j, j ∉ ls → v.lane j = w.lane j)) ∧
  (∀ x : X96, e.regTrap x.op (rowAt 0x0D x.op) (maskOf e.lanes) = none → exec (.sleep x) s = .next (
    if uniA (e.issued s 1 1) 0x0D x.op = 0 then e.done 12 ((e.issued s 1 1).drawn 1)
    else e.stall (.sleep (((e.issued s 1 1).die (dieOf e.k)).cycle + uniA (e.issued s 1 1) 0x0D x.op)) (e.done 12 ((e.issued s 1 1).drawn 1)))) ∧
  (∀ x : C32R, unguarded x.g = true ∨ e.active x.g ≠ [] → exec (.bkpt x) s =
    .next ((e.issued s 1 1).takeTrap e.k e.slot e.gid { cls := 6, reason := 5, mask := maskOf (e.active x.g) } 4))

/-! ## Barriers -/

/-- R365: what an arrival of `a` threads with a count does to a named barrier. The first fixes EXP; a count that is out of range or differs is
reason 2, arrivals beyond EXP reason 3; the arrival that fills it flips the phase bit and leaves EXP unset and ARR 0. -/
def Obligations.BarrierArrival : Prop := ∀ (b : Barrier) (w a count : Nat) (c : Clock),
  (count = 0 ∨ 16 * w < count → b.arrive w a count c = .error 2) ∧
  (∀ n, b.exp = some n → n ≠ count → b.arrive w a count c = .error 2) ∧
  (0 < count → count ≤ 16 * w → b.exp = none ∨ b.exp = some count →
    (count < b.arr + a → b.arrive w a count c = .error 3) ∧
    (b.arr + a = count → ∃ v, b.arrive w a count c = .ok (v, true) ∧ v.exp = none ∧ v.arr = 0 ∧ v.phase = !b.phase) ∧
    (b.arr + a < count → ∃ v, b.arrive w a count c = .ok (v, false) ∧ v.exp = some count ∧ v.arr = b.arr + a ∧ v.phase = b.phase))

/-- BARA, BARW and BARS (R365, R366): with the warp's store queue drained, an arrival that R365 takes is made, every live slice of the gang
pending until the phase completes, and the gang goes on; BARW and BARS then wait while a slice of the gang is pending, and a gang that passes is
ordered after the phases that its slices arrived in (R189). -/
def Obligations.NamedBarriers : Prop := ∀ s e, Steady s e → ElementMode e → ∀ id, id < e.team.barriers.length →
  (e.warp.sq = [] → ∀ (n : Nat) (q : Barrier × Bool),
    (e.team.barriers.getD id {}).arrive e.w e.lanes.length n ((e.issuing s 1 1).publish ((e.issued s 1 1).drawn 1)).1 = .ok q →
    (∀ x : C32I, x.imm.toNat % 64 = id → n = x.imm.toNat / 64 % 32 * e.w →
      exec (.baraC32 x) s = .next (arrived (e.issued s 1 1) (e.issuing s 1 1) 4 id q)) ∧
    (∀ x : X96, x.op7.toNat % 64 = id → e.regTrap x.op (rowAt 0x10 x.op) (maskOf e.lanes) = none → n = uniA (e.issued s 1 1) 0x10 x.op →
      exec (.bara x) s = .next (arrived (e.issued s 1 1) (e.issuing s 1 1) 12 id q)) ∧
    (∀ x : C32I, x.imm.toNat % 64 = id → n = x.imm.toNat / 64 % 32 * e.w →
      exec (.barsC32 x) s = .next ((arrived (e.issued s 1 1) (e.issuing s 1 1) 4 id q).waitAt e.k e.slot e.gid id)) ∧
    (∀ x : X96, x.op7.toNat % 64 = id → e.regTrap x.op (rowAt 0x12 x.op) (maskOf e.lanes) = none → n = uniA (e.issued s 1 1) 0x12 x.op →
      exec (.bars x) s = .next ((arrived (e.issued s 1 1) (e.issuing s 1 1) 12 id q).waitAt e.k e.slot e.gid id))) ∧
  (∀ x : C32I, x.imm.toNat % 64 = id → exec (.barwC32 x) s = .next ((e.done 4 (e.issued s 1 1)).waitAt e.k e.slot e.gid id)) ∧
  (∀ x : X96, x.op7.toNat % 64 = id → exec (.barw x) s = .next ((e.done 12 (e.issued s 1 1)).waitAt e.k e.slot e.gid id)) ∧
  (∀ (t : State) (e1 : Env), t.envOf e.k e.slot e.gid = some e1 →
    (e1.warp.pendingAt e.gid id = true → t.waitAt e.k e.slot e.gid id = e1.stall (.barrier id) t) ∧
    (e1.warp.pendingAt e.gid id = false →
      t.waitAt e.k e.slot e.gid id = t.modGang e.k e.slot e.gid fun g => g.after (e1.warp.passedAt e.gid id)))

/-- The barrier trap (R367) of BARA: an id at or above the team's count is reason 1; a count or an arrival that R365 does not take its reason. -/
def Obligations.BarrierTraps : Prop := ∀ s e, Steady s e → ElementMode e → ∀ x : C32I,
  (e.team.barriers.length ≤ x.imm.toNat % 64 →
    exec (.baraC32 x) s = .next ((e.issued s 1 1).takeTrap e.k e.slot e.gid { cls := 7, reason := 1, mask := maskOf e.lanes } 4)) ∧
  (∀ r, x.imm.toNat % 64 < e.team.barriers.length →
    (e.team.barriers.getD (x.imm.toNat % 64) {}).arrive e.w e.lanes.length (x.imm.toNat / 64 % 32 * e.w) [] = .error r →
    exec (.baraC32 x) s = .next ((e.issued s 1 1).takeTrap e.k e.slot e.gid { cls := 7, reason := r, mask := maskOf e.lanes } 4))

/-- RBAR (R368): in a one-per-core launch, on a subgroup that holds the gang's core and that no other warp of its team contradicts, the gang
stands at the RBAR, and the phase completes if every team of the subgroup has arrived. -/
def Obligations.RectangleBarrier : Prop := ∀ s e, Steady s e → ElementMode e →
  ∀ (x : X96) (l : Launch) (r : Nat × Nat × Nat × Nat), e.regTrap x.op (rowAt 0x13 x.op) (maskOf e.lanes) = none → e.launch = some l →
    l.onePerCore = true → subgroupOf l (uniA (e.issued s 1 1) 0x13 x.op) = some r → inSubgroup r e.k = true →
    (∀ w ∈ (s.core e.k).warps, w.1 ≠ e.slot → w.2.team = e.warp.team → ∀ g ∈ w.2.gangs, ∀ o m n, g.wait = .rbar o m n →
      o = uniA (e.issued s 1 1) 0x13 x.op) →
    exec (.rbar x) s = .next ((e.stall (.rbar (uniA (e.issued s 1 1) 0x13 x.op) (s.core e.k).seq 12) ((e.issued s 1 1).drawn 1)).tryRbar
      (e.team.uid.getD 0) (uniA (e.issued s 1 1) 0x13 x.op))

/-- R142: every update of a barrier object adds or subtracts and is then tested with Complete, which with ARRV and PENDB both 0 counts the
phase and makes ARRV INIT again. PENDB may run negative. -/
def Obligations.ObjectUpdates : Prop := ∀ (o : BObj) (c : Clock),
  (o.arrv = 0 → o.pendb = 0 → o.complete.phcnt = (o.phcnt + 1) % 2 ^ 32 ∧ o.complete.arrv = o.init ∧ o.complete.pendb = 0 ∧ o.complete.init = o.init) ∧
  (o.arrv ≠ 0 ∨ o.pendb ≠ 0 → o.complete = o) ∧
  (∀ n : Nat, o.pendb + n < 2 ^ 31 → -2 ^ 31 ≤ o.pendb + n →
    (BUpd.expect n).apply c o = some ({ o with pendb := o.pendb + n, pend := Clock.join o.pend c } : BObj).complete) ∧
  (∀ n : Nat, o.pendb - n < 2 ^ 31 → -2 ^ 31 ≤ o.pendb - n →
    (BUpd.landed n).apply c o = some ({ o with pendb := o.pendb - n, pend := Clock.join o.pend c } : BObj).complete) ∧
  (∀ n : Nat, n ≤ o.arrv → (BUpd.arrive n).apply c o = some ({ o with arrv := o.arrv - n, pend := Clock.join o.pend c } : BObj).complete)

/-- BOINIT, BOEXP, BOARR and BOFREE (R146): with the warp's store queue drained and every acting thread's check passed, each acting thread
acts in ascending lane order (`objDo`), last-read names are freed, and the gang goes on. What each does to an object of its own allocation. -/
def Obligations.ObjectInstructions : Prop :=
  (∀ s e, Steady s e → ElementMode e → ∀ (x : X96) (opc : Nat) (op : ObjOp) (i : Instr),
    (i, opc, op) ∈ [(Instr.boinit x, 0xE2, ObjOp.init), (Instr.boexp x, 0xE3, ObjOp.expect), (Instr.boarr x, 0xE4, ObjOp.arrive), (Instr.bofree x, 0xE6, ObjOp.free)] →
    actors e opc x.op (x.op.op7 % 2 = 1) ≠ [] → e.regTrap x.op (rowAt opc x.op) (maskOf (e.active x.op.g)) = none →
    ∀ s1 e1, s1 = e.paid s opc x.op → e1 = e.paying s opc x.op →
    objCheck s1 e1 op (if e.det then e.gang.publish.1 else []) (objTodo s1 e1 opc x.op) [] = [] → e.warp.sq = [] →
    exec i s = .next (e.done 12 (e.freed x.op (rowAt opc x.op)
      (((objTodo s1 e1 opc x.op).foldl (objDo e1 op (e1.publish s1).1) (e1.publish s1).2).drawn 2)))) ∧
  (∀ (s : State) (e : Env) (c : Clock) (lane a v : Nat) (p : Nat × Nat), objAddr s e a = .ok p → p.1 = e.k →
    objDo e .init c s (lane, a, v) = s.tagObj p v ∧ objDo e .expect c s (lane, a, v) = s.updateObj p (.expect v) c ∧
    objDo e .arrive c s (lane, a, v) = s.updateObj p (.arrive v) c ∧ objDo e .free c s (lane, a, v) = s.untagObj p)

/-- BOWAIT (R147): with its objects tagged, .try writes a predicate; otherwise the gang goes on where every thread's object has a PHASE other
than its parity, and stalls for the rest. -/
def Obligations.ObjectWaits : Prop := ∀ s e, Steady s e → ElementMode e → ∀ (x : Op) (i : Instr),
  (∃ f : C32R, i = .bowaitC32 f ∧ x = f.op 0) ∨ (∃ f : X96, i = .bowait f ∧ x = f.op) →
  ∀ s1 e1, s1 = e.paid s 0xE5 x → e1 = e.paying s 0xE5 x →
  e.regTrap x (rowAt 0xE5 x) (maskOf (e.active x.g)) = none → bowaitBad s1 e1 x = [] →
  (x.op7 = 1 → e.active x.g ≠ [] → exec i s = .next (e.done x.form.bytes (e.freed x (rowAt 0xE5 x) (((s1.drawn 2).modWarp e.k e.slot fun _ =>
      bowaitPreds s1 e1 x).acquire e.k e.slot (bowaitScope x))))) ∧
  (x.op7 ≠ 1 → bowaitWho e x ≠ [] → bowaitLeft s1 e1 x = [] →
    exec i s = .next (e.done x.form.bytes (e.freed x (rowAt 0xE5 x) ((bowaitJoined s1 e1 x).acquire e.k e.slot (bowaitScope x))))) ∧
  (x.op7 ≠ 1 → bowaitWho e x ≠ [] → ∀ t l, bowaitLeft s1 e1 x = t :: l →
    exec i s = .next (e.stall (.bowait ((t :: l).map fun t => (t.1, t.2.1.1, t.2.1.2, t.2.2)) (bowaitScope x) x.form.bytes (e.frees x (rowAt 0xE5 x)))
      (bowaitJoined s1 e1 x)))

/-! ## Register-computing instructions -/

/-- What a thread outside bounds mode reads at a position (R57, R97, R193, R204): the bits of the vector name it names, IX added where the
index bit is set, of an even and odd pair for 64 bits, or of a uniform name; the value is a point. -/
def Obligations.OperandsRead : Prop := ∀ (s : State) (e : Env) (p : PosBits) (lane : Nat), (e.warp.lane lane).bounds = false →
  (∀ w i, (Env.readAt s e p w i lane).hi = (Env.readAt s e p w i lane).lo ∧ (Env.readAt s e p w i lane).nan = false) ∧
  e.base p = (if p.ix then p.code + e.warp.ix.toNat else p.code) ∧
  (p.bank = false → ∀ i, (Env.readAt s e p 32 i lane).lo = (e.warp.vec (e.base p + i) lane).lo.toNat ∧
    (Env.readAt s e p 64 i lane).lo = (e.warp.vec (e.base p + 2 * i) lane).lo.toNat + (e.warp.vec (e.base p + 2 * i + 1) lane).lo.toNat * 2 ^ 32) ∧
  (p.bank = true → p.code < 64 → ∀ i, (Env.readAt s e p 32 i lane).lo = (e.warp.uni e.handling (p.code + i)).lo.toNat) ∧
  (p.bank = true → p.code = 64 → lane < 2 ^ 32 → (Env.readAt s e p 32 0 lane).lo = lane) ∧
  (p.bank = true → p.code = 66 → lane < 2 ^ 32 → (Env.readAt s e p 32 0 lane).lo = lane / 4)

/-- Every instruction of the register-computing opcodes retires wherever no register trap is due and FPMODE enables no trap, with any operands,
and leaves everything as it was but its destinations, names that last-read bits free, and flags and draw counters of threads. -/
def Obligations.RegisterInstructionsRetire : Prop :=
  ∀ (i : Instr) (opc : Nat) (b : Body), i.code = some (opc, b) → registerOpcode opc = true → RegisterRetires i opc (b.op opc)

/-- The register trap is precise (R201 to R203): where one is due and a thread computes, the instruction takes it in the machine as it issued. Its reason (R202):
1 for a name below the allocation that is read and not mapped, 2 for a name at or above it. -/
def Obligations.RegisterTraps : Prop :=
  (∀ (i : Instr) (opc : Nat) (b : Body), i.code = some (opc, b) → registerOpcode opc = true →
    ∀ s e t, Steady s e → ElementMode e → aluWho opc (b.op opc) (rowAt opc (b.op opc)) (e.active (b.op opc).g) ≠ [] →
      e.regTrap (b.op opc) (rowAt opc (b.op opc)) (maskOf (e.active (b.op opc).g)) = some t →
      ∃ a f, exec i s = .next ((e.issued s a f).takeTrap e.k e.slot e.gid t (b.op opc).form.bytes)) ∧
  (∀ (e : Env) (p : PosBits) (n : Nat) (rd : Bool),
    (n = e.base p → n < e.team.n → alook n e.warp.vregs = none → vecReasons e [(p, 32, 1, true)] = [1]) ∧
    (n = e.base p → e.team.n ≤ n → vecReasons e [(p, 32, 1, rd)] = [2]) ∧
    (n = e.base p → n < e.team.n → rd = false ∨ (alook n e.warp.vregs).isSome = true → vecReasons e [(p, 32, 1, rd)] = []))

/-- R239: Fit. An exact value in the type's range stays, and raises nothing; one outside wraps modulo 2^w, or with SAT becomes the nearer bound
and raises SAT. Register patterns of the integer types: what is written reads back (R75). -/
def Obligations.FitRule : Prop := ∀ t ∈ [1, 2, 3, 4, 12, 13, 14, 15], ∀ (sat : Bool) (v : Int),
  (intMin t ≤ v → v ≤ intMax t → fit t sat v = (v, 0) ∧ intOf t (intBits t v) = v ∧ intBits t v < 2 ^ tyRegs t) ∧
  (v < intMin t ∨ intMax t < v → (fit t false v).2 = 0 ∧ intMin t ≤ (fit t false v).1 ∧ (fit t false v).1 ≤ intMax t ∧
    ((2 ^ tyBits t : Nat) : Int) ∣ (fit t false v).1 - v) ∧
  (v < intMin t → fit t true v = (intMin t, fSAT)) ∧ (intMax t < v → fit t true v = (intMax t, fSAT))

/-- The results of the add and multiply families in a vector destination (R242, R244): the pattern of Fit of the exact value, in each active thread. -/
def Obligations.IntegerResults : Prop :=
  (∀ x : Long, ∀ t, t = (x.op 1).type → ResultIn (.iadd x) 0x20 (x.op 1) (litInt (x.op 1) (tySigned t) (tyRegs t)) (tyRegs t) fun _ _ v =>
    intBits t (fit t (x.op 1).sat (intOf t (sv1 v.a).lo + intOf t (sv1 v.b).lo)).1) ∧
  (∀ x : Long, ∀ t, t = (x.op 1).type → ResultIn (.isub x) 0x21 (x.op 1) (litInt (x.op 1) (tySigned t) (tyRegs t)) (tyRegs t) fun _ _ v =>
    intBits t (fit t (x.op 1).sat (intOf t (sv1 v.a).lo - intOf t (sv1 v.b).lo)).1) ∧
  (∀ x : Long, ∀ t, t = (x.op 1).type → ResultIn (.imul x) 0x24 (x.op 1) (litInt (x.op 1) (tySigned t) (tyRegs t)) (tyRegs t) fun _ _ v =>
    intBits t (fit t (x.op 1).sat (intOf t (sv1 v.a).lo * intOf t (sv1 v.b).lo)).1) ∧
  (∀ x : X96, ∀ t, t = x.op.type → ResultIn (.ineg x) 0x2A x.op (litInt x.op (tySigned t) (tyRegs t)) (tyRegs t) fun _ _ v =>
    intBits t (fit t x.sat (-(intOf t (sv1 v.a).lo))).1) ∧
  (∀ x : X96, ∀ t, t = x.op.type → ResultIn (.imin (.x x)) 0x2C x.op (litInt x.op (tySigned t) (tyRegs t)) (tyRegs t) fun _ _ v =>
    intBits t (min (intOf t (sv1 v.a).lo) (intOf t (sv1 v.b).lo))) ∧
  (∀ x : X96, ∀ t, t = x.op.type → ResultIn (.imax (.x x)) 0x2D x.op (litInt x.op (tySigned t) (tyRegs t)) (tyRegs t) fun _ _ v =>
    intBits t (max (intOf t (sv1 v.a).lo) (intOf t (sv1 v.b).lo)))

/-- The results of the bitwise group and of shifts in a vector destination (R246, R247), in each active thread; w is 32 or 64. -/
def Obligations.BitwiseAndShiftResults : Prop :=
  (∀ x : Long, (x.op 0).type = 0 ∨ (x.op 0).type = 4 → ∀ w l, w = tyRegs (x.op 0).type → l = litInt (x.op 0) false w →
    (ResultIn (.and x) 0x34 (x.op 0) l w fun _ _ v => (sv1 v.a).lo % 2 ^ w &&& (sv1 v.b).lo % 2 ^ w) ∧
    (ResultIn (.or x) 0x35 (x.op 0) l w fun _ _ v => (sv1 v.a).lo % 2 ^ w ||| (sv1 v.b).lo % 2 ^ w) ∧
    (ResultIn (.xor x) 0x36 (x.op 0) l w fun _ _ v => (sv1 v.a).lo % 2 ^ w ^^^ (sv1 v.b).lo % 2 ^ w)) ∧
  (∀ x : X96, x.op.type = 0 ∨ x.op.type = 4 → ∀ w, w = tyRegs x.op.type →
    (ResultIn (.not x) 0x37 x.op (litInt x.op false w) w fun _ _ v => 2 ^ w - 1 - (sv1 v.a).lo % 2 ^ w) ∧
    (ResultIn (.shl x) 0x3A x.op (litInt x.op false 32) w fun _ _ v =>
      if (sv1 v.b).lo % 2 ^ 32 < w then (sv1 v.a).lo % 2 ^ w * 2 ^ ((sv1 v.b).lo % 2 ^ 32) % 2 ^ w else 0) ∧
    (ResultIn (.shr x) 0x3B x.op (litInt x.op false 32) w fun _ _ v =>
      if (sv1 v.b).lo % 2 ^ 32 < w then (sv1 v.a).lo % 2 ^ w / 2 ^ ((sv1 v.b).lo % 2 ^ 32) else 0))

/-- The results of FADD, FMUL, FMA, FABS and FNEG in a vector destination (R266, R270): the operation on the decoded operands, rounded once
in the mode in force (R85) with RoundTo or RoundSat; FABS clears the sign bit of the pattern, FNEG inverts it. -/
def Obligations.FloatResults : Prop :=
  (∀ x : X96, x.op.type = 5 ∨ x.op.type = 6 → ∀ f w l, f = fmtOf x.op.type → w = tyRegs x.op.type → l = litFloat x.op x.op.type →
    (ResultIn (.fadd (.x x)) 0x80 x.op l w fun e _ v =>
      (fAddX f (e.mode x.op.rm) x.sat (fDecode f ((sv1 v.a).lo % 2 ^ w)) (fDecode f ((sv1 v.b).lo % 2 ^ w))).bits) ∧
    (ResultIn (.fmul (.x x)) 0x82 x.op l w fun e _ v =>
      (fMulX f (e.mode x.op.rm) x.sat (fDecode f ((sv1 v.a).lo % 2 ^ w)) (fDecode f ((sv1 v.b).lo % 2 ^ w))).bits) ∧
    (ResultIn (.fma (.x x)) 0x83 x.op l w fun e _ v =>
      (fFmaX f (e.mode x.op.rm) x.sat (fDecode f ((sv1 v.a).lo % 2 ^ w)) (fDecode f ((sv1 v.b).lo % 2 ^ w)) (fDecode f ((sv1 v.c).lo % 2 ^ w))).bits) ∧
    (ResultIn (.fabs x) 0x88 x.op l w fun _ _ v => (sv1 v.a).lo % 2 ^ (w - 1)) ∧
    (ResultIn (.fneg x) 0x89 x.op l w fun _ _ v => ((sv1 v.a).lo + 2 ^ (w - 1)) % 2 ^ w)) ∧
  (∀ f ∈ [fp64, fp32, fp16, bf16, e5m2, e4m3, e2m1], ∀ mode sat,
    (∀ n, fAddX f mode sat (.inf n) (.inf !n) = nanOut f fNV) ∧ (∀ n e b, fMulX f mode sat (.fin n 0 e) (.inf b) = nanOut f fNV) ∧
    (∀ y, fAddX f mode sat (.nan true) y = nanOut f fNV) ∧ fAddX f mode sat (.nan false) (.fin false 0 0) = nanOut f 0)

/-- R80: a value that a format represents rounds to its own code, and nothing is raised, in every mode. -/
def Obligations.RepresentableRoundsToItself : Prop :=
  ∀ f ∈ [fp64, fp32, fp16, bf16, e5m2, e4m3, e2m1], ∀ (mode q : Nat) (sat : Bool) (c : Nat) (n : Bool) (m : Nat) (e : Int), c < 2 ^ f.w →
    fDecode f c = .fin n m e → roundTo f mode sat q { neg := n, m := m, e := e } = { bits := c, fl := 0 }

/-- R83: a conversion to an integer type rounds to an integer under the mode, then delivers it with NX when it differs, or the nearest bound
with NV; an infinity gives the bound of its sign and a NaN gives 0, with NV. -/
def Obligations.FloatToInteger : Prop :=
  (∀ (t mode : Nat) (n : Bool) (m : Nat) (e : Int), mode ≤ 4 → ∀ (i num den : Int), i = (roundInt mode 0 { neg := n, m := m, e := e }).1 →
    num = (if n then -1 else 1) * (m : Int) * 2 ^ e.toNat → den = 2 ^ (-e).toNat →
    ((mode = 0 → 2 * (i * den - num).natAbs ≤ den ∧ (2 * ((i * den - num).natAbs : Int) = den → i % 2 = 0)) ∧
     (mode = 1 → i = Int.tdiv num den) ∧ (mode = 2 → i = -(Int.fdiv (-num) den)) ∧ (mode = 3 → i = Int.fdiv num den) ∧
     (mode = 4 → 2 * (i * den - num).natAbs ≤ den ∧ (2 * ((i * den - num).natAbs : Int) = den → num.natAbs < i.natAbs * den))) ∧
    (intMin t ≤ i → i ≤ intMax t → toIntX t mode 0 (.fin n m e) = (i, if i * den = num then 0 else fNX)) ∧
    (i < intMin t → toIntX t mode 0 (.fin n m e) = (intMin t, fNV)) ∧ (intMax t < i → intMin t ≤ i → toIntX t mode 0 (.fin n m e) = (intMax t, fNV))) ∧
  (∀ t mode, toIntX t mode 0 (.inf true) = (intMin t, fNV) ∧ toIntX t mode 0 (.inf false) = (intMax t, fNV) ∧
    ∀ sig, toIntX t mode 0 (.nan sig) = (0, fNV))

/-- R272: exactly one of bits 9 to 0 of FCLASS's mask is set; the class follows the sign, the exponent and the mantissa. -/
def Obligations.FloatClass : Prop :=
  (∀ x : X96, ResultIn (.fclass x) 0x87 x.op (litFloat x.op x.op.type) 32 fun _ _ v =>
    fClassX (fmtOf x.op.type) ((sv1 v.a).lo % 2 ^ (fmtOf x.op.type).w)) ∧
  (∀ f a, ∃ k, k < 10 ∧ fClassX f a = 2 ^ k) ∧
  (∀ f a, (fDecode f a = .nan true → fClassX f a = 2 ^ 8) ∧ (fDecode f a = .nan false → fClassX f a = 2 ^ 9) ∧
    (fDecode f a = .inf true → fClassX f a = 2 ^ 0) ∧ (fDecode f a = .inf false → fClassX f a = 2 ^ 7) ∧
    (∀ e, fDecode f a = .fin true 0 e → fClassX f a = 2 ^ 3) ∧ (∀ e, fDecode f a = .fin false 0 e → fClassX f a = 2 ^ 4) ∧
    (∀ m e, 0 < m → m < 2 ^ f.p → fDecode f a = .fin true m e → fClassX f a = 2 ^ 2) ∧
    (∀ m e, 0 < m → m < 2 ^ f.p → fDecode f a = .fin false m e → fClassX f a = 2 ^ 5) ∧
    (∀ m e, 2 ^ f.p ≤ m → fDecode f a = .fin true m e → fClassX f a = 2 ^ 1) ∧
    (∀ m e, 2 ^ f.p ≤ m → fDecode f a = .fin false m e → fClassX f a = 2 ^ 6))

/-- R295: ELECT writes 1 to its predicate in the lowest active thread and 0 in the other active ones, and nothing where no thread is active;
its only form and its detail codes; its word. -/
def Obligations.Elect : Prop :=
  (∀ s e (x : C32R), Steady s e → ElementMode e → e.warp.fpmode.toNat / 256 % 128 = 0 → (∀ l ∈ e.warp.lanes, l.preds.length = 7) → x.d.toNat % 8 < 7 → x.d.toNat < 48 →
    ∃ t w, exec (.elect x) s = .next t ∧ Retired s t e 4 w ∧ WarpFrame e.warp w [] [] [x.d.toNat % 8] false ∧
      (∀ j ∈ e.active x.g, ((w.lane j).pred (x.d.toNat % 8)).v = .ofBool ((e.active x.g).head? = some j)) ∧
      (∀ j, j ∉ e.active x.g → w.lane j = e.warp.lane j)) ∧
  (∀ (super : Bool) (x : C32R), x.g.gs = false → x.g.gp = 7 →
    (x.a ≠ 0 ∨ x.b ≠ 0 ∨ x.d.toNat / 8 ≠ 0 → (Instr.elect x).detail super = some 4) ∧
    (x.a = 0 → x.b = 0 → x.d = 7 → (Instr.elect x).detail super = some 8) ∧
    (x.a = 0 → x.b = 0 → x.d.toNat < 7 → (Instr.elect x).detail super = none)) ∧
  encode (.elect ⟨⟨false, 7⟩, 3, 0, 0⟩) = [0x0000DC50#32]

/-- R11 to R13: the die, the mesh coordinates (which CROW, CCOL and DIE return), the cluster with its die-local index, and the pair of a core: 512 cores. -/
def Obligations.MeshGeometry : Prop :=
  (∀ (s : State) (e : Env) lane, isFw e.k = false → (special s e 71 lane).lo = coreRow e.k ∧ (special s e 72 lane).lo = coreCol e.k ∧ (special s e 74 lane).lo = dieOf e.k) ∧
  (∀ row col, row < 16 → col < 32 → localOf (coreAt row col) < 128 ∧ dieOf (coreAt row col) = 2 * (row / 8) + col / 16 ∧ coreRow (coreAt row col) = row ∧
    coreCol (coreAt row col) = col) ∧
  (∀ i j, i < 8 → j < 16 → clusterIdx i j = i % 4 * 8 + j % 8 ∧ (List.range 4).map (clusterCore i j) =
    [coreAt (2 * i) (2 * j), coreAt (2 * i) (2 * j + 1), coreAt (2 * i + 1) (2 * j), coreAt (2 * i + 1) (2 * j + 1)]) ∧
  (∀ d row col, d < 4 → row < 8 → col < 16 → ∃ k, localOf k < 128 ∧ dieOf k = d ∧ coreRow k = 8 * (d / 2) + row ∧ coreCol k = 16 * (d % 2) + col) ∧
  (∀ k, localOf k < 128 → dieOf k < 4 → coreRow k < 16 ∧ coreCol k < 32 ∧ dieOf k = 2 * (coreRow k / 8) + coreCol k / 16 ∧
    coreAt (coreRow k) (coreCol k) = k) ∧
  (∀ k p, localOf k < 128 → dieOf k < 4 → p < 4 → localOf (corePeer k p) < 128 ∧ dieOf (corePeer k p) = dieOf k ∧
    coreRow (corePeer k p) = 2 * (coreRow k / 2) + p / 2 ∧ coreCol (corePeer k p) = 2 * (coreCol k / 2) + p % 2 ∧ posOf (corePeer k p) = p) ∧
  (∀ k, localOf k < 128 → dieOf k < 4 → coreRow k % 2 = 0 → coreRow (followerOf k) = coreRow k + 1 ∧ coreCol (followerOf k) = coreCol k)

/-! ## Memory instructions -/

/-- R175: where each byte of a load comes from. The youngest entry of the warp's store queue that covers it, else the youngest of the outbound
buffer; a reduction there holds the load back; else, for memory, a copy in the core's view that is new enough, else a Fetch; else the home. -/
def Obligations.LoadBinds : Prop :=
  (∀ (sq ob : List WEnt) (p : Place) (i : Nat),
    ((∀ x ∈ sq ++ ob, x.covers p i = none) → bindQueues sq ob p i = .home) ∧
    (∀ l x r j, sq = l ++ x :: r → x.covers p i = some j → (∀ y ∈ r, y.covers p i = none) →
      bindQueues sq ob p i = if x.isStore then .val (x.data.getD j 0) 0 else .blocked) ∧
    (∀ l x r j, (∀ y ∈ sq, y.covers p i = none) → ob = l ++ x :: r → x.covers p i = some j → (∀ y ∈ r, y.covers p i = none) →
      bindQueues sq ob p i = if x.isStore then .val (x.data.getD j 0) 0 else .blocked)) ∧
  (∀ (s : State) (k slot : Nat) (w : Warp) (p : Place) (n d : Nat), s.warp? k slot = some w → ∀ b, b = bindQueues w.sq (s.core k).ob p →
    ((∃ i, i < n ∧ b i = .blocked) → s.bindLoad k slot p n d = none) ∧
    ((∀ i, i < n → b i ≠ .blocked) → ∃ bs st t, s.bindLoad k slot p n d = some (bs, st, t) ∧ bs.length = n ∧
      (∀ i x j, i < n → b i = .val x j → bs.getD i 0 = x) ∧
      (∀ pa, p = .mem pa → pa % 32 + n ≤ 32 →
        (∀ v, alook (pa / 32) (s.core k).cv = some v → max d w.floor ≤ v.stamp → t = s ∧
          ∀ i, i < n → b i = .home → bs.getD i 0 = v.data.getD (pa % 32 + i) 0 ∧ st = v.stamp) ∧
        ((∀ v, alook (pa / 32) (s.core k).cv = some v → v.stamp < max d w.floor) → (∃ i, i < n ∧ b i = .home) →
          t = s.fetchSector k (pa / 32) ∧ st = s.cycleOf k ∧ ∀ i, i < n → b i = .home → bs.getD i 0 = memByte s.hbm (pa + i))) ∧
      ((∀ pa, p ≠ .mem pa) → t = s ∧ ∀ i, i < n → b i = .home → bs.getD i 0 = s.homeByte (dieOf k) p i)))

/-- What performing one access does (R174, R175, R179): a store and a reduction enter the warp's store queue; a load writes the elements it binds;
a returning atomic is performed at its home once the warp's stores have left, writes its operation's result there, touches no other byte,
and gives the old value. Nothing but an atomic changes a byte of memory or scratchpad. -/
def Obligations.AccessEffects : Prop :=
  ∀ (s t : State) (e : Env) (a : Acc) (h : Hit) (w : Warp), s.warp? e.k e.slot = some w → s.performAcc e a h = some t →
    (((∃ d u, a.kind = .load d u) ∨ a.kind = .touch ∨ a.kind = .store ∨ ∃ op ty m, a.kind = .red op ty m) →
      t.hbm = s.hbm ∧ t.sysMem = s.sysMem ∧ ∀ j, (t.core j).scr = (s.core j).scr) ∧
    (a.kind = .store → ∃ x : WEnt, t.warp? e.k e.slot = some { w with sq := w.sq ++ [x] } ∧ x.isStore = true ∧ x.place = h.place ∧ x.data = a.data ∧
      x.lane = a.lane ∧ x.rel = a.rel) ∧
    (∀ op ty m, a.kind = .red op ty m → redirected e.det a h.place = false → ∃ x : WEnt, t.warp? e.k e.slot = some { w with sq := w.sq ++ [x] } ∧
      x.kind = .red op ty m ∧ x.place = h.place ∧ x.data = a.data ∧ x.rel = a.rel) ∧
    (∀ d u, a.kind = .load d u → ∃ (bs : List Byte) (st : Nat) (s1 : State) (v : Warp), s.bindLoad e.k e.slot h.place a.size a.stamp = some (bs, st, s1) ∧
      t.warp? e.k e.slot = some v ∧ v.sq = w.sq ∧ v.lanes = w.lanes ∧ v.slices = w.slices ∧
      (u = false → FullVectors w → a.lane < 32 → a.count = 1 → tyRegs a.type = 32 → (v.vec d a.lane).lo.toNat = (elemsOf a.type 1 bs).headD 0 % 2 ^ 32 ∧
        (v.vec d a.lane).stamp = st ∧ ∀ n l, (n, l) ≠ (d, a.lane) → v.vec n l = w.vec n l)) ∧
    (∀ (new : Nat → Nat → Nat) (d : Nat), (∃ op ty m, a.kind = .atom op ty m d ∧ new = fun old arg => atomNew op ty m old arg) ∨
        (∃ cmp, a.kind = .cas cmp d ∧ new = fun old arg => if old = cmp then arg else old) → MemoryCanonical s →
      w.sq = [] ∧ obHas (s.core e.k).ob h.place = false ∧
      (∀ pa, h.place = .mem pa → memNat t.hbm pa a.size = new (memNat s.hbm pa a.size) (leNat a.data) % 256 ^ a.size ∧
        (∀ b, b < pa ∨ pa + a.size ≤ b → memByte t.hbm b = memByte s.hbm b) ∧ t.sysMem = s.sysMem ∧ ∀ j, (t.core j).scr = (s.core j).scr) ∧
      (FullVectors w → a.lane < 32 → tyRegs a.type = 32 → ∃ v, t.warp? e.k e.slot = some v ∧
        (v.vec d a.lane).lo.toNat = leNat (s.homeBytes (dieOf e.k) h.place a.size) % 2 ^ 32))

/-- Every per-thread memory instruction with nothing in its way (`MemForm.Free`) performs its accesses in lane order and retires; with no active
thread it changes nothing but what its last-read bits free. Only its destination's names change, and unless it is a returning atomic no byte of
memory, of system memory or of a scratchpad does; an atomic's bytes are those its accesses name. -/
def Obligations.MemoryInstructionsComplete : Prop := ∀ (i : Instr) (f : MemForm), memForm i = some f → ∀ s e, Steady s e → ElementMode e →
  (e.active f.x.g = [] → e.gang.deliv = [] → Completes i s e f.x.form.bytes s (memRetired e e.warp (f.wait (e.issuing s (perActive f.x.g e) 1)))) ∧
  (e.active f.x.g ≠ [] → f.Free (e.issued s (perActive f.x.g e) 1) (e.issuing s (perActive f.x.g e) 1) →
    ∃ w, (f.after s e).warp? e.k e.slot = some w ∧
      Completes i s e f.x.form.bytes (f.after s e) (memRetired e w (f.wait (e.issuing s (perActive f.x.g e) 1))) ∧
      w = { e.warp with vregs := w.vregs, sregs := w.sregs, hregs := w.hregs, opbuf := w.opbuf, sq := w.sq, floor := w.floor } ∧
      (f.x.bkd = false ∨ f.store = true → ∀ n, n ∉ destVecs f.x (rowAt f.opc f.x) → alook n w.vregs = alook n e.warp.vregs) ∧
      (∀ h n, w.uni h n = e.warp.uni h n) ∧
      (∀ j, j ≠ e.slot → (f.after s e).warp? e.k j = s.warp? e.k j) ∧
      (f.opc ∉ [0xCD, 0xCE, 0xCF, 0xD2] →
        (f.after s e).hbm = s.hbm ∧ (f.after s e).sysMem = s.sysMem ∧ ∀ j, ((f.after s e).core j).scr = (s.core j).scr) ∧
      (∀ b, (∀ a ∈ f.accs (e.issued s (perActive f.x.g e) 1) (e.issuing s (perActive f.x.g e) 1), ∀ h : Hit,
          a.xlat (e.issued s (perActive f.x.g e) 1) (Env.party (e.issued s (perActive f.x.g e) 1) (e.issuing s (perActive f.x.g e) 1)) = .hit h →
          ∀ pa, h.place = .mem pa → b < pa ∨ pa + a.size ≤ b) → memByte (f.after s e).hbm b = memByte s.hbm b))

/-- What the per-thread and scalar memory instructions ask for: the address of a thread (R218), the bytes of a store, the destination of a load. -/
def Obligations.MemoryAddresses : Prop :=
  (∀ (s : State) (e : Env) (x : Op) (r : Row) (i : Nat), (e.warp.lane i).bounds = false → ∀ v, v = Env.srcs s e x r x.lit i →
    (∀ a, v.a = [a] → ∀ b w n, r.b = .reg b w n → ∀ q, v.b = [q] → (glbAddr s e x r i).va = ((a.lo : Int) + sIntOf 32 q.lo + sIntOf 16 x.imm16) % 2 ^ 64) ∧
    (∀ a, v.a = [a] → r.b = .no → (glbAddr s e x r i).va = ((a.lo : Int) + sIntOf 16 x.imm16) % 2 ^ 64) ∧
    (∀ a, v.a = [a] → (scrAddrOf s e x r i).2.2 = ((a.lo % 2 ^ 20 : Nat) : Int) + (if x.form = .c32 then 0 else sIntOf 16 x.imm16) ∧
      ((scrAddrOf s e x r i).2.1.win = a.lo.testBit 23) ∧ (scrAddrOf s e x r i).2.1.pos = a.lo / 2 ^ 21 % 4)) ∧
  (∀ (s : State) (e : Env) (x : Op) (i : Nat), (e.warp.lane i).bounds = false →
    (∃ a, ((ldReq x s e i).accs = [a]) ∧ a.va = (glbAddr s e x (rowAt 0xC0 x) i).va.toNat ∧ a.lane = i ∧ a.kind = .load x.d false ∧
      a.size = vecOf x * tyBytes x.type ∧ a.type = x.type ∧ a.count = vecOf x) ∧
    (∃ a, ((sldReq x s e i).accs = [a]) ∧ a.va = (glbAddr s e x (rowAt 0xC6 x) i).va.toNat ∧ a.kind = .load x.d true) ∧
    (∃ a, ((stReq x s e i).accs = [a]) ∧ a.va = (glbAddr s e x (rowAt 0xC1 x) i).va.toNat ∧ a.lane = i ∧ a.kind = .store ∧
      a.data = (Env.srcs s e x (rowAt 0xC1 x) x.lit i).c.flatMap fun v => natLe (tyBytes x.type) v.lo) ∧
    (∃ a, ((sstReq x s e i).accs = [a]) ∧ a.va = (glbAddr s e x (rowAt 0xC7 x) i).va.toNat ∧ a.kind = .store) ∧
    (∃ a, ((atomReq x s e i).accs = [a]) ∧ a.va = (glbAddr s e x (rowAt 0xCD x) i).va.toNat ∧ a.size = tyBytes x.type ∧
      a.kind = .atom (x.op7 % 16) x.type (e.mode x.rm) x.d) ∧
    (∃ a, ((redReq x s e i).accs = [a]) ∧ a.va = (glbAddr s e x (rowAt 0xD0 x) i).va.toNat ∧ a.size = tyBytes x.type ∧
      a.kind = .red (x.op7 % 16) x.type (e.mode x.rm)) ∧
    (∃ a, ((cstoreReq x s e i).accs = [a]) ∧ a.kind = .store ∧ a.va =
      (((glbAddr s e x (rowAt 0xCB x) i).va + ((((e.active x.g).filter (· < i)).length * tyBytes x.type : Nat) : Int)) % 2 ^ 64).toNat) ∧
    (∃ a, ((xloadReq x s e i).accs = [a]) ∧ a.kind = .load x.d false ∧ a.va =
      (((glbAddr s e x (rowAt 0xCC x) i).va + ((((e.active x.g).filter (· < i)).length * tyBytes x.type : Nat) : Int)) % 2 ^ 64).toNat))

/-- The memory trap before any thread performs (R219, R220): class 2 with the least reason that applies to any thread, no thread marked done, and
nothing performed; and which reasons apply to a virtual address and to a scratchpad address. -/
def Obligations.MemoryTraps : Prop :=
  (∀ (i : Instr) (f : MemForm), memForm i = some f → ∀ s e, Steady s e → ElementMode e → e.active f.x.g ≠ [] →
    e.regTrap f.x (rowAt f.opc f.x) (maskOf (e.active f.x.g)) = none →
    ∀ c, c ∈ f.reasons (e.issued s (perActive f.x.g e) 1) (e.issuing s (perActive f.x.g e) 1) →
      (∀ d ∈ f.reasons (e.issued s (perActive f.x.g e) 1) (e.issuing s (perActive f.x.g e) 1), c ≤ d) →
      exec i s = .next ((e.issued s (perActive f.x.g e) 1).takeTrap e.k e.slot e.gid { cls := 2, reason := c, mask := 0 } f.x.form.bytes)) ∧
  (∀ (s : State) (p : Party) (va n : Nat) (atomic : Bool), s.physical p = false →
    (5 ∈ glbReasons s p va n atomic ↔ canonical va = false) ∧ (6 ∈ glbReasons s p va n atomic ↔ va % n ≠ 0) ∧
    (14 ∈ glbReasons s p va n atomic ↔ sysAddr va = true ∧ atomic = true) ∧ (15 ∈ glbReasons s p va n atomic ↔ sysAddr va = true ∧ 17 ≤ sysPort va)) ∧
  (∀ (s : State) (k : Nat) (t : Team) (a : ScrAddr) (off : Int) (n : Nat), a.bad = false → a.win = false →
    (0 ≤ off → off + n ≤ t.scrSize → s.scrPlace k t a off n = .ok (.scr k (t.scrBase + off.toNat))) ∧
    (off < 0 ∨ t.scrSize < off + n → s.scrPlace k t a off n = .error 7)) ∧
  (∀ (s : State) (k : Nat) (t : Team) (a : ScrAddr) (off : Int) (n : Nat), (a.bad = true → s.scrPlace k t a off n = .error 7) ∧
    (a.bad = false → a.win = true → s.partner k t a.pos = none → s.scrPlace k t a off n = .error 8))

/-- SLD and SST, which act once for the warp, PROBE, STF and LDSM, with nothing in their way, and FENCE, PREF and CCTL. FENCE.warp raises the
warp's floor; a wider one waits until the queues it names are empty; PREF and CCTL take no trap for what they name. -/
def Obligations.OtherMemoryInstructions : Prop := ∀ s e, Steady s e → ElementMode e →
  (∀ i opc x req, onceForm i = some (opc, x, req) → ∀ s1 e1, s1 = e.paid s opc x → e1 = e.paying s opc x → OnceFree opc x req s1 e1 →
    ∃ w, (performed s1 e1 (req s1 e1 ((e.active x.g).headD 0)).accs).1.warp? e.k e.slot = some w ∧
      Completes i s e x.form.bytes (performed s1 e1 (req s1 e1 ((e.active x.g).headD 0)).accs).1 (memRetired e w (onceBase opc x e))) ∧
  (∀ x : C32R, Completes (.fenceC32 x) s e 4 s (acquired (e.issued s 1 1) e.k 2 e.warp)) ∧
  (∀ x : X96, x.op.scope ≠ 0 → ∀ b, b = fenceDone ((e.issued s 1 1).core e.k) e.slot x.op.scope ((e.issued s 1 1).core e.k).seq →
    (b = true → Completes (.fence x) s e 12 s (acquired (e.issued s 1 1) e.k x.op.scope e.warp)) ∧
    (b = false → exec (.fence x) s = .next (e.stall (.fence x.op.scope ((e.issued s 1 1).core e.k).seq 12) (e.issued s 1 1)))) ∧
  (∀ x : X96, x.op.scope = 0 → Completes (.fence x) s e 12 s (acquired (e.issued s 1 1) e.k 2 e.warp)) ∧
  (∀ (slot : Nat) (c : Core), (∀ w, alook slot c.warps = some w → w.sq = []) → c.ob = [] → ∀ scope, fenceDone c slot scope c.seq = true) ∧
  (∀ x : X96, Completes (.pref x) s e 12 (prefFetch (e.issued s (perActive x.op.g e) 1) (e.issuing s (perActive x.op.g e) 1) x.op)
    (memRetired e e.warp (quietWait e 0xD4 x.op (maskOf (e.active x.op.g))))) ∧
  (∀ x : X96, unguarded x.op.g = true ∨ e.active x.op.g ≠ [] → e.regTrap x.op (rowAt 0xD6 x.op) (maskOf (e.active x.op.g)) = none →
    Completes (.cctlEv x) s e 12 (cctlDrop (e.paid s 0xD6 x.op) (e.paying s 0xD6 x.op) x.op) (memRetired e e.warp (quietWait e 0xD6 x.op 0)) ∧
    Completes (.cctlEvall x) s e 12 (cctlDrop (e.paid s 0xD6 x.op) (e.paying s 0xD6 x.op) x.op) (memRetired e e.warp (quietWait e 0xD6 x.op 0))) ∧
  (∀ x : X96, e.active x.op.g ≠ [] → ProbeFree x.op (e.issued s (perActive x.op.g e) 1) (e.issuing s (perActive x.op.g e) 1) →
    ∃ w, (probeAfter (e.issued s (perActive x.op.g e) 1) (e.issuing s (perActive x.op.g e) 1) x.op).warp? e.k e.slot = some w ∧
      Completes (.probe x) s e 12 (probeAfter (e.issued s (perActive x.op.g e) 1) (e.issuing s (perActive x.op.g e) 1) x.op)
        (memRetired e w (memBase 0xD5 x.op noCount e))) ∧
  (∀ x : X96, e.active x.op.g ≠ [] → StfFree x.op (e.issued s (perActive x.op.g e) 1) (e.issuing s (perActive x.op.g e) 1) →
    ∃ w, (stfAfter (e.issued s (perActive x.op.g e) 1) (e.issuing s (perActive x.op.g e) 1) x.op).warp? e.k e.slot = some w ∧
      Completes (.stf x) s e 12 (stfAfter (e.issued s (perActive x.op.g e) 1) (e.issuing s (perActive x.op.g e) 1) x.op)
        (memRetired e w (stfBase e x.op (stfWide (e.issued s (perActive x.op.g e) 1) (e.issuing s (perActive x.op.g e) 1) x.op)))) ∧
  (∀ x : X96, e.active x.op.g ≠ [] → ∀ a hd d s1, LdsmFree x.op (e.issued s (perActive x.op.g e) 1) (e.issuing s (perActive x.op.g e) 1) a hd d s1 →
    ∃ w, (ldsmAfter s1 (e.issuing s (perActive x.op.g e) 1) x.op a hd d).warp? e.k e.slot = some w ∧
      Completes (.ldsm x) s e 12 (ldsmAfter s1 (e.issuing s (perActive x.op.g e) 1) x.op a hd d) (memRetired e w (memBase 0xC9 x.op noCount e)))

/-! ## Engine commands, the matrix unit, the solver sequencer, spawns and messages -/

/-- R150, R152, R186: a task that enters stands in the core's table under the next number, ready where its wait is met or it has none, else
waiting; while fewer than 64 entries are taken, and fewer than 32 by its team, tasks without a wait enter in order. -/
def Obligations.TasksEnter : Prop :=
  (∀ (s : State) (k : Nat) (t : Task) (tm : Team), alook t.slot (s.core k).teams = some tm →
    (t.wref.getLsbD 0 = true → ∃ p, s.refPlace k tm t.wref = some p ∧ (s.obj? p).isSome = true) →
    ∃ ck job, (t.token = none → job = t.job) ∧ ((s.enterTask k t).core k).tasks = aput (s.core k).nextTask
        { t with job := job, state := if s.waitMet k tm t then .ready else .waiting, obMark := (s.core k).seq, agent := s.nextAgent, clock := ck } (s.core k).tasks ∧
      ((s.enterTask k t).core k).nextTask = (s.core k).nextTask + 1 ∧ (s.enterTask k t).hbm = s.hbm ∧ ∀ j, j ≠ k → (s.enterTask k t).core j = s.core j) ∧
  (∀ (s : State) (k slot : Nat) (ts : List Task), (∀ t ∈ ts, t.slot = slot ∧ t.wref.getLsbD 0 = false) → (alook slot (s.core k).teams).isSome = true →
    (∀ p ∈ (s.core k).tasks, p.1 < (s.core k).nextTask) →
    (s.core k).tasks.length + ts.length ≤ 64 → ((s.core k).tasks.filter fun p => p.2.slot = slot).length + ts.length ≤ 32 →
    (State.enterMany k ts s).2 = [] ∧ ((State.enterMany k ts s).1.core k).tasks.length = (s.core k).tasks.length + ts.length) ∧
  (∀ (s : State) (k slot : Nat), 64 ≤ (s.core k).tasks.length ∨ 32 ≤ ((s.core k).tasks.filter fun p => p.2.slot = slot).length → (s.core k).entryFree slot = false)

/-- CPY, REDUCE and SUMM (R163, R166, R168): where no acting thread has a reason of R170, one task for each acting thread enters, in lane order, and
the gang goes on; a thread with a reason makes the command trap with none entered. KICK (R164) enters the records it reads; DRAIN (R165) waits for
the tasks of its core that write the spaces it names. -/
def Obligations.EngineCommands : Prop := ∀ s e, Steady s e → ElementMode e →
  (∀ i f, engineForm i = some f → ∀ s1 e1, s1 = e.paid s f.opc f.x → e1 = e.paying s f.opc f.x → actors e f.opc f.x false ≠ [] → e.regTrap f.x (rowAt f.opc f.x) (maskOf (e.active f.x.g)) = none →
    ((∀ q ∈ f.lanes s1 e1, f.reasons s1 e1 q.2 = []) → AllEnter s1 e1 (fun c => (f.lanes s1 e1).map fun q => f.task e1 c q.2) →
      exec i s = .next ((entered s1 e1 f.x.form.bytes (e.frees f.x (rowAt f.opc f.x)) fun c => (f.lanes s1 e1).map fun q => f.task e1 c q.2).drawn 1)) ∧
    (∀ q ∈ f.lanes s1 e1, ∀ c, f.reasons s1 e1 q.2 = [c] → (∀ r ∈ f.lanes s1 e1, r ≠ q → f.reasons s1 e1 r.2 = []) → (f.lanes s1 e1).Nodup →
      exec i s = .next (s1.takeTrap e.k e.slot e.gid { cls := 9, reason := c, index := 0, mask := maskOf [q.1] } f.x.form.bytes))) ∧
  (∀ (x : Op) (i : Instr), ((∃ f : C32R, i = .kickC32 f ∧ x = f.op 0) ∨ ∃ f : X96, i = .kick f ∧ x = f.op) → ∀ s1 e1, s1 = e.paid s 0xE1 x → e1 = e.paying s 0xE1 x →
    ∀ lane l, actors e 0xE1 x true = lane :: l →
    e.regTrap x (rowAt 0xE1 x) (maskOf (e.active x.g)) = none → ∀ a n, a = pointOf s1 (sv1 (Env.srcs s1 e1 x (rowAt 0xE1 x) (litInt x false 32) lane).a) →
    n = pointOf (s1.drawn 1) (sv1 (Env.srcs s1 e1 x (rowAt 0xE1 x) (litInt x false 32) lane).b) →
    (n = 0 → exec i s = .next (e1.done x.form.bytes ((s1.drawn 2).modWarp e.k e.slot fun w => w.free (e.frees x (rowAt 0xE1 x))))) ∧
    (0 < n → n ≤ 64 → a % 32 = 0 → ownScr e.k a = true → spanReasons s1 e1 a (32 * n) = [] → (∀ r ∈ kickRecs s1 e1 a n, copyReasons s1 e1 r = []) →
      AllEnter s1 e1 (fun c => (kickRecs s1 e1 a n).map (copyTask e1 c)) →
      exec i s = .next ((entered s1 e1 x.form.bytes (e.frees x (rowAt 0xE1 x)) fun c => (kickRecs s1 e1 a n).map (copyTask e1 c)).drawn 2))) ∧
  (∀ x : X96, ((s.core e.k).tasks.all fun t => decide (t.2.job.writes &&& x.op.op7 = 0)) = true → Completes (.drain x) s e 12 s e.warp) ∧
  (∀ x : X96, ActsOnce e x.op → ∀ t l, ((s.core e.k).tasks.filter fun t => decide (t.2.job.writes &&& x.op.op7 ≠ 0)) = t :: l →
    exec (.drain x) s = .next (e.stall (.drain ((t :: l).map (·.1)) 12) (e.issued s 1 1)))

/-- RSV, RSVFREE, OBLD, ACCST, MMA and RESOLVE (R296 to R307), where nothing stands against them, and the matrix trap of MMA (R308). A RESOLVE that
commits applies the held signals one by one and issues again until none is left (R187). -/
def Obligations.MatrixInstructions : Prop := ∀ s e, Steady s e → ElementMode e →
  (∀ x : X96, ActsOnce e x.op → e.regTrap x.op (rowAt 0xEB x.op) (maskOf (e.active x.op.g)) = none → ∀ s1 e1, s1 = e.paid s 0xEB x.op → e1 = e.paying s 0xEB x.op → ∀ r id b,
    resvOf ((natsOf (onceOps s1 e1 0xEB x.op 0).a).foldr (fun w n => n * 2 ^ 32 + w) 0) = some r →
    (List.range 16).find? (fun i => (alook i e.team.resvs).isNone) = some id → (s1.core e.k).fbufFit r.size = some b →
    exec (.rsv x) s = .next (e1.done 12 (((s1.modTeam e.k e.warp.team fun t => { t with resvs := aput id { r with base := b } t.resvs }).modCore e.k
      fun (c : Core) => { c with fbuf := c.fbuf.filter fun p => ¬ (b ≤ p.1 ∧ p.1 < b + r.size) }).modWarp e.k e.slot
        fun w => w.writeUni e.handling x.op.d { lo := BitVec.ofNat 32 id, hi := BitVec.ofNat 32 id }))) ∧
  (∀ (x : Op) (i : Instr), ((∃ f : C32R, i = .rsvfreeC32 f ∧ x = f.op 0) ∨ ∃ f : X96, i = .rsvfree f ∧ x = f.op) → ActsOnce e x →
    e.regTrap x (rowAt 0xEC x) (maskOf (e.active x.g)) = none → ∀ s1 e1, s1 = e.paid s 0xEC x → e1 = e.paying s 0xEC x → ∀ id, id = (sv1 (onceOps s1 e1 0xEC x 0).a).lo → id < 16 →
    (alook id e.team.resvs).isSome = true → (s1.core e.k).resvBusy e.warp.team id = false →
    exec i s = .next (e1.done x.form.bytes (s1.modTeam e.k e.warp.team fun t => { t with resvs := adel id t.resvs }))) ∧
  (∀ x : X96, ActsOnce e x.op → e.regTrap x.op (rowAt 0xED x.op) (maskOf (e.active x.op.g)) = none → ∀ s1 e1, s1 = e.paid s 0xED x.op → e1 = e.paying s 0xED x.op → ∀ ref c r, ref = (sv1 (onceOps s1 e1 0xED x.op 0).a).lo →
    c = natsOf (onceOps s1 e1 0xED x.op 0).c → alook (ref % 16) e.team.resvs = some r →
    obldBad r (x.op.op7 % 4) ref (c.getD 0 0 % 65536) (c.getD 0 0 / 65536) = false → ∀ mk, mk = (fun ck => [e1.newTask
      (.obld (x.op.op7 % 4) x.op.type (e.mode x.op.rm) (x.op.op7 / 4 % 2 = 1) (BitVec.ofNat 32 ref) (sv1 (onceOps s1 e1 0xED x.op 0).b).lo
        (c.getD 0 0 % 65536) (c.getD 0 0 / 65536) (c.getD 1 0)) (BitVec.ofNat 32 (c.getD 2 0)) (BitVec.ofNat 32 (c.getD 3 0)) 0 none ck]) →
    AllEnter s1 e1 mk → exec (.obld x) s = .next (entered s1 e1 12 [] mk)) ∧
  (∀ x : X96, ActsOnce e x.op → e.regTrap x.op (rowAt 0xEF x.op) (maskOf (e.active x.op.g)) = none → ∀ s1 e1, s1 = e.paid s 0xEF x.op → e1 = e.paying s 0xEF x.op → ∀ c dst r n, c = natsOf (onceOps s1 e1 0xEF x.op 0).c →
    dst = (sv1 (onceOps s1 e1 0xEF x.op 0).b).lo → shapeRect (sv1 (onceOps s1 e1 0xEF x.op 0).a).lo (c.getD 0 0) (if x.op.type = 6 then 2 else 1) = some r →
    n = r.cols / (if x.op.type = 6 then 2 else 1) → n * tyBytes x.op.type ≤ c.getD 1 0 → dst % tyBytes x.op.type = 0 →
    (x.op.op7 = 1 → ∃ p, s1.scrPlace e.k e.team (scrAddr dst) (scrAddr dst).off ((r.rows - 1) * c.getD 1 0 + n * tyBytes x.op.type) = .ok p) →
    (s1.core e.k).owns e.warp.team r = true → ∀ mk, mk = (fun ck => [e1.newTask (.accst x.op.type (e.mode x.op.rm) x.op.sat (x.op.op7 = 1) r dst (c.getD 1 0))
      (BitVec.ofNat 32 (c.getD 2 0)) (BitVec.ofNat 32 (c.getD 3 0)) (relOf x.op) none ck]) →
    AllEnter s1 e1 mk → exec (.accst x) s = .next (entered s1 e1 12 [] mk)) ∧
  (∀ x : Long, ∀ lane, e.active (x.op 0).g = [lane] → ∀ s1 e1, s1 = e.issued s (perActive (x.op 0).g e) 1 → e1 = e.issuing s (perActive (x.op 0).g e) 1 →
    ∀ p, p = mmaPlan s1 e1 (x.op 0) lane → mmaRegs e1 (x.op 0) p = [] →
    (p.reasons = [] → AllEnter s1 e1 (fun ck => [mmaTask e1 p ck]) →
      exec (.mma x) s = .next (entered s1 e1 (x.op 0).form.bytes p.frees fun ck => [mmaTask e1 p ck])) ∧
    (∀ c, c ∈ p.reasons → (∀ d ∈ p.reasons, c ≤ d) →
      exec (.mma x) s = .next (s1.takeTrap e.k e.slot e.gid { cls := 10, reason := c, mask := maskOf [lane] } (x.op 0).form.bytes))) ∧
  (∀ x : Long, 2 ≤ (e.active (x.op 0).g).length →
    exec (.mma x) s = .next ((e.issued s (perActive (x.op 0).g e) 1).takeTrap e.k e.slot e.gid { cls := 10, reason := 1, mask := maskOf (e.active (x.op 0).g) } (x.op 0).form.bytes)) ∧
  (∀ (x : Op) (i : Instr), ((∃ f : C32R, i = .resolveC32 f ∧ x = f.op 0) ∨ ∃ f : X96, i = .resolve f ∧ x = f.op) → ∀ lane l, e.active x.g = lane :: l →
    e.regTrap x (rowAt 0xF1 x) (maskOf (e.active x.g)) = none → ∀ s1 e1, s1 = e.issued s 1 1 → e1 = e.issuing s 1 1 → ∀ tok b, tok = (sv1 (Env.srcs s1 e1 x (rowAt 0xF1 x) (litInt x false 32) lane).b).lo → tok < 4 →
    (∀ j ∈ e.active x.g, decide (((e.warp.lane j).pred (x.a % 8)).v = .t) = b) →
    (b = false ∨ (e.team.tokens.getD tok {}).held = [] →
      exec i s = .next (e1.done x.form.bytes ((if b then s1.commitToken e.k e.warp.team tok else s1.discardToken e.k e.warp.team tok).modWarp e.k e.slot
        fun w => w.free (e.frees x (rowAt 0xF1 x))))) ∧
    (∀ h hs, b = true → (e.team.tokens.getD tok {}).held = h :: hs → exec i s = .next ((e1.stall .retry s1).applyHeld e.k e.warp.team tok h)))

/-- ACCZ.take, .give and .clr and ACCRD (R304, R305) on strips 0 to 31 of a core's accumulator: take gives `n` free strips to the team, cleared; give
returns strips it holds, once no task has its rectangle in them (log 86); clr clears a rectangle it owns; ACCRD reads one row for each active thread. -/
def Obligations.AccumulatorInstructions : Prop := ∀ s e, Steady s e → ElementMode e →
  (∀ x : X96, ActsOnce e x.op → e.regTrap x.op (rowAt 0xF0 x.op) (maskOf (e.active x.op.g)) = none → ∀ s1 e1, s1 = e.paid s 0xF0 x.op → e1 = e.paying s 0xF0 x.op → ∀ v c, v = onceOps s1 e1 0xF0 x.op (litInt x.op false 32) → c = s1.core e.k →
    (∀ row col n l, accAddr (sv1 v.a).lo = some (row, col) → n = (sv1 v.b).lo → 0 < n → row / 16 + n ≤ 32 → l = (List.range n).map (row / 16 + ·) →
      s1.rectBusy e.k e.warp.team { row := row, col := 0, rows := 16 * n, cols := 512 } s1.nextAgent = false →
      ((∀ i ∈ l, alook i c.strips = none) → exec (.acczTake x) s = .next (e1.done 12 (s1.setCore e.k { c with
        strips := l.foldl (fun m i => aput i e.warp.team m) c.strips,
        acc := bankClear c.acc { row := row, col := 0, rows := 16 * n, cols := 512 }, shadow := bankClear c.shadow { row := row, col := 0, rows := 16 * n, cols := 512 },
        stat := l.foldl (fun m i => adel i m) c.stat, shadowStat := l.foldl (fun m i => adel i m) c.shadowStat }))) ∧
      ((∀ i ∈ l, alook i c.strips = some e.warp.team) →
        s1.rectTask e.k { row := row, col := 0, rows := 16 * n, cols := 512 } = false →
        exec (.acczGive x) s = .next (e1.done 12 (s1.setCore e.k { c with
          strips := l.foldl (fun m i => adel i m) c.strips, stat := l.foldl (fun m i => adel i m) c.stat, shadowStat := l.foldl (fun m i => adel i m) c.shadowStat })))) ∧
    (∀ r, shapeRect (sv1 v.a).lo (sv1 v.b).lo 1 = some r → c.owns e.warp.team r = true → s1.tokenBusy e.k r = false → s1.rectBusy e.k e.warp.team r s1.nextAgent = false →
      exec (.acczClr x) s = .next (e1.done 12 (s1.setCore e.k { c with
        acc := bankClear c.acc r, stat := r.strips.foldl (fun m i => adel i m) c.stat, shadowStat := r.strips.foldl (fun m i => adel i m) c.shadowStat })))) ∧
  (∀ x : X96, e.active x.op.g ≠ [] → e.regTrap x.op (rowAt 0xEE x.op) (maskOf (e.active x.op.g)) = none → e.warp.fpmode.toNat / 256 % 128 = 0 →
    ∀ s2 e2, s2 = e.issued s (perActive x.op.g e) 1 → e2 = e.issuing s (perActive x.op.g e) 1 → accrdBad s2 e2 x.op = [] → accrdBusy s2 e2 x.op = false →
    exec (.accrd x) s = .next (e2.done 12 (s2.modWarp e.k e.slot fun _ =>
      e2.writeOut ((accrdOuts s2 e2 x.op).foldl (fun w o => w.modLane o.1 fun l => l.note o.2.fl 0) e.warp) x.op (rowAt 0xEE x.op) (accrdOuts s2 e2 x.op)))) ∧
  (∀ (c : Core) (r : Rect) (row col : Nat), col < 512 →
    (r.row ≤ row ∧ row < r.row + r.rows ∧ r.col ≤ col ∧ col < r.col + r.cols → bankGet (bankClear c.acc r) row col = 0) ∧
    (¬ (r.row ≤ row ∧ row < r.row + r.rows ∧ r.col ≤ col ∧ col < r.col + r.cols) → bankGet (bankClear c.acc r) row col = bankGet c.acc row col))

/-- SPAWN, TLAUNCH and MSEND (R369 to R371, R132 to R136): where nothing stands against them. SPAWN places its threads in the bins of its core, or in
a deterministic launch forms warps at once; TLAUNCH records a child launch and writes its tag; MSEND queues one message for each active thread,
and waits until they have left where a target's buffer is full. -/
def Obligations.SpawnsLaunchesMessages : Prop := ∀ s e, Steady s e → ElementMode e →
  (∀ x : Long, ∀ s1 e1, s1 = e.issued s (perActive (x.op 0).g e) 1 → e1 = e.issuing s (perActive (x.op 0).g e) 1 →
    e.active (x.op 0).g ≠ [] → e.regTrap (x.op 0) (rowAt 0x0E (x.op 0)) (maskOf (e.active (x.op 0).g)) = none → ∀ l img, e.launch = some l → e.img = some img →
    ∀ ts u timer n0, ts = spawnThreads s1 e1 (x.op 0) → u = e.team.uid.getD 0 → timer = (if (x.op 0).imm16 = 0 then 256 else (x.op 0).imm16) → n0 = (e1.publish s1).2 →
    ((∀ i ∈ e.active (x.op 0).g, isEntry img l .spawn (spawnEntry s1 e1 (x.op 0) i) = true) → e.warp.sq = [] → s1.canRaise u ts.length = true →
      (s1.detLaunch u = false → ∀ t, t = (n0.raiseCounter u ts.length).arriveAll e.k (ts.map fun t => { t with clock := (e1.publish s1).1 }) timer false →
        (t.core e.k).placing = [] →
        exec (.spawn x) s = .next (e1.done (x.op 0).form.bytes (t.modWarp e.k e.slot fun w => w.free (e.frees (x.op 0) (rowAt 0x0E (x.op 0)))))) ∧
      (s1.detLaunch u = true → ∀ t, n0.formNow e.k u (ts.map fun t => { t with clock := (e1.publish s1).1 }) = some t →
        exec (.spawn x) s = .next (e1.done (x.op 0).form.bytes ((t.raiseCounter u ts.length).modWarp e.k e.slot
          fun w => w.free (e.frees (x.op 0) (rowAt 0x0E (x.op 0))))))) ∧
    (∀ b, b ∈ e.active (x.op 0).g → isEntry img l .spawn (spawnEntry s1 e1 (x.op 0) b) = false →
      exec (.spawn x) s = .next (s1.takeTrap e.k e.slot e.gid { cls := 13, reason := 1, mask := maskOf ((e.active (x.op 0).g).filter fun i =>
        !(isEntry img l .spawn (spawnEntry s1 e1 (x.op 0) i))) } (x.op 0).form.bytes))) ∧
  (∀ x : X96, ∀ s1 e1, s1 = e.paid s 0x0F x.op → e1 = e.paying s 0x0F x.op →
    ActsOnce e x.op → e.regTrap x.op (rowAt 0x0F x.op) (maskOf (e.active x.op.g)) = none → ∀ u l, e.team.uid = some u → e.launch = some l →
    ∀ src a word m, src = onceOps s1 e1 0x0F x.op (litInt x.op false 32) → a = pointOf s1 (sv1 src.a) → word = pointOf s1 (sv1 src.b) →
    m = ({ accs := [], len := 12, frees := e.frees x.op (rowAt 0x0F x.op), once := true, lanes := 0 } : MemWait) →
    fenceDone (s1.core e.k) e.slot 4 (e1.relMark s1) = true → ∀ vs st s2 lr, s1.onceRead e1 m ((e.active x.op.g).headD 0) (sv1 src.a).stamp a 64 (spansOf a 64 32) = .got vs st s2 →
    lr = lrecOf (joinVals 32 vs) → (subgroupOf l word).isSome = true → lr.ndep = 0 → ∀ img c, childOf s2 e1 u l word lr [] = .ok (img, c) → s2.canRaise u 1 = true →
    ∀ ck s3 s4, e1.publish s2 = (ck, s3) → s4 = (s3.recordChild u img { c with clock := ck }).modDie (dieOf e.k) (fun d => { d with tlaunchCount := d.tlaunchCount + 1 }) →
    exec (.tlaunch x) s = .next ((((if e.det then s4 else s4.aggregate (dieOf e.k) s3.nextUid).modWarp e.k e.slot
      fun w => w.writeUnis e.handling x.op.d 64 [svConst c.tag.toNat]).drawn 2).finishMem e1 m)) ∧
  (∀ x : Long, ∀ s1 e1, s1 = e.issued s (perActive (x.op 0).g e) 1 → e1 = e.issuing s (perActive (x.op 0).g e) 1 →
    e.active (x.op 0).g ≠ [] → e.regTrap (x.op 0) (rowAt 0xF3 (x.op 0)) (maskOf (e.active (x.op 0).g)) = none →
    (∀ i ∈ e.active (x.op 0).g, msgReasons s1 e1 (x.op 0) (sv1 (msendSrc s1 e1 (x.op 0) i).b).lo (sv1 (msendSrc s1 e1 (x.op 0) i).c).lo i = []) →
    ∀ ms, ms = msendMsgs s1 e1 (x.op 0) → s1.canRaise (e.team.uid.getD 0) ms.length = true →
    ∀ tasks, tasks = (if relOf (x.op 0) = 0 then [] else ((s1.core e.k).tasks.filter fun t => t.2.slot = e.warp.team ∧ t.2.warp = e.slot).map (·.1)) →
    ∀ t, t = ms.foldl (State.sendMsg e1 (relOf (x.op 0)) tasks) (s1.raiseCounter (e.team.uid.getD 0) ms.length) →
    ((∀ m ∈ ms, ((s1.core m.2.1).placing.filter (·.msg)).length < 32) →
      exec (.msend x) s = .next (e1.done (x.op 0).form.bytes (t.modWarp e.k e.slot fun w => w.free (e.frees (x.op 0) (rowAt 0xF3 (x.op 0)))))) ∧
    ((∃ m ∈ ms, 32 ≤ ((s1.core m.2.1).placing.filter (·.msg)).length) → exec (.msend x) s = .next (e1.stall
      (.msend ((List.range ms.length).map (s1.nextMsg + ·)) (x.op 0).form.bytes (e.frees (x.op 0) (rowAt 0xF3 (x.op 0)))) t)))

/-- The solver's and the checker's instructions (R402, R387, R323, R324): where their reads are at hand and no reason stands against them. -/
def Obligations.SolverAndWitnessInstructions : Prop := ∀ s e, Steady s e → ElementMode e →
  ∀ x : X96, ActsOnce e x.op → ∀ lane, lane = (e.active x.op.g).headD 0 →
  (e.regTrap x.op (rowAt 0xF2 x.op) (maskOf (e.active x.op.g)) = none → ∀ s1 e1, s1 = e.paid s 0xF2 x.op → e1 = e.paying s 0xF2 x.op → ∀ m, m = e1.onceWait x.op (rowAt 0xF2 x.op) →
    (∀ src a, src = onceOps s1 e1 0xF2 x.op (litInt x.op false 32) → a = (sv1 src.a).lo → (sv1 src.b).lo < 8 → ∀ hs st s2 vs st' s3 md,
      s1.onceRead e1 m lane (sv1 src.a).stamp a 8 (spansOf a 32 8) = .got hs st s2 → 2 ≤ bitsOf (joinVals 8 hs) 3 0 → bitsOf (joinVals 8 hs) 3 0 ≤ 12 →
      s2.onceRead e1 m lane 0 ((a + 32) % 2 ^ 64) 8 (spansOf (a + 32) (8 * methodLen (bitsOf (joinVals 8 hs) 3 0)) 8) = .got vs st' s3 →
      methodOf (joinVals 8 hs) vs = some md →
      exec (.sqload x) s = .next ((s3.modDie (dieOf e.k) fun d => { d with slots := aput (sv1 src.b).lo ((Env.party s1 e1).ctx, md) d.slots }).finishMem e1 m)) ∧
    (∀ t, fenceDone (s1.core e.k) e.slot 4 (e1.relMark s1) = true →
      sqStart s1 e1 m lane (sv1 (onceOps s1 e1 0xF2 x.op 0).a).lo x.op.d (maskOf (e.active x.op.g)) (sv1 (onceOps s1 e1 0xF2 x.op 0).a).stamp = .ok t →
      exec (.sqstart x) s = .next t) ∧
    (∀ h st q, h = (sv1 (onceOps s1 e1 0xF2 x.op 0).a).lo → st = (sv1 (onceOps s1 e1 0xF2 x.op 0).a).stamp → s1.sqHandle (Env.party s1 e1).ctx h = some q →
      (q.2 = true → exec (.sqwait x) s = .next (e1.stall (.sqwait h x.op.d 12 st) s1)) ∧
      (q.2 = false → exec (.sqwait x) s = .next (((s1.acquire e.k e.slot 4).modWarp e.k e.slot fun w =>
        w.writeUnis e.handling x.op.d 32 [svStamp q.1.status.toNat st]).finishMem e1 m)) ∧
      (e.det = false → exec (.sqstat x) s = .next ((s1.modWarp e.k e.slot fun w => w.writeUnis e.handling x.op.d 32 [svStamp q.1.status.toNat st]).finishMem e1 m)) ∧
      (e.det = false → q.2 = true → exec (.sqabort x) s = .next ((s1.modDie (h / 2 ^ 30 % 4) fun d =>
        { d with run := d.run.map fun r => { r with abort := true } }).finishMem e1 m)) ∧
      (e.det = false → q.2 = false → exec (.sqabort x) s = .next (s1.finishMem e1 m)) ∧
      (e.det = true → exec (.sqstat x) s = .next (s1.takeTrap e.k e.slot e.gid { cls := 15, reason := 7, mask := maskOf (e.active x.op.g) } 12)))) ∧
  (∀ (s : State) (e : Env) (m : MemWait) (lane a dst : Nat) (mask : Mask) (stamp : Nat) hs st s1 h md u l es st' s2 rows, e.team.uid = some u → e.launch = some l →
    s.onceRead e m lane stamp a 64 (spansOf a 64 32) = .got hs st s1 → h = sqHdrOf (joinVals 32 hs) →
    alook h.slot (s.die (dieOf e.k)).slots = some ((Env.party s e).ctx, md) → h.good = true → (subgroupOf l h.subg).isSome = true → (s.image l.ctx h.kernel).isSome = true →
    s1.onceRead e m lane 0 ((a + 64) % 2 ^ 64) 64 (spansOf (a + 64) (64 * h.samples) 32) = .got es st' s2 →
    rows = (List.range h.samples).map (fun j => joinVals 32 ((es.drop (2 * j)).take 2)) → rows.all (sampleGood h.tend) = true →
    s2.buffersGood (Env.party s e) a h md (rows.zipIdx.map fun q => sampleOf q.2 q.1) = true →
    ((s.die (dieOf e.k)).run = none → (s.die (dieOf e.k)).sqWait = [] → s2.canRaise u 1 = true → (rows.zipIdx.map fun q => sampleOf q.2 q.1).any (fun z => z.status = 0) = true →
      ∃ r t, sqStart s e m lane a dst mask stamp = .ok (t.finishMem e m) ∧ r.serial = (s.die (dieOf e.k)).sqSerial ∧ r.uid = u ∧ r.recAddr = a ∧ r.kernel = h.kernel ∧ r.key = h.key ∧
        r.method = md ∧ r.samples = rows.zipIdx.map (fun q => sampleOf q.2 q.1) ∧
        t = ((s2.modDie (dieOf e.k) fun d => { d with
          run := some r, sqSerial := ((s.die (dieOf e.k)).sqSerial + 1) % 2 ^ 30, sqWait := d.sqWait.filter fun w => ¬ (w.core = e.k ∧ w.warp = e.slot ∧ w.gang = e.gid),
          recent := (d.recent ++ [({ serial := (s.die (dieOf e.k)).sqSerial, ctx := l.ctx, status := r.word 0 } : SqDone)]).drop (d.recent.length - 15) }).raiseCounter u 1).modWarp
            e.k e.slot fun w => w.writeUnis e.handling dst 32 [svConst (dieOf e.k * 2 ^ 30 + (s.die (dieOf e.k)).sqSerial)])) ∧
  (e.regTrap x.op (rowAt 0xF4 x.op) (maskOf (e.active x.op.g)) = none → ∀ s1 e1, s1 = e.paid s 0xF4 x.op → e1 = e.paying s 0xF4 x.op → ∀ m u l, m = e1.onceWait x.op (rowAt 0xF4 x.op) → e.team.uid = some u → e.launch = some l → ∀ vs s2,
    (x.op.op7 = 5 ∧ vs = [] ∧ s2 = s1 ∨ x.op.op7 ≠ 5 ∧ ∃ st, s1.onceRead e1 m lane (sv1 (onceOps s1 e1 0xF4 x.op 0).a).stamp (sv1 (onceOps s1 e1 0xF4 x.op 0).a).lo 32
      (spansOf (sv1 (onceOps s1 e1 0xF4 x.op 0).a).lo (32 * descCount x.op.op7) 32) = .got vs st s2) →
    witReason s2 { Env.party s2 e1 with uid := some u } x.op.op7 vs = none → ∀ t, s2.appendWitness l.root { kind := x.op.op7, descs := vs } = some t →
    exec (.witn x) s = .next (t.finishMem e1 m)) ∧
  (e.regTrap x.op (rowAt 0xF5 x.op) (maskOf (e.active x.op.g)) = none → ∀ s1 e1, s1 = e.paid s 0xF5 x.op → e1 = e.paying s 0xF5 x.op → ∀ l a, e.launch = some l → a = pointOf s1 (sv1 (onceOps s1 e1 0xF5 x.op 0).a) → a < 65536 → e.det = false →
    s1.isRegion l.ctx a = true →
    exec (.wstatReg x) s = .next (((s1.modWarp e.k e.slot fun w => w.writeUnis e.handling x.op.d 32 [svConst (s1.wstat l.ctx a false)]).drawn 1).finishMem e1
      (e1.onceWait x.op (rowAt 0xF5 x.op))) ∧
    exec (.wstatAtt x) s = .next (((s1.modWarp e.k e.slot fun w => w.writeUnis e.handling x.op.d 32 [svConst (s1.wstat l.ctx a true)]).drawn 1).finishMem e1
      (e1.onceWait x.op (rowAt 0xF5 x.op))))

/-- PGET, SWR, REGION, CSRR and CSRW (R255, R215, R206, R411): PGET and SWR complete where no register trap stands against them; CSRR writes the register's
value to its uniform, with stamp 0; CSRW retires and the register is written, the registers here as R407, R414, R419, R421 and R434 to R441 have it. -/
def Obligations.SpecialRegisters : Prop := ∀ s e, Steady s e →
  (ElementMode e →
    (∀ x : X96, e.regTrap x.op (rowAt 0x55 x.op) (maskOf (e.active x.g)) = none →
      Completes (.pget x) s e 12 s (e.warp.writeVecs x.op.d 32 ((e.active x.g).map fun i => (i, [svConst (predWord (e.warp.lane i))])))) ∧
    (∀ x : X96, swrWho e x.op ≠ [] → e.regTrap x.op (rowAt 0x5C x.op) (maskOf (e.active x.g)) = none →
      Completes (.swr x) s e 12 s (swrWarp (e.issued s (swrCost x.op e) 1) (e.issuing s (swrCost x.op e) 1) x.op)) ∧
    (∀ x : Long, unguarded (x.op 0).g = true ∨ e.active (x.op 0).g ≠ [] →
      Completes (.region x) s e (x.op 0).form.bytes s { e.warp with opbuf := (regionNames (x.op 0)).filter (· < e.team.n) })) ∧
  (∀ v, (swrWrite e 84 [(0, v)]).fpmode = BitVec.ofNat 32 (v / 256 % 128 * 256 + (if v % 8 ≤ 4 then v % 8 else 0)) ∧ (swrWrite e 92 [(0, v)]).ix = BitVec.ofNat 32 v ∧
    SlicesEdited e.warp (swrWrite e 93 [(0, v)]) (e.warp.gangSlices e.gid) (fun _ => some (BitVec.ofNat 32 v)) fun _ x => x) ∧
  (e.super = true →
    (∀ (x : X96) v, (e.issued s 1 1).csr e.csrUser x.op.imm16 = some v → Completes (.csrr x) s e 12 s (e.warp.writeUnis e.handling x.op.d 32 [svConst v])) ∧
    (∀ (x : X96) v, e.regTrap x.op (rowAt 0xFB x.op) (maskOf e.lanes) = none → v = pointOf (e.issued s 1 1) (sv1 (Env.srcs (e.issued s 1 1) (e.issuing s 1 1) x.op (rowAt 0xFB x.op) 0 0).a) →
      exec (.csrw x) s = .next (((e.issuing s 1 1).done 12 ((e.issued s 1 1).drawn 1)).csrWrite e.csrUser x.op.imm16 v))) ∧
  (∀ (t : State) (u : CsrUser) (v : Nat), v < 2 ^ 32 → dieOf u.k < t.dies.length → ∀ d, d = t.die (dieOf u.k) →
    (t.csrWrite u 0x100 v).csr u 0x100 = some (v - v / 2 % 2 * 2) ∧ (t.csrWrite u 0x101 v).csr u 0x101 = some v ∧
    (t.csrWrite u 0x110 v).csr u 0x110 = some (d.intPend &&& ((2 ^ 24 - 1) ^^^ (v % 2 ^ 24))) ∧ (t.csrWrite u 0x111 v).csr u 0x111 = some (v % 2 ^ 24) ∧
    (t.csrWrite u 0x170 v).csr u 0x170 = some (v % 2 ^ 28) ∧ (t.csrWrite u 0x171 v).csr u 0x171 = some (v % 2 ^ 28) ∧
    (isFw u.k = true → (t.csrWrite u 0x178 v).csr u 0x178 = some (v &&& 0x0FFF0001)))

/-- Taking a trap (R405 to R408): the trap registers and TSEXEC and TSDONE are written and the gang's slices go to TVEC with every live lane's EXEC bit and
an empty trap stack, when TVECLO.EN is 1, the address canonical and no handler runs; a trap of the handler, or a handler address that is not canonical, is a
double fault (class 15); with EN 0 the team is killed (class 16); while a handler runs another gang's trap has no effect and its instruction issues again. -/
def Obligations.TakingATrap : Prop := ∀ (s : State) (k slot g : Nat) (t : Trap) (len : Nat) (w : Warp), s.warp? k slot = some w → w.lanes.length = 32 →
  w.slices.length = 8 → ∀ d w1, d = s.die (dieOf k) → w1 = { w with
    trapCause := BitVec.ofNat 32 (t.cls % 32 * 65536 + t.index % 256 * 256 + t.reason % 256)
    trapAddr := w.pcOf g
    trapMask := t.mask } →
  (w.handler = none → d.tvecLo.getLsbD 0 = true → canonical (d.tvecHi ++ (d.tvecLo &&& 0xFFFFFFFC#32)).toNat = true → ∃ v,
    s.takeTrap k slot g t len = s.modWarp k slot (fun _ => v.modGang g fun x => { x with
      wait := .ready
      skip := 0
      deliv := []
      mark := none }) ∧
    SlicesEdited { w1 with
      tsexec := maskOf (((w.gangSlices g).flatMap laneIds).filter fun j => (w.lane j).exec)
      tsdone := if (t.cls = 2 ∨ t.cls = 3) ∧ 1 ≤ t.reason ∧ t.reason ≤ 4 then t.mask else 0
      handler := some ([g], len) } v (w.gangSlices g) (fun _ => some w.liveMask) fun _ x => { x with
        pc := d.tvecHi ++ (d.tvecLo &&& 0xFFFFFFFC#32)
        tstack := []
        ended := false }) ∧
  (w.handler = none → d.tvecLo.getLsbD 0 = false → s.takeTrap k slot g t len = (s.modWarp k slot fun _ => w1).teamError 16 k w.team) ∧
  (w.handler = none → d.tvecLo.getLsbD 0 = true → canonical (d.tvecHi ++ (d.tvecLo &&& 0xFFFFFFFC#32)).toNat = false →
    s.takeTrap k slot g t len = (s.modWarp k slot fun _ => w1).teamError 15 k w.team) ∧
  (∀ hs n, w.handler = some (hs, n) → g ∈ hs → s.takeTrap k slot g t len = s.teamError 15 k w.team) ∧
  (∀ hs n, w.handler = some (hs, n) → g ∉ hs → s.takeTrap k slot g t len = s.modWarp k slot fun _ => w.modGang g fun x => { x with
    wait := .ready
    deliv := []
    mark := none
    skip := x.skip ||| (if (t.cls = 2 ∨ t.cls = 3) ∧ 1 ≤ t.reason ∧ t.reason ≤ 4 then t.mask else 0) })

/-- TRAP, RTE, HALT, TLBI and WAITI (R410, R411), words that encode nothing (R67), a fetch that cannot be made (R405), and the supervisor-only instructions in
user mode (R72: illegal instruction, detail 11). TRAP takes class 16 with its code; RTE gives EXEC back as TSEXEC AND live, at TRAPADDR or past the trapped instruction. -/
def Obligations.SystemInstructions : Prop := ∀ s e, Steady s e → ∀ s1 e1, s1 = e.issued s 1 1 → e1 = e.issuing s 1 1 →
  (ElementMode e →
    (∀ x : C32I, exec (.trapC32 x) s = .next (s1.takeTrap e.k e.slot e.gid { cls := 16, reason := x.op.lit % 256, mask := maskOf e.lanes } 4)) ∧
    (∀ x : X96, exec (.trap x) s = .next (s1.takeTrap e.k e.slot e.gid { cls := 16, reason := x.op.imm16 % 256, mask := maskOf e.lanes } 12))) ∧
  (∀ n w ws, fetchAll s e.k (Env.party s e) e.pc.toNat = .ok (w, ws) →
    exec (.illegalInstruction n) s = .next (s.takeTrap e.k e.slot e.gid { cls := 1, reason := n, mask := maskOf e.lanes } (4 * lenWords w))) ∧
  (∀ n, exec (.instructionFetchFault n) s = .next (s.takeTrap e.k e.slot e.gid { cls := 3, reason := n, mask := 0 } 4)) ∧
  (e.super = true →
    (e.handling = true → ∀ skip w w1, w = e.warp.returnFrom e.gid skip →
      w1 = ((w.gangSlices e.gid).foldl (fun w i => w.markEmpty i e.warp.tsexec) w).unwindEnded e.gid false (w.pcOf e.gid) →
      ∀ x, exec (if skip then .rteSkip x else .rteRep x) s = .next (((s1.modWarp e.k e.slot fun _ => w1).partGang e.k e.slot e.gid).settleTeam e.k e.warp.team)) ∧
    (e.handling = false → ∀ x, ∀ i ∈ [Instr.rteRep x, .rteSkip x], exec i s = .next (s1.takeTrap e.k e.slot e.gid { cls := 1, reason := 11, mask := maskOf e.lanes } 4)) ∧
    (∀ x, (isFw e.k = true → exec (.halt x) s = .next ((e.stall .halted s1).modCore e.k fun (c : Core) => { c with halted := true })) ∧
      (isFw e.k = false → exec (.halt x) s = .next (s1.teamError 16 e.k e.warp.team))) ∧
    (∀ x, (isFw e.k = false ∨ (s1.die (dieOf e.k)).interrupted = true → Completes (.waiti x) s e 4 s e.warp) ∧
      (isFw e.k = true → (s1.die (dieOf e.k)).interrupted = false → exec (.waiti x) s = .next (e.stall (.waiti 4) s1))) ∧
    (∀ x : X96, e.regTrap x.op (rowAt 0xFD x.op) (maskOf e.lanes) = none → ∀ q : Instr × (TlbEnt → Bool), q ∈ [(.tlbiAll x, fun _ => true), (.tlbiCtx x, fun t => !t.g && decide (t.ctx = tlbiContext s1 e1 x.op)),
        (.tlbiPage x, fun t => (t.g || decide (t.ctx = tlbiContext s1 e1 x.op)) &&
          decide (t.base ≤ pointOf s1 (sv1 (Env.srcs s1 e1 x.op (rowAt 0xFD x.op) 0 0).a) % 2 ^ 57 ∧
            pointOf s1 (sv1 (Env.srcs s1 e1 x.op (rowAt 0xFD x.op) 0 0).a) % 2 ^ 57 < t.base + t.size))] →
      ∀ s2 marks, s2 = dropped s1 q.2 → marks = s2.cores.map (fun c => (c.1, c.2.seq)) →
        exec q.1 s = .next (if s2.tlbiDone marks then e.done 12 s2 else e.stall (.tlbi marks 12) s2))) ∧
  (e.super = false → ∀ (x : X96) (y : C32R), ∀ q ∈ [(Instr.csrr x, 12), (.csrw x, 12), (.rteRep y, 4), (.rteSkip y, 4), (.halt y, 4), (.tlbiAll x, 12), (.tlbiCtx x, 12),
      (.tlbiPage x, 12), (.waiti y, 4)], exec q.1 s = .next (s.takeTrap e.k e.slot e.gid { cls := 1, reason := 11, mask := maskOf e.lanes } q.2)) ∧
  (∀ hs len left, e.warp.handler = some (hs, len) → left = (hs.filter fun h => h ≠ e.gid ∧ e.warp.gangSlices h ≠ []) → ∀ skip, ∃ v,
    SlicesEdited e.warp v (e.warp.gangSlices e.gid) (fun _ => some e.warp.tsexec) (fun _ x => { x with
      pc := if skip then e.warp.trapAddr + BitVec.ofNat 64 len else e.warp.trapAddr
      tstack := [] }) ∧
    e.warp.returnFrom e.gid skip = { v with handler := if left = [] then none else some (left, len) }.modGang e.gid fun x => { x with
      wait := .ready
      skip := if skip then 0 else e.warp.tsdone })

/-- Queues, launches and their ends (R346 to R351, R357 to R364, R426 to R430, R188, R459): each of these steps, where what it waits for holds. That a
launch whose re-run has no cluster left ends with status 4, that a firmware core's system writes wait at a gate of their die, and that a commit of an
enabled queue lets its context's packets pass again are the model's readings (logs 22, 23, 87). -/
def Obligations.QueueAndLaunchSteps : Prop := ∀ s : State,
  (∀ q v, s.queue? s.ev.n = some q → v = s.ev.v.toNat % 2 ^ 48 → q.started = true →
    (q.tail < v → v ≤ q.head + 2 ^ q.srlog → exec .sqDoorbellWrite s = .next (s.setQueue s.ev.n { q with tail := v })) ∧
    (v ≤ q.tail ∨ q.head + 2 ^ q.srlog < v → exec .sqDoorbellWrite s = .next s) ∧
    (q.cqHead < v → exec .cqDoorbellWrite s = .next (s.setQueue s.ev.n { q with cqHead := v })) ∧
    (v ≤ q.cqHead → exec .cqDoorbellWrite s = .next s)) ∧
  (s.leads s.ev.die = false → exec .qcommitWrite s = .next (s.violation s.ev.die)) ∧
  (∀ n old g q d, s.leads s.ev.die = true → n = s.ev.v.toNat % 4096 → old = (s.queue? n).getD {} → qcbOf (memNat s.hbm (s.qcbBase * 4096 + 64 * n) 64) = some (g, q) →
    d = (g + 2 ^ 32 - old.gen) % 2 ^ 32 →
    (d ≠ 0 → d < 2 ^ 31 → exec .qcommitWrite s = .next (({ s with
      dies := s.dies.map fun (x : Die) => { x with dropCtx := if q.en = true then x.dropCtx.filter (· ≠ q.ctx) else x.dropCtx } } : State).setQueue n { q with
        gen := g
        started := old.started || q.en
        head := old.head
        tail := old.tail
        cqHead := old.cqHead
        count := old.count })) ∧
    (d = 0 ∨ 2 ^ 31 ≤ d → exec .qcommitWrite s = .next s)) ∧
  (∀ q, s.queue? s.ev.n = some q → s.powered = true → s.recovery = false → q.en = true → q.started = true → q.head < q.tail →
    (∀ v l, s.ringRead q (q.srbase + 64 * (q.head % 2 ^ q.srlog)) 64 = some v → s.launchOf s.ev.n q v = .ok l →
      exec .launchRecordFetch s = .next ((s.addLaunch l).setQueue s.ev.n { q with head := q.head + 1 })) ∧
    (∀ v c, s.ringRead q (q.srbase + 64 * (q.head % 2 ^ q.srlog)) 64 = some v → s.launchOf s.ev.n q v = .error c →
      exec .launchRecordFetch s = .next ((s.addLaunch (deadLaunch s.ev.n q s.nextUid c)).setQueue s.ev.n { q with head := q.head + 1 }))) ∧
  (∀ l img s1, s.launch s.ev.n = some l → l.phase = .waiting → l.failed = none → l.grouped = false → (∀ n c, s.headCheck = some (n, c) → c.wit.kind ≠ 5) →
    ((l.deps.any fun d => s.depState l.ctx d = .failed) = true → exec .launchDispatch s = .next (s.failLaunch s.ev.n 3)) ∧
    ((l.deps.any fun d => s.depState l.ctx d = .failed) = false → s.dispatchable l = true → s.framesMet s.ev.n l = true → s.imageOf l = some img →
      s.replace l.ocr l.occ l.ch l.cw = some (l.ocr, l.occ) → s.placeCopy s.ev.n img l = some s1 →
      exec .launchDispatch s = .next (s1.start s.ev.n img l))) ∧
  (∀ c cs, s.pick s.ev.die = .place c cs → (c.l.onePerCore && decide (c.l.nextQuad = 0)) = false → ∀ q, (s.coolest (c.spots.filter fun q =>
      ((rectDies c.l.ocr c.l.occ c.l.ch c.l.cw).flatMap (s.pickedOn c.uid)).contains q)) = some q → exec .quadAdmission s = .next (s.admitQuad c.img c.uid q)) ∧
  (∀ k slot, s.pick s.ev.die = .preempt k slot → exec .quadAdmission s = .next (s.askDiscard k slot)) ∧
  (∀ l img r, s.launch s.ev.n = some l → s.imageOf l = some img → l.reruns.find? (fun r => r.team = s.ev.k) = some r → l.phase = .running →
    (∀ c ∈ s.rerunSpots s.ev.n l r, s.present c.1 c.2 = false) → exec .teamRerunAdmission s = .next (s.endLaunch l.root 4)) ∧
  (∀ l img r c, s.launch s.ev.n = some l → s.imageOf l = some img → l.reruns.find? (fun r => r.team = s.ev.k) = some r → l.phase = .running → r.threads = [] →
    s.coolest ((s.rerunSpots s.ev.n l r).filter fun c => ((s.core (clusterCore c.1 c.2 r.pos)).takes l.pri s.scanPri && !(s.blockedAbove l.pri).contains c &&
      s.present c.1 c.2 && ((s.residentOf s.ev.n r.seg r.quad).isSome || !(s.die (clusterDie c.1 c.2)).retiring.contains (clusterIdx c.1 c.2))) &&
      ((s.core (clusterCore c.1 c.2 r.pos)).room (needOf img l img.teamW true)).isSome) = some c → (∃ c ∈ s.rerunSpots s.ev.n l r, s.present c.1 c.2 = true) →
    exec .teamRerunAdmission s = .next ((s.admitGrid img s.ev.n (clusterCore c.1 c.2 r.pos) (r.seg - l.seg0) r.team r.reruns).modLaunch s.ev.n
      fun x => { x with reruns := x.reruns.erase r })) ∧
  (∀ f rest s1, (s.core s.ev.core).formed = f :: rest → s.admitThreads s.ev.core f.threads 0 = some s1 → exec .formedWarpAdmission s =
    .next (((s1.modCore s.ev.core fun (c : Core) => { c with formed := rest }).modDie (dieOf s.ev.core) fun d => { d with
      cycle := d.cycle + (f.since + 44 - s.cycleOf s.ev.core) }).settleBins s.ev.core)) ∧
  (∀ b s1, alook s.ev.n (s.core s.ev.core).bins = some b →
    s1 = (s.modDie (dieOf s.ev.core) fun d => { d with cycle := d.cycle + (b.deadline - s.cycleOf s.ev.core) }) → (s1.core s.ev.core).formed.length < 16 →
    earliest ((s1.core s.ev.core).bins.filter fun x => decide (x.2.deadline ≤ s1.cycleOf s.ev.core ∨ s1.widthOf x.2.uid ≤ x.2.threads.length)) = some s.ev.n →
    exec .binTimerExpiry s = .next ((s1.setCore s.ev.core ((s1.core s.ev.core).formBin s.ev.n (s1.cycleOf s.ev.core))).settleBins s.ev.core)) ∧
  (∀ g rest, (s.die s.ev.die).agg = g :: rest → exec .aggregatorGroupClose s = .next ((s.modDie s.ev.die fun d => { d with
    agg := rest
    cycle := max d.cycle (g.first + 256) }).closeGroup g)) ∧
  (∀ l, s.launch s.ev.n = some l → l.phase = .running → l.counter = 0 → l.segs.length ≤ l.nextSeg → l.reruns = [] →
    (l.parent = none → exec .launchCompletion s = .next (s.modLaunch s.ev.n fun x => { x with phase := .flushing })) ∧
    (∀ p, l.parent = some p → exec .launchCompletion s = .next ((s.modLaunch s.ev.n fun x => { x with phase := .ended }).lowerCounter p 1))) ∧
  (s.ev.k = 1 → exec .releaseGateDelivery s = .next (s.fwDeliver s.ev.die)) ∧
  (∀ l w rest, s.ev.k ≠ 1 → s.launch s.ev.n = some l → l.gate = w :: rest → l.phase = .settled → l.second = false →
    (l.status.getD 7 ≤ 1 → (s.ev.v = 0 ∨ w.addr < 2 ^ 47) →
      exec .releaseGateDelivery s = .next ((s.homeWrite (.sys w.addr) w.data).modLaunch s.ev.n fun x => { x with gate := rest })) ∧
    (l.status.getD 7 ≤ 1 → s.ev.v ≠ 0 → 2 ^ 47 ≤ w.addr → exec .releaseGateDelivery s =
      .next ((s.logError (sevReset.getD 23 2) 23 true none none (some l.ctx) none l.tag).modLaunch s.ev.n fun x => { x with
        gate := rest
        peerRefused := true })) ∧
    (2 ≤ l.status.getD 7 → exec .releaseGateDelivery s = .next s)) ∧
  (∀ l n st status q s1, s.launch s.ev.n = some l → l.queue = some n → l.status = some st → status = (if l.peerRefused then 7 else st) → q = (s.queue? n).getD {} → l.phase = .settled → l.gate = [] →
    s1 = s.ringWrite q (q.crbase + 32 * (q.count % 2 ^ q.crlog)) (natLe 32 (l.tag.toNat * 2 ^ 64 + l.dies % 16 * 2 ^ 12 + l.run % 4 * 2 ^ 10 + status % 8 * 2 ^ 4 +
      (if q.count / 2 ^ q.crlog % 2 = 0 then 1 else 0))) →
    (q.count < q.cqHead + 2 ^ q.crlog → exec .completionRecordWrite s = .next ((({ s1 with
      msix := s1.msix ++ [n % 2048]
      results := s1.results ++ [s1.resultOf l status] } : State).setQueue n { q with count := q.count + 1 }).bury s.ev.n)) ∧
    (q.cqHead + 2 ^ q.crlog ≤ q.count → exec .completionRecordWrite s = .next s))

/-- Steps that place threads, end a stall, or move a team (R135, R359, R379, R381, R341 to R343, R145, R345, R411, R420 to R424).
Which gang's trap comes first where REGANGs do not match is the model's reading (log 79). -/
def Obligations.ThreadAndTeamSteps : Prop := ∀ s : State, ∀ k, k = s.ev.core →
  (∀ e, s.envOf k s.ev.warp s.ev.gang = some e →
    (∀ acq len fr, e.gang.wait = .bowait [] acq len fr →
      exec .bowaitSatisfied s = .next (e.done len ((s.modWarp e.k e.slot fun w => w.free fr).acquire e.k e.slot acq))) ∧
    (∀ ts timer len frees, e.gang.wait = .spawn ts timer len frees → (e.warp.sq = [] → exec .spawnPlacement s = .next (s.spawnNow e ts timer len frees)) ∧
      (e.warp.sq ≠ [] → exec .spawnPlacement s = .next s)) ∧
    (∀ last len, e.gang.wait = .place last len → exec .spawnPlacement s = .next (s.settleBins k)) ∧
    (∀ till, e.gang.wait = .sleep till → exec .sleepExpiry s = .next ((e.stall .ready s).modDie (dieOf k) fun d => { d with cycle := max d.cycle till })) ∧
    (∀ pc mask len named gs, e.warp.atRegang e.gid = some (pc, mask, len) → named = ((List.range 8).filter fun i => mask.testBit i && e.warp.sliceLive i) →
      gs = (named.map fun i => (e.warp.slice i).gang).eraseDups →
      ((∀ g ∈ gs, ∃ n, e.warp.atRegang g = some (pc, mask, n)) →
        exec .regangMerge s = .next ((s.modWarp k s.ev.warp fun _ => e.warp.mergeGangs e.gid gs).retire k s.ev.warp e.gid pc len)) ∧
      ((∀ g ∈ gs, ∃ y, e.warp.atRegang g = some y) → (∃ g ∈ gs, ∃ y, e.warp.atRegang g = some y ∧ (y.1 ≠ pc ∨ y.2.1 ≠ mask)) →
        exec .regangMerge s = .next ((s.issuedFirst k s.ev.warp gs).foldl (fun t g => match t.envOf k s.ev.warp g with
          | some x => t.takeTrap k s.ev.warp g (ctlTrap x 3) len
          | none => t) s)))) ∧
  (∀ m, s.flight.find? (fun m => m.id = s.ev.n) = some m → m.core = k → m.sent = true → (∀ o ∈ s.flight, o.id < m.id → o.sender = m.sender → o.core ≠ m.core) →
    ((s.core m.core).placing.filter (·.msg)).length < 32 →
    exec .messageArrival s = .next (({ s with flight := s.flight.filter fun o => o.id ≠ m.id } : State).arriveAll m.core [m.thread] 256 true)) ∧
  (∀ t l img s1, alook s.ev.n (s.core k).tiles = some t → s.launch t.uid = some l → s.imageOf l = some img → s.tileDrained k t = true →
    (t.quarter = true → s.placeEvent k t.uid ((List.range 4).map fun i => boundsThread img l t.uid (t.depth + 1) t.clock (quarterOf (domainDim l) t.x t.y t.z i).1
        (quarterOf (domainDim l) t.x t.y t.z i).2.1 (quarterOf (domainDim l) t.x t.y t.z i).2.2) = some s1 →
      exec .quarterEvent s = .next (s1.modCore k fun (c : Core) => { c with tiles := adel s.ev.n c.tiles })) ∧
    (∀ ts, ts = tileElems img l t (if s.detLaunch t.uid then min ((16 - (s.core k).formed.length) * s.widthOf t.uid) 4096 else 4096) → t.quarter = false →
      (∀ p ∈ (s.core k).placing, t.last < p.num) → s.placeEvent k t.uid ts = some s1 →
      exec .handoffGroupPlace s = .next (s1.modCore k fun (c : Core) => { c with
        tiles := if tileCount t.x t.y t.z ≤ t.next + ts.length then adel s.ev.n c.tiles else aput s.ev.n { t with
          next := t.next + ts.length
          last := c.arrivals - 1 } c.tiles }))) ∧
  (∀ w w' g g' partner pd len back pd' len' slot', s.warp? k s.ev.warp = some w → w.atRegroup = some (g, partner, pd, len) →
    ((s.core k).partner w.team partner = none → exec .regroupFusion s = .next (s.regroupFails k s.ev.warp)) ∧
    ((s.core k).partner w.team partner = some (slot', w') → w'.atRegroup = some (g', back, pd', len') → back = w.warpId → w'.pcOf g'.id = w.pcOf g.id → ∀ e, s.envOf k s.ev.warp g.id = some e →
      (e.w < w.liveLanes.length + w'.liveLanes.length → exec .regroupFusion s = .next ((s.regroupFails k s.ev.warp).regroupFails k slot')) ∧
      (∀ (s1 : State) (share : Team → Nat), w.liveLanes.length + w'.liveLanes.length ≤ e.w → (∀ t, share t = t.n * (match t.uid.bind s.launch with
          | some l => if l.mirrored then 2 else 1
          | none => 1)) → s1 = (s.modTeam k w.team fun t => { t with vectors := t.vectors - share t }) →
      (w.warpId < w'.warpId → exec .regroupFusion s = .next (s1.modCore k fun (c : Core) => ({ c with
        warps := aput s.ev.warp (fuse w w' g g' (w.pcOf g.id) pd len) (adel slot' c.warps)
        order := c.order.filter fun p => p.1 ≠ slot' }).tidyWarp s.ev.warp)) ∧
      (w'.warpId ≤ w.warpId → exec .regroupFusion s = .next (s1.modCore k fun (c : Core) => ({ c with
        warps := aput slot' (fuse w' w g' g (w.pcOf g.id) pd len) (adel s.ev.warp c.warps)
        order := c.order.filter fun p => p.1 ≠ s.ev.warp }).tidyWarp slot'))))) ∧
  exec .preemptSave s = .next (if s.svSize = 0 then s else s.modTeam k s.ev.n fun t => { t with saving := true }) ∧
  exec .preemptDrain s = .next (s.modTeam k s.ev.n fun t => { t with drain := true }) ∧
  (∀ t, alook s.ev.n (s.core k).teams = some t →
    exec .preemptDiscard s = .next (if s.discardable t then s.killTeam k s.ev.n false else if s.svSize = 0 then s else s.modTeam k s.ev.n fun t => { t with saving := true })) ∧
  (∀ t s1 t1, alook s.ev.n (s.core k).teams = some t → s.saveReady k s.ev.n t = true → s1 = s.retireDone k s.ev.n → alook s.ev.n (s1.core k).teams = some t1 → ∀ x,
    x = (s1.core k).imageOf k s1.tracks s.ev.n t1 → exec .teamSave s = .next { s1.removeTeam k s.ev.n with saved := s1.saved ++ [{ x with team := { x.team with
      pos := if isFw k then 0 else posOf k } }] }) ∧
  (∀ x l group c ls, s.saved[s.ev.k]? = some x → s.launch s.ev.n = some l → x.uid = s.ev.n →
    group = (if x.team.kind = .grid then s.saved.filter fun y => y.uid = x.uid ∧ y.team.kind = .grid ∧ y.team.seg = x.team.seg ∧ y.team.quad = x.team.quad else [x]) →
    (s.homesOf l x).findSome? (fun c => (landings s c.1 c.2 l.pri group).map fun ls => (c, ls)) = some (c, ls) →
    exec .teamRestore s = .next ((ls.foldl State.retest (ls.foldl (State.land ls) { s with saved := s.saved.filter fun y => ¬ group.contains y })).modLaunch s.ev.n fun r => { r with
      quads := r.quads.map fun q => if x.team.kind = .grid ∧ q.1 = x.team.seg ∧ q.2.1 = x.team.quad then (q.1, q.2.1, c.1, c.2) else q })) ∧
  ((s.die s.ev.die).interrupted = false → exec .waitiWake s = .next s) ∧
  (∀ slot g e len, (s.die s.ev.die).interrupted = true → s.envOf (s.ev.die * 256 + 128) slot g = some e → e.gang.wait = .waiti len →
    (s.core (s.ev.die * 256 + 128)).warps = [(slot, e.warp)] → e.warp.gangs = [e.gang] → exec .waitiWake s = .next (e.done len s))

/-- Drain, Send, Fetch, Evict, the fabric's exchanges, accesses, walks and the fault queue (R107 to R112, R113, R126 to R130, R174 to R178, R182, R464,
R465). Which writes travel as packets, and the number of the error that a packet meets, are in the step's operands (log 23). -/
def Obligations.MemoryAndFabricSteps : Prop := ∀ s : State, ∀ k c, k = s.ev.core → c = s.core k →
  (∀ w q rest s1, s.warp? k s.ev.warp = some w → w.sq = q :: rest →
    (canDrain s k s.ev.warp q = false → exec .storeQueueDrain s = .next s) ∧
    (canDrain s k s.ev.warp q = true → s1 = (s.modWarp k s.ev.warp fun w => { w with sq := rest }) →
      (∀ off, q.place = .scr k off → q.kind = .store → exec .storeQueueDrain s = .next (((s1.homeWrite q.place q.data).wakeFences k).settleTeam k w.team)) ∧
      (∀ pa, q.place = .mem pa → q.kind = .store → exec .storeQueueDrain s = .next (((s1.modCore k fun (c : Core) => { c.cvUpdate pa q.data with
        ob := (c.cvUpdate pa q.data).ob ++ [{ q with ob := (c.cvUpdate pa q.data).seq }]
        seq := (c.cvUpdate pa q.data).seq + 1 }).wakeFences k).settleTeam k w.team)) ∧
      (∀ pa op t mode, q.place = .mem pa → q.kind = .red op t mode → exec .storeQueueDrain s = .next (((s1.modCore k fun (c : Core) => { c with
        cv := adel (pa / 32) c.cv
        ob := c.ob ++ [{ q with ob := c.seq }]
        seq := c.seq + 1 }).wakeFences k).settleTeam k w.team)) ∧
      (∀ a, q.place = .sys a → exec .storeQueueDrain s = .next (((s1.modCore k fun (c : Core) => { c with
        ob := c.ob ++ [{ q with ob := c.seq }]
        seq := c.seq + 1 }).wakeFences k).settleTeam k w.team)))) ∧
  (∀ q, c.ob[s.ev.n]? = some q → canSend c.ob s.ev.n = true → s.msgHeld k q = false →
    (s.ev.k = 0 → exec .outboundSend s = .next (((s.applyEnt k q).modCore k fun (c : Core) => c.dropOb q.ob).left k)) ∧
    (∀ pa s1, s.ev.k = 1 → q.place = .mem pa → s.openXch k q.uid (s.ctxOf k q.uid) pa (.ob q) = some s1 →
      exec .outboundSend s = .next (s1.modCore k fun (c : Core) => { c with ob := c.ob.map fun x => if x.ob = q.ob then { x with sent := true } else x }))) ∧
  (canSend c.ob s.ev.n = false → exec .outboundSend s = .next s) ∧
  (∀ q pa, q.place = .mem pa → q.kind = .store → s.applyEnt k q = s.homeWrite (.mem pa) q.data) ∧
  (exec .fetch s = .next (if 32 * s.ev.n + 32 ≤ Config.hbmBytes then s.fetchSector k s.ev.n else s)) ∧
  (exec .evict s = .next (s.modCore k fun (c : Core) => { c with cv := adel s.ev.n c.cv })) ∧
  (∀ p x gone err, s.packetAt PKind.isRequest = some (p, x) → gone = { s with packets := adel s.ev.n s.packets } →
    err = ({ cls := 11, die := p.dst.die, onCK := false, core := localOf x.core, slot := 0, ctx := p.ctx, tag := 0, detail := none } : ErrorReport) →
    (p.corrupt = true ∨ s.ev.k = 3 → exec .fabricRequestArrival s = .next (gone.raiseError err).sweepLost) ∧
    (p.corrupt = false → s.ev.k = 0 → x.lost = true ∨ (s.die x.home).dropCtx.contains x.ctx = true → exec .fabricRequestArrival s = .next gone.sweepLost) ∧
    (p.corrupt = false → s.ev.k = 0 → x.lost = false → (s.die x.home).dropCtx.contains x.ctx = false →
      (∀ f, alook p.xch s.filters = some f → exec .fabricRequestArrival s =
        .next (({ gone with filters := aput p.xch { f with copies := f.copies ++ [p.copy] } s.filters }.respond p.xch x f.value).closeFilter p.xch)) ∧
      (alook p.xch s.filters = none → 1024 ≤ s.filterHeld x.pa → exec .fabricRequestArrival s = .next s) ∧
      (∀ d, alook p.xch s.filters = none → s.filterHeld x.pa < 1024 → d = gone.performXch x → exec .fabricRequestArrival s =
        .next (({ d.1 with filters := aput p.xch { copies := [p.copy], value := d.2, ctx := x.ctx } d.1.filters } : State).respond p.xch x d.2)))) ∧
  (∀ x : Exchange, x.void = false →
    (∀ q, x.cargo = .ob q → ((s.core x.core).ob.any fun r => decide (r.ob = q.ob)) = true →
      s.performXch x = (((s.applyEnt x.core q).modCore x.core fun (c : Core) => c.dropOb q.ob).left x.core, [])) ∧
    (∀ w g a, x.cargo = .atom w g a → s.performXch x = ((s.atomHome x.core (.mem x.pa) a).1, natLe a.size (s.atomHome x.core (.mem x.pa) a).2))) ∧
  (∀ p x gone, s.packetAt (fun y => y = .response) = some (p, x) → p.corrupt = false → s.ev.k = 0 → gone = { s with packets := adel s.ev.n s.packets } →
    (x.lost = true ∨ x.answered = true → exec .fabricResponseArrival s = .next gone.sweepLost) ∧
    (x.lost = false → x.answered = false → exec .fabricResponseArrival s =
      .next ((({ gone with exchanges := aput p.xch { x with answered := true } s.exchanges } : State).takeResponse p.xch x p.data).acknowledge p.xch x))) ∧
  (∀ p x f, s.packetAt (fun y => y = .ack) = some (p, x) → p.corrupt = false → s.ev.k = 0 → x.lost = false → alook p.xch s.filters = some f →
    exec .fabricAckArrival s = .next ({ s with
      packets := adel s.ev.n s.packets
      filters := aput p.xch { f with ack := some p.copy } s.filters }.closeFilter p.xch)) ∧
  (∀ ex, alook s.ev.n s.exchanges = some ex →
    (ex.lost = true ∨ ex.answered = true ∨ s.cycleOf ex.core < ex.last + 4096 → exec .retransmitTimerExpiry s = .next s) ∧
    (ex.lost = false → ex.answered = false → ex.last + 4096 ≤ s.cycleOf ex.core → (8 ≤ ex.copies → exec .retransmitTimerExpiry s =
        .next (s.raiseError { cls := 12, die := dieOf ex.core, onCK := false, core := localOf ex.core, slot := 0, ctx := ex.ctx, tag := 0, detail := none })) ∧
      (ex.copies < 8 → ∀ ex', ex' = ({ ex with copies := ex.copies + 1, last := s.cycleOf ex.core } : Exchange) →
        exec .retransmitTimerExpiry s = .next ({ s with exchanges := aput s.ev.n ex' s.exchanges }.request s.ev.n ex' (ex.copies + 1))))) ∧
  (∀ e m a h s1, s.envOf k s.ev.warp s.ev.gang = some e → e.gang.wait = .mem m → (e.det && !m.checked && !m.again) = false →
    nextAcc s (Env.party s e) m.accs = some (a, h) → a.lane = s.ev.lane → a.xch = none → s.performAcc e a h = some s1 →
    ∀ i, i = (if a.kind.returns then Instr.atomicPerform else .accessComplete) → s.ev.k = 0 →
    ((m.without a).accs = [] → exec i s = .next (s1.finishMem e (m.without a))) ∧
    ((m.without a).accs ≠ [] → exec i s = .next (s1.modGang k s.ev.warp s.ev.gang fun x => { x with wait := .mem (m.without a) }))) ∧
  (∀ r s1 q, ((s.die s.ev.die).walks.take 32).contains (s.ev.n, s.ev.k) = true → r = walk s s.ev.die s.ev.n (ext57 (s.ev.k * 4096)) →
    s1 = (match r with
      | .ok t => s.cache s.ev.die t
      | .error _ => s) →
    q = (s.waiters s.ev.die s.ev.n s.ev.k).foldl (fun (q : State × Bool) w => ((q.1.serve s.ev.die s.ev.n s.ev.k r w).1, q.2 && (q.1.serve s.ev.die s.ev.n s.ev.k r w).2)) (s1, true) →
    exec .walkComplete s = .next (if q.2 then q.1.modDie s.ev.die fun d => { d with walks := d.walks.filter (· ≠ (s.ev.n, s.ev.k)) } else q.1)) ∧
  (∀ seq x d, seq = s.ev.v.toNat % 2 ^ 32 → alook seq (s.die s.ev.die).fq = some x → d = (s.modDie s.ev.die fun d => { d with fq := adel seq d.fq }) →
    (∀ id, x.task = some id →
      exec .fqretryWrite s = .next ((d.addWalk s.ev.die x.ctx x.va).modCore x.core fun (c : Core) => c.modTask id fun t => if t.seq = some seq then { t with seq := none } else t) ∧
      exec .fqdeliverWrite s = .next (d.taskError x.core id)) ∧
    (x.task = none → exec .fqretryWrite s = .next ((d.addWalk s.ev.die x.ctx x.va).modGang x.core x.warp x.gang fun g => match g.wait with
        | .fetch va (some n) => if n = seq then { g with wait := .fetch va none } else g
        | .mem m => { g with wait := .mem { m with accs := m.accs.map fun a => if a.seq = some seq then { a with seq := none } else a } }
        | _ => g) ∧
      ∀ e, d.envOf x.core x.warp x.gang = some e →
        (∀ va, e.gang.wait = .fetch va (some seq) → exec .fqdeliverWrite s = .next (d.takeTrap x.core x.warp x.gang { cls := 3, reason := x.cause, mask := 0 } 4)) ∧
        (∀ m m1, e.gang.wait = .mem m → m1 = { m with
            accs := m.accs.filter fun a => a.seq ≠ some seq
            deliv := m.deliv ++ [(seq, x.cause, maskOf ((m.accs.filter fun a => a.seq = some seq).map (·.lane)))] } →
          (m1.accs = [] → exec .fqdeliverWrite s = .next (d.finishMem e m1)) ∧
          (m1.accs ≠ [] → exec .fqdeliverWrite s = .next (d.modGang x.core x.warp x.gang fun g => { g with wait := .mem m1 }))))) ∧
  (∀ h, h = s.ev.v.toNat % 2 ^ 32 → exec .fqheadWrite s = .next (s.modDie s.ev.die fun d =>
    if (h + (2 ^ 32 - d.fqHead)) % 2 ^ 32 ≤ (d.fqTail + (2 ^ 32 - d.fqHead)) % 2 ^ 32 then { d with fqHead := h } else d)) ∧
  ((∀ q ∈ s.cores, dieOf q.1 = s.ev.die → ∀ w ∈ q.2.warps, ∀ g ∈ w.2.gangs, ∀ m, g.wait = .mem m → ∀ a ∈ m.accs, ∀ o, a.place ≠ some (.ws o)) →
    exec .refreshSlotEnd s = .next (s.setDie s.ev.die { s.die s.ev.die with cycle := ((s.die s.ev.die).cycle / 256 + 1) * 256 }))

/-- The engines' steps (R113, R115, R143, R151 to R153, R158, R186): a task starts in its turn, its sectors land, it completes; its queue is applied; the weight
store's write window opens and is checked. -/
def Obligations.EngineSteps : Prop := ∀ s : State, ∀ k id, k = s.ev.core → id = s.ev.n →
  (∀ t tm, alook id (s.core k).tasks = some t → alook t.slot (s.core k).teams = some tm →
    (s.mayStart k id t = true → (tm.saving && s.saveFits k t.slot) = false →
      (s.writesTagged k tm t = true → exec .taskStart s = .next (s.taskError k id)) ∧
      (s.writesTagged k tm t = false → exec .taskStart s = .next (s.modCore k fun (c : Core) => c.modTask id fun x => { x with state := .running }))) ∧
    (s.mayStart k id t = false → exec .taskStart s = .next s) ∧
    (∀ r s1, t.job = .copy r → t.moving = true → r.len ≠ 0 → t.row ≤ r.rows → s.copyUnit k id tm t r = .ok s1 → exec .copySectorLand s = .next s1) ∧
    (∀ r, t.job = .copy r → t.moving = true → (r.len = 0 ∨ r.rows < t.row) → t.eq = [] → t.released (s.core k) = true →
      (t.rel = 0 ∨ r.len = 0 ∨ r.rows < t.signed.1 → exec .taskComplete s = .next (s.taskDone k id tm t)) ∧
      (∀ s1, t.rel ≠ 0 → r.len ≠ 0 → t.signed.1 ≤ r.rows → s.signal k tm t (.landed (r.unit t.signed.1 t.signed.2)) = some s1 → exec .taskComplete s =
        .next (s1.modCore k fun (c : Core) => c.modTask id fun x => { x with signed := r.after t.signed.1 t.signed.2 }))) ∧
    (∀ s1 t1 tm1, (∀ r, t.job ≠ .copy r) → t.moving = true → t.computed = false → s.compute k id tm t = .ok s1 → ∀ s2,
      s2 = (s1.modCore k fun (c : Core) => c.modTask id fun x => { x with computed := true }) → alook id (s2.core k).tasks = some t1 → alook t.slot (s2.core k).teams = some tm1 →
      exec .taskComplete s = .next (if t1.eq ≠ [] ∨ t1.released (s2.core k) = false then s2 else s2.taskEnd k id tm1 t1)) ∧
    (∀ q rest, t.eq = q :: rest → q.sent = false → (q.held && s.speculative t.uid) = false → s.ev.k = 0 → ∀ s1, (∀ pa, q.place = .mem pa → s1 = (s.homeWrite q.place q.data).modCore k fun (c : Core) => c.cvUpdate pa q.data) →
      (∀ a, q.place = .sys a → s1 = s.gateWrite k q.uid a q.data) → ((∀ pa, q.place ≠ .mem pa) → (∀ a, q.place ≠ .sys a) → s1 = s.homeWrite q.place q.data) →
      ∀ s2, s2 = (s1.modCore k fun (c : Core) => c.modTask id fun x => { x with eq := rest }) →
      ((∀ r, t.job ≠ .copy r) ∨ t.rel ≠ 0 → exec .engineQueueApply s = .next s2) ∧
      (∀ r s3, t.job = .copy r → t.rel = 0 → s2.signal k tm t (.landed q.data.length) = some s3 → exec .engineQueueApply s = .next s3))) ∧
  (∀ d, d = s.ev.die → (s.die d).wsWindow = false → s.wsPending d = true →
    (s.wsReaders d = false → s.wsChecked d = false → exec .weightWriteWindowOpen s = .next (s.modDie d fun x => { x with
      wsWindow := true
      wsSource := x.ws })) ∧
    (s.wsReaders d = true ∨ s.wsChecked d = true → exec .weightWriteWindowOpen s = .next s)) ∧
  (∀ d dig, d = s.ev.die → (s.die d).wsWindow = true → s.wsPending d = false → dig = Config.sm3Image Config.weightBytes (s.die d).ws →
    (dig = Config.sm3Image Config.weightBytes (s.die d).wsSource → exec .weightStoreDigestCheck s = .next (s.setDie d { s.die d with
      wsWindow := false
      wsSource := []
      wsGen := (s.die d).wsGen + 1
      wsDigest := dig
      wsUsable := true })) ∧
    (dig ≠ Config.sm3Image Config.weightBytes (s.die d).wsSource → exec .weightStoreDigestCheck s = .next ((s.setDie d { s.die d with
      wsWindow := false
      wsSource := []
      wsGen := (s.die d).wsGen + 1
      wsDigest := dig
      wsUsable := false }).record 8 true (some d) none none none 0)))

/-- The checker's and the sequencer's steps (R310, R315 to R321, R393 to R400, R448, R455): witnesses are submitted, each check is taken in its turn and passes or fails the run;
a DUAL pair is compared; a re-run is placed; a run's stages start and end. -/
def Obligations.CheckerAndSequencerSteps : Prop := ∀ s : State,
  (∀ l p s1, s.launch s.ev.n = some l → l.phase = .flushing → s.flushed s.ev.n = true → p = ({ die := 0, ctx := l.ctx, fw := false, uid := some s.ev.n } : Party) →
    s1 = s.closeOuts s.ev.n l →
    (l.second = true → exec .witnessSubmission s = .next (s1.modLaunch s.ev.n fun x => { x with phase := .checking })) ∧
    (l.second = false → allSome (l.witnesses.map (s1.readDescriptors p)) = none → exec .witnessSubmission s = .next (s1.endLaunch s.ev.n 6)) ∧
    (∀ ws, l.second = false → allSome (l.witnesses.map (s1.readDescriptors p)) = some ws →
      (((l.witnesses.zip ws).any fun q => decide (q.1.descs = []) && s1.witnessBad l p q.2) = true → exec .witnessSubmission s = .next (s1.endLaunch s.ev.n 6)) ∧
      (((l.witnesses.zip ws).any fun q => decide (q.1.descs = []) && s1.witnessBad l p q.2) = false → ws ≠ [] → exec .witnessSubmission s = .next (s1.submit s.ev.n l ws)) ∧
      (ws = [] → exec .witnessSubmission s = .next (s1.submit s.ev.n l [{ kind := 5 }])))) ∧
  (∀ n c p, n = s.ev.n → s.nextCheckIs n = some c → p = s.checkParty c →
    (∀ a b x v wrote, c.wit.kind = 0 → c.wit.descs.map opdOf = [a, b, x] → wrote = ((s.launch c.uid).map (·.wrote)).getD [] → v = projVerdict s p n wrote a b x →
      (v.pass = true → exec .projCheck s = .next (({ s with checks := adel n s.checks } : State).settleChecks)) ∧
      (v.pass = false → exec .projCheck s =
        .next (({ s with checks := adel n s.checks } : State).failRun c.uid { kind := 0, rows := v.rows, cores := v.cores }))) ∧
    (∀ x y, c.wit.kind = 1 → c.wit.descs.map opdOf = [x, y] →
      exec .orderCheck s = .next (s.judge n c (if orderGood s p n x y then none else some { kind := 1 }))) ∧
    (∀ a x b, c.wit.kind = 2 → c.wit.descs.map opdOf = [a, x, b] →
      exec .residualCheck s = .next (s.judge n c (if residualGood s p a x b then none else some { kind := 2 }))) ∧
    (∀ x y, c.wit.kind = 3 → c.wit.descs.map opdOf = [x, y] → exec .prefixCheck s = .next ((s.modLaunch c.uid fun l => { l with
      prefixes := l.prefixes ++ [Config.sm3 (((y.row s p).getD []).flatMap fun v => natLe (tyBytes y.type) v)] }).judge n c
        (if prefixGood s p x y then none else some { kind := 3 }))) ∧
    (∀ bad, c.wit.kind = 4 → bad = ((stepElems s c (c.wit.descs.map opdOf)).filter fun q => !q.2.good) →
      (bad = [] → exec .stepCheck s = .next (s.judge n c none)) ∧
      (∀ q rest, bad = q :: rest → exec .stepCheck s = .next (s.judge n c (some { kind := 4, seqDie := q.1 })))) ∧
    (c.wit.kind = 7 → exec .combineWitnessCheck s = .next (s.judge n c (if c.comb.all fun e => decide (e.out = e.value) then none else some { kind := 7, seqDie := c.seqDie })))) ∧
  (∀ l t, s.launch s.ev.n = some l → l.twin.bind s.launch = some t → l.phase = .checking →
    (t.broken = true → exec .dualComparison s = .next (s.failRun s.ev.n { kind := 5 })) ∧
    (t.broken = false → t.phase = .checking →
      (s.runDigests l = s.runDigests t → exec .dualComparison s = .next (s.dropTwin s.ev.n).settleChecks) ∧
      (s.runDigests l ≠ s.runDigests t → exec .dualComparison s = .next (s.failRun s.ev.n { kind := 5 })))) ∧
  (∀ w t l img, s.warp? s.ev.core s.ev.warp = some w → alook w.team (s.core s.ev.core).teams = some t → t.uid.bind s.launch = some l → s.imageOf l = some img →
    (img.prot = true → exec .shadowMismatch s = .next (s.failRun (s.ownerOf l.root) { kind := 6, cores := [s.ev.core] })) ∧ (img.prot = false → exec .shadowMismatch s = .next s)) ∧
  (∀ l d counts charged, s.launch s.ev.n = some l → l.phase = .waiting → l.failed = some (d, counts) →
    charged = (l.charges.map fun c => dieOf c.1) ++ l.chargedDies ++ (if counts then [d] else []) →
    (∀ o, s.placeAway l.ocr l.occ l.ch l.cw d charged = some o → exec .rerunDispatch s = .next ((s.setLaunch s.ev.n { l with
      ocr := o.1
      occ := o.2
      fixed := []
      rot := 0
      failed := none }).dispatch s.ev.n)) ∧
    (s.placeAway l.ocr l.occ l.ch l.cw d charged = none → exec .rerunDispatch s = .next ((s.setLaunch s.ev.n { l with failed := none }).dispatch s.ev.n))) ∧
  (∀ w rest e len m s1, (s.die s.ev.die).run = none → (s.die s.ev.die).sqWait = w :: rest → s.envOf w.core w.warp w.gang = some e → e.gang.wait = .sqstart len →
    m = ({ accs := [], len := len, frees := [], once := true, lanes := 0 } : MemWait) →
    sqStart s e m ((lanesOf w.mask).headD 0) w.record w.dst w.mask w.stamp = .ok s1 → exec .solverRunStart s = .next s1) ∧
  (∀ di r, di = s.ev.die → (s.die di).run = some r →
    (r.children = [] → r.abort = false → r.stage ≠ 0 → (r.samples.any fun x => x.status = 0) = true → ∀ t, s.launchStage di r (r.stage + 1) = some t → exec .solverStageLaunch s = .next t) ∧
    (∀ s1 r1, r.children = [] → r.abort = false → r.stage = 0 → s.clampRound di r = some (s1, r1) →
      ((r1.samples.any fun x => x.status = 0) = false → exec .solverStageLaunch s = .next (s1.endRun di r1 1)) ∧
      ((r1.samples.any fun x => x.status = 0) = true → r1.stage = 0 → r1.covers 1 ≠ [] → ∀ t, s1.launchStage di r1 1 = some t → exec .solverStageLaunch s = .next t) ∧
      ((r1.samples.any fun x => x.status = 0) = true → r1.stage = 0 → r1.covers 1 = [] → ∀ s2 t, s1.combine di r1 2 = some s2 → s2.launchStage di r1 2 = some t → exec .solverStageLaunch s = .next t)) ∧
    (r.children = [] → r.abort = true → ∀ t, s.abandon di r 2 = some t → exec .solverStageLaunch s = .next t) ∧
    (r.children ≠ [] → s.stageOver r = true →
      (r.killed = true → ∀ t, s.abandon di r 3 = some t → exec .solverStageEnd s = .next t) ∧
      (r.killed = false → r.abort = true → ∀ t, s.abandon di r 2 = some t → exec .solverStageEnd s = .next t) ∧
      (r.killed = false → r.abort = false → r.method.stages ≤ r.stage → ∀ t, s.decideRound di r = some t → exec .solverStageEnd s = .next t) ∧
      (∀ r1, r.killed = false → r.abort = false → r.stage < r.method.stages → r1 = { r with children := [] } → ∀ t, (s.setRun di r1).combine di r1 (r.stage + 1) = some t →
        exec .solverStageEnd s = .next t)) ∧
    (r.children ≠ [] → s.stageOver r = false → exec .solverStageEnd s = .next s))

/-- The events that write one register (R414, R423, R434 to R440, R442, R446): the firmware core's write, with what the register then holds. -/
def Obligations.RegisterWriteSteps : Prop := ∀ s : State, ∀ die n v, die = s.ev.die → n = s.ev.n → v = s.ev.v.toNat → die < 4 →
  (n < 24 → (v % 8 < 5 → floorOf n ≤ v % 8 → exec .sevWrite s = .next (s.modDie die fun d => { d with sev := d.sev.set n (v % 8) })) ∧
    (v % 8 < floorOf n → v % 8 < 5 → exec .sevWrite s = .next ((s.modDie die fun d => { d with sev := d.sev.set n (floorOf n) }).violation die)) ∧
    (5 ≤ v % 8 → exec .sevWrite s = .next s)) ∧
  (∀ i ∈ [Instr.stagingPoolConfigWrite, .savePoolConfigWrite, .peerWindowConfigWrite, .scancfgWrite], s.leads die = false → exec i s = .next (s.violation die)) ∧
  (s.leads die = true →
    (s.heldFrames ≠ [] → exec .stagingPoolConfigWrite s = .next (s.violation die)) ∧
    (s.heldFrames = [] → (n = 0 → overlapsFirmware (v % 2 ^ 24) s.stgSize = false → exec .stagingPoolConfigWrite s = .next { s with stgBase := v % 2 ^ 24 }) ∧
      (n = 1 → overlapsFirmware s.stgBase (v % 2 ^ 24) = false → exec .stagingPoolConfigWrite s = .next { s with stgSize := v % 2 ^ 24 }) ∧
      (n = 0 → overlapsFirmware (v % 2 ^ 24) s.stgSize = true → exec .stagingPoolConfigWrite s = .next (s.violation die)) ∧
      (n = 1 → overlapsFirmware s.stgBase (v % 2 ^ 24) = true → exec .stagingPoolConfigWrite s = .next (s.violation die))) ∧
    (s.saved ≠ [] → exec .savePoolConfigWrite s = .next (s.violation die)) ∧
    (s.saved = [] → (n = 0 → overlapsFirmware (v % 2 ^ 24) s.svSize = false → exec .savePoolConfigWrite s = .next { s with svBase := v % 2 ^ 24 }) ∧
      (n = 1 → overlapsFirmware s.svBase (v % 2 ^ 24) = false → exec .savePoolConfigWrite s = .next { s with svSize := v % 2 ^ 24 })) ∧
    (n = 0 → overlapsFirmware (v % 2 ^ 24) s.pwSize = false → exec .peerWindowConfigWrite s = .next { s with pwBase := v % 2 ^ 24 }) ∧
    (n = 1 → overlapsFirmware s.pwBase (v % 2 ^ 24) = false → exec .peerWindowConfigWrite s = .next { s with pwSize := v % 2 ^ 24 }) ∧
    (∃ t, exec .scancfgWrite s = .next t ∧ t.scanThr = max 1 (min 16 (v % 256)) ∧ t.scanPri = v / 256 % 4 ∧
      ∀ k, t.core k = { s.core k with marked := (s.core k).marked || decide (max 1 (min 16 (v % 256)) ≤ (s.core k).charges.length) })) ∧
  exec .fwmodeWrite s = .next (s.modDie die fun d => { d with fwMode := v &&& 0x0FFF0001 }) ∧
  (v % 2 ^ 24 = (s.leaseEpoch + 1) % 2 ^ 24 → exec .lclaimWrite s = .next { s with
    leaseEpoch := v % 2 ^ 24
    leaseHolder := die
    leaseHeld := true }) ∧
  (v % 2 ^ 24 ≠ (s.leaseEpoch + 1) % 2 ^ 24 → exec .lclaimWrite s = .next s) ∧
  (s.leads die = true → v % 2 ^ 24 = s.leaseEpoch → exec .lrenewWrite s = .next { s with leaseCnt := (s.leaseCnt + 1) % 32 }) ∧
  (s.leads die = false ∨ v % 2 ^ 24 ≠ s.leaseEpoch → exec .lrenewWrite s = .next s) ∧
  (∀ s1, s1 = (s.modDie die fun d => { d with plim := min (v % 1024) Config.plimMax }) →
    exec .plimWrite s = .next (if Config.plimMax < v % 1024 then s1.violation die else s1)) ∧
  (∀ h s1, h = min (v % 4096) Config.thotFuse → s1 = (s.modDie die fun d => { d with thot := h }) →
    exec .thotWrite s = .next (if Config.thotFuse < v % 4096 then ({ s1 with
        cores := s1.cores.map fun p => if dieOf p.1 = die then (p.1, p.2.heat h) else p } : State).violation die
      else { s1 with cores := s1.cores.map fun p => if dieOf p.1 = die then (p.1, p.2.heat h) else p })) ∧
  exec .frappWrite s = .next (s.record 31 false (some die) (some 128) none (some v) 0) ∧
  exec .finjWrite s = .next ((s.modDie die fun d => { d with finj := BitVec.ofNat 32 v &&& 0xFFFFFF7F#32 }).record 31 false (some die) (some 128) none (some v) 0)

/-- Power, reset, errors, heat, scans, peers, attestation and management (R13, R16, R17, R116, R209, R412, R413, R432, R433, R437 to R442). -/
def Obligations.PlatformSteps : Prop := ∀ s : State, ∀ die k n, die = s.ev.die → k = s.ev.core → n = s.ev.n →
  (∀ s1, s.powered = false → s1 = ({ s with
      powered := true
      dies := s.dies.map fun (d : Die) => { d with
        ws := []
        wsGen := 0
        wsDigest := Config.sm3Image Config.weightBytes []
        wsUsable := true } } : State) →
    (imageGood s.flash = true → exec .packagePowerOn s = .next ((List.range 4).foldl (fun s d => s.startFirmware d) { s1.writeImage s.flash with recovery := false })) ∧
    (imageGood s.flash = false → exec .packagePowerOn s = .next { s1 with recovery := true })) ∧
  (s.powered = true → s.recovery = false →
    (imageGood s.flash = true → exec .firmwareWatchdogReset s = .next ((s.writeImage s.flash).startFirmware die)) ∧
    (imageGood s.flash = false → exec .firmwareWatchdogReset s = .next (({ s with recovery := true } : State).setCore (die * 256 + 128) .firmware))) ∧
  (∀ bs, s.recovery = true → bs = memRead s.sysMem (s.ev.v.toNat % 2 ^ 47) (min n (Config.fwRegion + 1)) →
    (imageGood bs = true → exec .recoveryMailboxWrite s = .next (({ s with flash := bs } : State).loadImage bs)) ∧ (imageGood bs = false → exec .recoveryMailboxWrite s = .next s)) ∧
  exec .dieReset s = .next (s.resetDie die (s.powered && !s.recovery)) ∧
  (∀ err : ErrorReport, err.cls < 24 → err.die < 4 → (err.cls ≠ 1 → exec (.errorDetected err) s = .next (s.raiseError err)) ∧
    (err.cls = 1 → exec (.errorDetected err) s = .next ((s.modDie err.die fun d => { d with mirFixed := min (d.mirFixed + 1) 0xFFFF }).raiseError err))) ∧
  (∀ c t, c = s.core k → t = n % 4096 → t ≤ Config.tripTemp ∨ Config.tripTemp < c.temp → exec .temperatureSample s = .next (s.modCore k fun (c : Core) => { c with
    temp := t
    thr := if (s.die (dieOf k)).thot ≤ t then true else if t + 32 ≤ (s.die (dieOf k)).thot then false else c.thr })) ∧
  (∀ c t, c = s.core k → t = n % 4096 → Config.tripTemp < t → c.temp ≤ Config.tripTemp → exec .temperatureSample s = .next ((s.modCore k fun (c : Core) => { c with
    temp := t
    thr := if (s.die (dieOf k)).thot ≤ t then true else if t + 32 ≤ (s.die (dieOf k)).thot then false else c.thr }).dieError 20 (dieOf k) (localOf k))) ∧
  (∀ c, c = s.core k → (isFw k = false → c.marked = true → c.scan = none → c.teams = [] →
      exec .doldrumsScanStart s = .next (s.modCore k fun (c : Core) => { c with scan := some (s.cycleOf k) })) ∧
    (c.scan ≠ none → s.wanted (clusterOf k) = true → exec .scanAbort s = .next (s.modCore k fun (c : Core) => { c with scan := none })) ∧
    ∀ t s1, c.scan = some t → s1 = (s.modDie (dieOf k) fun x => { x with cycle := max x.cycle (t + 220000 - c.cycOff) }) →
      (n = 1 → exec .scanComplete s = .next (s1.modCore k fun (c : Core) => { c with
        scan := none
        charges := []
        marked := false })) ∧
      (n ≠ 1 → ∀ i, i = clusterIdx (clusterOf k).1 (clusterOf k).2 →
        exec .scanComplete s = .next (((s1.logError (sevReset.getD 22 2) 22 true (some (dieOf k)) (some (localOf k)) none none 0).modCore k fun (c : Core) => { c with
          scan := none }).modDie (dieOf k) fun x => { x with retiring := if x.retiring.contains i then x.retiring else x.retiring ++ [i] }))) ∧
  (∀ x i j ks sp s1, x = s.die die → i = die / 2 * 4 + n / 8 → j = die % 2 * 8 + n % 8 → ks = (List.range 4).map (clusterCore i j) → n < 32 → x.retiring.contains n = true →
    (∀ c ∈ ks, (s.core c).teams = [] ∧ s.expects c = false) → sp ∈ x.spares → (Config.freeWord s.freeCtr).toNat % x.spares.length < x.spares.length →
    x.spares.getD ((Config.freeWord s.freeCtr).toNat % x.spares.length) 0 = sp → s1 = s.setDie die { x with
      clmap := x.clmap.set n (true, sp)
      spares := x.spares.erase sp
      retiring := x.retiring.filter (· ≠ n) } → exec .clusterMapUpdate s = .next ((ks.foldl (fun s c => s.modCore c fun (c : Core) => { c with
      charges := []
      marked := false
      scan := none }) s1).drawn 1)) ∧
  (∀ acc : PeerAccess, ∀ a, a = s.pwBase * 65536 + acc.offset →
    (∀ bs, acc.data = some bs → (s.peerRefused acc.offset bs.length = false → exec (.kaushInboundAccess acc) s = .next (s.memApply a bs)) ∧
      (s.peerRefused acc.offset bs.length = true → exec (.kaushInboundAccess acc) s = .next (s.logError (sevReset.getD 23 2) 23 true none none none none 0))) ∧
    (acc.data = none → (s.peerRefused acc.offset acc.len = false → exec (.kaushInboundAccess acc) s = .next { s with peerOut := s.peerOut ++ [memRead s.hbm a acc.len] }) ∧
      (s.peerRefused acc.offset acc.len = true → exec (.kaushInboundAccess acc) s = .next (s.logError (sevReset.getD 23 2) 23 true none none none none 0)))) ∧
  (∀ req : AttRequest, req.kind = 1 ∨ req.kind = 2 → exec (.attestationRequest req) s = .next { s with
    attReqs := aput s.nextAtt req s.attReqs
    nextAtt := s.nextAtt + 1 }) ∧
  (∀ req r body, alook n s.attReqs = some req → r = (s.results.filter fun x => x.tag = req.tag).getLast? → (req.kind = 2 → r ≠ none) →
    body = s.reportBody req (if req.kind = 2 then r else none) → exec .attestationReportWrite s = .next { s with
      sysMem := memWrite s.sysMem (req.addr.toNat % 2 ^ 47) (body ++ natLe 64 (Config.sm2Sign (Config.sm3 body)).toNat)
      attReqs := adel n s.attReqs }) ∧
  (∀ w, exec (.pkglim (some w)) s = .next { s with pkgLimit := min w Config.pkgLimMax }) ∧ exec (.pkglim none) s = .next { s with smbus := s.smbus ++ [s.pkgLimit] } ∧
  (∀ d, d < 4 → (∀ w, exec (.dielim d (some w)) s = .next (s.modDie d fun x => { x with plim := min w Config.plimMax })) ∧
    exec (.dielim d none) s = .next { s with smbus := s.smbus ++ [(s.die d).plim] }) ∧
  (∃ t x, exec .temps s = .next t ∧ t.smbus = s.smbus ++ ((List.range 4).map fun d => ((s.cores.filter fun c => dieOf c.1 = d).map fun c => c.2.temp).foldl max 0) ++ [x]) ∧
  (n = 2 ^ 64 - 1 → exec .fread s = .next { s with smbus := s.smbus ++ [s.faultLost] }) ∧
  (n ≠ 2 ^ 64 - 1 → ∀ f, f ∈ s.faultRec → s.faultRec.find? (fun f => f.seq = n) = some f → (∀ a, s.faultRec.head? = some a → a.seq ≤ n) →
    (∀ b, s.faultRec.getLast? = some b → n ≤ b.seq) → exec .fread s = .next { s with smbus := s.smbus ++ [f.bits] }) ∧
  exec .fack s = .next { s with faultRec := s.faultRec.filter fun f => n ≤ f.seq }
end

