-- ==== Sys2Proof/Laws/State.lean ====
section
/-!
SUPPORT. What each update of the state's parts leaves readable: one lemma per update and field, for proofs that never unfold one.
-/
namespace Sys2Proof.Machine

/-! ## Keyed tables -/

@[simp] theorem alook_put_same {α : Type} (k : Nat) (v : α) (l : List (Nat × α)) : alook k (aput k v l) = some v := alook_aput_same k v l

theorem alook_put_other {α : Type} {k j : Nat} (v : α) (l : List (Nat × α)) (h : j ≠ k) : alook j (aput k v l) = alook j l :=
  alook_aput_other k j v l h

/-- The later of two puts at one key stands. -/
@[simp] theorem aput_aput {α : Type} (k : Nat) (u v : α) (l : List (Nat × α)) : aput k v (aput k u l) = aput k v l := by
  induction l with
  | nil => simp [aput]
  | cons p rest ih =>
    obtain ⟨j, x⟩ := p
    by_cases h1 : k < j
    · simp [aput, h1]
    · by_cases h2 : j = k
      · subst h2; simp [aput]
      · simp [aput, h1, h2, ih]

/-! ## Cores -/

@[simp] theorem core_setCore (s : State) (k : Nat) (c : Core) : (s.setCore k c).core k = c := by simp [State.core, State.setCore]

theorem core_setCore_other (s : State) {k j : Nat} (c : Core) (h : j ≠ k) : (s.setCore k c).core j = s.core j := by
  simp [State.core, State.setCore, alook_put_other c s.cores h]

@[simp] theorem setCore_setCore (s : State) (k : Nat) (c d : Core) : (s.setCore k c).setCore k d = s.setCore k d := by
  simp [State.setCore]

@[simp] theorem core_modCore (s : State) (k : Nat) (f : Core → Core) : (s.modCore k f).core k = f (s.core k) := by simp [State.modCore]

theorem core_modCore_other (s : State) {k j : Nat} (f : Core → Core) (h : j ≠ k) : (s.modCore k f).core j = s.core j :=
  core_setCore_other s _ h

@[simp] theorem setCore_agenda (s : State) (k : Nat) (c : Core) : (s.setCore k c).agenda = s.agenda := rfl
@[simp] theorem setCore_focus (s : State) (k : Nat) (c : Core) : (s.setCore k c).focus = s.focus := rfl
@[simp] theorem setCore_ev (s : State) (k : Nat) (c : Core) : (s.setCore k c).ev = s.ev := rfl
@[simp] theorem setCore_freeCtr (s : State) (k : Nat) (c : Core) : (s.setCore k c).freeCtr = s.freeCtr := rfl
@[simp] theorem setCore_hbm (s : State) (k : Nat) (c : Core) : (s.setCore k c).hbm = s.hbm := rfl
@[simp] theorem setCore_coh (s : State) (k : Nat) (c : Core) : (s.setCore k c).coh = s.coh := rfl
@[simp] theorem setCore_fwGate (s : State) (k : Nat) (c : Core) : (s.setCore k c).fwGate = s.fwGate := rfl
@[simp] theorem setCore_pace (s : State) (k : Nat) (c : Core) : (s.setCore k c).pace = s.pace := rfl
@[simp] theorem setCore_sysMem (s : State) (k : Nat) (c : Core) : (s.setCore k c).sysMem = s.sysMem := rfl
@[simp] theorem setCore_dies (s : State) (k : Nat) (c : Core) : (s.setCore k c).dies = s.dies := rfl
@[simp] theorem setCore_die (s : State) (k d : Nat) (c : Core) : (s.setCore k c).die d = s.die d := rfl
@[simp] theorem setCore_launches (s : State) (k : Nat) (c : Core) : (s.setCore k c).launches = s.launches := rfl
@[simp] theorem setCore_launch (s : State) (k u : Nat) (c : Core) : (s.setCore k c).launch u = s.launch u := rfl
@[simp] theorem setCore_images (s : State) (k : Nat) (c : Core) : (s.setCore k c).images = s.images := rfl
@[simp] theorem setCore_imageOf (s : State) (k : Nat) (c : Core) (l : Launch) : (s.setCore k c).imageOf l = s.imageOf l := rfl
@[simp] theorem setCore_versions (s : State) (k : Nat) (c : Core) : (s.setCore k c).versions = s.versions := rfl
@[simp] theorem setCore_nextAgent (s : State) (k : Nat) (c : Core) : (s.setCore k c).nextAgent = s.nextAgent := rfl
@[simp] theorem setCore_tracks (s : State) (k : Nat) (c : Core) : (s.setCore k c).tracks = s.tracks := rfl
@[simp] theorem setCore_faultRec (s : State) (k : Nat) (c : Core) : (s.setCore k c).faultRec = s.faultRec := rfl

@[simp] theorem modCore_hbm (s : State) (k : Nat) (f : Core → Core) : (s.modCore k f).hbm = s.hbm := rfl
@[simp] theorem modCore_coh (s : State) (k : Nat) (f : Core → Core) : (s.modCore k f).coh = s.coh := rfl
@[simp] theorem modCore_fwGate (s : State) (k : Nat) (f : Core → Core) : (s.modCore k f).fwGate = s.fwGate := rfl
@[simp] theorem modCore_pace (s : State) (k : Nat) (f : Core → Core) : (s.modCore k f).pace = s.pace := rfl
@[simp] theorem modCore_sysMem (s : State) (k : Nat) (f : Core → Core) : (s.modCore k f).sysMem = s.sysMem := rfl
@[simp] theorem modCore_dies (s : State) (k : Nat) (f : Core → Core) : (s.modCore k f).dies = s.dies := rfl
@[simp] theorem modCore_die (s : State) (k d : Nat) (f : Core → Core) : (s.modCore k f).die d = s.die d := rfl
@[simp] theorem modCore_launches (s : State) (k : Nat) (f : Core → Core) : (s.modCore k f).launches = s.launches := rfl
@[simp] theorem modCore_launch (s : State) (k u : Nat) (f : Core → Core) : (s.modCore k f).launch u = s.launch u := rfl
@[simp] theorem modCore_images (s : State) (k : Nat) (f : Core → Core) : (s.modCore k f).images = s.images := rfl
@[simp] theorem modCore_focus (s : State) (k : Nat) (f : Core → Core) : (s.modCore k f).focus = s.focus := rfl
@[simp] theorem modCore_nextAgent (s : State) (k : Nat) (f : Core → Core) : (s.modCore k f).nextAgent = s.nextAgent := rfl

/-! ## Dies -/

theorem die_setDie (s : State) (d : Nat) (x : Die) (h : d < s.dies.length) : (s.setDie d x).die d = x := by
  simp [State.die, State.setDie, List.getD, h]

theorem die_setDie_other (s : State) {d j : Nat} (x : Die) (h : j ≠ d) : (s.setDie d x).die j = s.die j := by
  simp [State.die, State.setDie, List.getD, List.getElem?_set_ne (Ne.symm h)]

theorem die_modDie (s : State) (d : Nat) (f : Die → Die) (h : d < s.dies.length) : (s.modDie d f).die d = f (s.die d) := die_setDie s d _ h

theorem die_modDie_other (s : State) {d j : Nat} (f : Die → Die) (h : j ≠ d) : (s.modDie d f).die j = s.die j := die_setDie_other s _ h

@[simp] theorem setDie_hbm (s : State) (d : Nat) (x : Die) : (s.setDie d x).hbm = s.hbm := rfl
@[simp] theorem setDie_coh (s : State) (d : Nat) (x : Die) : (s.setDie d x).coh = s.coh := rfl
@[simp] theorem setDie_fwGate (s : State) (d : Nat) (x : Die) : (s.setDie d x).fwGate = s.fwGate := rfl
@[simp] theorem setDie_pace (s : State) (d : Nat) (x : Die) : (s.setDie d x).pace = s.pace := rfl
@[simp] theorem setDie_sysMem (s : State) (d : Nat) (x : Die) : (s.setDie d x).sysMem = s.sysMem := rfl
@[simp] theorem setDie_cores (s : State) (d : Nat) (x : Die) : (s.setDie d x).cores = s.cores := rfl
@[simp] theorem setDie_core (s : State) (d k : Nat) (x : Die) : (s.setDie d x).core k = s.core k := rfl
@[simp] theorem setDie_launches (s : State) (d : Nat) (x : Die) : (s.setDie d x).launches = s.launches := rfl
@[simp] theorem setDie_launch (s : State) (d u : Nat) (x : Die) : (s.setDie d x).launch u = s.launch u := rfl
@[simp] theorem setDie_images (s : State) (d : Nat) (x : Die) : (s.setDie d x).images = s.images := rfl
@[simp] theorem setDie_focus (s : State) (d : Nat) (x : Die) : (s.setDie d x).focus = s.focus := rfl
@[simp] theorem setDie_ev (s : State) (d : Nat) (x : Die) : (s.setDie d x).ev = s.ev := rfl
@[simp] theorem setDie_faultRec (s : State) (d : Nat) (x : Die) : (s.setDie d x).faultRec = s.faultRec := rfl
@[simp] theorem setDie_nextAgent (s : State) (d : Nat) (x : Die) : (s.setDie d x).nextAgent = s.nextAgent := rfl
@[simp] theorem setDie_dies_length (s : State) (d : Nat) (x : Die) : (s.setDie d x).dies.length = s.dies.length := by simp [State.setDie]

/-! ## Launches -/

@[simp] theorem launch_setLaunch (s : State) (u : Nat) (l : Launch) : (s.setLaunch u l).launch u = some l := by
  simp [State.launch, State.setLaunch]

theorem launch_setLaunch_other (s : State) {u v : Nat} (l : Launch) (h : v ≠ u) : (s.setLaunch u l).launch v = s.launch v := by
  simp [State.launch, State.setLaunch, alook_put_other l s.launches h]

@[simp] theorem setLaunch_hbm (s : State) (u : Nat) (l : Launch) : (s.setLaunch u l).hbm = s.hbm := rfl
@[simp] theorem setLaunch_coh (s : State) (u : Nat) (l : Launch) : (s.setLaunch u l).coh = s.coh := rfl
@[simp] theorem setLaunch_fwGate (s : State) (u : Nat) (l : Launch) : (s.setLaunch u l).fwGate = s.fwGate := rfl
@[simp] theorem setLaunch_pace (s : State) (u : Nat) (l : Launch) : (s.setLaunch u l).pace = s.pace := rfl
@[simp] theorem setLaunch_cores (s : State) (u : Nat) (l : Launch) : (s.setLaunch u l).cores = s.cores := rfl
@[simp] theorem setLaunch_dies (s : State) (u : Nat) (l : Launch) : (s.setLaunch u l).dies = s.dies := rfl
@[simp] theorem setLaunch_core (s : State) (u k : Nat) (l : Launch) : (s.setLaunch u l).core k = s.core k := rfl

theorem modLaunch_some {s : State} {u : Nat} {l : Launch} (f : Launch → Launch) (h : s.launch u = some l) :
    s.modLaunch u f = s.setLaunch u (f l) := by simp [State.modLaunch, h]

theorem modLaunch_none {s : State} {u : Nat} (f : Launch → Launch) (h : s.launch u = none) : s.modLaunch u f = s := by
  simp [State.modLaunch, h]

/-! ## Writes at the home -/

@[simp] theorem memApply_hbm (s : State) (pa : Nat) (bs : List Byte) : (s.memApply pa bs).hbm = memWrite s.hbm pa bs := rfl
@[simp] theorem memApply_sysMem (s : State) (pa : Nat) (bs : List Byte) : (s.memApply pa bs).sysMem = s.sysMem := rfl
@[simp] theorem memApply_cores (s : State) (pa : Nat) (bs : List Byte) : (s.memApply pa bs).cores = s.cores := rfl
@[simp] theorem memApply_core (s : State) (pa k : Nat) (bs : List Byte) : (s.memApply pa bs).core k = s.core k := rfl
@[simp] theorem memApply_die (s : State) (pa d : Nat) (bs : List Byte) : (s.memApply pa bs).die d = s.die d := rfl
@[simp] theorem memApply_launch (s : State) (pa u : Nat) (bs : List Byte) : (s.memApply pa bs).launch u = s.launch u := rfl

/-! ## Warps of a core -/

theorem modWarp_some {c : Core} {j : Nat} {w : Warp} (f : Warp → Warp) (h : alook j c.warps = some w) :
    c.modWarp j f = { c with warps := aput j (f w) c.warps } := by simp [Core.modWarp, h]

theorem state_modWarp_some {s : State} {k j : Nat} {w : Warp} (f : Warp → Warp) (h : s.warp? k j = some w) :
    s.modWarp k j f = s.setCore k { s.core k with warps := aput j (f w) (s.core k).warps } := by
  have h' : alook j (s.core k).warps = some w := h
  simp [State.modWarp, State.modCore, modWarp_some f h']

theorem warp_modWarp {s : State} {k j : Nat} {w : Warp} (f : Warp → Warp) (h : s.warp? k j = some w) :
    (s.modWarp k j f).warp? k j = some (f w) := by
  rw [state_modWarp_some f h]; simp [State.warp?]

theorem warp_modWarp_other {s : State} {k j i : Nat} (f : Warp → Warp) (h : i ≠ j) : (s.modWarp k j f).warp? k i = s.warp? k i := by
  simp only [State.warp?, State.modWarp, core_modCore, Core.modWarp]
  split
  · simp [alook_put_other _ _ h]
  · rfl

@[simp] theorem modWarp_hbm (s : State) (k j : Nat) (f : Warp → Warp) : (s.modWarp k j f).hbm = s.hbm := rfl
@[simp] theorem modWarp_coh (s : State) (k j : Nat) (f : Warp → Warp) : (s.modWarp k j f).coh = s.coh := rfl
@[simp] theorem modWarp_fwGate (s : State) (k j : Nat) (f : Warp → Warp) : (s.modWarp k j f).fwGate = s.fwGate := rfl
@[simp] theorem modWarp_pace (s : State) (k j : Nat) (f : Warp → Warp) : (s.modWarp k j f).pace = s.pace := rfl
@[simp] theorem modWarp_sysMem (s : State) (k j : Nat) (f : Warp → Warp) : (s.modWarp k j f).sysMem = s.sysMem := rfl
@[simp] theorem modWarp_dies (s : State) (k j : Nat) (f : Warp → Warp) : (s.modWarp k j f).dies = s.dies := rfl
@[simp] theorem modWarp_die (s : State) (k j d : Nat) (f : Warp → Warp) : (s.modWarp k j f).die d = s.die d := rfl
@[simp] theorem modWarp_launches (s : State) (k j : Nat) (f : Warp → Warp) : (s.modWarp k j f).launches = s.launches := rfl
@[simp] theorem modWarp_launch (s : State) (k j u : Nat) (f : Warp → Warp) : (s.modWarp k j f).launch u = s.launch u := rfl
@[simp] theorem modWarp_nextAgent (s : State) (k j : Nat) (f : Warp → Warp) : (s.modWarp k j f).nextAgent = s.nextAgent := rfl

@[simp] theorem modWarp_modWarp_const {s : State} {k j : Nat} (v : Warp) (f : Warp → Warp) :
    (s.modWarp k j fun _ => v).modWarp k j f = s.modWarp k j fun _ => f v := by
  cases h : s.warp? k j with
  | none =>
    have h' : alook j (s.core k).warps = none := h
    simp [State.modWarp, State.modCore, Core.modWarp, h']
  | some w =>
    rw [state_modWarp_some _ h, state_modWarp_some (w := v)]
    · rw [state_modWarp_some _ h]; simp
    · simp [State.warp?]

/-! ## Fields of a warp under its updates -/

@[simp] theorem modLane_slices (w : Warp) (i : Nat) (f : Lane → Lane) : (w.modLane i f).slices = w.slices := rfl
@[simp] theorem modLane_gangs (w : Warp) (i : Nat) (f : Lane → Lane) : (w.modLane i f).gangs = w.gangs := rfl
@[simp] theorem modLane_vregs (w : Warp) (i : Nat) (f : Lane → Lane) : (w.modLane i f).vregs = w.vregs := rfl
@[simp] theorem modLane_sregs (w : Warp) (i : Nat) (f : Lane → Lane) : (w.modLane i f).sregs = w.sregs := rfl
@[simp] theorem modLane_handler (w : Warp) (i : Nat) (f : Lane → Lane) : (w.modLane i f).handler = w.handler := rfl
@[simp] theorem modLane_team (w : Warp) (i : Nat) (f : Lane → Lane) : (w.modLane i f).team = w.team := rfl
@[simp] theorem modLane_lanes_length (w : Warp) (i : Nat) (f : Lane → Lane) : (w.modLane i f).lanes.length = w.lanes.length := by simp [Warp.modLane]
@[simp] theorem modSlice_lanes (w : Warp) (i : Nat) (f : Slice → Slice) : (w.modSlice i f).lanes = w.lanes := rfl
@[simp] theorem modSlice_lane (w : Warp) (i j : Nat) (f : Slice → Slice) : (w.modSlice i f).lane j = w.lane j := rfl
@[simp] theorem modSlice_gangs (w : Warp) (i : Nat) (f : Slice → Slice) : (w.modSlice i f).gangs = w.gangs := rfl
@[simp] theorem modSlice_vregs (w : Warp) (i : Nat) (f : Slice → Slice) : (w.modSlice i f).vregs = w.vregs := rfl
@[simp] theorem modSlice_sregs (w : Warp) (i : Nat) (f : Slice → Slice) : (w.modSlice i f).sregs = w.sregs := rfl
@[simp] theorem modSlice_hregs (w : Warp) (i : Nat) (f : Slice → Slice) : (w.modSlice i f).hregs = w.hregs := rfl
@[simp] theorem modSlice_handler (w : Warp) (i : Nat) (f : Slice → Slice) : (w.modSlice i f).handler = w.handler := rfl
@[simp] theorem modSlice_team (w : Warp) (i : Nat) (f : Slice → Slice) : (w.modSlice i f).team = w.team := rfl
@[simp] theorem modSlice_nextGang (w : Warp) (i : Nat) (f : Slice → Slice) : (w.modSlice i f).nextGang = w.nextGang := rfl
@[simp] theorem modSlice_slices_length (w : Warp) (i : Nat) (f : Slice → Slice) : (w.modSlice i f).slices.length = w.slices.length := by
  simp [Warp.modSlice]
@[simp] theorem modSlice_sliceLive (w : Warp) (i j : Nat) (f : Slice → Slice) : (w.modSlice i f).sliceLive j = w.sliceLive j := rfl

theorem slice_modSlice (w : Warp) (i : Nat) (f : Slice → Slice) (h : i < w.slices.length) : (w.modSlice i f).slice i = f (w.slice i) := by
  simp [Warp.slice, Warp.modSlice, List.getD, h]

theorem slice_modSlice_other (w : Warp) {i j : Nat} (f : Slice → Slice) (h : j ≠ i) : (w.modSlice i f).slice j = w.slice j := by
  simp [Warp.slice, Warp.modSlice, List.getD, List.getElem?_set_ne (Ne.symm h)]

theorem lane_modLane (w : Warp) (i : Nat) (f : Lane → Lane) (h : i < w.lanes.length) : (w.modLane i f).lane i = f (w.lane i) := by
  simp [Warp.lane, Warp.modLane, List.getD, h]

theorem lane_modLane_other (w : Warp) {i j : Nat} (f : Lane → Lane) (h : j ≠ i) : (w.modLane i f).lane j = w.lane j := by
  simp [Warp.lane, Warp.modLane, List.getD, List.getElem?_set_ne (Ne.symm h)]

@[simp] theorem modGang_lanes (w : Warp) (g : Nat) (f : Gang → Gang) : (w.modGang g f).lanes = w.lanes := rfl
@[simp] theorem modGang_lane (w : Warp) (g i : Nat) (f : Gang → Gang) : (w.modGang g f).lane i = w.lane i := rfl
@[simp] theorem modGang_slices (w : Warp) (g : Nat) (f : Gang → Gang) : (w.modGang g f).slices = w.slices := rfl
@[simp] theorem modGang_slice (w : Warp) (g i : Nat) (f : Gang → Gang) : (w.modGang g f).slice i = w.slice i := rfl
@[simp] theorem modGang_vregs (w : Warp) (g : Nat) (f : Gang → Gang) : (w.modGang g f).vregs = w.vregs := rfl
@[simp] theorem modGang_sregs (w : Warp) (g : Nat) (f : Gang → Gang) : (w.modGang g f).sregs = w.sregs := rfl
@[simp] theorem modGang_hregs (w : Warp) (g : Nat) (f : Gang → Gang) : (w.modGang g f).hregs = w.hregs := rfl
@[simp] theorem modGang_handler (w : Warp) (g : Nat) (f : Gang → Gang) : (w.modGang g f).handler = w.handler := rfl
@[simp] theorem modGang_team (w : Warp) (g : Nat) (f : Gang → Gang) : (w.modGang g f).team = w.team := rfl
@[simp] theorem modGang_sliceLive (w : Warp) (g i : Nat) (f : Gang → Gang) : (w.modGang g f).sliceLive i = w.sliceLive i := rfl
@[simp] theorem modGang_gangSlices (w : Warp) (g h : Nat) (f : Gang → Gang) : (w.modGang g f).gangSlices h = w.gangSlices h := rfl

end Sys2Proof.Machine
end

