-- ==== Sys2Proof/Laws/Settle.lean ====
section
/-!
SUPPORT. What retiring an instruction does to a steady gang: everything `retire`, `settleGang`, `partGang` and `settleTeam` can do then.
-/
namespace Sys2Proof.Machine

theorem env_of_some {s : State} {k slot gid : Nat} {e : Env} (h : s.envOf k slot gid = some e) :
    e.k = k ∧ e.slot = slot ∧ e.gid = gid ∧ e.core = s.core k ∧ s.warp? k slot = some e.warp ∧ e.warp.gang? gid = some e.gang ∧
    alook e.warp.team (s.core k).teams = some e.team ∧ e.launch = e.team.uid.bind s.launch ∧ e.img = e.launch.bind s.imageOf := by
  unfold State.envOf at h
  simp only at h
  split at h
  · cases h
  · rename_i w hw
    split at h
    · rename_i g t hg ht
      cases h
      exact ⟨rfl, rfl, rfl, rfl, hw, hg, ht, rfl, rfl⟩
    · cases h

theorem alook_mem {α : Type} {k : Nat} {v : α} {l : List (Nat × α)} (h : alook k l = some v) : (k, v) ∈ l := by
  induction l with
  | nil => simp [alook] at h
  | cons p rest ih =>
    obtain ⟨j, u⟩ := p
    by_cases hj : j = k
    · simp [alook, hj] at h; simp [hj, h]
    · simp [alook, hj] at h; exact List.mem_cons_of_mem _ (ih h)

/-- A warp with a live lane. -/
def Warp.anyLive (w : Warp) : Bool := w.lanes.any (·.live)

theorem anyLive_of_gangSlices {w : Warp} {g : Nat} (h : w.gangSlices g ≠ []) : w.anyLive = true := by
  obtain ⟨i, hi⟩ := List.exists_mem_of_ne_nil _ h
  simp only [Warp.gangSlices, List.mem_filter, Bool.and_eq_true] at hi
  obtain ⟨_, _, hl⟩ := hi
  simp only [Warp.sliceLive, List.any_eq_true] at hl
  obtain ⟨j, _, hj⟩ := hl
  simp only [Warp.anyLive, List.any_eq_true]
  unfold Warp.lane at hj
  by_cases hlen : j < w.lanes.length
  · refine ⟨w.lanes[j], List.getElem_mem hlen, ?_⟩
    simpa [List.getD, hlen] using hj
  · simp [List.getD, List.getElem?_eq_none (Nat.le_of_not_lt hlen)] at hj

/-- While a warp of the team has a live thread, or on a firmware core, a team is not settled. -/
theorem settleTeam_live {s : State} {k slot t : Nat} {w : Warp} (hw : s.warp? k slot = some w) (ht : w.team = t) (hl : w.anyLive = true) :
    s.settleTeam k t = s := by
  unfold State.settleTeam
  simp only
  split
  · rfl
  · rename_i tm _
    have hm : (slot, w) ∈ (s.core k).warps := alook_mem hw
    have : (((s.core k).warps.filter fun p => p.2.team = t).map (·.2)).any (fun w => w.lanes.any (·.live)) = true := by
      rw [List.any_eq_true]
      exact ⟨w, List.mem_map.mpr ⟨(slot, w), List.mem_filter.mpr ⟨hm, by simp [ht]⟩, rfl⟩, hl⟩
    rw [if_pos (Or.inr this)]

/-- Slices that stand at the gang's address do not part. -/
theorem partSlices_same (g : Nat) (pc0 : DWord) (l : List Nat) (w : Warp) (seen : List (DWord × Nat)) (na : Nat)
    (h : ∀ i ∈ l, (w.slice i).pc = pc0) : partSlices g pc0 l w seen na = (w, na) := by
  induction l with
  | nil => rfl
  | cons i rest ih =>
    simp only [partSlices]
    rw [if_pos (h i (List.mem_cons_self ..))]
    exact ih fun j hj => h j (List.mem_cons_of_mem _ hj)

/-- Nothing unwinds where no slice of the gang is marked. -/
theorem unwindEnded_none (w : Warp) (g : Nat) (h : Bool) (next : DWord) (hs : ∀ i, i < 8 → (w.slice i).gang = g → (w.slice i).ended = false) :
    w.unwindEnded g h next = w := by
  unfold Warp.unwindEnded
  have : ∀ l : List Nat, (∀ i ∈ l, i < 8) → l.foldl (fun w i =>
      if (w.slice i).ended && (w.slice i).gang = g then (w.unwind i h next 40).modSlice i fun x => { x with ended := false } else w) w = w := by
    intro l
    induction l with
    | nil => intro _; rfl
    | cons i rest ih =>
      intro hl
      have hi := hs i (hl i (List.mem_cons_self ..))
      have : ((w.slice i).ended && decide ((w.slice i).gang = g)) = false := by
        by_cases hg : (w.slice i).gang = g
        · simp [hi hg]
        · simp [hg]
      simp only [List.foldl_cons, this, Bool.false_eq_true, if_false]
      exact ih fun j hj => hl j (List.mem_cons_of_mem _ hj)
  exact this _ fun i hi => List.mem_range.mp hi

/-- A conditional update of a slice's PC is an update with a condition. -/
theorem setPc_if (w : Warp) (i g : Nat) (next : DWord) (h : i < w.slices.length) :
    (if (w.slice i).gang = g then w.modSlice i fun x => { x with pc := next } else w)
      = w.modSlice i fun x => if x.gang = g then { x with pc := next } else x := by
  have he : w.slice i = w.slices[i] := by simp [Warp.slice, List.getD, h]
  by_cases hp : (w.slice i).gang = g
  · simp [Warp.modSlice, hp]
  · rw [if_neg hp]
    simp only [Warp.modSlice, if_neg hp]
    rw [he, List.set_getElem_self h]

/-- Setting the PC of a gang's slices one by one is setting them all. -/
theorem advance_all (w : Warp) (g : Nat) (next : DWord) (h : w.slices.length = 8) :
    (List.range 8).foldl (fun w i => if (w.slice i).gang = g then w.modSlice i fun x => { x with pc := next } else w) w
      = { w with slices := w.slices.map fun (x : Slice) => if x.gang = g then { x with pc := next } else x } := by
  simp only [show List.range 8 = [0, 1, 2, 3, 4, 5, 6, 7] from rfl, List.foldl_cons, List.foldl_nil]
  simp only [setPc_if, modSlice_slices_length, h, Nat.reduceLT]
  obtain ⟨team, wid, lanes, slices⟩ := w
  simp only at h
  match slices, h with
  | [a, b, c, d, e, f, p, q], _ => rfl

/-- A slice of a warp whose gang's slices have been set to one address. -/
theorem slice_advanced (w : Warp) (g i : Nat) (next : DWord) (h : i < w.slices.length) :
    ({ w with slices := w.slices.map fun (x : Slice) => if x.gang = g then { x with pc := next } else x } : Warp).slice i
      = if (w.slice i).gang = g then { w.slice i with pc := next } else w.slice i := by
  simp [Warp.slice, List.getD, h]

theorem mem_gangSlices {w : Warp} {g i : Nat} : i ∈ w.gangSlices g ↔ i < 8 ∧ (w.slice i).gang = g ∧ w.sliceLive i = true := by
  simp [Warp.gangSlices, List.mem_filter, List.mem_range]

/-- A core with one warp put and an issue order. -/
def Core.put (c : Core) (slot : Nat) (w : Warp) (o : List (Nat × Nat)) : Core := { c with warps := aput slot w c.warps, order := o }

@[simp] theorem Core.put_warps (c : Core) (slot : Nat) (w : Warp) (o : List (Nat × Nat)) : (c.put slot w o).warps = aput slot w c.warps := rfl
@[simp] theorem Core.put_teams (c : Core) (slot : Nat) (w : Warp) (o : List (Nat × Nat)) : (c.put slot w o).teams = c.teams := rfl
@[simp] theorem Core.put_put (c : Core) (slot : Nat) (v w : Warp) (o q : List (Nat × Nat)) : (c.put slot v o).put slot w q = c.put slot w q := by
  simp [Core.put]

theorem state_modWarp_put {s : State} {k j : Nat} {w : Warp} (f : Warp → Warp) (h : s.warp? k j = some w) :
    s.modWarp k j f = s.setCore k ((s.core k).put j (f w) (s.core k).order) := state_modWarp_some f h

@[simp] theorem warp_setCore_put (s : State) (k j : Nat) (c : Core) (w : Warp) (o : List (Nat × Nat)) :
    (s.setCore k (c.put j w o)).warp? k j = some w := by simp [State.warp?]

/-- A warp without the gangs that have no live slice. -/
def Warp.tidied (w : Warp) : Warp := { w with gangs := w.gangs.filter fun g => (w.gangSlices g.id) ≠ [] }

/-- Dropping empty gangs keeps the warp but for its gangs, and every other warp. -/
theorem tidyWarp_some {c : Core} {slot : Nat} {w : Warp} (h : alook slot c.warps = some w) : ∃ o, c.tidyWarp slot = c.put slot w.tidied o := by
  unfold Core.tidyWarp
  simp only [h]
  exact ⟨_, rfl⟩

/-- A gang whose slices stand together does not part. -/
theorem partGang_together {s : State} {k slot g : Nat} {w : Warp} {pc0 : DWord} (hw : s.warp? k slot = some w) (hne : w.gangSlices g ≠ [])
    (ht : ∀ i ∈ w.gangSlices g, (w.slice i).pc = pc0) :
    ∃ o, s.partGang k slot g = s.setCore k ((s.core k).put slot w.tidied o) := by
  have hw' : alook slot (s.core k).warps = some w := hw
  unfold State.partGang
  simp only [hw']
  split
  · exact absurd ‹_› hne
  · rename_i i rest hg
    have hi := ht i (by rw [hg]; exact List.mem_cons_self ..)
    have hrest : ∀ j ∈ rest, (w.slice j).pc = (w.slice i).pc := fun j hj => by
      rw [hi]; exact ht j (by rw [hg]; exact List.mem_cons_of_mem _ hj)
    rw [partSlices_same g _ rest w [] s.nextAgent hrest]
    simp only [if_true]
    obtain ⟨o, ho⟩ := tidyWarp_some (c := (s.core k).put slot w (s.core k).order) (slot := slot) (w := w) (by simp)
    refine ⟨o, ?_⟩
    rw [Core.put_put] at ho
    rw [← ho]
    rfl

/-- The warp with a gang's slices at an address. -/
def Warp.at (w : Warp) (g : Nat) (next : DWord) : Warp :=
  { w with slices := w.slices.map fun (x : Slice) => if x.gang = g then { x with pc := next } else x }

theorem past_eq (w : Warp) (g : Nat) (next : DWord) :
    w.past g next = ((w.at g next).modGang g fun x => { x with wait := .ready, skip := 0, deliv := [], mark := none }).tidied := rfl

theorem slice_at (w : Warp) (g i : Nat) (next : DWord) (h : i < w.slices.length) :
    (w.at g next).slice i = if (w.slice i).gang = g then { w.slice i with pc := next } else w.slice i := slice_advanced w g i next h

theorem gangSlices_at (w : Warp) (g x : Nat) (next : DWord) (h : w.slices.length = 8) : (w.at g next).gangSlices x = w.gangSlices x := by
  unfold Warp.gangSlices
  apply List.filter_congr
  intro i hi
  rw [slice_at w g i next (by have := List.mem_range.mp hi; omega)]
  have : (w.at g next).sliceLive i = w.sliceLive i := rfl
  rw [this]; split <;> rfl

theorem slice_mem {w : Warp} {i : Nat} (h : i < w.slices.length) : w.slice i ∈ w.slices := by
  simp only [Warp.slice, List.getD, List.getElem?_eq_getElem h, Option.getD_some]
  exact List.getElem_mem _

/-- Retiring an instruction of a gang with a live thread and no slice to unwind moves the gang past it and does nothing else. -/
theorem retire_steady {s : State} {k slot g len : Nat} {pc : DWord} {w : Warp} (hw : s.warp? k slot = some w) (hlen : w.slices.length = 8)
    (hlive : w.gangSlices g ≠ []) (hset : ∀ x ∈ w.slices, x.gang = g → x.ended = false) :
    ∃ o, s.retire k slot g pc len = s.setCore k ((s.core k).put slot (w.past g (pc + BitVec.ofNat 64 len)) o) := by
  unfold State.retire
  simp only
  rw [state_modWarp_put _ hw, advance_all w g _ hlen]
  generalize pc + BitVec.ofNat 64 len = next
  change ∃ o, (s.setCore k ((s.core k).put slot (w.at g next) (s.core k).order)).settleGang k slot g next = _
  have hended : ∀ i, i < 8 → ((w.at g next).slice i).gang = g → ((w.at g next).slice i).ended = false := by
    intro i hi hg
    have hil : i < w.slices.length := by omega
    rw [slice_at w g i next hil] at hg ⊢
    by_cases h : (w.slice i).gang = g
    · rw [if_pos h]; exact hset (w.slice i) (slice_mem hil) h
    · rw [if_neg h] at hg; exact absurd hg h
  unfold State.settleGang
  simp only [warp_setCore_put]
  rw [unwindEnded_none _ g _ next hended]
  generalize hw2 : (w.at g next).modGang g (fun x => { x with wait := .ready, skip := 0, deliv := [], mark := none }) = w2
  rw [state_modWarp_put _ (warp_setCore_put ..)]
  simp only [core_setCore, Core.put_put, setCore_setCore]
  have hgs : ∀ x, w2.gangSlices x = w.gangSlices x := fun x => by rw [← hw2]; exact gangSlices_at w g x next hlen
  obtain ⟨o, ho⟩ := partGang_together (s := s.setCore k ((s.core k).put slot w2 ((s.core k).put slot (w.at g next) (s.core k).order).order))
    (k := k) (slot := slot) (g := g) (w := w2) (pc0 := next) (warp_setCore_put ..) (by rw [hgs]; exact hlive) (by
      intro i hi
      have hi' := mem_gangSlices.mp hi
      have h1 : w2.slice i = (w.at g next).slice i := by rw [← hw2]; rfl
      have h2 := hi'.2.1
      have hil : i < w.slices.length := by omega
      rw [h1, slice_at w g i next hil] at h2 ⊢
      by_cases h : (w.slice i).gang = g
      · rw [if_pos h]
      · rw [if_neg h] at h2; exact absurd h2 h)
  rw [ho]
  simp only [core_setCore, Core.put_put, setCore_setCore]
  have hpast : w2.tidied = w.past g next := by rw [past_eq, hw2]
  rw [hpast]
  refine ⟨o, ?_⟩
  have hteam : w2.team = (w.past g next).team := by rw [← hw2]; rfl
  refine settleTeam_live (slot := slot) (w := w.past g next) (warp_setCore_put ..) hteam.symm ?_
  have : (w.past g next).anyLive = w.anyLive := rfl
  rw [this]; exact anyLive_of_gangSlices hlive

/-- The gang of an environment retires: the state is as before but for that warp and the core's issue order. -/
theorem done_steady {s : State} {e : Env} {len : Nat} {w : Warp} (hw : s.warp? e.k e.slot = some w) (hlen : w.slices.length = 8)
    (hlive : w.gangSlices e.gid ≠ []) (hset : ∀ x ∈ w.slices, x.gang = e.gid → x.ended = false) :
    ∃ o, e.done len s = s.setCore e.k ((s.core e.k).put e.slot (w.past e.gid (e.pc + BitVec.ofNat 64 len)) o) :=
  retire_steady hw hlen hlive hset

end Sys2Proof.Machine
end

