-- ==== Sys2Proof/Laws/Frame.lean ====
section
/-!
SUPPORT. The frame of each operation that writes a warp's registers: what it leaves as it was.
-/
namespace Sys2Proof.Machine

theorem WarpFrame.refl (w : Warp) (vs us ps : List Nat) (d : Bool) : WarpFrame w w vs us ps d :=
  ⟨rfl, fun _ => rfl, fun _ _ _ => rfl, fun _ => by simp, fun _ _ => rfl, fun _ _ => rfl, fun _ _ _ => rfl⟩

theorem WarpFrame.trans {u v w : Warp} {vs us ps : List Nat} {d : Bool} (h1 : WarpFrame u v vs us ps d) (h2 : WarpFrame v w vs us ps d) :
    WarpFrame u w vs us ps d where
  rest := by rw [h2.rest, h1.rest]
  lanes i := by rw [h2.lanes i, h1.lanes i]
  preds i p hp := (h2.preds i p hp).trans (h1.preds i p hp)
  flags i := by
    have a := h1.flags i
    have b := h2.flags i
    calc (w.lane i).fpflags &&& (u.lane i).fpflags
        = (w.lane i).fpflags &&& ((v.lane i).fpflags &&& (u.lane i).fpflags) := by rw [a]
      _ = ((w.lane i).fpflags &&& (v.lane i).fpflags) &&& (u.lane i).fpflags := by rw [BitVec.and_assoc]
      _ = (u.lane i).fpflags := by rw [b, a]
  draws hd i := (h2.draws hd i).trans (h1.draws hd i)
  vecs n hn := (h2.vecs n hn).trans (h1.vecs n hn)
  unis h n hn := (h2.unis h n hn).trans (h1.unis h n hn)

theorem WarpFrame.mono {u v : Warp} {vs us ps vs' us' ps' : List Nat} {d : Bool} (h : WarpFrame u v vs us ps d)
    (hv : ∀ n ∈ vs, n ∈ vs') (hu : ∀ n ∈ us, n ∈ us') (hp : ∀ n ∈ ps, n ∈ ps') : WarpFrame u v vs' us' ps' d where
  rest := h.rest
  lanes := h.lanes
  preds i p hn := h.preds i p fun hm => hn (hp _ hm)
  flags := h.flags
  draws := h.draws
  vecs n hn := h.vecs n fun hm => hn (hv _ hm)
  unis b n hn := h.unis b n fun hm => hn (hu _ hm)

/-- A fold of operations that each keep the frame keeps it. -/
theorem WarpFrame.fold {α : Type} {vs us ps : List Nat} {d : Bool} (f : Warp → α → Warp) (l : List α)
    (h : ∀ w a, a ∈ l → WarpFrame w (f w a) vs us ps d) (w : Warp) : WarpFrame w (l.foldl f w) vs us ps d := by
  induction l generalizing w with
  | nil => exact .refl ..
  | cons a rest ih =>
    exact (h w a (List.mem_cons_self ..)).trans (ih (fun w b hb => h w b (List.mem_cons_of_mem _ hb)) (f w a))

theorem alook_adel_other {α : Type} {k j : Nat} (l : List (Nat × α)) (h : j ≠ k) : alook j (adel k l) = alook j l := by
  induction l with
  | nil => rfl
  | cons p rest ih =>
    obtain ⟨i, x⟩ := p
    by_cases hi : i = k
    · subst hi; simp [adel, alook, Ne.symm h]
    · by_cases hj : i = j
      · subst hj; simp [adel, alook, hi]
      · simp [adel, alook, hi, hj, ih]

theorem alook_fold_adel {α : Type} {j : Nat} (names : List Nat) (l : List (Nat × α)) (h : j ∉ names) :
    alook j (names.foldl (fun v n => adel n v) l) = alook j l := by
  induction names generalizing l with
  | nil => rfl
  | cons n rest ih =>
    simp only [List.mem_cons, not_or] at h
    simp only [List.foldl_cons]
    rw [ih _ h.2, alook_adel_other _ h.1]

/-- Last reads free their names alone (R200). -/
theorem free_frame (w : Warp) (names : List Nat) (us ps : List Nat) (d : Bool) : WarpFrame w (w.free names) names us ps d where
  rest := rfl
  lanes _ := rfl
  preds _ _ _ := rfl
  flags _ := by show _ &&& _ = _; simp [Warp.free, Warp.lane]
  draws _ _ := rfl
  vecs n hn := alook_fold_adel names w.vregs hn
  unis _ _ _ := rfl

/-- Changing one lane's predicates, flags and draws. -/
theorem modLane_frame (w : Warp) (i : Nat) (f : Lane → Lane) (vs us ps : List Nat) (d : Bool)
    (h1 : f (w.lane i) = { w.lane i with preds := (f (w.lane i)).preds, fpflags := (f (w.lane i)).fpflags, draw := (f (w.lane i)).draw })
    (h2 : ∀ p, p ∉ ps → (f (w.lane i)).pred p = (w.lane i).pred p) (h3 : (f (w.lane i)).fpflags &&& (w.lane i).fpflags = (w.lane i).fpflags)
    (h4 : d = false → (f (w.lane i)).draw = (w.lane i).draw) : WarpFrame w (w.modLane i f) vs us ps d := by
  have key : ∀ j, (w.modLane i f).lane j = if j = i ∧ i < w.lanes.length then f (w.lane i) else w.lane j := by
    intro j
    by_cases hj : j = i
    · subst hj
      by_cases hl : j < w.lanes.length
      · rw [lane_modLane w j f hl, if_pos ⟨rfl, hl⟩]
      · rw [if_neg (fun h => hl h.2)]
        have hl' : w.lanes.length ≤ j := Nat.le_of_not_lt hl
        simp only [Warp.lane, Warp.modLane, List.getD]
        rw [List.getElem?_eq_none (by simpa using hl'), List.getElem?_eq_none hl']
    · rw [lane_modLane_other w f hj, if_neg (fun h => hj h.1)]
  refine ⟨rfl, fun j => ?_, fun j p hp => ?_, fun j => ?_, fun hd j => ?_, fun _ _ => rfl, fun _ _ _ => rfl⟩
  all_goals rw [key j]; split
  · rename_i h; rw [h.1]; exact h1
  · rfl
  · rename_i h; rw [h.1]; exact h2 p hp
  · rfl
  · rename_i h; rw [h.1]; exact h3
  · simp
  · rename_i h; rw [h.1]; exact h4 hd
  · rfl

/-- Flags are only raised, and draws counted only where the instruction draws (R87, R282). -/
theorem note_frame (w : Warp) (i fl n : Nat) (vs us ps : List Nat) (d : Bool) (h : d = false → n = 0) :
    WarpFrame w (w.modLane i fun l => l.note fl n) vs us ps d := by
  refine modLane_frame w i _ vs us ps d rfl (fun _ _ => rfl) ?_ fun hd => ?_
  · simp only [Lane.note]
    ext j
    simp only [BitVec.getElem_and, BitVec.getElem_or]
    cases (w.lane i).fpflags[j] <;> simp
  · simp [Lane.note, h hd]

theorem pred_set (l : Lane) (p q : Nat) (v : PVal) (h : q ≠ p) : ({ l with preds := l.preds.set p v } : Lane).pred q = l.pred q := by
  unfold Lane.pred
  simp [List.getD, List.getElem?_set_ne (Ne.symm h)]

/-- A predicate write changes that predicate alone. -/
theorem writePred_frame (w : Warp) (i p : Nat) (v : PVal) (vs us ps : List Nat) (d : Bool) (h : p ∈ ps) :
    WarpFrame w (w.writePred i p v) vs us ps d := by
  refine modLane_frame w i _ vs us ps d rfl (fun q hq => ?_) (by simp) fun _ => rfl
  exact pred_set _ p q v fun he => hq (he ▸ h)

/-- A write of a vector name changes that name alone. -/
theorem writeVec_frame (w : Warp) (n : Nat) (vals : List (Nat × RVal)) (vs us ps : List Nat) (d : Bool) (h : n ∈ vs) :
    WarpFrame w (w.writeVec n vals) vs us ps d := by
  unfold Warp.writeVec
  split
  · exact .refl ..
  · refine ⟨rfl, fun _ => rfl, fun _ _ _ => rfl, fun i => by show _ &&& _ = _; simp [Warp.lane], fun _ _ => rfl, fun m hm => ?_, fun _ _ _ => rfl⟩
    exact alook_aput_other _ _ _ _ fun he => hm (he ▸ h)

theorem getD_set_other {α : Type} (l : List α) {i j : Nat} (v d : α) (h : j ≠ i) : (l.set i v).getD j d = l.getD j d := by
  simp [List.getD, List.getElem?_set_ne (Ne.symm h)]

/-- A write of a uniform name changes that name alone. -/
theorem writeUni_frame (w : Warp) (h : Bool) (n : Nat) (v : RVal) (vs us ps : List Nat) (d : Bool) (hn : n ∈ us) :
    WarpFrame w (w.writeUni h n v) vs us ps d := by
  unfold Warp.writeUni
  split
  · rename_i hh
    have hle : 56 ≤ n := by simp only [Bool.and_eq_true, decide_eq_true_eq] at hh; exact hh.2
    refine ⟨rfl, fun _ => rfl, fun _ _ _ => rfl, fun i => by show _ &&& _ = _; simp [Warp.lane], fun _ _ => rfl, fun _ _ => rfl, fun b m hm => ?_⟩
    have hne : m ≠ n := fun he => hm (he ▸ hn)
    unfold Warp.uni
    split
    · rename_i hb
      have hle' : 56 ≤ m := by simp only [Bool.and_eq_true, decide_eq_true_eq] at hb; exact hb.2
      exact getD_set_other _ _ _ (by omega)
    · rfl
  · refine ⟨rfl, fun _ => rfl, fun _ _ _ => rfl, fun i => by show _ &&& _ = _; simp [Warp.lane], fun _ _ => rfl, fun _ _ => rfl, fun b m hm => ?_⟩
    have hne : m ≠ n := fun he => hm (he ▸ hn)
    unfold Warp.uni
    split
    · rfl
    · exact getD_set_other _ _ _ hne

theorem foldl_max_le (l : List Nat) (a b : Nat) (h : ∀ x ∈ l, x ≤ b) (ha : a ≤ b) : l.foldl max a ≤ b := by
  induction l generalizing a with
  | nil => exact ha
  | cons x rest ih =>
    exact ih (max a x) (fun y hy => h y (List.mem_cons_of_mem _ hy)) (by have := h x (List.mem_cons_self ..); omega)

theorem svNames_length (v : SV) (width : Nat) : (svNames v width).length ≤ if width = 64 then 2 else 1 := by
  unfold svNames
  split <;> simp

theorem flatMap_names_length (vs : List SV) (width : Nat) : (vs.flatMap fun v => svNames v width).length ≤ vs.length * (if width = 64 then 2 else 1) := by
  induction vs with
  | nil => simp
  | cons v rest ih =>
    have := svNames_length v width
    simp only [List.flatMap_cons, List.length_append, List.length_cons, Nat.add_mul, Nat.one_mul]
    omega

/-- Elements go to consecutive vector names from the first. -/
theorem writeVecs_frame (w : Warp) (name width n : Nat) (vals : List (Nat × List SV)) (vs us ps : List Nat) (d : Bool)
    (hlen : ∀ p ∈ vals, p.2.length ≤ n) (h : ∀ i, i < n * (if width = 64 then 2 else 1) → name + i ∈ vs) :
    WarpFrame w (w.writeVecs name width vals) vs us ps d := by
  unfold Warp.writeVecs
  apply WarpFrame.fold
  intro v i hi
  apply writeVec_frame
  apply h
  have hb := List.mem_range.mp hi
  refine Nat.lt_of_lt_of_le hb ?_
  apply foldl_max_le _ _ _ _ (Nat.zero_le _)
  intro x hx
  simp only [List.map_map, List.mem_map, Function.comp] at hx
  obtain ⟨p, hp, rfl⟩ := hx
  exact Nat.le_trans (flatMap_names_length p.2 width) (Nat.mul_le_mul_right _ (hlen p hp))

/-- Elements go to consecutive uniform names from the first. -/
theorem writeUnis_frame (w : Warp) (b : Bool) (name width n : Nat) (vals : List SV) (vs us ps : List Nat) (d : Bool)
    (hlen : vals.length ≤ n) (h : ∀ i, i < n * (if width = 64 then 2 else 1) → name + i ∈ us) :
    WarpFrame w (w.writeUnis b name width vals) vs us ps d := by
  unfold Warp.writeUnis
  apply WarpFrame.fold
  intro v p hp
  apply writeUni_frame
  apply h
  have hlt : p.2 < (vals.flatMap fun v => svNames v width).length := by
    have := List.mem_zipIdx hp
    omega
  exact Nat.lt_of_lt_of_le hlt (Nat.le_trans (flatMap_names_length vals width) (Nat.mul_le_mul_right _ hlen))

end Sys2Proof.Machine
end

