-- ==== Sys2Proof/Laws/Issue.lean ====
section
/-!
SUPPORT. What issuing costs and how far it reaches: `charge`, the environment after it, guards and events, and `instr`, `instr2`, `control`.
-/
namespace Sys2Proof.Machine

/-- `charge` writes the die's cycle and the core's ways. -/
theorem charge_eq (s : State) (k slot a f : Nat) : ∃ n ws, s.charge k slot a f =
    (s.setDie (dieOf k) { s.die (dieOf k) with cycle := n }).setCore k { s.core k with wayFree := ws } := by
  unfold State.charge; split <;> exact ⟨_, _, rfl⟩

@[simp] theorem charge_hbm (s : State) (k slot a f : Nat) : (s.charge k slot a f).hbm = s.hbm := by
  obtain ⟨n, ws, h⟩ := charge_eq s k slot a f; rw [h]; rfl
@[simp] theorem charge_launches (s : State) (k slot a f : Nat) : (s.charge k slot a f).launches = s.launches := by
  obtain ⟨n, ws, h⟩ := charge_eq s k slot a f; rw [h]; rfl
@[simp] theorem charge_images (s : State) (k slot a f : Nat) : (s.charge k slot a f).images = s.images := by
  obtain ⟨n, ws, h⟩ := charge_eq s k slot a f; rw [h]; rfl
@[simp] theorem occupy_warp (s : State) (k slot a f j : Nat) : (s.occupy k slot a f).warp? k j = s.warp? k j := by
  simp [State.occupy, State.setWay, State.warp?]
@[simp] theorem charge_warp (s : State) (k slot a f j : Nat) : (s.charge k slot a f).warp? k j = s.warp? k j := by
  obtain ⟨n, ws, h⟩ := charge_eq s k slot a f
  rw [h]; simp [State.warp?]

@[simp] theorem recore_k (e : Env) (c : Core) : (e.recore c).k = e.k := rfl
@[simp] theorem recore_slot (e : Env) (c : Core) : (e.recore c).slot = e.slot := rfl
@[simp] theorem recore_gid (e : Env) (c : Core) : (e.recore c).gid = e.gid := rfl
@[simp] theorem recore_warp (e : Env) (c : Core) : (e.recore c).warp = e.warp := rfl
@[simp] theorem recore_gang (e : Env) (c : Core) : (e.recore c).gang = e.gang := rfl
@[simp] theorem recore_team (e : Env) (c : Core) : (e.recore c).team = e.team := rfl
@[simp] theorem recore_launch (e : Env) (c : Core) : (e.recore c).launch = e.launch := rfl
@[simp] theorem recore_img (e : Env) (c : Core) : (e.recore c).img = e.img := rfl
@[simp] theorem recore_pc (e : Env) (c : Core) : (e.recore c).pc = e.pc := rfl
@[simp] theorem recore_lanes (e : Env) (c : Core) : (e.recore c).lanes = e.lanes := rfl
@[simp] theorem recore_active (e : Env) (c : Core) (g : Guard) : (e.recore c).active g = e.active g := rfl
@[simp] theorem recore_handling (e : Env) (c : Core) : (e.recore c).handling = e.handling := rfl
@[simp] theorem recore_det (e : Env) (c : Core) : (e.recore c).det = e.det := rfl
@[simp] theorem recore_w (e : Env) (c : Core) : (e.recore c).w = e.w := rfl
@[simp] theorem recore_base (e : Env) (c : Core) (p : PosBits) : (e.recore c).base p = e.base p := rfl
@[simp] theorem recore_frees (e : Env) (c : Core) (x : Op) (r : Row) : (e.recore c).frees x r = e.frees x r := rfl
@[simp] theorem recore_regTrap (e : Env) (c : Core) (x : Op) (r : Row) (m : Mask) : (e.recore c).regTrap x r m = e.regTrap x r m := rfl
@[simp] theorem recore_mode (e : Env) (c : Core) (n : Nat) : (e.recore c).mode n = e.mode n := rfl
@[simp] theorem recore_cost (e : Env) (c : Core) (n : Nat) : (e.recore c).cost n = e.cost n := rfl

/-- The environment a focus gang has in a state that has the same warps, teams, launches and images. -/
theorem envOf_congr {s t : State} {k slot gid : Nat} {e : Env} (h : s.envOf k slot gid = some e) (hw : t.warp? k slot = s.warp? k slot)
    (ht : (t.core k).teams = (s.core k).teams) (hl : t.launches = s.launches) (hi : t.images = s.images) :
    t.envOf k slot gid = some (e.recore (t.core k)) := by
  have hl' : t.launch = s.launch := by funext u; simp [State.launch, hl]
  have hi' : t.imageOf = s.imageOf := by funext l; simp [State.imageOf, State.image, hi]
  unfold State.envOf at h ⊢
  simp only [State.warp?] at hw
  simp only [hw, ht, hl', hi'] at h ⊢
  split at h
  · cases h
  · rename_i w hw
    split at h
    · rename_i g t' hg ht'
      cases h
      rfl
    · cases h

/-- The environment after the charge. -/
theorem envOf_charge {s : State} {e : Env} {k slot gid a f : Nat} (h : s.envOf k slot gid = some e) :
    (s.charge k slot a f).envOf k slot gid = some (e.recore ((s.charge k slot a f).core k)) := by
  apply envOf_congr h (charge_warp ..)
  · obtain ⟨n, ws, hc⟩ := charge_eq s k slot a f
    rw [hc]; simp
  · exact charge_launches ..
  · exact charge_images ..

/-- A steady gang's environment is that of its own place. -/
theorem Steady.envOf {s : State} {e : Env} (h : Steady s e) : s.envOf e.k e.slot e.gid = some e := by
  have h1 := h.env
  unfold State.env? at h1
  obtain ⟨hk, hs, hg, _⟩ := env_of_some h1
  rw [hk, hs, hg]; exact h1

theorem Steady.warp {s : State} {e : Env} (h : Steady s e) : s.warp? e.k e.slot = some e.warp := (env_of_some h.envOf).2.2.2.2.1

/-- No thread of an element-mode gang takes an event (R377). -/
theorem events_element {e : Env} (h : ElementMode e) (g : Guard) (p : Nat → Bool) : e.events g p = [] := by
  unfold Env.events
  rw [List.filter_eq_nil_iff]
  intro i _
  simp [h i]

/-- Without events, what follows runs in the charged state. -/
theorem afterEvents_element {s : State} {e : Env} {k slot a f : Nat} (h : Steady s e) (hk : e.k = k) (hs : e.slot = slot) (hb : ElementMode e)
    (g : Guard) (p : Nat → Bool) :
    (s.charge k slot a f).afterEvents e g p = (s.charge k slot a f, e.recore ((s.charge k slot a f).core k)) := by
  subst hk hs
  unfold State.afterEvents
  simp only [events_element hb g p, State.takeEvents]
  rw [envOf_charge h.envOf]
  rfl

/-- The answer of a course that has issued. -/
def answer (e : Env) (len : Nat) (r : State × Option Trap) : Host.Outcome State Fault Refusal :=
  match r.2 with
  | none => .next r.1
  | some t => .next (r.1.takeTrap e.k e.slot e.gid t len)

/-- Outside bounds mode an instruction that issues runs its course in the charged state. -/
theorem issued_element {s : State} {e : Env} (hs : Steady s e) (hb : ElementMode e) (len : Nat) (g : Guard) (cost : Env → Nat) (factor : Nat)
    (ev : State → Env → Nat → Bool) (f : Env → List Nat → State → Env → State × Option Trap) :
    issued s len g cost factor ev f = answer e len (f e [] (s.charge e.k e.slot (cost e) factor)
      (e.recore ((s.charge e.k e.slot (cost e) factor).core e.k))) := by
  unfold issued instr2
  simp only [hs.env]
  rw [afterEvents_element hs rfl rfl hb, events_element hb]
  rfl

/-- The same where the course ends without a trap. -/
theorem issued_course {s : State} {e : Env} (hs : Steady s e) (hb : ElementMode e) {len : Nat} {g : Guard} {cost : Env → Nat} {factor : Nat}
    {ev : State → Env → Nat → Bool} {f : Env → List Nat → State → Env → State × Option Trap} {t : State}
    (h : f e [] (e.issued s (cost e) factor) (e.issuing s (cost e) factor) = (t, none)) : issued s len g cost factor ev f = .next t := by
  rw [issued_element hs hb]
  change answer e len (f e [] (e.issued s (cost e) factor) (e.issuing s (cost e) factor)) = _
  rw [h]
  rfl

/-- Its course answers a state: the instruction completes. -/
theorem issue_ok {s : State} {e : Env} (hs : Steady s e) (hb : ElementMode e) {len : Nat} {g : Guard} {cost : Env → Nat} {factor : Nat}
    {ev : State → Env → Nat → Bool} {f : List Nat → State → Env → Except Trap State} {t : State}
    (h : f [] (s.charge e.k e.slot (cost e) factor) (e.recore ((s.charge e.k e.slot (cost e) factor).core e.k)) = .ok t) :
    issue s len g cost factor ev f = .next t := by
  unfold issue
  rw [issued_element hs hb]
  simp only [h]
  rfl

/-- Its course answers a trap: the gang takes it as it issued. -/
theorem issue_trap {s : State} {e : Env} (hs : Steady s e) (hb : ElementMode e) {len : Nat} {g : Guard} {cost : Env → Nat} {factor : Nat}
    {ev : State → Env → Nat → Bool} {f : List Nat → State → Env → Except Trap State} {t : Trap}
    (h : f [] (s.charge e.k e.slot (cost e) factor) (e.recore ((s.charge e.k e.slot (cost e) factor).core e.k)) = .error t) :
    issue s len g cost factor ev f = .next ((s.charge e.k e.slot (cost e) factor).takeTrap e.k e.slot e.gid t len) := by
  unfold issue
  rw [issued_element hs hb]
  simp only [h]
  rfl

/-! ## How far a state has moved -/

theorem OnlyWarp.charge (s : State) (k slot a f j : Nat) : OnlyWarp s (s.charge k slot a f) k j := by
  obtain ⟨n, ws, h⟩ := charge_eq s k slot a f
  refine ⟨by rw [h]; rfl, fun i hi => ?_, ?_, fun i _ => charge_warp .., fun d hd => ?_, ?_⟩
  · rw [h, core_setCore_other _ _ hi]; rfl
  · rw [h, core_setCore]
  · rw [h]; simp only [setCore_die]; exact die_setDie_other _ _ hd
  · rw [h]; simp only [setCore_die]
    by_cases hl : dieOf k < s.dies.length
    · rw [die_setDie _ _ _ hl]
    · have : (s.setDie (dieOf k) { s.die (dieOf k) with cycle := n }).die (dieOf k) = s.die (dieOf k) := by
        simp only [State.setDie, State.die, List.getD]
        rw [List.getElem?_eq_none (by simpa using hl), List.getElem?_eq_none (Nat.le_of_not_lt hl)]
      rw [this]

theorem OnlyWarp.put {s t : State} {k slot : Nat} (h : OnlyWarp s t k slot) (w : Warp) (o : List (Nat × Nat)) :
    OnlyWarp s (t.setCore k ((t.core k).put slot w o)) k slot where
  rest := by
    have := h.rest
    rw [this]; rfl
  cores j hj := by rw [core_setCore_other _ _ hj]; exact h.cores j hj
  core := by
    rw [core_setCore]
    have := h.core
    rw [this]; rfl
  warps j hj := by
    have := h.warps j hj
    simp only [State.warp?, core_setCore, Core.put_warps, alook_put_other _ _ hj]
    exact this
  dies d hd := by rw [setCore_die]; exact h.dies d hd
  die := by rw [setCore_die]; exact h.die

theorem OnlyWarp.modWarp {s t : State} {k slot : Nat} (h : OnlyWarp s t k slot) (f : Warp → Warp) : OnlyWarp s (t.modWarp k slot f) k slot := by
  cases hw : t.warp? k slot with
  | none =>
    have hw' : alook slot (t.core k).warps = none := hw
    have hid : (t.core k).modWarp slot f = t.core k := by simp [Core.modWarp, hw']
    have hwp : ∀ j, (t.modWarp k slot f).warp? k j = t.warp? k j := by
      intro j; simp [State.warp?, State.modWarp, hid]
    refine ⟨?_, fun j hj => ?_, ?_, fun j hj => ?_, h.dies, h.die⟩
    · have := h.rest
      rw [this]; rfl
    · rw [State.modWarp, core_modCore_other _ _ hj]; exact h.cores j hj
    · rw [State.modWarp, core_modCore, hid]; exact h.core
    · rw [hwp]; exact h.warps j hj
  | some w =>
    rw [state_modWarp_put f hw]
    exact h.put _ _

theorem OnlyWarp.free {s t : State} {k slot : Nat} (h : OnlyWarp s t k slot) (n : Nat) : OnlyWarp s { t with freeCtr := n } k slot :=
  ⟨by have := h.rest; rw [this], h.cores, h.core, h.warps, h.dies, h.die⟩

/-- The gang retires from a state that has reached no further than its warp. -/
theorem retired_of_done {s t : State} {e e1 : Env} {len : Nat} {w : Warp} (h : OnlyWarp s t e.k e.slot) (hk : e1.k = e.k) (hsl : e1.slot = e.slot)
    (hg : e1.gid = e.gid) (hp : e1.pc = e.pc) (hw : t.warp? e.k e.slot = some w) (hlen : w.slices.length = 8)
    (hlive : w.gangSlices e.gid ≠ []) (hset : ∀ x ∈ w.slices, x.gang = e.gid → x.ended = false) :
    Retired s (e1.done len t) e len w := by
  obtain ⟨o, ho⟩ := done_steady (s := t) (e := e1) (len := len) (w := w) (by rw [hk, hsl]; exact hw) hlen (by rw [hg]; exact hlive)
    (by rw [hg]; exact hset)
  rw [ho, hk, hsl, hg, hp]
  exact ⟨h.put _ _, warp_setCore_put ..⟩

/-- Where the frame holds, the gang's slices and live threads are as they were. -/
theorem WarpFrame.gangSlices {w v : Warp} {vs us ps : List Nat} {d : Bool} (h : WarpFrame w v vs us ps d) (g : Nat) : v.gangSlices g = w.gangSlices g := by
  have hs : v.slices = w.slices := by rw [h.rest]
  unfold Warp.gangSlices
  apply List.filter_congr
  intro i _
  have h1 : v.slice i = w.slice i := by simp [Warp.slice, hs]
  have h2 : v.sliceLive i = w.sliceLive i := by
    unfold Warp.sliceLive
    congr 1
    funext l
    rw [h.lanes l]
  rw [h1, h2]

theorem WarpFrame.slices {w v : Warp} {vs us ps : List Nat} {d : Bool} (h : WarpFrame w v vs us ps d) : v.slices = w.slices := by rw [h.rest]

/-- The gang retires with its registers changed within a frame. -/
theorem retired_frame {s t : State} {e e1 : Env} {len : Nat} {v : Warp} {vs us ps : List Nat} {d : Bool} (hs : Steady s e)
    (h : OnlyWarp s t e.k e.slot) (hk : e1.k = e.k) (hsl : e1.slot = e.slot) (hg : e1.gid = e.gid) (hp : e1.pc = e.pc)
    (hw : t.warp? e.k e.slot = some v) (hf : WarpFrame e.warp v vs us ps d) : Retired s (e1.done len t) e len v :=
  retired_of_done h hk hsl hg hp hw (by rw [hf.slices]; exact hs.slices) (by rw [hf.gangSlices]; exact hs.live)
    (by rw [hf.slices]; exact hs.settled)

end Sys2Proof.Machine
end

