-- ==== Sys2Proof/Laws/Alu.lean ====
section
/-!
SUPPORT. The course of a register-computing instruction outside bounds mode and with no trap due: it retires, and only its destinations change.
-/
namespace Sys2Proof.Machine

/-- The warp after the computation. -/
def aluWarp (s : State) (e : Env) (opc : Nat) (x : Op) (h : How) (f : State → Env → Nat → Bool → Srcs → Out) : Warp :=
  let r := rowAt opc x
  let act := e.active x.g
  match aluWho opc x r act with
  | [] => e.warp.free (e.frees x r)
  | who =>
    let outs := (e.aluLanes opc x r act who).map (Env.compute s e x r h f)
    e.writeOut ((noteAll e.warp (aluNoted e.warp opc x r act outs)).free (e.frees x r)) x r outs

theorem enabledFlags_zero {w : Warp} (h : w.fpmode.toNat / 256 % 128 = 0) (b : Bool) : enabledFlags w b = 0 := by
  unfold enabledFlags; rw [h]; simp

theorem aluHit_none {w : Warp} (h : w.fpmode.toNat / 256 % 128 = 0) (l : List (Nat × Out)) : aluHit w l = [] := by
  unfold aluHit
  rw [List.filter_eq_nil_iff]
  intro o _
  simp [enabledFlags_zero h]

theorem aluRest_eq {s : State} {e0 e : Env} {opc : Nat} {x : Op} {h : How} {f : State → Env → Nat → Bool → Srcs → Out}
    (hr : e.regTrap x (rowAt opc x) (maskOf (e.active x.g)) = none) (hfp : e.warp.fpmode.toNat / 256 % 128 = 0) :
    aluRest e0 opc x h f s e = (e0.done x.form.bytes (s.modWarp e.k e.slot fun _ => aluWarp s e opc x h f), none) := by
  unfold aluRest aluWarp
  simp only [hr, aluHit_none hfp]
  cases aluWho opc x (rowAt opc x) (e.active x.g) with
  | nil => rfl
  | cons a l => rfl

/-- With no event, register trap or enabled floating-point trap, the instruction computes and retires. -/
theorem alu_eq {s : State} {e : Env} {opc : Nat} {x : Op} {h : How} {f : State → Env → Nat → Bool → Srcs → Out} (hs : Steady s e)
    (hb : ElementMode e) (hr : e.regTrap x (rowAt opc x) (maskOf (e.active x.g)) = none) (hfp : e.warp.fpmode.toNat / 256 % 128 = 0) :
    ∃ a s1, s1 = s.charge e.k e.slot a h.factor ∧
      alu s opc x h f = .next (e.done x.form.bytes (s1.modWarp e.k e.slot fun _ => aluWarp s1 (e.recore (s1.core e.k)) opc x h f)) := by
  refine ⟨(if isUniform opc x (rowAt opc x) then oneCycle else perActive x.g) e, _, rfl, ?_⟩
  unfold alu
  rw [issued_element hs hb]
  rw [aluRest_eq (by simpa using hr) (by simpa using hfp)]
  rfl

/-- What an instruction's computation keeps to: so many elements, these predicates besides D, draws only where it draws. -/
structure OutBound (r : Row) (f : State → Env → Nat → Bool → Srcs → Out) (ps : List Nat) (draws : Bool) : Prop where
  width : ∀ b w n, r.d = .reg b w n → w = 32 ∨ w = 64
  vals : ∀ b w n, r.d = .reg b w n → ∀ s e l v, (f s e l false v).vals.length ≤ n
  preds : ∀ s e l v p, p ∈ (f s e l false v).preds → p.1 ∈ ps
  draws : draws = false → ∀ s e l v, (f s e l false v).draws = 0

theorem noteAll_frame (w : Warp) (l : List (Nat × Out)) (vs us ps : List Nat) (d : Bool) (h : d = false → ∀ o ∈ l, o.2.draws = 0) :
    WarpFrame w (noteAll w l) vs us ps d :=
  WarpFrame.fold _ l (fun v o ho => note_frame v o.1 _ _ vs us ps d fun hd => h hd o ho) w

theorem names_width {w : Nat} (h : w = 32 ∨ w = 64) (n : Nat) : n * (if w = 64 then 2 else 1) = n * (w / 32) := by
  rcases h with h | h <;> subst h <;> rfl

/-- Writing what threads computed changes the instruction's destinations alone. -/
theorem writeOut_frame {r : Row} {ps : List Nat} {x : Op} (e : Env) (w : Warp) (outs : List (Nat × Out)) (vs us : List Nat) (d : Bool)
    (hw : ∀ b wd n, r.d = .reg b wd n → wd = 32 ∨ wd = 64) (hv : ∀ b wd n, r.d = .reg b wd n → ∀ o ∈ outs, o.2.vals.length ≤ n)
    (hp : ∀ o ∈ outs, ∀ p ∈ o.2.preds, p.1 ∈ ps) (hvs : ∀ n ∈ destVecs x r, n ∈ vs) (hus : ∀ n ∈ destUnis x r, n ∈ us)
    (hps : ∀ n ∈ destPreds x r, n ∈ ps) : WarpFrame w (e.writeOut w x r outs) vs us ps d := by
  unfold Env.writeOut
  have h1 : WarpFrame w (outs.foldl (fun w o => o.2.preds.foldl (fun w p => w.writePred o.1 p.1 p.2) w) w) vs us ps d :=
    WarpFrame.fold _ outs (fun v o ho => WarpFrame.fold _ o.2.preds (fun u p hpm => writePred_frame u o.1 p.1 p.2 vs us ps d (hp o ho p hpm)) v) w
  refine h1.trans ?_
  generalize outs.foldl (fun w o => o.2.preds.foldl (fun w p => w.writePred o.1 p.1 p.2) w) w = w1
  cases hd : r.d with
  | no => exact .refl ..
  | pred b =>
    refine WarpFrame.fold _ outs (fun v o _ => ?_) w1
    cases o.2.pred with
    | none => exact .refl ..
    | some p => exact writePred_frame v o.1 _ p vs us ps d (hps _ (by simp [destPreds, hd]))
  | reg b wd n =>
    have hwd := hw b wd n hd
    simp only
    split
    · rename_i hb
      split
      · rename_i o rest
        refine writeUnis_frame _ _ _ wd n _ vs us ps d (hv b wd n hd o (List.mem_cons_self ..)) fun i hi => hus _ ?_
        rw [names_width hwd] at hi
        simp only [destUnis, hd, hb, if_true, List.mem_map, List.mem_range]
        exact ⟨i, hi, rfl⟩
      · exact .refl ..
    · rename_i hb
      refine writeVecs_frame _ _ wd n _ vs us ps d (fun p hpm => ?_) fun i hi => hvs _ ?_
      · obtain ⟨o, ho, rfl⟩ := List.mem_map.mp hpm
        exact hv b wd n hd o ho
      · rw [names_width hwd] at hi
        simp only [destVecs, hd, hb, Bool.false_eq_true, if_false, List.mem_map, List.mem_range]
        exact ⟨i, hi, rfl⟩

theorem compute_vals {s : State} {e : Env} {x : Op} {r : Row} {h : How} {f : State → Env → Nat → Bool → Srcs → Out} (i : Nat) :
    (Env.compute s e x r h f i).2.vals.length = (f s e i (e.warp.lane i).bounds (Env.srcs s e x r h.lit i)).vals.length := by
  simp [Env.compute]

theorem compute_draws {s : State} {e : Env} {x : Op} {r : Row} {h : How} {f : State → Env → Nat → Bool → Srcs → Out} (i : Nat) :
    (Env.compute s e x r h f i).2.draws = (f s e i (e.warp.lane i).bounds (Env.srcs s e x r h.lit i)).draws := rfl

theorem compute_preds {s : State} {e : Env} {x : Op} {r : Row} {h : How} {f : State → Env → Nat → Bool → Srcs → Out} {i : Nat} {p : Nat × PVal}
    (hp : p ∈ (Env.compute s e x r h f i).2.preds) :
    ∃ q ∈ (f s e i (e.warp.lane i).bounds (Env.srcs s e x r h.lit i)).preds, q.1 = p.1 := by
  simp only [Env.compute, List.mem_map] at hp
  obtain ⟨q, hq, rfl⟩ := hp
  exact ⟨q, hq, rfl⟩

/-- The frame of the computed warp. -/
theorem aluWarp_frame {s : State} {e : Env} {opc : Nat} {x : Op} {h : How} {f : State → Env → Nat → Bool → Srcs → Out} {ps : List Nat} {d : Bool}
    (hb : ElementMode e) (ho : OutBound (rowAt opc x) f ps d) :
    WarpFrame e.warp (aluWarp s e opc x h f) (e.frees x (rowAt opc x) ++ destVecs x (rowAt opc x)) (destUnis x (rowAt opc x))
      (ps ++ destPreds x (rowAt opc x)) d := by
  have hfree : ∀ w : Warp, WarpFrame w (w.free (e.frees x (rowAt opc x))) (e.frees x (rowAt opc x) ++ destVecs x (rowAt opc x))
      (destUnis x (rowAt opc x)) (ps ++ destPreds x (rowAt opc x)) d := fun w =>
    (free_frame w _ _ _ d).mono (fun n hn => List.mem_append_left _ hn) (fun _ hn => hn) (fun _ hn => hn)
  unfold aluWarp
  simp only
  generalize hact : e.active x.g = act
  cases aluWho opc x (rowAt opc x) act with
  | nil => exact hfree _
  | cons a l =>
    simp only
    generalize hout : (e.aluLanes opc x (rowAt opc x) act (a :: l)).map (Env.compute s e x (rowAt opc x) h f) = outs
    have hmem : ∀ o ∈ outs, ∃ i, o = Env.compute s e x (rowAt opc x) h f i := by
      intro o hm
      rw [← hout] at hm
      obtain ⟨i, _, rfl⟩ := List.mem_map.mp hm
      exact ⟨i, rfl⟩
    refine (noteAll_frame e.warp _ _ _ _ d ?_).trans ((hfree _).trans (writeOut_frame e _ outs _ _ d ho.width ?_ ?_ ?_ ?_ ?_))
    · intro hd o hm
      unfold aluNoted at hm
      split at hm
      · obtain ⟨i, _, rfl⟩ := List.mem_map.mp hm
        have hall : ∀ o ∈ outs, o.2.draws = 0 := fun o hm => by
          obtain ⟨j, rfl⟩ := hmem o hm
          rw [compute_draws, hb j]
          exact ho.draws hd ..
        cases hc : outs.find? fun o => decide ((e.warp.lane o.1).bounds = (e.warp.lane i).bounds) with
        | some o => simpa using hall o (List.mem_of_find?_eq_some hc)
        | none => cases ho1 : outs with
          | nil => rfl
          | cons o1 rest => simpa using hall o1 (by rw [ho1]; exact List.mem_cons_self ..)
      · obtain ⟨i, rfl⟩ := hmem o hm
        rw [compute_draws, hb i]
        exact ho.draws hd ..
    · intro b w n hd o hm
      obtain ⟨i, rfl⟩ := hmem o hm
      rw [compute_vals, hb i]
      exact ho.vals b w n hd ..
    · intro o hm p hp
      obtain ⟨i, rfl⟩ := hmem o hm
      obtain ⟨q, hq, he⟩ := compute_preds hp
      rw [hb i] at hq
      rw [← he]
      exact List.mem_append_left _ (ho.preds _ _ _ _ q hq)
    · exact fun n hn => List.mem_append_right _ hn
    · exact fun n hn => hn
    · exact fun n hn => List.mem_append_right _ hn

/-- A register-computing instruction retires, with its destinations alone changed. -/
theorem alu_retires {s : State} {e : Env} {opc : Nat} {x : Op} {h : How} {f : State → Env → Nat → Bool → Srcs → Out} {ps : List Nat} {d : Bool}
    (hs : Steady s e) (hb : ElementMode e) (hr : e.regTrap x (rowAt opc x) (maskOf (e.active x.g)) = none)
    (hfp : e.warp.fpmode.toNat / 256 % 128 = 0) (ho : OutBound (rowAt opc x) f ps d) :
    ∃ t w, alu s opc x h f = .next t ∧ Retired s t e x.form.bytes w ∧
      WarpFrame e.warp w (e.frees x (rowAt opc x) ++ destVecs x (rowAt opc x)) (destUnis x (rowAt opc x)) (ps ++ destPreds x (rowAt opc x)) d := by
  obtain ⟨a, s1, h1, h2⟩ := alu_eq (h := h) (f := f) hs hb hr hfp
  have hfr : WarpFrame e.warp (aluWarp s1 (e.recore (s1.core e.k)) opc x h f) (e.frees x (rowAt opc x) ++ destVecs x (rowAt opc x))
      (destUnis x (rowAt opc x)) (ps ++ destPreds x (rowAt opc x)) d :=
    aluWarp_frame (e := e.recore (s1.core e.k)) (s := s1) hb ho
  refine ⟨_, _, h2, ?_, hfr⟩
  have ho1 : OnlyWarp s s1 e.k e.slot := by rw [h1]; exact OnlyWarp.charge ..
  refine retired_frame hs (ho1.modWarp _) rfl rfl rfl rfl ?_ hfr
  rw [warp_modWarp (w := e.warp) _ (by rw [h1, charge_warp]; exact hs.warp)]

end Sys2Proof.Machine
end

