-- ==== Sys2Proof/Laws/Complete.lean ====
section
/-!
SUPPORT. How an instruction completes: from the course it runs to `Moves` and `Completes`.
-/
namespace Sys2Proof.Machine

/-- What retiring needs of the warp: its slices and live threads are those of the gang that issued. -/
structure SameShape (w v : Warp) : Prop where
  slices : v.slices = w.slices
  live : ∀ i, (v.lane i).live = (w.lane i).live

theorem SameShape.refl (w : Warp) : SameShape w w := ⟨rfl, fun _ => rfl⟩
theorem SameShape.trans {a b c : Warp} (h : SameShape a b) (k : SameShape b c) : SameShape a c :=
  ⟨k.slices.trans h.slices, fun i => (k.live i).trans (h.live i)⟩

theorem WarpFrame.same {w v : Warp} {vs us ps : List Nat} {d : Bool} (h : WarpFrame w v vs us ps d) : SameShape w v :=
  ⟨h.slices, fun i => by rw [h.lanes i]⟩

theorem SameShape.gangSlices {w v : Warp} (h : SameShape w v) (g : Nat) : v.gangSlices g = w.gangSlices g := by
  unfold Warp.gangSlices
  apply List.filter_congr
  intro i _
  have h1 : v.slice i = w.slice i := by simp [Warp.slice, h.slices]
  have h2 : v.sliceLive i = w.sliceLive i := by
    unfold Warp.sliceLive
    congr 1
    funext l
    exact h.live l
  rw [h1, h2]

/-- The gang of `e` as it stands when it retires. -/
structure Issuer (e e1 : Env) : Prop where
  k : e1.k = e.k
  slot : e1.slot = e.slot
  gid : e1.gid = e.gid
  pc : e1.pc = e.pc

theorem Issuer.refl (e : Env) : Issuer e e := ⟨rfl, rfl, rfl, rfl⟩
theorem Issuer.recore (e : Env) (c : Core) : Issuer e (e.recore c) := ⟨rfl, rfl, rfl, rfl⟩

/-- A warp of the same shape stands where it stood. -/
theorem SameShape.pcOf {w v : Warp} (h : SameShape w v) (g : Nat) : v.pcOf g = w.pcOf g := by
  unfold Warp.pcOf Warp.slice; rw [h.gangSlices, h.slices]

/-- The issuing gang with its warp renewed. -/
def Env.rewarp (e : Env) (w : Warp) : Env := { e with warp := w }
theorem Issuer.rewarp {e e1 : Env} {w : Warp} (h : Issuer e e1) (hw : SameShape e.warp w) : Issuer e (e1.rewarp w) :=
  ⟨h.1, h.2, h.3, (hw.pcOf e1.gid).trans (by rw [h.3]; rfl)⟩

/-- An answer that retires the gang completes the instruction. -/
theorem completes_done {i : Instr} {s s' s1 : State} {e e1 : Env} {len : Nat} {w : Warp} (hs : Steady s e) (h : exec i s = .next (e1.done len s1))
    (he : Issuer e e1) (ho : OnlyWarp s' s1 e.k e.slot) (hw : s1.warp? e.k e.slot = some w) (hsh : SameShape e.warp w) :
    Completes i s e len s' w := by
  have hr := retired_of_done (len := len) ho he.k he.slot he.gid he.pc hw (by rw [hsh.slices]; exact hs.slices)
    (by rw [hsh.gangSlices]; exact hs.live) (by rw [hsh.slices]; exact hs.settled)
  exact ⟨_, h, hr.only, hr.warp⟩

/-- A state that differs from itself in one warp only. -/
theorem OnlyWarp.refl (s : State) (k j : Nat) : OnlyWarp s s k j := ⟨rfl, fun _ _ => rfl, rfl, fun _ _ => rfl, fun _ _ => rfl, rfl⟩

/-- The charge reaches no further than the warp's core; the warp itself is as it was. -/
theorem Steady.charged {s : State} {e : Env} (h : Steady s e) (a f : Nat) : (s.charge e.k e.slot a f).warp? e.k e.slot = some e.warp := by
  rw [charge_warp]; exact h.warp

/-- An instruction of one cycle whose course answers a state. -/
theorem issue_one {s : State} {e : Env} (hs : Steady s e) (hb : ElementMode e) {len : Nat} {g : Guard} {ev : State → Env → Nat → Bool}
    {f : List Nat → State → Env → Except Trap State} {t : State} (h : f [] (e.issued s 1 1) (e.issuing s 1 1) = .ok t) :
    issue s len g oneCycle 1 ev f = .next t := issue_ok hs hb h

/-- The same where each active thread pays. -/
theorem issue_each {s : State} {e : Env} (hs : Steady s e) (hb : ElementMode e) {len : Nat} {g : Guard} {ev : State → Env → Nat → Bool}
    {f : List Nat → State → Env → Except Trap State} {t : State}
    (h : f [] (e.issued s (perActive g e) 1) (e.issuing s (perActive g e) 1) = .ok t) : issue s len g (perActive g) 1 ev f = .next t :=
  issue_ok hs hb h

/-- The same where the opcode's operands say what it costs. -/
theorem issue_paid {s : State} {e : Env} (hs : Steady s e) (hb : ElementMode e) {len opc : Nat} {x : Op} {g : Guard} {ev : State → Env → Nat → Bool}
    {f : List Nat → State → Env → Except Trap State} {t : State} (h : f [] (e.paid s opc x) (e.paying s opc x) = .ok t) :
    issue s len g (opCost opc x) 1 ev f = .next t := issue_ok hs hb h

/-- Freeing last-read names keeps the shape and reaches no further than the warp. -/
theorem OnlyWarp.freed {s t : State} {e e1 : Env} (h : OnlyWarp s t e.k e.slot) (he : Issuer e e1) (x : Op) (r : Row) :
    OnlyWarp s (e1.freed x r t) e.k e.slot := by
  unfold Env.freed
  rw [he.k, he.slot]
  exact h.modWarp _

theorem freed_warp {t : State} {e e1 : Env} {w : Warp} (h : t.warp? e.k e.slot = some w) (he : Issuer e e1) (x : Op) (r : Row) :
    (e1.freed x r t).warp? e.k e.slot = some (w.free (e1.frees x r)) := by
  unfold Env.freed
  rw [he.k, he.slot]
  exact warp_modWarp _ h

theorem free_same (w : Warp) (l : List Nat) : SameShape w (w.free l) := (free_frame w l [] [] false).same

end Sys2Proof.Machine
end

