-- ==== Sys2Proof/Laws/Encode.lean ====
section
/-!
SUPPORT. The fields of an encoded word read back (R50 to R55), the byte order of instruction words (R49), and the round trip of one
instruction from its form.
-/
namespace Sys2Proof

theorem app_low {m n : Nat} (x : BitVec m) (y : BitVec n) (s l : Nat) (h : s + l ≤ n) : (x ++ y).extractLsb' s l = y.extractLsb' s l := by
  apply BitVec.eq_of_getLsbD_eq; intro i hi
  rw [BitVec.getLsbD_extractLsb', BitVec.getLsbD_extractLsb', BitVec.getLsbD_append]
  simp [show s + i < n by omega]
theorem app_high {m n : Nat} (x : BitVec m) (y : BitVec n) (s l : Nat) (h : n ≤ s) : (x ++ y).extractLsb' s l = x.extractLsb' (s - n) l := by
  apply BitVec.eq_of_getLsbD_eq; intro i hi
  rw [BitVec.getLsbD_extractLsb', BitVec.getLsbD_extractLsb', BitVec.getLsbD_append]
  simp [show ¬ s + i < n by omega, show s + i - n = s - n + i by omega]
theorem bit_low {m n : Nat} (x : BitVec m) (y : BitVec n) (s : Nat) (h : s < n) : (x ++ y).getLsbD s = y.getLsbD s := by
  rw [BitVec.getLsbD_append]; simp [h]
theorem bit_high {m n : Nat} (x : BitVec m) (y : BitVec n) (s : Nat) (h : n ≤ s) : (x ++ y).getLsbD s = x.getLsbD (s - n) := by
  rw [BitVec.getLsbD_append]; simp [Nat.not_lt.mpr h]
theorem ext_all {n : Nat} (x : BitVec n) : x.extractLsb' 0 n = x := by
  apply BitVec.eq_of_getLsbD_eq; intro i hi
  rw [BitVec.getLsbD_extractLsb']; simp [hi]
theorem bit_ofBool (b : Bool) : (BitVec.ofBool b).getLsbD 0 = b := by cases b <;> rfl


theorem c32r_word (opc : BitVec 8) (x : C32R) : c32rOf (x.word opc) = x := by
  obtain ⟨⟨gs, gp⟩, d, a, b⟩ := x
  simp only [c32rOf, guardOf, C32R.word]
  congr 1
  · congr 1
    · exact (bit_high _ _ _ (by decide)).trans <| (bit_high _ _ _ (by decide)).trans <| (bit_high _ _ _ (by decide)).trans <| (bit_low _ _ _ (by decide)).trans (bit_ofBool _)
    · exact (app_high _ _ _ _ (by decide)).trans <| (app_high _ _ _ _ (by decide)).trans <| (app_low _ _ _ _ (by decide)).trans (ext_all _)
  · exact (app_high _ _ _ _ (by decide)).trans <| (app_high _ _ _ _ (by decide)).trans <| (app_high _ _ _ _ (by decide)).trans <| (app_high _ _ _ _ (by decide)).trans <| (app_low _ _ _ _ (by decide)).trans (ext_all _)
  · exact (app_high _ _ _ _ (by decide)).trans <| (app_high _ _ _ _ (by decide)).trans <| (app_high _ _ _ _ (by decide)).trans <| (app_high _ _ _ _ (by decide)).trans <| (app_high _ _ _ _ (by decide)).trans <| (app_low _ _ _ _ (by decide)).trans (ext_all _)
  · exact (app_high _ _ _ _ (by decide)).trans <| (app_high _ _ _ _ (by decide)).trans <| (app_high _ _ _ _ (by decide)).trans <| (app_high _ _ _ _ (by decide)).trans <| (app_high _ _ _ _ (by decide)).trans <| (app_high _ _ _ _ (by decide)).trans <| ext_all _

theorem c32i_word (opc : BitVec 8) (x : C32I) : c32iOf (x.word opc) = x := by
  obtain ⟨⟨gs, gp⟩, d, imm⟩ := x
  simp only [c32iOf, guardOf, C32I.word]
  congr 1
  · congr 1
    · exact (bit_high _ _ _ (by decide)).trans <| (bit_high _ _ _ (by decide)).trans <| (bit_high _ _ _ (by decide)).trans <| (bit_low _ _ _ (by decide)).trans (bit_ofBool _)
    · exact (app_high _ _ _ _ (by decide)).trans <| (app_high _ _ _ _ (by decide)).trans <| (app_low _ _ _ _ (by decide)).trans (ext_all _)
  · exact (app_high _ _ _ _ (by decide)).trans <| (app_high _ _ _ _ (by decide)).trans <| (app_high _ _ _ _ (by decide)).trans <| (app_high _ _ _ _ (by decide)).trans <| (app_low _ _ _ _ (by decide)).trans (ext_all _)
  · exact (app_high _ _ _ _ (by decide)).trans <| (app_high _ _ _ _ (by decide)).trans <| (app_high _ _ _ _ (by decide)).trans <| (app_high _ _ _ _ (by decide)).trans <| (app_high _ _ _ _ (by decide)).trans <| ext_all _

theorem c32j_word (opc : BitVec 8) (x : C32J) : c32jOf (x.word opc) = x := by
  obtain ⟨⟨gs, gp⟩, j⟩ := x
  simp only [c32jOf, guardOf, C32J.word]
  congr 1
  · congr 1
    · exact (bit_high _ _ _ (by decide)).trans <| (bit_high _ _ _ (by decide)).trans <| (bit_high _ _ _ (by decide)).trans <| (bit_low _ _ _ (by decide)).trans (bit_ofBool _)
    · exact (app_high _ _ _ _ (by decide)).trans <| (app_high _ _ _ _ (by decide)).trans <| (app_low _ _ _ _ (by decide)).trans (ext_all _)
  · exact (app_high _ _ _ _ (by decide)).trans <| (app_high _ _ _ _ (by decide)).trans <| (app_high _ _ _ _ (by decide)).trans <| (app_high _ _ _ _ (by decide)).trans <| ext_all _

theorem l64_word (opc : BitVec 8) (x : L64) : l64Of (x.word opc) x.lit = x := by
  obtain ⟨⟨gs, gp⟩, d, a, la, w, lit⟩ := x
  simp only [l64Of, guardOf, L64.word]
  congr 1
  · congr 1
    · exact (bit_high _ _ _ (by decide)).trans <| (bit_high _ _ _ (by decide)).trans <| (bit_high _ _ _ (by decide)).trans <| (bit_low _ _ _ (by decide)).trans (bit_ofBool _)
    · exact (app_high _ _ _ _ (by decide)).trans <| (app_high _ _ _ _ (by decide)).trans <| (app_low _ _ _ _ (by decide)).trans (ext_all _)
  · exact (app_high _ _ _ _ (by decide)).trans <| (app_high _ _ _ _ (by decide)).trans <| (app_high _ _ _ _ (by decide)).trans <| (app_high _ _ _ _ (by decide)).trans <| (app_low _ _ _ _ (by decide)).trans (ext_all _)
  · exact (app_high _ _ _ _ (by decide)).trans <| (app_high _ _ _ _ (by decide)).trans <| (app_high _ _ _ _ (by decide)).trans <| (app_high _ _ _ _ (by decide)).trans <| (app_high _ _ _ _ (by decide)).trans <| (app_low _ _ _ _ (by decide)).trans (ext_all _)
  · exact (bit_high _ _ _ (by decide)).trans <| (bit_high _ _ _ (by decide)).trans <| (bit_high _ _ _ (by decide)).trans <| (bit_high _ _ _ (by decide)).trans <| (bit_high _ _ _ (by decide)).trans <| (bit_high _ _ _ (by decide)).trans <| (bit_low _ _ _ (by decide)).trans (bit_ofBool _)
  · exact (bit_high _ _ _ (by decide)).trans <| (bit_high _ _ _ (by decide)).trans <| (bit_high _ _ _ (by decide)).trans <| (bit_high _ _ _ (by decide)).trans <| (bit_high _ _ _ (by decide)).trans <| (bit_high _ _ _ (by decide)).trans <| (bit_high _ _ _ (by decide)).trans <| bit_ofBool _

theorem x96_word (opc : BitVec 8) (len : BitVec 2) (x : X96) : x96Of (x.word0 opc len) x.word1 x.word2 = x := by
  obtain ⟨⟨gs, gp⟩, d, a, la, lb, b, c, lc, ixa, ixb, ixc, bkd, bka, bkb, bkc, op7, immb, rm, sat, type, scope, acq, rel, res, imm16⟩ := x
  simp only [x96Of, guardOf, X96.word0, X96.word1, X96.word2]
  congr 1
  · congr 1
    · exact (bit_high _ _ _ (by decide)).trans <| (bit_high _ _ _ (by decide)).trans <| (bit_high _ _ _ (by decide)).trans <| (bit_low _ _ _ (by decide)).trans (bit_ofBool _)
    · exact (app_high _ _ _ _ (by decide)).trans <| (app_high _ _ _ _ (by decide)).trans <| (app_low _ _ _ _ (by decide)).trans (ext_all _)
  · exact (app_high _ _ _ _ (by decide)).trans <| (app_high _ _ _ _ (by decide)).trans <| (app_high _ _ _ _ (by decide)).trans <| (app_high _ _ _ _ (by decide)).trans <| (app_low _ _ _ _ (by decide)).trans (ext_all _)
  · exact (app_high _ _ _ _ (by decide)).trans <| (app_high _ _ _ _ (by decide)).trans <| (app_high _ _ _ _ (by decide)).trans <| (app_high _ _ _ _ (by decide)).trans <| (app_high _ _ _ _ (by decide)).trans <| (app_low _ _ _ _ (by decide)).trans (ext_all _)
  · exact (bit_high _ _ _ (by decide)).trans <| (bit_high _ _ _ (by decide)).trans <| (bit_high _ _ _ (by decide)).trans <| (bit_high _ _ _ (by decide)).trans <| (bit_high _ _ _ (by decide)).trans <| (bit_high _ _ _ (by decide)).trans <| (bit_low _ _ _ (by decide)).trans (bit_ofBool _)
  · exact (bit_high _ _ _ (by decide)).trans <| (bit_high _ _ _ (by decide)).trans <| (bit_high _ _ _ (by decide)).trans <| (bit_high _ _ _ (by decide)).trans <| (bit_high _ _ _ (by decide)).trans <| (bit_high _ _ _ (by decide)).trans <| (bit_high _ _ _ (by decide)).trans <| bit_ofBool _
  · exact (app_low _ _ _ _ (by decide)).trans (ext_all _)
  · exact (app_high _ _ _ _ (by decide)).trans <| (app_low _ _ _ _ (by decide)).trans (ext_all _)
  · exact (bit_high _ _ _ (by decide)).trans <| (bit_high _ _ _ (by decide)).trans <| (bit_low _ _ _ (by decide)).trans (bit_ofBool _)
  · exact (bit_high _ _ _ (by decide)).trans <| (bit_high _ _ _ (by decide)).trans <| (bit_high _ _ _ (by decide)).trans <| (bit_low _ _ _ (by decide)).trans (bit_ofBool _)
  · exact (bit_high _ _ _ (by decide)).trans <| (bit_high _ _ _ (by decide)).trans <| (bit_high _ _ _ (by decide)).trans <| (bit_high _ _ _ (by decide)).trans <| (bit_low _ _ _ (by decide)).trans (bit_ofBool _)
  · exact (bit_high _ _ _ (by decide)).trans <| (bit_high _ _ _ (by decide)).trans <| (bit_high _ _ _ (by decide)).trans <| (bit_high _ _ _ (by decide)).trans <| (bit_high _ _ _ (by decide)).trans <| (bit_low _ _ _ (by decide)).trans (bit_ofBool _)
  · exact (bit_high _ _ _ (by decide)).trans <| (bit_high _ _ _ (by decide)).trans <| (bit_high _ _ _ (by decide)).trans <| (bit_high _ _ _ (by decide)).trans <| (bit_high _ _ _ (by decide)).trans <| (bit_high _ _ _ (by decide)).trans <| (bit_low _ _ _ (by decide)).trans (bit_ofBool _)
  · exact (bit_high _ _ _ (by decide)).trans <| (bit_high _ _ _ (by decide)).trans <| (bit_high _ _ _ (by decide)).trans <| (bit_high _ _ _ (by decide)).trans <| (bit_high _ _ _ (by decide)).trans <| (bit_high _ _ _ (by decide)).trans <| (bit_high _ _ _ (by decide)).trans <| (bit_low _ _ _ (by decide)).trans (bit_ofBool _)
  · exact (bit_high _ _ _ (by decide)).trans <| (bit_high _ _ _ (by decide)).trans <| (bit_high _ _ _ (by decide)).trans <| (bit_high _ _ _ (by decide)).trans <| (bit_high _ _ _ (by decide)).trans <| (bit_high _ _ _ (by decide)).trans <| (bit_high _ _ _ (by decide)).trans <| (bit_high _ _ _ (by decide)).trans <| (bit_low _ _ _ (by decide)).trans (bit_ofBool _)
  · exact (bit_high _ _ _ (by decide)).trans <| (bit_high _ _ _ (by decide)).trans <| (bit_high _ _ _ (by decide)).trans <| (bit_high _ _ _ (by decide)).trans <| (bit_high _ _ _ (by decide)).trans <| (bit_high _ _ _ (by decide)).trans <| (bit_high _ _ _ (by decide)).trans <| (bit_high _ _ _ (by decide)).trans <| (bit_high _ _ _ (by decide)).trans <| (bit_low _ _ _ (by decide)).trans (bit_ofBool _)
  · exact (app_high _ _ _ _ (by decide)).trans <| (app_high _ _ _ _ (by decide)).trans <| (app_high _ _ _ _ (by decide)).trans <| (app_high _ _ _ _ (by decide)).trans <| (app_high _ _ _ _ (by decide)).trans <| (app_high _ _ _ _ (by decide)).trans <| (app_high _ _ _ _ (by decide)).trans <| (app_high _ _ _ _ (by decide)).trans <| (app_high _ _ _ _ (by decide)).trans <| (app_high _ _ _ _ (by decide)).trans <| (app_low _ _ _ _ (by decide)).trans (ext_all _)
  · exact (bit_high _ _ _ (by decide)).trans <| (bit_high _ _ _ (by decide)).trans <| (bit_high _ _ _ (by decide)).trans <| (bit_high _ _ _ (by decide)).trans <| (bit_high _ _ _ (by decide)).trans <| (bit_high _ _ _ (by decide)).trans <| (bit_high _ _ _ (by decide)).trans <| (bit_high _ _ _ (by decide)).trans <| (bit_high _ _ _ (by decide)).trans <| (bit_high _ _ _ (by decide)).trans <| (bit_high _ _ _ (by decide)).trans <| bit_ofBool _
  · exact (app_low _ _ _ _ (by decide)).trans (ext_all _)
  · exact (bit_high _ _ _ (by decide)).trans <| (bit_low _ _ _ (by decide)).trans (bit_ofBool _)
  · exact (app_high _ _ _ _ (by decide)).trans <| (app_high _ _ _ _ (by decide)).trans <| (app_low _ _ _ _ (by decide)).trans (ext_all _)
  · exact (app_high _ _ _ _ (by decide)).trans <| (app_high _ _ _ _ (by decide)).trans <| (app_high _ _ _ _ (by decide)).trans <| (app_low _ _ _ _ (by decide)).trans (ext_all _)
  · exact (bit_high _ _ _ (by decide)).trans <| (bit_high _ _ _ (by decide)).trans <| (bit_high _ _ _ (by decide)).trans <| (bit_high _ _ _ (by decide)).trans <| (bit_low _ _ _ (by decide)).trans (bit_ofBool _)
  · exact (bit_high _ _ _ (by decide)).trans <| (bit_high _ _ _ (by decide)).trans <| (bit_high _ _ _ (by decide)).trans <| (bit_high _ _ _ (by decide)).trans <| (bit_high _ _ _ (by decide)).trans <| (bit_low _ _ _ (by decide)).trans (bit_ofBool _)
  · exact (app_high _ _ _ _ (by decide)).trans <| (app_high _ _ _ _ (by decide)).trans <| (app_high _ _ _ _ (by decide)).trans <| (app_high _ _ _ _ (by decide)).trans <| (app_high _ _ _ _ (by decide)).trans <| (app_high _ _ _ _ (by decide)).trans <| (app_low _ _ _ _ (by decide)).trans (ext_all _)
  · exact (app_high _ _ _ _ (by decide)).trans <| (app_high _ _ _ _ (by decide)).trans <| (app_high _ _ _ _ (by decide)).trans <| (app_high _ _ _ _ (by decide)).trans <| (app_high _ _ _ _ (by decide)).trans <| (app_high _ _ _ _ (by decide)).trans <| (app_high _ _ _ _ (by decide)).trans <| ext_all _

theorem opc_r (opc : BitVec 8) (x : C32R) : opcOf (x.word opc) = opc.toNat := by
  unfold opcOf C32R.word
  exact congrArg _ ((app_high _ _ _ _ (by decide)).trans <| (app_low _ _ _ _ (by decide)).trans (ext_all _))
theorem len_r (opc : BitVec 8) (x : C32R) : (x.word opc).extractLsb' 0 2 = 0#2 := by
  unfold C32R.word
  exact (app_low _ _ _ _ (by decide)).trans (ext_all _)

theorem opc_i (opc : BitVec 8) (x : C32I) : opcOf (x.word opc) = opc.toNat := by
  unfold opcOf C32I.word
  exact congrArg _ ((app_high _ _ _ _ (by decide)).trans <| (app_low _ _ _ _ (by decide)).trans (ext_all _))
theorem len_i (opc : BitVec 8) (x : C32I) : (x.word opc).extractLsb' 0 2 = 0#2 := by
  unfold C32I.word
  exact (app_low _ _ _ _ (by decide)).trans (ext_all _)

theorem opc_j (opc : BitVec 8) (x : C32J) : opcOf (x.word opc) = opc.toNat := by
  unfold opcOf C32J.word
  exact congrArg _ ((app_high _ _ _ _ (by decide)).trans <| (app_low _ _ _ _ (by decide)).trans (ext_all _))
theorem len_j (opc : BitVec 8) (x : C32J) : (x.word opc).extractLsb' 0 2 = 0#2 := by
  unfold C32J.word
  exact (app_low _ _ _ _ (by decide)).trans (ext_all _)

theorem opc_l (opc : BitVec 8) (x : L64) : opcOf (x.word opc) = opc.toNat := by
  unfold opcOf L64.word
  exact congrArg _ ((app_high _ _ _ _ (by decide)).trans <| (app_low _ _ _ _ (by decide)).trans (ext_all _))
theorem len_l (opc : BitVec 8) (x : L64) : (x.word opc).extractLsb' 0 2 = 1#2 := by
  unfold L64.word
  exact (app_low _ _ _ _ (by decide)).trans (ext_all _)

theorem opc_x (opc : BitVec 8) (len : BitVec 2) (x : X96) : opcOf (x.word0 opc len) = opc.toNat := by
  unfold opcOf X96.word0
  exact congrArg _ ((app_high _ _ _ _ (by decide)).trans <| (app_low _ _ _ _ (by decide)).trans (ext_all _))
theorem len_x (opc : BitVec 8) (len : BitVec 2) (x : X96) : (x.word0 opc len).extractLsb' 0 2 = len := by
  unfold X96.word0
  exact (app_low _ _ _ _ (by decide)).trans (ext_all _)

/-! ## Words and bytes -/

/-- Two adjacent parts of a word joined. -/
theorem ext_append {n : Nat} (x : BitVec n) (s l m : Nat) : (x.extractLsb' (s + l) m ++ x.extractLsb' s l) = x.extractLsb' s (m + l) := by
  apply BitVec.eq_of_getLsbD_eq; intro i hi
  rw [BitVec.getLsbD_append, BitVec.getLsbD_extractLsb', BitVec.getLsbD_extractLsb', BitVec.getLsbD_extractLsb']
  by_cases h : i < l
  · simp [h, show i < m + l by omega]
  · simp [h, hi, show i - l < m by omega, show s + l + (i - l) = s + i by omega]

theorem word_of_bytes (w : Word) : (w.extractLsb' 24 8 ++ w.extractLsb' 16 8 ++ w.extractLsb' 8 8 ++ w.extractLsb' 0 8 : Word) = w := by
  have h1 := ext_append w 16 8 8
  have h2 := ext_append w 8 8 16
  have h3 := ext_append w 0 8 24
  simp only [Nat.reduceAdd] at h1 h2 h3
  rw [h1, h2, h3]
  exact ext_all w

/-- The words of the bytes of words (R49). -/
theorem wordsOfBytes_append (l : List Word) (tail : List Byte) : wordsOfBytes (bytesOfWords l ++ tail) = l ++ wordsOfBytes tail := by
  induction l with
  | nil => rfl
  | cons w l ih =>
    simp only [bytesOfWords, List.cons_append, wordsOfBytes, ih]
    rw [word_of_bytes]

theorem lit_join (lit : BitVec 64) : (lit.extractLsb' 32 32 ++ lit.extractLsb' 0 32 : BitVec 64) = lit := by
  have h := ext_append lit 0 32 32
  simp only [Nat.reduceAdd] at h
  rw [h]; exact ext_all lit

/-! ## One instruction -/

/-- The instruction a body decodes to, opcode given. -/
def ofBody (opc : Nat) : Body → Option Instr
  | .r x => decodeR opc x
  | .i x => decodeI opc x
  | .j x => decodeJ opc x
  | .l x => decodeL opc x
  | .x x => decodeX opc x
  | .y x lit => decodeY opc x lit

/-- No C32-R form has this opcode where the body is of another compact layout, and so on. -/
def soleLayout (opc : Nat) : Body → Prop
  | .i _ => ∀ y, decodeR opc y = none
  | .j _ => (∀ y, decodeR opc y = none) ∧ ∀ y, decodeI opc y = none
  | _ => True

/-- The words of a body, decoded. -/
theorem ofWords_body {opc : Nat} {b : Body} {i : Instr} (hopc : opc < 256) (hs : soleLayout opc b) (hb : ofBody opc b = some i) (tail : List Word) :
    ∃ w0 rest, b.words (BitVec.ofNat 8 opc) = w0 :: rest ∧ opcOf w0 = opc ∧ lenWords w0 = rest.length + 1 ∧ ofWords w0 (rest ++ tail) = some i := by
  have hn : (BitVec.ofNat 8 opc).toNat = opc := by simp; omega
  cases b with
  | r x =>
    refine ⟨_, _, rfl, (opc_r ..).trans hn, by simp [lenWords, len_r], ?_⟩
    simp only [ofWords, opc_r, hn, len_r, c32r_word]
    simp only [ofBody] at hb
    rw [hb]; rfl
  | i x =>
    refine ⟨_, _, rfl, (opc_i ..).trans hn, by simp [lenWords, len_i], ?_⟩
    simp only [ofWords, opc_i, hn, len_i, c32i_word]
    simp only [ofBody] at hb
    rw [hb, hs]; rfl
  | j x =>
    refine ⟨_, _, rfl, (opc_j ..).trans hn, by simp [lenWords, len_j], ?_⟩
    simp only [ofWords, opc_j, hn, len_j, c32j_word]
    simp only [ofBody] at hb
    rw [hb, hs.1, hs.2]; rfl
  | l x =>
    refine ⟨_, _, rfl, (opc_l ..).trans hn, by simp [lenWords, len_l], ?_⟩
    simp only [ofWords, opc_l, hn, len_l, List.cons_append]
    exact (congrArg (decodeL opc) (l64_word ..)).trans hb
  | x x =>
    refine ⟨_, _, rfl, (opc_x ..).trans hn, by simp [lenWords, len_x], ?_⟩
    simp only [ofWords, opc_x, hn, len_x, List.cons_append]
    exact (congrArg (decodeX opc) (x96_word ..)).trans hb
  | y x lit =>
    refine ⟨_, _, rfl, (opc_x ..).trans hn, by simp [lenWords, len_x], ?_⟩
    simp only [ofWords, opc_x, hn, len_x, List.cons_append]
    change decodeY opc (x96Of _ _ _) (_ ++ _) = _
    rw [x96_word, lit_join]
    exact hb

/-- A well-formed instruction whose body decodes to it decodes from its bytes, whatever follows. -/
theorem decode_encode {i : Instr} {opc : Nat} {b : Body} (hc : i.code = some (opc, b)) (hw : i.wf = true) (hopc : opc < 256) (ha : assigned opc = true)
    (hs : soleLayout opc b) (hb : ofBody opc b = some i) (tail : List Byte) :
    decodeBytes true (bytesOfWords (encode i) ++ tail) = some (i, (encode i).length) := by
  obtain ⟨w0, rest, h1, h2, h3, h4⟩ := ofWords_body hopc hs hb (wordsOfBytes tail)
  have hd : i.detail true = none := by
    unfold Instr.wf at hw
    rw [hc] at hw
    simp only [Bool.and_eq_true, decide_eq_true_eq] at hw
    exact hw.1
  have he : encode i = w0 :: rest := by unfold encode; rw [hc]; exact h1
  unfold decodeBytes
  rw [wordsOfBytes_append, he]
  simp only [List.cons_append, List.length_append, h3]
  rw [if_neg (by omega)]
  unfold decodeWords
  rw [h2, ha, h4]
  simp [hd, h3]

/-- Where constructors share an opcode, the sub-operation of a well-formed one is its own (R67). -/
theorem wf_selector {i : Instr} {opc n : Nat} {b : Body} (hc : i.code = some (opc, b)) (hw : i.wf = true) (hs : i.selector = some n) : b.selector opc = n := by
  unfold Instr.wf at hw
  rw [hc, hs] at hw
  simp only [Bool.and_eq_true, decide_eq_true_eq] at hw
  exact hw.2

end Sys2Proof
end

