-- ==== Sys2Proof/Laws/Slices.lean ====
section
/-!
SUPPORT. Editing the slices of a gang one after another: each slice is edited as it stood, and nothing else changes.
-/
namespace Sys2Proof.Machine

/-- A slice and its lanes. -/
def Warp.part (w : Warp) (i : Nat) : Slice × List Lane := (w.slice i, (laneIds i).map w.lane)

/-- One slice edited: its EXEC bits where a mask is given, then its own record. -/
def Warp.edit (w : Warp) (i : Nat) (m : Option Mask) (g : Slice → Slice) : Warp :=
  match m with
  | some b => (w.setExec i b).modSlice i g
  | none => w.modSlice i g

theorem lane_modLane_if (w : Warp) (i j : Nat) (f : Lane → Lane) (h : i < w.lanes.length) :
    (w.modLane i f).lane j = if j = i then f (w.lane i) else w.lane j := by
  unfold Warp.modLane Warp.lane
  by_cases hj : j = i
  · subst hj; simp [List.getD, h]
  · simp [List.getD, hj, List.getElem?_set_ne (Ne.symm hj)]

theorem slice_modSlice_if (w : Warp) (i j : Nat) (f : Slice → Slice) (h : i < w.slices.length) :
    (w.modSlice i f).slice j = if j = i then f (w.slice i) else w.slice j := by
  unfold Warp.modSlice Warp.slice
  by_cases hj : j = i
  · subst hj; simp [List.getD, h]
  · simp [List.getD, hj, List.getElem?_set_ne (Ne.symm hj)]

theorem setExec_fold (l : List Nat) (b : Mask) (w : Warp) (hl : ∀ i ∈ l, i < w.lanes.length) (hn : l.Nodup) :
    let v := l.foldl (fun w j => w.modLane j fun x => { x with exec := b.getLsbD j && x.live }) w
    v = { w with lanes := v.lanes } ∧ v.lanes.length = w.lanes.length ∧
    ∀ j, v.lane j = if j ∈ l then { w.lane j with exec := b.getLsbD j && (w.lane j).live } else w.lane j := by
  induction l generalizing w with
  | nil => exact ⟨rfl, rfl, fun j => by simp⟩
  | cons a l ih =>
    obtain ⟨h1, h2, h3⟩ := ih (w.modLane a fun x => { x with exec := b.getLsbD a && x.live })
      (fun i hi => by rw [modLane_lanes_length]; exact hl i (List.mem_cons_of_mem _ hi)) (List.nodup_cons.mp hn).2
    have ha := hl a (List.mem_cons_self ..)
    simp only [List.foldl_cons]
    refine ⟨?_, by rw [h2, modLane_lanes_length], fun j => ?_⟩
    · rw [h1]; rfl
    · rw [h3 j, lane_modLane_if _ _ _ _ ha]
      have hna := (List.nodup_cons.mp hn).1
      by_cases hja : j = a
      · subst hja; simp [hna]
      · simp [hja]

theorem setExec_lane (w : Warp) (i : Nat) (b : Mask) (h : w.lanes.length = 32) (hi : i < 8) :
    w.setExec i b = { w with lanes := (w.setExec i b).lanes } ∧ (w.setExec i b).lanes.length = 32 ∧
    ∀ j, (w.setExec i b).lane j = if j ∈ laneIds i then { w.lane j with exec := b.getLsbD j && (w.lane j).live } else w.lane j := by
  have hl : ∀ j ∈ laneIds i, j < w.lanes.length := by
    intro j hj; simp only [laneIds, List.mem_cons, List.not_mem_nil, or_false] at hj; omega
  have hn : (laneIds i).Nodup := by simp [laneIds]
  have := setExec_fold (laneIds i) b w hl hn
  rw [h] at this
  exact this

/-- What one edit does. -/
theorem edit_spec (w : Warp) (i : Nat) (m : Option Mask) (g : Slice → Slice) (hs : w.slices.length = 8) (hl : w.lanes.length = 32) (hi : i < 8) :
    let v := w.edit i m g
    v = { w with lanes := v.lanes, slices := v.slices } ∧ v.slices.length = 8 ∧ v.lanes.length = 32 ∧
    (∀ j, v.slice j = if j = i then g (w.slice i) else w.slice j) ∧
    (∀ j, v.lane j = if j ∈ laneIds i then (match m with
      | some b => { w.lane j with exec := b.getLsbD j && (w.lane j).live }
      | none => w.lane j) else w.lane j) := by
  cases m with
  | none =>
    refine ⟨rfl, by simp [Warp.edit, hs], hl, fun j => slice_modSlice_if w i j g (by omega), fun j => by simp [Warp.edit, Warp.modSlice, Warp.lane]⟩
  | some b =>
    obtain ⟨h1, h2, h3⟩ := setExec_lane w i b hl hi
    have hsl : (w.setExec i b).slices = w.slices := by rw [h1]
    refine ⟨?_, ?_, h2, fun j => ?_, fun j => ?_⟩
    · simp only [Warp.edit]; rw [show (w.setExec i b).modSlice i g = { w.setExec i b with slices := ((w.setExec i b).modSlice i g).slices } from rfl, h1]
    · simp [Warp.edit, Warp.modSlice, hsl, hs]
    · have := slice_modSlice_if (w.setExec i b) i j g (by rw [hsl]; omega)
      simp only [Warp.edit, this]
      simp [Warp.slice, hsl]
    · exact h3 j

theorem mem_laneIds {i j : Nat} : j ∈ laneIds i ↔ j / 4 = i := by
  simp only [laneIds, List.mem_cons, List.not_mem_nil, or_false]; omega

/-- Slices edited one after another, each by what its own part says, are edited as they stood. -/
theorem fold_edit {w0 : Warp} {f : Warp → Nat → Warp} {m : Nat → Option Mask} {g : Nat → Slice → Slice} (hs : w0.slices.length = 8)
    (hl : w0.lanes.length = 32) (l : List Nat) (hn : l.Nodup) (hi : ∀ i ∈ l, i < 8)
    (hf : ∀ i ∈ l, ∀ w : Warp, w.slices.length = 8 → w.lanes.length = 32 → w.part i = w0.part i → f w i = w.edit i (m i) (g i)) :
    SlicesEdited w0 (l.foldl f w0) l m g ∧ (l.foldl f w0).slices.length = 8 ∧ (l.foldl f w0).lanes.length = 32 := by
  -- generalised over the warp reached so far, which keeps the parts of the slices still to come
  have key : ∀ (l : List Nat) (w : Warp), l.Nodup → (∀ i ∈ l, i < 8) → w.slices.length = 8 → w.lanes.length = 32 →
      (∀ i ∈ l, w.part i = w0.part i) → (∀ i ∈ l, ∀ w : Warp, w.slices.length = 8 → w.lanes.length = 32 → w.part i = w0.part i → f w i = w.edit i (m i) (g i)) →
      SlicesEdited w (l.foldl f w) l m g ∧ (l.foldl f w).slices.length = 8 ∧ (l.foldl f w).lanes.length = 32 := by
    intro l
    induction l with
    | nil =>
      intro w _ _ hs hl _ _
      refine ⟨⟨rfl, ?_, fun _ _ => rfl, ?_, fun _ _ _ _ => rfl⟩, hs, hl⟩ <;> (intro i h; exact absurd h List.not_mem_nil)
    | cons a l ih =>
      intro w hn hi hs hl hp hf
      have hna := (List.nodup_cons.mp hn).1
      have hmem := List.mem_cons_self (a := a) (l := l)
      have hstep := hf a hmem w hs hl (hp a hmem)
      obtain ⟨h1, h2, h3, h4, h5⟩ := edit_spec w a (m a) (g a) hs hl (hi a hmem)
      simp only [List.foldl_cons, hstep]
      have hother : ∀ i, i ≠ a → (w.edit a (m a) (g a)).part i = w.part i := by
        intro i hia
        simp only [Warp.part, h4 i, if_neg hia, Prod.mk.injEq, true_and]
        apply List.map_congr_left
        intro j hj
        rw [h5 j, if_neg]
        rw [mem_laneIds] at hj ⊢
        omega
      obtain ⟨q, q2, q3⟩ := ih (w.edit a (m a) (g a)) (List.nodup_cons.mp hn).2 (fun i h => hi i (List.mem_cons_of_mem _ h)) h2 h3
        (fun i h => by rw [hother i (fun hh => hna (hh ▸ h))]; exact hp i (List.mem_cons_of_mem _ h))
        (fun i h => hf i (List.mem_cons_of_mem _ h))
      refine ⟨⟨?_, ?_, ?_, ?_, ?_⟩, q2, q3⟩
      · rw [q.rest, h1]
      · intro i hmi
        rcases List.mem_cons.mp hmi with rfl | h
        · rw [q.others i hna, h4, if_pos rfl]
        · have hia : i ≠ a := fun hh => hna (hh ▸ h)
          rw [q.slices i h, h4, if_neg hia]
      · intro i hmi
        have hmi' := fun h => hmi (List.mem_cons_of_mem a h)
        have hia : i ≠ a := fun hh => hmi (hh ▸ hmem)
        rw [q.others i hmi', h4, if_neg hia]
      · intro i hmi j hj
        rcases List.mem_cons.mp hmi with rfl | h
        · rw [q.kept i hna j hj, h5, if_pos hj]; try (cases m i <;> rfl)
        · have hia : i ≠ a := fun hh => hna (hh ▸ h)
          have hja : j ∉ laneIds a := by rw [mem_laneIds] at hj ⊢; omega
          rw [q.exec i h j hj, h5, if_neg hja]
      · intro i hmi j hj
        have hmi' := fun h => hmi (List.mem_cons_of_mem a h)
        have hia : i ≠ a := fun hh => hmi (hh ▸ hmem)
        have hja : j ∉ laneIds a := by rw [mem_laneIds] at hj ⊢; omega
        rw [q.kept i hmi' j hj, h5, if_neg hja]
  exact key l w0 hn hi hs hl (fun _ _ => rfl) hf

theorem gangSlices_nodup (w : Warp) (g : Nat) : (w.gangSlices g).Nodup := List.Pairwise.filter _ List.nodup_range
theorem gangSlices_lt {w : Warp} {g i : Nat} (h : i ∈ w.gangSlices g) : i < 8 := (mem_gangSlices.mp h).1

/-- The slices of a steady gang edited one after another. -/
theorem Steady.fold_edit {s : State} {e : Env} (h : Steady s e) {f : Warp → Nat → Warp} {m : Nat → Option Mask} {g : Nat → Slice → Slice}
    (hf : ∀ i ∈ e.slices, ∀ w : Warp, w.slices.length = 8 → w.lanes.length = 32 → w.part i = e.warp.part i → f w i = w.edit i (m i) (g i)) :
    SlicesEdited e.warp (e.slices.foldl f e.warp) e.slices m g :=
  (Machine.fold_edit h.slices h.lanes e.slices (gangSlices_nodup ..) (fun _ => gangSlices_lt) hf).1

end Sys2Proof.Machine
end

