-- ==== Sys2Proof/Laws/Flow.lean ====
section
/-!
SUPPORT. How the control instructions complete (R335 to R343, R384, R385): one lemma per constructor.
-/
namespace Sys2Proof.Machine
variable {s : State} {e : Env}

/-! ## Edits -/

theorem SlicesEdited.trans {w v u : Warp} {l : List Nat} {m : Nat → Option Mask} {g g' : Nat → Slice → Slice} (h : SlicesEdited w v l m g)
    (k : SlicesEdited v u l (fun _ => none) g') : SlicesEdited w u l m (fun i x => g' i (g i x)) where
  rest := by rw [k.rest, h.rest]
  slices i hi := by rw [k.slices i hi, h.slices i hi]
  others i hi := by rw [k.others i hi, h.others i hi]
  exec i hi j hj := by have := k.exec i hi j hj; simp only at this; rw [this, h.exec i hi j hj]
  kept i hi j hj := by rw [k.kept i hi j hj, h.kept i hi j hj]

/-- Setting every slice's PC. -/
theorem Steady.allTo (h : Steady s e) (a : DWord) : SlicesEdited e.warp (e.allTo a) e.slices (fun _ => none) (fun _ x => { x with pc := a }) :=
  h.fold_edit (f := fun w i => w.modSlice i fun x => { x with pc := a }) fun _ _ _ _ _ _ => rfl

theorem modSlice_modSlice (w : Warp) (i : Nat) (f g : Slice → Slice) (h : i < w.slices.length) :
    (w.modSlice i f).modSlice i g = w.modSlice i fun x => g (f x) := by
  have : (w.modSlice i f).slice i = f (w.slice i) := slice_modSlice w i f h
  simp only [Warp.modSlice] at this ⊢
  rw [this]
  simp

@[simp] theorem setExec_slices (w : Warp) (i : Nat) (b : Mask) : (w.setExec i b).slices = w.slices := by
  unfold Warp.setExec
  have key : ∀ (l : List Nat) (v : Warp), (l.foldl (fun w j => w.modLane j fun l => { l with exec := b.getLsbD j && l.live }) v).slices = v.slices := by
    intro l
    induction l with
    | nil => intro v; rfl
    | cons a l ih => intro v; simp only [List.foldl_cons]; rw [ih]; rfl
  exact key _ _

@[simp] theorem setExec_slice (w : Warp) (i j : Nat) (b : Mask) : (w.setExec i b).slice j = w.slice j := by simp [Warp.slice]

theorem edit_modSlice (w : Warp) (i : Nat) (m : Option Mask) (g g' : Slice → Slice) (h : i < w.slices.length) :
    (w.edit i m g).modSlice i g' = w.edit i m fun x => g' (g x) := by
  cases m with
  | none => exact modSlice_modSlice w i g g' h
  | some b => exact modSlice_modSlice (w.setExec i b) i g g' (by simpa using h)

/-! ## NOP, QUARTER and HANDOFF without a bounds thread -/

theorem Flow.nop (hs : Steady s e) (hb : ElementMode e) (x : C32R) : Completes (.nop x) s e 4 s e.warp := by
  refine completes_done hs (s1 := e.issued s 1 1) (e1 := e.issuing s 1 1) ?_ (.recore ..) (OnlyWarp.charge ..) (hs.charged ..) (.refl _)
  change execNop x s = _
  unfold execNop control
  exact issue_ok hs hb rfl

theorem Flow.quarter (hs : Steady s e) (hb : ElementMode e) (x : C32R) : Completes (.quarter x) s e 4 s e.warp := by
  refine completes_done hs (s1 := e.issued s 1 1) (e1 := e.issuing s 1 1) ?_ (.recore ..) (OnlyWarp.charge ..) (hs.charged ..) (.refl _)
  change execQuarter x s = _
  unfold execQuarter control
  exact issue_ok hs hb rfl

/-! ## Branches -/

/-- The branch's course answers a warp to go on from. -/
theorem steers_of {i : Instr} {s1 : State} {len : Nat} {w : Warp} {m : Nat → Option Mask} {g : Nat → Slice → Slice}
    (h : exec i s = .next (e.goto s1 len w)) (hw : SlicesEdited e.warp w e.slices m g) : Steers i s e s1 len m g := ⟨w, h, hw⟩

/-- A decision applied is an edit of its slice. -/
theorem apply_edit (w : Warp) (i : Nat) (h : Bool) (fall : DWord) (d : Decision) :
    w.apply i h fall d = w.edit i d.exec (d.slice h fall (w.execMask i)) := by
  cases d with
  | fall => rfl
  | whole dst => rfl
  | split dst first others pcd reuse =>
    simp only [Warp.apply, Decision.exec, Warp.edit]
    simp only [Warp.modSlice, setExec_slice]
    cases reuse with
    | false => rfl
    | true =>
      cases hst : (w.slice i).stk h with
      | nil => simp [Decision.slice, hst]
      | cons a rest => cases a <;> simp [Decision.slice, hst]

theorem part_execMask {w v : Warp} {i : Nat} (h : w.part i = v.part i) : w.execMask i = v.execMask i := by
  have hl : (laneIds i).map w.lane = (laneIds i).map v.lane := by injection h
  unfold Warp.execMask
  congr 1
  apply List.filter_congr
  intro j hj
  have := List.map_inj_left.mp hl j hj
  rw [this]

theorem part_slice {w v : Warp} {i : Nat} (h : w.part i = v.part i) : w.slice i = v.slice i := by injection h

/-- The slices of the gang after their decisions. -/
theorem Steady.decided (hs : Steady s e) (d : Nat → Decision) (fall : DWord) :
    SlicesEdited e.warp ((e.slices.map fun i => (i, d i)).foldl (fun w p => w.apply p.1 e.handling fall p.2) e.warp) e.slices
      (fun i => (d i).exec) (fun i => (d i).slice e.handling fall (e.warp.execMask i)) := by
  rw [List.foldl_map]
  refine hs.fold_edit (f := fun w i => w.apply i e.handling fall (d i)) fun i _ w _ _ hw => ?_
  rw [apply_edit, part_execMask hw]

/-- BR without a guard. -/
theorem branch_uniform {x : Op} {w : Nat} (hs : Steady s e) (hb : ElementMode e) (hu : unguarded x.g = true) :
    branch s x w = .next (e.goto (e.issued s 1 1) x.form.bytes (e.allTo (relTarget e.pc w x.lit))) := by
  unfold branch control
  refine issue_ok hs hb ?_
  simp only [hu, if_true]
  rfl

theorem branch_guarded {x : Op} {w : Nat} (hs : Steady s e) (hb : ElementMode e) (hu : unguarded x.g = false)
    (hroom : ∀ i ∈ e.slices, (e.stk i).length + (brDecision e x.g (relTarget e.pc w x.lit) (e.pc + BitVec.ofNat 64 x.form.bytes) i).pushes ≤ 16) :
    branch s x w = .next (e.goto (e.issued s 1 1) x.form.bytes
      ((e.slices.map fun i => (i, brDecision e x.g (relTarget e.pc w x.lit) (e.pc + BitVec.ofNat 64 x.form.bytes) i)).foldl
        (fun w p => w.apply p.1 e.handling (e.pc + BitVec.ofNat 64 x.form.bytes) p.2) e.warp)) := by
  unfold branch control
  refine issue_ok hs hb ?_
  simp only [hu, Bool.false_eq_true, if_false]
  rw [if_neg]
  · rfl
  · simp only [List.any_map, List.any_eq_true, not_exists, not_and]
    intro i hi
    have := hroom i hi
    simp only [Function.comp_apply, decide_eq_true_eq, Nat.not_lt]
    exact this

theorem Flow.brC32_uniform (hs : Steady s e) (hb : ElementMode e) (x : C32J) (hu : unguarded x.g = true) :
    Steers (.brC32 x) s e (e.issued s 1 1) 4 (fun _ => none) (fun _ y => { y with pc := relTarget e.pc 18 x.j.toNat }) :=
  steers_of (w := e.allTo (relTarget e.pc 18 x.j.toNat)) (branch_uniform (x := x.op) hs hb hu) (hs.allTo _)

theorem Flow.brL64_uniform (hs : Steady s e) (hb : ElementMode e) (x : L64) (hu : unguarded x.g = true) :
    Steers (.brL64 x) s e (e.issued s 1 1) 8 (fun _ => none) (fun _ y => { y with pc := relTarget e.pc 32 (x.op 0).lit }) :=
  steers_of (w := e.allTo (relTarget e.pc 32 (x.op 0).lit)) (branch_uniform (x := x.op 0) hs hb hu) (hs.allTo _)

theorem Flow.brC32_guarded (hs : Steady s e) (hb : ElementMode e) (x : C32J) (hu : unguarded x.g = false)
    (hr : ∀ i ∈ e.slices, (e.stk i).length + (brDecision e x.g (relTarget e.pc 18 x.j.toNat) (e.pc + 4#64) i).pushes ≤ 16) :
    Steers (.brC32 x) s e (e.issued s 1 1) 4 (fun i => (brDecision e x.g (relTarget e.pc 18 x.j.toNat) (e.pc + 4#64) i).exec)
      (fun i => (brDecision e x.g (relTarget e.pc 18 x.j.toNat) (e.pc + 4#64) i).slice e.handling (e.pc + 4#64) (e.warp.execMask i)) :=
  steers_of (branch_guarded (x := x.op) hs hb hu hr) (hs.decided _ _)

theorem Flow.brL64_guarded (hs : Steady s e) (hb : ElementMode e) (x : L64) (hu : unguarded x.g = false)
    (hr : ∀ i ∈ e.slices, (e.stk i).length + (brDecision e x.g (relTarget e.pc 32 (x.op 0).lit) (e.pc + 8#64) i).pushes ≤ 16) :
    Steers (.brL64 x) s e (e.issued s 1 1) 8 (fun i => (brDecision e x.g (relTarget e.pc 32 (x.op 0).lit) (e.pc + 8#64) i).exec)
      (fun i => (brDecision e x.g (relTarget e.pc 32 (x.op 0).lit) (e.pc + 8#64) i).slice e.handling (e.pc + 8#64) (e.warp.execMask i)) :=
  steers_of (branch_guarded (x := x.op 0) hs hb hu hr) (hs.decided _ _)

/-- CALL in a form. -/
theorem callRel_ok {x : Op} {w : Nat} (hs : Steady s e) (hb : ElementMode e) (hr : ∀ i ∈ e.slices, (e.stk i).length < 16) :
    ∃ v, callRel s x w = .next (e.goto (e.issued s 1 1) x.form.bytes v) ∧ SlicesEdited e.warp v e.slices (fun _ => none)
      (fun _ y => Slice.called e.handling (e.pc + BitVec.ofNat 64 x.form.bytes) { y with pc := relTarget e.pc w x.lit }) := by
  refine ⟨e.slices.foldl (fun w i => w.modSlice i fun y => y.setStk e.handling (.call (e.pc + BitVec.ofNat 64 x.form.bytes) :: y.stk e.handling))
    (e.allTo (relTarget e.pc w x.lit)), ?_, ?_⟩
  · unfold callRel control
    refine issue_ok hs hb ?_
    rw [if_neg]
    · rfl
    · simp only [List.any_eq_true, not_exists, not_and]
      intro i hi
      have := hr i hi
      simp only [decide_eq_true_eq, Nat.not_le]
      exact this
  · have h1 := hs.allTo (relTarget e.pc w x.lit)
    have hsz : (e.allTo (relTarget e.pc w x.lit)).slices.length = 8 ∧ (e.allTo (relTarget e.pc w x.lit)).lanes.length = 32 :=
      (Machine.fold_edit (f := fun v i => v.modSlice i fun y => { y with pc := relTarget e.pc w x.lit }) (m := fun _ => none)
        (g := fun _ y => { y with pc := relTarget e.pc w x.lit }) hs.slices hs.lanes e.slices (gangSlices_nodup ..) (fun _ => gangSlices_lt)
        fun _ _ _ _ _ _ => rfl).2
    exact h1.trans (Machine.fold_edit (m := fun _ => none) (g := fun _ => Slice.called e.handling (e.pc + BitVec.ofNat 64 x.form.bytes)) hsz.1 hsz.2
      e.slices (gangSlices_nodup ..) (fun _ => gangSlices_lt) fun _ _ _ _ _ _ => rfl).1

theorem Flow.callC32 (hs : Steady s e) (hb : ElementMode e) (x : C32J) (hr : ∀ i ∈ e.slices, (e.stk i).length < 16) :
    Steers (.callC32 x) s e (e.issued s 1 1) 4 (fun _ => none)
      (fun _ y => Slice.called e.handling (e.pc + 4#64) { y with pc := relTarget e.pc 18 x.j.toNat }) := callRel_ok (x := x.op) hs hb hr
theorem Flow.callL64 (hs : Steady s e) (hb : ElementMode e) (x : L64) (hr : ∀ i ∈ e.slices, (e.stk i).length < 16) :
    Steers (.callL64 x) s e (e.issued s 1 1) 8 (fun _ => none)
      (fun _ y => Slice.called e.handling (e.pc + 8#64) { y with pc := relTarget e.pc 32 (x.op 0).lit }) := callRel_ok (x := x.op 0) hs hb hr

/-- BRI and CALLI in a form. -/
theorem branchTo_ok {opc : Nat} {call : Bool} {x : Op} (hs : Steady s e) (hb : ElementMode e)
    (ht : e.regTrap x (rowAt opc x) (maskOf (e.active x.g)) = none)
    (hd : (indirectTargets (e.issued s 1 1) (e.issuing s 1 1) opc x).any badTarget = false)
    (hr : ∀ i ∈ e.slices, (e.stk i).length + (indirectDecision (e.issued s 1 1) (e.issuing s 1 1) opc x i).pushes +
      (if (indirectDecision (e.issued s 1 1) (e.issuing s 1 1) opc x i).calls call then 1 else 0) ≤ 16) :
    ∃ v, branchTo s opc call x = .next (e.goto (e.issued s 1 1) x.form.bytes v) ∧ SlicesEdited e.warp v e.slices
      (fun i => (indirectDecision (e.issued s 1 1) (e.issuing s 1 1) opc x i).exec)
      (fun i y => let d := indirectDecision (e.issued s 1 1) (e.issuing s 1 1) opc x i
        let z := d.slice e.handling (e.pc + BitVec.ofNat 64 x.form.bytes) (e.warp.execMask i) y
        if d.calls call then z.called e.handling (e.pc + BitVec.ofNat 64 x.form.bytes) else z) := by
  refine ⟨(e.slices.map fun i => (i, indirectDecision (e.issued s 1 1) (e.issuing s 1 1) opc x i)).foldl (fun w d =>
          let w := w.apply d.1 e.handling (e.pc + BitVec.ofNat 64 x.form.bytes) d.2
          if d.2.calls call then w.modSlice d.1 fun y => y.setStk e.handling (.call (e.pc + BitVec.ofNat 64 x.form.bytes) :: y.stk e.handling) else w) e.warp, ?_, ?_⟩
  · unfold branchTo control
    refine issue_ok hs hb ?_
    simp only
    rw [show (e.recore ((s.charge e.k e.slot (oneCycle e) 1).core e.k)) = e.issuing s 1 1 from rfl,
      show s.charge e.k e.slot (oneCycle e) 1 = e.issued s 1 1 from rfl]
    have h1 : (if (uniformA x && unguarded x.g || !((e.issuing s 1 1).active x.g).isEmpty) = true then
        (e.issuing s 1 1).regTrap x (rowAt opc x) (maskOf ((e.issuing s 1 1).active x.g)) else none) = none := by
      split
      · simpa [Env.issuing] using ht
      · rfl
    rw [h1]
    simp only [hd, Bool.false_eq_true, if_false]
    rw [if_neg]
    · rfl
    · simp only [List.any_map, List.any_eq_true, not_exists, not_and]
      intro i hi
      have := hr i hi
      simp only [Function.comp_apply, decide_eq_true_eq, Nat.not_lt]
      exact this
  · rw [List.foldl_map]
    refine hs.fold_edit (f := fun w i => _) fun i hi w hl _ hw => ?_
    have hl : i < w.slices.length := by rw [hl]; exact gangSlices_lt hi
    simp only
    rw [apply_edit, part_execMask hw]
    split
    · rw [edit_modSlice _ _ _ _ _ hl]
      simp only [Slice.called, *]
    · simp only [*]

/-! ## RET, JOIN and YIELD -/

theorem Flow.ret (hs : Steady s e) (hb : ElementMode e) (x : C32R) (hc : ∀ i ∈ e.slices, ∃ ra rest, e.stk i = .call ra :: rest) :
    Steers (.ret x) s e (e.issued s 1 1) 4 (fun _ => none) (fun _ => Slice.returned e.handling) := by
  refine steers_of (w := e.slices.foldl (fun w i => match e.stk i with
        | .call ra :: rest => w.modSlice i fun y => { y.setStk e.handling rest with pc := ra }
        | _ => w) e.warp) ?_ ?_
  · change execRet x s = _
    unfold execRet control
    refine issue_ok hs hb ?_
    simp only
    rw [if_pos]
    · rfl
    · rw [List.all_eq_true]
      intro i hi
      obtain ⟨ra, rest, h⟩ := hc i hi
      have h' : (e.recore ((s.charge e.k e.slot (oneCycle e) 1).core e.k)).stk i = .call ra :: rest := h
      rw [h']
  · refine hs.fold_edit (f := fun w i => _) fun i hi w _ _ hw => ?_
    obtain ⟨ra, rest, h⟩ := hc i hi
    simp only [h, Warp.edit, Warp.modSlice]
    have : w.slice i = e.warp.slice i := part_slice hw
    have h2 : (e.warp.slice i).stk e.handling = .call ra :: rest := h
    rw [this]
    simp [Slice.returned, h2]

theorem lane_setExec (w : Warp) (i : Nat) (b : Mask) (hl : w.lanes.length = 32) (hi : i < 8) {j : Nat} (hj : j ∈ laneIds i) :
    (w.setExec i b).lane j = { w.lane j with exec := b.getLsbD j && (w.lane j).live } := by
  rw [(setExec_lane w i b hl hi).2.2 j, if_pos hj]

@[simp] theorem setStk_ended (x : Slice) (h : Bool) (st : List Entry) : (x.setStk h st).ended = x.ended := by cases h <;> rfl

/-- Setting the EXEC bits of a slice and its record, then marking it when no live thread runs. -/
theorem markEmpty_edit (w : Warp) (i : Nat) (b : Mask) (g : Slice → Slice) (hs : w.slices.length = 8) (hl : w.lanes.length = 32) (hi : i < 8) :
    ((w.setExec i b).modSlice i g).markEmpty i b = w.edit i (some b) fun x => if w.runs i b then g x else { g x with ended := true } := by
  have hany : ((w.setExec i b).modSlice i g).runs i b = w.runs i b := by
    unfold Warp.runs
    congr 1
    rw [Bool.eq_iff_iff]
    simp only [List.any_eq_true]
    constructor <;> rintro ⟨j, hj, h⟩ <;> refine ⟨j, hj, ?_⟩ <;> simpa [modSlice_lane, lane_setExec w i b hl hi hj] using h
  unfold Warp.markEmpty
  rw [hany]
  cases hr : w.runs i b with
  | true => simp [Warp.edit]
  | false =>
    simp only [Bool.false_eq_true, if_false, Warp.edit]
    rw [modSlice_modSlice _ _ _ _ (by simp [hs, hi])]

theorem part_runs {w v : Warp} {i : Nat} (h : w.part i = v.part i) (b : Mask) : w.runs i b = v.runs i b := by
  have hl : (laneIds i).map w.lane = (laneIds i).map v.lane := by injection h
  unfold Warp.runs
  congr 1
  rw [Bool.eq_iff_iff]
  simp only [List.any_eq_true]
  constructor <;> rintro ⟨j, hj, h⟩ <;> refine ⟨j, hj, ?_⟩ <;> have := List.map_inj_left.mp hl j hj
  · rw [← this]; exact h
  · rw [this]; exact h

theorem Flow.join (hs : Steady s e) (hb : ElementMode e) (x : C32R) (hc : ∀ i ∈ e.slices, ∀ ra rest, e.stk i ≠ .call ra :: rest) :
    Steers (.join x) s e (e.issued s 1 1) 4 (fun i => joinExec (e.stk i)) (fun i => Slice.joined e.warp i e.handling e.pc (e.pc + 4#64)) := by
  refine steers_of (w := e.slices.foldl (fun w i => match e.stk i with
      | [] => w.modSlice i fun y => { y with pc := e.pc + 4#64 }
      | st => (w.joinAction i e.handling (some e.pc) (e.pc + 4#64)).markEmpty i (joinMask st)) e.warp) ?_ ?_
  · change execJoin x s = _
    unfold execJoin control
    refine issue_ok hs hb ?_
    simp only
    rw [if_neg]
    · rfl
    · simp only [List.any_eq_true, not_exists, not_and]
      intro i hi h
      have h' : (e.recore ((s.charge e.k e.slot (oneCycle e) 1).core e.k)).stk i = e.stk i := rfl
      rw [h'] at h
      split at h
      · rename_i ra rest hst; exact hc i hi ra rest hst
      · cases h
  · refine hs.fold_edit (f := fun w i => _) fun i hi w hsl hl hw => ?_
    have hslice : w.slice i = e.warp.slice i := part_slice hw
    have hrun := part_runs hw
    have h8 : i < 8 := gangSlices_lt hi
    have hstk : (e.warp.slice i).stk e.handling = e.stk i := rfl
    cases hst : e.stk i with
    | nil =>
      simp only [Warp.edit, joinExec, Slice.joined, Warp.modSlice, hslice, hstk, hst]
    | cons a rest =>
      cases a with
      | call ra => exact absurd hst (hc i hi ra rest)
      | split pcd md mall j jn =>
        cases j with
        | false =>
          simp only [Warp.joinAction, hslice, hstk, hst, joinMask, Option.some_or]
          rw [markEmpty_edit _ _ _ _ hsl hl h8]
          simp only [joinExec, Warp.edit, Warp.modSlice, setExec_slice, hslice, Slice.joined, hstk, hst, hrun]
          cases e.warp.runs i md <;> simp
        | true =>
          simp only [Warp.joinAction, hslice, hstk, hst, joinMask, Option.some_or]
          rw [markEmpty_edit _ _ _ _ hsl hl h8]
          simp only [joinExec, Warp.edit, Warp.modSlice, setExec_slice, hslice, Slice.joined, hstk, hst, hrun]
          cases e.warp.runs i mall <;> cases jn <;> simp

theorem Flow.yield (hs : Steady s e) (hb : ElementMode e) (x : C32R) :
    Steers (.yield x) s e ((e.issued s 1 1).modCore e.k fun (c : Core) =>
        { c with order := c.order.filter (· ≠ (e.slot, e.gid)) ++ [(e.slot, e.gid)] }) 4
      (fun i => yieldExec (e.stk i)) (fun i => Slice.yielded e.warp i e.handling (e.pc + 4#64)) := by
  refine steers_of (w := e.slices.foldl (fun w i => match e.stk i with
      | .split pcd md mall false j :: rest =>
        ((w.setExec i md).modSlice i fun y => { y.setStk e.handling (.split (e.pc + 4#64) (e.warp.execMask i) mall false j :: rest) with pc := pcd }).markEmpty i md
      | _ => w.modSlice i fun y => { y with pc := e.pc + 4#64 }) e.warp) ?_ ?_
  · change execYield x s = _
    unfold execYield control
    exact issue_ok hs hb rfl
  · refine hs.fold_edit (f := fun w i => _) fun i hi w hsl hl hw => ?_
    have hslice : w.slice i = e.warp.slice i := part_slice hw
    have hrun := part_runs hw
    have h8 : i < 8 := gangSlices_lt hi
    have hstk : (e.warp.slice i).stk e.handling = e.stk i := rfl
    cases hst : e.stk i with
    | nil => simp only [Warp.edit, yieldExec, Slice.yielded, Warp.modSlice, hslice, hstk, hst]
    | cons a rest =>
      cases a with
      | call ra => simp only [Warp.edit, yieldExec, Slice.yielded, Warp.modSlice, hslice, hstk, hst]
      | split pcd md mall j jn =>
        cases j with
        | true => simp only [Warp.edit, yieldExec, Slice.yielded, Warp.modSlice, hslice, hstk, hst]
        | false =>
          dsimp only
          rw [markEmpty_edit _ _ _ _ hsl hl h8]
          simp only [yieldExec, Warp.edit, Warp.modSlice, setExec_slice, hslice, Slice.yielded, hstk, hst, hrun]
          cases e.warp.runs i md <;> simp

/-! ## REGANG and REGROUP without waiting -/

theorem regangAt_own {s1 : State} {len mask : Nat} (h : ownSlices e mask) : regangAt s1 e len mask = .ok (e.done len s1) := by
  unfold regangAt
  rw [if_neg, if_pos]
  · rw [List.all_eq_true]
    intro i hi
    have := h.2.2 i (List.mem_range.mp hi)
    cases h1 : mask.testBit i <;> cases h2 : e.warp.sliceLive i <;> simp_all
  · rintro (h1 | h1)
    · exact absurd h.1 (Nat.not_lt.mpr h1)
    · rw [List.any_eq_true] at h1
      obtain ⟨i, hi, h2⟩ := h1
      rw [h.2.1 i hi] at h2
      cases h2

theorem Flow.regangC32 (hs : Steady s e) (hb : ElementMode e) (x : C32I) (h : ownSlices e x.op.lit) : Completes (.regangC32 x) s e 4 s e.warp := by
  refine completes_done hs (s1 := e.issued s 1 1) (e1 := e.issuing s 1 1) ?_ (.recore ..) (OnlyWarp.charge ..) (hs.charged ..) (.refl _)
  change execRegangC32 x s = _
  unfold execRegangC32 control
  exact issue_ok hs hb (regangAt_own (e := e.issuing s 1 1) h)

theorem OnlyWarp.drawn {s t : State} {k slot : Nat} (h : OnlyWarp s t k slot) (n : Nat) : OnlyWarp s (t.drawn n) k slot := h.free _

theorem Flow.regang (hs : Steady s e) (hb : ElementMode e) (x : X96) (hr : e.regTrap x.op (rowAt 0x09 x.op) (maskOf e.lanes) = none)
    (h : ownSlices e (uniA (e.issued s 1 1) 0x09 x.op)) : Completes (.regang x) s e 12 s e.warp := by
  refine completes_done hs (s1 := (e.issued s 1 1).drawn 1) (e1 := e.issuing s 1 1) ?_ (.recore ..) ((OnlyWarp.charge ..).drawn 1) (hs.charged ..) (.refl _)
  change execRegang x s = _
  unfold execRegang control
  refine issue_ok hs hb ?_
  simp only [recore_regTrap, recore_lanes, hr]
  exact regangAt_own (e := e.issuing s 1 1) h

/-- REGROUP in a form, its partner gone (R342). -/
theorem regroup_alone {x : Op} (hs : Steady s e) (hb : ElementMode e) (hr : e.regTrap x (rowAt 0x0A x) (maskOf e.lanes) = none) (hq : e.warp.sq = [])
    (hp : uniA (e.issued s 1 1) 0x0A x ≠ e.warp.warpId ∧ uniA (e.issued s 1 1) 0x0A x < e.team.teamW) (hg : e.warp.gangs.length ≤ 1)
    (hst : ∀ i ∈ e.slices, e.stk i = []) (hn : (s.core e.k).partner e.warp.team (uniA (e.issued s 1 1) 0x0A x) = none) :
    regroup s x = .next ((e.issuing s 1 1).done x.form.bytes ((e.issuing s 1 1).setPred ((e.issued s 1 1).drawn 1) (x.d % 8) false)) := by
  have h1 : ¬ (uniA (e.issued s 1 1) 0x0A x = e.warp.warpId ∨ e.team.teamW ≤ uniA (e.issued s 1 1) 0x0A x ∨ 1 < e.warp.gangs.length ∨
      (e.slices.any fun i => e.stk i ≠ []) = true) := by
    rintro (h | h | h | h)
    · exact hp.1 h
    · exact absurd hp.2 (Nat.not_lt.mpr h)
    · omega
    · rw [List.any_eq_true] at h
      obtain ⟨i, hi, h2⟩ := h
      simp [hst i hi] at h2
  have h2 : (((e.issued s 1 1).drawn 1).core e.k).partner e.warp.team (uniA (e.issued s 1 1) 0x0A x) = none := by
    obtain ⟨n, ws, hc⟩ := charge_eq s e.k e.slot 1 1
    have : ((e.issued s 1 1).drawn 1).core e.k = { s.core e.k with wayFree := ws } := by
      change (s.charge e.k e.slot 1 1).core e.k = _
      rw [hc]; simp
    rw [this]; exact hn
  have h3 : (e.issuing s 1 1).regTrap x (rowAt 0x0A x) (maskOf (e.issuing s 1 1).lanes) = none := hr
  have h4 : ¬ ((e.issuing s 1 1).warp.sq ≠ []) := fun h => h hq
  unfold regroup control
  refine issue_ok hs hb ?_
  rw [show (e.recore ((s.charge e.k e.slot (oneCycle e) 1).core e.k)) = e.issuing s 1 1 from rfl,
    show s.charge e.k e.slot (oneCycle e) 1 = e.issued s 1 1 from rfl]
  simp only [h3]
  refine (if_neg h4).trans ((if_neg h1).trans ?_)
  have h5 : (((e.issued s 1 1).drawn 1).core (e.issuing s 1 1).k).partner (e.issuing s 1 1).warp.team (uniA (e.issued s 1 1) 0x0A x) = none := h2
  rw [h5]

theorem predAll_frame (e : Env) (p : Nat) (v : Bool) : WarpFrame e.warp (e.predAll p v) [] [] [p] false :=
  WarpFrame.fold _ e.lanes (fun w i _ => writePred_frame w i p _ [] [] [p] false (by simp)) e.warp

theorem setPred_warp {s1 : State} (h : s1.warp? e.k e.slot = some e.warp) (p : Nat) (v : Bool) :
    (e.setPred s1 p v).warp? e.k e.slot = some (e.predAll p v) := warp_modWarp _ h

theorem Flow.regroupC32 (hs : Steady s e) (hb : ElementMode e) (x : C32R) (hr : e.regTrap (x.op 0) (rowAt 0x0A (x.op 0)) (maskOf e.lanes) = none)
    (hq : e.warp.sq = []) (hp : uniA (e.issued s 1 1) 0x0A (x.op 0) ≠ e.warp.warpId ∧ uniA (e.issued s 1 1) 0x0A (x.op 0) < e.team.teamW)
    (hg : e.warp.gangs.length ≤ 1) (hst : ∀ i ∈ e.slices, e.stk i = [])
    (hn : (s.core e.k).partner e.warp.team (uniA (e.issued s 1 1) 0x0A (x.op 0)) = none) :
    Completes (.regroupC32 x) s e 4 s (e.predAll ((x.op 0).d % 8) false) :=
  completes_done hs (e1 := e.issuing s 1 1) (show execRegroupC32 x s = _ from regroup_alone hs hb hr hq hp hg hst hn) (.recore ..)
    (((OnlyWarp.charge ..).drawn 1).modWarp _) (setPred_warp (hs.charged ..) _ _) (predAll_frame e _ false).same

theorem Flow.regroup (hs : Steady s e) (hb : ElementMode e) (x : X96) (hr : e.regTrap x.op (rowAt 0x0A x.op) (maskOf e.lanes) = none)
    (hq : e.warp.sq = []) (hp : uniA (e.issued s 1 1) 0x0A x.op ≠ e.warp.warpId ∧ uniA (e.issued s 1 1) 0x0A x.op < e.team.teamW)
    (hg : e.warp.gangs.length ≤ 1) (hst : ∀ i ∈ e.slices, e.stk i = [])
    (hn : (s.core e.k).partner e.warp.team (uniA (e.issued s 1 1) 0x0A x.op) = none) :
    Completes (.regroup x) s e 12 s (e.predAll (x.op.d % 8) false) :=
  completes_done hs (e1 := e.issuing s 1 1) (show execRegroup x s = _ from regroup_alone hs hb hr hq hp hg hst hn) (.recore ..)
    (((OnlyWarp.charge ..).drawn 1).modWarp _) (setPred_warp (hs.charged ..) _ _) (predAll_frame e _ false).same

/-! ## EXIT, BKPT, SLEEP, HANDOFF -/

theorem Flow.exit (hs : Steady s e) (hb : ElementMode e) (x : C32R) :
    exec (.exit x) s = .next (e.done 4 ((e.issued s 1 1).endThreads e.k e.slot (e.active x.g))) := by
  change execExit x s = _
  unfold execExit control
  exact issue_ok hs hb rfl

theorem Flow.bkpt (hs : Steady s e) (hb : ElementMode e) (x : C32R) (h : unguarded x.g = true ∨ e.active x.g ≠ []) :
    exec (.bkpt x) s = .next ((e.issued s 1 1).takeTrap e.k e.slot e.gid { cls := 6, reason := 5, mask := maskOf (e.active x.g) } 4) := by
  change execBkpt x s = _
  unfold execBkpt control
  refine issue_trap hs hb ?_
  refine if_pos (c := (unguarded x.g || !(e.active x.g).isEmpty) = true) ?_
  rcases h with h | h
  · simp [h]
  · simp [h]

theorem Flow.sleep (hs : Steady s e) (hb : ElementMode e) (x : X96) (hr : e.regTrap x.op (rowAt 0x0D x.op) (maskOf e.lanes) = none) :
    exec (.sleep x) s = .next (if uniA (e.issued s 1 1) 0x0D x.op = 0 then e.done 12 ((e.issued s 1 1).drawn 1) else
      e.stall (.sleep (((e.issued s 1 1).die (dieOf e.k)).cycle + uniA (e.issued s 1 1) 0x0D x.op)) (e.done 12 ((e.issued s 1 1).drawn 1))) := by
  change execSleep x s = _
  unfold execSleep control
  refine issue_ok hs hb ?_
  simp only [recore_regTrap, recore_lanes, hr]
  rfl

theorem handoff_element {len : Nat} {g : Guard} {payload : State → Env → Except Trap (Option Word)} (hs : Steady s e) (hb : ElementMode e)
    (hp : payload (e.issued s 1 1) (e.issuing s 1 1) = .ok none) : handoffWith s len g payload = .next ((e.issuing s 1 1).done len (e.issued s 1 1)) := by
  unfold handoffWith instr2
  have h1 : (s.charge e.k e.slot 1 1).envOf e.k e.slot e.gid = some (e.issuing s 1 1) := envOf_charge hs.envOf
  have h2 : payload (s.charge e.k e.slot 1 1) (e.issuing s 1 1) = .ok none := hp
  have h3 : (e.issuing s 1 1).events g (fun _ => true) = [] := events_element (e := e.issuing s 1 1) hb g _
  have h4 : (s.charge e.k e.slot 1 1).envOf (e.issuing s 1 1).k (e.issuing s 1 1).slot (e.issuing s 1 1).gid = some (e.issuing s 1 1) := h1
  simp only [hs.env, h1, Option.getD_some, h2, h3, State.takeEvents, h4]
  rfl

theorem Flow.handoffC32 (hs : Steady s e) (hb : ElementMode e) (x : C32R) : Completes (.handoffC32 x) s e 4 s e.warp := by
  refine completes_done hs (e1 := e.issuing s 1 1) (s1 := e.issued s 1 1) ?_ (.recore ..) (OnlyWarp.charge ..) (hs.charged ..) (.refl _)
  change execHandoffC32 x s = _
  unfold execHandoffC32
  exact handoff_element hs hb rfl

theorem Flow.handoff (hs : Steady s e) (hb : ElementMode e) (x : X96) : Completes (.handoff x) s e 12 s e.warp := by
  refine completes_done hs (e1 := e.issuing s 1 1) (s1 := e.issued s 1 1) ?_ (.recore ..) (OnlyWarp.charge ..) (hs.charged ..) (.refl _)
  change execHandoff x s = _
  unfold execHandoff
  refine handoff_element hs hb ?_
  have h3 : (e.issuing s 1 1).events x.g (fun _ => true) = [] := events_element (e := e.issuing s 1 1) hb _ _
  simp only [h3]

end Sys2Proof.Machine
end

