-- ==== Sys2Proof/Laws/Special.lean ====
section
/-!
SUPPORT. How PGET, SWR, REGION and the system instructions complete (R206, R215, R255, R410, R411).
-/
namespace Sys2Proof.Machine
variable {s : State} {e : Env}

/-! ## PGET, SWR, REGION -/

theorem Special.pget (hs : Steady s e) (hb : ElementMode e) (x : X96) (ht : e.regTrap x.op (rowAt 0x55 x.op) (maskOf (e.active x.g)) = none) :
    Completes (.pget x) s e 12 s (e.warp.writeVecs x.op.d 32 ((e.active x.g).map fun i => (i, pgetOut (e.warp.lane i)))) := by
  refine completes_done hs (e1 := e.issuing s (perActive x.g e) 1) (s1 := (e.issued s (perActive x.g e) 1).modWarp e.k e.slot fun _ => _) ?_ (.recore ..)
    ((OnlyWarp.charge ..).modWarp _) (warp_modWarp _ (hs.charged ..)) ?_
  · change execPget x s = _
    unfold execPget
    refine issue_each hs hb ?_
    have h1 : (e.issuing s (perActive x.g e) 1).regTrap x.op (rowAt 0x55 x.op) (maskOf ((e.issuing s (perActive x.g e) 1).active x.g)) = none := ht
    simp only [h1, ite_self]
    rfl
  · refine (writeVecs_frame e.warp x.op.d 32 1 _ (List.range (0 + 2) |>.map (x.op.d + ·)) [] [] false (fun p hp => ?_) (fun i hi => ?_)).same
    · obtain ⟨i, _, rfl⟩ := List.mem_map.mp hp
      simp [pgetOut]
    · have : i < 2 := by simp at hi; omega
      simp only [List.mem_map, List.mem_range]
      exact ⟨i, by omega, rfl⟩

theorem foldl_same {α : Type} (l : List α) (f : Warp → α → Warp) (h : ∀ v a, a ∈ l → SameShape v (f v a)) (w : Warp) : SameShape w (l.foldl f w) := by
  induction l generalizing w with
  | nil => exact .refl _
  | cons a l ih => exact (h w a (List.mem_cons_self ..)).trans (ih (fun v b hb => h v b (List.mem_cons_of_mem _ hb)) _)

theorem modLane_same (w : Warp) (i : Nat) (f : Lane → Lane) (h : ∀ l : Lane, (f l).live = l.live) : SameShape w (w.modLane i f) := by
  refine ⟨rfl, fun j => ?_⟩
  by_cases hj : j = i
  · subst hj
    by_cases hl : j < w.lanes.length
    · rw [lane_modLane _ _ _ hl, h]
    · simp only [Warp.lane, Warp.modLane, List.getD]
      rw [List.getElem?_eq_none (by simpa using hl), List.getElem?_eq_none (by simpa using hl)]
  · rw [lane_modLane_other _ _ hj]

theorem setExec_same (w : Warp) (i : Nat) (m : Mask) : SameShape w (w.setExec i m) :=
  foldl_same (laneIds i) (fun w j => w.modLane j fun l => { l with exec := m.getLsbD j && l.live })
    (fun v j _ => modLane_same v j (fun l => { l with exec := m.getLsbD j && l.live }) fun _ => rfl) w

theorem swrWrite_same (e : Env) (code : Nat) (vals : List (Nat × Nat)) : SameShape e.warp (swrWrite e code vals) := by
  unfold swrWrite
  simp only
  split
  · exact ⟨rfl, fun _ => rfl⟩
  · exact foldl_same vals (fun w p => w.modLane p.1 fun l => { l with fpflags := BitVec.ofNat 32 (p.2 % 128) })
      (fun v p _ => modLane_same v p.1 (fun l => { l with fpflags := BitVec.ofNat 32 (p.2 % 128) }) fun _ => rfl) _
  · exact ⟨rfl, fun _ => rfl⟩
  · exact foldl_same _ _ (fun _ _ _ => setExec_same _ _ _) _

theorem swrWarp_same (s : State) (e : Env) (o : Op) : SameShape e.warp (swrWarp s e o) :=
  (free_same e.warp _).trans (swrWrite_same { e with warp := e.warp.free (e.frees o (rowAt 0x5C o)) } _ _)

theorem vague_element (hb : ElementMode e) (s : State) (o : Op) : swrVague s e o = false := by
  unfold swrVague
  have : (swrVals s e o).any (fun p => (e.warp.lane p.1).bounds && decide (p.2.lo ≠ p.2.hi)) = false := by
    rw [List.any_eq_false]
    intro p _
    simp [hb p.1]
  simp only [this, Bool.false_eq_true, and_false, decide_false]

theorem OnlyWarp.ctr {s t : State} {k slot : Nat} (h : OnlyWarp s t k slot) (n : Nat) : OnlyWarp s { t with freeCtr := n } k slot := h.free n

theorem Special.swr (hs : Steady s e) (hb : ElementMode e) (x : X96) (hw : swrWho e x.op ≠ [])
    (ht : e.regTrap x.op (rowAt 0x5C x.op) (maskOf (e.active x.g)) = none) :
    Completes (.swr x) s e 12 s (swrWarp (e.issued s (swrCost x.op e) 1) (e.issuing s (swrCost x.op e) 1) x.op) := by
  have hsame : SameShape e.warp (swrWarp (e.issued s (swrCost x.op e) 1) (e.issuing s (swrCost x.op e) 1) x.op) :=
    swrWarp_same _ (e.issuing s (swrCost x.op e) 1) x.op
  have hr := retired_of_done (e := e) (e1 := e.issuing s (swrCost x.op e) 1) (len := 12)
    (t := (e.issued s (swrCost x.op e) 1).modWarp e.k e.slot fun _ => swrWarp (e.issued s (swrCost x.op e) 1) (e.issuing s (swrCost x.op e) 1) x.op)
    ((OnlyWarp.charge s e.k e.slot _ 1 e.slot).modWarp _) rfl rfl rfl rfl (warp_modWarp _ (hs.charged ..)) (by rw [hsame.slices]; exact hs.slices)
    (by rw [hsame.gangSlices]; exact hs.live) (by rw [hsame.slices]; exact hs.settled)
  generalize hT : (e.issuing s (swrCost x.op e) 1).done 12 ((e.issued s (swrCost x.op e) 1).modWarp e.k e.slot fun _ =>
    swrWarp (e.issued s (swrCost x.op e) 1) (e.issuing s (swrCost x.op e) 1) x.op) = T at hr
  refine ⟨{ T with freeCtr := T.freeCtr + 32 }, ?_, hr.only.ctr _, hr.warp⟩
  change execSwr x s = _
  unfold execSwr
  refine issue_ok hs hb ?_
  obtain ⟨a, l, hal⟩ := List.exists_cons_of_ne_nil hw
  have h1 : swrWho (e.issuing s (swrCost x.op e) 1) x.op = a :: l := hal
  have h2 : (e.issuing s (swrCost x.op e) 1).regTrap x.op (rowAt 0x5C x.op) (maskOf ((e.issuing s (swrCost x.op e) 1).active x.op.g)) = none := ht
  have h3 : swrVague (e.issued s (swrCost x.op e) 1) (e.issuing s (swrCost x.op e) 1) x.op = false :=
    vague_element (e := e.issuing s (swrCost x.op e) 1) hb _ _
  change (match swrWho (e.issuing s (swrCost x.op e) 1) x.op with | [] => _ | _ => _) = _
  rw [h1]
  simp only
  change (match (e.issuing s (swrCost x.op e) 1).regTrap x.op (rowAt 0x5C x.op) (maskOf ((e.issuing s (swrCost x.op e) 1).active x.op.g)) with
    | some t => _ | none => _) = _
  rw [h2]
  change (if swrVague (e.issued s (swrCost x.op e) 1) (e.issuing s (swrCost x.op e) 1) x.op = true then _ else _) = _
  rw [h3, ← hT]
  rfl

theorem Special.region (hs : Steady s e) (hb : ElementMode e) (x : Long) (hg : unguarded (x.op 0).g = true ∨ e.active (x.op 0).g ≠ []) :
    Completes (.region x) s e (x.op 0).form.bytes s { e.warp with opbuf := (regionNames (x.op 0)).filter (· < e.team.n) } := by
  refine completes_done hs (e1 := e.issuing s 1 1)
    (s1 := (e.issued s 1 1).modWarp e.k e.slot fun w => { w with opbuf := (regionNames (x.op 0)).filter (· < e.team.n) }) ?_ (.recore ..)
    ((OnlyWarp.charge ..).modWarp _) (warp_modWarp _ (hs.charged ..)) ⟨rfl, fun _ => rfl⟩
  change execRegion x s = _
  unfold execRegion
  refine issue_one hs hb ?_
  have h1 : (unguarded (x.op 0).g || !((e.issuing s 1 1).active (x.op 0).g).isEmpty) = true := by
    rcases hg with h | h
    · simp [h]
    · have : (e.issuing s 1 1).active (x.op 0).g ≠ [] := h
      simp [this]
  simp only [h1, if_true]
  rfl

/-! ## System instructions -/

theorem systemInstr_ok {len : Nat} {f : State → Env → Except Trap State} {t : State} (hs : Steady s e) (hu : e.super = true)
    (h : f (e.issued s 1 1) (e.issuing s 1 1) = .ok t) : systemInstr s len f = .next t := by
  unfold systemInstr instr2 needSuper
  simp only [hs.env, hu, if_true]
  rw [envOf_charge hs.envOf]
  change (match (orTrap (e.issued s 1 1) (f (e.issued s 1 1) (e.issuing s 1 1))).2 with | none => _ | some t => _) = _
  rw [h]
  simp only [orTrap]
  change Host.Outcome.next (orTrap (e.issued s 1 1) (f (e.issued s 1 1) (e.issuing s 1 1))).1 = _
  rw [h]
  rfl

theorem Special.csrr (hs : Steady s e) (hu : e.super = true) (x : X96) {v : Nat} (h : (e.issued s 1 1).csr e.csrUser x.op.imm16 = some v) :
    Completes (.csrr x) s e 12 s (e.warp.writeUnis e.handling x.op.d 32 [svConst v]) := by
  refine completes_done hs (e1 := e.issuing s 1 1) (s1 := (e.issued s 1 1).modWarp e.k e.slot fun w => w.writeUnis e.handling x.op.d 32 [svConst v]) ?_
    (.recore ..) ((OnlyWarp.charge ..).modWarp _) (warp_modWarp _ (hs.charged ..)) ?_
  · change execCsrr x s = _
    unfold execCsrr
    refine systemInstr_ok hs hu ?_
    have h1 : (e.issued s 1 1).csr (e.issuing s 1 1).csrUser x.op.imm16 = some v := h
    simp only [h1]
    rfl
  · exact (writeUnis_frame e.warp e.handling x.op.d 32 1 [svConst v] [] ((List.range 2).map (x.op.d + ·)) [] false (by simp)
      (fun i hi => List.mem_map.mpr ⟨i, by simp at hi ⊢; omega, rfl⟩)).same

theorem sysReads_ok {opc : Nat} {x : Op} {f : State → Env → Except Trap State} {t : State} (h : e.regTrap x (rowAt opc x) (maskOf e.lanes) = none)
    (hf : f (e.issued s 1 1) (e.issuing s 1 1) = .ok t) : sysReads opc x f (e.issued s 1 1) (e.issuing s 1 1) = .ok t := by
  unfold sysReads
  rw [show (e.issuing s 1 1).regTrap x (rowAt opc x) (maskOf (e.issuing s 1 1).lanes) = none from h]
  exact hf

theorem Special.csrw (hs : Steady s e) (hu : e.super = true) (x : X96) (ht : e.regTrap x.op (rowAt 0xFB x.op) (maskOf e.lanes) = none) :
    exec (.csrw x) s = .next (((e.issuing s 1 1).done 12 ((e.issued s 1 1).drawn 1)).csrWrite e.csrUser x.op.imm16
      (pointOf (e.issued s 1 1) (sv1 (Env.srcs (e.issued s 1 1) (e.issuing s 1 1) x.op (rowAt 0xFB x.op) 0 0).a))) := by
  change execCsrw x s = _
  unfold execCsrw
  exact systemInstr_ok hs hu (sysReads_ok ht rfl)

theorem softTrap_takes (hs : Steady s e) (hb : ElementMode e) (len code : Nat) :
    softTrap s len code = .next ((e.issued s 1 1).takeTrap e.k e.slot e.gid { cls := 16, reason := code % 256, mask := maskOf e.lanes } len) := by
  unfold softTrap
  exact issue_trap hs hb rfl

theorem Special.waiti (hs : Steady s e) (hu : e.super = true) (x : C32R)
    (h : isFw e.k = false ∨ ((e.issued s 1 1).die (dieOf e.k)).interrupted = true) : Completes (.waiti x) s e 4 s e.warp := by
  refine completes_done hs (s1 := e.issued s 1 1) (e1 := e.issuing s 1 1) ?_ (.recore ..) (OnlyWarp.charge ..) (hs.charged ..) (.refl _)
  change execWaiti x s = _
  unfold execWaiti
  refine systemInstr_ok hs hu ?_
  refine if_pos ?_
  rcases h with h | h
  · left; rw [show (e.issuing s 1 1).k = e.k from rfl, h]; simp
  · right; exact h

theorem Special.halt_firmware (hs : Steady s e) (hu : e.super = true) (x : C32R) (hf : isFw e.k = true) :
    exec (.halt x) s = .next ((e.stall .halted (e.issued s 1 1)).modCore e.k fun (c : Core) => { c with halted := true }) := by
  change execHalt x s = _
  unfold execHalt
  refine systemInstr_ok hs hu ?_
  exact if_pos hf

theorem Special.halt_handler (hs : Steady s e) (hu : e.super = true) (x : C32R) (hf : isFw e.k = false) :
    exec (.halt x) s = .next ((e.issued s 1 1).teamError 16 e.k e.warp.team) := by
  change execHalt x s = _
  unfold execHalt
  refine systemInstr_ok hs hu ?_
  exact if_neg (by rw [show (e.issuing s 1 1).k = e.k from rfl, hf]; simp)

theorem tlbi_ok {x : Op} {drop : State → Env → TlbEnt → Bool} (hs : Steady s e) (hu : e.super = true)
    (ht : e.regTrap x (rowAt 0xFD x) (maskOf e.lanes) = none) :
    tlbi s x drop = .next (
      let s1 := dropped (e.issued s 1 1) (drop (e.issued s 1 1) (e.issuing s 1 1))
      let marks := s1.cores.map fun c => (c.1, c.2.seq)
      if s1.tlbiDone marks then e.done 12 s1 else e.stall (.tlbi marks 12) s1) := by
  unfold tlbi
  exact systemInstr_ok hs hu (sysReads_ok ht rfl)

/-- RTE in either mode. -/
theorem rte_ok {skip : Bool} (hs : Steady s e) (hu : e.super = true) (hh : e.handling = true) :
    rte s skip = .next (
      let w := e.warp.returnFrom e.gid skip
      let w1 := ((w.gangSlices e.gid).foldl (fun w i => w.markEmpty i e.warp.tsexec) w).unwindEnded e.gid false (w.pcOf e.gid)
      ((((e.issued s 1 1).modWarp e.k e.slot fun _ => w1).partGang e.k e.slot e.gid).settleTeam e.k e.warp.team)) := by
  unfold rte
  refine systemInstr_ok hs hu ?_
  have h1 : (e.issuing s 1 1).handling = true := hh
  simp only [h1, not_true_eq_false, if_false]
  rfl

end Sys2Proof.Machine
end

