-- ==== Sys2Proof/Laws/Mem.lean ====
section
/-!
SUPPORT. How memory instructions complete: performing an access keeps the shape of the warp, and an instruction whose accesses are all
performed retires.
-/
namespace Sys2Proof.Machine
variable {s : State} {e : Env}

/-! ## Updates that leave a core's warps -/

theorem warp_modCore (s : State) (k : Nat) (f : Core → Core) (h : (f (s.core k)).warps = (s.core k).warps) (k' j : Nat) :
    (s.modCore k f).warp? k' j = s.warp? k' j := by
  by_cases hk : k' = k
  · subst hk; simp [State.warp?, h]
  · simp [State.warp?, core_modCore_other s f hk]

@[simp] theorem track_warp (s : State) (e : Env) (p : Place) (a b k j : Nat) : (s.track e p a b).warp? k j = s.warp? k j := by
  unfold State.track; split <;> rfl
@[simp] theorem fetchSector_warp (s : State) (k x k' j : Nat) : (s.fetchSector k x).warp? k' j = s.warp? k' j := warp_modCore _ _ _ rfl _ _
@[simp] theorem homeWrite_warp (s : State) (p : Place) (bs : List Byte) (k j : Nat) : (s.homeWrite p bs).warp? k j = s.warp? k j := by
  unfold State.homeWrite; split
  · rfl
  · exact warp_modCore _ _ _ rfl _ _
  · rfl
  · rfl
theorem cvUpdate_warps (c : Core) (pa : Nat) (bs : List Byte) : (c.cvUpdate pa bs).warps = c.warps := by
  unfold Core.cvUpdate; split <;> rfl
@[simp] theorem modTeam_warp (s : State) (k t : Nat) (f : Team → Team) (k' j : Nat) : (s.modTeam k t f).warp? k' j = s.warp? k' j :=
  warp_modCore _ _ _ (by unfold Core.modTeam; split <;> rfl) _ _

theorem pushSq_warp {s : State} {k slot : Nat} {w : Warp} (h : s.warp? k slot = some w) (x : WEnt) :
    ∃ w', (s.pushSq k slot x).warp? k slot = some w' ∧ SameShape w w' := by
  have h' : alook slot (s.core k).warps = some w := h
  refine ⟨{ w with sq := w.sq ++ [{ x with seq := (s.core k).seq }] }, ?_, rfl, fun _ => rfl⟩
  simp only [State.warp?, State.pushSq, core_modCore, Core.modWarp, h', alook_put_same]

theorem acquire_warp {s : State} {k slot : Nat} {w : Warp} (h : s.warp? k slot = some w) (n : Nat) :
    ∃ w', (s.acquire k slot n).warp? k slot = some w' ∧ SameShape w w' := by
  unfold State.acquire
  split
  · exact ⟨_, warp_modWarp _ h, rfl, fun _ => rfl⟩
  · exact ⟨w, h, .refl _⟩

theorem bindLoad_warp {s t : State} {k slot : Nat} {p : Place} {n d st : Nat} {bs : List Byte} (h : s.bindLoad k slot p n d = some (bs, st, t)) (k' j : Nat) :
    t.warp? k' j = s.warp? k' j := by
  unfold State.bindLoad at h
  split at h
  · cases h
  · simp only at h
    split at h
    · cases h
    · split at h
      · injection h with h
        injection h with _ h
        injection h with _ h
        rw [← h]
        split
        · split
          · split
            · rfl
            · exact fetchSector_warp ..
          · exact fetchSector_warp ..
        · rfl
      · cases h; rfl
      · cases h; rfl

theorem putLoad_same (w : Warp) (b : Bool) (lane d : Nat) (uni : Bool) (t : Nat) (vals : List SV) : SameShape w (w.putLoad b lane d uni t vals) := by
  unfold Warp.putLoad
  split
  · exact (writeUnis_frame w b d (tyRegs t) vals.length vals [] ((List.range (vals.length * 2)).map (d + ·)) [] false (Nat.le_refl _) fun i hi =>
      List.mem_map.mpr ⟨i, by simp only [List.mem_range]; split at hi <;> omega, rfl⟩).same
  · exact (writeVecs_frame w d (tyRegs t) vals.length [(lane, vals)] ((List.range (vals.length * 2)).map (d + ·)) [] [] false
      (by simp) fun i hi => List.mem_map.mpr ⟨i, by simp only [List.mem_range]; split at hi <;> omega, rfl⟩).same

@[simp] theorem trackAcc_warp (s : State) (e : Env) (a : Acc) (h : Hit) (k j : Nat) : (s.trackAcc e a h).warp? k j = s.warp? k j := by
  unfold State.trackAcc
  split
  · exact track_warp ..
  · rfl

@[simp] theorem atomWrite_warp (s : State) (k : Nat) (p : Place) (bs : List Byte) (k' j : Nat) : (s.atomWrite k p bs).warp? k' j = s.warp? k' j := by
  unfold State.atomWrite
  simp only
  split
  · rw [warp_modCore _ _ _ (cvUpdate_warps ..)]; exact homeWrite_warp ..
  · exact homeWrite_warp ..

/-- A load's elements written, and its acquire. -/
theorem loadPart {s : State} {w : Warp} (h : s.warp? e.k e.slot = some w) (l d : Nat) (u : Bool) (ty : Nat) (vals : List SV) (n : Nat) :
    ∃ w', ((s.modWarp e.k e.slot fun w => w.putLoad e.handling l d u ty vals).acquire e.k e.slot n).warp? e.k e.slot = some w' ∧ SameShape w w' := by
  obtain ⟨w', h2, h3⟩ := acquire_warp (warp_modWarp (fun w => w.putLoad e.handling l d u ty vals) h) n
  exact ⟨w', h2, (putLoad_same w e.handling l d u ty vals).trans h3⟩

@[simp] theorem atomHome_warp (s : State) (k : Nat) (p : Place) (a : Acc) (k' j : Nat) : (s.atomHome k p a).1.warp? k' j = s.warp? k' j := by
  unfold State.atomHome
  simp only
  split
  · rfl
  · exact atomWrite_warp ..

theorem atomAt_warp {s t : State} {a : Acc} {h : Hit} {w w0 : Warp} (hw : s.warp? e.k e.slot = some w) (hp : s.atomAt e w0 a h = some t) :
    ∃ w', t.warp? e.k e.slot = some w' ∧ SameShape w w' := by
  unfold State.atomAt at hp
  split at hp
  · cases hp
  · injection hp with hp
    rw [← hp]
    exact loadPart (by rw [atomHome_warp]; exact hw) ..

/-- Performing an access leaves the gang's slices and live threads. -/
theorem performAcc_warp {s t : State} {a : Acc} {h : Hit} {w : Warp} (hw : s.warp? e.k e.slot = some w) (hp : s.performAcc e a h = some t) :
    ∃ w', t.warp? e.k e.slot = some w' ∧ SameShape w w' := by
  unfold State.performAcc at hp
  simp only [hw] at hp
  split at hp
  · cases hp; exact ⟨w, hw, .refl _⟩
  · cases hp; exact pushSq_warp hw _
  · split at hp
    · unfold State.addRed at hp
      split at hp
      · obtain ⟨tm, _, rfl⟩ := Option.map_eq_some_iff.mp hp
        exact ⟨w, by rw [modTeam_warp]; exact hw, .refl _⟩
      · cases hp
    · cases hp; exact pushSq_warp hw _
  · unfold State.loadAt at hp
    split at hp
    · cases hp
    · split at hp
      · cases hp
      · rename_i bs st s1 hbind
        injection hp with hp
        rw [← hp]
        exact loadPart (by rw [bindLoad_warp hbind]; exact hw) ..
  · exact atomAt_warp hw hp
  · exact atomAt_warp hw hp

@[simp] theorem addWalk_warp (s : State) (d c va k j : Nat) : (s.addWalk d c va).warp? k j = s.warp? k j := by
  rfl

/-- Trying accesses leaves the gang's slices and live threads. -/
theorem tryAccs_warp (p : Party) (l : List Acc) (go : Nat) {s : State} {w : Warp} (hw : s.warp? e.k e.slot = some w) :
    ∃ w', (State.tryAccs e p go l s).1.warp? e.k e.slot = some w' ∧ SameShape w w' := by
  induction l generalizing s w go with
  | nil => exact ⟨w, hw, .refl _⟩
  | cons a rest ih =>
    unfold State.tryAccs
    split
    · split
      · rename_i hp
        obtain ⟨w1, h1, h2⟩ := performAcc_warp hw hp
        obtain ⟨w2, h3, h4⟩ := ih _ h1
        exact ⟨w2, h3, h2.trans h4⟩
      · exact ih _ hw
    · exact ih _ hw
    · exact ih _ (by rw [addWalk_warp]; exact hw)
    · exact ih _ hw

/-- A fold of updates that leave a core's warps. -/
theorem foldl_warp {α : Type} (l : List α) (f : State → α → State) (h : ∀ s a k j, (f s a).warp? k j = s.warp? k j) (s : State) (k j : Nat) :
    (l.foldl f s).warp? k j = s.warp? k j := by
  induction l generalizing s with
  | nil => rfl
  | cons a l ih => simp only [List.foldl_cons]; rw [ih, h]

@[simp] theorem trackAll_warp (s : State) (e : Env) (p : Party) (l : List Acc) (k j : Nat) : (s.trackAll e p l).warp? k j = s.warp? k j := by
  refine foldl_warp l _ (fun s a k j => ?_) s k j
  split
  · exact trackAcc_warp ..
  · rfl

@[simp] theorem keepKeys_warp (s : State) (e : Env) (l : List Acc) (k j : Nat) : (s.keepKeys e l).warp? k j = s.warp? k j :=
  foldl_warp _ _ (fun s _ k j => modTeam_warp s _ _ _ k j) s k j

/-- Performing what is at hand leaves the gang's slices and live threads. -/
theorem performed_warp (l : List Acc) {s : State} {w : Warp} (hw : s.warp? e.k e.slot = some w) :
    ∃ w', (performed s e l).1.warp? e.k e.slot = some w' ∧ SameShape w w' :=
  tryAccs_warp _ l _ (by rw [trackAll_warp, keepKeys_warp]; exact hw)

/-! ## The course of a memory instruction -/

theorem freeAfter_same (w : Warp) (f d : List Nat) (m : Mask) : SameShape w (w.freeAfter f d m) := by
  have h := free_same w (f.filter fun n => !((if m = 0 then [] else f.filter d.contains).contains n))
  exact ⟨h.slices, h.live⟩

theorem memRetired_same (e : Env) (w : Warp) (m : MemWait) : SameShape w (memRetired e w m) := by
  unfold memRetired
  simp only
  split
  · rename_i d n _
    exact (freeAfter_same w _ _ _).trans (writeUnis_frame _ e.handling d 32 1 [svConst n] [] ((List.range 2).map (d + ·)) [] false (by simp)
      (fun i hi => List.mem_map.mpr ⟨i, by simp at hi ⊢; omega, rfl⟩)).same
  · exact freeAfter_same w _ _ _

/-- With nothing left and no delivery, the instruction retires. -/
theorem finishMem_done {t : State} {e : Env} {m : MemWait} {w : Warp} (hw : t.warp? e.k e.slot = some w) (hd : m.deliv = []) (ha : m.again = false) :
    ∃ t1, t.finishMem e m = e.done m.len t1 ∧ t1.warp? e.k e.slot = some (memRetired e w m) ∧ ∀ s k', OnlyWarp s t k' e.slot → k' = e.k → OnlyWarp s t1 k' e.slot := by
  unfold State.finishMem memRetired
  rw [hd]
  simp only [ha, Bool.false_eq_true, if_false]
  cases hc : m.count with
  | none =>
    refine ⟨_, rfl, warp_modWarp _ hw, ?_⟩
    rintro s k' h rfl
    exact h.modWarp _
  | some q =>
    obtain ⟨d, n⟩ := q
    refine ⟨_, rfl, warp_modWarp _ (warp_modWarp _ hw), ?_⟩
    rintro s k' h rfl
    exact (h.modWarp _).modWarp _

/-- An instruction whose accesses have all been performed completes in the machine they leave. -/
theorem completes_finish {i : Instr} {s t : State} {e e1 : Env} {m : MemWait} {w : Warp} (hs : Steady s e) (h : exec i s = .next (t.finishMem e1 m))
    (he : Issuer e e1) (hw : t.warp? e.k e.slot = some w) (hsh : SameShape e.warp w) (hd : m.deliv = []) (ha : m.again = false) :
    Completes i s e m.len t (memRetired e1 w m) := by
  obtain ⟨t1, h1, h2, h3⟩ := finishMem_done (e := e1) (m := m) (by rw [he.k, he.slot]; exact hw) hd ha
  rw [h1] at h
  rw [he.k, he.slot] at h2
  exact completes_done hs h he (by have := h3 t e.k (by rw [he.slot]; exact .refl ..) he.k.symm; rw [he.slot] at this; exact this) h2
    (hsh.trans (memRetired_same ..))

/-- What a finished memory instruction leaves to retire. -/
def MemWait.spent (m : MemWait) (accs : List Acc) : MemWait :=
  { m with accs := [], done := m.done ||| doneLanes ((accs.map (·.lane)).eraseDups) [], checked := true }

theorem startMem_ok {s1 : State} {e : Env} {m : MemWait} (h : AtOnce s1 e m.accs) (hd : m.deliv = []) :
    s1.startMem e m = .ok ((performed s1 e m.accs).1.finishMem e (m.spent m.accs)) := by
  have hf : ((m.accs.map (·.lane)).eraseDups).filter (fun i => !(m.deliv.any fun d => d.2.2.getLsbD i)) = (m.accs.map (·.lane)).eraseDups := by
    rw [hd]; exact List.filter_eq_self.mpr fun _ _ => rfl
  unfold State.startMem MemWait.spent
  simp only [h.known, Bool.false_eq_true, if_false, h.races, h.all, hf]

theorem min_nil : ([] : List Nat).min? = none := rfl

/-- The course with nothing in its way. -/
theorem memCourse_ok {f : MemForm} {s : State} {e : Env} (hact : e.active f.x.g ≠ []) (htop : ∀ q ∈ memReqs f.x f.req s e, q.2.top = none)
    (hf : f.Free s e) :
    memCourse f.opc f.x f.pre f.count f.req [] s e = ((performed s e (f.accs s e)).1.finishMem e ((f.wait e).spent (f.accs s e)), none) := by
  have htops : ((memReqs f.x f.req s e).filterMap fun q => q.2.top.map fun t => (q.1, t)) = [] := by
    rw [List.filterMap_eq_nil_iff]
    intro q hq
    rw [htop q hq]; rfl
  have hstart := startMem_ok (m := { f.wait e with accs := f.accs s e }) hf.runs hf.fresh
  have hreas : (f.pre e ++ ((memReqs f.x f.req s e).flatMap fun q => q.2.reasons) ++ s.fullReason e (memAccs f.x f.req s e)) = [] := hf.reasons
  obtain ⟨a, l, hal⟩ := List.exists_cons_of_ne_nil hact
  have hreg := hf.regs
  rw [hal] at hreg
  unfold memCourse
  simp only [hal, hreg, hreas, min_nil, htops]
  change (match s.startMem e { f.wait e with accs := f.accs s e } with | .ok s1 => _ | .error t => _) = _
  rw [hstart]
  rfl

/-- A per-thread memory instruction with nothing in its way completes: its accesses are performed in lane order, and it retires. -/
theorem memInstr_completes {i : Instr} {f : MemForm} {ev : Env → Nat → Bool} (hs : Steady s e) (hb : ElementMode e)
    (hx : exec i s = memInstr s f.opc f.x f.store ev f.pre f.count f.req) (hact : e.active f.x.g ≠ [])
    (htop : ∀ q ∈ memReqs f.x f.req (e.issued s (perActive f.x.g e) 1) (e.issuing s (perActive f.x.g e) 1), q.2.top = none)
    (hf : f.Free (e.issued s (perActive f.x.g e) 1) (e.issuing s (perActive f.x.g e) 1)) :
    ∃ w, (f.after s e).warp? e.k e.slot = some w ∧
      Completes i s e f.x.form.bytes (f.after s e) (memRetired e w (f.wait (e.issuing s (perActive f.x.g e) 1))) := by
  obtain ⟨w, hw1, hw2⟩ := performed_warp (e := e.issuing s (perActive f.x.g e) 1)
    (f.accs (e.issued s (perActive f.x.g e) 1) (e.issuing s (perActive f.x.g e) 1)) (s := e.issued s (perActive f.x.g e) 1) (w := e.warp) (hs.charged ..)
  refine ⟨w, hw1, ?_⟩
  have hrun := memCourse_ok (s := e.issued s (perActive f.x.g e) 1) (e := e.issuing s (perActive f.x.g e) 1) hact htop hf
  refine completes_finish (i := i) (s := s) (e := e) (m := (f.wait (e.issuing s (perActive f.x.g e) 1)).spent (f.accs (e.issued s (perActive f.x.g e) 1) (e.issuing s (perActive f.x.g e) 1))) (w := w) hs ?_
    (.recore ..) hw1 hw2 hf.fresh rfl
  rw [hx]
  unfold memInstr
  rw [issued_element hs hb]
  change answer e _ (memCourse f.opc f.x f.pre f.count f.req [] (e.issued s (perActive f.x.g e) 1) (e.issuing s (perActive f.x.g e) 1)) = _
  rw [hrun]
  rfl

/-! ## What threads ask for outside bounds mode -/

theorem addrSum_point (a q : List SV) (d : Int) (sg : Bool) : (addrSum false a q d sg).point = true := rfl
theorem glbAddr_point (hb : ElementMode e) (s : State) (x : Op) (r : Row) (i : Nat) : (glbAddr s e x r i).point = true := by
  unfold glbAddr; simp only [hb i]; rfl
theorem scrAddrOf_point (hb : ElementMode e) (s : State) (x : Op) (r : Row) (i : Nat) : (scrAddrOf s e x r i).1.point = true := by
  unfold scrAddrOf; simp only [hb i]; rfl
theorem coordAddrOf_point (hb : ElementMode e) (s : State) (x : Op) (r : Row) (i : Nat) : (coordAddrOf s e x r i).1.point = true := by
  unfold coordAddrOf; simp only [hb i]; rfl
theorem memReq_top (s : State) (e : Env) (b : Bool) (a : Acc) : (memReq s e b a).top = none := rfl
theorem scrReq_top (s : State) (e : Env) (sa : ScrAddr) (o : Int) (n : Nat) (b : Bool) (a : Acc) : (scrReq s e sa o n b a).top = none := by
  unfold scrReq; simp only; split <;> rfl
theorem coordReq_top (s : State) (e : Env) (x : Op) (opc l n : Nat) (b : Bool) (a : Acc) : (coordReq s e x opc l n b a).top = none := by
  unfold coordReq; simp only; split
  · rfl
  · exact scrReq_top ..

/-- A table row says how its instruction runs. -/
theorem memForm_exec {i : Instr} {f : MemForm} (h : memForm i = some f) :
    ∃ ev : State → Env → Nat → Bool, ∀ s, exec i s = memInstr s f.opc f.x f.store (ev s) f.pre f.count f.req := by
  cases i <;> simp only [memForm, Option.some.injEq, reduceCtorEq] at h <;> subst h
  case ld x => exact ⟨fun s => glbE s 0xC0 (x.op 0), fun _ => rfl⟩
  case st x => exact ⟨fun _ _ _ => false, fun _ => rfl⟩
  case ldsC32 x => exact ⟨fun s => scrE s 0xC2 (x.op 0), fun _ => rfl⟩
  case lds x => exact ⟨fun s => scrE s 0xC2 x.op, fun _ => rfl⟩
  case stsC32 x => exact ⟨fun _ _ _ => false, fun _ => rfl⟩
  case sts x => exact ⟨fun _ _ _ => false, fun _ => rfl⟩
  case ldw x => exact ⟨fun s => coordE s 0xC4 x.op, fun _ => rfl⟩
  case stw x => exact ⟨fun _ _ _ => false, fun _ => rfl⟩
  case ldwt x => exact ⟨fun s => scrE s 0xC8 x.op, fun _ => rfl⟩
  case cstore x => exact ⟨fun _ _ _ => false, fun _ => rfl⟩
  case xload x => exact ⟨fun s => glbE s 0xCC x.op, fun _ => rfl⟩
  case atom x => exact ⟨fun _ _ _ => false, fun _ => rfl⟩
  case atoms x => exact ⟨fun _ _ _ => false, fun _ => rfl⟩
  case atomw x => exact ⟨fun _ _ _ => false, fun _ => rfl⟩
  case red x => exact ⟨fun _ _ _ => false, fun _ => rfl⟩
  case reds x => exact ⟨fun _ _ _ => false, fun _ => rfl⟩
  case cas x => exact ⟨fun _ _ _ => false, fun _ => rfl⟩

theorem memForm_top {i : Instr} {f : MemForm} (h : memForm i = some f) (s : State) {e : Env} (hb : ElementMode e) (j : Nat) : (f.req s e j).top = none := by
  cases i <;> simp only [memForm, Option.some.injEq, reduceCtorEq] at h <;> subst h
  all_goals
    simp only [ldReq, stReq, ldsReq, stsReq, ldwReq, stwReq, ldwtReq, cstoreReq, xloadReq, atomReq, atomsReq, atomwReq, redReq, redsReq, casReq,
      glbAddr_point hb, scrAddrOf_point hb, coordAddrOf_point hb, hb j, addrSum_point, if_true, not_true_eq_false, if_false, memReq_top, scrReq_top,
      coordReq_top]
  split <;> simp only [memReq_top, scrReq_top]

/-- Every per-thread memory instruction with nothing in its way completes. -/
theorem memForm_completes {i : Instr} {f : MemForm} (h : memForm i = some f) (hs : Steady s e) (hb : ElementMode e) (hact : e.active f.x.g ≠ [])
    (hf : f.Free (e.issued s (perActive f.x.g e) 1) (e.issuing s (perActive f.x.g e) 1)) :
    ∃ w, (f.after s e).warp? e.k e.slot = some w ∧
      Completes i s e f.x.form.bytes (f.after s e) (memRetired e w (f.wait (e.issuing s (perActive f.x.g e) 1))) := by
  obtain ⟨ev, hx⟩ := memForm_exec h
  refine memInstr_completes hs hb (hx s) hact (fun q hq => ?_) hf
  obtain ⟨j, _, rfl⟩ := List.mem_map.mp hq
  exact memForm_top h _ (e := e.issuing s (perActive f.x.g e) 1) hb j

/-- With no active thread it changes nothing but what its last-read bits free. -/
theorem memForm_idle {i : Instr} {f : MemForm} (h : memForm i = some f) (hs : Steady s e) (hb : ElementMode e) (hd : e.gang.deliv = [])
    (hact : e.active f.x.g = []) :
    Completes i s e f.x.form.bytes s (memRetired e e.warp (f.wait (e.issuing s (perActive f.x.g e) 1))) := by
  obtain ⟨ev, hx⟩ := memForm_exec h
  obtain ⟨t1, h1, h2, h3⟩ := finishMem_done (t := e.issued s (perActive f.x.g e) 1) (e := e.issuing s (perActive f.x.g e) 1)
    (m := f.wait (e.issuing s (perActive f.x.g e) 1)) (w := e.warp) (hs.charged ..) hd rfl
  refine completes_done hs (e1 := e.issuing s (perActive f.x.g e) 1) (s1 := t1) ?_ (.recore ..) (h3 s e.k (OnlyWarp.charge ..) rfl) h2 (memRetired_same ..)
  rw [hx]
  unfold memInstr
  rw [issued_element hs hb]
  change answer e _ (memCourse f.opc f.x f.pre f.count f.req [] (e.issued s (perActive f.x.g e) 1) (e.issuing s (perActive f.x.g e) 1)) = _
  unfold memCourse
  have hact' : (e.issuing s (perActive f.x.g e) 1).active f.x.g = [] := hact
  simp only [hact']
  exact congrArg Host.Outcome.next h1

end Sys2Proof.Machine
end

