-- ==== Sys2Proof/Laws/Mem2.lean ====
section
/-!
SUPPORT. How the other memory instructions complete: SLD and SST, FENCE, PREF, PROBE, CCTL, STF and LDSM.
-/
namespace Sys2Proof.Machine
variable {s : State} {e : Env}

theorem onceForm_exec {i : Instr} {f : Nat × Op × (State → Env → Nat → MemReq)} (h : onceForm i = some f) :
    ∃ st : Bool, ∀ s, exec i s = memOnce s f.1 f.2.1 st f.2.2 := by
  cases i <;> simp only [onceForm, Option.some.injEq, reduceCtorEq] at h <;> subst h
  case sld x => exact ⟨false, fun _ => rfl⟩
  case sst x => exact ⟨true, fun _ => rfl⟩

theorem onceForm_top {i : Instr} {f : Nat × Op × (State → Env → Nat → MemReq)} (h : onceForm i = some f) (s : State) {e : Env} (hb : ElementMode e)
    (j : Nat) : (f.2.2 s e j).top = none := by
  cases i <;> simp only [onceForm, Option.some.injEq, reduceCtorEq] at h <;> subst h
  all_goals simp only [sldReq, sstReq, glbAddr_point hb, if_true, memReq_top]

/-- SLD and SST with nothing in their way complete. -/
theorem onceForm_completes {i : Instr} {opc : Nat} {x : Op} {req : State → Env → Nat → MemReq} (h : onceForm i = some (opc, x, req)) (hs : Steady s e)
    (hb : ElementMode e) (hf : OnceFree opc x req (e.paid s opc x) (e.paying s opc x)) :
    ∃ w, (performed (e.paid s opc x) (e.paying s opc x) (req (e.paid s opc x) (e.paying s opc x) ((e.active x.g).headD 0)).accs).1.warp? e.k e.slot = some w ∧
      Completes i s e x.form.bytes (performed (e.paid s opc x) (e.paying s opc x) (req (e.paid s opc x) (e.paying s opc x) ((e.active x.g).headD 0)).accs).1
        (memRetired e w (onceBase opc x e)) := by
  obtain ⟨st, hx⟩ := onceForm_exec h
  have htop := onceForm_top h (e.paid s opc x) (e := e.paying s opc x) hb ((e.active x.g).headD 0)
  obtain ⟨w, hw1, hw2⟩ := performed_warp (e := e.paying s opc x)
    (req (e.paid s opc x) (e.paying s opc x) ((e.active x.g).headD 0)).accs (s := e.paid s opc x) (w := e.warp) (hs.charged ..)
  refine ⟨w, hw1, ?_⟩
  have hstart := startMem_ok (m := { onceBase opc x e with accs := (req (e.paid s opc x) (e.paying s opc x) ((e.active x.g).headD 0)).accs }) hf.runs rfl
  refine completes_finish (e1 := e.paying s opc x) (i := i) (s := s) (e := e) (m := (onceBase opc x e).spent (req (e.paid s opc x) (e.paying s opc x) ((e.active x.g).headD 0)).accs) (w := w) hs ?_ (.recore ..) hw1 hw2 rfl rfl
  rw [hx]
  unfold memOnce
  rw [issued_element hs hb]
  change answer e _ (memOnceCourse opc x req [] (e.paid s opc x) (e.paying s opc x)) = _
  have hact : ¬ ((e.paying s opc x).active x.g = [] ∧ (¬ unguarded x.g = true ∨ ([] : List Nat) ≠ [])) := by
    rintro ⟨h1, h2 | h2⟩
    · rcases hf.acts with h3 | h3
      · exact h2 h3
      · exact h3 h1
    · exact h2 rfl
  have hreas : (req (e.paid s opc x) (e.paying s opc x) (((e.paying s opc x).active x.g).headD 0)).reasons = [] := hf.reasons
  have htop' : (req (e.paid s opc x) (e.paying s opc x) (((e.paying s opc x).active x.g).headD 0)).top = none := htop
  unfold memOnceCourse
  rw [if_neg hact]
  simp only [hf.regs, hreas, min_nil, htop']
  change answer e _ (match (e.paid s opc x).startMem (e.paying s opc x) { onceBase opc x e with accs := (req (e.paid s opc x) (e.paying s opc x) ((e.active x.g).headD 0)).accs } with
    | .ok s1 => (s1, none) | .error t => (e.paid s opc x, some t)) = _
  rw [hstart]
  rfl

/-! ## FENCE -/

theorem acquire_only {s t : State} {k slot : Nat} (h : OnlyWarp s t k slot) (n : Nat) : OnlyWarp s (t.acquire k slot n) k slot := by
  unfold State.acquire
  split
  · exact h.modWarp _
  · exact h

theorem acquire_is {s : State} {k slot : Nat} {w : Warp} (h : s.warp? k slot = some w) (n : Nat) :
    (s.acquire k slot n).warp? k slot = some (acquired s k n w) := by
  unfold State.acquire acquired
  split
  · exact warp_modWarp _ h
  · exact h

theorem acquired_same (s : State) (k n : Nat) (w : Warp) : SameShape w (acquired s k n w) := by
  unfold acquired; split
  · exact ⟨rfl, fun _ => rfl⟩
  · exact .refl _

theorem fence_warp (hs : Steady s e) (hb : ElementMode e) (len : Nat) (g : Guard) :
    fence s len 0 g = .next ((e.issuing s 1 1).done len ((e.issued s 1 1).acquire e.k e.slot 2)) := by
  unfold fence control
  exact issue_one hs hb rfl

theorem fence_done (hs : Steady s e) (hb : ElementMode e) (len scope : Nat) (g : Guard) (h0 : scope ≠ 0)
    (h : fenceDone ((e.issued s 1 1).core e.k) e.slot scope ((e.issued s 1 1).core e.k).seq = true) :
    fence s len scope g = .next ((e.issuing s 1 1).done len ((e.issued s 1 1).acquire e.k e.slot scope)) := by
  unfold fence control
  refine issue_one hs hb ?_
  exact (if_neg h0).trans (if_pos h)

theorem fence_waits (hs : Steady s e) (hb : ElementMode e) (len scope : Nat) (g : Guard) (h0 : scope ≠ 0)
    (h : fenceDone ((e.issued s 1 1).core e.k) e.slot scope ((e.issued s 1 1).core e.k).seq = false) :
    fence s len scope g = .next (e.stall (.fence scope ((e.issued s 1 1).core e.k).seq len) (e.issued s 1 1)) := by
  unfold fence control
  refine issue_one hs hb ?_
  exact (if_neg h0).trans (if_neg (by rw [show (e.issuing s 1 1).k = e.k from rfl, show (e.issuing s 1 1).slot = e.slot from rfl, h]; simp))

theorem Mem.fenceC32 (hs : Steady s e) (hb : ElementMode e) (x : C32R) :
    Completes (.fenceC32 x) s e 4 s (acquired (e.issued s 1 1) e.k 2 e.warp) :=
  completes_done hs (show execFenceC32 x s = _ from fence_warp hs hb 4 x.g) (.recore ..) (acquire_only (OnlyWarp.charge ..) 2) (acquire_is (hs.charged ..) 2)
    (acquired_same ..)

theorem Mem.fence (hs : Steady s e) (hb : ElementMode e) (x : X96) (h0 : x.op.scope ≠ 0)
    (h : fenceDone ((e.issued s 1 1).core e.k) e.slot x.op.scope ((e.issued s 1 1).core e.k).seq = true) :
    Completes (.fence x) s e 12 s (acquired (e.issued s 1 1) e.k x.op.scope e.warp) :=
  completes_done hs (show execFence x s = _ from fence_done hs hb 12 x.op.scope x.g h0 h) (.recore ..) (acquire_only (OnlyWarp.charge ..) _)
    (acquire_is (hs.charged ..) _) (acquired_same ..)

/-! ## PREF and CCTL -/

theorem prefFetch_warp (s : State) (e : Env) (x : Op) (k j : Nat) : (prefFetch s e x).warp? k j = s.warp? k j := by
  unfold prefFetch
  split
  · rfl
  · have key : ∀ (l : List Nat) (t : State), (l.foldl (fun s i =>
        let a := glbAddr s e x (rowAt 0xD4 x) i
        match a.point, quietPlace s (Env.party s e) a.va.toNat with
        | true, some { place := .mem pa, .. } => s.fetchSector e.k (pa / 32)
        | _, _ => s) t).warp? k j = t.warp? k j := by
      intro l
      induction l with
      | nil => intro t; rfl
      | cons a l ih =>
        intro t
        simp only [List.foldl_cons]
        rw [ih]
        split
        · exact fetchSector_warp ..
        · rfl
    exact key _ _

theorem Mem.pref (hs : Steady s e) (hb : ElementMode e) (x : X96) :
    Completes (.pref x) s e 12 (prefFetch (e.issued s (perActive x.op.g e) 1) (e.issuing s (perActive x.op.g e) 1) x.op)
      (memRetired e e.warp (quietWait e 0xD4 x.op (maskOf (e.active x.op.g)))) := by
  refine completes_finish (m := quietWait e 0xD4 x.op (maskOf (e.active x.op.g))) (e1 := e.issuing s (perActive x.op.g e) 1) (w := e.warp) hs ?_ (.recore ..)
    (by rw [prefFetch_warp]; exact hs.charged ..) (.refl _) rfl rfl
  change execPref x s = _
  unfold execPref
  exact issue_each hs hb rfl

theorem cctlDrop_warp (s : State) (e : Env) (x : Op) (k j : Nat) : (cctlDrop s e x).warp? k j = s.warp? k j := by
  unfold cctlDrop
  split
  · exact warp_modCore _ _ _ rfl _ _
  · simp only
    split
    · exact warp_modCore _ _ _ rfl _ _
    · rfl

theorem cctl_ok {x : Op} (hs : Steady s e) (hb : ElementMode e) (hg : unguarded x.g = true ∨ e.active x.g ≠ [])
    (ht : e.regTrap x (rowAt 0xD6 x) (maskOf (e.active x.g)) = none) :
    cctl s x = .next ((cctlDrop (e.paid s 0xD6 x) (e.paying s 0xD6 x) x).finishMem (e.paying s 0xD6 x) (quietWait e 0xD6 x 0)) := by
  unfold cctl
  refine issue_paid hs hb ?_
  have h1 : ¬ ((e.paying s 0xD6 x).active x.g = [] ∧ ¬ unguarded x.g = true) := by
    rintro ⟨h1, h2⟩
    rcases hg with h3 | h3
    · exact h2 h3
    · exact h3 h1
  have h2 : (e.paying s 0xD6 x).regTrap x (rowAt 0xD6 x) (maskOf ((e.paying s 0xD6 x).active x.g)) = none := ht
  refine (if_neg h1).trans ?_
  rw [h2]
  rfl

theorem cctl_completes {i : Instr} {x : Op} (hs : Steady s e) (hb : ElementMode e) (hx : exec i s = cctl s x)
    (hg : unguarded x.g = true ∨ e.active x.g ≠ []) (ht : e.regTrap x (rowAt 0xD6 x) (maskOf (e.active x.g)) = none) :
    Completes i s e 12 (cctlDrop (e.paid s 0xD6 x) (e.paying s 0xD6 x) x) (memRetired e e.warp (quietWait e 0xD6 x 0)) :=
  completes_finish (m := quietWait e 0xD6 x 0) (e1 := e.paying s 0xD6 x) (w := e.warp) hs (hx.trans (cctl_ok hs hb hg ht)) (.recore ..)
    (by rw [cctlDrop_warp]; exact hs.charged ..) (.refl _) rfl rfl

/-! ## PROBE -/

theorem probeAt_element (hb : ElementMode e) (s : State) (x : Op) (i : Nat) : (probeAt s e x i).1.isRange = false := by
  unfold probeAt
  simp only [glbAddr_point hb, not_true_eq_false, if_false]
  split
  · rfl
  · split <;> rfl

theorem probes_tops (hb : ElementMode e) (s : State) (x : Op) :
    (probes s e x).filter (fun q => q.2.1.isRange) = [] := by
  rw [List.filter_eq_nil_iff]
  intro q hq
  obtain ⟨i, _, rfl⟩ := List.mem_map.mp hq
  simp [probeAt_element hb s x i]

theorem writePred_same (w : Warp) (i p : Nat) (v : PVal) : SameShape w (w.writePred i p v) := (writePred_frame w i p v [] [] [p] false (by simp)).same

theorem probeWarp_same (e : Env) (x : Op) (ps : List (Nat × Probe × Option Hit)) (w : Warp) : SameShape w (probeWarp e x ps w) := by
  refine foldl_same ps _ (fun v q _ => ?_) w
  split
  · exact (putLoad_same ..).trans (writePred_same ..)
  · exact (putLoad_same ..).trans (writePred_same ..)
  · exact writePred_same ..

theorem probeCourse_ok {x : Op} {s : State} {e : Env} (hb : ElementMode e) (hact : e.active x.g ≠ []) (hf : ProbeFree x s e) :
    ∃ m : MemWait, (∀ e1 w, memRetired e1 w m = memRetired e1 w (memBase 0xD5 x noCount e)) ∧ m.deliv = [] ∧ m.again = false ∧ m.len = x.form.bytes ∧
      probeCourse x s e = ((probeAfter s e x).finishMem (probeEnv s e x) m, none) := by
  have hstart := startMem_ok (m := { memBase 0xD5 x noCount e with accs := probeAccs (probes s e x), done := (memBase 0xD5 x noCount e).done ||| maskOf (probeDone (probes s e x)) })
    hf.runs hf.fresh
  refine ⟨({ memBase 0xD5 x noCount e with accs := probeAccs (probes s e x), done := (memBase 0xD5 x noCount e).done ||| maskOf (probeDone (probes s e x)) } : MemWait).spent
    (probeAccs (probes s e x)), ?_, ?_, ?_, ?_, ?_⟩
  rotate_left 4
  · obtain ⟨a, l, hal⟩ := List.exists_cons_of_ne_nil hact
    have hreg := hf.regs
    rw [hal] at hreg
    unfold probeCourse
    simp only [hal, hreg, hf.reads, raceTrap, probes_tops hb, List.map_nil, List.foldl_nil, ne_eq, not_true_eq_false, false_and, if_false]
    change (match (probeBegun s e x).startMem (probeEnv s e x) { memBase 0xD5 x noCount e with accs := probeAccs (probes s e x), done := (memBase 0xD5 x noCount e).done ||| maskOf (probeDone (probes s e x)) } with
      | .ok s2 => _ | .error t => _) = _
    rw [hstart]
    rfl
  · intro e1 w; rfl
  · exact hf.fresh
  · rfl
  · rfl

theorem probeAfter_warp (x : Op) {s : State} {e : Env} (hw : s.warp? e.k e.slot = some e.warp) :
    ∃ w, (probeAfter s e x).warp? e.k e.slot = some w ∧ SameShape e.warp w := by
  obtain ⟨w, h1, h2⟩ := performed_warp (e := probeEnv s e x) (probeAccs (probes s e x))
    (s := probeBegun s e x) (w := probeWrites s e x) (warp_modWarp (w := e.warp) _ (by
      rw [foldl_warp _ _ fun s q k j => track_warp s e q.2.1 0 0 k j]; exact hw))
  exact ⟨w, h1, (probeWarp_same ..).trans h2⟩

theorem Mem.probe (hs : Steady s e) (hb : ElementMode e) (x : X96) (hact : e.active x.op.g ≠ [])
    (hf : ProbeFree x.op (e.issued s (perActive x.op.g e) 1) (e.issuing s (perActive x.op.g e) 1)) :
    ∃ w, (probeAfter (e.issued s (perActive x.op.g e) 1) (e.issuing s (perActive x.op.g e) 1) x.op).warp? e.k e.slot = some w ∧
      Completes (.probe x) s e 12 (probeAfter (e.issued s (perActive x.op.g e) 1) (e.issuing s (perActive x.op.g e) 1) x.op)
        (memRetired e w (memBase 0xD5 x.op noCount e)) := by
  obtain ⟨w, h1, h2⟩ := probeAfter_warp x.op (s := e.issued s (perActive x.op.g e) 1) (e := e.issuing s (perActive x.op.g e) 1) (hs.charged ..)
  refine ⟨w, h1, ?_⟩
  obtain ⟨m, h3, h4, h5, h6, h7⟩ := probeCourse_ok (e := e.issuing s (perActive x.op.g e) 1) hb hact hf
  have hx : exec (.probe x) s = .next ((probeAfter (e.issued s (perActive x.op.g e) 1) (e.issuing s (perActive x.op.g e) 1) x.op).finishMem
      (probeEnv (e.issued s (perActive x.op.g e) 1) (e.issuing s (perActive x.op.g e) 1) x.op) m) := by
    change execProbe x s = _
    exact issued_course hs hb h7
  have hm := completes_finish (w := w) hs hx (Issuer.rewarp (.recore ..) (probeWarp_same ..)) h1 h2 h4 h5
  rw [h6, h3] at hm
  exact hm

/-! ## STF and LDSM -/

theorem preRead_warp {s t : State} {va n st : Nat} {bs : List Byte} {m : Nat} (h : s.preRead e va n st = .got bs m t) (k j : Nat) : t.warp? k j = s.warp? k j := by
  have key : ∀ (s1 : State) (p : Place), (∀ k j, s1.warp? k j = s.warp? k j) →
      (match s1.bindLoad e.k e.slot p n st with | some (bs, st, s1) => PreRead.got bs st s1 | none => .blocked) = .got bs m t → t.warp? k j = s.warp? k j := by
    intro s1 p h1 h
    split at h
    · rename_i hb
      cases h
      rw [bindLoad_warp hb, h1]
    · cases h
  unfold State.preRead at h
  split at h
  · rename_i hit _
    split at h
    · cases h
    · refine key (if hit.tracked e then s.track e hit.place 0 0 else s) _ (fun k j => ?_) h
      split
      · exact track_warp ..
      · rfl
  · cases h

theorem readDescs_warp (l : List (Nat × Addr)) (s : State) (got need : List (Nat × Nat)) (k j : Nat) : (State.readDescs e l s got need).1.warp? k j = s.warp? k j := by
  induction l generalizing s got need with
  | nil => rfl
  | cons p rest ih =>
    unfold State.readDescs
    split
    · rename_i h; rw [ih, preRead_warp h]
    · exact ih ..
    · rfl

theorem summHead_warp {s t : State} {slot a h d : Nat} (hh : s.summHead e slot = .got a h d t) (k j : Nat) : t.warp? k j = s.warp? k j := by
  unfold State.summHead at hh
  split at hh
  · cases hh
  · simp only at hh
    split at hh
    · cases hh
    · split at hh
      · rename_i h1
        split at hh
        · cases hh
        · split at hh
          · rename_i h2
            cases hh
            rw [preRead_warp h2, preRead_warp h1]
          · cases hh
      · cases hh

theorem course_finishes {i : Instr} {s t : State} {e e1 : Env} {m : MemWait} {w : Warp} {len : Nat} {g : Guard} {cost : Env → Nat} {factor : Nat}
    {ev : State → Env → Nat → Bool} {f : Env → List Nat → State → Env → State × Option Trap} (hs : Steady s e) (hb : ElementMode e)
    (hx : ∀ s, exec i s = issued s len g cost factor ev f)
    (h : f e [] (e.issued s (cost e) factor) (e.issuing s (cost e) factor) = (t.finishMem e1 m, none)) (he : Issuer e e1)
    (hw : t.warp? e.k e.slot = some w) (hsh : SameShape e.warp w) (hd : m.deliv = []) (ha : m.again = false) : Completes i s e m.len t (memRetired e1 w m) :=
  completes_finish hs ((hx s).trans (issued_course hs hb h)) he hw hsh hd ha

/-- STF's stores, where its value is readable and all of its elements are in order. -/
theorem stfStore_ok {x : Op} {s0 t : State} {e : Env} {got : List (Nat × Nat)} {wide : Nat}
    (hw : (if (goodDescs got).any fun d => decide (tyRegs d.2.type = 64) then 64 else 32) = wide)
    (hval : e.regTrap x (stfRow x wide) (maskOf (e.active x.g)) = none) (hlate : stfLate s0 e x (goodDescs got) = [])
    (hgood : (got.any fun g => (bufDesc g.2).isNone) = false)
    (hpl : ((stfAccs s0 e x (goodDescs got)).flatMap fun a => glbReasons s0 (Env.party s0 e) a.va a.size false) = [])
    (hstart : (s0.occupy e.k e.slot (stfCost (stfAccs s0 e x (goodDescs got))) 1).startMem e { stfBase e x wide with accs := stfAccs s0 e x (goodDescs got) } = .ok t) :
    stfStore s0 e x got = (t, none) := by
  have hrest : stfRest s0 e x (goodDescs got) = (s0, e) := by unfold stfRest; rw [hlate]
  have hkeep : (goodDescs got).filter (fun d => !(stfLate s0 e x (goodDescs got)).contains d.1) = goodDescs got := by
    rw [hlate]; exact List.filter_eq_self.mpr fun _ _ => rfl
  unfold stfStore
  simp only [hw, hval, hrest, hkeep, hgood, hpl, Bool.false_eq_true, if_false, List.append_nil, min_nil, hstart]

theorem stfCourse_ok {x : Op} {s : State} {e : Env} (hact : e.active x.g ≠ []) (hf : StfFree x s e) :
    stfCourse x s e = ((stfAfter s e x).finishMem e ((stfBase e x (stfWide s e x)).spent (stfStores s e x)), none) := by
  have hstart := startMem_ok (m := { stfBase e x (stfWide s e x) with accs := stfStores s e x }) hf.runs hf.fresh
  obtain ⟨a, l, hal⟩ := List.exists_cons_of_ne_nil hact
  have hreg := hf.regs
  rw [hal] at hreg
  have hr : State.readDescs e (stfAddrs s e x) s [] [] = ((stfRead s e x).1, (stfRead s e x).2.1, [], none) :=
    Prod.ext rfl (Prod.ext rfl (Prod.ext hf.pages hf.reads))
  unfold stfCourse
  simp only [hal, hreg, hf.descs, min_nil, hf.clear, hr, ne_eq, not_true_eq_false, if_false]
  exact stfStore_ok rfl hf.value hf.points hf.good hf.places hstart

theorem exec_stf (x : X96) (s : State) : exec (.stf x) s = issued s 12 x.op.g (perActive x.op.g) 1 (stfEvent x.op) fun _ _ s e => stfCourse x.op s e := by
  change execStf x s = _
  rfl
theorem exec_ldsm (x : X96) (s : State) : exec (.ldsm x) s = issued s 12 x.op.g (perActive x.op.g) 1
    (fun s e0 i => (Env.srcs s e0 x.op (rowAt 0xC9 x.op) 0 i).tagE) fun _ _ s e => ldsmCourse x.op s e := by
  change execLdsm x s = _
  rfl

theorem Mem.stf (hs : Steady s e) (hb : ElementMode e) (x : X96) (hact : e.active x.op.g ≠ [])
    (hf : StfFree x.op (e.issued s (perActive x.op.g e) 1) (e.issuing s (perActive x.op.g e) 1)) :
    ∃ w, (stfAfter (e.issued s (perActive x.op.g e) 1) (e.issuing s (perActive x.op.g e) 1) x.op).warp? e.k e.slot = some w ∧
      Completes (.stf x) s e 12 (stfAfter (e.issued s (perActive x.op.g e) 1) (e.issuing s (perActive x.op.g e) 1) x.op)
        (memRetired e w (stfBase e x.op (stfWide (e.issued s (perActive x.op.g e) 1) (e.issuing s (perActive x.op.g e) 1) x.op))) := by
  obtain ⟨w, h1, h2⟩ := performed_warp (e := e.issuing s (perActive x.op.g e) 1)
    (stfStores (e.issued s (perActive x.op.g e) 1) (e.issuing s (perActive x.op.g e) 1) x.op)
    (s := stfBegun (e.issued s (perActive x.op.g e) 1) (e.issuing s (perActive x.op.g e) 1) x.op) (w := e.warp)
    (by unfold stfBegun; exact (occupy_warp ..).trans ((readDescs_warp ..).trans (hs.charged ..)))
  refine ⟨w, h1, ?_⟩
  have h7 := stfCourse_ok (e := e.issuing s (perActive x.op.g e) 1) hact hf
  have hm := course_finishes hs hb (i := .stf x) (exec_stf x) h7 (.recore ..) h1 h2 hf.fresh rfl
  exact hm

theorem points_flat {l : List (Nat × SummUse)} (h : ∀ u ∈ l, ∃ va, u.2 = .point va) :
    (l.filter fun u => u.2 = .bad) = [] ∧ ldsmSpans l = [] := by
  constructor
  · rw [List.filter_eq_nil_iff]
    intro u hu
    obtain ⟨va, h⟩ := h u hu
    simp [h]
  · unfold ldsmSpans
    rw [List.filterMap_eq_nil_iff]
    intro u hu
    obtain ⟨va, h⟩ := h u hu
    simp only [h]

theorem ldsmCourse_ok {x : Op} {s s1 : State} {e : Env} {a hd d : Nat} (hact : e.active x.g ≠ []) (hf : LdsmFree x s e a hd d s1) :
    ldsmCourse x s e = ((ldsmAfter s1 e x a hd d).finishMem e
      (({ memBase 0xC9 x noCount e with done := (memBase 0xC9 x noCount e).done ||| 0 } : MemWait).spent (ldsmLoads s1 e x a hd d)), none) := by
  have hstart := startMem_ok (m := { memBase 0xC9 x noCount e with accs := ldsmLoads s1 e x a hd d, done := (memBase 0xC9 x noCount e).done ||| 0 }) hf.runs hf.fresh
  obtain ⟨a', l, hal⟩ := List.exists_cons_of_ne_nil hact
  have hreg := hf.regs
  rw [hal] at hreg
  unfold ldsmCourse
  simp only [hal, hreg, hf.head]
  obtain ⟨h1, h2⟩ := points_flat hf.points
  have hpl : ((ldsmAccs s1 e x d (ldsmUses s1 e x (.got a hd d s1))).flatMap fun a => glbReasons s1 (Env.party s1 e) a.va a.size false) = [] := hf.places
  have hclear : ldsmRace s1 e [] (ldsmAccs s1 e x d (ldsmUses s1 e x (.got a hd d s1))) = none := hf.clear
  unfold ldsmLoad
  simp only [h1, h2, hclear, List.map_nil, List.any_nil, Bool.false_eq_true, if_false, hpl, List.flatMap_nil, List.append_nil, min_nil, State.readRanges, ne_eq,
    not_true_eq_false, false_and, List.foldl_nil]
  change (match (ldsmBegun s1 e).startMem e { memBase 0xC9 x noCount e with accs := ldsmLoads s1 e x a hd d, done := (memBase 0xC9 x noCount e).done ||| 0 } with
    | .ok s4 => (s4, none) | .error t => _) = _
  rw [hstart]
  rfl

theorem Mem.ldsm (hs : Steady s e) (hb : ElementMode e) (x : X96) (hact : e.active x.op.g ≠ []) {a hd d : Nat} {s1 : State}
    (hf : LdsmFree x.op (e.issued s (perActive x.op.g e) 1) (e.issuing s (perActive x.op.g e) 1) a hd d s1) :
    ∃ w, (ldsmAfter s1 (e.issuing s (perActive x.op.g e) 1) x.op a hd d).warp? e.k e.slot = some w ∧
      Completes (.ldsm x) s e 12 (ldsmAfter s1 (e.issuing s (perActive x.op.g e) 1) x.op a hd d) (memRetired e w (memBase 0xC9 x.op noCount e)) := by
  obtain ⟨w, h1, h2⟩ := performed_warp (e := e.issuing s (perActive x.op.g e) 1)
    (ldsmLoads s1 (e.issuing s (perActive x.op.g e) 1) x.op a hd d)
    (s := ldsmBegun s1 (e.issuing s (perActive x.op.g e) 1)) (w := e.warp)
    (warp_modWarp (w := e.warp) _ (by rw [summHead_warp hf.head]; exact hs.charged ..))
  refine ⟨w, h1, ?_⟩
  have h7 := ldsmCourse_ok (e := e.issuing s (perActive x.op.g e) 1) hact hf
  have hm := course_finishes hs hb (i := .ldsm x) (exec_ldsm x) h7 (.recore ..) h1 h2 hf.fresh rfl
  exact hm

end Sys2Proof.Machine
end

