-- ==== Sys2Proof/Laws/Memory.lean ====
section
/-!
SUPPORT. Memory as a sparse list (R102; log 3): every operation over it keeps the canonical form, a read after a write gives what was
written, and a write leaves every other byte alone.
-/
namespace Sys2Proof.Machine

/-! ## The canonical form -/

theorem wf_iff {m : List Host.Cell} : Memory.wf m = true ↔ awf m = true ∧ ∀ c ∈ m, c.2 ≠ 0 := by
  simp [Memory.wf, List.all_eq_true, bne_iff_ne]

theorem cell_of_aput {α : Type} {k : Nat} {v : α} {l : List (Nat × α)} {c : Nat × α} (h : c ∈ aput k v l) : c = (k, v) ∨ c ∈ l := by
  induction l with
  | nil => simpa [aput] using h
  | cons p rest ih =>
    obtain ⟨j, u⟩ := p
    unfold aput at h
    split at h
    · simpa using h
    · split at h
      · rcases List.mem_cons.mp h with h | h
        · exact .inl h
        · exact .inr (List.mem_cons_of_mem _ h)
      · rcases List.mem_cons.mp h with h | h
        · exact .inr (h ▸ List.mem_cons_self ..)
        · rcases ih h with h | h
          · exact .inl h
          · exact .inr (List.mem_cons_of_mem _ h)

theorem cell_of_adel {α : Type} {k : Nat} {l : List (Nat × α)} {c : Nat × α} (h : c ∈ adel k l) : c ∈ l := by
  induction l with
  | nil => exact h
  | cons p rest ih =>
    obtain ⟨j, u⟩ := p
    unfold adel at h
    split at h
    · exact List.mem_cons_of_mem _ h
    · rcases List.mem_cons.mp h with h | h
      · exact h ▸ List.mem_cons_self ..
      · exact List.mem_cons_of_mem _ (ih h)

theorem wf_memPut {m : List Host.Cell} (a : Nat) (b : Byte) (h : Memory.wf m = true) : Memory.wf (memPut m a b) = true := by
  rw [wf_iff] at h ⊢
  unfold memPut
  split
  · exact ⟨awf_adel _ _ h.1, fun c hc => h.2 c (cell_of_adel hc)⟩
  · rename_i hb
    refine ⟨awf_aput _ _ _ h.1, fun c hc => ?_⟩
    rcases cell_of_aput hc with rfl | hc
    · exact hb
    · exact h.2 c hc

/-- A write keeps the canonical form. -/
theorem wf_memWrite {m : List Host.Cell} (bs : List Byte) (a : Nat) (h : Memory.wf m = true) : Memory.wf (memWrite m a bs) = true := by
  induction bs generalizing m a with
  | nil => exact h
  | cons b bs ih => exact ih _ (wf_memPut _ _ h)

theorem arising_filter {α : Type} (f : Nat × α → Bool) (l : List (Nat × α)) (lo : Nat) (h : arising lo l = true) : arising lo (l.filter f) = true := by
  induction l generalizing lo with
  | nil => rfl
  | cons p rest ih =>
    obtain ⟨j, u⟩ := p
    simp only [arising, Bool.and_eq_true, decide_eq_true_eq] at h
    unfold List.filter
    split
    · simp only [arising, Bool.and_eq_true, decide_eq_true_eq]; exact ⟨h.1, ih _ h.2⟩
    · exact arising_mono _ lo (j + 1) (by omega) (ih _ h.2)

/-- Clearing frames keeps the canonical form. -/
theorem wf_filter {m : List Host.Cell} (f : Host.Cell → Bool) (h : Memory.wf m = true) : Memory.wf (m.filter f) = true := by
  rw [wf_iff] at h ⊢
  exact ⟨arising_filter f m 0 h.1, fun c hc => h.2 c (List.mem_filter.mp hc).1⟩

theorem wf_nil : Memory.wf [] = true := rfl

theorem MemoryCanonical.homeWrite {s : State} (h : MemoryCanonical s) (p : Place) (bs : List Byte) : MemoryCanonical (s.homeWrite p bs) := by
  cases p with
  | mem pa => exact ⟨wf_memWrite _ _ h.1, h.2⟩
  | scr k off => exact h
  | sys a => exact ⟨h.1, wf_memWrite _ _ h.2⟩
  | ws off => exact h

/-! ## Reading after writing -/

theorem alook_none_of_arising {α : Type} {k lo : Nat} {l : List (Nat × α)} (h : arising lo l = true) (hk : k < lo) : alook k l = none := by
  induction l generalizing lo with
  | nil => rfl
  | cons p rest ih =>
    obtain ⟨j, u⟩ := p
    simp only [arising, Bool.and_eq_true, decide_eq_true_eq] at h
    rw [alook, if_neg (by omega)]
    exact ih h.2 (by omega)

theorem alook_adel_same {α : Type} {k lo : Nat} {l : List (Nat × α)} (h : arising lo l = true) : alook k (adel k l) = none := by
  induction l generalizing lo with
  | nil => rfl
  | cons p rest ih =>
    obtain ⟨j, u⟩ := p
    simp only [arising, Bool.and_eq_true, decide_eq_true_eq] at h
    unfold adel
    split
    · rename_i hj; exact alook_none_of_arising h.2 (by omega)
    · rename_i hj; rw [alook, if_neg hj]; exact ih h.2

theorem memByte_memPut_same {m : List Host.Cell} (a : Nat) (b : Byte) (h : Memory.wf m = true) : memByte (memPut m a b) a = b := by
  unfold memByte memPut
  split
  · rename_i hb; rw [alook_adel_same (wf_iff.mp h).1, hb]; rfl
  · rw [alook_aput_same]; rfl

theorem memByte_memPut_other (m : List Host.Cell) {a j : Nat} (b : Byte) (h : j ≠ a) : memByte (memPut m a b) j = memByte m j := by
  unfold memByte memPut
  split
  · rw [alook_adel_other _ h]
  · rw [alook_aput_other _ _ _ _ h]

/-- A write leaves every byte outside it alone. -/
theorem memByte_memWrite_other (bs : List Byte) {m : List Host.Cell} {a j : Nat} (h : j < a ∨ a + bs.length ≤ j) : memByte (memWrite m a bs) j = memByte m j := by
  induction bs generalizing m a with
  | nil => rfl
  | cons b bs ih =>
    simp only [List.length_cons] at h
    rw [memWrite, ih (by omega), memByte_memPut_other _ _ (by omega)]

/-- A byte that a write covers reads as it was written. -/
theorem memByte_memWrite (bs : List Byte) {m : List Host.Cell} {a i : Nat} (hm : Memory.wf m = true) (h : i < bs.length) :
    memByte (memWrite m a bs) (a + i) = bs[i] := by
  induction bs generalizing m a i with
  | nil => exact absurd h (Nat.not_lt_zero _)
  | cons b bs ih =>
    rw [memWrite]
    cases i with
    | zero => rw [memByte_memWrite_other _ (by omega)]; exact memByte_memPut_same _ _ hm
    | succ i =>
      have := ih (m := memPut m a b) (a := a + 1) (wf_memPut _ _ hm) (Nat.lt_of_succ_lt_succ h)
      rw [show a + (i + 1) = a + 1 + i by omega, this]; rfl

/-- What has been written is read. -/
theorem memRead_memWrite {m : List Host.Cell} (bs : List Byte) (a : Nat) (hm : Memory.wf m = true) : memRead (memWrite m a bs) a bs.length = bs := by
  apply List.ext_getElem
  · simp [memRead]
  · intro i h1 h2
    simp only [memRead, List.getElem_map, List.getElem_range]
    exact memByte_memWrite bs hm h2

end Sys2Proof.Machine
end

