-- ==== Sys2Proof/Laws/Once.lean ====
section
/-!
SUPPORT. Instructions that act once for the warp: how their shared courses answer where nothing stands in their way.
-/
namespace Sys2Proof.Machine
variable {s : State} {e : Env}

/-- Tasks that nothing holds back all enter. -/
theorem enterAll_ok {mk : Clock → List Task} (h : AllEnter s e mk) (len : Nat) (fr : List Nat) : e.enterAll s len fr mk = entered s e len fr mk := by
  unfold Env.enterAll entered
  obtain ⟨h1, h2⟩ := h
  simp only [h1, ne_eq, not_true_eq_false, if_false, h2]

/-- The frame of a matrix instruction passes on what its course answers. -/
theorem matrixOnce_ok (hs : Steady s e) (hb : ElementMode e) {opc lit : Nat} {x : Op} {f : State → Env → Srcs → Except Nat State}
    (ha : ActsOnce e x) (hr : e.regTrap x (rowAt opc x) (maskOf (e.active x.g)) = none) {t : State}
    (h : f (e.paid s opc x) (e.paying s opc x) (onceOps (e.paid s opc x) (e.paying s opc x) opc x lit) = .ok t) : matrixOnce s opc x lit f = .next t := by
  unfold matrixOnce
  refine issue_paid hs hb ?_
  have h1 : ¬ (((e.paying s opc x).active x.g).isEmpty = true ∧ (¬ unguarded x.g = true ∨ ([] : List Nat) ≠ [])) := by
    rintro ⟨h1, h2 | h2⟩
    · rcases ha with h3 | h3
      · exact h2 h3
      · exact h3 (List.isEmpty_iff.mp h1)
    · exact h2 rfl
  have hr' : (e.paying s opc x).regTrap x (rowAt opc x) (maskOf ((e.paying s opc x).active x.g)) = none := hr
  simp only [if_neg h1, hr']
  unfold onceOps at h
  rw [h]

/-- So does the frame of the solver's and the checker's instructions. -/
theorem onceInstr_ok (hs : Steady s e) (hb : ElementMode e) {opc : Nat} {x : Op} {ev : State → Env → Nat → Bool}
    {f : State → Env → Row → List Nat → Nat → Except Trap State} (ha : ActsOnce e x) (hr : e.regTrap x (rowAt opc x) (maskOf (e.active x.g)) = none) {t : State}
    (h : f (e.paid s opc x) (e.paying s opc x) (rowAt opc x) (e.active x.g) ((e.active x.g).headD 0) = .ok t) : onceInstr s opc x ev f = .next t := by
  unfold onceInstr
  refine issue_paid hs hb ?_
  have h1 : ¬ ((e.paying s opc x).active x.g = [] ∧ (¬ unguarded x.g = true ∨ ([] : List Nat) ≠ [])) := by
    rintro ⟨h1, h2 | h2⟩
    · rcases ha with h3 | h3
      · exact h2 h3
      · exact h3 h1
    · exact h2 rfl
  have hr' : (e.paying s opc x).regTrap x (rowAt opc x) (maskOf ((e.paying s opc x).active x.g)) = none := hr
  simp only [if_neg h1, hr']
  exact h

end Sys2Proof.Machine
end

