-- ==== Sys2Proof/Laws/Outs.lean ====
section
/-!
SUPPORT. The computation of every register-computing instruction keeps to its destinations: element counts, predicates, draws.
-/
namespace Sys2Proof.Machine

theorem tyRegs_or (t : Nat) : tyRegs t = 32 ∨ tyRegs t = 64 := by unfold tyRegs; split <;> simp

/-- One element of a register, no further predicate, no draw. -/
theorem outBound_one {r : Row} {f : State → Env → Nat → Bool → Srcs → Out} {b : Option Bool} {w : Nat} (hd : r.d = .reg b w 1) (hw : w = 32 ∨ w = 64)
    (h : ∀ s e l v, (f s e l false v).vals.length ≤ 1 ∧ (f s e l false v).preds = [] ∧ (f s e l false v).draws = 0) : OutBound r f [] false where
  width b' w' n he := by rw [hd] at he; cases he; exact hw
  vals b' w' n he s e l v := by rw [hd] at he; cases he; exact (h s e l v).1
  preds s e l v p hp := by rw [(h s e l v).2.1] at hp; cases hp
  draws _ s e l v := (h s e l v).2.2

/-- A predicate destination. -/
theorem outBound_pred {r : Row} {f : State → Env → Nat → Bool → Srcs → Out} {b : Bool} (hd : r.d = .pred b)
    (h : ∀ s e l v, (f s e l false v).preds = [] ∧ (f s e l false v).draws = 0) : OutBound r f [] false where
  width b' w' n he := by rw [hd] at he; cases he
  vals b' w' n he := by rw [hd] at he; cases he
  preds s e l v p hp := by rw [(h s e l v).1] at hp; cases hp
  draws _ s e l v := (h s e l v).2

theorem intOut_bound (op : IOp) (x : Op) (n : Nat) (v : Srcs) :
    (intOut op x n false v).vals.length ≤ 1 ∧ (intOut op x n false v).preds = [] ∧ (intOut op x n false v).draws = 0 := by
  simp [intOut, FR.out]

theorem floatOut_bound (op : FOp) (x : Op) (m n : Nat) (v : Srcs) :
    (floatOut op x m n false v).vals.length ≤ 1 ∧ (floatOut op x m n false v).preds = [] ∧ (floatOut op x m n false v).draws = 0 := by
  simp [floatOut, FR.out]


theorem packedOut_bound (op : FOp) (x : Op) (m : Nat) (v : Srcs) :
    (packedOut op x m false v).vals.length ≤ 1 ∧ (packedOut op x m false v).preds = [] ∧ (packedOut op x m false v).draws = 0 := by
  simp [packedOut, pointOut, FR.out]

theorem copyOut_bound (v : SV) : (copyOut v).vals.length ≤ 1 ∧ (copyOut v).preds = [] ∧ (copyOut v).draws = 0 := by simp [copyOut]
theorem irOut_bound (r : IR) : (IR.out r).vals.length ≤ 1 ∧ (IR.out r).preds = [] ∧ (IR.out r).draws = 0 := by simp [IR.out]
theorem frOut_bound (r : FR) : (FR.out r).vals.length ≤ 1 ∧ (FR.out r).preds = [] ∧ (FR.out r).draws = 0 := by simp [FR.out]
theorem topOut_bound (t : Nat) : (topOut t).vals.length ≤ 1 ∧ (topOut t).preds = [] ∧ (topOut t).draws = 0 := irOut_bound _
theorem pairOut_bound (v : SV × Nat) : (pairOut v).vals.length ≤ 1 ∧ (pairOut v).preds = [] ∧ (pairOut v).draws = 0 := by simp [pairOut]

theorem iselOut_bound (x : Op) (v : Srcs) : (iselOut x v).vals.length ≤ 1 ∧ (iselOut x v).preds = [] ∧ (iselOut x v).draws = 0 := by
  unfold iselOut
  simp only
  generalize (if x.op7 % 2 = 1 then v.pc.v.not else v.pc.v) = c
  cases c
  · exact copyOut_bound _
  · exact copyOut_bound _
  · exact irOut_bound _

theorem leaOut_bound (x : Op) (v : Srcs) : (leaOut x false v).vals.length ≤ 1 ∧ (leaOut x false v).preds = [] ∧ (leaOut x false v).draws = 0 := by
  simp [leaOut]

theorem carryOut_bound (sub : Bool) (x : Op) (v : Srcs) : (carryOut sub x false v).vals.length ≤ 1 ∧
    (∀ p ∈ (carryOut sub x false v).preds, p.1 = x.imm16 % 8) ∧ (carryOut sub x false v).draws = 0 := by
  simp [carryOut]

/-- A cross-lane computation is TOP or what its function gives. -/
theorem cross_bound (t : Nat) (q : SV) {o : Out} (h : o.vals.length ≤ 1 ∧ o.preds = [] ∧ o.draws = 0) :
    (if q.lo ≠ q.hi then topOut t else o).vals.length ≤ 1 ∧ (if q.lo ≠ q.hi then topOut t else o).preds = [] ∧
    (if q.lo ≠ q.hi then topOut t else o).draws = 0 := by
  split
  · exact topOut_bound t
  · exact h

theorem dqntOut_bound (x : Op) (m : Nat) (v : Srcs) :
    (if x.type = 5 then (dqntBlock x.type m x.sat (sv1 v.a).lo ((v.a.getD 1 (svConst 0)).lo)).map fun r => svConst r.bits
      else (pairUp (dqntBlock x.type m x.sat (sv1 v.a).lo ((v.a.getD 1 (svConst 0)).lo))).map svConst).length ≤ if x.type = 5 then 8 else 4 := by
  split <;> simp [dqntBlock, pairUp, List.range, List.range.loop]

theorem one_bound (z : SV) : ([z] : List SV).length ≤ 1 ∧ ([] : List (Nat × PVal)) = [] ∧ (0 : Nat) = 0 := ⟨Nat.le_refl 1, rfl, rfl⟩

theorem sprWidth_or (c : Nat) : sprWidth c = 32 ∨ sprWidth c = 64 := by unfold sprWidth; split <;> simp

theorem if_bound {c : Prop} [Decidable c] {a b : Out} (ha : a.vals.length ≤ 1 ∧ a.preds = [] ∧ a.draws = 0)
    (hb : b.vals.length ≤ 1 ∧ b.preds = [] ∧ b.draws = 0) :
    (if c then a else b).vals.length ≤ 1 ∧ (if c then a else b).preds = [] ∧ (if c then a else b).draws = 0 := by
  split <;> assumption

/-- A carry instruction writes D and pE. -/
theorem carry_bound {r : Row} {f : State → Env → Nat → Bool → Srcs → Out} {b : Option Bool} {w n : Nat} (hd : r.d = .reg b w 1)
    (hw : w = 32 ∨ w = 64) {ps : List Nat} (hps : ps = [n])
    (h : ∀ s e l v, (f s e l false v).vals.length ≤ 1 ∧ (∀ p ∈ (f s e l false v).preds, p.1 = n) ∧ (f s e l false v).draws = 0) :
    OutBound r f ps false where
  width b' w' n he := by rw [hd] at he; cases he; exact hw
  vals b' w' n he s e l v := by rw [hd] at he; cases he; exact (h s e l v).1
  preds s e l v p hp := by rw [hps, (h s e l v).2.1 p hp]; exact List.mem_singleton.mpr rfl
  draws _ s e l v := (h s e l v).2.2

/-- No D, and the named predicates. -/
theorem outBound_pset {r : Row} {f : State → Env → Nat → Bool → Srcs → Out} {ps : List Nat} (hd : r.d = .no)
    (h : ∀ s e l v, (∀ p ∈ (f s e l false v).preds, p.1 ∈ ps) ∧ (f s e l false v).draws = 0) : OutBound r f ps false where
  width b' w' n he := by rw [hd] at he; cases he
  vals b' w' n he := by rw [hd] at he; cases he
  preds s e l v p hp := (h s e l v).1 p hp
  draws _ s e l v := (h s e l v).2

/-- `n` elements of D and draws. -/
theorem outBound_draw {r : Row} {f : State → Env → Nat → Bool → Srcs → Out} {b : Option Bool} {w n : Nat} {d : Bool} (hd : r.d = .reg b w n)
    (hw : w = 32 ∨ w = 64) (hdr : d = true) (h : ∀ s e l v, (f s e l false v).vals.length ≤ n ∧ (f s e l false v).preds = []) : OutBound r f [] d where
  width b' w' n he := by rw [hd] at he; cases he; exact hw
  vals b' w' n he s e l v := by rw [hd] at he; cases he; exact (h s e l v).1
  preds s e l v p hp := by rw [(h s e l v).2] at hp; cases hp
  draws hf := by rw [hdr] at hf; cases hf

/-- A predicate D and draws. -/
theorem outBound_pdraw {r : Row} {f : State → Env → Nat → Bool → Srcs → Out} {b d : Bool} (hd : r.d = .pred b) (hdr : d = true)
    (h : ∀ s e l v, (f s e l false v).preds = []) : OutBound r f [] d where
  width b' w' n he := by rw [hd] at he; cases he
  vals b' w' n he := by rw [hd] at he; cases he
  preds s e l v p hp := by rw [h s e l v] at hp; cases hp
  draws hf := by rw [hdr] at hf; cases hf

/-- `n` elements of D, no draw. -/
theorem outBound_many {r : Row} {f : State → Env → Nat → Bool → Srcs → Out} {b : Option Bool} {w n : Nat} (hd : r.d = .reg b w n)
    (hw : w = 32 ∨ w = 64) (hv : ∀ s e l v, (f s e l false v).vals.length ≤ n)
    (h : ∀ s e l v, (f s e l false v).preds = [] ∧ (f s e l false v).draws = 0) : OutBound r f [] false where
  width b' w' n he := by rw [hd] at he; cases he; exact hw
  vals b' w' n he s e l v := by rw [hd] at he; cases he; exact hv s e l v
  preds s e l v p hp := by rw [(h s e l v).1] at hp; cases hp
  draws _ s e l v := (h s e l v).2

theorem take_bound (n : Nat) (ys : List Nat) : ((ys.take n).map svConst).length ≤ n := by
  rw [List.length_map, List.length_take]; exact Nat.min_le_left ..

theorem redw_bound (m : Option (SV × Nat)) (z : SV) :
    (match m with | some r => pairOut r | none => copyOut z).vals.length ≤ 1 ∧ (match m with | some r => pairOut r | none => copyOut z).preds = [] ∧
    (match m with | some r => pairOut r | none => copyOut z).draws = 0 := by
  cases m
  · exact copyOut_bound _
  · exact pairOut_bound _

theorem rndf_bound (c : Bool) (a b : SV) :
    (if c then ({ vals := [a] } : Out) else { vals := [b] }).vals.length ≤ 1 ∧ (if c then ({ vals := [a] } : Out) else { vals := [b] }).preds = [] := by
  cases c <;> exact ⟨Nat.le_refl 1, rfl⟩

/-- An instruction that is the shared course with bounded outcomes. -/
theorem retires_of_alu {i : Instr} {opc : Nat} {x : Op} {h : State → How} {f : State → State → Env → Nat → Bool → Srcs → Out}
    (he : ∀ s, exec i s = alu s opc x (h s) (f s)) (ho : ∀ s, OutBound (rowAt opc x) (f s) (extraPreds opc x) (drawing opc)) :
    RegisterRetires i opc x := fun s e hs hb hr hf => by
  rw [he s]; exact alu_retires hs hb hr hf (ho s)

/-- A drawing instruction with a predicate destination. -/
theorem retires_of_pdraw {i : Instr} {opc : Nat} {x : Op} {strm : Srcs → SV} {f : Srcs → List Nat → Out} {vague : Srcs → Out} {b : Bool}
    (he : ∀ s, exec i s = drawAlu s opc x strm f vague) (hd : (rowAt opc x).d = .pred b) (hdr : drawing opc = true) (hx : extraPreds opc x = [])
    (hp : ∀ v l, (f v l).preds = []) : RegisterRetires i opc x := by
  refine retires_of_alu (opc := opc) he fun s => ?_
  rw [hx, hdr]
  exact outBound_pdraw hd rfl fun _ e l v => hp ..

end Sys2Proof.Machine
end

