-- ==== Sys2Proof/Laws/PerInstr.lean ====
section
/-!
SUPPORT. Per instruction: a well-formed one decodes from its encoded bytes, whatever follows them. An event row has no encoding and is not
well-formed.
-/
namespace Sys2Proof

/-- The encoding of an instruction decodes to it, in as many words as it has. -/
def Laws.RoundTrip.Statement (i : Instr) : Prop :=
  i.wf = true → ∀ tail : List Byte, decodeBytes true (bytesOfWords (encode i) ++ tail) = some (i, (encode i).length)

theorem Laws.RoundTrip.nop (x : C32R) : Laws.RoundTrip.Statement (.nop x) := fun h => decode_encode rfl h (by decide) rfl (trivial) rfl
theorem Laws.RoundTrip.brC32 (x : C32J) : Laws.RoundTrip.Statement (.brC32 x) := fun h => decode_encode rfl h (by decide) rfl (⟨fun _ => rfl, fun _ => rfl⟩) rfl
theorem Laws.RoundTrip.brL64 (x : L64) : Laws.RoundTrip.Statement (.brL64 x) := fun h => decode_encode rfl h (by decide) rfl (trivial) rfl
theorem Laws.RoundTrip.briC32 (x : C32R) : Laws.RoundTrip.Statement (.briC32 x) := fun h => decode_encode rfl h (by decide) rfl (trivial) rfl
theorem Laws.RoundTrip.bri (x : X96) : Laws.RoundTrip.Statement (.bri x) := fun h => decode_encode rfl h (by decide) rfl (trivial) rfl
theorem Laws.RoundTrip.callC32 (x : C32J) : Laws.RoundTrip.Statement (.callC32 x) := fun h => decode_encode rfl h (by decide) rfl (⟨fun _ => rfl, fun _ => rfl⟩) rfl
theorem Laws.RoundTrip.callL64 (x : L64) : Laws.RoundTrip.Statement (.callL64 x) := fun h => decode_encode rfl h (by decide) rfl (trivial) rfl
theorem Laws.RoundTrip.calliC32 (x : C32R) : Laws.RoundTrip.Statement (.calliC32 x) := fun h => decode_encode rfl h (by decide) rfl (trivial) rfl
theorem Laws.RoundTrip.calli (x : X96) : Laws.RoundTrip.Statement (.calli x) := fun h => decode_encode rfl h (by decide) rfl (trivial) rfl
theorem Laws.RoundTrip.ret (x : C32R) : Laws.RoundTrip.Statement (.ret x) := fun h => decode_encode rfl h (by decide) rfl (trivial) rfl
theorem Laws.RoundTrip.join (x : C32R) : Laws.RoundTrip.Statement (.join x) := fun h => decode_encode rfl h (by decide) rfl (trivial) rfl
theorem Laws.RoundTrip.yield (x : C32R) : Laws.RoundTrip.Statement (.yield x) := fun h => decode_encode rfl h (by decide) rfl (trivial) rfl
theorem Laws.RoundTrip.regangC32 (x : C32I) : Laws.RoundTrip.Statement (.regangC32 x) := fun h => decode_encode rfl h (by decide) rfl (fun _ => rfl) rfl
theorem Laws.RoundTrip.regang (x : X96) : Laws.RoundTrip.Statement (.regang x) := fun h => decode_encode rfl h (by decide) rfl (trivial) rfl
theorem Laws.RoundTrip.regroupC32 (x : C32R) : Laws.RoundTrip.Statement (.regroupC32 x) := fun h => decode_encode rfl h (by decide) rfl (trivial) rfl
theorem Laws.RoundTrip.regroup (x : X96) : Laws.RoundTrip.Statement (.regroup x) := fun h => decode_encode rfl h (by decide) rfl (trivial) rfl
theorem Laws.RoundTrip.exit (x : C32R) : Laws.RoundTrip.Statement (.exit x) := fun h => decode_encode rfl h (by decide) rfl (trivial) rfl
theorem Laws.RoundTrip.bkpt (x : C32R) : Laws.RoundTrip.Statement (.bkpt x) := fun h => decode_encode rfl h (by decide) rfl (trivial) rfl
theorem Laws.RoundTrip.sleep (x : X96) : Laws.RoundTrip.Statement (.sleep x) := fun h => decode_encode rfl h (by decide) rfl (trivial) rfl
theorem Laws.RoundTrip.spawn (x : Long) : Laws.RoundTrip.Statement (.spawn x) := by
  cases x <;> first | exact fun h => decode_encode rfl h (by decide) rfl trivial rfl | exact fun h => nomatch (show false = true from h)
theorem Laws.RoundTrip.tlaunch (x : X96) : Laws.RoundTrip.Statement (.tlaunch x) := fun h => decode_encode rfl h (by decide) rfl (trivial) rfl
theorem Laws.RoundTrip.baraC32 (x : C32I) : Laws.RoundTrip.Statement (.baraC32 x) := fun h => decode_encode rfl h (by decide) rfl (fun _ => rfl) rfl
theorem Laws.RoundTrip.bara (x : X96) : Laws.RoundTrip.Statement (.bara x) := fun h => decode_encode rfl h (by decide) rfl (trivial) rfl
theorem Laws.RoundTrip.barwC32 (x : C32I) : Laws.RoundTrip.Statement (.barwC32 x) := fun h => decode_encode rfl h (by decide) rfl (fun _ => rfl) rfl
theorem Laws.RoundTrip.barw (x : X96) : Laws.RoundTrip.Statement (.barw x) := fun h => decode_encode rfl h (by decide) rfl (trivial) rfl
theorem Laws.RoundTrip.barsC32 (x : C32I) : Laws.RoundTrip.Statement (.barsC32 x) := fun h => decode_encode rfl h (by decide) rfl (fun _ => rfl) rfl
theorem Laws.RoundTrip.bars (x : X96) : Laws.RoundTrip.Statement (.bars x) := fun h => decode_encode rfl h (by decide) rfl (trivial) rfl
theorem Laws.RoundTrip.rbar (x : X96) : Laws.RoundTrip.Statement (.rbar x) := fun h => decode_encode rfl h (by decide) rfl (trivial) rfl
theorem Laws.RoundTrip.elect (x : C32R) : Laws.RoundTrip.Statement (.elect x) := fun h => decode_encode rfl h (by decide) rfl (trivial) rfl
theorem Laws.RoundTrip.quarter (x : C32R) : Laws.RoundTrip.Statement (.quarter x) := fun h => decode_encode rfl h (by decide) rfl (trivial) rfl
theorem Laws.RoundTrip.handoffC32 (x : C32R) : Laws.RoundTrip.Statement (.handoffC32 x) := fun h => decode_encode rfl h (by decide) rfl (trivial) rfl
theorem Laws.RoundTrip.handoff (x : X96) : Laws.RoundTrip.Statement (.handoff x) := fun h => decode_encode rfl h (by decide) rfl (trivial) rfl
theorem Laws.RoundTrip.iaddC32 (x : C32R) : Laws.RoundTrip.Statement (.iaddC32 x) := fun h => decode_encode rfl h (by decide) rfl (trivial) rfl
theorem Laws.RoundTrip.iadd (x : Long) : Laws.RoundTrip.Statement (.iadd x) := by
  cases x <;> first | exact fun h => decode_encode rfl h (by decide) rfl trivial rfl | exact fun h => nomatch (show false = true from h)
theorem Laws.RoundTrip.isubC32 (x : C32R) : Laws.RoundTrip.Statement (.isubC32 x) := fun h => decode_encode rfl h (by decide) rfl (trivial) rfl
theorem Laws.RoundTrip.isub (x : Long) : Laws.RoundTrip.Statement (.isub x) := by
  cases x <;> first | exact fun h => decode_encode rfl h (by decide) rfl trivial rfl | exact fun h => nomatch (show false = true from h)
theorem Laws.RoundTrip.iaddx (x : X96) : Laws.RoundTrip.Statement (.iaddx x) := fun h => decode_encode rfl h (by decide) rfl (trivial) rfl
theorem Laws.RoundTrip.isubx (x : X96) : Laws.RoundTrip.Statement (.isubx x) := fun h => decode_encode rfl h (by decide) rfl (trivial) rfl
theorem Laws.RoundTrip.imulC32 (x : C32R) : Laws.RoundTrip.Statement (.imulC32 x) := fun h => decode_encode rfl h (by decide) rfl (trivial) rfl
theorem Laws.RoundTrip.imul (x : Long) : Laws.RoundTrip.Statement (.imul x) := by
  cases x <;> first | exact fun h => decode_encode rfl h (by decide) rfl trivial rfl | exact fun h => nomatch (show false = true from h)
theorem Laws.RoundTrip.imulhC32 (x : C32R) : Laws.RoundTrip.Statement (.imulhC32 x) := fun h => decode_encode rfl h (by decide) rfl (trivial) rfl
theorem Laws.RoundTrip.imulh (x : X96) : Laws.RoundTrip.Statement (.imulh x) := fun h => decode_encode rfl h (by decide) rfl (trivial) rfl
theorem Laws.RoundTrip.imulw (x : X96) : Laws.RoundTrip.Statement (.imulw x) := fun h => decode_encode rfl h (by decide) rfl (trivial) rfl
theorem Laws.RoundTrip.imad (x : Long) : Laws.RoundTrip.Statement (.imad x) := by
  cases x <;> first | exact fun h => decode_encode rfl h (by decide) rfl trivial rfl | exact fun h => nomatch (show false = true from h)
theorem Laws.RoundTrip.idiv (x : X96) : Laws.RoundTrip.Statement (.idiv x) := fun h => decode_encode rfl h (by decide) rfl (trivial) rfl
theorem Laws.RoundTrip.irem (x : X96) : Laws.RoundTrip.Statement (.irem x) := fun h => decode_encode rfl h (by decide) rfl (trivial) rfl
theorem Laws.RoundTrip.inegC32 (x : C32R) : Laws.RoundTrip.Statement (.inegC32 x) := fun h => decode_encode rfl h (by decide) rfl (trivial) rfl
theorem Laws.RoundTrip.ineg (x : X96) : Laws.RoundTrip.Statement (.ineg x) := fun h => decode_encode rfl h (by decide) rfl (trivial) rfl
theorem Laws.RoundTrip.iabsC32 (x : C32R) : Laws.RoundTrip.Statement (.iabsC32 x) := fun h => decode_encode rfl h (by decide) rfl (trivial) rfl
theorem Laws.RoundTrip.iabs (x : X96) : Laws.RoundTrip.Statement (.iabs x) := fun h => decode_encode rfl h (by decide) rfl (trivial) rfl
theorem Laws.RoundTrip.iminC32 (x : C32R) : Laws.RoundTrip.Statement (.iminC32 x) := fun h => decode_encode rfl h (by decide) rfl (trivial) rfl
theorem Laws.RoundTrip.imin (x : Long) : Laws.RoundTrip.Statement (.imin x) := by
  cases x <;> first | exact fun h => decode_encode rfl h (by decide) rfl trivial rfl | exact fun h => nomatch (show false = true from h)
theorem Laws.RoundTrip.imaxC32 (x : C32R) : Laws.RoundTrip.Statement (.imaxC32 x) := fun h => decode_encode rfl h (by decide) rfl (trivial) rfl
theorem Laws.RoundTrip.imax (x : Long) : Laws.RoundTrip.Statement (.imax x) := by
  cases x <;> first | exact fun h => decode_encode rfl h (by decide) rfl trivial rfl | exact fun h => nomatch (show false = true from h)
theorem Laws.RoundTrip.isad (x : X96) : Laws.RoundTrip.Statement (.isad x) := fun h => decode_encode rfl h (by decide) rfl (trivial) rfl
theorem Laws.RoundTrip.iclamp (x : Long) : Laws.RoundTrip.Statement (.iclamp x) := by
  cases x <;> first | exact fun h => decode_encode rfl h (by decide) rfl trivial rfl | exact fun h => nomatch (show false = true from h)
theorem Laws.RoundTrip.idot (x : X96) : Laws.RoundTrip.Statement (.idot x) := fun h => decode_encode rfl h (by decide) rfl (trivial) rfl
theorem Laws.RoundTrip.andC32 (x : C32R) : Laws.RoundTrip.Statement (.andC32 x) := fun h => decode_encode rfl h (by decide) rfl (trivial) rfl
theorem Laws.RoundTrip.and (x : Long) : Laws.RoundTrip.Statement (.and x) := by
  cases x <;> first | exact fun h => decode_encode rfl h (by decide) rfl trivial rfl | exact fun h => nomatch (show false = true from h)
theorem Laws.RoundTrip.orC32 (x : C32R) : Laws.RoundTrip.Statement (.orC32 x) := fun h => decode_encode rfl h (by decide) rfl (trivial) rfl
theorem Laws.RoundTrip.or (x : Long) : Laws.RoundTrip.Statement (.or x) := by
  cases x <;> first | exact fun h => decode_encode rfl h (by decide) rfl trivial rfl | exact fun h => nomatch (show false = true from h)
theorem Laws.RoundTrip.xorC32 (x : C32R) : Laws.RoundTrip.Statement (.xorC32 x) := fun h => decode_encode rfl h (by decide) rfl (trivial) rfl
theorem Laws.RoundTrip.xor (x : Long) : Laws.RoundTrip.Statement (.xor x) := by
  cases x <;> first | exact fun h => decode_encode rfl h (by decide) rfl trivial rfl | exact fun h => nomatch (show false = true from h)
theorem Laws.RoundTrip.notC32 (x : C32R) : Laws.RoundTrip.Statement (.notC32 x) := fun h => decode_encode rfl h (by decide) rfl (trivial) rfl
theorem Laws.RoundTrip.not (x : X96) : Laws.RoundTrip.Statement (.not x) := fun h => decode_encode rfl h (by decide) rfl (trivial) rfl
theorem Laws.RoundTrip.andnC32 (x : C32R) : Laws.RoundTrip.Statement (.andnC32 x) := fun h => decode_encode rfl h (by decide) rfl (trivial) rfl
theorem Laws.RoundTrip.andn (x : Long) : Laws.RoundTrip.Statement (.andn x) := by
  cases x <;> first | exact fun h => decode_encode rfl h (by decide) rfl trivial rfl | exact fun h => nomatch (show false = true from h)
theorem Laws.RoundTrip.tern (x : X96) : Laws.RoundTrip.Statement (.tern x) := fun h => decode_encode rfl h (by decide) rfl (trivial) rfl
theorem Laws.RoundTrip.shlC32 (x : C32R) : Laws.RoundTrip.Statement (.shlC32 x) := fun h => decode_encode rfl h (by decide) rfl (trivial) rfl
theorem Laws.RoundTrip.shl (x : X96) : Laws.RoundTrip.Statement (.shl x) := fun h => decode_encode rfl h (by decide) rfl (trivial) rfl
theorem Laws.RoundTrip.shrC32 (x : C32R) : Laws.RoundTrip.Statement (.shrC32 x) := fun h => decode_encode rfl h (by decide) rfl (trivial) rfl
theorem Laws.RoundTrip.shr (x : X96) : Laws.RoundTrip.Statement (.shr x) := fun h => decode_encode rfl h (by decide) rfl (trivial) rfl
theorem Laws.RoundTrip.sarC32 (x : C32R) : Laws.RoundTrip.Statement (.sarC32 x) := fun h => decode_encode rfl h (by decide) rfl (trivial) rfl
theorem Laws.RoundTrip.sar (x : X96) : Laws.RoundTrip.Statement (.sar x) := fun h => decode_encode rfl h (by decide) rfl (trivial) rfl
theorem Laws.RoundTrip.rolC32 (x : C32R) : Laws.RoundTrip.Statement (.rolC32 x) := fun h => decode_encode rfl h (by decide) rfl (trivial) rfl
theorem Laws.RoundTrip.rol (x : X96) : Laws.RoundTrip.Statement (.rol x) := fun h => decode_encode rfl h (by decide) rfl (trivial) rfl
theorem Laws.RoundTrip.funs (x : X96) : Laws.RoundTrip.Statement (.funs x) := fun h => decode_encode rfl h (by decide) rfl (trivial) rfl
theorem Laws.RoundTrip.bfx (x : X96) : Laws.RoundTrip.Statement (.bfx x) := fun h => decode_encode rfl h (by decide) rfl (trivial) rfl
theorem Laws.RoundTrip.bfi (x : X96) : Laws.RoundTrip.Statement (.bfi x) := fun h => decode_encode rfl h (by decide) rfl (trivial) rfl
theorem Laws.RoundTrip.brevC32 (x : C32R) : Laws.RoundTrip.Statement (.brevC32 x) := fun h => decode_encode rfl h (by decide) rfl (trivial) rfl
theorem Laws.RoundTrip.brev (x : X96) : Laws.RoundTrip.Statement (.brev x) := fun h => decode_encode rfl h (by decide) rfl (trivial) rfl
theorem Laws.RoundTrip.bperm (x : X96) : Laws.RoundTrip.Statement (.bperm x) := fun h => decode_encode rfl h (by decide) rfl (trivial) rfl
theorem Laws.RoundTrip.popcC32 (x : C32R) : Laws.RoundTrip.Statement (.popcC32 x) := fun h => decode_encode rfl h (by decide) rfl (trivial) rfl
theorem Laws.RoundTrip.popc (x : X96) : Laws.RoundTrip.Statement (.popc x) := fun h => decode_encode rfl h (by decide) rfl (trivial) rfl
theorem Laws.RoundTrip.clzC32 (x : C32R) : Laws.RoundTrip.Statement (.clzC32 x) := fun h => decode_encode rfl h (by decide) rfl (trivial) rfl
theorem Laws.RoundTrip.clz (x : X96) : Laws.RoundTrip.Statement (.clz x) := fun h => decode_encode rfl h (by decide) rfl (trivial) rfl
theorem Laws.RoundTrip.ctzC32 (x : C32R) : Laws.RoundTrip.Statement (.ctzC32 x) := fun h => decode_encode rfl h (by decide) rfl (trivial) rfl
theorem Laws.RoundTrip.ctz (x : X96) : Laws.RoundTrip.Statement (.ctz x) := fun h => decode_encode rfl h (by decide) rfl (trivial) rfl
theorem Laws.RoundTrip.iext (x : X96) : Laws.RoundTrip.Statement (.iext x) := fun h => decode_encode rfl h (by decide) rfl (trivial) rfl
theorem Laws.RoundTrip.icmp (x : X96) : Laws.RoundTrip.Statement (.icmp x) := fun h => decode_encode rfl h (by decide) rfl (trivial) rfl
theorem Laws.RoundTrip.isel (x : X96) : Laws.RoundTrip.Statement (.isel x) := fun h => decode_encode rfl h (by decide) rfl (trivial) rfl
theorem Laws.RoundTrip.lea (x : Long) : Laws.RoundTrip.Statement (.lea x) := by
  cases x <;> first | exact fun h => decode_encode rfl h (by decide) rfl trivial rfl | exact fun h => nomatch (show false = true from h)
theorem Laws.RoundTrip.pand (x : X96) : Laws.RoundTrip.Statement (.pand x) := fun h => decode_encode rfl h (by decide) rfl (trivial) rfl
theorem Laws.RoundTrip.por (x : X96) : Laws.RoundTrip.Statement (.por x) := fun h => decode_encode rfl h (by decide) rfl (trivial) rfl
theorem Laws.RoundTrip.pxor (x : X96) : Laws.RoundTrip.Statement (.pxor x) := fun h => decode_encode rfl h (by decide) rfl (trivial) rfl
theorem Laws.RoundTrip.pnot (x : X96) : Laws.RoundTrip.Statement (.pnot x) := fun h => decode_encode rfl h (by decide) rfl (trivial) rfl
theorem Laws.RoundTrip.pset (x : X96) : Laws.RoundTrip.Statement (.pset x) := fun h => decode_encode rfl h (by decide) rfl (trivial) rfl
theorem Laws.RoundTrip.pget (x : X96) : Laws.RoundTrip.Statement (.pget x) := fun h => decode_encode rfl h (by decide) rfl (trivial) rfl
theorem Laws.RoundTrip.movC32 (x : C32R) : Laws.RoundTrip.Statement (.movC32 x) := fun h => decode_encode rfl h (by decide) rfl (trivial) rfl
theorem Laws.RoundTrip.mov (x : X96) : Laws.RoundTrip.Statement (.mov x) := fun h => decode_encode rfl h (by decide) rfl (trivial) rfl
theorem Laws.RoundTrip.moviC32 (x : C32I) : Laws.RoundTrip.Statement (.moviC32 x) := fun h => decode_encode rfl h (by decide) rfl (fun _ => rfl) rfl
theorem Laws.RoundTrip.movi (x : X96) : Laws.RoundTrip.Statement (.movi x) := fun h => decode_encode rfl h (by decide) rfl (trivial) rfl
theorem Laws.RoundTrip.movl (x : Long) : Laws.RoundTrip.Statement (.movl x) := by
  cases x <;> first | exact fun h => decode_encode rfl h (by decide) rfl trivial rfl | exact fun h => nomatch (show false = true from h)
theorem Laws.RoundTrip.srd (x : X96) : Laws.RoundTrip.Statement (.srd x) := fun h => decode_encode rfl h (by decide) rfl (trivial) rfl
theorem Laws.RoundTrip.swr (x : X96) : Laws.RoundTrip.Statement (.swr x) := fun h => decode_encode rfl h (by decide) rfl (trivial) rfl
theorem Laws.RoundTrip.region (x : Long) : Laws.RoundTrip.Statement (.region x) := by
  cases x <;> first | exact fun h => decode_encode rfl h (by decide) rfl trivial rfl | exact fun h => nomatch (show false = true from h)
theorem Laws.RoundTrip.perm (x : X96) : Laws.RoundTrip.Statement (.perm x) := fun h => decode_encode rfl h (by decide) rfl (trivial) rfl
theorem Laws.RoundTrip.shiftwC32 (x : C32R) : Laws.RoundTrip.Statement (.shiftwC32 x) := fun h => decode_encode rfl h (by decide) rfl (trivial) rfl
theorem Laws.RoundTrip.shiftw (x : X96) : Laws.RoundTrip.Statement (.shiftw x) := fun h => decode_encode rfl h (by decide) rfl (trivial) rfl
theorem Laws.RoundTrip.voteC32 (x : C32R) : Laws.RoundTrip.Statement (.voteC32 x) := fun h => decode_encode rfl h (by decide) rfl (trivial) rfl
theorem Laws.RoundTrip.vote (x : X96) : Laws.RoundTrip.Statement (.vote x) := fun h => decode_encode rfl h (by decide) rfl (trivial) rfl
theorem Laws.RoundTrip.rstep (x : X96) : Laws.RoundTrip.Statement (.rstep x) := fun h => decode_encode rfl h (by decide) rfl (trivial) rfl
theorem Laws.RoundTrip.bcastC32 (x : C32R) : Laws.RoundTrip.Statement (.bcastC32 x) := fun h => decode_encode rfl h (by decide) rfl (trivial) rfl
theorem Laws.RoundTrip.bcast (x : X96) : Laws.RoundTrip.Statement (.bcast x) := fun h => decode_encode rfl h (by decide) rfl (trivial) rfl
theorem Laws.RoundTrip.matchLanes (x : X96) : Laws.RoundTrip.Statement (.matchLanes x) := fun h => decode_encode rfl h (by decide) rfl (trivial) rfl
theorem Laws.RoundTrip.redw (x : X96) : Laws.RoundTrip.Statement (.redw x) := fun h => decode_encode rfl h (by decide) rfl (trivial) rfl
theorem Laws.RoundTrip.scanw (x : X96) : Laws.RoundTrip.Statement (.scanw x) := fun h => decode_encode rfl h (by decide) rfl (trivial) rfl
theorem Laws.RoundTrip.faddC32 (x : C32R) : Laws.RoundTrip.Statement (.faddC32 x) := fun h => decode_encode rfl h (by decide) rfl (trivial) rfl
theorem Laws.RoundTrip.fadd (x : Long) : Laws.RoundTrip.Statement (.fadd x) := by
  cases x <;> first | exact fun h => decode_encode rfl h (by decide) rfl trivial rfl | exact fun h => nomatch (show false = true from h)
theorem Laws.RoundTrip.fsubC32 (x : C32R) : Laws.RoundTrip.Statement (.fsubC32 x) := fun h => decode_encode rfl h (by decide) rfl (trivial) rfl
theorem Laws.RoundTrip.fsub (x : Long) : Laws.RoundTrip.Statement (.fsub x) := by
  cases x <;> first | exact fun h => decode_encode rfl h (by decide) rfl trivial rfl | exact fun h => nomatch (show false = true from h)
theorem Laws.RoundTrip.fmulC32 (x : C32R) : Laws.RoundTrip.Statement (.fmulC32 x) := fun h => decode_encode rfl h (by decide) rfl (trivial) rfl
theorem Laws.RoundTrip.fmul (x : Long) : Laws.RoundTrip.Statement (.fmul x) := by
  cases x <;> first | exact fun h => decode_encode rfl h (by decide) rfl trivial rfl | exact fun h => nomatch (show false = true from h)
theorem Laws.RoundTrip.fma (x : Long) : Laws.RoundTrip.Statement (.fma x) := by
  cases x <;> first | exact fun h => decode_encode rfl h (by decide) rfl trivial rfl | exact fun h => nomatch (show false = true from h)
theorem Laws.RoundTrip.fminC32 (x : C32R) : Laws.RoundTrip.Statement (.fminC32 x) := fun h => decode_encode rfl h (by decide) rfl (trivial) rfl
theorem Laws.RoundTrip.fmin (x : X96) : Laws.RoundTrip.Statement (.fmin x) := fun h => decode_encode rfl h (by decide) rfl (trivial) rfl
theorem Laws.RoundTrip.fmaxC32 (x : C32R) : Laws.RoundTrip.Statement (.fmaxC32 x) := fun h => decode_encode rfl h (by decide) rfl (trivial) rfl
theorem Laws.RoundTrip.fmax (x : X96) : Laws.RoundTrip.Statement (.fmax x) := fun h => decode_encode rfl h (by decide) rfl (trivial) rfl
theorem Laws.RoundTrip.fcmp (x : X96) : Laws.RoundTrip.Statement (.fcmp x) := fun h => decode_encode rfl h (by decide) rfl (trivial) rfl
theorem Laws.RoundTrip.fclass (x : X96) : Laws.RoundTrip.Statement (.fclass x) := fun h => decode_encode rfl h (by decide) rfl (trivial) rfl
theorem Laws.RoundTrip.fabsC32 (x : C32R) : Laws.RoundTrip.Statement (.fabsC32 x) := fun h => decode_encode rfl h (by decide) rfl (trivial) rfl
theorem Laws.RoundTrip.fabs (x : X96) : Laws.RoundTrip.Statement (.fabs x) := fun h => decode_encode rfl h (by decide) rfl (trivial) rfl
theorem Laws.RoundTrip.fnegC32 (x : C32R) : Laws.RoundTrip.Statement (.fnegC32 x) := fun h => decode_encode rfl h (by decide) rfl (trivial) rfl
theorem Laws.RoundTrip.fneg (x : X96) : Laws.RoundTrip.Statement (.fneg x) := fun h => decode_encode rfl h (by decide) rfl (trivial) rfl
theorem Laws.RoundTrip.fsgn (x : X96) : Laws.RoundTrip.Statement (.fsgn x) := fun h => decode_encode rfl h (by decide) rfl (trivial) rfl
theorem Laws.RoundTrip.frnd (x : X96) : Laws.RoundTrip.Statement (.frnd x) := fun h => decode_encode rfl h (by decide) rfl (trivial) rfl
theorem Laws.RoundTrip.fscale (x : X96) : Laws.RoundTrip.Statement (.fscale x) := fun h => decode_encode rfl h (by decide) rfl (trivial) rfl
theorem Laws.RoundTrip.flogb (x : X96) : Laws.RoundTrip.Statement (.flogb x) := fun h => decode_encode rfl h (by decide) rfl (trivial) rfl
theorem Laws.RoundTrip.fadd2 (x : X96) : Laws.RoundTrip.Statement (.fadd2 x) := fun h => decode_encode rfl h (by decide) rfl (trivial) rfl
theorem Laws.RoundTrip.fmul2 (x : X96) : Laws.RoundTrip.Statement (.fmul2 x) := fun h => decode_encode rfl h (by decide) rfl (trivial) rfl
theorem Laws.RoundTrip.fma2 (x : X96) : Laws.RoundTrip.Statement (.fma2 x) := fun h => decode_encode rfl h (by decide) rfl (trivial) rfl
theorem Laws.RoundTrip.fdot (x : X96) : Laws.RoundTrip.Statement (.fdot x) := fun h => decode_encode rfl h (by decide) rfl (trivial) rfl
theorem Laws.RoundTrip.fdiv (x : X96) : Laws.RoundTrip.Statement (.fdiv x) := fun h => decode_encode rfl h (by decide) rfl (trivial) rfl
theorem Laws.RoundTrip.fsqrt (x : X96) : Laws.RoundTrip.Statement (.fsqrt x) := fun h => decode_encode rfl h (by decide) rfl (trivial) rfl
theorem Laws.RoundTrip.frcp (x : X96) : Laws.RoundTrip.Statement (.frcp x) := fun h => decode_encode rfl h (by decide) rfl (trivial) rfl
theorem Laws.RoundTrip.frsq (x : X96) : Laws.RoundTrip.Statement (.frsq x) := fun h => decode_encode rfl h (by decide) rfl (trivial) rfl
theorem Laws.RoundTrip.fexp (x : X96) : Laws.RoundTrip.Statement (.fexp x) := fun h => decode_encode rfl h (by decide) rfl (trivial) rfl
theorem Laws.RoundTrip.fexpm1 (x : X96) : Laws.RoundTrip.Statement (.fexpm1 x) := fun h => decode_encode rfl h (by decide) rfl (trivial) rfl
theorem Laws.RoundTrip.flog (x : X96) : Laws.RoundTrip.Statement (.flog x) := fun h => decode_encode rfl h (by decide) rfl (trivial) rfl
theorem Laws.RoundTrip.flog1p (x : X96) : Laws.RoundTrip.Statement (.flog1p x) := fun h => decode_encode rfl h (by decide) rfl (trivial) rfl
theorem Laws.RoundTrip.ferf (x : X96) : Laws.RoundTrip.Statement (.ferf x) := fun h => decode_encode rfl h (by decide) rfl (trivial) rfl
theorem Laws.RoundTrip.ferfc (x : X96) : Laws.RoundTrip.Statement (.ferfc x) := fun h => decode_encode rfl h (by decide) rfl (trivial) rfl
theorem Laws.RoundTrip.cvt (x : X96) : Laws.RoundTrip.Statement (.cvt x) := fun h => decode_encode rfl h (by decide) rfl (trivial) rfl
theorem Laws.RoundTrip.cvti (x : X96) : Laws.RoundTrip.Statement (.cvti x) := fun h => decode_encode rfl h (by decide) rfl (trivial) rfl
theorem Laws.RoundTrip.cvtf (x : X96) : Laws.RoundTrip.Statement (.cvtf x) := fun h => decode_encode rfl h (by decide) rfl (trivial) rfl
theorem Laws.RoundTrip.packn (x : X96) : Laws.RoundTrip.Statement (.packn x) := fun h => decode_encode rfl h (by decide) rfl (trivial) rfl
theorem Laws.RoundTrip.qnt (x : X96) : Laws.RoundTrip.Statement (.qnt x) := fun h => decode_encode rfl h (by decide) rfl (trivial) rfl
theorem Laws.RoundTrip.dqnt (x : X96) : Laws.RoundTrip.Statement (.dqnt x) := fun h => decode_encode rfl h (by decide) rfl (trivial) rfl
theorem Laws.RoundTrip.rnd (x : X96) : Laws.RoundTrip.Statement (.rnd x) := fun h => decode_encode rfl h (by decide) rfl (trivial) rfl
theorem Laws.RoundTrip.rndf (x : X96) : Laws.RoundTrip.Statement (.rndf x) := fun h => decode_encode rfl h (by decide) rfl (trivial) rfl
theorem Laws.RoundTrip.rndm (x : X96) : Laws.RoundTrip.Statement (.rndm x) := fun h => decode_encode rfl h (by decide) rfl (trivial) rfl
theorem Laws.RoundTrip.ivmk (x : X96) : Laws.RoundTrip.Statement (.ivmk x) := fun h => decode_encode rfl h (by decide) rfl (trivial) rfl
theorem Laws.RoundTrip.ivlo (x : X96) : Laws.RoundTrip.Statement (.ivlo x) := fun h => decode_encode rfl h (by decide) rfl (trivial) rfl
theorem Laws.RoundTrip.ivhi (x : X96) : Laws.RoundTrip.Statement (.ivhi x) := fun h => decode_encode rfl h (by decide) rfl (trivial) rfl
theorem Laws.RoundTrip.ld (x : Long) : Laws.RoundTrip.Statement (.ld x) := by
  cases x <;> first | exact fun h => decode_encode rfl h (by decide) rfl trivial rfl | exact fun h => nomatch (show false = true from h)
theorem Laws.RoundTrip.st (x : Long) : Laws.RoundTrip.Statement (.st x) := by
  cases x <;> first | exact fun h => decode_encode rfl h (by decide) rfl trivial rfl | exact fun h => nomatch (show false = true from h)
theorem Laws.RoundTrip.ldsC32 (x : C32R) : Laws.RoundTrip.Statement (.ldsC32 x) := fun h => decode_encode rfl h (by decide) rfl (trivial) rfl
theorem Laws.RoundTrip.lds (x : X96) : Laws.RoundTrip.Statement (.lds x) := fun h => decode_encode rfl h (by decide) rfl (trivial) rfl
theorem Laws.RoundTrip.stsC32 (x : C32R) : Laws.RoundTrip.Statement (.stsC32 x) := fun h => decode_encode rfl h (by decide) rfl (trivial) rfl
theorem Laws.RoundTrip.sts (x : X96) : Laws.RoundTrip.Statement (.sts x) := fun h => decode_encode rfl h (by decide) rfl (trivial) rfl
theorem Laws.RoundTrip.ldw (x : X96) : Laws.RoundTrip.Statement (.ldw x) := fun h => decode_encode rfl h (by decide) rfl (trivial) rfl
theorem Laws.RoundTrip.stw (x : X96) : Laws.RoundTrip.Statement (.stw x) := fun h => decode_encode rfl h (by decide) rfl (trivial) rfl
theorem Laws.RoundTrip.sld (x : Long) : Laws.RoundTrip.Statement (.sld x) := by
  cases x <;> first | exact fun h => decode_encode rfl h (by decide) rfl trivial rfl | exact fun h => nomatch (show false = true from h)
theorem Laws.RoundTrip.sst (x : Long) : Laws.RoundTrip.Statement (.sst x) := by
  cases x <;> first | exact fun h => decode_encode rfl h (by decide) rfl trivial rfl | exact fun h => nomatch (show false = true from h)
theorem Laws.RoundTrip.ldwt (x : X96) : Laws.RoundTrip.Statement (.ldwt x) := fun h => decode_encode rfl h (by decide) rfl (trivial) rfl
theorem Laws.RoundTrip.ldsm (x : X96) : Laws.RoundTrip.Statement (.ldsm x) := fun h => decode_encode rfl h (by decide) rfl (trivial) rfl
theorem Laws.RoundTrip.stf (x : X96) : Laws.RoundTrip.Statement (.stf x) := fun h => decode_encode rfl h (by decide) rfl (trivial) rfl
theorem Laws.RoundTrip.cstore (x : X96) : Laws.RoundTrip.Statement (.cstore x) := fun h => decode_encode rfl h (by decide) rfl (trivial) rfl
theorem Laws.RoundTrip.xload (x : X96) : Laws.RoundTrip.Statement (.xload x) := fun h => decode_encode rfl h (by decide) rfl (trivial) rfl
theorem Laws.RoundTrip.atom (x : X96) : Laws.RoundTrip.Statement (.atom x) := fun h => decode_encode rfl h (by decide) rfl (trivial) rfl
theorem Laws.RoundTrip.atoms (x : X96) : Laws.RoundTrip.Statement (.atoms x) := fun h => decode_encode rfl h (by decide) rfl (trivial) rfl
theorem Laws.RoundTrip.atomw (x : X96) : Laws.RoundTrip.Statement (.atomw x) := fun h => decode_encode rfl h (by decide) rfl (trivial) rfl
theorem Laws.RoundTrip.red (x : X96) : Laws.RoundTrip.Statement (.red x) := fun h => decode_encode rfl h (by decide) rfl (trivial) rfl
theorem Laws.RoundTrip.reds (x : X96) : Laws.RoundTrip.Statement (.reds x) := fun h => decode_encode rfl h (by decide) rfl (trivial) rfl
theorem Laws.RoundTrip.cas (x : X96) : Laws.RoundTrip.Statement (.cas x) := fun h => decode_encode rfl h (by decide) rfl (trivial) rfl
theorem Laws.RoundTrip.fenceC32 (x : C32R) : Laws.RoundTrip.Statement (.fenceC32 x) := fun h => decode_encode rfl h (by decide) rfl (trivial) rfl
theorem Laws.RoundTrip.fence (x : X96) : Laws.RoundTrip.Statement (.fence x) := fun h => decode_encode rfl h (by decide) rfl (trivial) rfl
theorem Laws.RoundTrip.pref (x : X96) : Laws.RoundTrip.Statement (.pref x) := fun h => decode_encode rfl h (by decide) rfl (trivial) rfl
theorem Laws.RoundTrip.probe (x : X96) : Laws.RoundTrip.Statement (.probe x) := fun h => decode_encode rfl h (by decide) rfl (trivial) rfl
theorem Laws.RoundTrip.cctlEv (x : X96) : Laws.RoundTrip.Statement (.cctlEv x) := fun h => decode_encode rfl h (by decide) rfl trivial (by
  have hn : x.op7.toNat = 0 := wf_selector (opc := 0xD6) (b := .x x) rfl h rfl
  change some (if x.op7.toNat = 0 then Instr.cctlEv x else Instr.cctlEvall x) = _
  simp [hn])
theorem Laws.RoundTrip.cctlEvall (x : X96) : Laws.RoundTrip.Statement (.cctlEvall x) := fun h => decode_encode rfl h (by decide) rfl trivial (by
  have hn : x.op7.toNat = 1 := wf_selector (opc := 0xD6) (b := .x x) rfl h rfl
  change some (if x.op7.toNat = 0 then Instr.cctlEv x else Instr.cctlEvall x) = _
  simp [hn])
theorem Laws.RoundTrip.cpy (x : Long) : Laws.RoundTrip.Statement (.cpy x) := by
  cases x <;> first | exact fun h => decode_encode rfl h (by decide) rfl trivial rfl | exact fun h => nomatch (show false = true from h)
theorem Laws.RoundTrip.kickC32 (x : C32R) : Laws.RoundTrip.Statement (.kickC32 x) := fun h => decode_encode rfl h (by decide) rfl (trivial) rfl
theorem Laws.RoundTrip.kick (x : X96) : Laws.RoundTrip.Statement (.kick x) := fun h => decode_encode rfl h (by decide) rfl (trivial) rfl
theorem Laws.RoundTrip.boinit (x : X96) : Laws.RoundTrip.Statement (.boinit x) := fun h => decode_encode rfl h (by decide) rfl (trivial) rfl
theorem Laws.RoundTrip.boexp (x : X96) : Laws.RoundTrip.Statement (.boexp x) := fun h => decode_encode rfl h (by decide) rfl (trivial) rfl
theorem Laws.RoundTrip.boarr (x : X96) : Laws.RoundTrip.Statement (.boarr x) := fun h => decode_encode rfl h (by decide) rfl (trivial) rfl
theorem Laws.RoundTrip.bowaitC32 (x : C32R) : Laws.RoundTrip.Statement (.bowaitC32 x) := fun h => decode_encode rfl h (by decide) rfl (trivial) rfl
theorem Laws.RoundTrip.bowait (x : X96) : Laws.RoundTrip.Statement (.bowait x) := fun h => decode_encode rfl h (by decide) rfl (trivial) rfl
theorem Laws.RoundTrip.bofree (x : X96) : Laws.RoundTrip.Statement (.bofree x) := fun h => decode_encode rfl h (by decide) rfl (trivial) rfl
theorem Laws.RoundTrip.drain (x : X96) : Laws.RoundTrip.Statement (.drain x) := fun h => decode_encode rfl h (by decide) rfl (trivial) rfl
theorem Laws.RoundTrip.reduce (x : X96) : Laws.RoundTrip.Statement (.reduce x) := fun h => decode_encode rfl h (by decide) rfl (trivial) rfl
theorem Laws.RoundTrip.summ (x : X96) : Laws.RoundTrip.Statement (.summ x) := fun h => decode_encode rfl h (by decide) rfl (trivial) rfl
theorem Laws.RoundTrip.mma (x : Long) : Laws.RoundTrip.Statement (.mma x) := by
  cases x <;> first | exact fun h => decode_encode rfl h (by decide) rfl trivial rfl | exact fun h => nomatch (show false = true from h)
theorem Laws.RoundTrip.rsv (x : X96) : Laws.RoundTrip.Statement (.rsv x) := fun h => decode_encode rfl h (by decide) rfl (trivial) rfl
theorem Laws.RoundTrip.rsvfreeC32 (x : C32R) : Laws.RoundTrip.Statement (.rsvfreeC32 x) := fun h => decode_encode rfl h (by decide) rfl (trivial) rfl
theorem Laws.RoundTrip.rsvfree (x : X96) : Laws.RoundTrip.Statement (.rsvfree x) := fun h => decode_encode rfl h (by decide) rfl (trivial) rfl
theorem Laws.RoundTrip.obld (x : X96) : Laws.RoundTrip.Statement (.obld x) := fun h => decode_encode rfl h (by decide) rfl (trivial) rfl
theorem Laws.RoundTrip.accrd (x : X96) : Laws.RoundTrip.Statement (.accrd x) := fun h => decode_encode rfl h (by decide) rfl (trivial) rfl
theorem Laws.RoundTrip.accst (x : X96) : Laws.RoundTrip.Statement (.accst x) := fun h => decode_encode rfl h (by decide) rfl (trivial) rfl
theorem Laws.RoundTrip.acczTake (x : X96) : Laws.RoundTrip.Statement (.acczTake x) := fun h => decode_encode rfl h (by decide) rfl trivial (by
  have hn : x.op7.toNat = 1 := wf_selector (opc := 0xF0) (b := .x x) rfl h rfl
  change some (if x.op7.toNat = 0 then Instr.acczClr x else if x.op7.toNat = 1 then Instr.acczTake x else Instr.acczGive x) = _
  simp [hn])
theorem Laws.RoundTrip.acczGive (x : X96) : Laws.RoundTrip.Statement (.acczGive x) := fun h => decode_encode rfl h (by decide) rfl trivial (by
  have hn : x.op7.toNat = 2 := wf_selector (opc := 0xF0) (b := .x x) rfl h rfl
  change some (if x.op7.toNat = 0 then Instr.acczClr x else if x.op7.toNat = 1 then Instr.acczTake x else Instr.acczGive x) = _
  simp [hn])
theorem Laws.RoundTrip.acczClr (x : X96) : Laws.RoundTrip.Statement (.acczClr x) := fun h => decode_encode rfl h (by decide) rfl trivial (by
  have hn : x.op7.toNat = 0 := wf_selector (opc := 0xF0) (b := .x x) rfl h rfl
  change some (if x.op7.toNat = 0 then Instr.acczClr x else if x.op7.toNat = 1 then Instr.acczTake x else Instr.acczGive x) = _
  simp [hn])
theorem Laws.RoundTrip.resolveC32 (x : C32R) : Laws.RoundTrip.Statement (.resolveC32 x) := fun h => decode_encode rfl h (by decide) rfl (trivial) rfl
theorem Laws.RoundTrip.resolve (x : X96) : Laws.RoundTrip.Statement (.resolve x) := fun h => decode_encode rfl h (by decide) rfl (trivial) rfl
theorem Laws.RoundTrip.sqload (x : X96) : Laws.RoundTrip.Statement (.sqload x) := fun h => decode_encode rfl h (by decide) rfl trivial (by
  have hn : x.op7.toNat = 0 := wf_selector (opc := 0xF2) (b := .x x) rfl h rfl
  change some (if x.op7.toNat = 0 then Instr.sqload x else if x.op7.toNat = 1 then Instr.sqstart x else if x.op7.toNat = 2 then Instr.sqwait x else if x.op7.toNat = 3 then Instr.sqstat x else Instr.sqabort x) = _
  simp [hn])
theorem Laws.RoundTrip.sqstart (x : X96) : Laws.RoundTrip.Statement (.sqstart x) := fun h => decode_encode rfl h (by decide) rfl trivial (by
  have hn : x.op7.toNat = 1 := wf_selector (opc := 0xF2) (b := .x x) rfl h rfl
  change some (if x.op7.toNat = 0 then Instr.sqload x else if x.op7.toNat = 1 then Instr.sqstart x else if x.op7.toNat = 2 then Instr.sqwait x else if x.op7.toNat = 3 then Instr.sqstat x else Instr.sqabort x) = _
  simp [hn])
theorem Laws.RoundTrip.sqwait (x : X96) : Laws.RoundTrip.Statement (.sqwait x) := fun h => decode_encode rfl h (by decide) rfl trivial (by
  have hn : x.op7.toNat = 2 := wf_selector (opc := 0xF2) (b := .x x) rfl h rfl
  change some (if x.op7.toNat = 0 then Instr.sqload x else if x.op7.toNat = 1 then Instr.sqstart x else if x.op7.toNat = 2 then Instr.sqwait x else if x.op7.toNat = 3 then Instr.sqstat x else Instr.sqabort x) = _
  simp [hn])
theorem Laws.RoundTrip.sqstat (x : X96) : Laws.RoundTrip.Statement (.sqstat x) := fun h => decode_encode rfl h (by decide) rfl trivial (by
  have hn : x.op7.toNat = 3 := wf_selector (opc := 0xF2) (b := .x x) rfl h rfl
  change some (if x.op7.toNat = 0 then Instr.sqload x else if x.op7.toNat = 1 then Instr.sqstart x else if x.op7.toNat = 2 then Instr.sqwait x else if x.op7.toNat = 3 then Instr.sqstat x else Instr.sqabort x) = _
  simp [hn])
theorem Laws.RoundTrip.sqabort (x : X96) : Laws.RoundTrip.Statement (.sqabort x) := fun h => decode_encode rfl h (by decide) rfl trivial (by
  have hn : x.op7.toNat = 4 := wf_selector (opc := 0xF2) (b := .x x) rfl h rfl
  change some (if x.op7.toNat = 0 then Instr.sqload x else if x.op7.toNat = 1 then Instr.sqstart x else if x.op7.toNat = 2 then Instr.sqwait x else if x.op7.toNat = 3 then Instr.sqstat x else Instr.sqabort x) = _
  simp [hn])
theorem Laws.RoundTrip.msend (x : Long) : Laws.RoundTrip.Statement (.msend x) := by
  cases x <;> first | exact fun h => decode_encode rfl h (by decide) rfl trivial rfl | exact fun h => nomatch (show false = true from h)
theorem Laws.RoundTrip.witn (x : X96) : Laws.RoundTrip.Statement (.witn x) := fun h => decode_encode rfl h (by decide) rfl (trivial) rfl
theorem Laws.RoundTrip.wstatReg (x : X96) : Laws.RoundTrip.Statement (.wstatReg x) := fun h => decode_encode rfl h (by decide) rfl trivial (by
  have hn : x.op7.toNat = 0 := wf_selector (opc := 0xF5) (b := .x x) rfl h rfl
  change some (if x.op7.toNat = 0 then Instr.wstatReg x else Instr.wstatAtt x) = _
  simp [hn])
theorem Laws.RoundTrip.wstatAtt (x : X96) : Laws.RoundTrip.Statement (.wstatAtt x) := fun h => decode_encode rfl h (by decide) rfl trivial (by
  have hn : x.op7.toNat = 1 := wf_selector (opc := 0xF5) (b := .x x) rfl h rfl
  change some (if x.op7.toNat = 0 then Instr.wstatReg x else Instr.wstatAtt x) = _
  simp [hn])
theorem Laws.RoundTrip.trapC32 (x : C32I) : Laws.RoundTrip.Statement (.trapC32 x) := fun h => decode_encode rfl h (by decide) rfl (fun _ => rfl) rfl
theorem Laws.RoundTrip.trap (x : X96) : Laws.RoundTrip.Statement (.trap x) := fun h => decode_encode rfl h (by decide) rfl (trivial) rfl
theorem Laws.RoundTrip.rteRep (x : C32R) : Laws.RoundTrip.Statement (.rteRep x) := fun h => decode_encode rfl h (by decide) rfl trivial (by
  have hn : x.a.toNat = 0 := wf_selector (opc := 0xF9) (b := .r x) rfl h rfl
  change some (if x.a.toNat = 0 then Instr.rteRep x else Instr.rteSkip x) = _
  simp [hn])
theorem Laws.RoundTrip.rteSkip (x : C32R) : Laws.RoundTrip.Statement (.rteSkip x) := fun h => decode_encode rfl h (by decide) rfl trivial (by
  have hn : x.a.toNat = 1 := wf_selector (opc := 0xF9) (b := .r x) rfl h rfl
  change some (if x.a.toNat = 0 then Instr.rteRep x else Instr.rteSkip x) = _
  simp [hn])
theorem Laws.RoundTrip.csrr (x : X96) : Laws.RoundTrip.Statement (.csrr x) := fun h => decode_encode rfl h (by decide) rfl (trivial) rfl
theorem Laws.RoundTrip.csrw (x : X96) : Laws.RoundTrip.Statement (.csrw x) := fun h => decode_encode rfl h (by decide) rfl (trivial) rfl
theorem Laws.RoundTrip.halt (x : C32R) : Laws.RoundTrip.Statement (.halt x) := fun h => decode_encode rfl h (by decide) rfl (trivial) rfl
theorem Laws.RoundTrip.tlbiAll (x : X96) : Laws.RoundTrip.Statement (.tlbiAll x) := fun h => decode_encode rfl h (by decide) rfl trivial (by
  have hn : x.op7.toNat = 0 := wf_selector (opc := 0xFD) (b := .x x) rfl h rfl
  change some (if x.op7.toNat = 0 then Instr.tlbiAll x else if x.op7.toNat = 1 then Instr.tlbiCtx x else Instr.tlbiPage x) = _
  simp [hn])
theorem Laws.RoundTrip.tlbiCtx (x : X96) : Laws.RoundTrip.Statement (.tlbiCtx x) := fun h => decode_encode rfl h (by decide) rfl trivial (by
  have hn : x.op7.toNat = 1 := wf_selector (opc := 0xFD) (b := .x x) rfl h rfl
  change some (if x.op7.toNat = 0 then Instr.tlbiAll x else if x.op7.toNat = 1 then Instr.tlbiCtx x else Instr.tlbiPage x) = _
  simp [hn])
theorem Laws.RoundTrip.tlbiPage (x : X96) : Laws.RoundTrip.Statement (.tlbiPage x) := fun h => decode_encode rfl h (by decide) rfl trivial (by
  have hn : x.op7.toNat = 2 := wf_selector (opc := 0xFD) (b := .x x) rfl h rfl
  change some (if x.op7.toNat = 0 then Instr.tlbiAll x else if x.op7.toNat = 1 then Instr.tlbiCtx x else Instr.tlbiPage x) = _
  simp [hn])
theorem Laws.RoundTrip.waiti (x : C32R) : Laws.RoundTrip.Statement (.waiti x) := fun h => decode_encode rfl h (by decide) rfl (trivial) rfl
theorem Laws.RoundTrip.errorDetected (err : ErrorReport) : Laws.RoundTrip.Statement (.errorDetected err) := fun h => nomatch h
theorem Laws.RoundTrip.kaushInboundAccess (acc : PeerAccess) : Laws.RoundTrip.Statement (.kaushInboundAccess acc) := fun h => nomatch h
theorem Laws.RoundTrip.attestationRequest (req : AttRequest) : Laws.RoundTrip.Statement (.attestationRequest req) := fun h => nomatch h
theorem Laws.RoundTrip.pkglim (write : Option Nat) : Laws.RoundTrip.Statement (.pkglim write) := fun h => nomatch h
theorem Laws.RoundTrip.dielim (die : Nat) (write : Option Nat) : Laws.RoundTrip.Statement (.dielim die write) := fun h => nomatch h
theorem Laws.RoundTrip.illegalInstruction (detail : Nat) : Laws.RoundTrip.Statement (.illegalInstruction detail) := fun h => nomatch h
theorem Laws.RoundTrip.instructionFetchFault (reason : Nat) : Laws.RoundTrip.Statement (.instructionFetchFault reason) := fun h => nomatch h
theorem Laws.RoundTrip.packagePowerOn : Laws.RoundTrip.Statement .packagePowerOn := fun h => nomatch h
theorem Laws.RoundTrip.firmwareWatchdogReset : Laws.RoundTrip.Statement .firmwareWatchdogReset := fun h => nomatch h
theorem Laws.RoundTrip.recoveryMailboxWrite : Laws.RoundTrip.Statement .recoveryMailboxWrite := fun h => nomatch h
theorem Laws.RoundTrip.dieReset : Laws.RoundTrip.Statement .dieReset := fun h => nomatch h
theorem Laws.RoundTrip.sqDoorbellWrite : Laws.RoundTrip.Statement .sqDoorbellWrite := fun h => nomatch h
theorem Laws.RoundTrip.cqDoorbellWrite : Laws.RoundTrip.Statement .cqDoorbellWrite := fun h => nomatch h
theorem Laws.RoundTrip.qcommitWrite : Laws.RoundTrip.Statement .qcommitWrite := fun h => nomatch h
theorem Laws.RoundTrip.launchRecordFetch : Laws.RoundTrip.Statement .launchRecordFetch := fun h => nomatch h
theorem Laws.RoundTrip.launchDispatch : Laws.RoundTrip.Statement .launchDispatch := fun h => nomatch h
theorem Laws.RoundTrip.quadAdmission : Laws.RoundTrip.Statement .quadAdmission := fun h => nomatch h
theorem Laws.RoundTrip.teamRerunAdmission : Laws.RoundTrip.Statement .teamRerunAdmission := fun h => nomatch h
theorem Laws.RoundTrip.formedWarpAdmission : Laws.RoundTrip.Statement .formedWarpAdmission := fun h => nomatch h
theorem Laws.RoundTrip.binTimerExpiry : Laws.RoundTrip.Statement .binTimerExpiry := fun h => nomatch h
theorem Laws.RoundTrip.aggregatorGroupClose : Laws.RoundTrip.Statement .aggregatorGroupClose := fun h => nomatch h
theorem Laws.RoundTrip.launchCompletion : Laws.RoundTrip.Statement .launchCompletion := fun h => nomatch h
theorem Laws.RoundTrip.witnessSubmission : Laws.RoundTrip.Statement .witnessSubmission := fun h => nomatch h
theorem Laws.RoundTrip.projCheck : Laws.RoundTrip.Statement .projCheck := fun h => nomatch h
theorem Laws.RoundTrip.orderCheck : Laws.RoundTrip.Statement .orderCheck := fun h => nomatch h
theorem Laws.RoundTrip.residualCheck : Laws.RoundTrip.Statement .residualCheck := fun h => nomatch h
theorem Laws.RoundTrip.prefixCheck : Laws.RoundTrip.Statement .prefixCheck := fun h => nomatch h
theorem Laws.RoundTrip.stepCheck : Laws.RoundTrip.Statement .stepCheck := fun h => nomatch h
theorem Laws.RoundTrip.shadowMismatch : Laws.RoundTrip.Statement .shadowMismatch := fun h => nomatch h
theorem Laws.RoundTrip.dualComparison : Laws.RoundTrip.Statement .dualComparison := fun h => nomatch h
theorem Laws.RoundTrip.rerunDispatch : Laws.RoundTrip.Statement .rerunDispatch := fun h => nomatch h
theorem Laws.RoundTrip.completionRecordWrite : Laws.RoundTrip.Statement .completionRecordWrite := fun h => nomatch h
theorem Laws.RoundTrip.releaseGateDelivery : Laws.RoundTrip.Statement .releaseGateDelivery := fun h => nomatch h
theorem Laws.RoundTrip.storeQueueDrain : Laws.RoundTrip.Statement .storeQueueDrain := fun h => nomatch h
theorem Laws.RoundTrip.outboundSend : Laws.RoundTrip.Statement .outboundSend := fun h => nomatch h
theorem Laws.RoundTrip.fetch : Laws.RoundTrip.Statement .fetch := fun h => nomatch h
theorem Laws.RoundTrip.evict : Laws.RoundTrip.Statement .evict := fun h => nomatch h
theorem Laws.RoundTrip.engineQueueApply : Laws.RoundTrip.Statement .engineQueueApply := fun h => nomatch h
theorem Laws.RoundTrip.atomicPerform : Laws.RoundTrip.Statement .atomicPerform := fun h => nomatch h
theorem Laws.RoundTrip.walkComplete : Laws.RoundTrip.Statement .walkComplete := fun h => nomatch h
theorem Laws.RoundTrip.accessComplete : Laws.RoundTrip.Statement .accessComplete := fun h => nomatch h
theorem Laws.RoundTrip.fqretryWrite : Laws.RoundTrip.Statement .fqretryWrite := fun h => nomatch h
theorem Laws.RoundTrip.fqdeliverWrite : Laws.RoundTrip.Statement .fqdeliverWrite := fun h => nomatch h
theorem Laws.RoundTrip.fqheadWrite : Laws.RoundTrip.Statement .fqheadWrite := fun h => nomatch h
theorem Laws.RoundTrip.fabricRequestArrival : Laws.RoundTrip.Statement .fabricRequestArrival := fun h => nomatch h
theorem Laws.RoundTrip.fabricResponseArrival : Laws.RoundTrip.Statement .fabricResponseArrival := fun h => nomatch h
theorem Laws.RoundTrip.fabricAckArrival : Laws.RoundTrip.Statement .fabricAckArrival := fun h => nomatch h
theorem Laws.RoundTrip.retransmitTimerExpiry : Laws.RoundTrip.Statement .retransmitTimerExpiry := fun h => nomatch h
theorem Laws.RoundTrip.messageArrival : Laws.RoundTrip.Statement .messageArrival := fun h => nomatch h
theorem Laws.RoundTrip.spawnPlacement : Laws.RoundTrip.Statement .spawnPlacement := fun h => nomatch h
theorem Laws.RoundTrip.quarterEvent : Laws.RoundTrip.Statement .quarterEvent := fun h => nomatch h
theorem Laws.RoundTrip.handoffGroupPlace : Laws.RoundTrip.Statement .handoffGroupPlace := fun h => nomatch h
theorem Laws.RoundTrip.taskStart : Laws.RoundTrip.Statement .taskStart := fun h => nomatch h
theorem Laws.RoundTrip.copySectorLand : Laws.RoundTrip.Statement .copySectorLand := fun h => nomatch h
theorem Laws.RoundTrip.taskComplete : Laws.RoundTrip.Statement .taskComplete := fun h => nomatch h
theorem Laws.RoundTrip.refreshSlotEnd : Laws.RoundTrip.Statement .refreshSlotEnd := fun h => nomatch h
theorem Laws.RoundTrip.weightWriteWindowOpen : Laws.RoundTrip.Statement .weightWriteWindowOpen := fun h => nomatch h
theorem Laws.RoundTrip.weightStoreDigestCheck : Laws.RoundTrip.Statement .weightStoreDigestCheck := fun h => nomatch h
theorem Laws.RoundTrip.sleepExpiry : Laws.RoundTrip.Statement .sleepExpiry := fun h => nomatch h
theorem Laws.RoundTrip.bowaitSatisfied : Laws.RoundTrip.Statement .bowaitSatisfied := fun h => nomatch h
theorem Laws.RoundTrip.regangMerge : Laws.RoundTrip.Statement .regangMerge := fun h => nomatch h
theorem Laws.RoundTrip.regroupFusion : Laws.RoundTrip.Statement .regroupFusion := fun h => nomatch h
theorem Laws.RoundTrip.teamSave : Laws.RoundTrip.Statement .teamSave := fun h => nomatch h
theorem Laws.RoundTrip.teamRestore : Laws.RoundTrip.Statement .teamRestore := fun h => nomatch h
theorem Laws.RoundTrip.preemptSave : Laws.RoundTrip.Statement .preemptSave := fun h => nomatch h
theorem Laws.RoundTrip.preemptDrain : Laws.RoundTrip.Statement .preemptDrain := fun h => nomatch h
theorem Laws.RoundTrip.preemptDiscard : Laws.RoundTrip.Statement .preemptDiscard := fun h => nomatch h
theorem Laws.RoundTrip.sevWrite : Laws.RoundTrip.Statement .sevWrite := fun h => nomatch h
theorem Laws.RoundTrip.stagingPoolConfigWrite : Laws.RoundTrip.Statement .stagingPoolConfigWrite := fun h => nomatch h
theorem Laws.RoundTrip.savePoolConfigWrite : Laws.RoundTrip.Statement .savePoolConfigWrite := fun h => nomatch h
theorem Laws.RoundTrip.peerWindowConfigWrite : Laws.RoundTrip.Statement .peerWindowConfigWrite := fun h => nomatch h
theorem Laws.RoundTrip.fwmodeWrite : Laws.RoundTrip.Statement .fwmodeWrite := fun h => nomatch h
theorem Laws.RoundTrip.lclaimWrite : Laws.RoundTrip.Statement .lclaimWrite := fun h => nomatch h
theorem Laws.RoundTrip.lrenewWrite : Laws.RoundTrip.Statement .lrenewWrite := fun h => nomatch h
theorem Laws.RoundTrip.plimWrite : Laws.RoundTrip.Statement .plimWrite := fun h => nomatch h
theorem Laws.RoundTrip.thotWrite : Laws.RoundTrip.Statement .thotWrite := fun h => nomatch h
theorem Laws.RoundTrip.scancfgWrite : Laws.RoundTrip.Statement .scancfgWrite := fun h => nomatch h
theorem Laws.RoundTrip.frappWrite : Laws.RoundTrip.Statement .frappWrite := fun h => nomatch h
theorem Laws.RoundTrip.finjWrite : Laws.RoundTrip.Statement .finjWrite := fun h => nomatch h
theorem Laws.RoundTrip.temperatureSample : Laws.RoundTrip.Statement .temperatureSample := fun h => nomatch h
theorem Laws.RoundTrip.doldrumsScanStart : Laws.RoundTrip.Statement .doldrumsScanStart := fun h => nomatch h
theorem Laws.RoundTrip.scanComplete : Laws.RoundTrip.Statement .scanComplete := fun h => nomatch h
theorem Laws.RoundTrip.scanAbort : Laws.RoundTrip.Statement .scanAbort := fun h => nomatch h
theorem Laws.RoundTrip.clusterMapUpdate : Laws.RoundTrip.Statement .clusterMapUpdate := fun h => nomatch h
theorem Laws.RoundTrip.attestationReportWrite : Laws.RoundTrip.Statement .attestationReportWrite := fun h => nomatch h
theorem Laws.RoundTrip.temps : Laws.RoundTrip.Statement .temps := fun h => nomatch h
theorem Laws.RoundTrip.fread : Laws.RoundTrip.Statement .fread := fun h => nomatch h
theorem Laws.RoundTrip.fack : Laws.RoundTrip.Statement .fack := fun h => nomatch h
theorem Laws.RoundTrip.waitiWake : Laws.RoundTrip.Statement .waitiWake := fun h => nomatch h
theorem Laws.RoundTrip.solverRunStart : Laws.RoundTrip.Statement .solverRunStart := fun h => nomatch h
theorem Laws.RoundTrip.solverStageLaunch : Laws.RoundTrip.Statement .solverStageLaunch := fun h => nomatch h
theorem Laws.RoundTrip.solverStageEnd : Laws.RoundTrip.Statement .solverStageEnd := fun h => nomatch h
theorem Laws.RoundTrip.combineWitnessCheck : Laws.RoundTrip.Statement .combineWitnessCheck := fun h => nomatch h

end Sys2Proof
end

