-- ==== Sys2Proof/Laws/Register.lean ====
section
/-!
SUPPORT. Every register-computing instruction retires with its destinations alone changed: one lemma per constructor.
-/
namespace Sys2Proof.Laws.Register
open Sys2Proof.Machine

theorem elect_alu (x : C32R) (s : State) : exec (.elect x) s = alu s 0x14 (x.op 0) { e1 := true } fun _ e t _ _ => { pred := some { v := .ofBool ((e.active (x.op 0).g).headD 0 = t) } } := rfl
theorem elect (x : C32R) : RegisterRetires (.elect x) 0x14 ((Body.r x).op 0x14) :=
  retires_of_alu (elect_alu x) fun _ => outBound_pred rfl fun _ _ _ _ => ⟨rfl, rfl⟩
theorem iaddC32 (x : C32R) : RegisterRetires (.iaddC32 x) 0x20 ((Body.r x).op 0x20) :=
  retires_of_alu (fun _ => rfl) fun _ => outBound_one rfl (tyRegs_or _) fun _ _ _ v => intOut_bound _ _ _ v
theorem iadd (x : Long) : RegisterRetires (.iadd x) 0x20 (x.body.op 0x20) := by
  cases x <;> exact retires_of_alu (fun _ => rfl) fun _ => outBound_one rfl (tyRegs_or _) fun _ _ _ v => intOut_bound _ _ _ v
theorem isubC32 (x : C32R) : RegisterRetires (.isubC32 x) 0x21 ((Body.r x).op 0x21) :=
  retires_of_alu (fun _ => rfl) fun _ => outBound_one rfl (tyRegs_or _) fun _ _ _ v => intOut_bound _ _ _ v
theorem isub (x : Long) : RegisterRetires (.isub x) 0x21 (x.body.op 0x21) := by
  cases x <;> exact retires_of_alu (fun _ => rfl) fun _ => outBound_one rfl (tyRegs_or _) fun _ _ _ v => intOut_bound _ _ _ v
theorem iaddx (x : X96) : RegisterRetires (.iaddx x) 0x22 ((Body.x x).op 0x22) :=
  retires_of_alu (fun _ => rfl) fun _ => carry_bound rfl (tyRegs_or _) rfl fun _ _ _ v => carryOut_bound false x.op v
theorem isubx (x : X96) : RegisterRetires (.isubx x) 0x23 ((Body.x x).op 0x23) :=
  retires_of_alu (fun _ => rfl) fun _ => carry_bound rfl (tyRegs_or _) rfl fun _ _ _ v => carryOut_bound true x.op v
theorem imulC32 (x : C32R) : RegisterRetires (.imulC32 x) 0x24 ((Body.r x).op 0x24) :=
  retires_of_alu (fun _ => rfl) fun _ => outBound_one rfl (tyRegs_or _) fun _ _ _ v => intOut_bound _ _ _ v
theorem imul (x : Long) : RegisterRetires (.imul x) 0x24 (x.body.op 0x24) := by
  cases x <;> exact retires_of_alu (fun _ => rfl) fun _ => outBound_one rfl (tyRegs_or _) fun _ _ _ v => intOut_bound _ _ _ v
theorem imulhC32 (x : C32R) : RegisterRetires (.imulhC32 x) 0x25 ((Body.r x).op 0x25) :=
  retires_of_alu (fun _ => rfl) fun _ => outBound_one rfl (tyRegs_or _) fun _ _ _ v => intOut_bound _ _ _ v
theorem imulh (x : X96) : RegisterRetires (.imulh x) 0x25 ((Body.x x).op 0x25) :=
  retires_of_alu (fun _ => rfl) fun _ => outBound_one rfl (tyRegs_or _) fun _ _ _ v => intOut_bound _ _ _ v
theorem imulw (x : X96) : RegisterRetires (.imulw x) 0x26 ((Body.x x).op 0x26) :=
  retires_of_alu (fun _ => rfl) fun _ => outBound_one rfl (by show (if _ then 64 else 32) = 32 ∨ (if _ then 64 else 32) = 64; split <;> simp) fun _ _ _ v => intOut_bound _ _ _ v
theorem imad (x : Long) : RegisterRetires (.imad x) 0x27 (x.body.op 0x27) := by
  cases x <;> exact retires_of_alu (fun _ => rfl) fun _ => outBound_one rfl (tyRegs_or _) fun _ _ _ v => intOut_bound _ _ _ v
theorem idiv (x : X96) : RegisterRetires (.idiv x) 0x28 ((Body.x x).op 0x28) :=
  retires_of_alu (fun _ => rfl) fun _ => outBound_one rfl (tyRegs_or _) fun _ _ _ v => intOut_bound _ _ _ v
theorem irem (x : X96) : RegisterRetires (.irem x) 0x29 ((Body.x x).op 0x29) :=
  retires_of_alu (fun _ => rfl) fun _ => outBound_one rfl (tyRegs_or _) fun _ _ _ v => intOut_bound _ _ _ v
theorem inegC32 (x : C32R) : RegisterRetires (.inegC32 x) 0x2A ((Body.r x).op 0x2A) :=
  retires_of_alu (fun _ => rfl) fun _ => outBound_one rfl (tyRegs_or _) fun _ _ _ v => intOut_bound _ _ _ v
theorem ineg (x : X96) : RegisterRetires (.ineg x) 0x2A ((Body.x x).op 0x2A) :=
  retires_of_alu (fun _ => rfl) fun _ => outBound_one rfl (tyRegs_or _) fun _ _ _ v => intOut_bound _ _ _ v
theorem iabsC32 (x : C32R) : RegisterRetires (.iabsC32 x) 0x2B ((Body.r x).op 0x2B) :=
  retires_of_alu (fun _ => rfl) fun _ => outBound_one rfl (tyRegs_or _) fun _ _ _ v => intOut_bound _ _ _ v
theorem iabs (x : X96) : RegisterRetires (.iabs x) 0x2B ((Body.x x).op 0x2B) :=
  retires_of_alu (fun _ => rfl) fun _ => outBound_one rfl (tyRegs_or _) fun _ _ _ v => intOut_bound _ _ _ v
theorem iminC32 (x : C32R) : RegisterRetires (.iminC32 x) 0x2C ((Body.r x).op 0x2C) :=
  retires_of_alu (fun _ => rfl) fun _ => outBound_one rfl (tyRegs_or _) fun _ _ _ v => intOut_bound _ _ _ v
theorem imin (x : Long) : RegisterRetires (.imin x) 0x2C (x.body.op 0x2C) := by
  cases x <;> exact retires_of_alu (fun _ => rfl) fun _ => outBound_one rfl (tyRegs_or _) fun _ _ _ v => intOut_bound _ _ _ v
theorem imaxC32 (x : C32R) : RegisterRetires (.imaxC32 x) 0x2D ((Body.r x).op 0x2D) :=
  retires_of_alu (fun _ => rfl) fun _ => outBound_one rfl (tyRegs_or _) fun _ _ _ v => intOut_bound _ _ _ v
theorem imax (x : Long) : RegisterRetires (.imax x) 0x2D (x.body.op 0x2D) := by
  cases x <;> exact retires_of_alu (fun _ => rfl) fun _ => outBound_one rfl (tyRegs_or _) fun _ _ _ v => intOut_bound _ _ _ v
theorem isad (x : X96) : RegisterRetires (.isad x) 0x2E ((Body.x x).op 0x2E) :=
  retires_of_alu (fun _ => rfl) fun _ => outBound_one rfl (tyRegs_or _) fun _ _ _ v => intOut_bound _ _ _ v
theorem iclamp (x : Long) : RegisterRetires (.iclamp x) 0x2F (x.body.op 0x2F) := by
  cases x <;> exact retires_of_alu (fun _ => rfl) fun _ => outBound_one rfl (tyRegs_or _) fun _ _ _ v => intOut_bound _ _ _ v
theorem idot (x : X96) : RegisterRetires (.idot x) 0x30 ((Body.x x).op 0x30) :=
  retires_of_alu (fun _ => rfl) fun _ => outBound_one rfl (.inl rfl) fun _ _ _ v => intOut_bound _ _ _ v
theorem andC32 (x : C32R) : RegisterRetires (.andC32 x) 0x34 ((Body.r x).op 0x34) :=
  retires_of_alu (fun _ => rfl) fun _ => outBound_one rfl (tyRegs_or _) fun _ _ _ v => intOut_bound _ _ _ v
theorem and (x : Long) : RegisterRetires (.and x) 0x34 (x.body.op 0x34) := by
  cases x <;> exact retires_of_alu (fun _ => rfl) fun _ => outBound_one rfl (tyRegs_or _) fun _ _ _ v => intOut_bound _ _ _ v
theorem orC32 (x : C32R) : RegisterRetires (.orC32 x) 0x35 ((Body.r x).op 0x35) :=
  retires_of_alu (fun _ => rfl) fun _ => outBound_one rfl (tyRegs_or _) fun _ _ _ v => intOut_bound _ _ _ v
theorem or (x : Long) : RegisterRetires (.or x) 0x35 (x.body.op 0x35) := by
  cases x <;> exact retires_of_alu (fun _ => rfl) fun _ => outBound_one rfl (tyRegs_or _) fun _ _ _ v => intOut_bound _ _ _ v
theorem xorC32 (x : C32R) : RegisterRetires (.xorC32 x) 0x36 ((Body.r x).op 0x36) :=
  retires_of_alu (fun _ => rfl) fun _ => outBound_one rfl (tyRegs_or _) fun _ _ _ v => intOut_bound _ _ _ v
theorem xor (x : Long) : RegisterRetires (.xor x) 0x36 (x.body.op 0x36) := by
  cases x <;> exact retires_of_alu (fun _ => rfl) fun _ => outBound_one rfl (tyRegs_or _) fun _ _ _ v => intOut_bound _ _ _ v
theorem notC32 (x : C32R) : RegisterRetires (.notC32 x) 0x37 ((Body.r x).op 0x37) :=
  retires_of_alu (fun _ => rfl) fun _ => outBound_one rfl (tyRegs_or _) fun _ _ _ v => intOut_bound _ _ _ v
theorem not (x : X96) : RegisterRetires (.not x) 0x37 ((Body.x x).op 0x37) :=
  retires_of_alu (fun _ => rfl) fun _ => outBound_one rfl (tyRegs_or _) fun _ _ _ v => intOut_bound _ _ _ v
theorem andnC32 (x : C32R) : RegisterRetires (.andnC32 x) 0x38 ((Body.r x).op 0x38) :=
  retires_of_alu (fun _ => rfl) fun _ => outBound_one rfl (tyRegs_or _) fun _ _ _ v => intOut_bound _ _ _ v
theorem andn (x : Long) : RegisterRetires (.andn x) 0x38 (x.body.op 0x38) := by
  cases x <;> exact retires_of_alu (fun _ => rfl) fun _ => outBound_one rfl (tyRegs_or _) fun _ _ _ v => intOut_bound _ _ _ v
theorem tern (x : X96) : RegisterRetires (.tern x) 0x39 ((Body.x x).op 0x39) :=
  retires_of_alu (fun _ => rfl) fun _ => outBound_one rfl (tyRegs_or _) fun _ _ _ v => intOut_bound _ _ _ v
theorem shlC32 (x : C32R) : RegisterRetires (.shlC32 x) 0x3A ((Body.r x).op 0x3A) :=
  retires_of_alu (fun _ => rfl) fun _ => outBound_one rfl (tyRegs_or _) fun _ _ _ v => intOut_bound _ _ _ v
theorem shl (x : X96) : RegisterRetires (.shl x) 0x3A ((Body.x x).op 0x3A) :=
  retires_of_alu (fun _ => rfl) fun _ => outBound_one rfl (tyRegs_or _) fun _ _ _ v => intOut_bound _ _ _ v
theorem shrC32 (x : C32R) : RegisterRetires (.shrC32 x) 0x3B ((Body.r x).op 0x3B) :=
  retires_of_alu (fun _ => rfl) fun _ => outBound_one rfl (tyRegs_or _) fun _ _ _ v => intOut_bound _ _ _ v
theorem shr (x : X96) : RegisterRetires (.shr x) 0x3B ((Body.x x).op 0x3B) :=
  retires_of_alu (fun _ => rfl) fun _ => outBound_one rfl (tyRegs_or _) fun _ _ _ v => intOut_bound _ _ _ v
theorem sarC32 (x : C32R) : RegisterRetires (.sarC32 x) 0x3C ((Body.r x).op 0x3C) :=
  retires_of_alu (fun _ => rfl) fun _ => outBound_one rfl (tyRegs_or _) fun _ _ _ v => intOut_bound _ _ _ v
theorem sar (x : X96) : RegisterRetires (.sar x) 0x3C ((Body.x x).op 0x3C) :=
  retires_of_alu (fun _ => rfl) fun _ => outBound_one rfl (tyRegs_or _) fun _ _ _ v => intOut_bound _ _ _ v
theorem rolC32 (x : C32R) : RegisterRetires (.rolC32 x) 0x3D ((Body.r x).op 0x3D) :=
  retires_of_alu (fun _ => rfl) fun _ => outBound_one rfl (tyRegs_or _) fun _ _ _ v => intOut_bound _ _ _ v
theorem rol (x : X96) : RegisterRetires (.rol x) 0x3D ((Body.x x).op 0x3D) :=
  retires_of_alu (fun _ => rfl) fun _ => outBound_one rfl (tyRegs_or _) fun _ _ _ v => intOut_bound _ _ _ v
theorem funs (x : X96) : RegisterRetires (.funs x) 0x3E ((Body.x x).op 0x3E) :=
  retires_of_alu (fun _ => rfl) fun _ => outBound_one rfl (.inl rfl) fun _ _ _ v => intOut_bound _ _ _ v
theorem bfx (x : X96) : RegisterRetires (.bfx x) 0x3F ((Body.x x).op 0x3F) :=
  retires_of_alu (fun _ => rfl) fun _ => outBound_one rfl (tyRegs_or _) fun _ _ _ v => intOut_bound _ _ _ v
theorem bfi (x : X96) : RegisterRetires (.bfi x) 0x40 ((Body.x x).op 0x40) :=
  retires_of_alu (fun _ => rfl) fun _ => outBound_one rfl (tyRegs_or _) fun _ _ _ v => intOut_bound _ _ _ v
theorem brevC32 (x : C32R) : RegisterRetires (.brevC32 x) 0x41 ((Body.r x).op 0x41) :=
  retires_of_alu (fun _ => rfl) fun _ => outBound_one rfl (tyRegs_or _) fun _ _ _ v => intOut_bound _ _ _ v
theorem brev (x : X96) : RegisterRetires (.brev x) 0x41 ((Body.x x).op 0x41) :=
  retires_of_alu (fun _ => rfl) fun _ => outBound_one rfl (tyRegs_or _) fun _ _ _ v => intOut_bound _ _ _ v
theorem bperm (x : X96) : RegisterRetires (.bperm x) 0x42 ((Body.x x).op 0x42) :=
  retires_of_alu (fun _ => rfl) fun _ => outBound_one rfl (.inl rfl) fun _ _ _ v => intOut_bound _ _ _ v
theorem popcC32 (x : C32R) : RegisterRetires (.popcC32 x) 0x43 ((Body.r x).op 0x43) :=
  retires_of_alu (fun _ => rfl) fun _ => outBound_one rfl (.inl rfl) fun _ _ _ v => intOut_bound _ _ _ v
theorem popc (x : X96) : RegisterRetires (.popc x) 0x43 ((Body.x x).op 0x43) :=
  retires_of_alu (fun _ => rfl) fun _ => outBound_one rfl (.inl rfl) fun _ _ _ v => intOut_bound _ _ _ v
theorem clzC32 (x : C32R) : RegisterRetires (.clzC32 x) 0x44 ((Body.r x).op 0x44) :=
  retires_of_alu (fun _ => rfl) fun _ => outBound_one rfl (.inl rfl) fun _ _ _ v => intOut_bound _ _ _ v
theorem clz (x : X96) : RegisterRetires (.clz x) 0x44 ((Body.x x).op 0x44) :=
  retires_of_alu (fun _ => rfl) fun _ => outBound_one rfl (.inl rfl) fun _ _ _ v => intOut_bound _ _ _ v
theorem ctzC32 (x : C32R) : RegisterRetires (.ctzC32 x) 0x45 ((Body.r x).op 0x45) :=
  retires_of_alu (fun _ => rfl) fun _ => outBound_one rfl (.inl rfl) fun _ _ _ v => intOut_bound _ _ _ v
theorem ctz (x : X96) : RegisterRetires (.ctz x) 0x45 ((Body.x x).op 0x45) :=
  retires_of_alu (fun _ => rfl) fun _ => outBound_one rfl (.inl rfl) fun _ _ _ v => intOut_bound _ _ _ v
theorem iext (x : X96) : RegisterRetires (.iext x) 0x46 ((Body.x x).op 0x46) :=
  retires_of_alu (fun _ => rfl) fun _ => outBound_one rfl (by show (if _ then 64 else 32) = 32 ∨ (if _ then 64 else 32) = 64; split <;> simp) fun _ _ _ v => intOut_bound _ _ _ v
theorem icmp_alu (x : X96) (s : State) : exec (.icmp x) s = alu s 0x48 x.op { lit := litInt x.op (tySigned x.op.type) (tyRegs x.op.type) } fun _ _ _ b v => icmpOut x.op b v := rfl
theorem icmp (x : X96) : RegisterRetires (.icmp x) 0x48 ((Body.x x).op 0x48) :=
  retires_of_alu (icmp_alu x) fun _ => outBound_pred rfl fun _ _ _ _ => ⟨rfl, rfl⟩
theorem isel (x : X96) : RegisterRetires (.isel x) 0x49 ((Body.x x).op 0x49) :=
  retires_of_alu (fun _ => rfl) fun _ => outBound_one rfl (tyRegs_or _) fun _ _ _ v => iselOut_bound _ v
theorem lea (x : Long) : RegisterRetires (.lea x) 0x4A (x.body.op 0x4A) := by
  cases x <;> exact retires_of_alu (fun _ => rfl) fun _ => outBound_one rfl (.inr rfl) fun _ _ _ v => leaOut_bound _ v
theorem pand_alu (x : X96) (s : State) : exec (.pand x) s = alu s 0x50 x.op {} fun _ _ _ _ v => predOut x.op Tri.and v := rfl
theorem pand (x : X96) : RegisterRetires (.pand x) 0x50 ((Body.x x).op 0x50) :=
  retires_of_alu (pand_alu x) fun _ => outBound_pred rfl fun _ _ _ _ => ⟨rfl, rfl⟩
theorem por_alu (x : X96) (s : State) : exec (.por x) s = alu s 0x51 x.op {} fun _ _ _ _ v => predOut x.op Tri.or v := rfl
theorem por (x : X96) : RegisterRetires (.por x) 0x51 ((Body.x x).op 0x51) :=
  retires_of_alu (por_alu x) fun _ => outBound_pred rfl fun _ _ _ _ => ⟨rfl, rfl⟩
theorem pxor_alu (x : X96) (s : State) : exec (.pxor x) s = alu s 0x52 x.op {} fun _ _ _ _ v => predOut x.op Tri.xor v := rfl
theorem pxor (x : X96) : RegisterRetires (.pxor x) 0x52 ((Body.x x).op 0x52) :=
  retires_of_alu (pxor_alu x) fun _ => outBound_pred rfl fun _ _ _ _ => ⟨rfl, rfl⟩
theorem pnot_alu (x : X96) (s : State) : exec (.pnot x) s = alu s 0x53 x.op {} fun _ _ _ _ v => { pred := some { v := v.pa.v.not } } := rfl
theorem pnot (x : X96) : RegisterRetires (.pnot x) 0x53 ((Body.x x).op 0x53) :=
  retires_of_alu (pnot_alu x) fun _ => outBound_pred rfl fun _ _ _ _ => ⟨rfl, rfl⟩
theorem pset_alu (x : X96) (s : State) : exec (.pset x) s = alu s 0x54 x.op {} fun _ _ _ b v => {
    preds := ((List.range 7).filter fun i => x.op.imm16.testBit i).map fun i => (i, { v := psetField b (sv1 v.a) i })
    fl := if b then (readI 2 (sv1 v.a)).2.2 else 0 } := rfl
theorem pset (x : X96) : RegisterRetires (.pset x) 0x54 ((Body.x x).op 0x54) :=
  retires_of_alu (pset_alu x) fun _ => outBound_pset rfl fun _ _ _ _ => ⟨fun p hp => by obtain ⟨i, hi, rfl⟩ := List.mem_map.mp hp; exact hi, rfl⟩
theorem movC32 (x : C32R) : RegisterRetires (.movC32 x) 0x58 ((Body.r x).op 0x58) :=
  retires_of_alu (fun _ => rfl) fun _ => outBound_one rfl (tyRegs_or _) fun _ _ _ _ => copyOut_bound _
theorem mov (x : X96) : RegisterRetires (.mov x) 0x58 ((Body.x x).op 0x58) :=
  retires_of_alu (fun _ => rfl) fun _ => outBound_one rfl (tyRegs_or _) fun _ _ _ _ => copyOut_bound _
theorem moviC32 (x : C32I) : RegisterRetires (.moviC32 x) 0x59 ((Body.i x).op 0x59) :=
  retires_of_alu (fun _ => rfl) fun _ => outBound_one rfl (.inl rfl) fun _ _ _ _ => ⟨Nat.le_refl 1, rfl, rfl⟩
theorem movi (x : X96) : RegisterRetires (.movi x) 0x59 ((Body.x x).op 0x59) :=
  retires_of_alu (fun _ => rfl) fun _ => outBound_one rfl (.inl rfl) fun _ _ _ _ => one_bound _
theorem movl (x : Long) : RegisterRetires (.movl x) 0x5A (x.body.op 0x5A) := by
  cases x <;> exact retires_of_alu (fun _ => rfl) fun _ => outBound_one rfl (tyRegs_or _) fun _ _ _ _ => ⟨Nat.le_refl 1, rfl, rfl⟩
theorem srd (x : X96) : RegisterRetires (.srd x) 0x5B ((Body.x x).op 0x5B) :=
  retires_of_alu (fun _ => rfl) fun _ => outBound_one rfl (sprWidth_or _) fun _ _ _ _ => copyOut_bound _
theorem perm (x : X96) : RegisterRetires (.perm x) 0x60 ((Body.x x).op 0x60) :=
  retires_of_alu (fun _ => rfl) fun _ => outBound_one rfl (tyRegs_or _) fun _ _ _ _ => cross_bound _ _ (copyOut_bound _)
theorem shiftwC32 (x : C32R) : RegisterRetires (.shiftwC32 x) 0x61 ((Body.r x).op 0x61) :=
  retires_of_alu (fun _ => rfl) fun _ => outBound_one rfl (tyRegs_or _) fun _ _ _ _ => cross_bound _ _ (copyOut_bound _)
theorem shiftw (x : X96) : RegisterRetires (.shiftw x) 0x61 ((Body.x x).op 0x61) :=
  retires_of_alu (fun _ => rfl) fun _ => outBound_one rfl (tyRegs_or _) fun _ _ _ _ => cross_bound _ _ (copyOut_bound _)
theorem voteC32 (x : C32R) : RegisterRetires (.voteC32 x) 0x62 ((Body.r x).op 0x62) :=
  retires_of_alu (fun _ => rfl) fun _ => outBound_one rfl (.inl rfl) fun _ _ _ _ => by dsimp only; exact if_bound (one_bound _) (one_bound _)
theorem vote (x : X96) : RegisterRetires (.vote x) 0x62 ((Body.x x).op 0x62) :=
  retires_of_alu (fun _ => rfl) fun _ => outBound_one rfl (.inl rfl) fun _ _ _ _ => by dsimp only; exact if_bound (one_bound _) (one_bound _)
theorem rstep (x : X96) : RegisterRetires (.rstep x) 0x63 ((Body.x x).op 0x63) :=
  retires_of_alu (fun _ => rfl) fun _ => outBound_one rfl (tyRegs_or _) fun _ _ _ _ => cross_bound _ _ (pairOut_bound _)
theorem bcastC32 (x : C32R) : RegisterRetires (.bcastC32 x) 0x64 ((Body.r x).op 0x64) :=
  retires_of_alu (fun _ => rfl) fun _ => outBound_one rfl (tyRegs_or _) fun _ _ _ _ => cross_bound _ _ (copyOut_bound _)
theorem bcast (x : X96) : RegisterRetires (.bcast x) 0x64 ((Body.x x).op 0x64) :=
  retires_of_alu (fun _ => rfl) fun _ => outBound_one rfl (tyRegs_or _) fun _ _ _ _ => cross_bound _ _ (copyOut_bound _)
theorem matchLanes (x : X96) : RegisterRetires (.matchLanes x) 0x65 ((Body.x x).op 0x65) :=
  retires_of_alu (fun _ => rfl) fun _ => outBound_one rfl (.inl rfl) fun _ _ _ _ => ⟨Nat.le_refl 1, rfl, rfl⟩
theorem redw (x : X96) : RegisterRetires (.redw x) 0x66 ((Body.x x).op 0x66) :=
  retires_of_alu (fun _ => rfl) fun _ => outBound_one rfl (tyRegs_or _) fun _ _ _ _ => redw_bound _ _
theorem scanw (x : X96) : RegisterRetires (.scanw x) 0x67 ((Body.x x).op 0x67) :=
  retires_of_alu (fun _ => rfl) fun _ => outBound_one rfl (tyRegs_or _) fun _ _ _ _ => by dsimp only; split <;> first | exact ⟨Nat.zero_le _, rfl, rfl⟩ | exact if_bound (copyOut_bound _) (pairOut_bound _)
theorem faddC32 (x : C32R) : RegisterRetires (.faddC32 x) 0x80 ((Body.r x).op 0x80) :=
  retires_of_alu (fun _ => rfl) fun _ => outBound_one rfl (tyRegs_or _) fun _ _ _ v => floatOut_bound _ _ _ _ v
theorem fadd (x : Long) : RegisterRetires (.fadd x) 0x80 (x.body.op 0x80) := by
  cases x <;> exact retires_of_alu (fun _ => rfl) fun _ => outBound_one rfl (tyRegs_or _) fun _ _ _ v => floatOut_bound _ _ _ _ v
theorem fsubC32 (x : C32R) : RegisterRetires (.fsubC32 x) 0x81 ((Body.r x).op 0x81) :=
  retires_of_alu (fun _ => rfl) fun _ => outBound_one rfl (tyRegs_or _) fun _ _ _ v => floatOut_bound _ _ _ _ v
theorem fsub (x : Long) : RegisterRetires (.fsub x) 0x81 (x.body.op 0x81) := by
  cases x <;> exact retires_of_alu (fun _ => rfl) fun _ => outBound_one rfl (tyRegs_or _) fun _ _ _ v => floatOut_bound _ _ _ _ v
theorem fmulC32 (x : C32R) : RegisterRetires (.fmulC32 x) 0x82 ((Body.r x).op 0x82) :=
  retires_of_alu (fun _ => rfl) fun _ => outBound_one rfl (tyRegs_or _) fun _ _ _ v => floatOut_bound _ _ _ _ v
theorem fmul (x : Long) : RegisterRetires (.fmul x) 0x82 (x.body.op 0x82) := by
  cases x <;> exact retires_of_alu (fun _ => rfl) fun _ => outBound_one rfl (tyRegs_or _) fun _ _ _ v => floatOut_bound _ _ _ _ v
theorem fma (x : Long) : RegisterRetires (.fma x) 0x83 (x.body.op 0x83) := by
  cases x <;> exact retires_of_alu (fun _ => rfl) fun _ => outBound_one rfl (tyRegs_or _) fun _ _ _ v => floatOut_bound _ _ _ _ v
theorem fminC32 (x : C32R) : RegisterRetires (.fminC32 x) 0x84 ((Body.r x).op 0x84) :=
  retires_of_alu (fun _ => rfl) fun _ => outBound_one rfl (tyRegs_or _) fun _ _ _ v => floatOut_bound _ _ _ _ v
theorem fmin (x : X96) : RegisterRetires (.fmin x) 0x84 ((Body.x x).op 0x84) :=
  retires_of_alu (fun _ => rfl) fun _ => outBound_one rfl (tyRegs_or _) fun _ _ _ v => floatOut_bound _ _ _ _ v
theorem fmaxC32 (x : C32R) : RegisterRetires (.fmaxC32 x) 0x85 ((Body.r x).op 0x85) :=
  retires_of_alu (fun _ => rfl) fun _ => outBound_one rfl (tyRegs_or _) fun _ _ _ v => floatOut_bound _ _ _ _ v
theorem fmax (x : X96) : RegisterRetires (.fmax x) 0x85 ((Body.x x).op 0x85) :=
  retires_of_alu (fun _ => rfl) fun _ => outBound_one rfl (tyRegs_or _) fun _ _ _ v => floatOut_bound _ _ _ _ v
theorem fcmp_alu (x : X96) (s : State) : exec (.fcmp x) s = alu s 0x86 x.op { lit := litFloat x.op x.op.type } fun _ _ _ b v => fcmpOut x.op b v := rfl
theorem fcmp (x : X96) : RegisterRetires (.fcmp x) 0x86 ((Body.x x).op 0x86) :=
  retires_of_alu (fcmp_alu x) fun _ => outBound_pred rfl fun _ _ _ _ => ⟨rfl, rfl⟩
theorem fclass (x : X96) : RegisterRetires (.fclass x) 0x87 ((Body.x x).op 0x87) :=
  retires_of_alu (fun _ => rfl) fun _ => outBound_one rfl (.inl rfl) fun _ _ _ v => floatOut_bound _ _ _ _ v
theorem fabsC32 (x : C32R) : RegisterRetires (.fabsC32 x) 0x88 ((Body.r x).op 0x88) :=
  retires_of_alu (fun _ => rfl) fun _ => outBound_one rfl (tyRegs_or _) fun _ _ _ v => floatOut_bound _ _ _ _ v
theorem fabs (x : X96) : RegisterRetires (.fabs x) 0x88 ((Body.x x).op 0x88) :=
  retires_of_alu (fun _ => rfl) fun _ => outBound_one rfl (tyRegs_or _) fun _ _ _ v => floatOut_bound _ _ _ _ v
theorem fnegC32 (x : C32R) : RegisterRetires (.fnegC32 x) 0x89 ((Body.r x).op 0x89) :=
  retires_of_alu (fun _ => rfl) fun _ => outBound_one rfl (tyRegs_or _) fun _ _ _ v => floatOut_bound _ _ _ _ v
theorem fneg (x : X96) : RegisterRetires (.fneg x) 0x89 ((Body.x x).op 0x89) :=
  retires_of_alu (fun _ => rfl) fun _ => outBound_one rfl (tyRegs_or _) fun _ _ _ v => floatOut_bound _ _ _ _ v
theorem fsgn (x : X96) : RegisterRetires (.fsgn x) 0x8A ((Body.x x).op 0x8A) :=
  retires_of_alu (fun _ => rfl) fun _ => outBound_one rfl (tyRegs_or _) fun _ _ _ v => floatOut_bound _ _ _ _ v
theorem frnd (x : X96) : RegisterRetires (.frnd x) 0x8B ((Body.x x).op 0x8B) :=
  retires_of_alu (fun _ => rfl) fun _ => outBound_one rfl (tyRegs_or _) fun _ _ _ v => floatOut_bound _ _ _ _ v
theorem fscale (x : X96) : RegisterRetires (.fscale x) 0x8C ((Body.x x).op 0x8C) :=
  retires_of_alu (fun _ => rfl) fun _ => outBound_one rfl (tyRegs_or _) fun _ _ _ v => floatOut_bound _ _ _ _ v
theorem flogb (x : X96) : RegisterRetires (.flogb x) 0x8D ((Body.x x).op 0x8D) :=
  retires_of_alu (fun _ => rfl) fun _ => outBound_one rfl (tyRegs_or _) fun _ _ _ v => floatOut_bound _ _ _ _ v
theorem fadd2 (x : X96) : RegisterRetires (.fadd2 x) 0x8E ((Body.x x).op 0x8E) :=
  retires_of_alu (fun _ => rfl) fun _ => outBound_one rfl (tyRegs_or _) fun _ _ _ _ => by simp [packedOut, pointOut, FR.out]
theorem fmul2 (x : X96) : RegisterRetires (.fmul2 x) 0x8F ((Body.x x).op 0x8F) :=
  retires_of_alu (fun _ => rfl) fun _ => outBound_one rfl (tyRegs_or _) fun _ _ _ _ => by simp [packedOut, pointOut, FR.out]
theorem fma2 (x : X96) : RegisterRetires (.fma2 x) 0x90 ((Body.x x).op 0x90) :=
  retires_of_alu (fun _ => rfl) fun _ => outBound_one rfl (tyRegs_or _) fun _ _ _ _ => by simp [packedOut, pointOut, FR.out]
theorem fdot (x : X96) : RegisterRetires (.fdot x) 0x91 ((Body.x x).op 0x91) :=
  retires_of_alu (fun _ => rfl) fun _ => outBound_one rfl (.inl rfl) fun _ _ _ _ => by dsimp only [Bool.false_and]; exact frOut_bound _
theorem fdiv (x : X96) : RegisterRetires (.fdiv x) 0x94 ((Body.x x).op 0x94) :=
  retires_of_alu (fun _ => rfl) fun _ => outBound_one rfl (tyRegs_or _) fun _ _ _ v => floatOut_bound _ _ _ _ v
theorem fsqrt (x : X96) : RegisterRetires (.fsqrt x) 0x95 ((Body.x x).op 0x95) :=
  retires_of_alu (fun _ => rfl) fun _ => outBound_one rfl (tyRegs_or _) fun _ _ _ v => floatOut_bound _ _ _ _ v
theorem frcp (x : X96) : RegisterRetires (.frcp x) 0x96 ((Body.x x).op 0x96) :=
  retires_of_alu (fun _ => rfl) fun _ => outBound_one rfl (tyRegs_or _) fun _ _ _ v => floatOut_bound _ _ _ _ v
theorem frsq (x : X96) : RegisterRetires (.frsq x) 0x97 ((Body.x x).op 0x97) :=
  retires_of_alu (fun _ => rfl) fun _ => outBound_one rfl (tyRegs_or _) fun _ _ _ v => floatOut_bound _ _ _ _ v
theorem fexp (x : X96) : RegisterRetires (.fexp x) 0x98 ((Body.x x).op 0x98) :=
  retires_of_alu (fun _ => rfl) fun _ => outBound_one rfl (tyRegs_or _) fun _ _ _ v => floatOut_bound _ _ _ _ v
theorem fexpm1 (x : X96) : RegisterRetires (.fexpm1 x) 0x99 ((Body.x x).op 0x99) :=
  retires_of_alu (fun _ => rfl) fun _ => outBound_one rfl (tyRegs_or _) fun _ _ _ v => floatOut_bound _ _ _ _ v
theorem flog (x : X96) : RegisterRetires (.flog x) 0x9A ((Body.x x).op 0x9A) :=
  retires_of_alu (fun _ => rfl) fun _ => outBound_one rfl (tyRegs_or _) fun _ _ _ v => floatOut_bound _ _ _ _ v
theorem flog1p (x : X96) : RegisterRetires (.flog1p x) 0x9B ((Body.x x).op 0x9B) :=
  retires_of_alu (fun _ => rfl) fun _ => outBound_one rfl (tyRegs_or _) fun _ _ _ v => floatOut_bound _ _ _ _ v
theorem ferf (x : X96) : RegisterRetires (.ferf x) 0x9C ((Body.x x).op 0x9C) :=
  retires_of_alu (fun _ => rfl) fun _ => outBound_one rfl (tyRegs_or _) fun _ _ _ v => floatOut_bound _ _ _ _ v
theorem ferfc (x : X96) : RegisterRetires (.ferfc x) 0x9D ((Body.x x).op 0x9D) :=
  retires_of_alu (fun _ => rfl) fun _ => outBound_one rfl (tyRegs_or _) fun _ _ _ v => floatOut_bound _ _ _ _ v
theorem cvt (x : X96) : RegisterRetires (.cvt x) 0xA0 ((Body.x x).op 0xA0) :=
  retires_of_alu (fun _ => rfl) fun _ => outBound_draw rfl (tyRegs_or _) rfl fun _ _ _ _ => ⟨Nat.le_refl 1, rfl⟩
theorem cvti (x : X96) : RegisterRetires (.cvti x) 0xA1 ((Body.x x).op 0xA1) :=
  retires_of_alu (fun _ => rfl) fun _ => outBound_draw rfl (tyRegs_or _) rfl fun _ _ _ _ => ⟨Nat.le_refl 1, rfl⟩
theorem cvtf (x : X96) : RegisterRetires (.cvtf x) 0xA2 ((Body.x x).op 0xA2) :=
  retires_of_alu (fun _ => rfl) fun _ => outBound_draw rfl (tyRegs_or _) rfl fun _ _ _ _ => ⟨Nat.le_refl 1, rfl⟩
theorem packn (x : X96) : RegisterRetires (.packn x) 0xA3 ((Body.x x).op 0xA3) :=
  retires_of_alu (fun _ => rfl) fun _ => outBound_draw rfl (.inl rfl) rfl fun _ _ _ _ => ⟨Nat.le_refl 1, rfl⟩
theorem qnt (x : X96) : RegisterRetires (.qnt x) 0xA4 ((Body.x x).op 0xA4) :=
  retires_of_alu (fun _ => rfl) fun _ => outBound_draw rfl (.inl rfl) rfl fun _ _ _ _ => ⟨Nat.le_refl 2, rfl⟩
theorem dqnt (x : X96) : RegisterRetires (.dqnt x) 0xA5 ((Body.x x).op 0xA5) :=
  retires_of_alu (fun _ => rfl) fun _ => outBound_many rfl (.inl rfl) (fun _ _ _ v => dqntOut_bound x.op _ v) fun s e l v => ⟨rfl, rfl⟩
theorem rnd (x : X96) : RegisterRetires (.rnd x) 0xA8 ((Body.x x).op 0xA8) :=
  retires_of_alu (fun _ => rfl) fun _ => outBound_draw rfl (.inl rfl) rfl fun _ _ _ _ => ⟨take_bound _ _, rfl⟩
theorem rndf (x : X96) : RegisterRetires (.rndf x) 0xA9 ((Body.x x).op 0xA9) :=
  retires_of_alu (fun _ => rfl) fun _ => outBound_draw rfl (tyRegs_or _) rfl fun _ _ _ _ => rndf_bound _ _ _
theorem rndm_draw (x : X96) (s : State) : exec (.rndm x) s = drawAlu s 0xAA x.op (fun v => sv1 v.c)
    (fun v ys => { pred := some { v := rndmPred (ys.getD 0 0) (sv1 v.b) }, fl := rndmWid v })
    (fun v =>
      let p := sv1 v.b
      { pred := some { v := if p.isPoint ∧ p.lo = 0 then .f else if p.isPoint ∧ 65536 ≤ p.lo then .t else .u }, fl := rndmWid v }) := rfl
theorem rndm (x : X96) : RegisterRetires (.rndm x) 0xAA ((Body.x x).op 0xAA) :=
  retires_of_pdraw (rndm_draw x) rfl rfl rfl fun _ _ => rfl
theorem ivmk (x : X96) : RegisterRetires (.ivmk x) 0xB0 ((Body.x x).op 0xB0) :=
  retires_of_alu (fun _ => rfl) fun _ => outBound_one rfl (tyRegs_or _) fun _ _ _ _ => copyOut_bound _
theorem ivlo (x : X96) : RegisterRetires (.ivlo x) 0xB1 ((Body.x x).op 0xB1) :=
  retires_of_alu (fun _ => rfl) fun _ => outBound_one rfl (tyRegs_or _) fun _ _ _ _ => copyOut_bound _
theorem ivhi (x : X96) : RegisterRetires (.ivhi x) 0xB2 ((Body.x x).op 0xB2) :=
  retires_of_alu (fun _ => rfl) fun _ => outBound_one rfl (tyRegs_or _) fun _ _ _ _ => copyOut_bound _

end Sys2Proof.Laws.Register
end

