-- ==== Sys2Proof/Laws/Result.lean ====
section
/-!
SUPPORT. The values that register-computing instructions leave in a vector destination.
-/
namespace Sys2Proof.Machine

/-! ## Vector names written and read back -/

theorem foldl_set_length {α : Type} (l : List (Nat × α)) (vs : List α) : (l.foldl (fun vs p => vs.set p.1 p.2) vs).length = vs.length := by
  induction l generalizing vs with
  | nil => rfl
  | cons p l ih => simp only [List.foldl_cons]; rw [ih]; simp

theorem foldl_set_other {α : Type} (l : List (Nat × α)) (vs : List α) (j : Nat) (d : α) (h : ∀ p ∈ l, p.1 ≠ j) :
    (l.foldl (fun vs p => vs.set p.1 p.2) vs).getD j d = vs.getD j d := by
  induction l generalizing vs with
  | nil => rfl
  | cons p l ih =>
    simp only [List.foldl_cons]
    rw [ih _ fun q hq => h q (List.mem_cons_of_mem _ hq)]
    have := h p (List.mem_cons_self ..)
    simp [List.getD, List.getElem?_set_ne this]

theorem foldl_set_at {α : Type} (l : List Nat) (r : Nat → α) (vs : List α) (j : Nat) (d : α) (hn : l.Nodup) (hj : j ∈ l) (hl : j < vs.length) :
    ((l.map fun i => (i, r i)).foldl (fun vs p => vs.set p.1 p.2) vs).getD j d = r j := by
  induction l generalizing vs with
  | nil => cases hj
  | cons i l ih =>
    simp only [List.map_cons, List.foldl_cons]
    obtain ⟨h1, h2⟩ := List.nodup_cons.mp hn
    by_cases hi : j = i
    · subst hi
      rw [foldl_set_other]
      · simp [List.getD, List.getElem?_set_self hl]
      · intro p hp
        obtain ⟨i, hi, rfl⟩ := List.mem_map.mp hp
        intro h
        exact h1 (h ▸ hi)
    · exact ih _ h2 (by simpa [hi] using hj) (by simpa using hl)

theorem mem_aput {α : Type} {k : Nat} {v : α} {p : Nat × α} (l : List (Nat × α)) (h : p ∈ aput k v l) : p = (k, v) ∨ p ∈ l := by
  induction l with
  | nil => simpa [aput] using h
  | cons q l ih =>
    obtain ⟨j, u⟩ := q
    unfold aput at h
    split at h
    · simpa using h
    · split at h
      · rcases List.mem_cons.mp h with h | h
        · exact .inl h
        · exact .inr (List.mem_cons_of_mem _ h)
      · rcases List.mem_cons.mp h with h | h
        · exact .inr (h ▸ List.mem_cons_self ..)
        · rcases ih h with h | h
          · exact .inl h
          · exact .inr (List.mem_cons_of_mem _ h)

/-- A vector name written in distinct lanes reads back; every other name is as before. -/
theorem writeVec_at {w : Warp} (hw : FullVectors w) (name : Nat) (l : List Nat) (r : Nat → RVal) (hn : l.Nodup) (hl : ∀ j ∈ l, j < 32) {j : Nat} (hj : j ∈ l) :
    (w.writeVec name (l.map fun i => (i, r i))).vec name j = r j := by
  obtain ⟨a, t, hal⟩ := List.exists_cons_of_ne_nil (List.ne_nil_of_mem hj)
  unfold Warp.writeVec Warp.vec
  have hne : (l.map fun i => (i, r i)) = (a, r a) :: t.map fun i => (i, r i) := by rw [hal]; rfl
  rw [hne]
  simp only [alook_put_same]
  rw [← hne]
  refine foldl_set_at l r _ j _ hn hj ?_
  cases h : alook name w.vregs with
  | none => simp [hl j hj]
  | some vs => simpa [hw _ (alook_mem h)] using hl j hj

theorem writeVec_other {w : Warp} (name : Nat) (vals : List (Nat × RVal)) {n : Nat} (h : n ≠ name) (j : Nat) : (w.writeVec name vals).vec n j = w.vec n j := by
  cases vals with
  | nil => rfl
  | cons p l => simp only [Warp.writeVec, Warp.vec, alook_put_other _ _ h]

theorem writeVec_full {w : Warp} (hw : FullVectors w) (name : Nat) (vals : List (Nat × RVal)) : FullVectors (w.writeVec name vals) := by
  cases vals with
  | nil => exact hw
  | cons a l =>
    intro p hp
    rcases mem_aput _ hp with h | h
    · rw [h]
      simp only
      rw [foldl_set_length]
      cases h : alook name w.vregs with
      | none => simp
      | some vs => exact hw _ (alook_mem h)
    · exact hw p h

theorem mem_adel {α : Type} {k : Nat} {p : Nat × α} (l : List (Nat × α)) (h : p ∈ adel k l) : p ∈ l := by
  induction l with
  | nil => cases h
  | cons q l ih =>
    obtain ⟨i, a⟩ := q
    unfold adel at h
    split at h
    · exact List.mem_cons_of_mem _ h
    · rcases List.mem_cons.mp h with h | h
      · exact h ▸ List.mem_cons_self ..
      · exact List.mem_cons_of_mem _ (ih h)

theorem free_full (names : List Nat) {w : Warp} (hw : FullVectors w) : FullVectors (w.free names) := by
  have key : ∀ (l : List Nat) (m : List (Nat × List RVal)), (∀ p ∈ m, p.2.length = 32) → ∀ p ∈ l.foldl (fun v n => adel n v) m, p.2.length = 32 := by
    intro l
    induction l with
    | nil => intro m hm; exact hm
    | cons a l ih => exact fun m hm => ih _ fun p hp => hm p (mem_adel m hp)
  exact key names _ hw

theorem maxLen {α : Type} (l : List Nat) (g : Nat → List α) (n : Nat) (h : ∀ i ∈ l, (g i).length = n) (hne : l ≠ []) :
    ((l.map fun i => (g i).length)).foldl max 0 = n := by
  have key : ∀ (l : List Nat) (m : Nat), m ≤ n → (∀ i ∈ l, (g i).length = n) → ((l.map fun i => (g i).length)).foldl max m = if l = [] then m else n := by
    intro l
    induction l with
    | nil => intro m _ _; rfl
    | cons a l ih =>
      intro m hm h
      simp only [List.map_cons, List.foldl_cons, h a (List.mem_cons_self ..)]
      rw [ih _ (by omega) fun i hi => h i (List.mem_cons_of_mem _ hi)]
      split <;> simp <;> omega
  rw [key l 0 (Nat.zero_le _) h, if_neg hne]

theorem toNat_ofNat32 (n : Nat) : (BitVec.ofNat 32 n).toNat = n % 2 ^ 32 := BitVec.toNat_ofNat ..

/-- Elements of one value each, written to distinct lanes, read back. -/
theorem writeVecs_at {w : Warp} (hw : FullVectors w) (name width : Nat) (l : List Nat) (v : Nat → SV) (hn : l.Nodup) (hl : ∀ j ∈ l, j < 32)
    (hwd : width = 32 ∨ width = 64) {j : Nat} (hj : j ∈ l) :
    (w.writeVecs name width (l.map fun i => (i, [v i]))).vecBits width name j = (v j).lo % 2 ^ width := by
  have hne : l ≠ [] := List.ne_nil_of_mem hj
  unfold Warp.writeVecs
  simp only [List.map_map, Function.comp_def, List.flatMap_cons, List.flatMap_nil, List.append_nil]
  rcases hwd with rfl | rfl
  · rw [maxLen l (fun i => svNames (v i) 32) 1 (fun i _ => rfl) hne]
    have h0 : (List.range 1).foldl (fun (w : Warp) i => w.writeVec (name + i) ((l.map fun a => (a, svNames (v a) 32)).filterMap fun p => p.2[i]?.map fun v => (p.1, v))) w =
        w.writeVec name (l.map fun i => (i, (svNames (v i) 32).headD {})) := by
      simp [svNames, Function.comp_def]
    rw [h0]
    unfold Warp.vecBits
    rw [if_neg (by decide), writeVec_at hw name l _ hn hl hj]
    simp [svNames]
  · rw [maxLen l (fun i => svNames (v i) 64) 2 (fun i _ => rfl) hne]
    have h0 : (List.range 2).foldl (fun (w : Warp) i => w.writeVec (name + i) ((l.map fun a => (a, svNames (v a) 64)).filterMap fun p => p.2[i]?.map fun v => (p.1, v))) w =
        (w.writeVec name (l.map fun i => (i, (svNames (v i) 64).getD 0 {}))).writeVec (name + 1) (l.map fun i => (i, (svNames (v i) 64).getD 1 {})) := by
      simp [svNames, List.range_succ, Function.comp_def]
    rw [h0]
    unfold Warp.vecBits
    rw [if_pos rfl, writeVec_other _ _ (by omega), writeVec_at hw name l _ hn hl hj, writeVec_at (writeVec_full hw _ _) (name + 1) l _ hn hl hj]
    simp only [svNames, if_true, List.getD, List.getElem?_cons_zero, Option.getD_some, List.getElem?_cons_succ, toNat_ofNat32, Nat.pow_zero, Nat.div_one]
    omega

/-! ## The acting lanes -/

theorem laneIds_lt {i j : Nat} (hi : i < 8) (hj : j ∈ laneIds i) : j < 32 := by simp [laneIds] at hj; omega

theorem active_lt (e : Env) (g : Guard) {j : Nat} (h : j ∈ e.active g) : j < 32 := by
  have h1 := (List.mem_filter.mp h).1
  have h2 := (List.mem_filter.mp h1).1
  obtain ⟨i, hi, hj⟩ := List.mem_flatMap.mp h2
  exact laneIds_lt (List.mem_range.mp (List.mem_filter.mp hi).1) (List.mem_filter.mp hj).1

theorem laneIds_nodup (i : Nat) : (laneIds i).Nodup := by
  simp only [laneIds, List.nodup_cons, List.mem_cons, List.not_mem_nil, or_false, not_or]
  refine ⟨?_, ?_, ?_, ?_, List.nodup_nil⟩ <;> simp <;> omega

theorem nodup_slices (l : List Nat) (hl : l.Nodup) (p : Nat → Bool) : (l.flatMap fun i => (laneIds i).filter p).Nodup := by
  induction l with
  | nil => exact List.nodup_nil
  | cons a l ih =>
    obtain ⟨h1, h2⟩ := List.nodup_cons.mp hl
    rw [List.flatMap_cons, List.nodup_append]
    refine ⟨List.Pairwise.filter _ (laneIds_nodup a), ih h2, ?_⟩
    intro j hj k hk
    obtain ⟨b, hb, hkb⟩ := List.mem_flatMap.mp hk
    have h3 := (List.mem_filter.mp hj).1
    have h4 := (List.mem_filter.mp hkb).1
    simp [laneIds] at h3 h4
    have : a ≠ b := fun h => h1 (h ▸ hb)
    omega

theorem active_nodup (e : Env) (g : Guard) : (e.active g).Nodup :=
  List.Pairwise.filter _ (List.Pairwise.filter _ (nodup_slices _ (List.Pairwise.filter _ List.nodup_range) _))

/-! ## What an instruction leaves in its vector destination -/

theorem foldl_vregs {α : Type} (g : Warp → α → Warp) (h : ∀ w a, (g w a).vregs = w.vregs) (l : List α) (w : Warp) : (l.foldl g w).vregs = w.vregs := by
  induction l generalizing w with
  | nil => rfl
  | cons a l ih => rw [List.foldl_cons, ih, h]

theorem noteAll_vregs (w : Warp) (l : List (Nat × Out)) : (noteAll w l).vregs = w.vregs :=
  foldl_vregs (fun w (o : Nat × Out) => w.modLane o.1 fun l => l.note o.2.fl o.2.draws) (fun _ _ => rfl) l w
theorem preds_vregs (w : Warp) (l : List (Nat × Out)) : (l.foldl (fun w o => o.2.preds.foldl (fun w p => w.writePred o.1 p.1 p.2) w) w).vregs = w.vregs :=
  foldl_vregs (fun w (o : Nat × Out) => o.2.preds.foldl (fun w p => w.writePred o.1 p.1 p.2) w)
    (fun w o => foldl_vregs (fun w (p : Nat × PVal) => w.writePred o.1 p.1 p.2) (fun _ _ => rfl) o.2.preds w) l w

theorem full_of_vregs {w v : Warp} (h : v.vregs = w.vregs) (hw : FullVectors w) : FullVectors v := by unfold FullVectors; rw [h]; exact hw

/-- What one element per active thread leaves in a vector destination. -/
theorem aluWarp_value {s : State} {e : Env} {opc : Nat} {x : Op} {h : How} {f : State → Env → Nat → Bool → Srcs → Out} {b : Option Bool} {width : Nat}
    {val : Nat → Srcs → SV} (hf : FullVectors e.warp) (hd : (rowAt opc x).d = .reg b width 1) (hw : width = 32 ∨ width = 64) (hv : x.bkd = false)
    (hb : ElementMode e) (ho : ∀ i v, (f s e i false v).vals = [val i v]) {j : Nat} (hj : j ∈ e.active x.g) :
    (aluWarp s e opc x h f).vecBits width x.d j = (val j (Env.srcs s e x (rowAt opc x) h.lit j)).lo % 2 ^ width := by
  have hu : isUniform opc x (rowAt opc x) = false := by simp [isUniform, hd, hv]
  have hwho : aluWho opc x (rowAt opc x) (e.active x.g) = e.active x.g := by simp [aluWho, isUniD, hu, hd, hv]
  have hl : e.aluLanes opc x (rowAt opc x) (e.active x.g) (e.active x.g) = e.active x.g := by simp [Env.aluLanes, hu]
  unfold aluWarp
  simp only [hwho]
  obtain ⟨a, t, hal⟩ := List.exists_cons_of_ne_nil (List.ne_nil_of_mem hj)
  rw [hal]
  simp only
  rw [← hal, hl]
  unfold Env.writeOut
  simp only [hd, hv, Bool.false_eq_true, if_false]
  have hmap : (((e.active x.g).map (Env.compute s e x (rowAt opc x) h f)).map fun o => (o.1, o.2.vals)) =
      (e.active x.g).map fun i => (i, [((Env.compute s e x (rowAt opc x) h f i).2.vals).headD (svConst 0)]) := by
    rw [List.map_map]
    refine List.map_congr_left fun i _ => ?_
    simp only [Function.comp_def, Env.compute, hb i, ho, List.map_cons, List.map_nil, List.headD_cons]
  rw [hmap, writeVecs_at _ _ _ _ _ (active_nodup ..) (fun j hj => active_lt _ _ hj) hw hj]
  · simp only [Env.compute, hb j, ho, List.map_cons, List.map_nil, List.headD_cons]
  · refine full_of_vregs (preds_vregs ..) (free_full _ (full_of_vregs (noteAll_vregs ..) hf))

/-- An instruction whose computation gives each thread one element leaves it in its vector destination. -/
theorem resultIn_of_alu {i : Instr} {opc : Nat} {x : Op} {h : How} {f : State → Env → Nat → Bool → Srcs → Out} {ps : List Nat} {d : Bool} {b : Option Bool}
    {width : Nat} {val : Env → Nat → Srcs → Nat} (he : ∀ s, exec i s = alu s opc x h f) (ho : OutBound (rowAt opc x) f ps d)
    (hd : (rowAt opc x).d = .reg b width 1) (hw : width = 32 ∨ width = 64)
    (hv : ∀ s e j v, ∃ z : SV, (f s e j false v).vals = [z] ∧ z.lo % 2 ^ width = val e j v)
    (hval : ∀ e c j v, val (Env.recore e c) j v = val e j v) : ResultIn i opc x h.lit width val := by
  intro s e hs hb hf hr hfp hx
  obtain ⟨a, s1, h1, h2⟩ := alu_eq (h := h) (f := f) hs hb hr hfp
  have hfr : WarpFrame e.warp (aluWarp s1 (e.recore (s1.core e.k)) opc x h f) (e.frees x (rowAt opc x) ++ destVecs x (rowAt opc x))
      (destUnis x (rowAt opc x)) (ps ++ destPreds x (rowAt opc x)) d :=
    aluWarp_frame (e := e.recore (s1.core e.k)) (s := s1) hb ho
  refine ⟨a, h.factor, _, aluWarp s1 (e.recore (s1.core e.k)) opc x h f, (he s).trans h2, ?_, ?_⟩
  · have ho1 : OnlyWarp s s1 e.k e.slot := by rw [h1]; exact OnlyWarp.charge ..
    refine retired_frame hs (ho1.modWarp _) rfl rfl rfl rfl ?_ hfr
    rw [warp_modWarp (w := e.warp) _ (by rw [h1, charge_warp]; exact hs.warp)]
  · intro j hj
    have hv' := fun i v => Classical.choose_spec (hv s1 (e.recore (s1.core e.k)) i v)
    rw [aluWarp_value (e := e.recore (s1.core e.k)) (val := fun i v => Classical.choose (hv s1 (e.recore (s1.core e.k)) i v)) hf hd hw hx hb
      (fun i v => (hv' i v).1) (by simpa using hj)]
    rw [(hv' j _).2, hval, h1]
    rfl

theorem intAlu_eq (s : State) {opc n : Nat} {op : IOp} {cnt : Bool} {x : Op} (ho : opc ≠ 0x30) : intAlu s opc op n cnt x =
    alu s opc x { lit := if cnt then litInt x false 32 else litInt x (tySigned x.type) (tyRegs x.type) } fun _ _ _ b v => intOut op x n b v := by
  unfold intAlu; simp only [if_neg ho, Bool.decide_eq_true]
theorem floatAlu_eq (s : State) {opc n : Nat} {op : FOp} {x : Op} (ho : opc ≠ 0x8C) : floatAlu s opc op n x =
    alu s opc x { lit := litFloat x x.type, factor := issueFactor opc x.type } fun _ e _ b v => floatOut op x (e.mode x.rm) n b v := by
  unfold floatAlu; simp only [if_neg ho]
theorem intOut_vals (op : IOp) (x : Op) (n : Nat) (v : Srcs) : (intOut op x n false v).vals =
    [svConst (iElem op x.type x.op7 (x.imm16 % 256) x.sat (sv1 v.a).lo (sv1 v.b).lo (sv1 v.c).lo).bits] := by simp [intOut, FR.out]
theorem floatOut_vals (op : FOp) (x : Op) (m n : Nat) (v : Srcs) : (floatOut op x m n false v).vals =
    [svConst (fElem op x.type m x.sat x.op7 (sv1 v.a).lo (sv1 v.b).lo (sv1 v.c).lo).bits] := by simp [floatOut, FR.out]

/-- An integer instruction leaves the pattern of its element operation. -/
theorem resultIn_int {i : Instr} {opc n width : Nat} {op : IOp} {cnt : Bool} {x : Op} {b : Option Bool} {val : Srcs → Nat}
    (he : ∀ s, exec i s = intAlu s opc op n cnt x) (hd : (rowAt opc x).d = .reg b width 1) (hw : width = 32 ∨ width = 64) (ho : opc ≠ 0x30)
    (hv : ∀ v : Srcs, (iElem op x.type x.op7 (x.imm16 % 256) x.sat (sv1 v.a).lo (sv1 v.b).lo (sv1 v.c).lo).bits % 2 ^ width = val v) :
    ResultIn i opc x (if cnt then litInt x false 32 else litInt x (tySigned x.type) (tyRegs x.type)) width fun _ _ v => val v :=
  resultIn_of_alu (h := { lit := if cnt then litInt x false 32 else litInt x (tySigned x.type) (tyRegs x.type) })
    (fun s => (he s).trans (intAlu_eq s ho)) (outBound_one hd hw fun _ _ _ v => intOut_bound op x n v) hd hw
    (fun _ _ _ v => ⟨_, intOut_vals op x n v, hv v⟩) fun _ _ _ _ => rfl

/-- A floating instruction leaves the pattern of its element operation, in the mode in force. -/
theorem resultIn_float {i : Instr} {opc n width : Nat} {op : FOp} {x : Op} {b : Option Bool} {val : Env → Srcs → Nat}
    (he : ∀ s, exec i s = floatAlu s opc op n x) (hd : (rowAt opc x).d = .reg b width 1) (hw : width = 32 ∨ width = 64) (ho : opc ≠ 0x8C)
    (hv : ∀ (e : Env) (v : Srcs), (fElem op x.type (e.mode x.rm) x.sat x.op7 (sv1 v.a).lo (sv1 v.b).lo (sv1 v.c).lo).bits % 2 ^ width = val e v)
    (hval : ∀ e c v, val (Env.recore e c) v = val e v) : ResultIn i opc x (litFloat x x.type) width fun e _ v => val e v :=
  resultIn_of_alu (h := { lit := litFloat x x.type, factor := issueFactor opc x.type }) (val := fun e _ v => val e v)
    (fun s => (he s).trans (floatAlu_eq s ho)) (outBound_one hd hw fun _ e _ v => floatOut_bound op x _ n v) hd hw
    (fun _ e _ v => ⟨_, floatOut_vals op x _ n v, hv e v⟩) fun e c _ v => hval e c v

end Sys2Proof.Machine
end

