-- ==== Sys2Proof/Laws/Sync.lean ====
section
/-!
SUPPORT. How barrier and barrier-object instructions complete (R146, R147, R365, R368).
-/
namespace Sys2Proof.Machine
variable {s : State} {e : Env}

/-! ## Named barriers -/

/-- Whether an arrival is taken does not hang on what is published with it. -/
theorem arrive_clock {b : Barrier} {w a n : Nat} {c : Clock} {q : Barrier × Bool} (h : b.arrive w a n c = .ok q) : ∃ q', b.arrive w a n [] = .ok q' := by
  unfold Barrier.arrive at h ⊢
  split at h
  · cases h
  · rename_i h1
    rw [if_neg h1]
    simp only at h ⊢
    split at h
    · cases h
    · rename_i h2
      rw [if_neg h2]
      split at h
      · cases h
      · rename_i h3
        rw [if_neg h3]
        split <;> exact ⟨_, rfl⟩

theorem namedBarrier_arrives {len id : Nat} {g : Guard} {wait : Bool} {count : State → Env → Nat} {trap : Env → Option Trap} {q : Barrier × Bool}
    (hs : Steady s e) (hb : ElementMode e) (ht : trap (e.issuing s 1 1) = none) (hid : id < e.team.barriers.length)
    (ha : (e.team.barriers.getD id {}).arrive e.w e.lanes.length (count (e.issued s 1 1) (e.issuing s 1 1))
      ((e.issuing s 1 1).publish ((e.issued s 1 1).drawn 1)).1 = .ok q) (hq : e.warp.sq = []) :
    namedBarrier s len g id true wait count trap = .next (if wait then (arrived (e.issued s 1 1) (e.issuing s 1 1) len id q).waitAt e.k e.slot e.gid id
      else arrived (e.issued s 1 1) (e.issuing s 1 1) len id q) := by
  obtain ⟨q', h0⟩ := arrive_clock ha
  unfold namedBarrier control
  refine issue_one hs hb ?_
  have h1 : ¬ ((e.issuing s 1 1).team.barriers.length ≤ id) := Nat.not_le.mpr hid
  have h2 : ((e.issuing s 1 1).team.barriers.getD id {}).arrive (e.issuing s 1 1).w (e.issuing s 1 1).lanes.length
      (count (e.issued s 1 1) (e.issuing s 1 1)) [] = .ok q' := h0
  have h3 : ¬ ((e.issuing s 1 1).warp.sq ≠ []) := fun h => h hq
  have h4 : ((e.issuing s 1 1).team.barriers.getD id {}).arrive (e.issuing s 1 1).w (e.issuing s 1 1).lanes.length
      (count (e.issued s 1 1) (e.issuing s 1 1)) ((e.issuing s 1 1).publish ((e.issued s 1 1).drawn 1)).1 = .ok q := ha
  simp only [ht, if_neg h1, not_true_eq_false, if_false, h2]
  refine (if_neg h3).trans ?_
  simp only [h4]
  cases wait <;> rfl

theorem namedBarrier_waits {len id : Nat} {g : Guard} {count : State → Env → Nat} {trap : Env → Option Trap}
    (hs : Steady s e) (hb : ElementMode e) (ht : trap (e.issuing s 1 1) = none) (hid : id < e.team.barriers.length) :
    namedBarrier s len g id false true count trap = .next (((e.issuing s 1 1).done len (e.issued s 1 1)).waitAt e.k e.slot e.gid id) := by
  unfold namedBarrier control
  refine issue_one hs hb ?_
  have h1 : ¬ ((e.issuing s 1 1).team.barriers.length ≤ id) := Nat.not_le.mpr hid
  simp only [ht, if_neg h1]
  rfl

/-! ## RBAR -/

theorem Sync.rbar (hs : Steady s e) (hb : ElementMode e) (x : X96) {l : Launch} {r : Nat × Nat × Nat × Nat}
    (ht : e.regTrap x.op (rowAt 0x13 x.op) (maskOf e.lanes) = none) (hl : e.launch = some l) (h1 : l.onePerCore = true)
    (hr : subgroupOf l (uniA (e.issued s 1 1) 0x13 x.op) = some r) (hi : inSubgroup r e.k = true)
    (hc : ∀ w ∈ (s.core e.k).warps, w.1 ≠ e.slot → w.2.team = e.warp.team → ∀ g ∈ w.2.gangs, ∀ o m n, g.wait = .rbar o m n →
      o = uniA (e.issued s 1 1) 0x13 x.op) :
    exec (.rbar x) s = .next ((e.stall (.rbar (uniA (e.issued s 1 1) 0x13 x.op) (s.core e.k).seq 12) ((e.issued s 1 1).drawn 1)).tryRbar
      (e.team.uid.getD 0) (uniA (e.issued s 1 1) 0x13 x.op)) := by
  have hcore : ((e.issued s 1 1).drawn 1).core e.k = { s.core e.k with wayFree := (((e.issued s 1 1).drawn 1).core e.k).wayFree } := by
    obtain ⟨n, ws, hc⟩ := charge_eq s e.k e.slot 1 1
    change (s.charge e.k e.slot 1 1).core e.k = { s.core e.k with wayFree := ((s.charge e.k e.slot 1 1).core e.k).wayFree }
    rw [hc]; simp
  change execRbar x s = _
  unfold execRbar control
  refine issue_one hs hb ?_
  have h2 : countTrap 0x13 x.op (e.issuing s 1 1) = none := ht
  have h3 : (e.issuing s 1 1).launch = some l := hl
  simp only [h2, h3, h1, hr]
  have h4 : inSubgroup r (e.issuing s 1 1).k = true := hi
  simp only [h4, Bool.not_true, Bool.or_false, Bool.false_eq_true, false_or]
  have hseq : (((e.issued s 1 1).drawn 1).core (e.issuing s 1 1).k).seq = (s.core e.k).seq := by
    change (((e.issued s 1 1).drawn 1).core e.k).seq = _
    rw [hcore]
  have hwarps : (((e.issued s 1 1).drawn 1).core (e.issuing s 1 1).k).warps = (s.core e.k).warps := by
    change (((e.issued s 1 1).drawn 1).core e.k).warps = _
    rw [hcore]
  rw [if_neg, hseq]
  · rfl
  · rw [hwarps]
    simp only [List.any_eq_true, Bool.and_eq_true, decide_eq_true_eq, not_exists, not_and]
    intro w hw hsl g hg
    split
    · rename_i o m n hwait
      simp only [decide_eq_true_eq, ne_eq, Decidable.not_not]
      exact hc w hw hsl.1 hsl.2 g hg o m n hwait
    · simp

/-! ## Barrier objects -/

theorem objInstr_ok {opc : Nat} {op : ObjOp} {x : Op} (hs : Steady s e) (hb : ElementMode e) (hw : actors e opc x (x.op7 % 2 = 1) ≠ [])
    (ht : e.regTrap x (rowAt opc x) (maskOf (e.active x.g)) = none)
    (hc : objCheck (e.paid s opc x) (e.paying s opc x) op (if e.det then e.gang.publish.1 else []) (objTodo (e.paid s opc x) (e.paying s opc x) opc x) [] = [])
    (hq : e.warp.sq = []) :
    objInstr s opc op x = .next (e.done x.form.bytes (e.freed x (rowAt opc x)
      (((objTodo (e.paid s opc x) (e.paying s opc x) opc x).foldl (objDo (e.paying s opc x) op ((e.paying s opc x).publish (e.paid s opc x)).1)
        ((e.paying s opc x).publish (e.paid s opc x)).2).drawn 2))) := by
  unfold objInstr
  refine issue_paid hs hb ?_
  obtain ⟨a, l, hal⟩ : ∃ a l, actors e opc x (x.op7 % 2 = 1) = a :: l := List.exists_cons_of_ne_nil hw
  have h1 : actors (e.paying s opc x) opc x (x.op7 % 2 = 1) = a :: l := hal
  have h2 : (e.paying s opc x).regTrap x (rowAt opc x) (maskOf ((e.paying s opc x).active x.g)) = none := ht
  have h3 : objCheck (e.paid s opc x) (e.paying s opc x) op (if (e.paying s opc x).det = true then (e.paying s opc x).gang.publish.1 else [])
    (objTodo (e.paid s opc x) (e.paying s opc x) opc x) [] = [] := hc
  have h4 : ¬ ((e.paying s opc x).warp.sq ≠ []) := fun h => h hq
  simp only [h1, h2, h3]
  exact (if_neg h4).trans rfl

theorem bowait_try {x : Op} (hs : Steady s e) (hb : ElementMode e) (h7 : x.op7 = 1) (hw : e.active x.g ≠ [])
    (ht : e.regTrap x (rowAt 0xE5 x) (maskOf (e.active x.g)) = none) (hbad : bowaitBad (e.paid s 0xE5 x) (e.paying s 0xE5 x) x = []) :
    bowait s x = .next (e.done x.form.bytes (e.freed x (rowAt 0xE5 x) ((((e.paid s 0xE5 x).drawn 2).modWarp e.k e.slot fun _ =>
      bowaitPreds (e.paid s 0xE5 x) (e.paying s 0xE5 x) x).acquire e.k e.slot (bowaitScope x)))) := by
  unfold bowait
  refine issue_paid hs hb ?_
  obtain ⟨a, l, hal⟩ : ∃ a l, e.active x.g = a :: l := List.exists_cons_of_ne_nil hw
  have h1 : bowaitWho (e.paying s 0xE5 x) x = a :: l := by unfold bowaitWho; rw [if_pos h7]; exact hal
  have h2 : (e.paying s 0xE5 x).regTrap x (rowAt 0xE5 x) (maskOf ((e.paying s 0xE5 x).active x.g)) = none := ht
  simp only [h1, h2, hbad]
  exact (if_pos h7).trans rfl

theorem bowait_ok {x : Op} (hs : Steady s e) (hb : ElementMode e) (h7 : x.op7 ≠ 1) (hw : bowaitWho e x ≠ [])
    (ht : e.regTrap x (rowAt 0xE5 x) (maskOf (e.active x.g)) = none) (hbad : bowaitBad (e.paid s 0xE5 x) (e.paying s 0xE5 x) x = []) :
    bowait s x = .next (match bowaitLeft (e.paid s 0xE5 x) (e.paying s 0xE5 x) x with
      | [] => e.done x.form.bytes (e.freed x (rowAt 0xE5 x) ((bowaitJoined (e.paid s 0xE5 x) (e.paying s 0xE5 x) x).acquire e.k e.slot (bowaitScope x)))
      | l => e.stall (.bowait (l.map fun t => (t.1, t.2.1.1, t.2.1.2, t.2.2)) (bowaitScope x) x.form.bytes (e.frees x (rowAt 0xE5 x)))
          (bowaitJoined (e.paid s 0xE5 x) (e.paying s 0xE5 x) x)) := by
  unfold bowait
  refine issue_paid hs hb ?_
  obtain ⟨a, l, hal⟩ : ∃ a l, bowaitWho e x = a :: l := List.exists_cons_of_ne_nil hw
  have h1 : bowaitWho (e.paying s 0xE5 x) x = a :: l := hal
  have h2 : (e.paying s 0xE5 x).regTrap x (rowAt 0xE5 x) (maskOf ((e.paying s 0xE5 x).active x.g)) = none := ht
  simp only [h1, h2, hbad]
  refine (if_neg h7).trans ?_
  cases bowaitLeft (e.paid s 0xE5 x) (e.paying s 0xE5 x) x <;> rfl

end Sys2Proof.Machine
end

