-- ==== Sys2Proof/Tests/Slice0.lean ====
section
/-!
SUPPORT. The model's own tests. Words are written out from the encoding tables of chapter 3; witnesses show a state and operands that meet
the hypotheses of a statement.
-/
namespace Sys2Proof.Tests
set_option Elab.async false
open Sys2Proof.Machine

/-! ## Decoding -/

/-- The guard of an unguarded instruction. -/
abbrev g : Guard := ⟨false, 7⟩

/-- An X96 with every field zero but its guard. -/
def x0 : X96 where
  g := g
  d := 0
  a := 0
  la := false
  lb := false
  b := 0
  c := 0
  lc := false
  ixa := false
  ixb := false
  ixc := false
  bkd := false
  bka := false
  bkb := false
  bkc := false
  op7 := 0
  immb := false
  rm := 0
  sat := false
  type := 0
  scope := 0
  acq := false
  rel := false
  res := 0
  imm16 := 0

/-- The words decode to the instruction, which is `n` words long. -/
def dec (w0 : Word) (rest : List Word) (i : Instr) (n : Nat) : Bool := match decodeWords true w0 rest with
  | .instr j m => decide (j = i ∧ m = n)
  | .illegal _ => false

theorem test_words_0x_a : [
  dec 0x00001C04#32 [] (.nop ⟨g, 0, 0, 0⟩) 1,
  dec 0x00025C08#32 [] (.brC32 ⟨g, 9⟩) 1,
  dec 0x00001C09#32 [0x12345678#32] (.brL64 ⟨g, 0, 0, false, false, 0x12345678⟩) 2,
  dec 0x00401C0C#32 [] (.briC32 ⟨g, 0, 4, 0⟩) 1,
  dec 0x01001C0E#32 [0x00000000#32, 0x00000000#32] (.bri { x0 with a := 4 }) 3,
  dec 0x00025C10#32 [] (.callC32 ⟨g, 9⟩) 1,
  dec 0x00001C11#32 [0x12345678#32] (.callL64 ⟨g, 0, 0, false, false, 0x12345678⟩) 2,
  dec 0x00401C14#32 [] (.calliC32 ⟨g, 0, 4, 0⟩) 1,
  dec 0x01001C16#32 [0x00000000#32, 0x00000000#32] (.calli { x0 with a := 4 }) 3,
  dec 0x00001C18#32 [] (.ret ⟨g, 0, 0, 0⟩) 1,
  dec 0x00001C1C#32 [] (.join ⟨g, 0, 0, 0⟩) 1,
  dec 0x00001C20#32 [] (.yield ⟨g, 0, 0, 0⟩) 1,
  dec 0x00501C24#32 [] (.regangC32 ⟨g, 0, 5⟩) 1,
  dec 0x01001C26#32 [0x00200000#32, 0x00000000#32] (.regang { x0 with a := 4, bka := true }) 3,
  dec 0x03209C28#32 [] (.regroupC32 ⟨g, 2, 50, 0⟩) 1,
  dec 0x01009C2A#32 [0x00200000#32, 0x00000000#32] (.regroup { x0 with d := 2, a := 4, bka := true }) 3].all id = true := by decide +kernel

theorem test_words_0x_b : [
  dec 0x00001C2C#32 [] (.exit ⟨g, 0, 0, 0⟩) 1,
  dec 0x00001C30#32 [] (.bkpt ⟨g, 0, 0, 0⟩) 1,
  dec 0x01001C36#32 [0x00200000#32, 0x00000000#32] (.sleep { x0 with a := 4, bka := true }) 3,
  dec 0x01001C3A#32 [0x00000000#32, 0x00000000#32] (.spawn (.x { x0 with a := 4 })) 3,
  dec 0x01009C3E#32 [0x00700006#32, 0x00000000#32] (.tlaunch { x0 with d := 2, a := 4, b := 6, bkd := true, bka := true, bkb := true }) 3].all id = true := by decide +kernel

theorem test_words_1x : [
  dec 0x08501C40#32 [] (.baraC32 ⟨g, 0, 133⟩) 1,
  dec 0x01001C42#32 [0x00200000#32, 0x00000000#32] (.bara { x0 with a := 4, bka := true }) 3,
  dec 0x00501C44#32 [] (.barwC32 ⟨g, 0, 5⟩) 1,
  dec 0x00001C46#32 [0x00000000#32, 0x00000000#32] (.barw x0) 3,
  dec 0x08501C48#32 [] (.barsC32 ⟨g, 0, 133⟩) 1,
  dec 0x01001C4A#32 [0x00200000#32, 0x00000000#32] (.bars { x0 with a := 4, bka := true }) 3,
  dec 0x01001C4E#32 [0x00200000#32, 0x00000000#32] (.rbar { x0 with a := 4, bka := true }) 3,
  dec 0x00009C50#32 [] (.elect ⟨g, 2, 0, 0⟩) 1,
  dec 0x00001C54#32 [] (.quarter ⟨g, 0, 0, 0⟩) 1,
  dec 0x00001C58#32 [] (.handoffC32 ⟨g, 0, 0, 0⟩) 1,
  dec 0x01001C5A#32 [0x00200000#32, 0x00000000#32] (.handoff { x0 with a := 4, bka := true }) 3].all id = true := by decide +kernel

theorem test_words_2x_a : [
  dec 0x18409C80#32 [] (.iaddC32 ⟨g, 2, 4, 6⟩) 1,
  dec 0x01009C81#32 [0x12345678#32] (.iadd (.l ⟨g, 2, 4, false, false, 0x12345678⟩)) 2,
  dec 0x01009C82#32 [0x00000006#32, 0x00000010#32] (.iadd (.x { x0 with d := 2, a := 4, b := 6, type := 1 })) 3,
  dec 0x18409C84#32 [] (.isubC32 ⟨g, 2, 4, 6⟩) 1,
  dec 0x01009C85#32 [0x12345678#32] (.isub (.l ⟨g, 2, 4, false, false, 0x12345678⟩)) 2,
  dec 0x01009C86#32 [0x00000006#32, 0x00000010#32] (.isub (.x { x0 with d := 2, a := 4, b := 6, type := 1 })) 3,
  dec 0x01009C8A#32 [0x00000006#32, 0x00000020#32] (.iaddx { x0 with d := 2, a := 4, b := 6, type := 2 }) 3,
  dec 0x01009C8E#32 [0x00000006#32, 0x00000020#32] (.isubx { x0 with d := 2, a := 4, b := 6, type := 2 }) 3,
  dec 0x18409C90#32 [] (.imulC32 ⟨g, 2, 4, 6⟩) 1,
  dec 0x01009C91#32 [0x12345678#32] (.imul (.l ⟨g, 2, 4, false, false, 0x12345678⟩)) 2,
  dec 0x01009C92#32 [0x00000006#32, 0x00000010#32] (.imul (.x { x0 with d := 2, a := 4, b := 6, type := 1 })) 3,
  dec 0x18409C94#32 [] (.imulhC32 ⟨g, 2, 4, 6⟩) 1,
  dec 0x01009C96#32 [0x00000006#32, 0x00000010#32] (.imulh { x0 with d := 2, a := 4, b := 6, type := 1 }) 3,
  dec 0x01009C9A#32 [0x00000006#32, 0x00000010#32] (.imulw { x0 with d := 2, a := 4, b := 6, type := 1 }) 3,
  dec 0x01009C9E#32 [0x00000806#32, 0x00000010#32] (.imad (.x { x0 with d := 2, a := 4, b := 6, c := 8, type := 1 })) 3,
  dec 0x01009CA2#32 [0x00000006#32, 0x00000010#32] (.idiv { x0 with d := 2, a := 4, b := 6, type := 1 }) 3].all id = true := by decide +kernel

theorem test_words_2x_b : [
  dec 0x01009CA6#32 [0x00000006#32, 0x00000010#32] (.irem { x0 with d := 2, a := 4, b := 6, type := 1 }) 3,
  dec 0x00409CA8#32 [] (.inegC32 ⟨g, 2, 4, 0⟩) 1,
  dec 0x01009CAA#32 [0x00000000#32, 0x00000010#32] (.ineg { x0 with d := 2, a := 4, type := 1 }) 3,
  dec 0x00409CAC#32 [] (.iabsC32 ⟨g, 2, 4, 0⟩) 1,
  dec 0x01009CAE#32 [0x00000000#32, 0x00000010#32] (.iabs { x0 with d := 2, a := 4, type := 1 }) 3,
  dec 0x18409CB0#32 [] (.iminC32 ⟨g, 2, 4, 6⟩) 1,
  dec 0x01009CB1#32 [0x12345678#32] (.imin (.l ⟨g, 2, 4, false, false, 0x12345678⟩)) 2,
  dec 0x01009CB2#32 [0x00000006#32, 0x00000010#32] (.imin (.x { x0 with d := 2, a := 4, b := 6, type := 1 })) 3,
  dec 0x18409CB4#32 [] (.imaxC32 ⟨g, 2, 4, 6⟩) 1,
  dec 0x01009CB5#32 [0x12345678#32] (.imax (.l ⟨g, 2, 4, false, false, 0x12345678⟩)) 2,
  dec 0x01009CB6#32 [0x00000006#32, 0x00000010#32] (.imax (.x { x0 with d := 2, a := 4, b := 6, type := 1 })) 3,
  dec 0x01009CBA#32 [0x00000806#32, 0x00000010#32] (.isad { x0 with d := 2, a := 4, b := 6, c := 8, type := 1 }) 3,
  dec 0x01009CBE#32 [0x00000806#32, 0x00000010#32] (.iclamp (.x { x0 with d := 2, a := 4, b := 6, c := 8, type := 1 })) 3].all id = true := by decide +kernel

theorem test_words_3x_a : [
  dec 0x01009CC2#32 [0x00000806#32, 0x000000C0#32] (.idot { x0 with d := 2, a := 4, b := 6, c := 8, type := 12 }) 3,
  dec 0x18409CD0#32 [] (.andC32 ⟨g, 2, 4, 6⟩) 1,
  dec 0x01009CD1#32 [0x12345678#32] (.and (.l ⟨g, 2, 4, false, false, 0x12345678⟩)) 2,
  dec 0x01009CD2#32 [0x00000006#32, 0x00000000#32] (.and (.x { x0 with d := 2, a := 4, b := 6 })) 3,
  dec 0x18409CD4#32 [] (.orC32 ⟨g, 2, 4, 6⟩) 1,
  dec 0x01009CD5#32 [0x12345678#32] (.or (.l ⟨g, 2, 4, false, false, 0x12345678⟩)) 2,
  dec 0x01009CD6#32 [0x00000006#32, 0x00000000#32] (.or (.x { x0 with d := 2, a := 4, b := 6 })) 3,
  dec 0x18409CD8#32 [] (.xorC32 ⟨g, 2, 4, 6⟩) 1,
  dec 0x01009CD9#32 [0x12345678#32] (.xor (.l ⟨g, 2, 4, false, false, 0x12345678⟩)) 2,
  dec 0x01009CDA#32 [0x00000006#32, 0x00000000#32] (.xor (.x { x0 with d := 2, a := 4, b := 6 })) 3,
  dec 0x00409CDC#32 [] (.notC32 ⟨g, 2, 4, 0⟩) 1,
  dec 0x01009CDE#32 [0x00000000#32, 0x00000000#32] (.not { x0 with d := 2, a := 4 }) 3,
  dec 0x18409CE0#32 [] (.andnC32 ⟨g, 2, 4, 6⟩) 1,
  dec 0x01009CE1#32 [0x12345678#32] (.andn (.l ⟨g, 2, 4, false, false, 0x12345678⟩)) 2,
  dec 0x01009CE2#32 [0x00000006#32, 0x00000000#32] (.andn (.x { x0 with d := 2, a := 4, b := 6 })) 3,
  dec 0x01009CE6#32 [0x00000806#32, 0x00000000#32] (.tern { x0 with d := 2, a := 4, b := 6, c := 8 }) 3].all id = true := by decide +kernel

theorem test_words_3x_b : [
  dec 0x18409CE8#32 [] (.shlC32 ⟨g, 2, 4, 6⟩) 1,
  dec 0x01009CEA#32 [0x00000006#32, 0x00000000#32] (.shl { x0 with d := 2, a := 4, b := 6 }) 3,
  dec 0x18409CEC#32 [] (.shrC32 ⟨g, 2, 4, 6⟩) 1,
  dec 0x01009CEE#32 [0x00000006#32, 0x00000000#32] (.shr { x0 with d := 2, a := 4, b := 6 }) 3,
  dec 0x18409CF0#32 [] (.sarC32 ⟨g, 2, 4, 6⟩) 1,
  dec 0x01009CF2#32 [0x00000006#32, 0x00000000#32] (.sar { x0 with d := 2, a := 4, b := 6 }) 3,
  dec 0x18409CF4#32 [] (.rolC32 ⟨g, 2, 4, 6⟩) 1,
  dec 0x01009CF6#32 [0x00000006#32, 0x00000000#32] (.rol { x0 with d := 2, a := 4, b := 6 }) 3,
  dec 0x01009CFA#32 [0x00000806#32, 0x00000000#32] (.funs { x0 with d := 2, a := 4, b := 6, c := 8 }) 3,
  dec 0x01009CFE#32 [0x00000006#32, 0x00000010#32] (.bfx { x0 with d := 2, a := 4, b := 6, type := 1 }) 3].all id = true := by decide +kernel

theorem test_words_4x : [
  dec 0x01009D02#32 [0x00000806#32, 0x00000000#32] (.bfi { x0 with d := 2, a := 4, b := 6, c := 8 }) 3,
  dec 0x00409D04#32 [] (.brevC32 ⟨g, 2, 4, 0⟩) 1,
  dec 0x01009D06#32 [0x00000000#32, 0x00000000#32] (.brev { x0 with d := 2, a := 4 }) 3,
  dec 0x01009D0A#32 [0x00000806#32, 0x00000000#32] (.bperm { x0 with d := 2, a := 4, b := 6, c := 8 }) 3,
  dec 0x00409D0C#32 [] (.popcC32 ⟨g, 2, 4, 0⟩) 1,
  dec 0x01009D0E#32 [0x00000000#32, 0x00000000#32] (.popc { x0 with d := 2, a := 4 }) 3,
  dec 0x00409D10#32 [] (.clzC32 ⟨g, 2, 4, 0⟩) 1,
  dec 0x01009D12#32 [0x00000000#32, 0x00000000#32] (.clz { x0 with d := 2, a := 4 }) 3,
  dec 0x00409D14#32 [] (.ctzC32 ⟨g, 2, 4, 0⟩) 1,
  dec 0x01009D16#32 [0x00000000#32, 0x00000000#32] (.ctz { x0 with d := 2, a := 4 }) 3,
  dec 0x01009D1A#32 [0x00000000#32, 0x00000010#32] (.iext { x0 with d := 2, a := 4, type := 1 }) 3,
  dec 0x01009D22#32 [0x00000006#32, 0x00000010#32] (.icmp { x0 with d := 2, a := 4, b := 6, type := 1 }) 3,
  dec 0x01009D26#32 [0x00000006#32, 0x00000010#32] (.isel { x0 with d := 2, a := 4, b := 6, type := 1 }) 3,
  dec 0x01009D2A#32 [0x08000006#32, 0x00000010#32] (.lea (.x { x0 with d := 2, a := 4, b := 6, op7 := 8, type := 1 })) 3].all id = true := by decide +kernel

theorem test_words_5x : [
  dec 0x01009D42#32 [0x00000006#32, 0x00000000#32] (.pand { x0 with d := 2, a := 4, b := 6 }) 3,
  dec 0x01009D46#32 [0x00000006#32, 0x00000000#32] (.por { x0 with d := 2, a := 4, b := 6 }) 3,
  dec 0x01009D4A#32 [0x00000006#32, 0x00000000#32] (.pxor { x0 with d := 2, a := 4, b := 6 }) 3,
  dec 0x01009D4E#32 [0x00000000#32, 0x00000000#32] (.pnot { x0 with d := 2, a := 4 }) 3,
  dec 0x01001D52#32 [0x00000000#32, 0x00000000#32] (.pset { x0 with a := 4 }) 3,
  dec 0x00009D56#32 [0x00000000#32, 0x00000000#32] (.pget { x0 with d := 2 }) 3,
  dec 0x00409D60#32 [] (.movC32 ⟨g, 2, 4, 0⟩) 1,
  dec 0x01009D62#32 [0x00000000#32, 0x00000000#32] (.mov { x0 with d := 2, a := 4 }) 3,
  dec 0x00509D64#32 [] (.moviC32 ⟨g, 2, 5⟩) 1,
  dec 0x00009D66#32 [0x80000000#32, 0x00000010#32] (.movi { x0 with d := 2, immb := true, type := 1 }) 3,
  dec 0x00009D69#32 [0x12345678#32] (.movl (.l ⟨g, 2, 0, false, false, 0x12345678⟩)) 2,
  dec 0x11C09D6E#32 [0x00200000#32, 0x00000000#32] (.srd { x0 with d := 2, a := 71, bka := true }) 3,
  dec 0x01151D72#32 [0x00100000#32, 0x00000000#32] (.swr { x0 with d := 84, a := 4, bkd := true }) 3,
  dec 0x01001D76#32 [0x00000000#32, 0x800B0000#32] (.region (.x { x0 with a := 4, imm16 := 0x800B })) 3].all id = true := by decide +kernel

theorem test_words_6x : [
  dec 0x01009D82#32 [0x00000006#32, 0x00000000#32] (.perm { x0 with d := 2, a := 4, b := 6 }) 3,
  dec 0x18409D84#32 [] (.shiftwC32 ⟨g, 2, 4, 6⟩) 1,
  dec 0x01009D86#32 [0x00000006#32, 0x00000000#32] (.shiftw { x0 with d := 2, a := 4, b := 6 }) 3,
  dec 0x00409D88#32 [] (.voteC32 ⟨g, 2, 4, 0⟩) 1,
  dec 0x01009D8A#32 [0x00000000#32, 0x00000000#32] (.vote { x0 with d := 2, a := 4 }) 3,
  dec 0x01009D8E#32 [0x00400006#32, 0x00000010#32] (.rstep { x0 with d := 2, a := 4, b := 6, bkb := true, type := 1 }) 3,
  dec 0xC8409D90#32 [] (.bcastC32 ⟨g, 2, 4, 50⟩) 1,
  dec 0x01009D92#32 [0x00400006#32, 0x00000000#32] (.bcast { x0 with d := 2, a := 4, b := 6, bkb := true }) 3,
  dec 0x01009D96#32 [0x00000000#32, 0x00000000#32] (.matchLanes { x0 with d := 2, a := 4 }) 3,
  dec 0x01009D9A#32 [0x00000000#32, 0x00000010#32] (.redw { x0 with d := 2, a := 4, type := 1 }) 3,
  dec 0x01009D9E#32 [0x00000000#32, 0x00000010#32] (.scanw { x0 with d := 2, a := 4, type := 1 }) 3].all id = true := by decide +kernel

theorem test_words_8x_a : [
  dec 0x18409E00#32 [] (.faddC32 ⟨g, 2, 4, 6⟩) 1,
  dec 0x01009E01#32 [0x12345678#32] (.fadd (.l ⟨g, 2, 4, false, false, 0x12345678⟩)) 2,
  dec 0x01009E02#32 [0x00000006#32, 0x00000050#32] (.fadd (.x { x0 with d := 2, a := 4, b := 6, type := 5 })) 3,
  dec 0x18409E04#32 [] (.fsubC32 ⟨g, 2, 4, 6⟩) 1,
  dec 0x01009E05#32 [0x12345678#32] (.fsub (.l ⟨g, 2, 4, false, false, 0x12345678⟩)) 2,
  dec 0x01009E06#32 [0x00000006#32, 0x00000050#32] (.fsub (.x { x0 with d := 2, a := 4, b := 6, type := 5 })) 3,
  dec 0x18409E08#32 [] (.fmulC32 ⟨g, 2, 4, 6⟩) 1,
  dec 0x01009E09#32 [0x12345678#32] (.fmul (.l ⟨g, 2, 4, false, false, 0x12345678⟩)) 2,
  dec 0x01009E0A#32 [0x00000006#32, 0x00000050#32] (.fmul (.x { x0 with d := 2, a := 4, b := 6, type := 5 })) 3,
  dec 0x01009E0E#32 [0x00000806#32, 0x00000050#32] (.fma (.x { x0 with d := 2, a := 4, b := 6, c := 8, type := 5 })) 3,
  dec 0x18409E10#32 [] (.fminC32 ⟨g, 2, 4, 6⟩) 1,
  dec 0x01009E12#32 [0x00000006#32, 0x00000050#32] (.fmin { x0 with d := 2, a := 4, b := 6, type := 5 }) 3,
  dec 0x18409E14#32 [] (.fmaxC32 ⟨g, 2, 4, 6⟩) 1,
  dec 0x01009E16#32 [0x00000006#32, 0x00000050#32] (.fmax { x0 with d := 2, a := 4, b := 6, type := 5 }) 3,
  dec 0x01009E1A#32 [0x00000006#32, 0x00000050#32] (.fcmp { x0 with d := 2, a := 4, b := 6, type := 5 }) 3,
  dec 0x01009E1E#32 [0x00000000#32, 0x00000050#32] (.fclass { x0 with d := 2, a := 4, type := 5 }) 3].all id = true := by decide +kernel

theorem test_words_8x_b : [
  dec 0x00409E20#32 [] (.fabsC32 ⟨g, 2, 4, 0⟩) 1,
  dec 0x01009E22#32 [0x00000000#32, 0x00000050#32] (.fabs { x0 with d := 2, a := 4, type := 5 }) 3,
  dec 0x00409E24#32 [] (.fnegC32 ⟨g, 2, 4, 0⟩) 1,
  dec 0x01009E26#32 [0x00000000#32, 0x00000050#32] (.fneg { x0 with d := 2, a := 4, type := 5 }) 3,
  dec 0x01009E2A#32 [0x00000006#32, 0x00000050#32] (.fsgn { x0 with d := 2, a := 4, b := 6, type := 5 }) 3,
  dec 0x01009E2E#32 [0x00000000#32, 0x00000050#32] (.frnd { x0 with d := 2, a := 4, type := 5 }) 3,
  dec 0x01009E32#32 [0x00000006#32, 0x00000050#32] (.fscale { x0 with d := 2, a := 4, b := 6, type := 5 }) 3,
  dec 0x01009E36#32 [0x00000000#32, 0x00000050#32] (.flogb { x0 with d := 2, a := 4, type := 5 }) 3,
  dec 0x01009E3A#32 [0x00000006#32, 0x00000070#32] (.fadd2 { x0 with d := 2, a := 4, b := 6, type := 7 }) 3,
  dec 0x01009E3E#32 [0x00000006#32, 0x00000070#32] (.fmul2 { x0 with d := 2, a := 4, b := 6, type := 7 }) 3].all id = true := by decide +kernel

theorem test_words_9x : [
  dec 0x01009E42#32 [0x00000806#32, 0x00000070#32] (.fma2 { x0 with d := 2, a := 4, b := 6, c := 8, type := 7 }) 3,
  dec 0x01009E46#32 [0x00000806#32, 0x00000070#32] (.fdot { x0 with d := 2, a := 4, b := 6, c := 8, type := 7 }) 3,
  dec 0x01009E52#32 [0x00000006#32, 0x00000050#32] (.fdiv { x0 with d := 2, a := 4, b := 6, type := 5 }) 3,
  dec 0x01009E56#32 [0x00000000#32, 0x00000050#32] (.fsqrt { x0 with d := 2, a := 4, type := 5 }) 3,
  dec 0x01009E5A#32 [0x00000000#32, 0x00000050#32] (.frcp { x0 with d := 2, a := 4, type := 5 }) 3,
  dec 0x01009E5E#32 [0x00000000#32, 0x00000050#32] (.frsq { x0 with d := 2, a := 4, type := 5 }) 3,
  dec 0x01009E62#32 [0x00000000#32, 0x00000050#32] (.fexp { x0 with d := 2, a := 4, type := 5 }) 3,
  dec 0x01009E66#32 [0x00000000#32, 0x00000050#32] (.fexpm1 { x0 with d := 2, a := 4, type := 5 }) 3,
  dec 0x01009E6A#32 [0x00000000#32, 0x00000050#32] (.flog { x0 with d := 2, a := 4, type := 5 }) 3,
  dec 0x01009E6E#32 [0x00000000#32, 0x00000050#32] (.flog1p { x0 with d := 2, a := 4, type := 5 }) 3,
  dec 0x01009E72#32 [0x00000000#32, 0x00000050#32] (.ferf { x0 with d := 2, a := 4, type := 5 }) 3,
  dec 0x01009E76#32 [0x00000000#32, 0x00000050#32] (.ferfc { x0 with d := 2, a := 4, type := 5 }) 3].all id = true := by decide +kernel

theorem test_words_Ax : [
  dec 0x01009E82#32 [0x05000000#32, 0x00000050#32] (.cvt { x0 with d := 2, a := 4, op7 := 5, type := 5 }) 3,
  dec 0x01009E86#32 [0x05000000#32, 0x00000010#32] (.cvti { x0 with d := 2, a := 4, op7 := 5, type := 1 }) 3,
  dec 0x01009E8A#32 [0x01000000#32, 0x00000050#32] (.cvtf { x0 with d := 2, a := 4, op7 := 1, type := 5 }) 3,
  dec 0x01009E8E#32 [0x05000000#32, 0x00000070#32] (.packn { x0 with d := 2, a := 4, op7 := 5, type := 7 }) 3,
  dec 0x01009E92#32 [0x00000000#32, 0x00000050#32] (.qnt { x0 with d := 2, a := 4, type := 5 }) 3,
  dec 0x01009E96#32 [0x00000000#32, 0x00000050#32] (.dqnt { x0 with d := 2, a := 4, type := 5 }) 3,
  dec 0x01009EA2#32 [0x04000006#32, 0x00000000#32] (.rnd { x0 with d := 2, a := 4, b := 6, op7 := 4 }) 3,
  dec 0x01009EA6#32 [0x04000006#32, 0x00000050#32] (.rndf { x0 with d := 2, a := 4, b := 6, op7 := 4, type := 5 }) 3,
  dec 0x01009EAA#32 [0x04000806#32, 0x00000000#32] (.rndm { x0 with d := 2, a := 4, b := 6, c := 8, op7 := 4 }) 3].all id = true := by decide +kernel

theorem test_words_Bx : [
  dec 0x01009EC2#32 [0x00000006#32, 0x00000010#32] (.ivmk { x0 with d := 2, a := 4, b := 6, type := 1 }) 3,
  dec 0x01009EC6#32 [0x00000000#32, 0x00000010#32] (.ivlo { x0 with d := 2, a := 4, type := 1 }) 3,
  dec 0x01009ECA#32 [0x00000000#32, 0x00000010#32] (.ivhi { x0 with d := 2, a := 4, type := 1 }) 3].all id = true := by decide +kernel

theorem test_words_Cx_a : [
  dec 0x01009F02#32 [0x01000006#32, 0x00000010#32] (.ld (.x { x0 with d := 2, a := 4, b := 6, op7 := 1, type := 1 })) 3,
  dec 0x01001F06#32 [0x01000806#32, 0x00000010#32] (.st (.x { x0 with a := 4, b := 6, c := 8, op7 := 1, type := 1 })) 3,
  dec 0x00409F08#32 [] (.ldsC32 ⟨g, 2, 4, 0⟩) 1,
  dec 0x01009F0A#32 [0x00000000#32, 0x00000010#32] (.lds { x0 with d := 2, a := 4, type := 1 }) 3,
  dec 0x18401F0C#32 [] (.stsC32 ⟨g, 0, 4, 6⟩) 1,
  dec 0x01001F0E#32 [0x00000006#32, 0x00000010#32] (.sts { x0 with a := 4, b := 6, type := 1 }) 3,
  dec 0x01009F12#32 [0x00000006#32, 0x00000010#32] (.ldw { x0 with d := 2, a := 4, b := 6, type := 1 }) 3,
  dec 0x01001F16#32 [0x00000806#32, 0x00000010#32] (.stw { x0 with a := 4, b := 6, c := 8, type := 1 }) 3,
  dec 0x01009F1A#32 [0x01700006#32, 0x00000010#32] (.sld (.x { x0 with d := 2, a := 4, b := 6, bkd := true, bka := true, bkb := true, op7 := 1, type := 1 })) 3,
  dec 0x01001F1E#32 [0x01E00806#32, 0x00000010#32] (.sst (.x { x0 with a := 4, b := 6, c := 8, bka := true, bkb := true, bkc := true, op7 := 1, type := 1 })) 3,
  dec 0x01009F22#32 [0x00000000#32, 0x00000010#32] (.ldwt { x0 with d := 2, a := 4, type := 1 }) 3,
  dec 0x01009F26#32 [0x00000000#32, 0x00000010#32] (.ldsm { x0 with d := 2, a := 4, type := 1 }) 3,
  dec 0x01001F2A#32 [0x00000000#32, 0x00000000#32] (.stf { x0 with a := 4 }) 3,
  dec 0x01009F2E#32 [0x00300000#32, 0x00000010#32] (.cstore { x0 with d := 2, a := 4, bkd := true, bka := true, type := 1 }) 3,
  dec 0x01009F32#32 [0x00200000#32, 0x00000010#32] (.xload { x0 with d := 2, a := 4, bka := true, type := 1 }) 3,
  dec 0x01009F36#32 [0x10000806#32, 0x00000010#32] (.atom { x0 with d := 2, a := 4, b := 6, c := 8, op7 := 16, type := 1 }) 3].all id = true := by decide +kernel

theorem test_words_Cx_b : [
  dec 0x01009F3A#32 [0x00000000#32, 0x00000010#32] (.atoms { x0 with d := 2, a := 4, type := 1 }) 3,
  dec 0x01009F3E#32 [0x00000806#32, 0x00000010#32] (.atomw { x0 with d := 2, a := 4, b := 6, c := 8, type := 1 }) 3].all id = true := by decide +kernel

theorem test_words_Dx : [
  dec 0x01001F42#32 [0x10000806#32, 0x00000010#32] (.red { x0 with a := 4, b := 6, c := 8, op7 := 16, type := 1 }) 3,
  dec 0x01001F46#32 [0x00000000#32, 0x00000010#32] (.reds { x0 with a := 4, type := 1 }) 3,
  dec 0x01009F4A#32 [0x04000806#32, 0x00000010#32] (.cas { x0 with d := 2, a := 4, b := 6, c := 8, op7 := 4, type := 1 }) 3,
  dec 0x00001F4C#32 [] (.fenceC32 ⟨g, 0, 0, 0⟩) 1,
  dec 0x00001F4E#32 [0x00000000#32, 0x00000000#32] (.fence x0) 3,
  dec 0x01001F52#32 [0x01000006#32, 0x00000000#32] (.pref { x0 with a := 4, b := 6, op7 := 1 }) 3,
  dec 0x01009F56#32 [0x01000006#32, 0x00000010#32] (.probe { x0 with d := 2, a := 4, b := 6, op7 := 1, type := 1 }) 3,
  dec 0x01001F5A#32 [0x00000000#32, 0x00000000#32] (.cctlEv { x0 with a := 4 }) 3,
  dec 0x00001F5A#32 [0x01000000#32, 0x00000000#32] (.cctlEvall { x0 with op7 := 1 }) 3].all id = true := by decide +kernel

theorem test_words_Ex_a : [
  dec 0x01001F82#32 [0x00000000#32, 0x00000000#32] (.cpy (.x { x0 with a := 4 })) 3,
  dec 0x18401F84#32 [] (.kickC32 ⟨g, 0, 4, 6⟩) 1,
  dec 0x01001F86#32 [0x00000006#32, 0x00000000#32] (.kick { x0 with a := 4, b := 6 }) 3,
  dec 0x01001F8A#32 [0x00000006#32, 0x00000000#32] (.boinit { x0 with a := 4, b := 6 }) 3,
  dec 0x01001F8E#32 [0x00000006#32, 0x00000000#32] (.boexp { x0 with a := 4, b := 6 }) 3,
  dec 0x01001F92#32 [0x00000006#32, 0x00000000#32] (.boarr { x0 with a := 4, b := 6 }) 3,
  dec 0x18401F94#32 [] (.bowaitC32 ⟨g, 0, 4, 6⟩) 1,
  dec 0x01009F96#32 [0x01000006#32, 0x00000000#32] (.bowait { x0 with d := 2, a := 4, b := 6, op7 := 1 }) 3,
  dec 0x01001F9A#32 [0x00000000#32, 0x00000000#32] (.bofree { x0 with a := 4 }) 3,
  dec 0x00001F9E#32 [0x01000000#32, 0x00000000#32] (.drain { x0 with op7 := 1 }) 3,
  dec 0x01001FA2#32 [0x00000806#32, 0x00000010#32] (.reduce { x0 with a := 4, b := 6, c := 8, type := 1 }) 3,
  dec 0x01001FA6#32 [0x00000806#32, 0x00000010#32] (.summ { x0 with a := 4, b := 6, c := 8, type := 1 }) 3,
  dec 0x01001FAA#32 [0x00800806#32, 0x00000060#32] (.mma (.x { x0 with a := 4, b := 6, c := 8, bkc := true, type := 6 })) 3,
  dec 0x01009FAE#32 [0x00300000#32, 0x00000000#32] (.rsv { x0 with d := 2, a := 4, bkd := true, bka := true }) 3,
  dec 0x03201FB0#32 [] (.rsvfreeC32 ⟨g, 0, 50, 0⟩) 1,
  dec 0x01001FB2#32 [0x00200000#32, 0x00000000#32] (.rsvfree { x0 with a := 4, bka := true }) 3].all id = true := by decide +kernel

theorem test_words_Ex_b : [
  dec 0x01001FB6#32 [0x00E00806#32, 0x00000050#32] (.obld { x0 with a := 4, b := 6, c := 8, bka := true, bkb := true, bkc := true, type := 5 }) 3,
  dec 0x01009FBA#32 [0x01200000#32, 0x00000000#32] (.accrd { x0 with d := 2, a := 4, bka := true, op7 := 1 }) 3,
  dec 0x01001FBE#32 [0x00E00806#32, 0x00000010#32] (.accst { x0 with a := 4, b := 6, c := 8, bka := true, bkb := true, bkc := true, type := 1 }) 3].all id = true := by decide +kernel

theorem test_words_Fx_a : [
  dec 0x01001FC2#32 [0x01600006#32, 0x00000000#32] (.acczTake { x0 with a := 4, b := 6, bka := true, bkb := true, op7 := 1 }) 3,
  dec 0x01001FC2#32 [0x02600006#32, 0x00000000#32] (.acczGive { x0 with a := 4, b := 6, bka := true, bkb := true, op7 := 2 }) 3,
  dec 0x01001FC2#32 [0x00600006#32, 0x00000000#32] (.acczClr { x0 with a := 4, b := 6, bka := true, bkb := true }) 3,
  dec 0x18401FC4#32 [] (.resolveC32 ⟨g, 0, 4, 6⟩) 1,
  dec 0x01001FC6#32 [0x00000006#32, 0x00000000#32] (.resolve { x0 with a := 4, b := 6 }) 3,
  dec 0x01001FCA#32 [0x00600006#32, 0x00000000#32] (.sqload { x0 with a := 4, b := 6, bka := true, bkb := true }) 3,
  dec 0x01009FCA#32 [0x01300000#32, 0x00000000#32] (.sqstart { x0 with d := 2, a := 4, bkd := true, bka := true, op7 := 1 }) 3,
  dec 0x01009FCA#32 [0x02300000#32, 0x00000000#32] (.sqwait { x0 with d := 2, a := 4, bkd := true, bka := true, op7 := 2 }) 3,
  dec 0x01009FCA#32 [0x03300000#32, 0x00000000#32] (.sqstat { x0 with d := 2, a := 4, bkd := true, bka := true, op7 := 3 }) 3,
  dec 0x01001FCA#32 [0x04200000#32, 0x00000000#32] (.sqabort { x0 with a := 4, bka := true, op7 := 4 }) 3,
  dec 0x01001FCE#32 [0x00000806#32, 0x00000000#32] (.msend (.x { x0 with a := 4, b := 6, c := 8 })) 3,
  dec 0x01001FD2#32 [0x00200000#32, 0x00000000#32] (.witn { x0 with a := 4, bka := true }) 3,
  dec 0x01009FD6#32 [0x00300000#32, 0x00000000#32] (.wstatReg { x0 with d := 2, a := 4, bkd := true, bka := true }) 3,
  dec 0x01009FD6#32 [0x01300000#32, 0x00000000#32] (.wstatAtt { x0 with d := 2, a := 4, bkd := true, bka := true, op7 := 1 }) 3,
  dec 0x00501FE0#32 [] (.trapC32 ⟨g, 0, 5⟩) 1,
  dec 0x00001FE2#32 [0x00000000#32, 0x00000000#32] (.trap x0) 3].all id = true := by decide +kernel

theorem test_words_Fx_b : [
  dec 0x00001FE4#32 [] (.rteRep ⟨g, 0, 0, 0⟩) 1,
  dec 0x00101FE4#32 [] (.rteSkip ⟨g, 0, 1, 0⟩) 1,
  dec 0x00009FEA#32 [0x00100000#32, 0x01030000#32] (.csrr { x0 with d := 2, bkd := true, imm16 := 259 }) 3,
  dec 0x01001FEE#32 [0x00200000#32, 0x01030000#32] (.csrw { x0 with a := 4, bka := true, imm16 := 259 }) 3,
  dec 0x00001FF0#32 [] (.halt ⟨g, 0, 0, 0⟩) 1,
  dec 0x00001FF6#32 [0x00000000#32, 0x00000000#32] (.tlbiAll x0) 3,
  dec 0x00001FF6#32 [0x01400000#32, 0x00000000#32] (.tlbiCtx { x0 with bkb := true, op7 := 1 }) 3,
  dec 0x01001FF6#32 [0x02600006#32, 0x00000000#32] (.tlbiPage { x0 with a := 4, b := 6, bka := true, bkb := true, op7 := 2 }) 3,
  dec 0x00001FF8#32 [] (.waiti ⟨g, 0, 0, 0⟩) 1].all id = true := by decide +kernel
/-- Detail 1: a word that is no instruction. -/
theorem test_no_instruction : decodeWords true 0x00000000#32 [] = .illegal 1 := by decide +kernel
/-- The check of terms refuses what decoding refuses, each with its detail code (R67). -/
theorem test_ill_formed : [.imin (.y x0 0), .iadd (.x { x0 with type := 1, op7 := 1 }), .iadd (.x { x0 with type := 1, res := 1 }),
  .fadd (.x { x0 with type := 5, rm := 7 }), .iadd (.x x0), .fence { x0 with scope := 6 }, .elect ⟨g, 7, 0, 0⟩, .iadd (.x { x0 with type := 4, d := 1 }),
  .iadd (.x { x0 with type := 1, bka := true, la := true })].map (Instr.detail true) = [some 2, some 3, some 4, some 5, some 6, some 7, some 8, some 9, some 10] ∧
  (Instr.halt ⟨g, 0, 0, 0⟩).detail false = some 11 := by decide +kernel
/-- Well-formed neighbours of those terms. -/
theorem test_well_formed : ([.imin (.x { x0 with type := 1 }), .iadd (.x { x0 with type := 1 }), .fadd (.x { x0 with type := 5, rm := 4 }),
  .fence { x0 with scope := 5 }, .elect ⟨g, 6, 0, 0⟩, .iadd (.x { x0 with type := 4, d := 2 }), .halt ⟨g, 0, 0, 0⟩].all Instr.wf) = true := by decide +kernel
/-- An event row has no words; a constructor whose selector the words do not have is ill-formed. -/
theorem test_no_words : ((Instr.packagePowerOn).wf || (Instr.cctlEv { x0 with op7 := 1 }).wf || (Instr.acczGive { x0 with op7 := 3 }).wf) = false := by decide +kernel

/-! ## Witnesses

A small machine: one team of one warp on core 0, with 32 live threads in one gang, of a launch without DET; names 0 to 31 are mapped, with the
value lane × 4 + name; the first 2 MiB of context 1 are translated. -/

def img0 : Image where
  ctx := 1
  addr := 0x10000
  entries := [(0x10000, .main), (0x10100, .spawn)]

def launch0 : Launch where
  ctx := 1
  kernel := 0x10000
  tag := 5
  root := 0
  ocr := 0
  occ := 0
  ch := 1
  cw := 1
  segs := [{ teams := 1, param := 0, key := 0 }]
  pri := 0
  ec := 0
  dpl := false
  phase := .running
  age := 0
  counter := 1

def team0 : Team where
  kind := .grid
  uid := some 0
  teamIdx := 0
  teamW := 2
  n := 64
  vectors := 64
  scrBase := 1024
  scrSize := 4096
  barriers := [{}, {}]

def warp0 : Warp where
  team := 0
  warpId := 0
  lanes := List.replicate 32 { live := true, exec := true }
  slices := List.replicate 8 { pc := 0x10000 }
  gangs := [{ id := 0, agent := 1 }]
  vregs := (List.range 32).map fun n => (n, (List.range 32).map fun i => { lo := BitVec.ofNat 32 (4 * i + n), hi := BitVec.ofNat 32 (4 * i + n) })

/-- `pages` are translated to physical addresses equal to them. -/
def tlb0 : TlbEnt := { ctx := 1, base := 0, size := 2 ^ 21, frame := 0, stg := false, fidx := 0, g := false, rt := false, s := false, x := true, wr := true }

def s0 : State := { State.reset with
  cores := (0, { warps := [(0, warp0)], teams := [(0, team0)], order := [(0, 0)] }) :: State.reset.cores
  dies := State.reset.dies.map fun d => { d with tlb := [tlb0] }
  launches := [(0, launch0)]
  images := [img0]
  agenda := []
  focus := (0, 0, 0)
  nextUid := 1
  nextAgent := 2 }

/-- The machine with its warp, team, core, die 0 or launch changed. -/
def warped (f : Warp → Warp) : State := s0.modWarp 0 0 f
def teamed (f : Team → Team) : State := s0.modTeam 0 0 f
def cored (f : Core → Core) : State := s0.modCore 0 f
def died (f : Die → Die) : State := s0.modDie 0 f

/-- The machine with values in uniform registers: an ordinary operand of an instruction's witness. -/
def unis (l : List (Nat × Word)) : State := warped fun w => { w with sregs := l.foldl (fun r p => r.set p.1 { lo := p.2, hi := p.2 }) w.sregs }

/-- The same warp as the firmware core's, in supervisor mode. -/
def sFw : State := { s0 with
  cores := aput 128 { warps := [(0, warp0)], teams := [(0, { team0 with uid := none, kind := .firmware })], order := [(0, 0)] } s0.cores
  focus := (128, 0, 0) }

/-- A state whose focus gang is steady and in element mode, and of which `p` holds. -/
def Meets (s : State) (p : State → Env → Prop) : Prop := ∃ e, Steady s e ∧ ElementMode e ∧ p s e

def meetsB (s : State) (p : Env → Bool) : Bool := match s.env? with
  | some e => e.warp.lanes.length = 32 && e.warp.slices.length = 8 && (e.warp.gangSlices e.gid != []) &&
      (e.warp.slices.all fun x => x.gang != e.gid || !x.ended) && (e.warp.lanes.all fun l => !l.bounds) && p e
  | none => false

theorem meets {s : State} {p : State → Env → Prop} [∀ s e, Decidable (p s e)] (h : meetsB s (fun e => decide (p s e)) = true) : Meets s p := by
  unfold meetsB at h
  split at h
  · rename_i e he
    simp only [Bool.and_eq_true, decide_eq_true_eq, List.all_eq_true, bne_iff_ne, Bool.or_eq_true, Bool.not_eq_true', ne_eq] at h
    refine ⟨e, ⟨he, h.1.1.1.1.1, h.1.1.1.1.2, h.1.1.1.2, fun x hx hg => ?_⟩, fun i => ?_, h.2⟩
    · exact (h.1.1.2 x hx).resolve_left (fun hn => hn hg)
    · unfold Warp.lane
      rw [List.getD_eq_getElem?_getD]
      cases hl : e.warp.lanes[i]? with
      | none => rfl
      | some l => exact h.1.2 l (List.mem_of_getElem? hl)
  · simp at h

theorem witness_steady : Meets s0 fun _ e => e.slices = List.range 8 ∧ e.w = 32 := meets (by decide +kernel)
theorem witness_supervisor : Meets sFw fun _ e => e.super = true ∧ isFw e.k = true := meets (by decide +kernel)

/-- A state whose focus gang `p` holds of. -/
def Sees (s : State) (p : Env → Prop) : Prop := ∃ e, s.env? = some e ∧ p e

theorem sees {s : State} {p : Env → Prop} [DecidablePred p]
    (h : (match s.env? with | some e => decide (p e) | none => false) = true) : Sees s p := by
  split at h
  · rename_i e he
    exact ⟨e, he, of_decide_eq_true h⟩
  · simp at h

/-- Instruction memory at the warp's PC. -/
def coded (l : List Word) : State := { s0 with hbm := memWrite [] 0x10000 (bytesOfWords l) }
def fetched (s : State) (e : Env) (w0 : Word) (ws : List Word) : Bool := match fetchAll s e.k (Env.party s e) e.pc.toNat with
  | .ok q => q = (w0, ws)
  | .error _ => false
def stopped (s : State) (e : Env) (x : FetchStop) : Bool := match fetchAll s e.k (Env.party s e) e.pc.toNat with
  | .ok _ => false
  | .error y => x = y

/-- Threads at odd lanes have every predicate false, those at even lanes true. -/
def mixed : List Lane := (List.range 32).map fun i => { live := true, exec := true, preds := List.replicate 7 { v := .ofBool (i % 2 = 0) } }

/-- An operand A in uniform register 4. -/
def u4 : X96 := { x0 with a := 4, bka := true }

theorem witness_decode_encode : (Instr.iadd (.y { x0 with type := 4, d := 254, a := 254 } (2 ^ 64 - 1))).wf = true := by decide +kernel
theorem witness_decode : decodeWords false 0x00C09D22#32 [0x82000000#32, 0x000A0010#32] =
    .instr (.icmp { x0 with d := 2, a := 3, immb := true, op7 := 2, imm16 := 10, type := 1 }) 3 := by decide +kernel
theorem witness_instruction_length :
    (∃ s k p va w0 ws, fetchAll s k p va = .ok (w0, ws) ∧ ws.length = 2 ∧ s.physical p = true ∧ va + 4 ≤ Config.hbmBytes ∧ ∀ w, ((p.uid, va), w) ∉ (s.core k).ahead) ∧
    (∃ i n, (0x00001C09#32).toNat % 4 = 1 ∧ decodeWords false 0x00001C09#32 [0x12345678#32] = .instr i n) ∧
    (∃ i n, (0x01009C83#32).toNat % 4 = 3 ∧ decodeWords false 0x01009C83#32 [0#32, 0x40#32, 5#32, 6#32] = .instr i n) := by
  refine ⟨⟨coded [0x01001C0E#32, 0x00000000#32, 0x00000000#32], 0,
      { die := 0, fw := true, uid := none, ctx := 0 }, 0x10000, 0x01001C0E#32, [0#32, 0#32], by rfl, rfl, by decide +kernel, by decide +kernel, fun w h => nomatch h⟩,
    ⟨.brL64 ⟨g, 0, 0, false, false, 0x12345678⟩, 2, by decide +kernel, by decide +kernel⟩, ⟨.iadd (.y { x0 with type := 4, d := 2, a := 4 } 0x600000005), 5, by decide +kernel, by decide +kernel⟩⟩

/-- The state in which the gang of `s0` has started. -/
def begun (s : State) (pace : Option Nat) : State := (s.starting pace 0 0 0).startWarp 0 0

theorem witness_step_runs_decoded :
    ((coded [0x00001C04#32]).agenda = [] ∧ (0, 0, 0) = (coded [0x00001C04#32]).focus ∧ (coded [0x00001C04#32]).mayIssue 0 0 0 = true ∧
      Sees (begun (coded [0x00001C04#32]) none) fun e => fetched (begun (coded [0x00001C04#32]) none) e 0x00001C04#32 [] = true ∧
        decodeWords e.super 0x00001C04#32 [] = .instr (.nop ⟨g, 0, 0, 0⟩) 1) ∧
    (s0.mayIssue 0 0 0 = true ∧ Sees (begun s0 (some 1)) fun e => fetched (begun s0 (some 1)) e 0x00000000#32 [] = true ∧
      decodeWords e.super 0x00000000#32 [] = .illegal 1) ∧
    (∃ s, s = (warped fun w => { w with slices := List.replicate 8 { pc := 0x0200000000000000 } }) ∧ s.mayIssue 0 0 0 = true ∧
      Sees (begun s none) fun e => stopped (begun s none) e (.trap 5) = true) ∧
    (∃ s, s = (warped fun w => { w with slices := List.replicate 8 { pc := 0x200000 } }) ∧ s.mayIssue 0 0 0 = true ∧
      Sees (begun s none) fun e => stopped (begun s none) e (.walk 0x200000) = true) :=
  ⟨⟨rfl, rfl, by decide +kernel, sees (by decide +kernel)⟩, ⟨by decide +kernel, sees (by decide +kernel)⟩, ⟨_, rfl, by decide +kernel, sees (by decide +kernel)⟩,
    ⟨_, rfl, by decide +kernel, sees (by decide +kernel)⟩⟩

/-- Two gangs of one way; the second has waited for three starts. -/
def sWaited : State := cored fun c => { c with
  warps := [(0, warp0), (8, { warp0 with warpId := 1, gangs := [{ id := 0, agent := 2, waited := 3 }] })]
  order := [(0, 0), (8, 0)] }
theorem witness_agenda : isEventRow .fack = true ∧ s0.wayNext 0 0 = some (0, 0) ∧ State.reset.agenda = [.event .packagePowerOn {}] ∧
    ((8, 0) ∈ sWaited.wayGangs 0 (0 % 8) ∧ sWaited.ready 0 8 0 = true ∧ 2 * (sWaited.wayGangs 0 (0 % 8)).length ≤ sWaited.waitedOf 0 (8, 0) + 1 ∧
      sWaited.ready 0 0 0 = true ∧ sWaited.polls 0 0 0 = false) ∧ s0.launch 0 = some launch0 ∧ launch0.phase = .running := by decide +kernel

theorem witness_memory_canonical : MemoryCanonical (coded [0x00001C04#32]) ∧ ∃ t, step (coded [0x00001C04#32]) = .next t :=
  ⟨⟨by decide +kernel, by decide +kernel⟩, by
    have h : (match step (coded [0x00001C04#32]) with | .next _ => true | _ => false) = true := by decide +kernel
    split at h <;> first | exact ⟨_, ‹_›⟩ | simp at h⟩

theorem witness_slice_decision :
    Sees (warped fun w => { w with lanes := List.replicate 32 { live := true } }) (fun e => e.sliceExec 7 = []) ∧
    Sees s0 (fun e => e.sliceExec 0 ≠ [] ∧ ∀ j ∈ e.sliceExec 0, (fun _ => (0 : DWord)) j = 0) ∧
    Sees s0 (fun e => 0 ∈ e.sliceExec 0 ∧ (∀ l ∈ e.sliceExec 0, l < 0 → l ≠ l) ∧ ∃ l ∈ e.sliceExec 0, BitVec.ofNat 64 l ≠ 0) :=
  ⟨sees (by decide +kernel), sees (by decide +kernel), sees (by decide +kernel)⟩

/-- A guarded BR with a stack of 15 entries before it. -/
def deep (n : Nat) (x : Entry) : State := warped fun w => { w with
  lanes := mixed
  slices := w.slices.map fun y => { y with stack := List.replicate n x } }

theorem witness_branches : Meets (deep 15 (.call 0)) fun _ e => unguarded ⟨false, 0⟩ = false ∧
    (∀ i ∈ e.slices, (e.stk i).length + (brDecision e ⟨false, 0⟩ (relTarget e.pc 18 0x20000) (e.pc + 4#64) i).pushes ≤ 16) ∧
    (∀ i ∈ e.slices, (e.stk i).length + (brDecision e ⟨false, 0⟩ (relTarget e.pc 32 0x7FFFFFFF) (e.pc + 8#64) i).pushes ≤ 16) ∧
    (brDecision e ⟨false, 0⟩ (relTarget e.pc 18 0x20000) (e.pc + 4#64) 0).pushes = 1 := meets (by decide +kernel)

/-- Operands of BRI and CALLI that name a uniform pair of address 0x10040. -/
theorem witness_indirect : Meets (unis [(4, 0x10040)]) fun s e => ([(0x03, false, ((⟨g, 0, 52, 0⟩ : C32R).op 0)), (0x03, false, u4.op),
    (0x05, true, (⟨g, 0, 52, 0⟩ : C32R).op 0), (0x05, true, u4.op)].all fun (q : Nat × Bool × Op) =>
      decide (e.regTrap q.2.2 (rowAt q.1 q.2.2) (maskOf (e.active q.2.2.g)) = none) &&
      (indirectTargets (e.issued s 1 1) (e.issuing s 1 1) q.1 q.2.2).all (fun a => !badTarget a) &&
      e.slices.all fun j => decide ((e.stk j).length + (indirectDecision (e.issued s 1 1) (e.issuing s 1 1) q.1 q.2.2 j).pushes +
        (if (indirectDecision (e.issued s 1 1) (e.issuing s 1 1) q.1 q.2.2 j).calls q.2.1 then 1 else 0) ≤ 16)) = true :=
  meets (by decide +kernel)

theorem witness_calls : Meets (deep 15 (.call 0x10040)) fun _ e => (∀ i ∈ e.slices, (e.stk i).length < 16) ∧
    ∀ i ∈ e.slices, e.stk i = .call 0x10040 :: List.replicate 14 (.call 0x10040) := meets (by decide +kernel)
theorem witness_join : Meets (deep 16 (.split 0 0 0xF false none)) fun _ e => (e.slices.all fun i => (e.stk i).head? = some (.split 0 0 0xF false none)) = true :=
  meets (by decide +kernel)
theorem witness_stack_traps : Meets (deep 16 (.call 0)) (fun _ e => (∃ i ∈ e.slices, 16 ≤ (e.stk i).length) ∧
      (brDecision e ⟨false, 0⟩ (relTarget e.pc 18 5) (e.pc + 4#64) 0).pushes = 1 ∧ (e.stk 0).head? = some (.call 0)) ∧
    Meets s0 fun _ e => ∃ i ∈ e.slices, e.stk i = [] := ⟨meets (by decide +kernel), meets (by decide +kernel)⟩

theorem witness_regang : (∃ e, Steady (unis [(4, 0xFF)]) e ∧ ElementMode e ∧ ownSlices e 0xFF ∧ e.regTrap u4.op (rowAt 0x09 u4.op) (maskOf e.lanes) = none ∧
      uniA (e.issued (unis [(4, 0xFF)]) 1 1) 0x09 u4.op = 0xFF) ∧
    Meets (unis [(4, 1)]) fun s e => e.warp.sq = [] ∧ e.warp.gangs.length ≤ 1 ∧ (∀ i ∈ e.slices, e.stk i = []) ∧
      ∀ x ∈ [(⟨g, 6, 52, 0⟩ : C32R).op 0, { u4 with d := 6 }.op], e.regTrap x (rowAt 0x0A x) (maskOf e.lanes) = none ∧
        uniA (e.issued s 1 1) 0x0A x ≠ e.warp.warpId ∧ uniA (e.issued s 1 1) 0x0A x < e.team.teamW ∧
        (s.core e.k).partner e.warp.team (uniA (e.issued s 1 1) 0x0A x) = none :=
  ⟨by
    obtain ⟨e, h1, h2, h3, h4, h5, h6⟩ := meets (s := unis [(4, 0xFF)]) (p := fun s e => e.slices = List.range 8 ∧ e.w = 32 ∧
      e.regTrap u4.op (rowAt 0x09 u4.op) (maskOf e.lanes) = none ∧ uniA (e.issued s 1 1) 0x09 u4.op = 0xFF) (by decide +kernel)
    refine ⟨e, h1, h2, ⟨?_, ?_, fun i hi _ _ => h3 ▸ List.mem_range.mpr hi⟩, h5, h6⟩
    · rw [h4]
      decide
    · rw [h3]
      decide, meets (by decide +kernel)⟩

theorem witness_exit_sleep : Meets s0 fun _ e => e.regTrap u4.op (rowAt 0x0D u4.op) (maskOf e.lanes) = none ∧
    (unguarded g = true ∨ e.active g ≠ []) ∧ (s0.warp? e.k e.slot).isSome = true := meets (by decide +kernel)

/-- Only lane 0 has a true predicate; `once` is a guard that it alone passes. -/
def lone (s : State) : State := s.modWarp 0 0 fun w => { w with lanes := (List.range 32).map fun i => { live := true, exec := true, preds := List.replicate 7 { v := .ofBool (i = 0) } } }
def once : Guard := ⟨false, 0⟩
/-- Operands A and B in uniform registers 4 and 6, for lane 0 alone. -/
def u46 : X96 := { x0 with g := once, a := 4, b := 6, bka := true, bkb := true }
def okOf {ε α : Type} : Except ε α → Bool
  | .ok _ => true
  | .error _ => false

theorem witness_barrier_arrival : okOf (({} : Barrier).arrive 32 32 512 []) = true ∧ okOf (({} : Barrier).arrive 32 32 513 []) = false ∧ okOf (({} : Barrier).arrive 32 32 0 []) = false ∧
    okOf (({ exp := some 64, arr := 32 } : Barrier).arrive 32 32 64 []) = true ∧ okOf (({ exp := some 64, arr := 33 } : Barrier).arrive 32 32 64 []) = false ∧
    okOf (({ exp := some 64, arr := 31 } : Barrier).arrive 32 32 64 []) = true ∧ okOf (({ exp := some 64 } : Barrier).arrive 32 32 32 []) = false := by decide +kernel
theorem witness_named_barriers : Meets (unis [(4, 512)]) fun s e => 1 < e.team.barriers.length ∧ e.warp.sq = [] ∧
    okOf ((e.team.barriers.getD 1 {}).arrive e.w e.lanes.length 512 ((e.issuing s 1 1).publish ((e.issued s 1 1).drawn 1)).1) = true ∧
    (0x401 : BitVec 12).toNat % 64 = 1 ∧ 512 = (0x401 : BitVec 12).toNat / 64 % 32 * e.w ∧ e.regTrap u4.op (rowAt 0x10 u4.op) (maskOf e.lanes) = none ∧
    e.regTrap u4.op (rowAt 0x12 u4.op) (maskOf e.lanes) = none ∧ 512 = uniA (e.issued s 1 1) 0x10 u4.op ∧ 512 = uniA (e.issued s 1 1) 0x12 u4.op := meets (by decide +kernel)
theorem witness_pending : Meets (warped fun w => { w with slices := List.replicate 8 { pc := 0x10000, pending := [1] } }) fun s e =>
    (s.envOf e.k e.slot e.gid).isSome = true ∧ e.warp.pendingAt e.gid 1 = true ∧ e.warp.pendingAt e.gid 0 = false := meets (by decide +kernel)
theorem witness_barrier_traps : Meets s0 fun _ e => e.team.barriers.length ≤ (2 : BitVec 12).toNat % 64 ∧ (1 : BitVec 12).toNat % 64 < e.team.barriers.length ∧
    okOf ((e.team.barriers.getD 1 {}).arrive e.w e.lanes.length ((1 : BitVec 12).toNat / 64 % 32 * e.w) []) = false := meets (by decide +kernel)

/-- A one-per-core launch. -/
def sGrid : State := { s0 with launches := [(0, { launch0 with segs := [{ teams := 4, param := 0, key := 0 }] })] }
theorem witness_rectangle_barrier : Meets sGrid fun s e => e.regTrap u4.op (rowAt 0x13 u4.op) (maskOf e.lanes) = none ∧ (e.launch.any fun l => l.onePerCore &&
      decide (subgroupOf l (uniA (e.issued s 1 1) 0x13 u4.op) = some (0, 0, 1, 1))) = true ∧ inSubgroup (0, 0, 1, 1) e.k = true ∧
      ((s.core e.k).warps.all fun w => w.1 = e.slot) = true := meets (by decide +kernel)

theorem witness_object_updates : (({ pendb := 2 ^ 31 - 2, arrv := 1, init := 1 } : BObj).pendb + (1 : Nat) < 2 ^ 31) ∧ -2 ^ 31 ≤ ({ pendb := -2 ^ 31 + 1, arrv := 0, init := 1 } : BObj).pendb - (1 : Nat) ∧
    1 ≤ ({ arrv := 1, init := 1 } : BObj).arrv := by decide +kernel

/-- An object at offset 0 of the team's scratchpad. -/
def sObj (o : BObj) (l : List (Nat × Word)) : State := lone ((unis l).modCore 0 fun c => { c with objs := [(1024, o)] })
theorem witness_object_instructions :
    Meets (lone (unis [(4, 16), (6, 65535)])) (fun s e => actors e 0xE2 u46.op false ≠ [] ∧ e.regTrap u46.op (rowAt 0xE2 u46.op) (maskOf (e.active u46.op.g)) = none ∧
      objCheck (e.issued s 1 1) (e.issuing s 1 1) .init (if e.det then e.gang.publish.1 else []) (objTodo (e.issued s 1 1) (e.issuing s 1 1) 0xE2 u46.op) [] = [] ∧ e.warp.sq = []) ∧
    Meets (sObj { arrv := 1, init := 1 } [(6, 1)]) (fun s e => ([(0xE3, ObjOp.expect), (0xE4, .arrive), (0xE6, .free)].all fun q =>
      decide (actors e q.1 u46.op false ≠ []) && decide (e.regTrap u46.op (rowAt q.1 u46.op) (maskOf (e.active u46.op.g)) = none) &&
      decide (objCheck (e.issued s 1 1) (e.issuing s 1 1) q.2 (if e.det then e.gang.publish.1 else []) (objTodo (e.issued s 1 1) (e.issuing s 1 1) q.1 u46.op) [] = [])) = true) ∧
    Meets s0 fun s e => (match objAddr s e 4080 with | .ok p => decide (p = (e.k, 5104)) | .error _ => false) = true :=
  ⟨meets (by decide +kernel), meets (by decide +kernel), meets (by decide +kernel)⟩

theorem witness_object_waits : ([(⟨once, 0, 52, 54⟩ : C32R).op 0, u46.op, { u46 with op7 := 1, d := 1 }.op].all fun (x : Op) =>
      meetsB (sObj { arrv := 1, init := 1 } [(6, 0)]) (fun e => decide (e.regTrap x (rowAt 0xE5 x) (maskOf (e.active x.g)) = none) &&
        decide (bowaitBad (e.issued (sObj { arrv := 1, init := 1 } [(6, 0)]) 1 1) (e.issuing (sObj { arrv := 1, init := 1 } [(6, 0)]) 1 1) x = [] ∧ bowaitWho e x ≠ []))) = true ∧
    Meets (sObj { arrv := 1, init := 1 } [(6, 0)]) (fun s e => bowaitLeft (e.issued s 1 1) (e.issuing s 1 1) u46.op = [(0, (0, 1024), false)]) ∧
    Meets (sObj { arrv := 1, init := 1 } [(6, 1)]) fun s e => bowaitLeft (e.issued s 1 1) (e.issuing s 1 1) u46.op = [] :=
  ⟨by decide +kernel, meets (by decide +kernel), meets (by decide +kernel)⟩

/-- Vector operands: D, A, B, C in names 30, 4, 6 and 8, as pairs where the type has 64 bits. -/
def v46 (t : BitVec 4) : X96 := { x0 with d := 30, a := 4, b := 6, c := 8, type := t }

theorem witness_operands_read : Sees s0 fun e => (e.warp.lane 31).bounds = false ∧ (63 : Nat) < 64 := sees (by decide +kernel)
theorem witness_register_retires : Meets s0 fun _ e => ([(0x20, (v46 1).op), (0x83, (v46 6).op), (0x34, (v46 4).op), (0x37, (v46 0).op), (0x3A, (v46 4).op), (0x80, (v46 5).op), (0x87, (v46 6).op),
      (0x27, (v46 1).op), (0xA0, (v46 5).op), (0x67, (v46 1).op)].all fun (q : Nat × Op) =>
    registerOpcode q.1 && decide (e.regTrap q.2 (rowAt q.1 q.2) (maskOf (e.active q.2.g)) = none)) = true ∧ e.warp.fpmode.toNat / 256 % 128 = 0 ∧
    (e.warp.vregs.all fun p => p.2.length = 32) = true ∧ (v46 1).op.bkd = false := meets (by decide +kernel)
theorem witness_register_traps : Meets s0 fun _ e => (e.regTrap { v46 1 with a := 40 }.op (rowAt 0x20 { v46 1 with a := 40 }.op) (maskOf e.lanes)).isSome = true ∧
    (e.regTrap { v46 1 with d := 64 }.op (rowAt 0x20 { v46 1 with d := 64 }.op) (maskOf e.lanes)).isSome = true ∧
    aluWho 0x20 (v46 1).op (rowAt 0x20 (v46 1).op) (e.active g) ≠ [] ∧
    (63 = e.base { code := 63, bank := false, ix := false, last := false } ∧ 63 < e.team.n ∧ alook 63 e.warp.vregs = none) ∧
    (64 = e.base { code := 64, bank := false, ix := false, last := false } ∧ e.team.n ≤ 64) ∧ (alook 31 e.warp.vregs).isSome = true := meets (by decide +kernel)

theorem witness_fit : [1, 2, 3, 4, 12, 13, 14, 15].all (fun t => decide (intMin t ≤ intMax t ∧ intMin t - 1 < intMin t ∧ intMax t < intMax t + 1)) = true ∧
    fit 1 false (2 ^ 31) = (-2 ^ 31, 0) ∧ fit 1 true (-2 ^ 31 - 1) = (-2 ^ 31, fSAT) ∧ fit 2 true (2 ^ 32) = (2 ^ 32 - 1, fSAT) := by decide +kernel
/-- The largest finite FP32 value, 1.0 and a subnormal one decode to themselves (chapter 4). -/
theorem witness_representable : fDecode fp32 0x7F7FFFFF = .fin false 16777215 104 ∧ fDecode fp32 0x3F800000 = .fin false 8388608 (-23) ∧ fDecode fp32 1 = .fin false 1 (-149) := by
  decide +kernel
theorem witness_float_to_integer : (roundInt 0 0 { neg := true, m := 5, e := -1 }).1 = -2 ∧ intMin 1 ≤ -2 ∧ (-2 : Int) ≤ intMax 1 ∧
    (roundInt 4 0 { neg := false, m := 1, e := 31 }).1 = 2 ^ 31 ∧ intMax 1 < 2 ^ 31 ∧ (roundInt 1 0 { neg := true, m := 1, e := 32 }).1 < intMin 1 := by decide +kernel
theorem witness_float_class : fDecode fp32 0x7F800001 = .nan true ∧ fDecode fp32 0x7FC00000 = .nan false ∧ fDecode fp32 0xFF800000 = .inf true ∧ fDecode fp32 0x7F800000 = .inf false ∧
    fDecode fp32 0x80000000 = .fin true 0 (-149) ∧ fDecode fp32 0 = .fin false 0 (-149) ∧ fDecode fp32 0x807FFFFF = .fin true (2 ^ 23 - 1) (-149) ∧
    fDecode fp32 0x007FFFFF = .fin false (2 ^ 23 - 1) (-149) ∧ fDecode fp32 0x80800000 = .fin true (2 ^ 23) (-149) ∧ fDecode fp32 0x00800000 = .fin false (2 ^ 23) (-149) := by
  decide +kernel
theorem witness_elect : Meets s0 fun _ e => e.warp.fpmode.toNat / 256 % 128 = 0 ∧ (e.warp.lanes.all fun l => l.preds.length = 7) = true ∧
    (6 : BitVec 6).toNat % 8 < 7 ∧ (6 : BitVec 6).toNat < 48 := meets (by decide +kernel)
theorem witness_geometry : isFw 0 = false ∧ localOf (coreAt 15 31) < 128 ∧ dieOf (coreAt 15 31) < 4 ∧ coreRow (coreAt 14 31) % 2 = 0 := by decide +kernel

/-! Memory: the address 0x1000 of a translated page, or scratchpad offset 0x40, in uniform registers 4 and 5; B is 0. -/

def sMem : State := lone (unis [(4, 0x1000), (6, 0)])
def sScr : State := lone (unis [(4, 0x40), (6, 0)])
/-- An access at it, of lane 0 and 4 bytes. -/
def acc0 (k : AccKind) : Acc := { lane := 0, va := 0x1000, size := 4, data := [1, 2, 3, 4], kind := k, type := 1 }
def hit0 : Hit := { place := .mem 0x1000 }

theorem witness_load_binds :
    (∃ x : WEnt, x = { seq := 0, place := .mem 64, data := [1, 2, 3, 4] } ∧ x.covers (.mem 64) 3 = some 3 ∧ x.covers (.mem 64) 4 = none ∧ x.isStore = true ∧
      bindQueues [x] [] (.mem 64) 3 = .val 4 0) ∧
    (bindQueues [] [{ seq := 0, place := .mem 64, data := [1, 2, 3, 4], kind := .red 0 1 0 }] (.mem 64) 0 = .blocked) ∧
    ((s0.warp? 0 0).isSome = true ∧ alook 2 (s0.core 0).cv = none ∧ bindQueues [] [] (.mem 64) 0 = .home ∧ 64 % 32 + 32 ≤ 32) ∧
    (alook 2 ((cored fun c => { c with cv := [(2, { data := List.replicate 32 7, stamp := 5 })] }).core 0).cv = some { data := List.replicate 32 7, stamp := 5 }) :=
  ⟨⟨_, rfl, by decide +kernel⟩, by decide +kernel, by decide +kernel, by decide +kernel⟩

theorem witness_access_effects : Sees sMem fun e => ([.load 9 false, .touch, .store, .red 0 1 0, .atom 0 1 0 9, .cas 0 9].all fun k => (sMem.performAcc e (acc0 k) hit0).isSome) = true ∧
    redirected e.det (acc0 (.red 0 1 0)) hit0.place = false ∧ (sMem.warp? e.k e.slot).isSome = true ∧ tyRegs 1 = 32 := sees (by decide +kernel)

def atOnceB (s : State) (e : Env) (accs : List Acc) : Bool := !(e.det && !s.known (Env.party s e) accs) && decide (s.races e (Env.party s e) accs = none) &&
  decide ((performed s e accs).2 = [])
def freeB (f : MemForm) (s : State) (e : Env) : Bool := decide (e.gang.deliv = []) && decide (e.regTrap f.x (rowAt f.opc f.x) (maskOf (e.active f.x.g)) = none) &&
  decide (f.reasons s e = []) && atOnceB s e (f.accs s e)
theorem freeB_iff {f : MemForm} {s : State} {e : Env} (h : freeB f s e = true) : f.Free s e := by
  simp only [freeB, atOnceB, Bool.and_eq_true, decide_eq_true_eq, Bool.not_eq_true'] at h
  exact ⟨h.1.1.1, h.1.1.2, h.1.2, h.2.1.1, h.2.1.2, h.2.2⟩

def m46 : X96 := { u46 with c := 8, d := 12, type := 1 }
def freeIn (s : State) (i : Instr) : Bool := match memForm i with
  | some f => meetsB s fun e => decide (e.active f.x.g ≠ []) && freeB f (e.issued s (perActive f.x.g e) 1) (e.issuing s (perActive f.x.g e) 1)
  | none => false
/-- The launch declares the weight store of die 0. -/
def sWs : State := { sMem with launches := [(0, { launch0 with deps := [.ws 0], wsGens := [(0, 0)] })] }

theorem witness_memory_complete :
    ([Instr.ld (.x m46), .st (.x m46), .cstore m46, .xload m46, .atom m46, .red m46, .cas m46].all (freeIn sMem)) = true ∧
    ([Instr.ldsC32 ⟨once, 12, 52, 54⟩, .stsC32 ⟨once, 8, 52, 8⟩, .lds m46, .sts m46, .ldw m46, .stw m46, .atoms m46, .atomw m46, .reds m46].all (freeIn sScr)) = true ∧
    freeIn sWs (.ldwt m46) = true ∧ Meets s0 (fun _ e => e.active once = [] ∧ e.gang.deliv = []) := ⟨by decide +kernel, by decide +kernel, by decide +kernel, meets (by decide +kernel)⟩

/-- Addresses: a misaligned one is reason 6, one that is not canonical 5; the last bytes of a scratchpad allocation are in it, one byte further is not. -/
theorem witness_memory_addresses : Sees sMem fun e => (e.warp.lane 0).bounds = false ∧ ((Env.srcs sMem e m46.op (rowAt 0xC0 m46.op) 0 0).a.length = 1) ∧
    ((Env.srcs sMem e { m46 with op7 := 1 }.op (rowAt 0xC0 { m46 with op7 := 1 }.op) 0 0).b.length = 1) ∧ (Env.srcs sMem e m46.op (rowAt 0xCB m46.op) 0 0).a.length = 1 := sees (by decide +kernel)
theorem witness_memory_traps : Meets (lone (unis [(4, 0x1002), (6, 0)])) (fun s e => e.active m46.op.g ≠ [] ∧ e.regTrap m46.op (rowAt 0xC0 m46.op) (maskOf (e.active m46.op.g)) = none ∧
      ((memForm (.ld (.x m46))).map fun f => f.reasons (e.issued s (perActive f.x.g e) 1) (e.issuing s (perActive f.x.g e) 1)) = some [6] ∧
      s.physical (Env.party s e) = false ∧ canonical (2 ^ 56) = false ∧ sysAddr 0xFFF8800000000000 = true ∧ 17 ≤ sysPort 0xFFF8800000000000) ∧
    Sees s0 (fun e => (scrAddr 4080).bad = false ∧ (scrAddr 4080).win = false ∧ (scrAddr 4080).off + 16 ≤ e.team.scrSize ∧ (e.team.scrSize : Int) < (scrAddr 4081).off + 16 ∧
      (scrAddr 0x800000).win = true ∧ (scrAddr 0x100000).bad = true ∧ s0.partner 0 e.team (scrAddr 0xE00000).pos = none) := ⟨meets (by decide +kernel), sees (by decide +kernel)⟩

def onceB (opc : Nat) (x : Op) (req : State → Env → Nat → MemReq) (s : State) (e : Env) : Bool :=
  (unguarded x.g || !(e.active x.g).isEmpty) && decide (e.regTrap x (rowAt opc x) (maskOf (e.active x.g)) = none) && decide ((req s e ((e.active x.g).headD 0)).reasons = []) &&
  atOnceB s e (req s e ((e.active x.g).headD 0)).accs
/-- Descriptors at 0x1000: two elements of type 1 at 0x1100; at 0x1020 the address of a summary at 0x1040, of two elements. -/
def sDesc : State := { lone (unis [(4, 0x1000), (6, 0)]) with
  hbm := memWrite (memWrite [] 0x1000 (natLe 32 (0x1100 + 2 * 2 ^ 64 + 2 ^ 96 + 2 ^ 128 + 2 ^ 160))) 0x1020 (natLe 8 0x1040 ++ List.replicate 24 0 ++ natLe 32 (2 + 2 ^ 64 + 0x1100 * 2 ^ 128))
  images := [{ img0 with summ := [(0, 0x1020)] }] }
def stf46 : X96 := { u46 with c := 8, d := 0 }
def ldsm46 : X96 := { x0 with g := once, d := 12, a := 6, bka := true, type := 1 }
def sld46 : X96 := { u46 with d := 12, bkd := true, b := 0, bkb := false, type := 1 }
def sst46 : X96 := { u46 with c := 12, bkc := true, b := 0, bkb := false, type := 1 }
def onceIn (s : State) (i : Instr) : Bool := match onceForm i with
  | some (opc, x, req) => meetsB s fun e => onceB opc x req (e.paid s opc x) (e.paying s opc x)
  | none => false

def probeB (x : Op) (s : State) (e : Env) : Bool := decide (e.gang.deliv = []) && decide (e.regTrap x (rowAt 0xD5 x) (maskOf (e.active x.g)) = none) &&
  ((probeKeys e (probes s e x)).filterMap fun q => (raceOf ((alook q.2.2 s.tracks).getD []) e.gang.agent e.gang.clock 0 0).map fun n => (q.1, n)).isEmpty &&
  atOnceB (probeBegun s e x) (probeEnv s e x) (probeAccs (probes s e x))
def stfB (x : Op) (s : State) (e : Env) : Bool := decide (e.gang.deliv = []) && decide (raceTrap (s.readHits e ((stfAddrs s e x).map fun q => (q.1, q.2.va.toNat))) = none) && decide (stfLate (stfRead s e x).1 e x (stfDescs s e x) = []) && decide (e.regTrap x (rowAt 0xCA x) (maskOf (e.active x.g)) = none) &&
  ((stfAddrs s e x).flatMap fun q => glbReasons s (Env.party s e) q.2.va.toNat 32 false).isEmpty && (stfRead s e x).2.2.1.isEmpty && decide ((stfRead s e x).2.2.2 = none) &&
  !((stfRead s e x).2.1.any fun g => (bufDesc g.2).isNone) &&
  decide (e.regTrap x (stfRow x (stfWide s e x)) (maskOf (e.active x.g)) = none) &&
  ((stfStores s e x).flatMap fun a => glbReasons (stfRead s e x).1 (Env.party (stfRead s e x).1 e) a.va a.size false).isEmpty &&
  atOnceB (stfBegun s e x) e (stfStores s e x)
def ldsmB (x : Op) (s : State) (e : Env) : Bool := match s.summHead e x.op7 with
  | .got a h d s1 => decide (e.gang.deliv = []) && decide (e.regTrap x (rowAt 0xC9 x) (maskOf (e.active x.g)) = none) &&
      (ldsmUses s1 e x (.got a h d s1)).all (fun u => match u.2 with | .point _ => true | _ => false) &&
      ((ldsmLoads s1 e x a h d).flatMap fun a => glbReasons s1 (Env.party s1 e) a.va a.size false).isEmpty && decide (ldsmRace s1 e [] (ldsmLoads s1 e x a h d) = none) &&
      atOnceB (ldsmBegun s1 e) e (ldsmLoads s1 e x a h d)
  | _ => false

theorem witness_other_memory :
    ([Instr.sld (.x sld46), .sst (.x sst46)].all (onceIn sMem)) = true ∧
    meetsB (cored fun c => { c with seq := 9, ob := [{ seq := 3, ob := 8, place := .mem 64 }] }) (fun e => !(fenceDone e.core e.slot 2 9)) = true ∧
    meetsB s0 (fun e => fenceDone e.core e.slot 5 e.core.seq && decide (e.regTrap u46.op (rowAt 0xD6 u46.op) (maskOf (e.active u46.op.g)) = none)) = true ∧
    meetsB sMem (fun e => !(e.active m46.op.g).isEmpty && probeB m46.op (e.issued sMem (perActive m46.op.g e) 1) (e.issuing sMem (perActive m46.op.g e) 1)) = true ∧
    meetsB sDesc (fun e => !(e.active stf46.op.g).isEmpty && stfB stf46.op (e.issued sDesc (perActive stf46.op.g e) 1) (e.issuing sDesc (perActive stf46.op.g e) 1)) = true ∧
    meetsB sDesc (fun e => !(e.active ldsm46.op.g).isEmpty && ldsmB ldsm46.op (e.issued sDesc (perActive ldsm46.op.g e) 1) (e.issuing sDesc (perActive ldsm46.op.g e) 1)) = true := by
  decide +kernel

/-! Engines and matrix: references, addresses and the words of a copy record in uniform registers, all 0 but for what is named. -/

def enterB (s : State) (e : Env) (mk : Clock → List Task) : Bool := e.warp.sq.isEmpty && (State.enterMany e.k (mk (e.publish s).1) (e.publish s).2).2.isEmpty
def eng46 : X96 := { x0 with a := 4, b := 6, c := 8, bka := true, bkb := true, bkc := true, type := 1 }
def engineB (s : State) (i : Instr) (rs : List Nat) : Bool := match engineForm i with
  | some f => meetsB s fun e => !(actors e f.opc f.x false).isEmpty && decide (e.regTrap f.x (rowAt f.opc f.x) (maskOf (e.active f.x.g)) = none) &&
      ((f.lanes (e.issued s 1 1) (e.issuing s 1 1)).all fun q => f.reasons (e.issued s 1 1) (e.issuing s 1 1) q.2 = rs) &&
      (!rs.isEmpty || enterB (e.issued s 1 1) (e.issuing s 1 1) fun c => (f.lanes (e.issued s 1 1) (e.issuing s 1 1)).map fun q => f.task (e.issuing s 1 1) c q.2)
  | none => false
theorem witness_engine_commands :
    ([Instr.cpy (.x { eng46 with a := 8, b := 0, bkb := false, c := 0, bkc := false, type := 0 }), .reduce eng46, .summ eng46].all fun i => engineB (unis []) i []) = true ∧
    ([Instr.cpy (.x { eng46 with a := 8, b := 0, bkb := false, c := 0, bkc := false, type := 0, acq := true }), .reduce eng46, .summ eng46].all fun i => engineB (unis [(4, 1)]) i [1]) = true ∧
    (∀ n ∈ [0, 1, 32], meetsB (lone (unis [(6, BitVec.ofNat 32 n)])) (fun e => decide ((actors e 0xE1 u46.op true).head? = some 0) &&
      decide (e.regTrap u46.op (rowAt 0xE1 u46.op) (maskOf (e.active u46.op.g)) = none)) = true ∧
      meetsB (unis []) (fun e => ownScr e.k 0 && (spanReasons (unis []) e 0 (32 * n)).isEmpty && ((kickRecs (unis []) e 0 n).all fun r => copyReasons (unis []) e r = []) &&
        enterB (unis []) e fun c => (kickRecs (unis []) e 0 n).map (copyTask e c)) = true) ∧
    ((cored fun c => { c with tasks := [(0, { slot := 0, warp := 0, uid := some 0, job := .copy (recOf (2 ^ 126)), state := .ready })] }).core 0).tasks.any
      (fun t => decide (t.2.job.writes &&& 7 ≠ 0)) = true := by
  decide +kernel

theorem witness_tasks_enter : alook 0 (s0.core 0).teams = some team0 ∧ (∀ p ∈ (s0.core 0).tasks, p.1 < (s0.core 0).nextTask) ∧
    (match (cored fun c => { c with objs := [(1024, { arrv := 1, init := 1 })] }).refPlace 0 team0 1#32 with
      | some p => decide (p = (0, 1024))
      | none => false) = true := by decide +kernel

/-- A warp with all strips of the accumulator, a reservation, and MMA's tiles. -/
def sMat (l : List (Nat × Word)) : State := lone (((unis l).modCore 0 fun c => { c with strips := (List.range 32).map fun i => (i, 0) }).modTeam 0 0 fun t => { t with
  resvs := [(0, { base := 0, size := 1024, fmt := 8, blk := 0, band := false, rows := 16, cols := 16, bsoff := 0, bdoff := 0 })] })
def mat46 : X96 := { u46 with c := 8, bkc := true }
def mma46 : X96 := { u46 with a := 4, b := 6, bka := false, bkb := false, c := 8, bkc := true, type := 8 }
def rsvWords : List (Nat × Word) := [(4, 8), (5, 0x00100010)]
def obldWords : List (Nat × Word) := [(4, 0), (6, 0x1000), (8, 0x00100010), (9, 32)]
def accstWords : List (Nat × Word) := [(4, 0), (6, 0x1000), (8, 0), (9, 64)]
def mmaFree (s : State) (e : Env) (lane : Nat) : Bool := decide (e.active mma46.op.g = [lane]) && (mmaRegs e mma46.op (mmaPlan s e mma46.op lane)).isEmpty && (mmaPlan s e mma46.op lane).reasons.isEmpty &&
  enterB s e fun ck => [mmaTask e (mmaPlan s e mma46.op lane) ck]

theorem witness_matrix :
    meetsB (sMat rsvWords) (fun e => decide (e.regTrap u46.op (rowAt 0xEB u46.op) (maskOf (e.active u46.op.g)) = none) &&
      (match resvOf ((natsOf (onceOps (sMat rsvWords) e 0xEB u46.op 0).a).foldr (fun w n => n * 2 ^ 32 + w) 0) with
        | some r => decide ((List.range 16).find? (fun i => (alook i e.team.resvs).isNone) = some 1) && ((sMat rsvWords).core e.k).fbufFit r.size = some 1024
        | none => false)) = true ∧
    meetsB (sMat []) (fun e => decide (e.regTrap u46.op (rowAt 0xEC u46.op) (maskOf (e.active u46.op.g)) = none) && decide ((sv1 (onceOps (sMat []) e 0xEC u46.op 0).a).lo = 0) &&
      (alook 0 e.team.resvs).isSome && !((sMat []).core e.k).resvBusy e.warp.team 0) = true ∧
    meetsB (sMat obldWords) (fun e => decide (e.regTrap mat46.op (rowAt 0xED mat46.op) (maskOf (e.active mat46.op.g)) = none) && (match alook 0 e.team.resvs with
        | some r => !obldBad r 0 0 16 16
        | none => false) && decide (natsOf (onceOps (sMat obldWords) e 0xED mat46.op 0).c = [0x00100010, 32, 0, 0]) &&
      enterB (sMat obldWords) e fun ck => [e.newTask (.obld 0 8 0 false 0#32 0x1000 16 16 32) 0 0 0 none ck]) = true ∧
    meetsB (sMat accstWords) (fun e => decide (e.regTrap { mat46 with type := 5 }.op (rowAt 0xEF { mat46 with type := 5 }.op) (maskOf (e.active mat46.op.g)) = none) &&
      decide (shapeRect 0 0 1 = some { row := 0, col := 0, rows := 16, cols := 16 }) && decide (natsOf (onceOps (sMat accstWords) e 0xEF { mat46 with type := 5 }.op 0).c = [0, 64, 0, 0]) &&
      ((sMat accstWords).core e.k).owns e.warp.team { row := 0, col := 0, rows := 16, cols := 16 } &&
      enterB (sMat accstWords) e fun ck => [e.newTask (.accst 5 0 false false { row := 0, col := 0, rows := 16, cols := 16 } 0x1000 64) 0 0 0 none ck]) = true ∧
    meetsB (sMat []) (fun e => mmaFree (sMat []) e 0) = true ∧
    meetsB (sMat [(9, 1)]) (fun e => decide ((mmaPlan (sMat [(9, 1)]) e mma46.op 0).reasons.min? = some 2)) = true ∧
    meetsB s0 (fun e => decide (2 ≤ (e.active g).length)) = true ∧
    meetsB (sMat [(6, 3)]) (fun e => decide ((e.active u46.op.g).head? = some 0) && decide (e.regTrap u46.op (rowAt 0xF1 u46.op) (maskOf (e.active u46.op.g)) = none) &&
      decide ((sv1 (Env.srcs (sMat [(6, 3)]) e u46.op (rowAt 0xF1 u46.op) (litInt u46.op false 32) 0).b).lo = 3) &&
      (e.active u46.op.g).all fun j => decide (((e.warp.lane j).pred (u46.op.a % 8)).v = .t)) = true ∧
    meetsB ((sMat [(6, 3)]).modTeam 0 0 fun t => { t with tokens := t.tokens.set 3 { held := [{ core := 0, off := 1024, bytes := none }] } }) (fun e =>
      decide ((e.team.tokens.getD 3 {}).held ≠ [])) = true := by
  decide +kernel
/-! Accumulator, spawns, launches, messages, the sequencer and witnesses. -/

theorem witness_accumulator :
    meetsB (lone (unis [(6, 32)])) (fun e => decide (e.regTrap u46.op (rowAt 0xF0 u46.op) (maskOf (e.active u46.op.g)) = none) && decide (accAddr 0 = some (0, 0)) &&
      decide ((sv1 (onceOps (lone (unis [(6, 32)])) e 0xF0 u46.op (litInt u46.op false 32)).b).lo = 32) && ((List.range 32).all fun i => alook i ((lone (unis [(6, 32)])).core e.k).strips = none)) = true ∧
    meetsB (sMat [(6, 32)]) (fun e => ((List.range 32).all fun i => alook i ((sMat [(6, 32)]).core e.k).strips = some e.warp.team) && ((sMat [(6, 32)]).core e.k).tasks.isEmpty) = true ∧
    meetsB (sMat []) (fun e => decide (shapeRect 0 0 1 = some { row := 0, col := 0, rows := 16, cols := 16 }) && ((sMat []).core e.k).owns e.warp.team { row := 0, col := 0, rows := 16, cols := 16 } &&
      !((sMat []).tokenBusy e.k { row := 0, col := 0, rows := 16, cols := 16 }) && !((sMat []).rectBusy e.k e.warp.team { row := 0, col := 0, rows := 16, cols := 16 } (sMat []).nextAgent)) = true ∧
    meetsB (sMat []) (fun e => decide (e.regTrap { u46 with type := 5, imm16 := 1, d := 12 }.op (rowAt 0xEE { u46 with type := 5, imm16 := 1, d := 12 }.op) (maskOf (e.active u46.op.g)) = none) &&
      decide (accrdBad (e.issued (sMat []) (perActive once e) 1) (e.issuing (sMat []) (perActive once e) 1) { u46 with type := 5, imm16 := 1, d := 12 }.op = []) &&
      !(accrdBusy (e.issued (sMat []) (perActive once e) 1) (e.issuing (sMat []) (perActive once e) 1) { u46 with type := 5, imm16 := 1, d := 12 }.op)) = true := by decide +kernel

/-- A in registers 4 and 5, C in 8 and 9: an entry of the role `spawn`, or a handler. -/
def sSpawn (det : Bool) : State := { lone (unis [(4, 7), (8, 0x10100)]) with images := [{ img0 with det := det, entries := [(0x10000, .main), (0x10100, .spawn), (0x10100, .handler)] }] }
def spawn46 : X96 := { u46 with b := 0, bkb := false, c := 8, bkc := true }
theorem witness_spawn : ∀ det ∈ [false, true],
    meetsB (sSpawn det) (fun e => !(e.active spawn46.op.g).isEmpty && decide (e.regTrap spawn46.op (rowAt 0x0E spawn46.op) (maskOf (e.active spawn46.op.g)) = none) &&
      ((e.active spawn46.op.g).all fun i => match e.launch, e.img with
        | some l, some img => isEntry img l .spawn (spawnEntry (sSpawn det) e spawn46.op i)
        | _, _ => false) && e.warp.sq.isEmpty && (sSpawn det).canRaise 0 1 && decide ((sSpawn det).detLaunch 0 = det) &&
      (((e.publish (sSpawn det)).2.formNow e.k 0 (spawnThreads (sSpawn det) e spawn46.op)).isSome) &&
      ((((e.publish (sSpawn det)).2.raiseCounter 0 1).arriveAll e.k (spawnThreads (sSpawn det) e spawn46.op) 256 false).core e.k).placing.isEmpty) = true := by decide +kernel
theorem witness_spawn_traps : meetsB (lone (unis [(8, 0x10000)])) (fun e => match e.launch, e.img with
    | some l, some img => (e.active once).contains 0 && !(isEntry img l .spawn (spawnEntry (lone (unis [(8, 0x10000)])) e spawn46.op 0))
    | _, _ => false) = true := by decide +kernel
theorem witness_message : meetsB (sSpawn false) (fun e => ((e.active once).all fun i => msgReasons (sSpawn false) e { spawn46 with b := 6, bkb := true }.op 0 0x10100 i = []) &&
    decide (((sSpawn false).core 0).placing.length < 32) && (sSpawn false).canRaise 0 1) = true ∧
    32 ≤ (((cored fun c => { c with placing := List.replicate 32 { num := 0, thread := { uid := 0, entry := 0x10100, origin := .message }, timer := 256, msg := true } }).core 0).placing.filter (·.msg)).length := by
  decide +kernel

/-- A launch record at 0x1000 (R347): the kernel, one team. -/
def sRec : State := { lone (unis [(4, 0x1000)]) with hbm := memWrite [] 0x1000 (natLe 64 (0x10000 + 1 * 2 ^ 192)) }
def onceGot (s : State) (e : Env) (a n unit : Nat) : Option (List Nat × State) := match s.onceRead e (e.onceWait u46.op (rowAt 0x0F u46.op)) 0 0 a 64 (spansOf a n unit) with
  | .got vs _ s2 => some (vs, s2)
  | _ => none
theorem witness_launch : meetsB sRec (fun e => decide (e.regTrap u46.op (rowAt 0x0F u46.op) (maskOf (e.active u46.op.g)) = none) && decide (e.team.uid = some 0) &&
    fenceDone (sRec.core e.k) e.slot 4 (sRec.core e.k).seq && (match onceGot sRec e 0x1000 64 32, e.launch with
      | some (vs, s2), some l => decide ((lrecOf (joinVals 32 vs)).ndep = 0) && (subgroupOf l 0).isSome && okOf (childOf s2 e 0 l 0 (lrecOf (joinVals 32 vs)) []) && s2.canRaise 0 1
      | _, _ => false)) = true := by decide +kernel

/-- A method of two stages at 0x1000; a run's record at 0x200000, in a staged region that the launch writes: one running sample. -/
def one64 : Nat := 0x3FF0000000000000
def sSq (run : Option SqRun) : State := { lone (unis [(4, 0), (5, 0)]) with
  hbm := memWrite (memWrite [] 0x1000 (natLe 32 (0x12 + one64 * 2 ^ 64 + one64 * 2 ^ 128 + one64 * 2 ^ 192))) 0x20000
    (natLe 64 (1 + 5 * 2 ^ 95 + 2 ^ 112 + 2 ^ 128 + 2 ^ 160 + one64 * 2 ^ 192 + 0x10000 * 2 ^ 448) ++ natLe 64 (one64 * 2 ^ 256 + 0x200400 * 2 ^ 384 + 0x200800 * 2 ^ 448))
  stgBase := 2
  versions := [{ ctx := 1, region := 7, num := 0, state := .opened, frames := [0], count := 1, producer := 0 }]
  launches := [(0, { launch0 with outs := [(7, 1)], outVers := [(7, 0)], binds := [(7, some 0)] })]
  dies := s0.dies.map fun d => { d with
    tlb := [tlb0, { tlb0 with base := 0x200000, size := 65536, frame := 7, stg := true }]
    slots := [(0, (1, { stages := 2, q := 1, fsal := false, safety := one64, fmin := one64, fmax := one64, c := [0, 0], a := [[], [0]], b := [0, 0], bh := [0, 0] }))]
    recent := [{ serial := 3, ctx := 1, status := 0 }]
    run := run } }
def run3 : SqRun where
  serial := 3
  uid := 0
  ctx := 1
  core := 0
  recAddr := 0
  kernel := 0
  key := 0
  rtol := 0
  atol := 0
  tend := 0
  teams := 1
  n := 1
  rlim := 1
  subg := 0
  type := 5
  method := { stages := 2, q := 1, fsal := false, safety := one64, fmin := one64, fmax := one64, c := [0, 0], a := [[], [0]], b := [0, 0], bh := [0, 0] }
  samples := []
theorem witness_solver :
    meetsB (sSq none) (fun e => decide (e.regTrap u46.op (rowAt 0xF2 u46.op) (maskOf (e.active u46.op.g)) = none) && (match (sSq none).onceRead e (e.onceWait u46.op (rowAt 0xF2 u46.op)) 0 0 0x1000 8 (spansOf 0x1000 32 8) with
      | .got hs _ s2 => decide (2 ≤ bitsOf (joinVals 8 hs) 3 0 ∧ bitsOf (joinVals 8 hs) 3 0 ≤ 12) &&
        (match s2.onceRead e (e.onceWait u46.op (rowAt 0xF2 u46.op)) 0 0 0x1020 8 (spansOf 0x1020 (8 * methodLen 2) 8) with
        | .got vs _ _ => (methodOf (joinVals 8 hs) vs).isSome
        | _ => false)
      | _ => false)) = true ∧
    meetsB (sSq none) (fun e => fenceDone ((sSq none).core e.k) e.slot 4 ((sSq none).core e.k).seq && okOf (sqStart (sSq none) e (e.onceWait u46.op (rowAt 0xF2 u46.op)) 0 0x200000 2 1 0) &&
      (match onceGot (sSq none) e 0x200000 64 32 with
      | some (hs, s1) => (sqHdrOf (joinVals 32 hs)).good && (match onceGot s1 e 0x200040 64 32 with
        | some (es, s2) => sampleGood (sqHdrOf (joinVals 32 hs)).tend (joinVals 32 es) && s2.buffersGood (Env.party s2 e) 0x200000 (sqHdrOf (joinVals 32 hs)) run3.method [sampleOf 0 (joinVals 32 es)]
        | none => false)
      | none => false)) = true ∧
    meetsB (sSq none) (fun e => decide (((sSq none).sqHandle (Env.party (sSq none) e).ctx 3).map (·.2) = some false) && !e.det) = true ∧
    meetsB (sSq (some run3)) (fun e => decide (((sSq (some run3)).sqHandle (Env.party (sSq (some run3)) e).ctx 3).map (·.2) = some true)) = true ∧
    meetsB { sSq none with images := [{ img0 with det := true }] } (fun e => e.det) = true := by decide +kernel

theorem witness_witnesses : meetsB (sSq none) (fun e => decide (e.regTrap u46.op (rowAt 0xF4 u46.op) (maskOf (e.active u46.op.g)) = none) && decide (witReason (sSq none) { Env.party (sSq none) e with uid := some 0 } 5 [] = none) &&
      decide (witReason (sSq none) { Env.party (sSq none) e with uid := some 0 } 1 (List.replicate 2 (0x200000 + 2 ^ 64 + 2 ^ 96 + 5 * 2 ^ 164)) = none) && ((sSq none).appendWitness 0 { kind := 5 }).isSome &&
      decide (e.regTrap u46.op (rowAt 0xF5 u46.op) (maskOf (e.active u46.op.g)) = none) && (sSq none).isRegion 1 7) = true := by decide +kernel

/-! Special registers, traps, and the system instructions. -/

theorem witness_special_registers : Meets s0 (fun _ e => swrWho e u4.op ≠ [] ∧ e.regTrap u4.op (rowAt 0x5C u4.op) (maskOf (e.active g)) = none ∧ e.regTrap x0.op (rowAt 0x55 x0.op) (maskOf (e.active g)) = none) ∧
    Meets sFw (fun s e => e.super = true ∧ (s.csr e.csrUser 0x100).isSome = true ∧ dieOf e.csrUser.k < s.dies.length) := ⟨meets (by decide +kernel), meets (by decide +kernel)⟩

/-- A handler address, and a warp of which gang `h` runs a handler. -/
def sTvec (lo hi : Word) (h : Option (List Nat × Nat)) : State := { (warped fun w => { w with handler := h }) with dies := s0.dies.map fun d => { d with tvecLo := lo, tvecHi := hi } }
theorem witness_trap : ∀ q ∈ [sTvec 0x20001 0 none, sTvec 0x20000 0 none, sTvec 0x20001 0x01000000 none, sTvec 0x20001 0 (some ([0], 4)), sTvec 0x20001 0 (some ([1], 4))],
    ((q.warp? 0 0).any fun w => decide (w.lanes.length = 32 ∧ w.slices.length = 8)) = true := by decide +kernel
theorem witness_trap_cases : (0x20001#32).getLsbD 0 = true ∧ (0x20000#32).getLsbD 0 = false ∧ canonical (0#32 ++ (0x20001#32 &&& 0xFFFFFFFC#32)).toNat = true ∧
    canonical (0x01000000#32 ++ (0x20001#32 &&& 0xFFFFFFFC#32)).toNat = false := by decide +kernel
theorem witness_system : Meets (sTvec 0x20001 0 (some ([0], 4))) (fun _ e => e.super = true ∧ e.handling = true ∧ isFw e.k = false ∧ e.warp.handler = some ([0], 4)) ∧
    Meets sFw (fun _ e => e.super = true ∧ e.handling = false ∧ isFw e.k = true) ∧ Meets s0 (fun s e => e.super = false ∧ (s.die (dieOf e.k)).interrupted = false ∧
      stopped s e (.trap 6) = false ∧ fetched s e 0x00000000#32 [] = true) ∧
    Meets { sFw with dies := sFw.dies.map fun d => { d with intPend := 1, intEn := 1 } } fun s e => (s.die (dieOf e.k)).interrupted = true :=
  ⟨meets (by decide +kernel), meets (by decide +kernel), meets (by decide +kernel), meets (by decide +kernel)⟩

/-! Events. -/

def ringQ : Queue := { en := true, ctx := 1, started := true, srbase := 0x1000, crbase := 0x2000, tail := 1 }
/-- A package that is up, with its lease at die 0, a queue, and a launch record in its ring. -/
def sQ : State := { s0 with
  powered := true
  leaseHeld := true
  queues := [(0, ringQ)]
  sysMem := memWrite [] 0x1000 (natLe 64 (0x10000 + 1 * 2 ^ 192))
  hbm := memWrite [] 0 (natLe 64 (0x40 + 0x80 * 2 ^ 64 + 6 * 2 ^ 128 + 6 * 2 ^ 136 + 2 ^ 159 + (2 ^ 31 - 1) * 2 ^ 480)) }
/-- A launch waiting, on a machine without teams. -/
def sWait (l : Launch) : State := { s0 with
  cores := State.reset.cores
  launches := [(0, { l with phase := .waiting })] }
/-- A launch with quads to place. -/
def sPlace (l : Launch) : State := { s0 with
  cores := State.reset.cores
  launches := [(0, l)] }
def pickPlaces (s : State) : Bool := match s.pick 0 with
  | .place c cs => !(c.l.onePerCore && decide (c.l.nextQuad = 0)) && (s.coolest cs).isSome
  | _ => false
def thread0 : Spawned := { uid := 0, entry := 0x10100, origin := .spawn }
/-- Two launches: the second, of a higher priority, wants the cluster of the first, whose teams may be discarded. -/
def sPre : State := { s0 with
  cores := (List.range 4).foldl (fun m i => aput (corePeer 0 i) { teams := [(0, { team0 with n := 2048, vectors := 4096, pos := i })], warps := [(0, warp0)] } m) State.reset.cores
  images := [{ img0 with idem := true, regs := 1024, teamW := 2 }]
  launches := [(0, { launch0 with quads := [(0, 0, 0, 0)], nextSeg := 1 }), (1, { launch0 with pri := 2, segs := [{ teams := 4, param := 0, key := 0 }], root := 1 })]
  svSize := 0 }

theorem witness_queues : sQ.queue? 0 = some ringQ ∧ ringQ.started = true ∧ ringQ.tail < 64 ∧ 64 ≤ ringQ.head + 2 ^ ringQ.srlog ∧ ringQ.head + 2 ^ ringQ.srlog < 65 ∧ 1 ≤ ringQ.tail ∧ ringQ.cqHead < 1 ∧ 0 ≤ ringQ.cqHead ∧
    sQ.leads 0 = true ∧ sQ.leads 1 = false ∧ (qcbOf (memNat sQ.hbm (sQ.qcbBase * 4096 + 64 * 0) 64)).any (fun q => decide (q.1 = 2 ^ 31 - 1)) = true ∧ ringQ.head < ringQ.tail ∧
    (match sQ.ringRead ringQ 0x1000 64 with
      | some v => okOf (sQ.launchOf 0 ringQ v)
      | none => false) = true ∧
    (match { sQ with sysMem := [] }.ringRead ringQ 0x1000 64 with
      | some v => okOf ({ sQ with sysMem := [] }.launchOf 0 ringQ v)
      | none => true) = false ∧ 0 < ringQ.cqHead + 2 ^ ringQ.crlog ∧ ({ ringQ with count := 64 } : Queue).cqHead + 2 ^ ringQ.crlog ≤ 64 := by decide +kernel
theorem witness_dispatch :
    (match (sWait launch0).launch 0 with
      | some l => decide (l.phase = .waiting) && (sWait launch0).dispatchable l && (sWait launch0).framesMet 0 l && decide ((sWait launch0).imageOf l = some img0) &&
        decide ((sWait launch0).replace 0 0 1 1 = some (0, 0)) && ((sWait launch0).placeCopy 0 img0 l).isSome
      | none => false) = true ∧
    ({ sWait { launch0 with deps := [.launch 9] } with launches := [(0, { launch0 with phase := .waiting, deps := [.launch 9] }), (1, { launch0 with phase := .settled, status := some 6, tag := 9 })] }.depState 1 (.launch 9) = .failed) := by
  decide +kernel
theorem witness_pick : pickPlaces (sPlace launch0) = true := by decide +kernel
theorem witness_preempt : (match sPre.pick 0 with
    | .preempt _ _ => true
    | _ => false) = true := by decide +kernel
/-- A team of a running launch that waits for its re-run. -/
def rerun0 : Rerun := { team := 0, seg := 0, quad := 0, pos := 0, reruns := 1, threads := [], core := 0 }
def sRerun : State := sPlace { launch0 with reruns := [rerun0], nextSeg := 1 }
theorem witness_rerun : (sRerun.launch 0).any (fun l => decide (l.reruns.find? (fun r => r.team = 0) = some rerun0 ∧ l.phase = .running) &&
    (sRerun.coolest ((sRerun.rerunSpots 0 l rerun0).filter fun c => ((sRerun.core (clusterCore c.1 c.2 0)).takes l.pri sRerun.scanPri && !(sRerun.blockedAbove l.pri).contains c &&
      sRerun.present c.1 c.2 && ((sRerun.residentOf 0 0 0).isSome || !(sRerun.die (clusterDie c.1 c.2)).retiring.contains (clusterIdx c.1 c.2))) && ((sRerun.core (clusterCore c.1 c.2 0)).room (needOf img0 l img0.teamW true)).isSome)).isSome && (sRerun.rerunSpots 0 l rerun0).any fun c => sRerun.present c.1 c.2) = true ∧
    (∀ s, s = ({ sRerun with dies := sRerun.dies.map fun d => { d with clmap := [] } } : State) → ((s.launch 0).any fun l => (s.rerunSpots 0 l rerun0).all fun c => !s.present c.1 c.2) = true) :=
  ⟨by decide +kernel, fun s h => h ▸ by decide +kernel⟩
def sFormed : State := cored fun c => { c with formed := [{ threads := [thread0], since := 0 }] }
def sBin : State := cored fun c => { c with bins := [(3, { uid := 0, entry := 0x10100, threads := [thread0], deadline := 256, order := 1 })] }
theorem witness_formed : (sFormed.core 0).formed = [{ threads := [thread0], since := 0 }] ∧ (sFormed.admitThreads 0 [thread0] 0).isSome = true ∧
    (alook 3 (sBin.core 0).bins).isSome = true ∧ (∀ s, s = (sBin.modDie 0 fun d => { d with cycle := d.cycle + 256 }) → (s.core 0).formed.length < 16 ∧
      earliest ((s.core 0).bins.filter fun x => decide (x.2.deadline ≤ s.cycleOf 0 ∨ s.widthOf x.2.uid ≤ x.2.threads.length)) = some 3) ∧
    ((died fun d => { d with agg := [{ members := [0], first := 0 }] }).die 0).agg = [{ members := [0], first := 0 }] :=
  ⟨by decide +kernel, by decide +kernel, by decide +kernel, fun s h => h ▸ by decide +kernel, by decide +kernel⟩
def launchEnd : Launch := { launch0 with counter := 0, nextSeg := 1, queue := some 0 }
theorem witness_completion : launchEnd.phase = .running ∧ launchEnd.counter = 0 ∧ launchEnd.segs.length ≤ launchEnd.nextSeg ∧ launchEnd.reruns = [] ∧ launchEnd.parent = none ∧
    ({ launchEnd with parent := some 0 } : Launch).parent = some 0 ∧ ({ launchEnd with status := some 1 } : Launch).status.getD 7 ≤ 1 ∧ 2 ≤ ({ launchEnd with status := some 2 } : Launch).status.getD 7 ∧
    (1 : DWord) ≠ 0 ∧ 2 ^ 47 ≤ ({ addr := 2 ^ 47, data := [1] } : SysWrite).addr := by
  decide +kernel

/-- The gang waits; `waits s w` is what it waits for. -/
def sGang (x : Wait) : State := warped fun w => { w with gangs := [{ id := 0, wait := x, agent := 1 }] }
def tile0 : Tile where
  uid := 0
  quarter := true
  x := { lo := 0, hi := 3 }
  y := {}
  z := {}
  depth := 0
  warp := 0
  mark := 0
def msg0 : Msg := { id := 0, core := 0, src := 0, warp := 0, thread := thread0, sent := true }
/-- A warp of the team in slot `i`, standing at REGROUP with partner `p` and `n` live threads. -/
def half (id p n : Nat) : Warp := { warp0 with
  warpId := id
  lanes := (List.range 32).map fun j => { live := decide (j < n), exec := decide (j < n) }
  gangs := [{ id := 0, wait := .regroup p 6 12, agent := 1 }] }
def sPair (a b n : Nat) : State := cored fun c => { c with warps := [(0, half a b n), (1, half b a n)] }
def pairB (s : State) (a : Nat) : Bool := match s.warp? 0 0 with
  | some w => (match w.atRegroup, (s.core 0).partner w.team (1 - a) with
    | some (_, p, _, _), some (_, v) => decide (p = 1 - a) && decide (v.pcOf 0 = w.pcOf 0) && (match v.atRegroup with
      | some (_, back, _, _) => decide (back = a)
      | none => false)
    | _, _ => false)
  | none => false
/-- Two gangs, slices 0 to 3 and 4 to 7, at REGANG with masks `m` and `m'`. -/
def sGangs (m m' : Nat) : State := warped fun w => { w with
  slices := (List.range 8).map fun i => { pc := 0x10000, gang := i / 4 }
  gangs := [{ id := 0, wait := .regang m 4, agent := 1 }, { id := 1, wait := .regang m' 4, agent := 2 }] }
def regangB (s : State) (m : Nat) : Bool := match s.envOf 0 0 0 with
  | some e => decide (e.warp.atRegang 0 = some (0x10000, m, 4)) && decide ((((List.range 8).filter fun i => m.testBit i && e.warp.sliceLive i).map fun i => (e.warp.slice i).gang).eraseDups = [0, 1])
  | none => false
def sSave : State := { (teamed fun t => { t with saving := true }) with svSize := 100 }
def saved0 : Option Saved := (alook 0 (sSave.core 0).teams).map fun t => (sSave.core 0).imageOf 0 sSave.tracks 0 t
def sSaved : State := { sPlace launch0 with saved := saved0.toList }

theorem witness_waits : ([Wait.bowait [] 0 4 [], .spawn [thread0] 256 12 [], .place 1 4, .sleep 9, .waiti 4].all fun x => (match (sGang x).envOf 0 0 0 with
    | some e => decide (e.gang.wait = x) && e.warp.sq.isEmpty
    | none => false)) = true := by decide +kernel
theorem witness_merge : regangB (sGangs 255 255) 255 = true ∧ ((sGangs 255 255).envOf 0 0 1).any (fun e => decide (e.warp.atRegang 1 = some (0x10000, 255, 4))) = true ∧
    regangB (sGangs 255 15) 255 = true ∧ ((sGangs 255 15).envOf 0 0 1).any (fun e => decide (e.warp.atRegang 1 = some (0x10000, 15, 4))) = true := by decide +kernel
theorem witness_message_arrival : [msg0].find? (fun m => decide (m.id = 0)) = some msg0 ∧ ((s0.core 0).placing.filter (·.msg)).length < 32 := by decide +kernel
theorem witness_tiles : ∀ q ∈ [true, false], ∀ s, s = (cored fun c => { c with tiles := [(0, { tile0 with quarter := q })] }) → (alook 0 (s.core 0).tiles).isSome = true ∧
    s.tileDrained 0 { tile0 with quarter := q } = true ∧ (s.placeEvent 0 0 (tileElems img0 launch0 tile0 4096)).isSome = true ∧ (s.core 0).placing = [] := by
  intro q _ s h
  subst h
  revert q
  decide +kernel
theorem witness_fusion : pairB (sPair 0 1 16) 0 = true ∧ pairB (sPair 1 0 16) 1 = true ∧ pairB (sPair 0 1 17) 0 = true ∧ (half 0 1 16).liveLanes.length + (half 1 0 16).liveLanes.length ≤ 32 ∧
    32 < (half 0 1 17).liveLanes.length + (half 1 0 17).liveLanes.length ∧ ((cored fun c => { c with warps := [(0, half 0 1 16)] }).core 0).partner 0 1 = none := by decide +kernel
theorem witness_save : (alook 0 (sSave.core 0).teams).any (fun t => sSave.saveReady 0 0 t) = true ∧ (alook 0 ((sSave.retireDone 0 0).core 0).teams).isSome = true := by decide +kernel
theorem witness_restore : (match sSaved.saved with
    | [x] => decide (x.uid = 0) && ((sSaved.homesOf launch0 x).findSome? fun c => landings sSaved c.1 c.2 launch0.pri [x]).isSome
    | _ => false) = true := by decide +kernel
/-- A firmware core in WAITI, and an enabled interrupt. -/
def sWaiti : State := { sFw with
  cores := aput 128 { (sFw.core 128) with warps := [(0, { warp0 with gangs := [{ id := 0, wait := .waiti 4, agent := 1 }] })] } sFw.cores
  dies := sFw.dies.map fun d => { d with intPend := 1, intEn := 1 } }
theorem witness_wake : (sWaiti.die 0).interrupted = true ∧ (sWaiti.envOf 128 0 0).any (fun e => decide (e.gang.wait = .waiti 4 ∧
    (sWaiti.core 128).warps = [(0, e.warp)] ∧ e.warp.gangs = [e.gang])) = true := by decide +kernel

/-- A store queue, an outbound buffer, packets and filters with one entry each. -/
def ent0 (p : Place) (k : WKind) : WEnt := { seq := 0, ob := 5, place := p, data := [1, 2, 3, 4], kind := k }
def sSq' (p : Place) (k : WKind) : State := warped fun w => { w with sq := [ent0 p k] }
def sOb : State := cored fun c => { c with ob := [ent0 (.mem 64) .store], seq := 6 }
def xch0 : Exchange := { core := 0, tag := 0, ctx := 1, uid := 0, cargo := .ob (ent0 (.mem 64) .store), pa := 64 }
def pkt0 (k : PKind) : Packet := { kind := k, xch := 0, copy := 0, src := { die := 0, leaf := .firmware }, dst := { die := 0, leaf := .slice 0 }, tag := 0, ctx := 1, addr := 64, pfl := 1 }
def sNet (p : Packet) (x : Exchange) (f : List (Nat × Filter)) (ctxs : List Nat) : State := { sOb with
  packets := [(0, p)]
  exchanges := [(0, x)]
  filters := f
  dies := s0.dies.map fun d => { d with dropCtx := ctxs } }

theorem witness_drain : ([(Place.scr 0 1024, WKind.store), (.mem 64, .store), (.mem 64, .red 0 1 0), (.sys 64, .store)].all fun q =>
      ((sSq' q.1 q.2).warp? 0 0).any fun w => decide (w.sq = [ent0 q.1 q.2]) && canDrain (sSq' q.1 q.2) 0 0 (ent0 q.1 q.2)) = true ∧
    canDrain (cored fun c => { c with ob := [ent0 (.mem 64) .store], seq := 6 }) 0 0 { ent0 (.scr 0 1024) .store with rel := 3 } = false := by decide +kernel
theorem witness_send : (sOb.core 0).ob[0]? = some (ent0 (.mem 64) .store) ∧ canSend (sOb.core 0).ob 0 = true ∧ sOb.msgHeld 0 (ent0 (.mem 64) .store) = false ∧ canSend (sOb.core 0).ob 1 = false := by
  decide +kernel
theorem witness_fabric :
    ((sNet (pkt0 .store) xch0 [] [1]).packetAt PKind.isRequest = some (pkt0 .store, xch0) ∧ (pkt0 .store).corrupt = false ∧ ({ pkt0 .store with copy := 9 } : Packet).corrupt = true ∧
      ({ pkt0 .store with kind := .other 9 } : Packet).corrupt = true ∧ ((sNet (pkt0 .store) xch0 [] [1]).die xch0.home).dropCtx.contains xch0.ctx = true ∧ xch0.void = false) ∧
    (((sNet (pkt0 .store) xch0 [(0, { copies := [], ctx := 1 })] []).die xch0.home).dropCtx.contains xch0.ctx = false ∧
      alook 0 (sNet (pkt0 .store) xch0 [(0, { copies := [], ctx := 1 })] []).filters = some { copies := [], ctx := 1 }) ∧
    (alook 0 (sNet (pkt0 .store) xch0 [] []).filters = none ∧ (sNet (pkt0 .store) xch0 [] []).filterHeld xch0.pa < 1024 ∧ ((sOb.core 0).ob.any fun r => decide (r.ob = 5)) = true) ∧
    ((sNet (pkt0 .response) xch0 [] []).packetAt (fun y => y = .response) = some (pkt0 .response, xch0) ∧ xch0.answered = false ∧ xch0.lost = false) ∧
    ((sNet (pkt0 .ack) xch0 [(0, { copies := [], ctx := 1 })] []).packetAt (fun y => y = .ack) = some (pkt0 .ack, xch0)) ∧
    (sOb.openXch 0 0 (sOb.ctxOf 0 0) 64 (.ob (ent0 (.mem 64) .store))).isSome = true ∧
    (xch0.last + 4096 ≤ (died fun d => { d with cycle := 4096 }).cycleOf xch0.core ∧ s0.cycleOf xch0.core < xch0.last + 4096 ∧ ({ xch0 with copies := 7 } : Exchange).copies < 8 ∧
      8 ≤ ({ xch0 with copies := 8 } : Exchange).copies) := by decide +kernel

/-- A gang whose load and atomic wait; a walk; a fault-queue entry. -/
def memW (l : List Acc) : MemWait := { accs := l, len := 12, frees := [], lanes := 1 }
def accB (l : List Acc) : Bool := match (sGang (.mem (memW l))).envOf 0 0 0 with
  | some e => (match nextAcc (sGang (.mem (memW l))) (Env.party (sGang (.mem (memW l))) e) l with
    | some (a, h) => decide (a.lane = 0 ∧ a.xch = none) && !(e.det && !(memW l).checked && !(memW l).again) && ((sGang (.mem (memW l))).performAcc e a h).isSome &&
        decide (((memW l).without a).accs = [] ↔ l.length = 1)
    | none => false)
  | none => false
theorem witness_access : accB [acc0 (.load 9 false)] = true ∧ accB [acc0 (.atom 0 1 0 9)] = true ∧ accB [acc0 (.cas 0 9)] = true ∧ accB [acc0 (.load 9 false), { acc0 (.load 9 false) with lane := 1 }] = true := by
  decide +kernel
def susp0 (task : Option Nat) : Susp := { core := 0, warp := 0, gang := 0, task := task, ctx := 1, va := 0x200000, kind := 0, cause := 1, mask := 1 }
def sSusp (task : Option Nat) (w : Wait) : State := { sGang w with dies := s0.dies.map fun d => { d with fq := [(0, susp0 task)], walks := [(1, 0x200)], fqTail := 2 } }
theorem witness_fault_queue :
    (((sSusp none .ready).die 0).walks.take 32).contains (1, 0x200) = true ∧ alook 0 ((sSusp (some 3) .ready).die 0).fq = some (susp0 (some 3)) ∧
    (((sSusp none (.fetch 0x200000 (some 0))).modDie 0 fun d => { d with fq := adel 0 d.fq }).envOf 0 0 0).any (fun e => decide (e.gang.wait = .fetch 0x200000 (some 0))) = true ∧
    (((sSusp none (.mem (memW [{ acc0 .store with seq := some 0 }]))).modDie 0 fun d => { d with fq := adel 0 d.fq }).envOf 0 0 0).any
      (fun e => decide (e.gang.wait = .mem (memW [{ acc0 .store with seq := some 0 }]))) = true ∧
    ([{ acc0 .store with seq := some 0 }].filter fun a => a.seq ≠ some 0) = [] ∧ ([{ acc0 .store with seq := some 0 }, acc0 .store].filter fun a => a.seq ≠ some 0) ≠ [] ∧
    (2 + (2 ^ 32 - ((sSusp none .ready).die 0).fqHead)) % 2 ^ 32 ≤ (((sSusp none .ready).die 0).fqTail + (2 ^ 32 - ((sSusp none .ready).die 0).fqHead)) % 2 ^ 32 := by
  decide +kernel
theorem witness_refresh : (s0.cores.all fun q => q.2.warps.all fun w => w.2.gangs.all fun x => match x.wait with
    | .mem _ => false
    | _ => true) = true := by decide +kernel

/-! Engines, the checker, the sequencer. -/

def copy0 (dsp : Nat) : CopyRec := { recOf 0 with dsp := dsp, dst := 0, len := 64, ssp := 0, src := 0x1000 }
def task0 (j : Job) (st : TaskState) : Task := { slot := 0, warp := 0, uid := some 0, job := j, state := st }
def sTask (t : Task) (o : List (Nat × BObj)) : State := cored fun c => { c with tasks := [(0, t)], objs := o }
theorem witness_task_start : (sTask (task0 (.copy (copy0 1)) .ready) []).mayStart 0 0 (task0 (.copy (copy0 1)) .ready) = true ∧
    (sTask (task0 (.copy (copy0 1)) .ready) []).writesTagged 0 team0 (task0 (.copy (copy0 1)) .ready) = false ∧
    (sTask (task0 (.copy (copy0 1)) .ready) [(1024, { arrv := 1, init := 1 })]).writesTagged 0 team0 (task0 (.copy (copy0 1)) .ready) = true ∧
    (sTask (task0 (.copy (copy0 1)) .waiting) []).mayStart 0 0 (task0 (.copy (copy0 1)) .waiting) = false ∧ (alook 0 ((sTask (task0 (.copy (copy0 1)) .ready) []).core 0).teams) = some team0 := by
  decide +kernel
theorem witness_task_run : (task0 (.copy (copy0 1)) .running).moving = true ∧ okOf ((sTask (task0 (.copy (copy0 1)) .running) []).copyUnit 0 0 team0 (task0 (.copy (copy0 1)) .running) (copy0 1)) = true ∧
    (copy0 1).len ≠ 0 ∧ (0 : Nat) ≤ (copy0 1).rows ∧ (copy0 1).rows < { task0 (.copy (copy0 1)) .running with row := 1 }.row ∧
    { task0 (.copy (copy0 1)) .running with row := 1 }.released ((sTask (task0 (.copy (copy0 1)) .running) []).core 0) = true ∧
    (match (sTask (task0 (.reduce 0 1 0 false true false 64 0x1000 2) .running) []).compute 0 0 team0 (task0 (.reduce 0 1 0 false true false 64 0x1000 2) .running) with
      | .ok s1 => (alook 0 (s1.core 0).tasks).isSome && decide (alook 0 (s1.core 0).teams = some team0)
      | .error _ => false) = true ∧
    ((sTask (task0 (.copy (copy0 1)) .running) []).signal 0 team0 (task0 (.copy (copy0 1)) .running) (.landed 4)).isSome = true ∧
    ((ent0 (.scr 0 1024) .store).held && s0.speculative (some 0)) = false ∧ (ent0 (.scr 0 1024) .store).sent = false ∧
    ({ task0 (.copy (copy0 1)) .running with row := 1, rel := 3 }.signed.1 ≤ (copy0 1).rows) ∧
    ((sTask (task0 (.copy (copy0 1)) .running) []).signal 0 team0 { task0 (.copy (copy0 1)) .running with row := 1, rel := 3 } (.landed ((copy0 1).unit 0 0))).isSome = true := by decide +kernel
def sWin (deps : List Dep) : State := { (sTask (task0 (.copy (copy0 2)) .running) []) with launches := [(0, { launch0 with deps := deps })] }
theorem witness_weight_store : ((sWin []).die 0).wsWindow = false ∧ (sWin []).wsPending 0 = true ∧ (sWin []).wsReaders 0 = false ∧ (sWin []).wsChecked 0 = false ∧ (sWin [.ws 0]).wsReaders 0 = true ∧
    (∀ s, s = (died fun d => { d with wsWindow := true }) → (s.die 0).wsWindow = true ∧ s.wsPending 0 = false ∧ (s.die 0).ws = (s.die 0).wsSource) :=
  ⟨by decide +kernel, by decide +kernel, by decide +kernel, by decide +kernel, by decide +kernel, fun s h => h ▸ by decide +kernel⟩
def sFlush (ws : List Witness) : State := { (sSq none) with
  cores := State.reset.cores
  launches := [(0, { launch0 with phase := .flushing, outs := [(7, 1)], outVers := [(7, 0)], binds := [(7, some 0)], witnesses := ws })] }
def party0 : Party := { die := 0, ctx := 1, fw := false, uid := some 0 }
/-- A descriptor of one element in the staged region, and an ORDER witness of two; a descriptor that breaks the map. -/
def desc0 : Nat := 0x200000 + 2 ^ 64 + 2 ^ 96 + 5 * 2 ^ 164
def wit0 : Witness := { kind := 1, descs := [desc0, desc0] }
def sCheck (k : Nat) : State := { sFlush [] with checks := [(4, { uid := 0, run := 1, wit := { kind := k, descs := List.replicate (descCount k) desc0 } })] }
/-- A pair of runs under DUAL. -/
def sDual (broken : Bool) (o : List (Nat × Nat)) : State := { sFlush [] with
  launches := [(0, { launch0 with phase := .checking, twin := some 1 }), (1, { launch0 with phase := .checking, second := true, broken := broken, outVers := o })] }

theorem witness_submission :
    (∀ ws ∈ [[], [wit0], [{ kind := 1, offs := [1, 1], param := 0x8000000000000000 }], [{ kind := 1, descs := [0, 0] }]], (((sFlush ws).launch 0).any fun l => decide (l.phase = .flushing)) = true ∧ (sFlush ws).flushed 0 = true) ∧
    ((sFlush []).closeOuts 0 launch0).readDescriptors party0 { kind := 1, offs := [1, 1], param := 0x8000000000000000 } = none ∧
    ((sFlush [wit0]).closeOuts 0 launch0).readDescriptors party0 wit0 = some wit0 ∧ ((sFlush [wit0]).closeOuts 0 launch0).witnessBad launch0 party0 wit0 = false ∧
    ((sFlush [wit0]).closeOuts 0 launch0).witnessBad launch0 party0 { wit0 with descs := [0, 0] } = true := by decide +kernel
theorem witness_checks : (∀ k ∈ [0, 1, 2, 3, 4, 7], (((sCheck k).nextCheckIs 4).any fun c => decide (c.wit.kind = k ∧ (c.wit.descs.map opdOf).length = descCount k)) = true) := by
  decide +kernel
theorem witness_dual : ∀ b ∈ [false, true], ((sDual b []).launch 0).any (fun l => decide (l.phase = .checking) && (l.twin.bind (sDual b []).launch).any fun t => decide (t.broken = b ∧ t.phase = .checking)) = true := by
  decide +kernel
theorem witness_dual_digests : (sDual false []).runDigests { launch0 with phase := .checking, twin := some 1 } = (sDual false []).runDigests { launch0 with phase := .checking, second := true } ∧
    (sDual false []).runDigests { launch0 with outVers := [(7, 0)] } ≠ (sDual false []).runDigests launch0 :=
  ⟨rfl, fun h => by have := congrArg List.length h; simp [State.runDigests, State.outDigests, launch0] at this⟩
theorem witness_shadow : ∀ p ∈ [true, false], ∀ s, s = ({ s0 with images := [{ img0 with prot := p }] } : State) → ((s.warp? 0 0).any fun w => (alook w.team (s.core 0).teams).any fun t => (t.uid.bind s.launch).any fun l =>
    (s.imageOf l).any fun i => decide (i.prot = p)) = true := by
  intro p _ s h
  subst h
  revert p
  decide +kernel
def sFail (w : Nat) : State := sWait { launch0 with failed := some (0, true), cw := w, ch := if w = 1 then 1 else 8, segs := [{ teams := 1, param := 0, key := 0 }] }
theorem witness_rerun_dispatch : ((sFail 1).launch 0).any (fun l => decide (l.phase = .waiting ∧ l.failed = some (0, true))) = true ∧ ((sFail 1).placeAway 0 0 1 1 0 [0]).isSome = true ∧
    (sFail 16).placeAway 0 0 8 16 0 [0] = none := by decide +kernel

/-! A solver run of one sample, at the beginning of a round, between stages, and at its end. -/

def sample0 : Sample where
  idx := 0
  kbuf := 0x200800
  lat := 0x200400
  norm := 0
  h := one64
  h0 := one64
  t := 0
  steps := 0
  rejects := 0
  run := 0
  k1v := false
  status := 0
def run1 : SqRun := { run3 with recAddr := 0x200000, kernel := 0x10000, tend := one64, samples := [sample0] }
def sRun (r : SqRun) : State := sSq (some r)
def sStart : State := { sSq none with
  cores := (0, { (s0.core 0) with warps := [(0, { warp0 with gangs := [{ id := 0, wait := .sqstart 12, agent := 1 }] })] }) :: State.reset.cores
  dies := (sSq none).dies.map fun d => { d with sqWait := [{ core := 0, warp := 0, gang := 0, dst := 2, record := 0x200000, mask := 1, stamp := 0 }] } }
def afterClamp (r : SqRun) (f : State → SqRun → Bool) : Bool := match (sRun r).clampRound 0 r with
  | some (s1, r1) => f s1 r1
  | none => false
theorem witness_run_start : (sStart.envOf 0 0 0).any (fun e => decide (e.gang.wait = .sqstart 12) &&
    okOf (sqStart sStart e { accs := [], len := 12, frees := [], once := true, lanes := 0 } 0 0x200000 2 1 0)) = true := by decide +kernel
theorem witness_stage_launch :
    ((sRun { run1 with stage := 1 }).launchStage 0 { run1 with stage := 1 } 2).isSome = true ∧
    afterClamp { run1 with samples := [{ sample0 with status := 1 }] } (fun _ r1 => !(r1.samples.any fun x => x.status = 0)) = true ∧
    afterClamp run1 (fun s1 r1 => r1.samples.any (fun x => x.status = 0) && decide (r1.stage = 0) && !(r1.covers 1).isEmpty && (s1.launchStage 0 r1 1).isSome) = true ∧
    afterClamp { run1 with samples := [{ sample0 with k1v := true }] } (fun s1 r1 => r1.samples.any (fun x => x.status = 0) && (r1.covers 1).isEmpty && (match s1.combine 0 r1 2 with
      | some s2 => (s2.launchStage 0 r1 2).isSome
      | none => false)) = true ∧
    ((sRun { run1 with abort := true }).abandon 0 { run1 with abort := true } 2).isSome = true := by decide +kernel
theorem witness_stage_end : ({ run1 with stage := 1, children := [9] } : SqRun).stage < run1.method.stages ∧ (sRun run1).stageOver { run1 with children := [9] } = true ∧ (sRun run1).stageOver { run1 with children := [0] } = false ∧
    ((sRun run1).abandon 0 { run1 with killed := true, children := [9] } 3).isSome = true ∧
    (((sRun run1).setRun 0 { run1 with stage := 1 }).combine 0 { run1 with stage := 1 } 2).isSome = true := by decide +kernel

/-! Registers, power, errors, heat, scans, peers and the management interface. What `Config.sm2Verify` answers is free, so the clauses of a
good image have no computable witness; an image longer than the firmware region is refused whatever it answers. -/

def sLead (b : Bool) : State := { s0 with leaseHeld := b, leaseHolder := 0, leaseEpoch := 5 }
def f0 : FaultEnt := { seq := 3, cls := 9, ck := false, die := some 0, core := some 1, ctx := some 1, detail := none, tag := 5 }

theorem witness_sev : floorOf 2 = 3 ∧ floorOf 0 = 0 ∧ floorOf 23 = 1 ∧ 2 % 8 < floorOf 2 ∧ 2 % 8 < 5 ∧ floorOf 2 ≤ 3 % 8 ∧ 3 % 8 < 5 ∧ floorOf 11 ≤ 4 % 8 ∧ 5 ≤ 5 % 8 := by decide +kernel
theorem witness_leads : (sLead true).leads 0 = true ∧ (sLead true).leads 1 = false ∧ (sLead false).leads 0 = false ∧ 6 % 2 ^ 24 = ((sLead true).leaseEpoch + 1) % 2 ^ 24 ∧
    7 % 2 ^ 24 ≠ ((sLead true).leaseEpoch + 1) % 2 ^ 24 ∧ 5 % 2 ^ 24 = (sLead true).leaseEpoch := by decide +kernel
theorem witness_spans : (sLead true).heldFrames = [] ∧ (sSq none).heldFrames ≠ [] ∧ (sLead true).saved = [] ∧ sSaved.saved ≠ [] ∧
    overlapsFirmware (256 % 2 ^ 24) 1 = false ∧ overlapsFirmware (255 % 2 ^ 24) 1 = true ∧ overlapsFirmware 0 (0 % 2 ^ 24) = false ∧ overlapsFirmware 0 (1 % 2 ^ 24) = true := by decide +kernel
theorem witness_limits : Config.plimMax < 1023 % 1024 ∧ 620 % 1024 ≤ Config.plimMax ∧ Config.thotFuse < 4095 % 4096 ∧ 0x578 % 4096 ≤ Config.thotFuse := by decide
theorem witness_image_refused : imageGood (List.replicate (Config.fwRegion + 1) 0) = false := by
  unfold imageGood
  rw [List.length_replicate]
  simp
theorem witness_power : s0.powered = false ∧ (∃ s : State, s.powered = true ∧ s.recovery = false ∧ imageGood s.flash = false) ∧
    ∃ s : State, s.recovery = true :=
  ⟨by decide +kernel, ⟨{ s0 with powered := true, flash := List.replicate (Config.fwRegion + 1) 0 }, rfl, rfl, witness_image_refused⟩, ⟨{ s0 with recovery := true }, rfl⟩⟩
theorem witness_heat : 0x691 % 4096 > Config.tripTemp ∧ (s0.core 0).temp ≤ Config.tripTemp ∧ 0x690 % 4096 ≤ Config.tripTemp ∧
    Config.tripTemp < ((cored fun c => { c with temp := 0x700 }).core 0).temp := by decide +kernel
theorem witness_scan : isFw 1 = false ∧ (((s0.modCore 1 fun c => { c with marked := true }).core 1).marked = true ∧ ((s0.modCore 1 fun c => { c with marked := true }).core 1).scan = none ∧
    ((s0.modCore 1 fun c => { c with marked := true }).core 1).teams = []) ∧ ((s0.modCore 1 fun c => { c with scan := some 7 }).core 1).scan = some 7 ∧
    (sPlace { launch0 with pri := 3 }).wanted (clusterOf 0) = true := by decide +kernel
theorem witness_retire (w : Nat) : ∃ s : State, (s.die 0).retiring.contains 3 = true ∧ ([0, 1, 2, 3].all fun i => (s.core ((List.range 4).map (clusterCore 0 3) |>.getD i 0)).teams.isEmpty) = true ∧
    33 ∈ (s.die 0).spares ∧ w % (s.die 0).spares.length < (s.die 0).spares.length ∧ (s.die 0).spares.getD (w % (s.die 0).spares.length) 0 = 33 := by
  refine ⟨died fun d => { d with retiring := [3], spares := [33] }, by decide +kernel, by decide +kernel, by decide +kernel, ?_⟩
  have h : ((died fun d => { d with retiring := [3], spares := [33] }).die 0).spares = [33] := by decide +kernel
  rw [h, List.length_singleton, Nat.mod_one]
  decide
def sPeer : State := { s0 with pwBase := 512, pwSize := 2, stgBase := 513, stgSize := 1 }
theorem witness_peer : sPeer.peerRefused 0 65536 = false ∧ sPeer.peerRefused 0 65537 = true ∧ sPeer.peerRefused 65535 1 = false ∧ sPeer.peerRefused 65536 1 = true ∧
    s0.peerRefused 0 1 = true := by decide +kernel
def att0 : AttRequest := { kind := 2, nonce := 0, tag := 5, addr := 0 }
def res0 : Result := { tag := 5, status := 0, runs := 1, dies := 1, outs := [] }
theorem witness_attestation : (alook 7 ({ s0 with attReqs := [(7, att0)], results := [res0] } : State).attReqs = some att0) ∧
    (([res0].filter fun x => x.tag = att0.tag).getLast? ≠ none) ∧ att0.kind = 2 ∧ (alook 7 ({ s0 with attReqs := [(7, { att0 with kind := 1 })] } : State).attReqs).any (fun r => r.kind = 1) = true := by
  decide +kernel
theorem witness_fread : (∃ f ∈ [f0, { f0 with seq := 4 }], [f0, { f0 with seq := 4 }].find? (fun f => f.seq = 4) = some f) ∧
    (∀ a, [f0, { f0 with seq := 4 }].head? = some a → a.seq ≤ 4) ∧ (∀ b, [f0, { f0 with seq := 4 }].getLast? = some b → 4 ≤ b.seq) := by
  refine ⟨⟨{ f0 with seq := 4 }, by decide, by decide⟩, ?_, ?_⟩ <;> simp [f0]

theorem test_reset_step : (match Sys2Proof.core.step Sys2Proof.core.reset with | .next _ => true | _ => false) = true := by decide

end Sys2Proof.Tests
end

section
/-!
The mesh of cores (R11 to R13): key and coordinates of a core determine each other, and what a core's cluster and pair are in both.
-/
namespace Sys2Proof.Proofs.Mesh
open Sys2Proof.Machine

variable {k row col p : Nat}

/-! ## A core's coordinates from its key -/

theorem isFw_eq_false_of_localOf_lt (hl : localOf k < 128) : isFw k = false :=
  decide_eq_false (Nat.ne_of_lt hl)

theorem coreRow_of_not_isFw (hk : isFw k = false) : coreRow k = dieOf k / 2 * 8 + localOf k / 16 := by
  simp [coreRow, hk]

theorem coreCol_of_not_isFw (hk : isFw k = false) : coreCol k = dieOf k % 2 * 16 + localOf k % 16 := by
  simp [coreCol, hk]

theorem coreRow_lt (hl : localOf k < 128) (hd : dieOf k < 4) : coreRow k < 16 := by
  rw [coreRow_of_not_isFw (isFw_eq_false_of_localOf_lt hl)]
  omega

/-- A firmware core reads as column 0, so this needs no hypothesis. -/
theorem coreCol_lt (k : Nat) : coreCol k < 32 := by
  cases hk : isFw k with
  | true => simp [coreCol, hk]
  | false =>
    rw [coreCol_of_not_isFw hk]
    omega

/-- The dies are 8 by 16 blocks of the mesh, two in a row (R11). -/
theorem dieOf_eq_of_coordinates (hl : localOf k < 128) : dieOf k = 2 * (coreRow k / 8) + coreCol k / 16 := by
  have hk := isFw_eq_false_of_localOf_lt hl
  rw [coreRow_of_not_isFw hk, coreCol_of_not_isFw hk]
  omega

/-! ## The core at a coordinate -/

theorem dieOf_coreAt (row col : Nat) : dieOf (coreAt row col) = 2 * (row / 8) + col / 16 := by
  unfold dieOf coreAt
  omega

theorem localOf_coreAt (row col : Nat) : localOf (coreAt row col) = row % 8 * 16 + col % 16 := by
  unfold localOf coreAt
  omega

theorem localOf_coreAt_lt (row col : Nat) : localOf (coreAt row col) < 128 := by
  rw [localOf_coreAt]
  omega

theorem isFw_coreAt (row col : Nat) : isFw (coreAt row col) = false :=
  isFw_eq_false_of_localOf_lt (localOf_coreAt_lt row col)

theorem coreRow_coreAt (hc : col < 32) : coreRow (coreAt row col) = row := by
  rw [coreRow_of_not_isFw (isFw_coreAt row col), dieOf_coreAt, localOf_coreAt]
  omega

theorem coreCol_coreAt (hc : col < 32) : coreCol (coreAt row col) = col := by
  rw [coreCol_of_not_isFw (isFw_coreAt row col), dieOf_coreAt, localOf_coreAt]
  omega

theorem coreAt_coreRow_coreCol (hl : localOf k < 128) : coreAt (coreRow k) (coreCol k) = k := by
  have hk := isFw_eq_false_of_localOf_lt hl
  have hkey : k = dieOf k * 256 + localOf k := (Nat.div_add_mod' k 256).symm
  rw [coreRow_of_not_isFw hk, coreCol_of_not_isFw hk]
  unfold coreAt
  omega

/-- Every local coordinate of every die is a place of the mesh (R11). -/
theorem exists_core_of_local_coordinates {d : Nat} (hr : row < 8) (hc : col < 16) :
    ∃ k, localOf k < 128 ∧ dieOf k = d ∧ coreRow k = 8 * (d / 2) + row ∧ coreCol k = 16 * (d % 2) + col := by
  have hcol : 16 * (d % 2) + col < 32 := by omega
  refine ⟨coreAt (8 * (d / 2) + row) (16 * (d % 2) + col), localOf_coreAt_lt _ _, ?_, coreRow_coreAt hcol, coreCol_coreAt hcol⟩
  rw [dieOf_coreAt]
  omega

/-! ## The cores of a cluster and of a pair -/

/-- Positions 0 to 3 run through the block row by row (R12). -/
theorem clusterCore_block (i j : Nat) : (List.range 4).map (clusterCore i j) =
    [coreAt (2 * i) (2 * j), coreAt (2 * i) (2 * j + 1), coreAt (2 * i + 1) (2 * j), coreAt (2 * i + 1) (2 * j + 1)] := rfl

theorem peerColumn_lt (k p : Nat) : coreCol k / 2 * 2 + p % 2 < 32 := by
  have hcol := coreCol_lt k
  omega

theorem localOf_corePeer_lt (k p : Nat) : localOf (corePeer k p) < 128 := localOf_coreAt_lt _ _

theorem coreRow_corePeer (k p : Nat) : coreRow (corePeer k p) = 2 * (coreRow k / 2) + p / 2 := by
  rw [corePeer, coreRow_coreAt (peerColumn_lt k p), Nat.mul_comm]

theorem coreCol_corePeer (k p : Nat) : coreCol (corePeer k p) = 2 * (coreCol k / 2) + p % 2 := by
  rw [corePeer, coreCol_coreAt (peerColumn_lt k p), Nat.mul_comm]

/-- A cluster lies on one die: a die's corner has even coordinates. -/
theorem dieOf_corePeer (hl : localOf k < 128) (hp : p < 4) : dieOf (corePeer k p) = dieOf k := by
  rw [dieOf_eq_of_coordinates (localOf_corePeer_lt k p), coreRow_corePeer, coreCol_corePeer, dieOf_eq_of_coordinates hl]
  omega

theorem posOf_corePeer (hp : p < 4) : posOf (corePeer k p) = p := by
  rw [posOf, coreRow_corePeer, coreCol_corePeer]
  omega

/-- The leader stands on the even row (R13), so its position is its column's parity. -/
theorem posOf_of_even_row (hr : coreRow k % 2 = 0) : posOf k = coreCol k % 2 := by
  rw [posOf, hr, Nat.mul_zero, Nat.zero_add]

theorem coreRow_followerOf (hr : coreRow k % 2 = 0) : coreRow (followerOf k) = coreRow k + 1 := by
  rw [followerOf, coreRow_corePeer, posOf_of_even_row hr]
  omega

theorem coreCol_followerOf (hr : coreRow k % 2 = 0) : coreCol (followerOf k) = coreCol k := by
  rw [followerOf, coreCol_corePeer, posOf_of_even_row hr]
  omega

/-! ## The special registers of a core's place -/

theorem special_crow {s : State} {e : Env} {lane : Nat} (hk : isFw e.k = false) : (special s e 71 lane).lo = coreRow e.k := by
  simp [special, hk]

theorem special_ccol {s : State} {e : Env} {lane : Nat} (hk : isFw e.k = false) : (special s e 72 lane).lo = coreCol e.k := by
  simp [special, hk]

theorem special_die {s : State} {e : Env} {lane : Nat} (hk : isFw e.k = false) : (special s e 74 lane).lo = dieOf e.k := by
  simp [special, hk]

/-- Settles O38: each clause is a law of the mesh's coordinates above. -/
theorem meshGeometry : Obligations.MeshGeometry := by
  unfold Obligations.MeshGeometry
  refine ⟨?registers, ?coordinates, ?clusters, ?dies, ?keys, ?peers, ?pairs⟩
  case registers => exact fun s e lane hk => ⟨special_crow hk, special_ccol hk, special_die hk⟩
  case coordinates =>
    exact fun row col _ hc => ⟨localOf_coreAt_lt row col, dieOf_coreAt row col, coreRow_coreAt hc, coreCol_coreAt hc⟩
  case clusters => exact fun i j _ _ => ⟨rfl, clusterCore_block i j⟩
  case dies => exact fun d row col _ hr hc => exists_core_of_local_coordinates hr hc
  case keys =>
    exact fun k hl hd => ⟨coreRow_lt hl hd, coreCol_lt k, dieOf_eq_of_coordinates hl, coreAt_coreRow_coreCol hl⟩
  case peers =>
    exact fun k p hl _ hp =>
      ⟨localOf_corePeer_lt k p, dieOf_corePeer hl hp, coreRow_corePeer k p, coreCol_corePeer k p, posOf_corePeer hp⟩
  case pairs => exact fun k _ _ hr => ⟨coreRow_followerOf hr, coreCol_followerOf hr⟩

end Sys2Proof.Proofs.Mesh
end

section
/-!
The words of an instruction (R49): LEN fixes how many there are, they are fetched in ascending order and little-endian, and a literal
stands in the words after the first that its form gives it.
-/
namespace Sys2Proof.Proofs.Length
open Sys2Proof.Machine

variable {s : State} {k : Nat} {p : Party} {va : Nat}

/-! ## The number of words -/

theorem lenField_toNat (w0 : Word) : (w0.extractLsb' 0 2).toNat = w0.toNat % 4 := by
  rw [BitVec.extractLsb'_toNat, Nat.shiftRight_zero]

/-- The table of R49. -/
theorem lenWords_eq_getD (w0 : Word) : lenWords w0 = [1, 2, 3, 5].getD (w0.toNat % 4) 0 := by
  have hlt : w0.toNat % 4 < 4 := Nat.mod_lt _ (by decide)
  rw [lenWords, lenField_toNat]
  generalize w0.toNat % 4 = len at hlt
  match len, hlt with
  | 0, _ | 1, _ | 2, _ | 3, _ => rfl

theorem lenWords_pos (w0 : Word) : 0 < lenWords w0 := by
  unfold lenWords
  split <;> decide

/-- Words that decode are those of their body, and as many as LEN announces. -/
theorem ofWords_of_decodeWords {super : Bool} {w0 : Word} {rest : List Word} {i : Instr} {n : Nat}
    (h : decodeWords super w0 rest = .instr i n) : ofWords w0 rest = some i ∧ n = lenWords w0 := by
  unfold decodeWords at h
  split at h
  case isTrue => cases h
  case isFalse =>
    split at h
    case h_1 => cases h
    case h_2 j hj =>
      split at h
      case h_1 => cases h
      case h_2 =>
        cases h
        exact ⟨hj, rfl⟩

/-! ## The words in memory -/

theorem fetchWords_succ_ok {n : Nat} {ws : List Word} (h : fetchWords s k p (n + 1) va = .ok ws) :
    ∃ w rest, ws = w :: rest ∧ fetchWord s k p va = .ok w ∧ fetchWords s k p n ((va + 4) % 2 ^ 64) = .ok rest := by
  rw [fetchWords] at h
  split at h
  case h_1 => cases h
  case h_2 w hw =>
    split at h
    case h_1 => cases h
    case h_2 rest hrest =>
      cases h
      exact ⟨w, rest, rfl, hw, hrest⟩

theorem fetchAll_ok {w0 : Word} {ws : List Word} (h : fetchAll s k p va = .ok (w0, ws)) :
    fetchWord s k p va = .ok w0 ∧ fetchWords s k p (lenWords w0 - 1) ((va + 4) % 2 ^ 64) = .ok ws := by
  unfold fetchAll at h
  split at h
  case h_1 => cases h
  case h_2 w hw =>
    split at h
    case h_1 => cases h
    case h_2 rest hrest =>
      cases h
      exact ⟨hw, hrest⟩

theorem fetchWords_length {n : Nat} {ws : List Word} (h : fetchWords s k p n va = .ok ws) : ws.length = n := by
  induction n generalizing va ws with
  | zero =>
    cases h
    rfl
  | succ n ih =>
    obtain ⟨w, rest, rfl, -, hrest⟩ := fetchWords_succ_ok h
    exact congrArg (· + 1) (ih hrest)

/-- Word `j` stands `4 * j` bytes above the first, addresses taken modulo 2^64. -/
theorem fetchWords_getD {n : Nat} {ws : List Word} (h : fetchWords s k p n (va % 2 ^ 64) = .ok ws) {j : Nat} (hj : j < n) :
    fetchWord s k p ((va + 4 * j) % 2 ^ 64) = .ok (ws.getD j 0) := by
  induction n generalizing va ws j with
  | zero => exact absurd hj (Nat.not_lt_zero j)
  | succ n ih =>
    obtain ⟨w, rest, rfl, hw, hrest⟩ := fetchWords_succ_ok h
    rw [Nat.mod_add_mod] at hrest
    cases j with
    | zero => exact hw
    | succ j =>
      have hnext := ih hrest (Nat.lt_of_succ_lt_succ hj)
      rwa [Nat.add_assoc, Nat.add_comm 4, ← Nat.mul_succ] at hnext

theorem fetchWord_of_physical (hp : s.physical p = true) (hva : va < Config.hbmBytes) :
    fetchWord s k p va = .ok (s.instrWord k p.uid va) := by
  rw [fetchWord, if_pos hp, if_neg (Nat.not_le_of_lt hva)]

/-- What has not been fetched ahead comes from memory (R463). -/
theorem instrWord_of_not_ahead {uid : Option Nat} {pa : Nat} (h : ∀ w, ((uid, pa), w) ∉ (s.core k).ahead) :
    s.instrWord k uid pa = BitVec.ofNat 32 (memNat s.hbm pa 4) := by
  have hnone : (s.core k).ahead.find? (fun a => a.1 = (uid, pa)) = none := by
    refine List.find?_eq_none.mpr ?_
    rintro ⟨key, w⟩ hmem hkey
    obtain rfl := of_decide_eq_true hkey
    exact h w hmem
  rw [State.instrWord, hnone]
  rfl

/-- The byte at the lowest address is the least significant (R4). -/
theorem ofNat_leNat_cons (n : Nat) (b : Byte) (bs : List Byte) :
    BitVec.ofNat (n + 8) (leNat (b :: bs)) = BitVec.ofNat n (leNat bs) ++ b := by
  apply BitVec.eq_of_toNat_eq
  have hb : b.toNat < 2 ^ 8 := b.isLt
  rw [BitVec.toNat_append, ← Nat.shiftLeft_add_eq_or_of_lt hb, Nat.shiftLeft_eq, BitVec.toNat_ofNat, BitVec.toNat_ofNat, leNat,
    Nat.pow_add, Nat.mul_comm (2 ^ n), Nat.mod_mul]
  have hlow : (b.toNat + 256 * leNat bs) % 2 ^ 8 = b.toNat := by omega
  have hhigh : (b.toNat + 256 * leNat bs) / 2 ^ 8 = leNat bs := by omega
  rw [hlow, hhigh, Nat.add_comm, Nat.mul_comm]

theorem ofNat_memNat_four (m : List Host.Cell) (a : Nat) :
    BitVec.ofNat 32 (memNat m a 4) = memByte m (a + 3) ++ memByte m (a + 2) ++ memByte m (a + 1) ++ memByte m a := by
  change BitVec.ofNat (24 + 8) (leNat [memByte m a, memByte m (a + 1), memByte m (a + 2), memByte m (a + 3)]) = _
  rw [ofNat_leNat_cons, ofNat_leNat_cons 16, ofNat_leNat_cons 8]
  simp [leNat]

/-! ## The place of a literal -/

theorem ofWords_of_len_one {w0 : Word} (h : w0.toNat % 4 = 1) (w1 : Word) (tail : List Word) :
    ofWords w0 (w1 :: tail) = decodeL (opcOf w0) (l64Of w0 w1) := by
  simp only [ofWords, lenField_toNat, h]

theorem ofWords_of_len_three {w0 : Word} (h : w0.toNat % 4 = 3) (w1 w2 w3 w4 : Word) (tail : List Word) :
    ofWords w0 (w1 :: w2 :: w3 :: w4 :: tail) = decodeY (opcOf w0) (x96Of w0 w1 w2) (w4 ++ w3) := by
  simp only [ofWords, lenField_toNat, h]

/-- Each opcode with an L64 form (R71) keeps the body it was decoded from. -/
theorem code_of_decodeL {opc : Nat} {x : L64} {i : Instr} (h : decodeL opc x = some i) : i.code = some (opc, .l x) := by
  unfold decodeL at h
  split at h <;> cases h <;> rfl

/-- Each opcode with an X160 form (R71) keeps the body it was decoded from. -/
theorem code_of_decodeY {opc : Nat} {x : X96} {lit : BitVec 64} {i : Instr} (h : decodeY opc x lit = some i) :
    i.code = some (opc, .y x lit) := by
  unfold decodeY at h
  split at h <;> cases h <;> rfl

/-- Settles O4: the count is the table of LEN, the order an induction on the words fetched, and a literal's place a fact of its form. -/
theorem instructionLength : Obligations.InstructionLength := by
  unfold Obligations.InstructionLength
  refine ⟨?count, ?order, ?bytes, ?literal64, ?literal160⟩
  case count => exact fun _ w0 _ _ _ h => (ofWords_of_decodeWords h).2.trans (lenWords_eq_getD w0)
  case order =>
    intro s k p va w0 ws h
    obtain ⟨hfirst, hrest⟩ := fetchAll_ok h
    have hlen := fetchWords_length hrest
    refine ⟨?_, hfirst, fun j hj => ?_⟩
    · rw [hlen, Nat.sub_add_cancel (lenWords_pos w0), lenWords_eq_getD]
    · have hword := fetchWords_getD hrest (hlen ▸ hj)
      rwa [Nat.add_assoc, Nat.add_comm 4, ← Nat.mul_succ] at hword
  case bytes =>
    intro s k p va hp hva
    have hlt : va < Config.hbmBytes := by omega
    exact ⟨fetchWord_of_physical hp hlt, fun h => (instrWord_of_not_ahead h).trans (ofNat_memNat_four s.hbm va)⟩
  case literal64 =>
    intro super w0 w1 tail i n hlen h
    have hbody := (ofWords_of_decodeWords h).1
    rw [ofWords_of_len_one hlen] at hbody
    exact ⟨opcOf w0, l64Of w0 w1, code_of_decodeL hbody, rfl⟩
  case literal160 =>
    intro super w0 w1 w2 w3 w4 tail i n hlen h
    have hbody := (ofWords_of_decodeWords h).1
    rw [ofWords_of_len_three hlen] at hbody
    exact ⟨opcOf w0, x96Of w0 w1 w2, code_of_decodeY hbody⟩

end Sys2Proof.Proofs.Length
end

section
/-!
Rounding to an integer (R80, R83). A finite value `±m × 2^e` is the quotient `±N / 2^k` of integers, with `N` or `2^k` trivial by the sign of
`e`; its magnitude rounds to the floor of `N / 2^k` or to one above, and each mode's choice is a fact of the remainder.
-/
namespace Sys2Proof.Proofs.Rounding

variable {mode q k N D : Nat} {neg odd : Bool}

/-! ## Which way a magnitude rounds -/

/-- The half of `roundsAway` is `2^(k - 1)`, which is half of `2^k` for a positive `k` only. -/
theorem two_mul_half (hk : 0 < k) : 2 * 2 ^ (k - 1) = 2 ^ k := by
  rw [← Nat.pow_succ', Nat.succ_eq_add_one, Nat.sub_add_cancel hk]

theorem roundsAway_exact : roundsAway mode neg odd 0 k false q = false := by
  have hhalf : 2 ^ (k - 1) ≠ 0 := Nat.ne_of_gt (Nat.two_pow_pos _)
  unfold roundsAway
  split <;> simp [hhalf.symm]

theorem roundsAway_nearest_even {rem : Nat} (hrem : rem < 2 ^ k) :
    roundsAway 0 neg odd rem k false q = decide (2 ^ k < 2 * rem ∨ 2 * rem = 2 ^ k ∧ odd = true) := by
  obtain rfl | hk := k.eq_zero_or_pos
  · obtain rfl : rem = 0 := by omega
    simp [roundsAway]
  · have hhalf := two_mul_half hk
    have htie : rem = 2 ^ (k - 1) ↔ 2 * rem = 2 ^ k := by omega
    have habove : 2 ^ (k - 1) < rem ↔ 2 ^ k < 2 * rem := by omega
    simp [roundsAway, hk, htie, habove]

theorem roundsAway_nearest_away {rem : Nat} (hrem : rem < 2 ^ k) :
    roundsAway 4 neg odd rem k false q = decide (2 ^ k ≤ 2 * rem) := by
  obtain rfl | hk := k.eq_zero_or_pos
  · obtain rfl : rem = 0 := by omega
    simp [roundsAway]
  · have hhalf := two_mul_half hk
    have htie : 2 ^ (k - 1) ≤ rem ↔ 2 ^ k ≤ 2 * rem := by omega
    simp [roundsAway, hk, htie]

/-- Modes `.rup` (2) and `.rdn` (3) go away from zero on one sign each. -/
theorem roundsAway_directed_away {rem : Nat} (hmode : mode = 2 ∧ neg = false ∨ mode = 3 ∧ neg = true) :
    roundsAway mode neg odd rem k false q = decide (rem ≠ 0) := by
  obtain ⟨rfl, rfl⟩ | ⟨rfl, rfl⟩ := hmode <;> simp [roundsAway]

/-! ## The rounded magnitude -/

/-- The magnitude `N / 2^k` rounded to an integer, in a mode that draws nothing. -/
def roundedMag (mode : Nat) (neg : Bool) (N k : Nat) : Nat :=
  if roundsAway mode neg (N / 2 ^ k % 2 = 1) (N % 2 ^ k) k false 0 then N / 2 ^ k + 1 else N / 2 ^ k

/-- The integer `r` with the sign `neg`. -/
def signed (neg : Bool) (r : Int) : Int := if neg then -r else r

/-- The magnitude of `m × 2^e` is the quotient of `m × 2^e` by 1 for `e ≥ 0`, and of `m` by `2^(-e)` otherwise. -/
theorem roundAt_zero (m : Nat) (e : Int) : roundAt mode 0 { neg := neg, m := m, e := e } 0 =
    (roundedMag mode neg (m * 2 ^ e.toNat) (-e).toNat, decide (m * 2 ^ e.toNat % 2 ^ (-e).toNat ≠ 0)) := by
  by_cases he : 0 ≤ e
  · have hk : (-e).toNat = 0 := by omega
    simp [roundAt, roundedMag, he, hk, Nat.mod_one, roundsAway_exact]
  · have hN : e.toNat = 0 := by omega
    simp [roundAt, roundedMag, he, hN]

theorem roundInt_eq (m : Nat) (e : Int) : roundInt mode 0 { neg := neg, m := m, e := e } =
    (signed neg (roundedMag mode neg (m * 2 ^ e.toNat) (-e).toNat), decide (m * 2 ^ e.toNat % 2 ^ (-e).toNat ≠ 0)) := by
  simp only [roundInt, roundAt_zero, signed]

theorem roundedMag_of_exact (h : N % 2 ^ k = 0) : roundedMag mode neg N k = N / 2 ^ k := by
  simp [roundedMag, h, roundsAway_exact]

/-- The rounded magnitude is the value itself exactly when no remainder is lost: what NX tells. -/
theorem roundedMag_mul_eq_iff : roundedMag mode neg N k * 2 ^ k = N ↔ N % 2 ^ k = 0 := by
  constructor
  · intro h
    rw [← h, Nat.mul_mod_left]
  · intro h
    rw [roundedMag_of_exact h, Nat.div_mul_cancel (Nat.dvd_of_mod_eq_zero h)]

theorem roundedMag_toward_zero : roundedMag 1 neg N k = N / 2 ^ k := rfl

theorem roundedMag_directed_away (hmode : mode = 2 ∧ neg = false ∨ mode = 3 ∧ neg = true) :
    roundedMag mode neg N k = N / 2 ^ k + if 2 ^ k ∣ N then 0 else 1 := by
  rw [roundedMag, roundsAway_directed_away hmode]
  by_cases h : N % 2 ^ k = 0 <;> simp [h, Nat.dvd_iff_mod_eq_zero]

theorem roundedMag_directed_toward_zero (hmode : mode = 2 ∧ neg = true ∨ mode = 3 ∧ neg = false) :
    roundedMag mode neg N k = N / 2 ^ k := by
  obtain ⟨rfl, rfl⟩ | ⟨rfl, rfl⟩ := hmode <;> simp [roundedMag, roundsAway]

/-! ## Its distance from the value -/

theorem natAbs_floor_error : (((N / D : Nat) : Int) * D - N).natAbs = N % D := by
  have h : ((N / D : Nat) : Int) * D + (N % D : Nat) = N := mod_cast Nat.div_add_mod' N D
  omega

theorem natAbs_ceil_error (hD : 0 < D) : (((N / D + 1 : Nat) : Int) * D - N).natAbs = D - N % D := by
  have h : ((N / D : Nat) : Int) * D + (N % D : Nat) = N := mod_cast Nat.div_add_mod' N D
  have hlt := Nat.mod_lt N hD
  rw [Int.natCast_add, Int.add_mul]
  omega

/-- `.rne`: within half a unit, and even on a tie. -/
theorem roundedMag_nearest_even (r : Nat) (hr : r = roundedMag 0 neg N k) :
    2 * ((r : Int) * (2 ^ k : Nat) - N).natAbs ≤ 2 ^ k ∧ (2 * ((r : Int) * (2 ^ k : Nat) - N).natAbs = 2 ^ k → r % 2 = 0) := by
  have hpos : 0 < 2 ^ k := Nat.two_pow_pos k
  have hlt := Nat.mod_lt N hpos
  rw [roundedMag, roundsAway_nearest_even hlt] at hr
  split at hr <;> subst hr
  case isTrue haway =>
    rw [natAbs_ceil_error hpos]
    simp only [decide_eq_true_eq] at haway
    omega
  case isFalse hstay =>
    rw [natAbs_floor_error]
    simp only [decide_eq_true_eq] at hstay
    omega

/-- `.rmm`: within half a unit, and above the value on a tie. -/
theorem roundedMag_nearest_away (r : Nat) (hr : r = roundedMag 4 neg N k) :
    2 * ((r : Int) * (2 ^ k : Nat) - N).natAbs ≤ 2 ^ k ∧ (2 * ((r : Int) * (2 ^ k : Nat) - N).natAbs = 2 ^ k → N < r * 2 ^ k) := by
  have hpos : 0 < 2 ^ k := Nat.two_pow_pos k
  have hlt := Nat.mod_lt N hpos
  rw [roundedMag, roundsAway_nearest_away hlt] at hr
  split at hr <;> subst hr
  case isTrue haway =>
    rw [natAbs_ceil_error hpos]
    simp only [decide_eq_true_eq] at haway
    exact ⟨by omega, fun _ => Nat.lt_mul_of_div_lt (Nat.lt_succ_self _) hpos⟩
  case isFalse hstay =>
    rw [natAbs_floor_error]
    simp only [decide_eq_true_eq] at hstay
    omega

/-! ## The signed result against the signed value -/

@[simp] theorem natAbs_signed (r : Int) : (signed neg r).natAbs = r.natAbs := by
  cases neg <;> simp [signed]

theorem signed_eq_mul (r : Int) : signed neg r = (if neg then -1 else 1) * r := by
  cases neg <;> simp [signed]

theorem signed_mul (r d : Int) : signed neg r * d = signed neg (r * d) := by
  simp only [signed_eq_mul, Int.mul_assoc]

theorem signed_sub (r v : Int) : signed neg r - signed neg v = signed neg (r - v) := by
  simp only [signed_eq_mul, Int.mul_sub]

theorem signed_inj {r v : Int} : signed neg r = signed neg v ↔ r = v := by
  cases neg <;> simp [signed]

theorem signed_emod_two (r : Nat) (h : r % 2 = 0) : signed neg r % 2 = 0 := by
  cases neg <;> simp only [signed] <;> omega

theorem signed_toward_zero : signed neg (roundedMag 1 neg N k) = Int.tdiv (signed neg N) (2 ^ k : Nat) := by
  rw [roundedMag_toward_zero]
  cases neg
  · exact Int.ofNat_tdiv N (2 ^ k)
  · exact (congrArg Neg.neg (Int.ofNat_tdiv N (2 ^ k))).trans (Int.neg_tdiv _ _).symm

/-- The floor of a negative quotient is away from zero unless nothing is left over. -/
theorem fdiv_neg_natCast : Int.fdiv (-(N : Int)) (2 ^ k : Nat) = -((N / 2 ^ k + if 2 ^ k ∣ N then 0 else 1 : Nat) : Int) := by
  have hpos : ((2 ^ k : Nat) : Int) ≠ 0 := Int.natCast_ne_zero.mpr (Nat.ne_of_gt (Nat.two_pow_pos k))
  rw [Int.neg_fdiv, ← Int.ofNat_fdiv]
  simp only [hpos, false_or, Int.natCast_dvd_natCast]
  split <;> omega

theorem signed_up : signed neg (roundedMag 2 neg N k) = -Int.fdiv (-signed neg N) (2 ^ k : Nat) := by
  cases neg
  case false =>
    rw [roundedMag_directed_away (.inl ⟨rfl, rfl⟩)]
    exact Int.eq_neg_comm.mp fdiv_neg_natCast
  case true =>
    rw [roundedMag_directed_toward_zero (.inl ⟨rfl, rfl⟩)]
    simp only [signed, if_true, Int.neg_neg, Int.ofNat_fdiv]

theorem signed_down : signed neg (roundedMag 3 neg N k) = Int.fdiv (signed neg N) (2 ^ k : Nat) := by
  cases neg
  case false =>
    rw [roundedMag_directed_toward_zero (.inr ⟨rfl, rfl⟩)]
    exact Int.ofNat_fdiv N (2 ^ k)
  case true =>
    rw [roundedMag_directed_away (.inr ⟨rfl, rfl⟩)]
    exact fdiv_neg_natCast.symm

/-! ## Delivery -/

section Delivery
variable {t m : Nat} {e : Int}

theorem toIntX_of_lt (h : (roundInt mode q { neg := neg, m := m, e := e }).1 < intMin t) :
    toIntX t mode q (.fin neg m e) = (intMin t, fNV) := by
  simp [toIntX, h]

theorem toIntX_of_gt (h : intMax t < (roundInt mode q { neg := neg, m := m, e := e }).1)
    (hmin : intMin t ≤ (roundInt mode q { neg := neg, m := m, e := e }).1) :
    toIntX t mode q (.fin neg m e) = (intMax t, fNV) := by
  simp [toIntX, h, Int.not_lt.mpr hmin]

theorem toIntX_of_mem (hmin : intMin t ≤ (roundInt mode q { neg := neg, m := m, e := e }).1)
    (hmax : (roundInt mode q { neg := neg, m := m, e := e }).1 ≤ intMax t) :
    toIntX t mode q (.fin neg m e) = ((roundInt mode q { neg := neg, m := m, e := e }).1,
      if (roundInt mode q { neg := neg, m := m, e := e }).2 then fNX else 0) := by
  simp [toIntX, Int.not_lt.mpr hmin, Int.not_lt.mpr hmax]

/-- NX's condition, stated on the rounded integer alone. -/
theorem roundInt_inexact_iff : (roundInt mode 0 { neg := neg, m := m, e := e }).2 = true ↔
    (roundInt mode 0 { neg := neg, m := m, e := e }).1 * (2 ^ (-e).toNat : Nat) ≠ signed neg (m * 2 ^ e.toNat : Nat) := by
  simp only [roundInt_eq, decide_eq_true_eq, signed_mul, ne_eq, signed_inj]
  exact not_congr (roundedMag_mul_eq_iff.symm.trans (by norm_cast))

end Delivery

/-- Settles O35: the mode decides between the floor of the magnitude and the integer above it, and the remainder tells both the distance
from the value and NX. -/
theorem floatToInteger : Obligations.FloatToInteger := by
  unfold Obligations.FloatToInteger
  refine ⟨?finite, fun t mode => ⟨rfl, rfl, fun _ => rfl⟩⟩
  intro t mode neg m e _ i num den hi hnum hden
  replace hnum : num = signed neg (m * 2 ^ e.toNat : Nat) := by
    rw [hnum, signed_eq_mul, Int.mul_assoc]
    norm_cast
  replace hden : den = (2 ^ (-e).toNat : Nat) := by
    rw [hden]
    norm_cast
  have hround : i = signed neg (roundedMag mode neg (m * 2 ^ e.toNat) (-e).toNat) := by rw [hi, roundInt_eq]
  have hdist : (i * den - num).natAbs =
      (((roundedMag mode neg (m * 2 ^ e.toNat) (-e).toNat : Nat) : Int) * (2 ^ (-e).toNat : Nat) - (m * 2 ^ e.toNat : Nat)).natAbs := by
    rw [hround, hnum, hden, signed_mul, signed_sub, natAbs_signed]
  refine ⟨⟨?nearestEven, ?towardZero, ?up, ?down, ?nearestAway⟩, ?inside, ?below, ?above⟩
  case nearestEven =>
    rintro rfl
    obtain ⟨hnear, htie⟩ := roundedMag_nearest_even _ rfl
    rw [hdist, hden, hround]
    exact ⟨mod_cast hnear, fun h => signed_emod_two _ (htie (mod_cast h))⟩
  case towardZero =>
    rintro rfl
    rw [hround, hnum, hden, signed_toward_zero]
  case up =>
    rintro rfl
    rw [hround, hnum, hden, signed_up]
  case down =>
    rintro rfl
    rw [hround, hnum, hden, signed_down]
  case nearestAway =>
    rintro rfl
    obtain ⟨hnear, htie⟩ := roundedMag_nearest_away _ rfl
    rw [hdist, hden, hround, hnum, natAbs_signed, natAbs_signed]
    exact ⟨mod_cast hnear, fun h => mod_cast htie (mod_cast h)⟩
  case inside =>
    intro hmin hmax
    rw [hi] at hmin hmax
    rw [toIntX_of_mem hmin hmax]
    simp only [roundInt_inexact_iff, ← hi, ← hnum, ← hden, ne_eq, ite_not]
  case below => exact fun h => toIntX_of_lt (hi ▸ h)
  case above => exact fun h hmin => toIntX_of_gt (hi ▸ h) (hi ▸ hmin)

end Sys2Proof.Proofs.Rounding
end

section
/-!
The updates of a barrier object (R142, R148): Complete acts on an object with ARRV and PENDB both 0 and on no other, and an update within
its bounds is its sum or difference, tested with Complete.
-/
namespace Sys2Proof.Proofs.ObjectUpdate
open Sys2Proof.Machine

variable {o : BObj} {c : Clock} {n : Nat} {i : Int}

/-! ## Complete -/

theorem complete_of_zero (harrv : o.arrv = 0) (hpendb : o.pendb = 0) :
    o.complete = { o with phcnt := (o.phcnt + 1) % 2 ^ 32, arrv := o.init, clock := o.pend, pend := [] } :=
  if_pos ⟨harrv, hpendb⟩

theorem complete_of_ne_zero (h : o.arrv ≠ 0 ∨ o.pendb ≠ 0) : o.complete = o :=
  if_neg fun ⟨harrv, hpendb⟩ => h.elim (· harrv) (· hpendb)

/-! ## The updates within their bounds -/

/-- The bounds of PENDB, which is signed. -/
theorem fits32_iff : fits32 i = true ↔ -2 ^ 31 ≤ i ∧ i < 2 ^ 31 := by
  simp [fits32]

theorem apply_expect (h : fits32 (o.pendb + n) = true) :
    (BUpd.expect n).apply c o = some ({ o with pendb := o.pendb + n, pend := Clock.join o.pend c } : BObj).complete :=
  if_pos h

theorem apply_landed (h : fits32 (o.pendb - n) = true) :
    (BUpd.landed n).apply c o = some ({ o with pendb := o.pendb - n, pend := Clock.join o.pend c } : BObj).complete :=
  if_pos h

theorem apply_arrive (h : n ≤ o.arrv) :
    (BUpd.arrive n).apply c o = some ({ o with arrv := o.arrv - n, pend := Clock.join o.pend c } : BObj).complete :=
  if_pos h

/-- Settles O24: Complete by its two cases, each update by its equation within its bounds. -/
theorem objectUpdates : Obligations.ObjectUpdates := by
  unfold Obligations.ObjectUpdates
  intro o c
  refine ⟨?phase, complete_of_ne_zero, ?expect, ?landed, fun _ => apply_arrive⟩
  case phase =>
    intro harrv hpendb
    rw [complete_of_zero harrv hpendb]
    exact ⟨rfl, rfl, hpendb, rfl⟩
  case expect => exact fun _ hlt hge => apply_expect (fits32_iff.mpr ⟨hge, hlt⟩)
  case landed => exact fun _ hlt hge => apply_landed (fits32_iff.mpr ⟨hge, hlt⟩)

end Sys2Proof.Proofs.ObjectUpdate
end

section
/-!
The round trip of the encoding (R49 to R55, R67, R71). Each layout's words and fields determine each other, every opcode's decoder keeps the
body it was given, and so words and instructions determine each other.
-/
namespace Sys2Proof.Proofs.Encoding
open Sys2Proof.Proofs.Length

/-! ## A word from its fields -/

/-- Two adjacent slices of a word are one slice. -/
theorem extract_join {n : Nat} (x : BitVec n) {s l m t : Nat} (h : t = s + l) :
    x.extractLsb' t m ++ x.extractLsb' s l = x.extractLsb' s (m + l) := by
  subst h
  exact ext_append x s l m

theorem ofBool_getLsbD {n : Nat} (x : BitVec n) (s : Nat) : BitVec.ofBool (x.getLsbD s) = x.extractLsb' s 1 := by
  apply BitVec.eq_of_getLsbD_eq
  intro i hi
  obtain rfl : i = 0 := by omega
  simp

/-- OPC of word 0, written back. -/
theorem ofNat_opcOf (w : Word) : BitVec.ofNat 8 (opcOf w) = w.extractLsb' 2 8 := by
  rw [opcOf, BitVec.ofNat_toNat, BitVec.setWidth_eq]

section Words
variable {w0 : Word}

theorem word_c32rOf (h : w0.extractLsb' 0 2 = 0#2) : (c32rOf w0).word (BitVec.ofNat 8 (opcOf w0)) = w0 := by
  rw [C32R.word, ofNat_opcOf, ← h]
  simp only [c32rOf, guardOf, ofBool_getLsbD]
  simp (disch := rfl) only [extract_join]
  exact ext_all w0

theorem word_c32iOf (h : w0.extractLsb' 0 2 = 0#2) : (c32iOf w0).word (BitVec.ofNat 8 (opcOf w0)) = w0 := by
  rw [C32I.word, ofNat_opcOf, ← h]
  simp only [c32iOf, guardOf, ofBool_getLsbD]
  simp (disch := rfl) only [extract_join]
  exact ext_all w0

theorem word_c32jOf (h : w0.extractLsb' 0 2 = 0#2) : (c32jOf w0).word (BitVec.ofNat 8 (opcOf w0)) = w0 := by
  rw [C32J.word, ofNat_opcOf, ← h]
  simp only [c32jOf, guardOf, ofBool_getLsbD]
  simp (disch := rfl) only [extract_join]
  exact ext_all w0

theorem word_l64Of (w1 : Word) (h : w0.extractLsb' 0 2 = 1#2) : (l64Of w0 w1).word (BitVec.ofNat 8 (opcOf w0)) = w0 := by
  rw [L64.word, ofNat_opcOf, ← h]
  simp only [l64Of, guardOf, ofBool_getLsbD]
  simp (disch := rfl) only [extract_join]
  exact ext_all w0

theorem word0_x96Of (w1 w2 : Word) {len : BitVec 2} (h : w0.extractLsb' 0 2 = len) :
    (x96Of w0 w1 w2).word0 (BitVec.ofNat 8 (opcOf w0)) len = w0 := by
  rw [X96.word0, ofNat_opcOf, ← h]
  simp only [x96Of, guardOf, ofBool_getLsbD]
  simp (disch := rfl) only [extract_join]
  exact ext_all w0

theorem word1_x96Of (w1 w2 : Word) : (x96Of w0 w1 w2).word1 = w1 := by
  rw [X96.word1]
  simp only [x96Of, ofBool_getLsbD]
  simp (disch := rfl) only [extract_join]
  exact ext_all w1

theorem word2_x96Of (w1 w2 : Word) : (x96Of w0 w1 w2).word2 = w2 := by
  rw [X96.word2]
  simp only [x96Of, ofBool_getLsbD]
  simp (disch := rfl) only [extract_join]
  exact ext_all w2

end Words

/-! ## A decoder keeps the body it decodes -/

section Codes
variable {opc : Nat} {i : Instr}

theorem code_of_decodeR {x : C32R} (h : decodeR opc x = some i) : i.code = some (opc, .r x) := by
  unfold decodeR at h
  split at h <;> cases h
  all_goals
    repeat' split
    all_goals rfl

theorem code_of_decodeI {x : C32I} (h : decodeI opc x = some i) : i.code = some (opc, .i x) := by
  unfold decodeI at h
  split at h <;> cases h <;> rfl

theorem code_of_decodeJ {x : C32J} (h : decodeJ opc x = some i) : i.code = some (opc, .j x) := by
  unfold decodeJ at h
  split at h <;> cases h <;> rfl

/-- Where an opcode has several constructors, its sub-operation chooses among those of its body (R73). -/
theorem code_of_decodeX {x : X96} (h : decodeX opc x = some i) : i.code = some (opc, .x x) := by
  unfold decodeX at h
  split at h <;> cases h
  all_goals
    repeat' split
    all_goals rfl

end Codes

theorem orElse_eq_some {α : Type} {a : Option α} {f : Unit → Option α} {v : α} (h : a.orElse f = some v) : a = some v ∨ f () = some v := by
  cases a with
  | none => exact .inr h
  | some u => exact .inl h

/-- The field LEN as a bit vector, from its value. -/
theorem lenField_eq {w0 : Word} {n : Nat} (h : (w0.extractLsb' 0 2).toNat = n) : w0.extractLsb' 0 2 = BitVec.ofNat 2 n := by
  rw [← h, BitVec.ofNat_toNat, BitVec.setWidth_eq]

/-- Words that are read as an instruction give its body, and are the words of that body: as many as LEN announces. -/
theorem body_of_ofWords {w0 : Word} {rest : List Word} {i : Instr} (h : ofWords w0 rest = some i) :
    ∃ b ws tail, i.code = some (opcOf w0, b) ∧ b.words (BitVec.ofNat 8 (opcOf w0)) = w0 :: ws ∧ rest = ws ++ tail ∧
      lenWords w0 = ws.length + 1 := by
  unfold ofWords at h
  split at h
  case h_1 hlen =>
    have hzero := lenField_eq hlen
    have hcount : lenWords w0 = 1 := by simp only [lenWords, hlen]
    obtain h | h := orElse_eq_some h
    · exact ⟨_, [], _, code_of_decodeR h, congrArg (· :: []) (word_c32rOf hzero), rfl, hcount⟩
    obtain h | h := orElse_eq_some h
    · exact ⟨_, [], _, code_of_decodeI h, congrArg (· :: []) (word_c32iOf hzero), rfl, hcount⟩
    · exact ⟨_, [], _, code_of_decodeJ h, congrArg (· :: []) (word_c32jOf hzero), rfl, hcount⟩
  case h_2 w1 tail hlen =>
    refine ⟨_, [w1], tail, code_of_decodeL h, ?_, rfl, by simp only [lenWords, hlen, List.length_cons, List.length_nil]⟩
    rw [Body.words, word_l64Of w1 (lenField_eq hlen)]
    rfl
  case h_3 w1 w2 tail hlen =>
    refine ⟨_, [w1, w2], tail, code_of_decodeX h, ?_, rfl, by simp only [lenWords, hlen, List.length_cons, List.length_nil]⟩
    rw [Body.words, word0_x96Of w1 w2 (lenField_eq hlen), word1_x96Of, word2_x96Of]
  case h_4 w1 w2 w3 w4 tail hlen =>
    refine ⟨_, [w1, w2, w3, w4], tail, code_of_decodeY h, ?_, rfl, by simp only [lenWords, hlen, List.length_cons, List.length_nil]⟩
    rw [Body.words, word0_x96Of w1 w2 (lenField_eq hlen), word1_x96Of, word2_x96Of, app_low w4 w3 0 32 (by decide),
      app_high w4 w3 32 32 (by decide), ext_all, ext_all]
  case h_5 => cases h

theorem detail_of_decodeWords {super : Bool} {w0 : Word} {rest : List Word} {i : Instr} {n : Nat}
    (h : decodeWords super w0 rest = .instr i n) : i.detail super = none := by
  unfold decodeWords at h
  split at h
  case isTrue => cases h
  case isFalse =>
    split at h
    case h_1 => cases h
    case h_2 =>
      split at h
      case h_1 => cases h
      case h_2 hdetail =>
        cases h
        exact hdetail

/-! ## An instruction keeps the words it encodes -/

/-- Every constructor's law of the round trip; an event row is not well formed. -/
theorem roundTrip (i : Instr) : Laws.RoundTrip.Statement i := by
  cases i with
  | nop x => exact Laws.RoundTrip.nop x
  | brC32 x => exact Laws.RoundTrip.brC32 x
  | brL64 x => exact Laws.RoundTrip.brL64 x
  | briC32 x => exact Laws.RoundTrip.briC32 x
  | bri x => exact Laws.RoundTrip.bri x
  | callC32 x => exact Laws.RoundTrip.callC32 x
  | callL64 x => exact Laws.RoundTrip.callL64 x
  | calliC32 x => exact Laws.RoundTrip.calliC32 x
  | calli x => exact Laws.RoundTrip.calli x
  | ret x => exact Laws.RoundTrip.ret x
  | join x => exact Laws.RoundTrip.join x
  | yield x => exact Laws.RoundTrip.yield x
  | regangC32 x => exact Laws.RoundTrip.regangC32 x
  | regang x => exact Laws.RoundTrip.regang x
  | regroupC32 x => exact Laws.RoundTrip.regroupC32 x
  | regroup x => exact Laws.RoundTrip.regroup x
  | exit x => exact Laws.RoundTrip.exit x
  | bkpt x => exact Laws.RoundTrip.bkpt x
  | sleep x => exact Laws.RoundTrip.sleep x
  | spawn x => exact Laws.RoundTrip.spawn x
  | tlaunch x => exact Laws.RoundTrip.tlaunch x
  | baraC32 x => exact Laws.RoundTrip.baraC32 x
  | bara x => exact Laws.RoundTrip.bara x
  | barwC32 x => exact Laws.RoundTrip.barwC32 x
  | barw x => exact Laws.RoundTrip.barw x
  | barsC32 x => exact Laws.RoundTrip.barsC32 x
  | bars x => exact Laws.RoundTrip.bars x
  | rbar x => exact Laws.RoundTrip.rbar x
  | elect x => exact Laws.RoundTrip.elect x
  | quarter x => exact Laws.RoundTrip.quarter x
  | handoffC32 x => exact Laws.RoundTrip.handoffC32 x
  | handoff x => exact Laws.RoundTrip.handoff x
  | iaddC32 x => exact Laws.RoundTrip.iaddC32 x
  | iadd x => exact Laws.RoundTrip.iadd x
  | isubC32 x => exact Laws.RoundTrip.isubC32 x
  | isub x => exact Laws.RoundTrip.isub x
  | iaddx x => exact Laws.RoundTrip.iaddx x
  | isubx x => exact Laws.RoundTrip.isubx x
  | imulC32 x => exact Laws.RoundTrip.imulC32 x
  | imul x => exact Laws.RoundTrip.imul x
  | imulhC32 x => exact Laws.RoundTrip.imulhC32 x
  | imulh x => exact Laws.RoundTrip.imulh x
  | imulw x => exact Laws.RoundTrip.imulw x
  | imad x => exact Laws.RoundTrip.imad x
  | idiv x => exact Laws.RoundTrip.idiv x
  | irem x => exact Laws.RoundTrip.irem x
  | inegC32 x => exact Laws.RoundTrip.inegC32 x
  | ineg x => exact Laws.RoundTrip.ineg x
  | iabsC32 x => exact Laws.RoundTrip.iabsC32 x
  | iabs x => exact Laws.RoundTrip.iabs x
  | iminC32 x => exact Laws.RoundTrip.iminC32 x
  | imin x => exact Laws.RoundTrip.imin x
  | imaxC32 x => exact Laws.RoundTrip.imaxC32 x
  | imax x => exact Laws.RoundTrip.imax x
  | isad x => exact Laws.RoundTrip.isad x
  | iclamp x => exact Laws.RoundTrip.iclamp x
  | idot x => exact Laws.RoundTrip.idot x
  | andC32 x => exact Laws.RoundTrip.andC32 x
  | and x => exact Laws.RoundTrip.and x
  | orC32 x => exact Laws.RoundTrip.orC32 x
  | or x => exact Laws.RoundTrip.or x
  | xorC32 x => exact Laws.RoundTrip.xorC32 x
  | xor x => exact Laws.RoundTrip.xor x
  | notC32 x => exact Laws.RoundTrip.notC32 x
  | not x => exact Laws.RoundTrip.not x
  | andnC32 x => exact Laws.RoundTrip.andnC32 x
  | andn x => exact Laws.RoundTrip.andn x
  | tern x => exact Laws.RoundTrip.tern x
  | shlC32 x => exact Laws.RoundTrip.shlC32 x
  | shl x => exact Laws.RoundTrip.shl x
  | shrC32 x => exact Laws.RoundTrip.shrC32 x
  | shr x => exact Laws.RoundTrip.shr x
  | sarC32 x => exact Laws.RoundTrip.sarC32 x
  | sar x => exact Laws.RoundTrip.sar x
  | rolC32 x => exact Laws.RoundTrip.rolC32 x
  | rol x => exact Laws.RoundTrip.rol x
  | funs x => exact Laws.RoundTrip.funs x
  | bfx x => exact Laws.RoundTrip.bfx x
  | bfi x => exact Laws.RoundTrip.bfi x
  | brevC32 x => exact Laws.RoundTrip.brevC32 x
  | brev x => exact Laws.RoundTrip.brev x
  | bperm x => exact Laws.RoundTrip.bperm x
  | popcC32 x => exact Laws.RoundTrip.popcC32 x
  | popc x => exact Laws.RoundTrip.popc x
  | clzC32 x => exact Laws.RoundTrip.clzC32 x
  | clz x => exact Laws.RoundTrip.clz x
  | ctzC32 x => exact Laws.RoundTrip.ctzC32 x
  | ctz x => exact Laws.RoundTrip.ctz x
  | iext x => exact Laws.RoundTrip.iext x
  | icmp x => exact Laws.RoundTrip.icmp x
  | isel x => exact Laws.RoundTrip.isel x
  | lea x => exact Laws.RoundTrip.lea x
  | pand x => exact Laws.RoundTrip.pand x
  | por x => exact Laws.RoundTrip.por x
  | pxor x => exact Laws.RoundTrip.pxor x
  | pnot x => exact Laws.RoundTrip.pnot x
  | pset x => exact Laws.RoundTrip.pset x
  | pget x => exact Laws.RoundTrip.pget x
  | movC32 x => exact Laws.RoundTrip.movC32 x
  | mov x => exact Laws.RoundTrip.mov x
  | moviC32 x => exact Laws.RoundTrip.moviC32 x
  | movi x => exact Laws.RoundTrip.movi x
  | movl x => exact Laws.RoundTrip.movl x
  | srd x => exact Laws.RoundTrip.srd x
  | swr x => exact Laws.RoundTrip.swr x
  | region x => exact Laws.RoundTrip.region x
  | perm x => exact Laws.RoundTrip.perm x
  | shiftwC32 x => exact Laws.RoundTrip.shiftwC32 x
  | shiftw x => exact Laws.RoundTrip.shiftw x
  | voteC32 x => exact Laws.RoundTrip.voteC32 x
  | vote x => exact Laws.RoundTrip.vote x
  | rstep x => exact Laws.RoundTrip.rstep x
  | bcastC32 x => exact Laws.RoundTrip.bcastC32 x
  | bcast x => exact Laws.RoundTrip.bcast x
  | matchLanes x => exact Laws.RoundTrip.matchLanes x
  | redw x => exact Laws.RoundTrip.redw x
  | scanw x => exact Laws.RoundTrip.scanw x
  | faddC32 x => exact Laws.RoundTrip.faddC32 x
  | fadd x => exact Laws.RoundTrip.fadd x
  | fsubC32 x => exact Laws.RoundTrip.fsubC32 x
  | fsub x => exact Laws.RoundTrip.fsub x
  | fmulC32 x => exact Laws.RoundTrip.fmulC32 x
  | fmul x => exact Laws.RoundTrip.fmul x
  | fma x => exact Laws.RoundTrip.fma x
  | fminC32 x => exact Laws.RoundTrip.fminC32 x
  | fmin x => exact Laws.RoundTrip.fmin x
  | fmaxC32 x => exact Laws.RoundTrip.fmaxC32 x
  | fmax x => exact Laws.RoundTrip.fmax x
  | fcmp x => exact Laws.RoundTrip.fcmp x
  | fclass x => exact Laws.RoundTrip.fclass x
  | fabsC32 x => exact Laws.RoundTrip.fabsC32 x
  | fabs x => exact Laws.RoundTrip.fabs x
  | fnegC32 x => exact Laws.RoundTrip.fnegC32 x
  | fneg x => exact Laws.RoundTrip.fneg x
  | fsgn x => exact Laws.RoundTrip.fsgn x
  | frnd x => exact Laws.RoundTrip.frnd x
  | fscale x => exact Laws.RoundTrip.fscale x
  | flogb x => exact Laws.RoundTrip.flogb x
  | fadd2 x => exact Laws.RoundTrip.fadd2 x
  | fmul2 x => exact Laws.RoundTrip.fmul2 x
  | fma2 x => exact Laws.RoundTrip.fma2 x
  | fdot x => exact Laws.RoundTrip.fdot x
  | fdiv x => exact Laws.RoundTrip.fdiv x
  | fsqrt x => exact Laws.RoundTrip.fsqrt x
  | frcp x => exact Laws.RoundTrip.frcp x
  | frsq x => exact Laws.RoundTrip.frsq x
  | fexp x => exact Laws.RoundTrip.fexp x
  | fexpm1 x => exact Laws.RoundTrip.fexpm1 x
  | flog x => exact Laws.RoundTrip.flog x
  | flog1p x => exact Laws.RoundTrip.flog1p x
  | ferf x => exact Laws.RoundTrip.ferf x
  | ferfc x => exact Laws.RoundTrip.ferfc x
  | cvt x => exact Laws.RoundTrip.cvt x
  | cvti x => exact Laws.RoundTrip.cvti x
  | cvtf x => exact Laws.RoundTrip.cvtf x
  | packn x => exact Laws.RoundTrip.packn x
  | qnt x => exact Laws.RoundTrip.qnt x
  | dqnt x => exact Laws.RoundTrip.dqnt x
  | rnd x => exact Laws.RoundTrip.rnd x
  | rndf x => exact Laws.RoundTrip.rndf x
  | rndm x => exact Laws.RoundTrip.rndm x
  | ivmk x => exact Laws.RoundTrip.ivmk x
  | ivlo x => exact Laws.RoundTrip.ivlo x
  | ivhi x => exact Laws.RoundTrip.ivhi x
  | ld x => exact Laws.RoundTrip.ld x
  | st x => exact Laws.RoundTrip.st x
  | ldsC32 x => exact Laws.RoundTrip.ldsC32 x
  | lds x => exact Laws.RoundTrip.lds x
  | stsC32 x => exact Laws.RoundTrip.stsC32 x
  | sts x => exact Laws.RoundTrip.sts x
  | ldw x => exact Laws.RoundTrip.ldw x
  | stw x => exact Laws.RoundTrip.stw x
  | sld x => exact Laws.RoundTrip.sld x
  | sst x => exact Laws.RoundTrip.sst x
  | ldwt x => exact Laws.RoundTrip.ldwt x
  | ldsm x => exact Laws.RoundTrip.ldsm x
  | stf x => exact Laws.RoundTrip.stf x
  | cstore x => exact Laws.RoundTrip.cstore x
  | xload x => exact Laws.RoundTrip.xload x
  | atom x => exact Laws.RoundTrip.atom x
  | atoms x => exact Laws.RoundTrip.atoms x
  | atomw x => exact Laws.RoundTrip.atomw x
  | red x => exact Laws.RoundTrip.red x
  | reds x => exact Laws.RoundTrip.reds x
  | cas x => exact Laws.RoundTrip.cas x
  | fenceC32 x => exact Laws.RoundTrip.fenceC32 x
  | fence x => exact Laws.RoundTrip.fence x
  | pref x => exact Laws.RoundTrip.pref x
  | probe x => exact Laws.RoundTrip.probe x
  | cctlEv x => exact Laws.RoundTrip.cctlEv x
  | cctlEvall x => exact Laws.RoundTrip.cctlEvall x
  | cpy x => exact Laws.RoundTrip.cpy x
  | kickC32 x => exact Laws.RoundTrip.kickC32 x
  | kick x => exact Laws.RoundTrip.kick x
  | boinit x => exact Laws.RoundTrip.boinit x
  | boexp x => exact Laws.RoundTrip.boexp x
  | boarr x => exact Laws.RoundTrip.boarr x
  | bowaitC32 x => exact Laws.RoundTrip.bowaitC32 x
  | bowait x => exact Laws.RoundTrip.bowait x
  | bofree x => exact Laws.RoundTrip.bofree x
  | drain x => exact Laws.RoundTrip.drain x
  | reduce x => exact Laws.RoundTrip.reduce x
  | summ x => exact Laws.RoundTrip.summ x
  | mma x => exact Laws.RoundTrip.mma x
  | rsv x => exact Laws.RoundTrip.rsv x
  | rsvfreeC32 x => exact Laws.RoundTrip.rsvfreeC32 x
  | rsvfree x => exact Laws.RoundTrip.rsvfree x
  | obld x => exact Laws.RoundTrip.obld x
  | accrd x => exact Laws.RoundTrip.accrd x
  | accst x => exact Laws.RoundTrip.accst x
  | acczTake x => exact Laws.RoundTrip.acczTake x
  | acczGive x => exact Laws.RoundTrip.acczGive x
  | acczClr x => exact Laws.RoundTrip.acczClr x
  | resolveC32 x => exact Laws.RoundTrip.resolveC32 x
  | resolve x => exact Laws.RoundTrip.resolve x
  | sqload x => exact Laws.RoundTrip.sqload x
  | sqstart x => exact Laws.RoundTrip.sqstart x
  | sqwait x => exact Laws.RoundTrip.sqwait x
  | sqstat x => exact Laws.RoundTrip.sqstat x
  | sqabort x => exact Laws.RoundTrip.sqabort x
  | msend x => exact Laws.RoundTrip.msend x
  | witn x => exact Laws.RoundTrip.witn x
  | wstatReg x => exact Laws.RoundTrip.wstatReg x
  | wstatAtt x => exact Laws.RoundTrip.wstatAtt x
  | trapC32 x => exact Laws.RoundTrip.trapC32 x
  | trap x => exact Laws.RoundTrip.trap x
  | rteRep x => exact Laws.RoundTrip.rteRep x
  | rteSkip x => exact Laws.RoundTrip.rteSkip x
  | csrr x => exact Laws.RoundTrip.csrr x
  | csrw x => exact Laws.RoundTrip.csrw x
  | halt x => exact Laws.RoundTrip.halt x
  | tlbiAll x => exact Laws.RoundTrip.tlbiAll x
  | tlbiCtx x => exact Laws.RoundTrip.tlbiCtx x
  | tlbiPage x => exact Laws.RoundTrip.tlbiPage x
  | waiti x => exact Laws.RoundTrip.waiti x
  | _ => exact fun h => nomatch h

/-! ## The obligations -/

/-- Settles O1: the laws of the round trip, constructor by constructor. -/
theorem decodeEncode : Obligations.DecodeEncode := roundTrip

/-- Settles O2: each layout's decoder keeps the body, and the body's words are the words it was read from. -/
theorem encodeDecode : Obligations.EncodeDecode := by
  unfold Obligations.EncodeDecode
  intro super w0 rest i n h
  obtain ⟨hread, rfl⟩ := ofWords_of_decodeWords h
  obtain ⟨b, ws, tail, hcode, hwords, rfl, hlen⟩ := body_of_ofWords hread
  have hencode : encode i = w0 :: ws := by
    rw [encode, hcode]
    exact hwords
  rw [hencode, hlen, Nat.add_sub_cancel, List.take_left]
  exact ⟨rfl, rfl⟩

/-- Settles O3: the decoder answers an instruction only past the checks of its mode. -/
theorem decodedHasNoDetail : Obligations.DecodedHasNoDetail := by
  unfold Obligations.DecodedHasNoDetail
  intro super w0 rest i n h
  obtain ⟨hread, hlen⟩ := ofWords_of_decodeWords h
  obtain ⟨b, ws, tail, hcode, -⟩ := body_of_ofWords hread
  exact ⟨Option.isSome_of_mem hcode, detail_of_decodeWords h, hlen⟩

/-- Settles O5: each word is read by evaluating the decoder. -/
theorem decodeWords : Obligations.DecodeWords := by
  unfold Obligations.DecodeWords
  refine ⟨rfl, rfl, rfl, rfl, rfl, rfl, ⟨_, rfl, ?_⟩, rfl⟩
  exact ⟨rfl, rfl, rfl, rfl, rfl, rfl⟩

end Sys2Proof.Proofs.Encoding
end

section
/-!
Control flow (R329 to R343): the decision of a slice, the traps of a full and of a wrong stack, the end of threads, and the control
instructions from their laws.
-/
namespace Sys2Proof.Proofs.Flow
open Sys2Proof.Machine

variable {s : State} {e : Env}

/-- Settles O11: the laws of the four instructions outside bounds mode. -/
theorem nopAndBoundsEndersOnly : Obligations.NopAndBoundsEndersOnly := by
  unfold Obligations.NopAndBoundsEndersOnly
  exact fun s e hs hb => ⟨Flow.nop hs hb, Flow.quarter hs hb, Flow.handoffC32 hs hb, Flow.handoff hs hb⟩

/-! ## The decision of a slice -/

section Decision
variable {i : Nat} {dest : Nat → DWord} {lead : Nat → Bool} {pcd : DWord}

theorem decideSlice_nil (h : e.sliceExec i = []) : e.decideSlice i dest lead pcd false = .fall := by
  rw [Env.decideSlice, h]

theorem decideSlice_whole {d : DWord} (hne : e.sliceExec i ≠ []) (hall : ∀ j ∈ e.sliceExec i, dest j = d) :
    e.decideSlice i dest lead pcd false = .whole d := by
  obtain ⟨l, rest, hcons⟩ := List.exists_cons_of_ne_nil hne
  rw [hcons] at hall
  have hl : dest l = d := hall l List.mem_cons_self
  have hrest : (rest.all fun j => dest j = dest l) = true := by
    rw [List.all_eq_true]
    exact fun j hj => decide_eq_true ((hall j (List.mem_cons_of_mem l hj)).trans hl.symm)
  rw [Env.decideSlice, hcons]
  exact (if_pos hrest).trans (congrArg Decision.whole hl)

/-- The lanes of a slice in ascending order. -/
theorem sliceExec_sorted (e : Env) (i : Nat) : (e.sliceExec i).Pairwise (· < ·) := by
  refine List.Pairwise.filter _ ?_
  simp [laneIds]

/-- The lowest leading lane of an ascending list is the first that is found. -/
theorem find?_lowest {l : List Nat} {j : Nat} (hsorted : l.Pairwise (· < ·)) (hj : j ∈ l) (hlead : lead j = true)
    (hlow : ∀ i ∈ l, i < j → lead i = false) : l.find? lead = some j := by
  induction l with
  | nil => cases hj
  | cons a l ih =>
    obtain ⟨habove, hsorted⟩ := List.pairwise_cons.mp hsorted
    obtain rfl | hj := List.mem_cons.mp hj
    · exact List.find?_cons_of_pos hlead
    · rw [List.find?_cons_of_neg]
      · exact ih hsorted hj fun i hi => hlow i (List.mem_cons_of_mem a hi)
      · simp [hlow a List.mem_cons_self (habove j hj)]

theorem decideSlice_split {j : Nat} (hj : j ∈ e.sliceExec i) (hlead : lead j = true) (hlow : ∀ l ∈ e.sliceExec i, l < j → lead l = false)
    (hother : ∃ l ∈ e.sliceExec i, dest l ≠ dest j) : e.decideSlice i dest lead pcd false =
      .split (dest j) ((e.sliceExec i).filter fun l => dest l = dest j) ((e.sliceExec i).filter fun l => dest l ≠ dest j) pcd false := by
  have hfind := find?_lowest (sliceExec_sorted e i) hj hlead hlow
  obtain ⟨l, rest, hcons⟩ := List.exists_cons_of_ne_nil (List.ne_nil_of_mem hj)
  have hrest : (rest.all fun j => dest j = dest l) = false := by
    rw [hcons] at hj hother
    refine Classical.byContradiction fun hall => ?_
    rw [Bool.not_eq_false, List.all_eq_true] at hall
    have hsame : ∀ k ∈ l :: rest, dest k = dest l := fun k hk =>
      (List.mem_cons.mp hk).elim (congrArg dest) fun hk => of_decide_eq_true (hall k hk)
    obtain ⟨k, hk, hne⟩ := hother
    exact hne ((hsame k hk).trans (hsame j hj).symm)
  rw [hcons] at hfind
  simp only [Env.decideSlice, hcons, hrest, Bool.false_eq_true, if_false, hfind, Bool.false_and]

end Decision

/-- Settles O12: the three cases of R329. -/
theorem sliceDecision : Obligations.SliceDecision := by
  unfold Obligations.SliceDecision
  exact fun e i dest lead pcd => ⟨decideSlice_nil, fun _ => decideSlice_whole, fun _ => decideSlice_split⟩

/-! ## Branches, calls, returns -/

/-- Settles O13: the laws of BR by its guard. -/
theorem branchesSteer : Obligations.BranchesSteer := by
  unfold Obligations.BranchesSteer
  exact fun s e hs hb => ⟨fun _ _ _ => rfl, fun x hu => Flow.brC32_uniform hs hb x hu, fun x hu => Flow.brL64_uniform hs hb x hu,
    fun x hu hroom => Flow.brC32_guarded hs hb x hu hroom, fun x hu hroom => Flow.brL64_guarded hs hb x hu hroom⟩

/-- BRI and CALLI are one course in two forms each. -/
theorem exec_indirect {opc : Nat} {call : Bool} {x : Op} {i : Instr} (h :
    (call = false ∧ opc = 0x03 ∧ ((∃ f : C32R, i = .briC32 f ∧ x = f.op 0) ∨ ∃ f : X96, i = .bri f ∧ x = f.op)) ∨
    (call = true ∧ opc = 0x05 ∧ ((∃ f : C32R, i = .calliC32 f ∧ x = f.op 0) ∨ ∃ f : X96, i = .calli f ∧ x = f.op))) (s : State) :
    exec i s = branchTo s opc call x := by
  obtain ⟨rfl, rfl, ⟨f, rfl, rfl⟩ | ⟨f, rfl, rfl⟩⟩ | ⟨rfl, rfl, ⟨f, rfl, rfl⟩ | ⟨f, rfl, rfl⟩⟩ := h <;> rfl

/-- Settles O14: the law of an indirect branch, in each form. -/
theorem indirectBranchesSteer : Obligations.IndirectBranchesSteer := by
  unfold Obligations.IndirectBranchesSteer
  intro s e hs hb opc call x i hform htrap htargets hroom
  have hgood : (indirectTargets (e.issued s 1 1) (e.issuing s 1 1) opc x).any badTarget = false := by
    rw [List.any_eq_false]
    exact fun a ha => by simp [htargets a ha]
  obtain ⟨v, hgoes, hedit⟩ := branchTo_ok hs hb htrap hgood hroom
  exact steers_of ((exec_indirect hform s).trans hgoes) hedit

/-- Settles O15: the laws of CALL in both forms and of RET. -/
theorem callsAndReturns : Obligations.CallsAndReturns := by
  unfold Obligations.CallsAndReturns
  exact fun s e hs hb => ⟨fun x hroom => Flow.callC32 hs hb x hroom, fun x hroom => Flow.callL64 hs hb x hroom, Flow.ret hs hb⟩

/-- Settles O16: the laws of JOIN and YIELD. -/
theorem joinAndYield : Obligations.JoinAndYield := by
  unfold Obligations.JoinAndYield
  exact fun s e hs hb => ⟨Flow.join hs hb, Flow.yield hs hb⟩

/-! ## The stack traps -/

section Traps
variable (hs : Steady s e) (hb : ElementMode e)
include hs hb

theorem callRel_overflows {x : Op} {w : Nat} (h : ∃ i ∈ e.slices, 16 ≤ (e.stk i).length) :
    callRel s x w = .next ((e.issued s 1 1).takeTrap e.k e.slot e.gid { cls := 6, reason := 1, mask := maskOf e.lanes } x.form.bytes) := by
  unfold callRel Machine.control
  refine issue_trap hs hb (if_pos ?_)
  rw [List.any_eq_true]
  obtain ⟨i, hi, hfull⟩ := h
  exact ⟨i, hi, decide_eq_true hfull⟩

theorem branch_overflows {x : Op} {w : Nat} (hu : unguarded x.g = false) (h : ∃ i ∈ e.slices, 16 ≤ (e.stk i).length ∧
      (brDecision e x.g (relTarget e.pc w x.lit) (e.pc + BitVec.ofNat 64 x.form.bytes) i).pushes = 1) :
    branch s x w = .next ((e.issued s 1 1).takeTrap e.k e.slot e.gid { cls := 6, reason := 1, mask := maskOf e.lanes } x.form.bytes) := by
  unfold branch Machine.control
  refine issue_trap hs hb ?_
  simp only [hu, Bool.false_eq_true, if_false]
  refine if_pos ?_
  rw [List.any_map, List.any_eq_true]
  obtain ⟨i, hi, hfull, hpush⟩ := h
  refine ⟨i, hi, decide_eq_true ?_⟩
  change 16 < (e.stk i).length + (brDecision e x.g (relTarget e.pc w x.lit) (e.pc + BitVec.ofNat 64 x.form.bytes) i).pushes
  rw [hpush]
  exact Nat.lt_succ_of_le hfull

theorem ret_underflows {x : C32R} (h : ∃ i ∈ e.slices, ∀ ra rest, e.stk i ≠ .call ra :: rest) :
    exec (.ret x) s = .next ((e.issued s 1 1).takeTrap e.k e.slot e.gid { cls := 6, reason := 2, mask := maskOf e.lanes } 4) := by
  change execRet x s = _
  unfold execRet Machine.control
  refine issue_trap hs hb (if_neg ?_)
  rw [List.all_eq_true]
  intro hall
  obtain ⟨i, hi, hother⟩ := h
  have hcall := hall i hi
  split at hcall
  case h_1 ra rest htop => exact hother ra rest htop
  case h_2 => cases hcall

theorem join_underflows {x : C32R} (h : ∃ i ∈ e.slices, ∃ ra rest, e.stk i = .call ra :: rest) :
    exec (.join x) s = .next ((e.issued s 1 1).takeTrap e.k e.slot e.gid { cls := 6, reason := 2, mask := maskOf e.lanes } 4) := by
  change execJoin x s = _
  unfold execJoin Machine.control
  refine issue_trap hs hb (if_pos ?_)
  rw [List.any_eq_true]
  obtain ⟨i, hi, ra, rest, htop⟩ := h
  refine ⟨i, hi, ?_⟩
  have htop' : (e.recore ((s.charge e.k e.slot (oneCycle e) 1).core e.k)).stk i = .call ra :: rest := htop
  simp only [htop']

end Traps

/-- Settles O17: each check of R332 and R344, before anything has changed. -/
theorem stackTraps : Obligations.StackTraps := by
  unfold Obligations.StackTraps
  intro s e hs hb
  refine ⟨fun x h => ?callC32, fun x h => ?callL64, fun x hu h => ?branch, fun x h => ret_underflows hs hb h,
    fun x h => join_underflows hs hb h, hs.charged 1 1⟩
  case callC32 => exact callRel_overflows (x := x.op) hs hb h
  case callL64 => exact callRel_overflows (x := x.op 0) hs hb h
  case branch => exact branch_overflows (x := x.op) hs hb hu h

/-! ## REGANG, REGROUP, EXIT, SLEEP, BKPT -/

/-- Settles O18: the laws of REGANG and REGROUP that need no partner. -/
theorem regangAndRegroup : Obligations.RegangAndRegroup := by
  unfold Obligations.RegangAndRegroup
  intro s e hs hb
  refine ⟨fun x hown => Flow.regangC32 hs hb x hown, fun x htrap hown => Flow.regang hs hb x htrap hown, fun hq hgangs hstk => ⟨?c32, ?x96⟩⟩
  case c32 => exact fun x htrap hpartner hgone => Flow.regroupC32 hs hb x htrap hq hpartner hgangs hstk hgone
  case x96 => exact fun x htrap hpartner hgone => Flow.regroup hs hb x htrap hq hpartner hgangs hstk hgone

/-! ### The end of threads -/

/-- A thread that has ended (R340). -/
def Lane.ended (l : Lane) : Lane := { l with live := false, exec := false }

@[simp] theorem Lane.ended_ended (l : Lane) : Lane.ended (Lane.ended l) = Lane.ended l := rfl

theorem modLanes_ended_frame (ls : List Nat) (w : Warp) :
    (w.modLanes ls Lane.ended).vregs = w.vregs ∧ (w.modLanes ls Lane.ended).sq = w.sq := by
  induction ls generalizing w with
  | nil => exact ⟨rfl, rfl⟩
  | cons a ls ih => exact ih (w.modLane a Lane.ended)

theorem lane_modLane_ended {w : Warp} (hw : w.lanes.length = 32) (a j : Nat) :
    (w.modLane a Lane.ended).lane j = if j = a ∧ j < 32 then Lane.ended (w.lane j) else w.lane j := by
  by_cases ha : a < 32
  · rw [lane_modLane_if _ _ _ _ (hw ▸ ha)]
    by_cases hj : j = a
    · subst hj
      simp [ha]
    · simp [hj]
  · have hset : w.modLane a Lane.ended = w := by
      simp [Warp.modLane, List.set_eq_of_length_le (hw ▸ Nat.le_of_not_lt ha)]
    rw [hset, if_neg]
    rintro ⟨rfl, hj⟩
    exact ha hj

theorem lane_modLanes_ended (ls : List Nat) {w : Warp} (hw : w.lanes.length = 32) (j : Nat) :
    (w.modLanes ls Lane.ended).lane j = if j ∈ ls ∧ j < 32 then Lane.ended (w.lane j) else w.lane j := by
  induction ls generalizing w with
  | nil => simp [Warp.modLanes]
  | cons a ls ih =>
    change ((w.modLane a Lane.ended).modLanes ls Lane.ended).lane j = _
    rw [ih (by rw [modLane_lanes_length]; exact hw), lane_modLane_ended hw]
    obtain rfl | hj := Decidable.em (j = a)
    · by_cases hmem : j ∈ ls <;> by_cases hlt : j < 32 <;> simp [hmem, hlt]
    · simp [hj]

/-- The slices among `is` whose running path has no thread are marked (R340). -/
def markEnded (w : Warp) (is : List Nat) : Warp :=
  is.foldl (fun w i => if (laneIds i).any fun j => (w.lane j).exec && (w.lane j).live then w else w.modSlice i fun x => { x with ended := true }) w

/-- Marking slices changes no thread and no register. -/
theorem markEnded_frame (is : List Nat) (w : Warp) :
    (markEnded w is).lanes = w.lanes ∧ (markEnded w is).vregs = w.vregs ∧ (markEnded w is).sq = w.sq := by
  unfold markEnded
  refine List.foldlRecOn (motive := fun v : Warp => v.lanes = w.lanes ∧ v.vregs = w.vregs ∧ v.sq = w.sq) is _ ⟨rfl, rfl, rfl⟩ ?_
  intro v hv i _
  split
  · exact hv
  · exact hv

theorem lowerCounter_warp? (s : State) (u n k slot : Nat) : (s.lowerCounter u n).warp? k slot = s.warp? k slot := by
  unfold State.lowerCounter State.modLaunch
  split <;> rfl

/-- What the end of threads leaves of their warp. -/
theorem endThreads_warp {k slot : Nat} {w : Warp} (ls : List Nat) (hw : s.warp? k slot = some w) (hlen : w.lanes.length = 32) :
    ∃ v, (s.endThreads k slot ls).warp? k slot = some v ∧ v.vregs = w.vregs ∧ v.sq = w.sq ∧
      ∀ j, v.lane j = if j ∈ ls ∧ j < 32 then Lane.ended (w.lane j) else w.lane j := by
  have hmark := markEnded_frame (ls.map (· / 4)).eraseDups (w.modLanes ls Lane.ended)
  obtain ⟨hlanes, hvregs, hsq⟩ := hmark
  obtain ⟨hv, hq⟩ := modLanes_ended_frame ls w
  refine ⟨_, ?_, hvregs.trans hv, hsq.trans hq, fun j => ?_⟩
  · have hmod := warp_modWarp (fun _ => markEnded (w.modLanes ls Lane.ended) (ls.map (· / 4)).eraseDups) hw
    unfold State.endThreads
    rw [hw]
    dsimp only
    split
    · split
      · exact (lowerCounter_warp? ..).trans hmod
      · exact hmod
    · exact hmod
  · refine Eq.trans ?_ (lane_modLanes_ended ls hlen j)
    exact congrArg (fun l => l.getD j {}) hlanes

/-- Settles O19: the laws of EXIT, SLEEP and BKPT, and what the end of threads leaves. -/
theorem exitSleepBreakpoint : Obligations.ExitSleepBreakpoint := by
  unfold Obligations.ExitSleepBreakpoint
  refine fun s e hs hb => ⟨Flow.exit hs hb, fun w ls s1 hw hlen => ?ended, Flow.sleep hs hb, Flow.bkpt hs hb⟩
  case ended =>
    obtain ⟨v, hv, hregs, hsq, hlane⟩ := endThreads_warp ls hw hlen
    refine ⟨v, hv, hregs, hsq, fun j hj hlt => ?_, fun j hj => ?_⟩
    · rw [hlane, if_pos ⟨hj, hlt⟩]
      exact ⟨rfl, rfl⟩
    · rw [hlane, if_neg fun h => hj h.1]

end Sys2Proof.Proofs.Flow
end

section
/-!
Barriers: what an arrival does to a named barrier (R365 to R367), the rectangle barrier (R368), and the barrier-object instructions (R146, R147)
from the laws of their shared courses.
-/
namespace Sys2Proof.Proofs.Barriers
open Sys2Proof.Machine

variable {s : State} {e : Env}

/-! ## Arrivals -/

section Arrival
variable {b : Barrier} {w a count : Nat} {c : Clock}

theorem arrive_outOfRange (h : count = 0 ∨ 16 * w < count) : b.arrive w a count c = .error 2 := if_pos h

theorem arrive_otherCount {n : Nat} (hexp : b.exp = some n) (hne : n ≠ count) : b.arrive w a count c = .error 2 := by
  unfold Barrier.arrive
  split
  · rfl
  · rw [hexp]
    exact if_pos hne.symm

/-- An arrival whose count fits: the branches that are left. -/
theorem arrive_fits (hpos : 0 < count) (hle : count ≤ 16 * w) (hexp : b.exp = none ∨ b.exp = some count) : b.arrive w a count c =
    if count < b.arr + a then .error 3
    else if b.arr + a = count then
      .ok ({ b with exp := none, arr := 0, phase := !b.phase, pend := [], clock := Clock.join b.pend c }, true)
    else .ok ({ b with exp := some count, arr := b.arr + a, pend := Clock.join b.pend c }, false) := by
  have hrange : ¬ (count = 0 ∨ 16 * w < count) := by omega
  have hget : b.exp.getD count = count := by
    obtain hnone | hsome := hexp
    · rw [hnone]; rfl
    · rw [hsome]; rfl
  unfold Barrier.arrive
  rw [if_neg hrange, hget]
  exact if_neg (fun h => h rfl)

end Arrival

/-- Settles O20: the branches of R365. -/
theorem barrierArrival : Obligations.BarrierArrival := by
  unfold Obligations.BarrierArrival
  refine fun b w a count c => ⟨arrive_outOfRange, fun n => arrive_otherCount, fun hpos hle hexp => ⟨fun hover => ?beyond, fun hfull => ?full, fun hpart => ?part⟩⟩ <;>
    rw [arrive_fits hpos hle hexp]
  case beyond => exact if_pos hover
  case full => exact ⟨_, (if_neg (by omega)).trans (if_pos hfull), rfl, rfl, rfl⟩
  case part => exact ⟨_, (if_neg (by omega)).trans (if_neg (by omega)), rfl, rfl, rfl⟩

/-! ## Named barriers -/

/-- A gang with a pending slice waits; one without passes. -/
theorem waitAt_cases {t : State} {e1 : Env} {k slot g id : Nat} (h : t.envOf k slot g = some e1) :
    (e1.warp.pendingAt g id = true → t.waitAt k slot g id = e1.stall (.barrier id) t) ∧
    (e1.warp.pendingAt g id = false → t.waitAt k slot g id = t.modGang k slot g fun x => x.after (e1.warp.passedAt g id)) := by
  unfold State.waitAt
  rw [h]
  obtain ⟨-, -, rfl, -⟩ := env_of_some h
  exact ⟨fun hp => if_pos hp, fun hp => if_neg (by simp [hp])⟩

section Courses
variable (hs : Steady s e) (hb : ElementMode e)
include hs hb

/-- Its course at the cost of one cycle answers a trap. -/
theorem issueOne_traps {len : Nat} {g : Guard} {ev : State → Env → Nat → Bool} {f : List Nat → State → Env → Except Trap State} {t : Trap}
    (h : f [] (e.issued s 1 1) (e.issuing s 1 1) = .error t) :
    issue s len g oneCycle 1 ev f = .next ((e.issued s 1 1).takeTrap e.k e.slot e.gid t len) := issue_trap hs hb h

variable {len id n : Nat} {g : Guard} {count : State → Env → Nat} {q : Barrier × Bool}

/-- An arrival whose count reads no register, or reads one that no register trap stands against. -/
theorem namedBarrier_arrival {wait : Bool} {trap : Env → Option Trap} (ht : trap (e.issuing s 1 1) = none) (hid : id < e.team.barriers.length)
    (hn : n = count (e.issued s 1 1) (e.issuing s 1 1)) (hq : e.warp.sq = []) (ha : (e.team.barriers.getD id {}).arrive e.w e.lanes.length n
      ((e.issuing s 1 1).publish ((e.issued s 1 1).drawn 1)).1 = .ok q) :
    namedBarrier s len g id true wait count trap = .next (if wait then (arrived (e.issued s 1 1) (e.issuing s 1 1) len id q).waitAt e.k e.slot e.gid id
      else arrived (e.issued s 1 1) (e.issuing s 1 1) len id q) := by
  subst hn
  exact namedBarrier_arrives hs hb ht hid ha hq

theorem namedBarrier_badId {wait : Bool} (hid : e.team.barriers.length ≤ id) : namedBarrier s len g id true wait count (fun _ => none) =
    .next ((e.issued s 1 1).takeTrap e.k e.slot e.gid { cls := 7, reason := 1, mask := maskOf e.lanes } len) := by
  unfold namedBarrier Machine.control
  exact issueOne_traps hs hb (if_pos hid)

theorem namedBarrier_badArrival {wait : Bool} {r : Nat} (hid : id < e.team.barriers.length)
    (ha : (e.team.barriers.getD id {}).arrive e.w e.lanes.length (count (e.issued s 1 1) (e.issuing s 1 1)) [] = .error r) :
    namedBarrier s len g id true wait count (fun _ => none) =
      .next ((e.issued s 1 1).takeTrap e.k e.slot e.gid { cls := 7, reason := r, mask := maskOf e.lanes } len) := by
  unfold namedBarrier Machine.control
  refine issueOne_traps hs hb ?_
  have ha' : ((e.issuing s 1 1).team.barriers.getD id {}).arrive (e.issuing s 1 1).w (e.issuing s 1 1).lanes.length
      (count (e.issued s 1 1) (e.issuing s 1 1)) [] = .error r := ha
  have hid' : ¬ (e.issuing s 1 1).team.barriers.length ≤ id := Nat.not_le.mpr hid
  simp only [if_neg hid', not_true_eq_false, if_false, ha']
  rfl

end Courses

/-- Settles O21: the law of an arrival and the law of a wait, in each form. -/
theorem namedBarriers : Obligations.NamedBarriers := by
  unfold Obligations.NamedBarriers
  refine fun s e hs hb id hid => ⟨fun hq n q ha => ⟨fun x hx hn => ?bara32, fun x hx ht hn => ?bara, fun x hx hn => ?bars32, fun x hx ht hn => ?bars⟩,
    fun x hx => ?barw32, fun x hx => ?barw, fun t e1 => waitAt_cases⟩ <;> subst hx
  case bara32 => exact namedBarrier_arrival hs hb (count := countC32 x.op) (trap := fun _ => none) (wait := false) rfl hid hn hq ha
  case bara => exact namedBarrier_arrival hs hb (count := countX 0x10 x.op) (trap := countTrap 0x10 x.op) (wait := false) ht hid hn hq ha
  case bars32 => exact namedBarrier_arrival hs hb (count := countC32 x.op) (trap := fun _ => none) (wait := true) rfl hid hn hq ha
  case bars => exact namedBarrier_arrival hs hb (count := countX 0x12 x.op) (trap := countTrap 0x12 x.op) (wait := true) ht hid hn hq ha
  case barw32 => exact namedBarrier_waits hs hb (count := fun _ _ => 0) (trap := fun _ => none) rfl hid
  case barw => exact namedBarrier_waits hs hb (count := fun _ _ => 0) (trap := fun _ => none) rfl hid

/-- Settles O22: the two checks of R367 before the arrival. -/
theorem barrierTraps : Obligations.BarrierTraps := by
  unfold Obligations.BarrierTraps
  exact fun s e hs hb x => ⟨fun hid => namedBarrier_badId hs hb (count := countC32 x.op) (wait := false) hid,
    fun r hid ha => namedBarrier_badArrival hs hb (count := countC32 x.op) (wait := false) hid ha⟩

/-- Settles O23: the law of RBAR. -/
theorem rectangleBarrier : Obligations.RectangleBarrier := by
  unfold Obligations.RectangleBarrier
  exact fun s e hs hb x l r htrap hlaunch hone hsub hin hclash => Sync.rbar hs hb x htrap hlaunch hone hsub hin hclash

/-! ## Barrier objects -/

/-- What a thread does to an object of its own core. -/
theorem objDo_own {s : State} {e : Env} {c : Clock} {lane a v : Nat} {p : Nat × Nat} (h : objAddr s e a = .ok p) (hp : p.1 = e.k) :
    objDo e .init c s (lane, a, v) = s.tagObj p v ∧ objDo e .expect c s (lane, a, v) = s.updateObj p (.expect v) c ∧
    objDo e .arrive c s (lane, a, v) = s.updateObj p (.arrive v) c ∧ objDo e .free c s (lane, a, v) = s.untagObj p := by
  simp only [objDo, h, hp, if_true, and_self]

/-- Settles O25: the law of the shared course, and the effect on an object of the own core. -/
theorem objectInstructions : Obligations.ObjectInstructions := by
  unfold Obligations.ObjectInstructions
  refine ⟨?_, fun s e c lane a v p => objDo_own⟩
  rintro s e hs hb x opc op i hi hact htrap s1 e1 rfl rfl hcheck hq
  have hexec : exec i s = objInstr s opc op x.op := by
    simp only [List.mem_cons, Prod.mk.injEq, List.not_mem_nil, or_false] at hi
    obtain ⟨rfl, rfl, rfl⟩ | ⟨rfl, rfl, rfl⟩ | ⟨rfl, rfl, rfl⟩ | ⟨rfl, rfl, rfl⟩ := hi <;> rfl
  exact hexec.trans (objInstr_ok hs hb hact htrap hcheck hq)

/-- Settles O26: the laws of BOWAIT.try and of BOWAIT. -/
theorem objectWaits : Obligations.ObjectWaits := by
  unfold Obligations.ObjectWaits
  rintro s e hs hb x i hform s1 e1 rfl rfl htrap hbad
  have hexec : exec i s = bowait s x := by
    obtain ⟨f, rfl, rfl⟩ | ⟨f, rfl, rfl⟩ := hform <;> rfl
  rw [hexec]
  refine ⟨fun h7 hact => bowait_try hs hb h7 hact htrap hbad, fun h7 hwho hleft => ?_, fun h7 hwho t l hleft => ?_⟩
  · rw [bowait_ok hs hb h7 hwho htrap hbad, hleft]
  · rw [bowait_ok hs hb h7 hwho htrap hbad, hleft]

end Sys2Proof.Proofs.Barriers
end

section
/-!
Integer types: Fit and the register patterns (R75, R239), and what the integer, bitwise and shift instructions leave (R242 to R247).
-/
namespace Sys2Proof.Proofs.Integers
open Sys2Proof.Machine

/-! ## An exact integer reduced to a type -/

theorem tyBits_pos (t : Nat) : 0 < tyBits t := by
  unfold tyBits
  repeat' split
  all_goals decide

theorem tyBits_le_tyRegs (t : Nat) : tyBits t ≤ tyRegs t := by
  unfold tyBits tyRegs
  repeat' split
  all_goals omega

theorem int_two_pow_pos (w : Nat) : (0 : Int) < 2 ^ w := Int.pow_pos (by decide)

theorem sIntOf_eq_bmod {w : Nat} (hw : 0 < w) (n : Nat) : sIntOf w n = Int.bmod n (2 ^ w) := by
  obtain ⟨k, rfl⟩ := Nat.exists_eq_add_one_of_ne_zero (Nat.ne_of_gt hw)
  have hmod : (n : Int) % ((2 ^ (k + 1) : Nat) : Int) = (n % 2 ^ (k + 1) : Nat) := by push_cast; rfl
  have hpow : 2 ^ (k + 1) = 2 * 2 ^ k := Nat.pow_succ'
  unfold sIntOf Int.bmod
  rw [hmod, Nat.add_sub_cancel]
  generalize n % 2 ^ (k + 1) = r
  rw [hpow]
  generalize 2 ^ k = m
  dsimp only
  split <;> split <;> omega

theorem wrapNat_cast (w : Nat) (v : Int) : (wrapNat w v : Int) = v % 2 ^ w := by
  unfold wrapNat
  rw [Int.toNat_of_nonneg (Int.emod_nonneg _ (Int.ne_of_gt (Int.natCast_pos.mpr (Nat.two_pow_pos w))))]
  push_cast
  rfl

theorem wrapNat_lt (w : Nat) (v : Int) : wrapNat w v < 2 ^ w := by
  have hlt := Int.emod_lt_of_pos v (b := 2 ^ w) (int_two_pow_pos w)
  rw [← wrapNat_cast] at hlt
  exact_mod_cast hlt

/-- An exact integer modulo 2^w, as the type reads it. -/
def wrapTo (t : Nat) (v : Int) : Int := if tySigned t then v.bmod (2 ^ tyBits t) else v % 2 ^ tyBits t

theorem intOf_wrapNat {t r : Nat} (hr : tyBits t ≤ r) (v : Int) : intOf t (wrapNat r v) = wrapTo t v := by
  have hdvd : ((2 ^ tyBits t : Nat) : Int) ∣ 2 ^ r := by exact_mod_cast Nat.pow_dvd_pow 2 hr
  unfold intOf wrapTo
  split
  · rw [sIntOf_eq_bmod (tyBits_pos t), wrapNat_cast, Int.bmod_def, Int.bmod_def, Int.emod_emod_of_dvd _ hdvd]
  · push_cast at hdvd ⊢
    rw [wrapNat_cast, Int.emod_emod_of_dvd _ hdvd]

theorem intOf_eq_wrapTo (t n : Nat) : intOf t n = wrapTo t n := by
  unfold intOf wrapTo
  split
  · exact sIntOf_eq_bmod (tyBits_pos t) n
  · push_cast
    rfl

theorem wrapTo_dvd (t : Nat) (v : Int) : ((2 ^ tyBits t : Nat) : Int) ∣ wrapTo t v - v := by
  unfold wrapTo
  split
  · exact Int.dvd_bmod_sub_self
  · push_cast
    exact Int.dvd_emod_sub_self

theorem two_pow_tyBits (t : Nat) : (2 : Int) ^ tyBits t = 2 * 2 ^ (tyBits t - 1) := by
  rw [← Int.pow_succ', Nat.sub_add_cancel (tyBits_pos t)]

theorem wrapTo_mem (t : Nat) (v : Int) : intMin t ≤ wrapTo t v ∧ wrapTo t v ≤ intMax t := by
  have hpow := two_pow_tyBits t
  have hpos : (0 : Int) < 2 ^ (tyBits t - 1) := int_two_pow_pos _
  unfold wrapTo intMin intMax
  push_cast
  split
  · have hlow := Int.le_bmod (x := v) (m := 2 ^ tyBits t) (Nat.two_pow_pos _)
    have hhigh := Int.bmod_lt (x := v) (m := 2 ^ tyBits t) (Nat.two_pow_pos _)
    push_cast at hlow hhigh
    omega
  · have hlow := Int.emod_nonneg v (b := 2 ^ tyBits t) (Int.ne_of_gt (int_two_pow_pos _))
    have hhigh := Int.emod_lt_of_pos v (b := 2 ^ tyBits t) (int_two_pow_pos _)
    omega

theorem wrapTo_of_mem {t : Nat} {v : Int} (hlow : intMin t ≤ v) (hhigh : v ≤ intMax t) : wrapTo t v = v := by
  obtain ⟨hwlow, hwhigh⟩ := wrapTo_mem t v
  have hrange : intMax t - intMin t < 2 ^ tyBits t := by
    have hpow := two_pow_tyBits t
    unfold intMin intMax
    push_cast
    split <;> omega
  obtain ⟨q, hq⟩ := wrapTo_dvd t v
  push_cast at hq
  have hzero : wrapTo t v - v = 0 := by
    refine Int.natAbs_eq_zero.mp (Nat.eq_zero_of_dvd_of_lt (Int.natAbs_dvd_natAbs.mpr ⟨q, hq⟩) ?_)
    omega
  omega

theorem intBits_eq (t : Nat) (v : Int) : intBits t v = wrapNat (tyRegs t) (wrapTo t v) := by
  rw [← intOf_wrapNat (Nat.le_refl _)]
  unfold intBits intOf
  split
  · rfl
  · rw [Nat.mod_eq_of_lt (wrapNat_lt ..)]

theorem wrapTo_wrapTo (t : Nat) (v : Int) : wrapTo t (wrapTo t v) = wrapTo t v :=
  wrapTo_of_mem (wrapTo_mem t v).1 (wrapTo_mem t v).2

theorem intBits_wrapTo (t : Nat) (v : Int) : intBits t (wrapTo t v) = intBits t v := by
  rw [intBits_eq, intBits_eq, wrapTo_wrapTo]

theorem intBits_lt (t : Nat) (v : Int) : intBits t v < 2 ^ tyRegs t := wrapNat_lt _ _

/-! ## Fit -/

theorem fit_wraps (t : Nat) (v : Int) : fit t false v = (wrapTo t v, 0) := by
  unfold fit
  rw [if_neg (by simp), intOf_wrapNat (Nat.le_refl _)]

theorem fit_of_mem {t : Nat} {sat : Bool} {v : Int} (hlow : intMin t ≤ v) (hhigh : v ≤ intMax t) : fit t sat v = (v, 0) := by
  cases sat
  · rw [fit_wraps, wrapTo_of_mem hlow hhigh]
  · unfold fit
    rw [if_pos rfl, if_neg (by omega), if_neg (by omega)]

theorem intMin_le_intMax (t : Nat) : intMin t ≤ intMax t := by
  have := wrapTo_mem t 0
  omega

/-- Settles O30: reduction to the type is the identity in its range, lies in it and is congruent. -/
theorem fitRule : Obligations.FitRule := by
  unfold Obligations.FitRule
  intro t _ sat v
  refine ⟨fun hlow hhigh => ⟨fit_of_mem hlow hhigh, ?read, intBits_lt t v⟩, fun _ => ?wraps, fun hlow => ?least, fun hhigh => ?most⟩
  case read => rw [intBits_eq, intOf_wrapNat (tyBits_le_tyRegs t), wrapTo_wrapTo, wrapTo_of_mem hlow hhigh]
  case wraps =>
    rw [fit_wraps]
    exact ⟨rfl, (wrapTo_mem t v).1, (wrapTo_mem t v).2, wrapTo_dvd t v⟩
  case least =>
    unfold fit
    rw [if_pos rfl, if_pos hlow]
  case most =>
    have hmin := intMin_le_intMax t
    unfold fit
    rw [if_pos rfl, if_neg (by omega), if_pos hhigh]

/-! ## Results -/

theorem fitFR_bits (t : Nat) (sat : Bool) (v : Int) : (fitFR t sat v).bits = intBits t (fit t sat v).1 := rfl

theorem fitFR_bits_mod (t : Nat) (sat : Bool) (v : Int) : (fitFR t sat v).bits % 2 ^ tyRegs t = intBits t (fit t sat v).1 :=
  Nat.mod_eq_of_lt (intBits_lt t _)

/-- Fit without SAT leaves the pattern that the exact value has. -/
theorem fitFR_wraps_mod (t : Nat) (v : Int) : (fitFR t false v).bits % 2 ^ tyRegs t = intBits t v := by
  rw [fitFR_bits_mod, fit_wraps, intBits_wrapTo]

/-- Settles O31: the element operation of each instruction. -/
theorem integerResults : Obligations.IntegerResults := by
  unfold Obligations.IntegerResults
  refine ⟨fun x t ht => ?iadd, fun x t ht => ?isub, fun x t ht => ?imul, fun x t ht => ?ineg, fun x t ht => ?imin, fun x t ht => ?imax⟩ <;> subst ht
  case iadd => exact resultIn_int (cnt := false) (op := .iadd) (b := none) (fun _ => rfl) rfl (tyRegs_or _) (by decide) fun _ => fitFR_bits_mod ..
  case isub => exact resultIn_int (cnt := false) (op := .isub) (b := none) (fun _ => rfl) rfl (tyRegs_or _) (by decide) fun _ => fitFR_bits_mod ..
  case imul => exact resultIn_int (cnt := false) (op := .imul) (b := none) (fun _ => rfl) rfl (tyRegs_or _) (by decide) fun _ => fitFR_bits_mod ..
  case ineg => exact resultIn_int (cnt := false) (op := .ineg) (b := none) (fun _ => rfl) rfl (tyRegs_or _) (by decide) fun _ => fitFR_bits_mod ..
  case imin => exact resultIn_int (cnt := false) (op := .imin) (b := none) (fun _ => rfl) rfl (tyRegs_or _) (by decide) fun _ => fitFR_wraps_mod ..
  case imax => exact resultIn_int (cnt := false) (op := .imax) (b := none) (fun _ => rfl) rfl (tyRegs_or _) (by decide) fun _ => fitFR_wraps_mod ..

/-! ### Bits and shifts -/

theorem tyBits_word {t : Nat} (ht : t = 0 ∨ t = 4) : tyBits t = tyRegs t := by
  obtain rfl | rfl := ht <;> rfl

section Bitwise
variable {op : IOp} {t op7 lut a b c : Nat} {sat : Bool} (ht : t = 0 ∨ t = 4)
include ht

theorem iElem_and : (iElem .land t op7 lut sat a b c).bits % 2 ^ tyRegs t = a % 2 ^ tyRegs t &&& b % 2 ^ tyRegs t := by
  rw [← tyBits_word ht]
  exact Nat.mod_eq_of_lt (Nat.and_lt_two_pow _ (Nat.mod_lt _ (Nat.two_pow_pos _)))

theorem iElem_or : (iElem .lor t op7 lut sat a b c).bits % 2 ^ tyRegs t = a % 2 ^ tyRegs t ||| b % 2 ^ tyRegs t := by
  rw [← tyBits_word ht]
  exact Nat.mod_eq_of_lt (Nat.or_lt_two_pow (Nat.mod_lt _ (Nat.two_pow_pos _)) (Nat.mod_lt _ (Nat.two_pow_pos _)))

theorem iElem_xor : (iElem .lxor t op7 lut sat a b c).bits % 2 ^ tyRegs t = a % 2 ^ tyRegs t ^^^ b % 2 ^ tyRegs t := by
  rw [← tyBits_word ht]
  exact Nat.mod_eq_of_lt (Nat.xor_lt_two_pow (Nat.mod_lt _ (Nat.two_pow_pos _)) (Nat.mod_lt _ (Nat.two_pow_pos _)))

theorem iElem_not : (iElem .lnot t op7 lut sat a b c).bits % 2 ^ tyRegs t = 2 ^ tyRegs t - 1 - a % 2 ^ tyRegs t := by
  rw [← tyBits_word ht]
  refine Nat.mod_eq_of_lt (?_ : 2 ^ tyBits t - 1 - a % 2 ^ tyBits t < _)
  have := Nat.two_pow_pos (tyBits t)
  omega

theorem iElem_shl : (iElem .shl t op7 lut sat a b c).bits % 2 ^ tyRegs t =
    if b % 2 ^ 32 < tyRegs t then a % 2 ^ tyRegs t * 2 ^ (b % 2 ^ 32) % 2 ^ tyRegs t else 0 := by
  rw [← tyBits_word ht]
  change (if b % 2 ^ 32 < tyBits t then _ else 0) % _ = _
  split
  · exact Nat.mod_mod ..
  · rfl

theorem iElem_shr : (iElem .shr t op7 lut sat a b c).bits % 2 ^ tyRegs t =
    if b % 2 ^ 32 < tyRegs t then a % 2 ^ tyRegs t / 2 ^ (b % 2 ^ 32) else 0 := by
  rw [← tyBits_word ht]
  change (if b % 2 ^ 32 < tyBits t then _ else 0) % _ = _
  split
  · exact Nat.mod_eq_of_lt (Nat.lt_of_le_of_lt (Nat.div_le_self ..) (Nat.mod_lt _ (Nat.two_pow_pos _)))
  · rfl

end Bitwise

/-- The literal of a bitwise operand, whose types are unsigned. -/
theorem tySigned_word {t : Nat} (ht : t = 0 ∨ t = 4) : tySigned t = false := by
  obtain rfl | rfl := ht <;> rfl

/-- Settles O32: the element operation of each instruction on words of 32 or 64 bits. -/
theorem bitwiseAndShiftResults : Obligations.BitwiseAndShiftResults := by
  unfold Obligations.BitwiseAndShiftResults
  refine ⟨fun x ht w l hw hl => ?long, fun x ht w hw => ?x96⟩
  case long =>
    subst hw hl
    rw [← tySigned_word ht]
    refine ⟨?and, ?or, ?xor⟩
    case and => exact resultIn_int (cnt := false) (op := .land) (b := none) (fun _ => rfl) rfl (tyRegs_or _) (by decide) fun _ => iElem_and ht
    case or => exact resultIn_int (cnt := false) (op := .lor) (b := none) (fun _ => rfl) rfl (tyRegs_or _) (by decide) fun _ => iElem_or ht
    case xor => exact resultIn_int (cnt := false) (op := .lxor) (b := none) (fun _ => rfl) rfl (tyRegs_or _) (by decide) fun _ => iElem_xor ht
  case x96 =>
    subst hw
    refine ⟨?not, ?shl, ?shr⟩
    case not =>
      rw [← tySigned_word ht]
      exact resultIn_int (cnt := false) (op := .lnot) (b := none) (fun _ => rfl) rfl (tyRegs_or _) (by decide) fun _ => iElem_not ht
    case shl => exact resultIn_int (cnt := true) (op := .shl) (b := none) (fun _ => rfl) rfl (tyRegs_or _) (by decide) fun _ => iElem_shl ht
    case shr => exact resultIn_int (cnt := true) (op := .shr) (b := none) (fun _ => rfl) rfl (tyRegs_or _) (by decide) fun _ => iElem_shr ht

end Sys2Proof.Proofs.Integers
end

section
/-!
Floating values: a represented value rounds to its own code (R80), and what the floating instructions leave (R266, R270, R272).
-/
namespace Sys2Proof.Proofs.Floats
open Sys2Proof.Machine

/-! ## Codes -/

section Codes
variable {f : Fmt} {c m : Nat} {n : Bool} {e : Int}

/-- The formats of R76 and R77. -/
def formats : List Fmt := [fp64, fp32, fp16, bf16, e5m2, e4m3, e2m1]

/-- The shape of a format's codes: below the sign bit lie an exponent and a mantissa, and finite codes go up to `maxCode`. -/
structure Shaped (f : Fmt) : Prop where
  mantissa : f.p ≤ f.w - 1
  width : 0 < f.w
  subnormal : 2 ^ f.p ≤ f.maxCode + 1
  infinite : f.hasInf = true → f.maxCode + 1 = (2 ^ (f.w - 1 - f.p) - 1) * 2 ^ f.p
  finite : f.hasInf = false → 2 ^ (f.w - 1) ≤ f.maxCode + 1 ∨ f.w = 8 ∧ 2 ^ (f.w - 1) = f.maxCode + 2 ∧ f.maxCode + 1 = 0x7F

theorem shaped (hf : f ∈ formats) : Shaped f := by
  simp only [formats, List.mem_cons, List.not_mem_nil, or_false] at hf
  obtain rfl | rfl | rfl | rfl | rfl | rfl | rfl := hf <;> constructor <;> decide

/-- A code is its sign on its magnitude. -/
theorem withSign_magCode (hw : 0 < f.w) (hc : c < 2 ^ f.w) : withSign f (signBit f c) (magCode f c) = c := by
  have hpow : 2 ^ f.w = 2 ^ (f.w - 1) * 2 := by rw [← Nat.pow_succ, Nat.succ_eq_add_one, Nat.sub_add_cancel hw]
  have hdiv := Nat.div_add_mod c (2 ^ (f.w - 1))
  have hlt : c / 2 ^ (f.w - 1) < 2 := Nat.div_lt_of_lt_mul (hpow ▸ hc)
  unfold withSign signBit magCode
  rw [Nat.shiftRight_eq_div_pow]
  obtain h | h := Nat.le_one_iff_eq_zero_or_eq_one.mp (Nat.le_of_lt_succ hlt)
  · rw [h] at hdiv ⊢
    simpa using hdiv
  · rw [h] at hdiv ⊢
    simpa using hdiv

/-- A magnitude is its exponent over its mantissa. -/
theorem magCode_eq (hp : f.p ≤ f.w - 1) (c : Nat) : magCode f c = magCode f c / 2 ^ f.p * 2 ^ f.p + c % 2 ^ f.p := by
  have hmod : magCode f c % 2 ^ f.p = c % 2 ^ f.p := Nat.mod_mod_of_dvd _ (Nat.pow_dvd_pow 2 hp)
  rw [← hmod, Nat.div_add_mod']

/-- What a code of a finite value decodes to, by its exponent field. -/
theorem fDecode_fin (h : fDecode f c = .fin n m e) : n = signBit f c ∧
    ¬ (f.hasInf = true ∧ magCode f c / 2 ^ f.p = 2 ^ (f.w - 1 - f.p) - 1) ∧ ¬ (f.w = 8 ∧ f.hasInf = false ∧ magCode f c = 0x7F) ∧
    (magCode f c / 2 ^ f.p = 0 ∧ m = c % 2 ^ f.p ∧ e = 1 - (f.bias : Int) - f.p ∨
     magCode f c / 2 ^ f.p ≠ 0 ∧ m = 2 ^ f.p + c % 2 ^ f.p ∧ e = (magCode f c / 2 ^ f.p : Nat) - (f.bias : Int) - f.p) := by
  unfold fDecode at h
  simp only at h
  split at h
  case isTrue => split at h <;> cases h
  case isFalse hinf =>
    split at h
    case isTrue => cases h
    case isFalse hnan =>
      refine ⟨?_, hinf, fun hx => hnan ⟨hx.1, by simp [hx.2.1], hx.2.2⟩, ?_⟩
      · split at h <;> exact (Fx.fin.inj h).1.symm
      · split at h
        case isTrue hzero =>
          obtain ⟨-, rfl, rfl⟩ := Fx.fin.inj h
          exact .inl ⟨hzero, rfl, rfl⟩
        case isFalse hnormal =>
          obtain ⟨-, rfl, rfl⟩ := Fx.fin.inj h
          exact .inr ⟨hnormal, rfl, rfl⟩

/-- The code of a finite value is no greater than the format's largest. -/
theorem magCode_le (hf : Shaped f) (h : fDecode f c = .fin n m e) : magCode f c ≤ f.maxCode := by
  obtain ⟨-, hinf, hnan, -⟩ := fDecode_fin h
  have hlt : magCode f c < 2 ^ (f.w - 1) := Nat.mod_lt _ (Nat.two_pow_pos _)
  cases hi : f.hasInf
  case false =>
    obtain hmax | ⟨hw, hmax, hseven⟩ := hf.finite hi
    · omega
    · have : magCode f c ≠ 0x7F := fun hx => hnan ⟨hw, hi, hx⟩
      omega
  case true =>
    have hexp : magCode f c / 2 ^ f.p < 2 ^ (f.w - 1 - f.p) := by
      refine Nat.div_lt_of_lt_mul ?_
      rwa [← Nat.pow_add, Nat.add_sub_cancel' hf.mantissa]
    have hne : magCode f c / 2 ^ f.p ≠ 2 ^ (f.w - 1 - f.p) - 1 := fun hx => hinf ⟨hi, hx⟩
    have hmag : magCode f c < (2 ^ (f.w - 1 - f.p) - 1) * 2 ^ f.p := by
      rw [← Nat.div_lt_iff_lt_mul (Nat.two_pow_pos _)]
      omega
    have := hf.infinite hi
    omega

/-! ## Rounding a represented value -/

theorem bitLen_le {m p : Nat} (h : m < 2 ^ p) : bitLen m ≤ p := by
  unfold bitLen
  split
  · exact Nat.zero_le _
  · next hm => exact (Nat.log2_lt hm).mpr h

theorem bitLen_normal {r p : Nat} (h : r < 2 ^ p) : bitLen (2 ^ p + r) = p + 1 := by
  have hpos := Nat.two_pow_pos p
  have hne : 2 ^ p + r ≠ 0 := by omega
  unfold bitLen
  rw [if_neg hne]
  congr 1
  exact (Nat.log2_eq_iff hne).mpr ⟨by omega, by rw [Nat.pow_succ]; omega⟩

/-- A magnitude that is a multiple of the quantum where it lies, and no greater than the largest, rounds to its own code. -/
theorem roundTo_on_grid {mode q : Nat} {sat : Bool} (hm : m ≠ 0)
    (hgrid : (if e + bitLen m - 1 < 1 - (f.bias : Int) then 1 - (f.bias : Int) else e + bitLen m - 1) - f.p = e)
    (hcode : (e + f.p + f.bias) * (2 ^ f.p : Nat) + m - (2 ^ f.p : Nat) = (c : Int)) (hle : c ≤ f.maxCode) :
    roundTo f mode sat q { neg := n, m := m, e := e } = { bits := withSign f n c, fl := 0 } := by
  unfold roundTo
  simp only [hm, false_and, if_false, hgrid]
  have hround : roundAt mode q { neg := n, m := m, e := e } e = (m, false) := by simp [roundAt]
  simp only [hround, hcode, Int.toNat_natCast, if_neg (Nat.not_lt.mpr hle), Bool.false_eq_true, and_false, if_false]

/-- Settles O34: a represented value is a multiple of its quantum. -/
theorem representableRoundsToItself : Obligations.RepresentableRoundsToItself := by
  unfold Obligations.RepresentableRoundsToItself
  intro f hf mode q sat c n m e hc hdec
  have hshape := shaped hf
  have hle := magCode_le hshape hdec
  have hmag := magCode_eq hshape.mantissa c
  have hlt : c % 2 ^ f.p < 2 ^ f.p := Nat.mod_lt _ (Nat.two_pow_pos _)
  obtain ⟨rfl, -, -, hcase⟩ := fDecode_fin hdec
  generalize magCode f c / 2 ^ f.p = ef at hmag hcase
  have hcode := withSign_magCode hshape.width hc
  by_cases hm : m = 0
  case pos =>
    subst hm
    have hzero : magCode f c = 0 := by
      obtain ⟨hexp, hmant, -⟩ | ⟨-, hmant, -⟩ := hcase
      · rw [hexp] at hmag
        omega
      · omega
    rw [hzero] at hcode
    simp [roundTo, hcode]
  case neg =>
    refine (roundTo_on_grid (c := magCode f c) hm ?_ ?_ hle).trans (by rw [hcode])
    · obtain ⟨hexp, rfl, rfl⟩ | ⟨hexp, rfl, rfl⟩ := hcase
      · have := bitLen_le hlt
        rw [if_pos (by omega)]
      · rw [bitLen_normal hlt, if_neg (by omega)]
        omega
    · obtain ⟨hexp, rfl, rfl⟩ | ⟨hexp, rfl, rfl⟩ := hcase
      · rw [hexp] at hmag
        have hone : (1 - (f.bias : Int) - f.p + f.p + f.bias) = 1 := by omega
        rw [hone]
        omega
      · have hexponent : ((ef : Int) - f.bias - f.p + f.p + f.bias) = ef := by omega
        rw [hexponent, hmag]
        push_cast
        omega

end Codes

/-! ## Results fit their registers -/

section Fits
variable {f : Fmt} {mode : Nat} {sat : Bool}

theorem bits_ite_lt {p : Prop} [Decidable p] {x y : FR} {b : Nat} (hx : p → x.bits < b) (hy : ¬ p → y.bits < b) : (if p then x else y).bits < b := by
  split
  · exact hx ‹_›
  · exact hy ‹_›

/-- The codes of a format fit its width, infinity's among them. -/
structure Fits (f : Fmt) : Prop where
  width : 0 < f.w
  infinity : f.maxCode + 1 < 2 ^ (f.w - 1)
  nan : f.qnan < 2 ^ f.w

theorem fits_fp32 : Fits fp32 := ⟨by decide, by decide, by decide⟩
theorem fits_fp64 : Fits fp64 := ⟨by decide, by decide, by decide⟩

variable (hf : Fits f)
include hf

theorem withSign_lt {mag : Nat} (n : Bool) (h : mag < 2 ^ (f.w - 1)) : withSign f n mag < 2 ^ f.w := by
  have hpow : 2 ^ f.w = 2 ^ (f.w - 1) * 2 := by rw [← Nat.pow_succ, Nat.succ_eq_add_one, Nat.sub_add_cancel hf.width]
  unfold withSign
  split <;> omega

theorem withSign_maxCode_lt (n : Bool) : withSign f n f.maxCode < 2 ^ f.w :=
  withSign_lt hf n (by have := hf.infinity; omega)

theorem withSign_infCode_lt (n : Bool) : withSign f n (infCode f) < 2 ^ f.w := withSign_lt hf n hf.infinity

theorem withSign_largest_lt (n toInf : Bool) : withSign f n (if toInf then infCode f else f.maxCode) < 2 ^ f.w := by
  cases toInf
  · exact withSign_maxCode_lt hf n
  · exact withSign_infCode_lt hf n

theorem roundInf_lt (n : Bool) : (roundInf f sat n).bits < 2 ^ f.w := by
  unfold roundInf
  split
  · exact withSign_maxCode_lt hf n
  · exact withSign_infCode_lt hf n

theorem overflow_lt (n : Bool) : (overflow f mode sat n).bits < 2 ^ f.w := by
  unfold overflow
  split
  · exact withSign_maxCode_lt hf n
  · exact withSign_largest_lt hf n _

theorem roundTo_lt {q : Nat} {v : Ex} : (roundTo f mode sat q v).bits < 2 ^ f.w := by
  unfold roundTo
  split
  · exact withSign_lt hf _ (Nat.two_pow_pos _)
  · refine bits_ite_lt (fun _ => overflow_lt hf _) fun hle => withSign_lt hf _ ?_
    have := hf.infinity
    omega

theorem fAddX_lt (a b : Fx) : (fAddX f mode sat a b).bits < 2 ^ f.w := by
  unfold fAddX
  split
  · exact hf.nan
  · exact hf.nan
  · split
    · exact roundInf_lt hf _
    · exact hf.nan
  · exact roundInf_lt hf _
  · exact roundInf_lt hf _
  · exact roundTo_lt hf

theorem fMulX_lt (a b : Fx) : (fMulX f mode sat a b).bits < 2 ^ f.w := by
  unfold fMulX
  split
  · exact hf.nan
  · exact hf.nan
  · exact roundInf_lt hf _
  · split
    · exact hf.nan
    · exact roundInf_lt hf _
  · split
    · exact hf.nan
    · exact roundInf_lt hf _
  · exact roundTo_lt hf

theorem fFmaX_lt (a b c : Fx) : (fFmaX f mode sat a b c).bits < 2 ^ f.w := by
  unfold fFmaX
  dsimp only
  split
  · exact hf.nan
  · exact fAddX_lt hf _ _

end Fits

/-! ## The floating instructions -/

section Elements
variable {t mode op7 a b c : Nat} {sat : Bool} (ht : t = 5 ∨ t = 6)
include ht

theorem fits_fmtOf : Fits (fmtOf t) := by
  obtain rfl | rfl := ht
  · exact fits_fp32
  · exact fits_fp64

theorem tyRegs_eq_width : tyRegs t = (fmtOf t).w := by
  obtain rfl | rfl := ht <;> rfl

theorem fElem_add : (fElem .add t mode sat op7 a b c).bits % 2 ^ tyRegs t =
    (fAddX (fmtOf t) mode sat (fDecode (fmtOf t) (a % 2 ^ tyRegs t)) (fDecode (fmtOf t) (b % 2 ^ tyRegs t))).bits := by
  rw [tyRegs_eq_width ht]
  exact Nat.mod_eq_of_lt (fAddX_lt (fits_fmtOf ht) _ _)

theorem fElem_mul : (fElem .mul t mode sat op7 a b c).bits % 2 ^ tyRegs t =
    (fMulX (fmtOf t) mode sat (fDecode (fmtOf t) (a % 2 ^ tyRegs t)) (fDecode (fmtOf t) (b % 2 ^ tyRegs t))).bits := by
  rw [tyRegs_eq_width ht]
  exact Nat.mod_eq_of_lt (fMulX_lt (fits_fmtOf ht) _ _)

theorem fElem_fma : (fElem .fma t mode sat op7 a b c).bits % 2 ^ tyRegs t = (fFmaX (fmtOf t) mode sat (fDecode (fmtOf t) (a % 2 ^ tyRegs t))
      (fDecode (fmtOf t) (b % 2 ^ tyRegs t)) (fDecode (fmtOf t) (c % 2 ^ tyRegs t))).bits := by
  rw [tyRegs_eq_width ht]
  exact Nat.mod_eq_of_lt (fFmaX_lt (fits_fmtOf ht) _ _ _)

/-- FABS clears the sign bit. -/
theorem fElem_abs : (fElem .fabs t mode sat op7 a b c).bits % 2 ^ tyRegs t = a % 2 ^ (tyRegs t - 1) := by
  change a % 2 ^ ((fmtOf t).w - 1) % 2 ^ tyRegs t = _
  obtain rfl | rfl := ht
  · change a % 2 ^ 31 % 2 ^ 32 = a % 2 ^ 31
    omega
  · change a % 2 ^ 63 % 2 ^ 64 = a % 2 ^ 63
    omega

/-- FNEG inverts the sign bit. -/
theorem fElem_neg : (fElem .fneg t mode sat op7 a b c).bits % 2 ^ tyRegs t = (a + 2 ^ (tyRegs t - 1)) % 2 ^ tyRegs t := by
  change withSign (fmtOf t) (!signBit (fmtOf t) a) (magCode (fmtOf t) a) % 2 ^ tyRegs t = _
  unfold withSign signBit magCode
  rw [Nat.shiftRight_eq_div_pow]
  obtain rfl | rfl := ht
  · change (if (!decide (a / 2 ^ 31 % 2 = 1)) = true then 2 ^ 31 + a % 2 ^ 31 else a % 2 ^ 31) % 2 ^ 32 = (a + 2 ^ 31) % 2 ^ 32
    split <;> simp_all <;> omega
  · change (if (!decide (a / 2 ^ 63 % 2 = 1)) = true then 2 ^ 63 + a % 2 ^ 63 else a % 2 ^ 63) % 2 ^ 64 = (a + 2 ^ 63) % 2 ^ 64
    split <;> simp_all <;> omega

end Elements

/-- Settles O33: the element operation of each instruction, and the invalid operations and NaN operands. -/
theorem floatResults : Obligations.FloatResults := by
  unfold Obligations.FloatResults
  refine ⟨fun x ht f w l hf hw hl => ?results, fun f _ mode sat => ⟨fun n => ?infs, fun n e b => ?zeroInf, fun y => ?signalling, ?quiet⟩⟩
  case results =>
    subst hf hw hl
    refine ⟨?add, ?mul, ?fma, ?abs, ?neg⟩
    case add => exact resultIn_float (op := .add) (b := none) (fun _ => rfl) rfl (tyRegs_or _) (by decide) (fun _ _ => fElem_add ht) fun _ _ _ => rfl
    case mul => exact resultIn_float (op := .mul) (b := none) (fun _ => rfl) rfl (tyRegs_or _) (by decide) (fun _ _ => fElem_mul ht) fun _ _ _ => rfl
    case fma => exact resultIn_float (op := .fma) (b := none) (fun _ => rfl) rfl (tyRegs_or _) (by decide) (fun _ _ => fElem_fma ht) fun _ _ _ => rfl
    case abs => exact resultIn_float (op := .fabs) (b := none) (fun _ => rfl) rfl (tyRegs_or _) (by decide) (fun _ _ => fElem_abs ht) fun _ _ _ => rfl
    case neg => exact resultIn_float (op := .fneg) (b := none) (fun _ => rfl) rfl (tyRegs_or _) (by decide) (fun _ _ => fElem_neg ht) fun _ _ _ => rfl
  case infs => cases n <;> rfl
  case zeroInf => rfl
  case signalling => cases y <;> rfl
  case quiet => rfl

/-! ## FCLASS -/

/-- A class mask is one of ten bits. -/
theorem fClassX_one_bit (f : Fmt) (a : Nat) : ∃ k, k < 10 ∧ fClassX f a = 2 ^ k := by
  unfold fClassX
  generalize fDecode f a = x
  cases x with
  | nan sig =>
    cases sig
    · exact ⟨9, by decide, rfl⟩
    · exact ⟨8, by decide, rfl⟩
  | inf n =>
    cases n
    · exact ⟨7, by decide, rfl⟩
    · exact ⟨0, by decide, rfl⟩
  | fin n m e =>
    dsimp only
    split
    · cases n
      · exact ⟨4, by decide, rfl⟩
      · exact ⟨3, by decide, rfl⟩
    · split
      · cases n
        · exact ⟨5, by decide, rfl⟩
        · exact ⟨2, by decide, rfl⟩
      · cases n
        · exact ⟨6, by decide, rfl⟩
        · exact ⟨1, by decide, rfl⟩

section Class
variable {f : Fmt} {a m : Nat} {n : Bool} {e : Int}

theorem fClassX_zero (h : fDecode f a = .fin n 0 e) : fClassX f a = if n then 2 ^ 3 else 2 ^ 4 := by
  unfold fClassX
  rw [h]
  rfl

theorem fClassX_subnormal (hm : 0 < m) (hlt : m < 2 ^ f.p) (h : fDecode f a = .fin n m e) : fClassX f a = if n then 2 ^ 2 else 2 ^ 5 := by
  unfold fClassX
  rw [h]
  simp [Nat.ne_of_gt hm, hlt]

theorem fClassX_normal (hm : 2 ^ f.p ≤ m) (h : fDecode f a = .fin n m e) : fClassX f a = if n then 2 ^ 1 else 2 ^ 6 := by
  have hpos := Nat.two_pow_pos f.p
  unfold fClassX
  rw [h]
  simp [show m ≠ 0 by omega, Nat.not_lt.mpr hm]

end Class

/-- A class mask fits the destination. -/
theorem fElem_class {t mode op7 a b c : Nat} {sat : Bool} :
    (fElem .cls t mode sat op7 a b c).bits % 2 ^ 32 = fClassX (fmtOf t) (a % 2 ^ (fmtOf t).w) := by
  obtain ⟨k, hk, hbits⟩ := fClassX_one_bit (fmtOf t) (a % 2 ^ (fmtOf t).w)
  refine Nat.mod_eq_of_lt (?_ : fClassX (fmtOf t) (a % 2 ^ (fmtOf t).w) < 2 ^ 32)
  rw [hbits]
  exact Nat.pow_lt_pow_right (by decide) (by omega)

/-- Settles O36: the classes of a decoded value. -/
theorem floatClass : Obligations.FloatClass := by
  unfold Obligations.FloatClass
  refine ⟨fun x => ?result, fClassX_one_bit, fun f a => ⟨fun h => ?snan, fun h => ?qnan, fun h => ?ninf, fun h => ?pinf, fun e => fClassX_zero,
    fun e => fClassX_zero, fun m e => fClassX_subnormal, fun m e => fClassX_subnormal, fun m e => fClassX_normal, fun m e => fClassX_normal⟩⟩
  case result =>
    exact resultIn_float (op := .cls) (b := none) (width := 32) (fun _ => rfl) rfl (.inl rfl) (by decide) (fun _ _ => fElem_class) fun _ _ _ => rfl
  all_goals
    unfold fClassX
    rw [h]
    rfl

end Sys2Proof.Proofs.Floats
end

section
/-!
Register-computing instructions: what a thread reads at a position (R57, R97, R193, R204), that each of them is the shared course, retires and
traps as it does (R201 to R203), and ELECT (R295).
-/
namespace Sys2Proof.Proofs.Registers
open Sys2Proof.Machine

/-! ## Operands -/

section Reads
variable {s : State} {e : Env} {p : PosBits} {lane : Nat} (hb : (e.warp.lane lane).bounds = false)
include hb

/-- Outside bounds mode a read is a point. -/
theorem readAt_point (w i : Nat) : (Env.readAt s e p w i lane).hi = (Env.readAt s e p w i lane).lo ∧ (Env.readAt s e p w i lane).nan = false := by
  unfold Env.readAt
  rw [if_neg (by simp [hb])]
  exact ⟨rfl, rfl⟩

theorem readAt_vector (hp : p.bank = false) (i : Nat) : (Env.readAt s e p 32 i lane).lo = (e.warp.vec (e.base p + i) lane).lo.toNat ∧
    (Env.readAt s e p 64 i lane).lo = (e.warp.vec (e.base p + 2 * i) lane).lo.toNat + (e.warp.vec (e.base p + 2 * i + 1) lane).lo.toNat * 2 ^ 32 := by
  unfold Env.readAt
  simp [hb, hp, svElem, RVal.sv, pairSV, Nat.mul_comm]

theorem readAt_uniform (hp : p.bank = true) (hc : p.code < 64) (i : Nat) :
    (Env.readAt s e p 32 i lane).lo = (e.warp.uni e.handling (p.code + i)).lo.toNat := by
  unfold Env.readAt
  simp [hb, hp, hc, svElem, RVal.sv]

/-- A special register read by 32 bits. -/
theorem readAt_special (hp : p.bank = true) (hc : 64 ≤ p.code) : (Env.readAt s e p 32 0 lane).lo = (special s e p.code lane).lo % 2 ^ 32 := by
  unfold Env.readAt
  simp [hb, hp, Nat.not_lt.mpr hc, svElem]

end Reads

theorem special_lane (s : State) (e : Env) (lane : Nat) : (special s e 64 lane).lo = lane := by
  simp [special]

theorem special_slice (s : State) (e : Env) (lane : Nat) : (special s e 66 lane).lo = lane / 4 := by
  simp [special]

/-- Settles O27: the branches of a read. -/
theorem operandsRead : Obligations.OperandsRead := by
  unfold Obligations.OperandsRead
  refine fun s e p lane hb => ⟨readAt_point hb, rfl, readAt_vector hb, readAt_uniform hb, fun hp hc hl => ?lane, fun hp hc hl => ?slice⟩
  case lane => rw [readAt_special hb hp (Nat.le_of_eq hc.symm), hc, special_lane, Nat.mod_eq_of_lt hl]
  case slice => rw [readAt_special hb hp (by omega), hc, special_slice, Nat.mod_eq_of_lt (by omega)]

/-! ## Retirement -/

/-- Settles O28: the law of each instruction. -/
theorem registerInstructionsRetire : Obligations.RegisterInstructionsRetire := by
  unfold Obligations.RegisterInstructionsRetire
  intro i opc b hcode hreg
  cases i
  case elect x => cases hcode; exact Laws.Register.elect x
  case iaddC32 x => cases hcode; exact Laws.Register.iaddC32 x
  case iadd x => cases hcode; exact Laws.Register.iadd x
  case isubC32 x => cases hcode; exact Laws.Register.isubC32 x
  case isub x => cases hcode; exact Laws.Register.isub x
  case iaddx x => cases hcode; exact Laws.Register.iaddx x
  case isubx x => cases hcode; exact Laws.Register.isubx x
  case imulC32 x => cases hcode; exact Laws.Register.imulC32 x
  case imul x => cases hcode; exact Laws.Register.imul x
  case imulhC32 x => cases hcode; exact Laws.Register.imulhC32 x
  case imulh x => cases hcode; exact Laws.Register.imulh x
  case imulw x => cases hcode; exact Laws.Register.imulw x
  case imad x => cases hcode; exact Laws.Register.imad x
  case idiv x => cases hcode; exact Laws.Register.idiv x
  case irem x => cases hcode; exact Laws.Register.irem x
  case inegC32 x => cases hcode; exact Laws.Register.inegC32 x
  case ineg x => cases hcode; exact Laws.Register.ineg x
  case iabsC32 x => cases hcode; exact Laws.Register.iabsC32 x
  case iabs x => cases hcode; exact Laws.Register.iabs x
  case iminC32 x => cases hcode; exact Laws.Register.iminC32 x
  case imin x => cases hcode; exact Laws.Register.imin x
  case imaxC32 x => cases hcode; exact Laws.Register.imaxC32 x
  case imax x => cases hcode; exact Laws.Register.imax x
  case isad x => cases hcode; exact Laws.Register.isad x
  case iclamp x => cases hcode; exact Laws.Register.iclamp x
  case idot x => cases hcode; exact Laws.Register.idot x
  case andC32 x => cases hcode; exact Laws.Register.andC32 x
  case and x => cases hcode; exact Laws.Register.and x
  case orC32 x => cases hcode; exact Laws.Register.orC32 x
  case or x => cases hcode; exact Laws.Register.or x
  case xorC32 x => cases hcode; exact Laws.Register.xorC32 x
  case xor x => cases hcode; exact Laws.Register.xor x
  case notC32 x => cases hcode; exact Laws.Register.notC32 x
  case not x => cases hcode; exact Laws.Register.not x
  case andnC32 x => cases hcode; exact Laws.Register.andnC32 x
  case andn x => cases hcode; exact Laws.Register.andn x
  case tern x => cases hcode; exact Laws.Register.tern x
  case shlC32 x => cases hcode; exact Laws.Register.shlC32 x
  case shl x => cases hcode; exact Laws.Register.shl x
  case shrC32 x => cases hcode; exact Laws.Register.shrC32 x
  case shr x => cases hcode; exact Laws.Register.shr x
  case sarC32 x => cases hcode; exact Laws.Register.sarC32 x
  case sar x => cases hcode; exact Laws.Register.sar x
  case rolC32 x => cases hcode; exact Laws.Register.rolC32 x
  case rol x => cases hcode; exact Laws.Register.rol x
  case funs x => cases hcode; exact Laws.Register.funs x
  case bfx x => cases hcode; exact Laws.Register.bfx x
  case bfi x => cases hcode; exact Laws.Register.bfi x
  case brevC32 x => cases hcode; exact Laws.Register.brevC32 x
  case brev x => cases hcode; exact Laws.Register.brev x
  case bperm x => cases hcode; exact Laws.Register.bperm x
  case popcC32 x => cases hcode; exact Laws.Register.popcC32 x
  case popc x => cases hcode; exact Laws.Register.popc x
  case clzC32 x => cases hcode; exact Laws.Register.clzC32 x
  case clz x => cases hcode; exact Laws.Register.clz x
  case ctzC32 x => cases hcode; exact Laws.Register.ctzC32 x
  case ctz x => cases hcode; exact Laws.Register.ctz x
  case iext x => cases hcode; exact Laws.Register.iext x
  case icmp x => cases hcode; exact Laws.Register.icmp x
  case isel x => cases hcode; exact Laws.Register.isel x
  case lea x => cases hcode; exact Laws.Register.lea x
  case pand x => cases hcode; exact Laws.Register.pand x
  case por x => cases hcode; exact Laws.Register.por x
  case pxor x => cases hcode; exact Laws.Register.pxor x
  case pnot x => cases hcode; exact Laws.Register.pnot x
  case pset x => cases hcode; exact Laws.Register.pset x
  case movC32 x => cases hcode; exact Laws.Register.movC32 x
  case mov x => cases hcode; exact Laws.Register.mov x
  case moviC32 x => cases hcode; exact Laws.Register.moviC32 x
  case movi x => cases hcode; exact Laws.Register.movi x
  case movl x => cases hcode; exact Laws.Register.movl x
  case srd x => cases hcode; exact Laws.Register.srd x
  case perm x => cases hcode; exact Laws.Register.perm x
  case shiftwC32 x => cases hcode; exact Laws.Register.shiftwC32 x
  case shiftw x => cases hcode; exact Laws.Register.shiftw x
  case voteC32 x => cases hcode; exact Laws.Register.voteC32 x
  case vote x => cases hcode; exact Laws.Register.vote x
  case rstep x => cases hcode; exact Laws.Register.rstep x
  case bcastC32 x => cases hcode; exact Laws.Register.bcastC32 x
  case bcast x => cases hcode; exact Laws.Register.bcast x
  case matchLanes x => cases hcode; exact Laws.Register.matchLanes x
  case redw x => cases hcode; exact Laws.Register.redw x
  case scanw x => cases hcode; exact Laws.Register.scanw x
  case faddC32 x => cases hcode; exact Laws.Register.faddC32 x
  case fadd x => cases hcode; exact Laws.Register.fadd x
  case fsubC32 x => cases hcode; exact Laws.Register.fsubC32 x
  case fsub x => cases hcode; exact Laws.Register.fsub x
  case fmulC32 x => cases hcode; exact Laws.Register.fmulC32 x
  case fmul x => cases hcode; exact Laws.Register.fmul x
  case fma x => cases hcode; exact Laws.Register.fma x
  case fminC32 x => cases hcode; exact Laws.Register.fminC32 x
  case fmin x => cases hcode; exact Laws.Register.fmin x
  case fmaxC32 x => cases hcode; exact Laws.Register.fmaxC32 x
  case fmax x => cases hcode; exact Laws.Register.fmax x
  case fcmp x => cases hcode; exact Laws.Register.fcmp x
  case fclass x => cases hcode; exact Laws.Register.fclass x
  case fabsC32 x => cases hcode; exact Laws.Register.fabsC32 x
  case fabs x => cases hcode; exact Laws.Register.fabs x
  case fnegC32 x => cases hcode; exact Laws.Register.fnegC32 x
  case fneg x => cases hcode; exact Laws.Register.fneg x
  case fsgn x => cases hcode; exact Laws.Register.fsgn x
  case frnd x => cases hcode; exact Laws.Register.frnd x
  case fscale x => cases hcode; exact Laws.Register.fscale x
  case flogb x => cases hcode; exact Laws.Register.flogb x
  case fadd2 x => cases hcode; exact Laws.Register.fadd2 x
  case fmul2 x => cases hcode; exact Laws.Register.fmul2 x
  case fma2 x => cases hcode; exact Laws.Register.fma2 x
  case fdot x => cases hcode; exact Laws.Register.fdot x
  case fdiv x => cases hcode; exact Laws.Register.fdiv x
  case fsqrt x => cases hcode; exact Laws.Register.fsqrt x
  case frcp x => cases hcode; exact Laws.Register.frcp x
  case frsq x => cases hcode; exact Laws.Register.frsq x
  case fexp x => cases hcode; exact Laws.Register.fexp x
  case fexpm1 x => cases hcode; exact Laws.Register.fexpm1 x
  case flog x => cases hcode; exact Laws.Register.flog x
  case flog1p x => cases hcode; exact Laws.Register.flog1p x
  case ferf x => cases hcode; exact Laws.Register.ferf x
  case ferfc x => cases hcode; exact Laws.Register.ferfc x
  case cvt x => cases hcode; exact Laws.Register.cvt x
  case cvti x => cases hcode; exact Laws.Register.cvti x
  case cvtf x => cases hcode; exact Laws.Register.cvtf x
  case packn x => cases hcode; exact Laws.Register.packn x
  case qnt x => cases hcode; exact Laws.Register.qnt x
  case dqnt x => cases hcode; exact Laws.Register.dqnt x
  case rnd x => cases hcode; exact Laws.Register.rnd x
  case rndf x => cases hcode; exact Laws.Register.rndf x
  case rndm x => cases hcode; exact Laws.Register.rndm x
  case ivmk x => cases hcode; exact Laws.Register.ivmk x
  case ivlo x => cases hcode; exact Laws.Register.ivlo x
  case ivhi x => cases hcode; exact Laws.Register.ivhi x
  all_goals
    cases hcode
    try exact absurd hreg (by decide)

/-! ## The register trap -/

/-- The instruction runs the shared course. -/
def RunsAlu (i : Instr) (opc : Nat) (x : Op) : Prop := ∀ s, ∃ h f, exec i s = alu s opc x h f

theorem runsAlu {i : Instr} {opc : Nat} {b : Body} (hcode : i.code = some (opc, b)) (hreg : registerOpcode opc = true) :
    RunsAlu i opc (b.op opc) := by
  intro s
  cases i
  case elect x => cases hcode; exact ⟨_, _, Laws.Register.elect_alu x s⟩
  case iaddC32 x => cases hcode; exact ⟨_, _, rfl⟩
  case iadd x => cases hcode; cases x <;> exact ⟨_, _, rfl⟩
  case isubC32 x => cases hcode; exact ⟨_, _, rfl⟩
  case isub x => cases hcode; cases x <;> exact ⟨_, _, rfl⟩
  case iaddx x => cases hcode; exact ⟨_, _, rfl⟩
  case isubx x => cases hcode; exact ⟨_, _, rfl⟩
  case imulC32 x => cases hcode; exact ⟨_, _, rfl⟩
  case imul x => cases hcode; cases x <;> exact ⟨_, _, rfl⟩
  case imulhC32 x => cases hcode; exact ⟨_, _, rfl⟩
  case imulh x => cases hcode; exact ⟨_, _, rfl⟩
  case imulw x => cases hcode; exact ⟨_, _, rfl⟩
  case imad x => cases hcode; cases x <;> exact ⟨_, _, rfl⟩
  case idiv x => cases hcode; exact ⟨_, _, rfl⟩
  case irem x => cases hcode; exact ⟨_, _, rfl⟩
  case inegC32 x => cases hcode; exact ⟨_, _, rfl⟩
  case ineg x => cases hcode; exact ⟨_, _, rfl⟩
  case iabsC32 x => cases hcode; exact ⟨_, _, rfl⟩
  case iabs x => cases hcode; exact ⟨_, _, rfl⟩
  case iminC32 x => cases hcode; exact ⟨_, _, rfl⟩
  case imin x => cases hcode; cases x <;> exact ⟨_, _, rfl⟩
  case imaxC32 x => cases hcode; exact ⟨_, _, rfl⟩
  case imax x => cases hcode; cases x <;> exact ⟨_, _, rfl⟩
  case isad x => cases hcode; exact ⟨_, _, rfl⟩
  case iclamp x => cases hcode; cases x <;> exact ⟨_, _, rfl⟩
  case idot x => cases hcode; exact ⟨_, _, rfl⟩
  case andC32 x => cases hcode; exact ⟨_, _, rfl⟩
  case and x => cases hcode; cases x <;> exact ⟨_, _, rfl⟩
  case orC32 x => cases hcode; exact ⟨_, _, rfl⟩
  case or x => cases hcode; cases x <;> exact ⟨_, _, rfl⟩
  case xorC32 x => cases hcode; exact ⟨_, _, rfl⟩
  case xor x => cases hcode; cases x <;> exact ⟨_, _, rfl⟩
  case notC32 x => cases hcode; exact ⟨_, _, rfl⟩
  case not x => cases hcode; exact ⟨_, _, rfl⟩
  case andnC32 x => cases hcode; exact ⟨_, _, rfl⟩
  case andn x => cases hcode; cases x <;> exact ⟨_, _, rfl⟩
  case tern x => cases hcode; exact ⟨_, _, rfl⟩
  case shlC32 x => cases hcode; exact ⟨_, _, rfl⟩
  case shl x => cases hcode; exact ⟨_, _, rfl⟩
  case shrC32 x => cases hcode; exact ⟨_, _, rfl⟩
  case shr x => cases hcode; exact ⟨_, _, rfl⟩
  case sarC32 x => cases hcode; exact ⟨_, _, rfl⟩
  case sar x => cases hcode; exact ⟨_, _, rfl⟩
  case rolC32 x => cases hcode; exact ⟨_, _, rfl⟩
  case rol x => cases hcode; exact ⟨_, _, rfl⟩
  case funs x => cases hcode; exact ⟨_, _, rfl⟩
  case bfx x => cases hcode; exact ⟨_, _, rfl⟩
  case bfi x => cases hcode; exact ⟨_, _, rfl⟩
  case brevC32 x => cases hcode; exact ⟨_, _, rfl⟩
  case brev x => cases hcode; exact ⟨_, _, rfl⟩
  case bperm x => cases hcode; exact ⟨_, _, rfl⟩
  case popcC32 x => cases hcode; exact ⟨_, _, rfl⟩
  case popc x => cases hcode; exact ⟨_, _, rfl⟩
  case clzC32 x => cases hcode; exact ⟨_, _, rfl⟩
  case clz x => cases hcode; exact ⟨_, _, rfl⟩
  case ctzC32 x => cases hcode; exact ⟨_, _, rfl⟩
  case ctz x => cases hcode; exact ⟨_, _, rfl⟩
  case iext x => cases hcode; exact ⟨_, _, rfl⟩
  case icmp x => cases hcode; exact ⟨_, _, Laws.Register.icmp_alu x s⟩
  case isel x => cases hcode; exact ⟨_, _, rfl⟩
  case lea x => cases hcode; cases x <;> exact ⟨_, _, rfl⟩
  case pand x => cases hcode; exact ⟨_, _, Laws.Register.pand_alu x s⟩
  case por x => cases hcode; exact ⟨_, _, Laws.Register.por_alu x s⟩
  case pxor x => cases hcode; exact ⟨_, _, Laws.Register.pxor_alu x s⟩
  case pnot x => cases hcode; exact ⟨_, _, Laws.Register.pnot_alu x s⟩
  case pset x => cases hcode; exact ⟨_, _, Laws.Register.pset_alu x s⟩
  case movC32 x => cases hcode; exact ⟨_, _, rfl⟩
  case mov x => cases hcode; exact ⟨_, _, rfl⟩
  case moviC32 x => cases hcode; exact ⟨_, _, rfl⟩
  case movi x => cases hcode; exact ⟨_, _, rfl⟩
  case movl x => cases hcode; cases x <;> exact ⟨_, _, rfl⟩
  case srd x => cases hcode; exact ⟨_, _, rfl⟩
  case perm x => cases hcode; exact ⟨_, _, rfl⟩
  case shiftwC32 x => cases hcode; exact ⟨_, _, rfl⟩
  case shiftw x => cases hcode; exact ⟨_, _, rfl⟩
  case voteC32 x => cases hcode; exact ⟨_, _, rfl⟩
  case vote x => cases hcode; exact ⟨_, _, rfl⟩
  case rstep x => cases hcode; exact ⟨_, _, rfl⟩
  case bcastC32 x => cases hcode; exact ⟨_, _, rfl⟩
  case bcast x => cases hcode; exact ⟨_, _, rfl⟩
  case matchLanes x => cases hcode; exact ⟨_, _, rfl⟩
  case redw x => cases hcode; exact ⟨_, _, rfl⟩
  case scanw x => cases hcode; exact ⟨_, _, rfl⟩
  case faddC32 x => cases hcode; exact ⟨_, _, rfl⟩
  case fadd x => cases hcode; cases x <;> exact ⟨_, _, rfl⟩
  case fsubC32 x => cases hcode; exact ⟨_, _, rfl⟩
  case fsub x => cases hcode; cases x <;> exact ⟨_, _, rfl⟩
  case fmulC32 x => cases hcode; exact ⟨_, _, rfl⟩
  case fmul x => cases hcode; cases x <;> exact ⟨_, _, rfl⟩
  case fma x => cases hcode; cases x <;> exact ⟨_, _, rfl⟩
  case fminC32 x => cases hcode; exact ⟨_, _, rfl⟩
  case fmin x => cases hcode; exact ⟨_, _, rfl⟩
  case fmaxC32 x => cases hcode; exact ⟨_, _, rfl⟩
  case fmax x => cases hcode; exact ⟨_, _, rfl⟩
  case fcmp x => cases hcode; exact ⟨_, _, Laws.Register.fcmp_alu x s⟩
  case fclass x => cases hcode; exact ⟨_, _, rfl⟩
  case fabsC32 x => cases hcode; exact ⟨_, _, rfl⟩
  case fabs x => cases hcode; exact ⟨_, _, rfl⟩
  case fnegC32 x => cases hcode; exact ⟨_, _, rfl⟩
  case fneg x => cases hcode; exact ⟨_, _, rfl⟩
  case fsgn x => cases hcode; exact ⟨_, _, rfl⟩
  case frnd x => cases hcode; exact ⟨_, _, rfl⟩
  case fscale x => cases hcode; exact ⟨_, _, rfl⟩
  case flogb x => cases hcode; exact ⟨_, _, rfl⟩
  case fadd2 x => cases hcode; exact ⟨_, _, rfl⟩
  case fmul2 x => cases hcode; exact ⟨_, _, rfl⟩
  case fma2 x => cases hcode; exact ⟨_, _, rfl⟩
  case fdot x => cases hcode; exact ⟨_, _, rfl⟩
  case fdiv x => cases hcode; exact ⟨_, _, rfl⟩
  case fsqrt x => cases hcode; exact ⟨_, _, rfl⟩
  case frcp x => cases hcode; exact ⟨_, _, rfl⟩
  case frsq x => cases hcode; exact ⟨_, _, rfl⟩
  case fexp x => cases hcode; exact ⟨_, _, rfl⟩
  case fexpm1 x => cases hcode; exact ⟨_, _, rfl⟩
  case flog x => cases hcode; exact ⟨_, _, rfl⟩
  case flog1p x => cases hcode; exact ⟨_, _, rfl⟩
  case ferf x => cases hcode; exact ⟨_, _, rfl⟩
  case ferfc x => cases hcode; exact ⟨_, _, rfl⟩
  case cvt x => cases hcode; exact ⟨_, _, rfl⟩
  case cvti x => cases hcode; exact ⟨_, _, rfl⟩
  case cvtf x => cases hcode; exact ⟨_, _, rfl⟩
  case packn x => cases hcode; exact ⟨_, _, rfl⟩
  case qnt x => cases hcode; exact ⟨_, _, rfl⟩
  case dqnt x => cases hcode; exact ⟨_, _, rfl⟩
  case rnd x => cases hcode; exact ⟨_, _, rfl⟩
  case rndf x => cases hcode; exact ⟨_, _, rfl⟩
  case rndm x => cases hcode; exact ⟨_, _, Laws.Register.rndm_draw x s⟩
  case ivmk x => cases hcode; exact ⟨_, _, rfl⟩
  case ivlo x => cases hcode; exact ⟨_, _, rfl⟩
  case ivhi x => cases hcode; exact ⟨_, _, rfl⟩
  all_goals
    cases hcode
    try exact absurd hreg (by decide)

/-- Where a register trap is due and a thread computes, the shared course ends in it, in the machine as it issued. -/
theorem alu_traps {s : State} {e : Env} {opc : Nat} {x : Op} {h : How} {f : State → Env → Nat → Bool → Srcs → Out} {t : Trap} (hs : Steady s e)
    (hb : ElementMode e) (hwho : aluWho opc x (rowAt opc x) (e.active x.g) ≠ [])
    (ht : e.regTrap x (rowAt opc x) (maskOf (e.active x.g)) = some t) :
    alu s opc x h f = .next ((e.issued s (opCost opc x e) h.factor).takeTrap e.k e.slot e.gid t x.form.bytes) := by
  unfold alu
  rw [issued_element hs hb]
  have hrest : aluRest e opc x h f (e.issued s (opCost opc x e) h.factor) (e.issuing s (opCost opc x e) h.factor) =
      (e.issued s (opCost opc x e) h.factor, some t) := by
    obtain ⟨a, l, hal⟩ := List.exists_cons_of_ne_nil hwho
    unfold aluRest
    have hwho' : aluWho opc x (rowAt opc x) ((e.issuing s (opCost opc x e) h.factor).active x.g) = a :: l := hal
    have ht' : (e.issuing s (opCost opc x e) h.factor).regTrap x (rowAt opc x)
      (maskOf ((e.issuing s (opCost opc x e) h.factor).active x.g)) = some t := ht
    simp only [hwho', ht']
  exact (congrArg (answer e x.form.bytes) hrest).trans rfl

/-- The reasons of one 32-bit name (R202). -/
theorem vecReasons_one (e : Env) (p : PosBits) (rd : Bool) : vecReasons e [(p, 32, 1, rd)] =
    (if rd && (decide (e.base p < e.team.n) && (alook (e.base p) e.warp.vregs).isNone) then [1] else []) ++ (if e.team.n < e.base p + 1 then [2] else []) := by
  simp [vecReasons]

/-- Settles O29: the shared course ends in the trap; the reasons of a name. -/
theorem registerTraps : Obligations.RegisterTraps := by
  unfold Obligations.RegisterTraps
  refine ⟨fun i opc b hcode hreg s e t hs hb hwho ht => ?precise, fun e p n rd => ⟨?unmapped, ?beyond, ?fine⟩⟩
  case precise =>
    obtain ⟨h, f, hexec⟩ := runsAlu hcode hreg s
    exact ⟨opCost opc (b.op opc) e, h.factor, hexec.trans (alu_traps hs hb hwho ht)⟩
  case unmapped =>
    rintro rfl hlt hnone
    rw [vecReasons_one]
    simp [hlt, hnone, Nat.not_lt.mpr (Nat.succ_le_of_lt hlt)]
  case beyond =>
    rintro rfl hle
    rw [vecReasons_one]
    simp [Nat.not_lt.mpr hle, Nat.lt_succ_of_le hle]
  case fine =>
    rintro rfl hlt hread
    rw [vecReasons_one]
    obtain rfl | hmapped := hread
    · simp [Nat.not_lt.mpr (Nat.succ_le_of_lt hlt)]
    · obtain ⟨v, hv⟩ := Option.isSome_iff_exists.mp hmapped
      simp [hv, Nat.not_lt.mpr (Nat.succ_le_of_lt hlt)]

/-! ## ELECT -/

section Preds
variable {w : Warp} {p : Nat}

/-- Writing one predicate in distinct lanes writes it there and leaves every other lane. -/
theorem writePreds_lane (l : List Nat) (v : Nat → PVal) (hw : w.lanes.length = 32) (hl : ∀ j ∈ l, j < 32) (hn : l.Nodup) (j : Nat) :
    (l.foldl (fun w i => w.writePred i p (v i)) w).lane j = if j ∈ l then { w.lane j with preds := (w.lane j).preds.set p (v j) } else w.lane j := by
  induction l generalizing w with
  | nil => rfl
  | cons a l ih =>
    obtain ⟨hmem, hn⟩ := List.nodup_cons.mp hn
    have hlen : (w.writePred a p (v a)).lanes.length = 32 := (modLane_lanes_length ..).trans hw
    rw [List.foldl_cons, ih hlen (fun j hj => hl j (List.mem_cons_of_mem a hj)) hn]
    obtain rfl | hj := Decidable.em (j = a)
    · have hat : (w.writePred j p (v j)).lane j = { w.lane j with preds := (w.lane j).preds.set p (v j) } :=
        lane_modLane _ _ _ (hw ▸ hl j List.mem_cons_self)
      simp [hmem, hat]
    · have hother : (w.writePred a p (v a)).lane j = w.lane j := lane_modLane_other _ _ hj
      simp [hj, hother]

/-- Noting no flag and no draw is nothing. -/
theorem noteAll_none (l : List (Nat × Out)) (h : ∀ o ∈ l, o.2.fl = 0 ∧ o.2.draws = 0) : noteAll w l = w := by
  unfold noteAll
  induction l generalizing w with
  | nil => rfl
  | cons o l ih =>
    obtain ⟨hfl, hdraws⟩ := h o List.mem_cons_self
    have hnote : (w.modLane o.1 fun l => l.note o.2.fl o.2.draws) = w := by
      have hlane : (w.lane o.1).note o.2.fl o.2.draws = w.lane o.1 := by simp [Lane.note, hfl, hdraws]
      change { w with lanes := w.lanes.set o.1 ((w.lane o.1).note o.2.fl o.2.draws) } = w
      rw [hlane]
      unfold Warp.lane
      by_cases hlt : o.1 < w.lanes.length
      · simp [List.getD, hlt]
      · rw [List.set_eq_of_length_le (Nat.le_of_not_lt hlt)]
    rw [List.foldl_cons, hnote]
    exact ih fun o ho => h o (List.mem_cons_of_mem _ ho)

theorem free_nil (w : Warp) : w.free [] = w := by
  have hkept : w.opbuf.filter (fun n => decide ¬([] : List Nat).contains n = true) = w.opbuf := List.filter_eq_self.mpr fun _ _ => rfl
  unfold Warp.free
  rw [hkept]
  rfl

theorem foldl_unchanged {α β : Type} {f : β → α → β} {b : β} (h : ∀ a, f b a = b) (l : List α) : l.foldl f b = b := by
  induction l with
  | nil => rfl
  | cons a l ih => rw [List.foldl_cons, h, ih]

end Preds

/-- What ELECT computes in a thread. -/
def electOut (g : Guard) (e : Env) (j : Nat) : Out := { pred := some { v := .ofBool ((e.active g).headD 0 = j) } }

theorem elect_compute {s : State} {e : Env} (x : C32R) (hb : ElementMode e) (j : Nat) :
    Env.compute s e (x.op 0) (rowAt 0x14 (x.op 0)) { e1 := true } (fun _ e t _ _ => electOut x.g e t) j = (j, electOut x.g e j) := by
  have htag : ((e.warp.lane j).bounds || isUniD (x.op 0) (rowAt 0x14 (x.op 0)) && e.warp.lanes.any fun l => l.live && l.bounds) = false := by
    rw [hb j]
    rfl
  unfold Env.compute
  simp only [htag]
  rfl

/-- The warp after ELECT: its predicate written in each active thread. -/
def electWarp (e : Env) (x : C32R) : Warp :=
  (e.active x.g).foldl (fun w j => w.writePred j (c32Code x.d % 8) { v := .ofBool ((e.active x.g).headD 0 = j) }) e.warp

theorem elect_warp (s : State) (e : Env) (x : C32R) (hb : ElementMode e) :
    aluWarp s e 0x14 (x.op 0) { e1 := true } (fun _ e t _ _ => electOut x.g e t) = electWarp e x := by
  have houts (l : List Nat) : l.map (Env.compute s e (x.op 0) (rowAt 0x14 (x.op 0)) { e1 := true } fun _ e t _ _ => electOut x.g e t) =
      l.map fun j => (j, electOut x.g e j) := List.map_congr_left fun j _ => elect_compute x hb j
  have hwho : aluWho 0x14 (x.op 0) (rowAt 0x14 (x.op 0)) (e.active x.g) = e.active x.g := rfl
  have hlanes (l : List Nat) : e.aluLanes 0x14 (x.op 0) (rowAt 0x14 (x.op 0)) (e.active x.g) l = l := rfl
  have hnoted (l : List (Nat × Out)) : aluNoted e.warp 0x14 (x.op 0) (rowAt 0x14 (x.op 0)) (e.active x.g) l = l := rfl
  have hfrees : e.frees (x.op 0) (rowAt 0x14 (x.op 0)) = [] := rfl
  have hg : (x.op 0).g = x.g := rfl
  have hwrite (l : List Nat) : e.writeOut e.warp (x.op 0) (rowAt 0x14 (x.op 0)) (l.map fun j => (j, electOut x.g e j)) =
      l.foldl (fun w j => w.writePred j (c32Code x.d % 8) { v := .ofBool ((e.active x.g).headD 0 = j) }) e.warp := by
    have hpreds : (l.map fun j => (j, electOut x.g e j)).foldl (fun w o => o.2.preds.foldl (fun w p => w.writePred o.1 p.1 p.2) w) e.warp = e.warp := by
      rw [List.foldl_map]
      exact foldl_unchanged (fun _ => rfl) l
    unfold Env.writeOut
    rw [hpreds]
    exact List.foldl_map
  have hnote (l : List Nat) : noteAll e.warp (l.map fun j => (j, electOut x.g e j)) = e.warp := by
    refine noteAll_none _ fun o ho => ?_
    obtain ⟨j, -, rfl⟩ := List.mem_map.mp ho
    exact ⟨rfl, rfl⟩
  unfold aluWarp electWarp
  simp only [hg, hwho, hlanes, hfrees, hnoted, houts, free_nil, hnote, hwrite]
  cases e.active x.g <;> rfl

/-- ELECT's frame: its predicate alone. -/
theorem electWarp_frame (s : State) (e : Env) (x : C32R) (hb : ElementMode e) : WarpFrame e.warp (electWarp e x) [] [] [c32Code x.d % 8] false := by
  rw [← elect_warp s e x hb]
  exact aluWarp_frame (ps := []) hb (outBound_pred rfl fun _ _ _ _ => ⟨rfl, rfl⟩)

/-- Each active thread's predicate after ELECT. -/
theorem electWarp_lane (e : Env) (x : C32R) (hl : e.warp.lanes.length = 32) (j : Nat) : (electWarp e x).lane j =
    if j ∈ e.active x.g then { e.warp.lane j with preds := (e.warp.lane j).preds.set (c32Code x.d % 8) { v := .ofBool ((e.active x.g).headD 0 = j) } }
    else e.warp.lane j :=
  writePreds_lane _ (fun j => { v := .ofBool ((e.active x.g).headD 0 = j) }) hl (fun _ => active_lt e x.g) (active_nodup e x.g) j

/-- ELECT reads no register. -/
theorem elect_regTrap (e : Env) (x : C32R) (m : Mask) : e.regTrap (x.op 0) (rowAt 0x14 (x.op 0)) m = none := by
  have hvec : vecUses (x.op 0) (rowAt 0x14 (x.op 0)) = [] := rfl
  have huni : uniUses (x.op 0) (rowAt 0x14 (x.op 0)) = [] := rfl
  simp [Env.regTrap, hvec, huni, vecReasons]

/-- ELECT completes with `electWarp`. -/
theorem elect_retires {s : State} {e : Env} (hs : Steady s e) (hb : ElementMode e) (hfp : e.warp.fpmode.toNat / 256 % 128 = 0) (x : C32R) :
    ∃ t, exec (.elect x) s = .next t ∧ Retired s t e 4 (electWarp e x) := by
  obtain ⟨a, s1, hcharge, halu⟩ := alu_eq (opc := 0x14) (x := x.op 0) (h := { e1 := true }) (f := fun _ e t _ _ => electOut x.g e t) hs hb
    (elect_regTrap e x _) hfp
  have hmoved : OnlyWarp s s1 e.k e.slot := hcharge ▸ OnlyWarp.charge ..
  have hwarp : s1.warp? e.k e.slot = some e.warp := by rw [hcharge, charge_warp, hs.warp]
  rw [elect_warp s1 (e.recore (s1.core e.k)) x hb] at halu
  exact ⟨_, (Laws.Register.elect_alu x s).trans halu,
    retired_frame hs (hmoved.modWarp _) rfl rfl rfl rfl (warp_modWarp (w := e.warp) _ hwarp) (electWarp_frame s e x hb)⟩

/-! ### Its words -/

theorem c32_zero_iff (r : BitVec 6) : (c32Code r ≠ 0 ∨ c32Bank r = true) ↔ r ≠ 0 := by
  revert r
  decide

theorem c32_pred_iff (r : BitVec 6) : (8 ≤ c32Code r ∨ c32Bank r = true) ↔ r.toNat / 8 ≠ 0 := by
  revert r
  decide

theorem lowestCode_elect (p q r u : Bool) :
    lowestCode [(4, p), (8, q), (4, r), (4, u)] = if p || r || u then some 4 else if q then some 8 else none := by
  revert p q r u
  decide

/-- The detail codes that an unguarded ELECT can raise. -/
theorem elect_detail (super : Bool) (x : C32R) (hgs : x.g.gs = false) (hgp : x.g.gp = 7) : (Instr.elect x).detail super =
    if x.d.toNat / 8 ≠ 0 ∨ x.a ≠ 0 ∨ x.b ≠ 0 then some 4 else if c32Code x.d % 8 = 7 then some 8 else none := by
  have hlist : (Instr.elect x).detail super = lowestCode [(4, 8 ≤ c32Code x.d ∨ c32Bank x.d), (8, c32Code x.d % 8 = 7),
      (4, c32Code x.a ≠ 0 ∨ c32Bank x.a), (4, c32Code x.b ≠ 0 ∨ c32Bank x.b)] := by
    change lowestCode ((x.op 0).violations 0x14 super { d := .pred true }) = _
    simp [Op.violations, dstCodes, srcCodes, Op.posD, Op.posA, Op.posB, Op.posC, C32R.op, Op.filled, predDst7, hgs, hgp, lowestCode]
  rw [hlist, lowestCode_elect]
  simp only [Bool.or_eq_true, decide_eq_true_eq, c32_pred_iff, c32_zero_iff, or_assoc]

/-- Settles O37: the computation of ELECT, its violations, and its word. -/
theorem elect : Obligations.Elect := by
  unfold Obligations.Elect
  refine ⟨fun s e x hs hb hfp hpreds hp hd => ?exec, fun super x hgs hgp => ?detail, by decide⟩
  case exec =>
    have hcode : c32Code x.d = x.d.toNat := if_neg (by omega)
    obtain ⟨t, hexec, hret⟩ := elect_retires hs hb hfp x
    refine ⟨t, _, hexec, hret, hcode ▸ electWarp_frame s e x hb, fun j hj => ?_, fun j hj => ?_⟩
    · have hmem : e.warp.lane j ∈ e.warp.lanes := by
        have hlt : j < e.warp.lanes.length := hs.lanes ▸ active_lt e x.g hj
        simp [Warp.lane, List.getD, hlt]
      rw [electWarp_lane e x hs.lanes, if_pos hj, hcode]
      have hlen := hpreds _ hmem
      obtain ⟨a, l, hal⟩ := List.exists_cons_of_ne_nil (List.ne_nil_of_mem hj)
      simp [Lane.pred, Nat.not_le.mpr hp, List.getD, hlen, hp, hal]
    · rw [electWarp_lane e x hs.lanes, if_neg hj]
  case detail =>
    rw [elect_detail super x hgs hgp]
    refine ⟨fun h => if_pos (Or.comm.mp (or_assoc.mpr h)), fun ha hb hd => ?_, fun ha hb hd => ?_⟩
    · simp [ha, hb, hd, c32Code]
    · have hcode : c32Code x.d = x.d.toNat := if_neg (by omega)
      have hzero : x.d.toNat / 8 = 0 := by omega
      simp [ha, hb, hzero, hcode]
      omega

end Sys2Proof.Proofs.Registers
end

section
/-!
Memory instructions: where each byte of a load comes from (R175), the addresses and bytes asked for (R218), the traps before any thread performs
(R219, R220), and the instructions beside the per-thread ones (R233 to R236).
-/
namespace Sys2Proof.Proofs.Memory
open Sys2Proof.Machine

variable {s : State} {e : Env}

/-! ## Steps 1 and 2 of R175 -/

section Queues
variable {q sq ob l r : List WEnt} {x : WEnt} {p : Place} {i j : Nat}

theorem youngest_append (l r : List WEnt) (h : ∀ y ∈ r, y.covers p i = none) : youngest (l ++ r) p i = youngest l p i := by
  unfold youngest
  rw [List.foldl_append]
  generalize l.foldl _ _ = m
  induction r generalizing m with
  | nil => rfl
  | cons y r ih =>
    rw [List.foldl_cons, h y List.mem_cons_self]
    exact ih (fun z hz => h z (List.mem_cons_of_mem y hz)) m

theorem youngest_none (h : ∀ y ∈ q, y.covers p i = none) : youngest q p i = none := youngest_append [] q h

theorem youngest_last (hx : x.covers p i = some j) (hr : ∀ y ∈ r, y.covers p i = none) : youngest (l ++ x :: r) p i = some (x, j) := by
  rw [List.append_cons, youngest_append _ _ hr]
  unfold youngest
  rw [List.foldl_append, List.foldl_cons, hx]
  rfl

theorem bindQueues_home (h : ∀ y ∈ sq ++ ob, y.covers p i = none) : bindQueues sq ob p i = .home := by
  unfold bindQueues
  rw [youngest_none fun y hy => h y (List.mem_append_left _ hy), youngest_none fun y hy => h y (List.mem_append_right _ hy)]

theorem bindQueues_sq (hx : x.covers p i = some j) (hr : ∀ y ∈ r, y.covers p i = none) :
    bindQueues (l ++ x :: r) ob p i = if x.isStore then .val (x.data.getD j 0) 0 else .blocked := by
  unfold bindQueues
  rw [youngest_last hx hr]

theorem bindQueues_ob (hsq : ∀ y ∈ sq, y.covers p i = none) (hx : x.covers p i = some j) (hr : ∀ y ∈ r, y.covers p i = none) :
    bindQueues sq (l ++ x :: r) p i = if x.isStore then .val (x.data.getD j 0) 0 else .blocked := by
  unfold bindQueues
  rw [youngest_none hsq, youngest_last hx hr]

end Queues

/-! ## Binding a load -/

/-- What each byte of a load is bound to by the queues. -/
def boundBytes (b : Nat → Bound) (n : Nat) : List Bound := (List.range n).map b

/-- The bytes of a load, those that the queues do not bind taken from `home`. -/
def loadBytes (b : Nat → Bound) (n : Nat) (home : Nat → Byte) : List Byte :=
  (boundBytes b n).zipIdx.map fun q => match q.1 with | .val x _ => x | _ => home q.2

section Bind
variable {b : Nat → Bound} {n i j : Nat} {home : Nat → Byte} {y : Byte}

theorem boundBytes_contains (v : Bound) : (boundBytes b n).contains v = true ↔ ∃ i, i < n ∧ b i = v := by
  simp [boundBytes]

theorem loadBytes_length : (loadBytes b n home).length = n := by simp [loadBytes, boundBytes]

theorem loadBytes_getD (hi : i < n) : (loadBytes b n home).getD i 0 = match b i with | .val x _ => x | _ => home i := by
  simp [loadBytes, boundBytes, List.getD, hi]

theorem loadBytes_val (hi : i < n) (h : b i = .val y j) : (loadBytes b n home).getD i 0 = y := by
  rw [loadBytes_getD hi, h]

theorem loadBytes_home (hi : i < n) (h : b i = .home) : (loadBytes b n home).getD i 0 = home i := by
  rw [loadBytes_getD hi, h]

end Bind

section Load
variable {k slot n d : Nat} {w : Warp} {p : Place} {pa : Nat}

/-- What the queues bind the bytes of a load at a place to. -/
def queueBinds (s : State) (k : Nat) (w : Warp) (p : Place) : Nat → Bound := bindQueues w.sq (s.core k).ob p

theorem bindLoad_blocked (hw : s.warp? k slot = some w) (h : ∃ i, i < n ∧ queueBinds s k w p i = .blocked) : s.bindLoad k slot p n d = none := by
  have hcon := (boundBytes_contains .blocked).mpr h
  unfold State.bindLoad
  rw [hw]
  exact if_pos hcon

/-- The copy of a sector in the core's view that a load binds to: one that is new enough, or a fetched one (R175, R178). -/
def viewFor (s : State) (k sector least : Nat) : State :=
  match alook sector (s.core k).cv with
  | some v => if least ≤ v.stamp then s else s.fetchSector k sector
  | none => s.fetchSector k sector

/-- Whether a load needs the home at all, and the state in which it binds. -/
def boundState (s : State) (k : Nat) (w : Warp) (pa n d : Nat) : State :=
  if (boundBytes (queueBinds s k w (.mem pa)) n).contains .home then viewFor s k (pa / 32) (max d w.floor) else s

/-- The view's copy of a sector. -/
def viewOf (t : State) (k sector : Nat) := (alook sector (t.core k).cv).getD { data := [], stamp := 0 }

theorem bindLoad_mem (hw : s.warp? k slot = some w) (h : ∀ i, i < n → queueBinds s k w (.mem pa) i ≠ .blocked) : s.bindLoad k slot (.mem pa) n d =
    some (loadBytes (queueBinds s k w (.mem pa)) n fun i => (viewOf (boundState s k w pa n d) k (pa / 32)).data.getD (pa % 32 + i) 0,
      if (boundBytes (queueBinds s k w (.mem pa)) n).contains .home then (viewOf (boundState s k w pa n d) k (pa / 32)).stamp else 0,
      boundState s k w pa n d) := by
  have hcon : ¬ (boundBytes (queueBinds s k w (.mem pa)) n).contains .blocked = true := by
    rw [boundBytes_contains]
    rintro ⟨i, hi, hb⟩
    exact h i hi hb
  unfold State.bindLoad
  rw [hw]
  exact (if_neg hcon).trans rfl

theorem bindLoad_other (hw : s.warp? k slot = some w) (hp : ∀ pa, p ≠ .mem pa) (h : ∀ i, i < n → queueBinds s k w p i ≠ .blocked) :
    ∃ st, s.bindLoad k slot p n d = some (loadBytes (queueBinds s k w p) n (s.homeByte (dieOf k) p), st, s) := by
  have hcon : ¬ (boundBytes (queueBinds s k w p) n).contains .blocked = true := by
    rw [boundBytes_contains]
    rintro ⟨i, hi, hb⟩
    exact h i hi hb
  unfold State.bindLoad
  rw [hw]
  cases p with
  | mem pa => exact absurd rfl (hp pa)
  | scr k off => exact ⟨_, (if_neg hcon).trans rfl⟩
  | sys a => exact ⟨_, (if_neg hcon).trans rfl⟩
  | ws off => exact ⟨_, (if_neg hcon).trans rfl⟩

theorem boundState_view {v : CopyV} (hv : alook (pa / 32) (s.core k).cv = some v) (hnew : max d w.floor ≤ v.stamp) : boundState s k w pa n d = s := by
  unfold boundState viewFor
  simp [hv, hnew]

theorem boundState_fetch (hold : ∀ v, alook (pa / 32) (s.core k).cv = some v → v.stamp < max d w.floor)
    (hneed : ∃ i, i < n ∧ queueBinds s k w (.mem pa) i = .home) : boundState s k w pa n d = s.fetchSector k (pa / 32) := by
  unfold boundState viewFor
  rw [if_pos ((boundBytes_contains .home).mpr hneed)]
  split
  · next v hv => exact if_neg (Nat.not_le.mpr (hold v hv))
  · rfl

theorem viewOf_fetch (s : State) (k sector : Nat) : viewOf (s.fetchSector k sector) k sector = { data := memRead s.hbm (32 * sector) 32, stamp := s.cycleOf k } := by
  simp [viewOf, State.fetchSector]

theorem memRead_getD (m : List Host.Cell) (a : Nat) {n i : Nat} (h : i < n) : (memRead m a n).getD i 0 = memByte m (a + i) := by
  simp [memRead, List.getD, h]

end Load

/-- Settles O39: the queues bind a byte to the youngest covering entry; the view, a fetch or the home bind the rest. -/
theorem loadBinds : Obligations.LoadBinds := by
  unfold Obligations.LoadBinds
  refine ⟨fun sq ob p i => ⟨bindQueues_home, ?sq, ?ob⟩, ?load⟩
  case sq =>
    rintro l x r j rfl hx hr
    exact bindQueues_sq hx hr
  case ob =>
    rintro l x r j hsq rfl hx hr
    exact bindQueues_ob hsq hx hr
  case load =>
    rintro s k slot w p n d hw b rfl
    refine ⟨bindLoad_blocked hw, fun hfree => ?_⟩
    cases p with
    | mem pa =>
      refine ⟨_, _, _, bindLoad_mem hw hfree, loadBytes_length, fun i x j hi hb => loadBytes_val hi hb, ?_, fun h => absurd rfl (h pa)⟩
      rintro _ ⟨⟩ hin
      refine ⟨fun v hv hnew => ?copy, fun hold hneed => ?fetch⟩
      case copy =>
        rw [boundState_view hv hnew]
        refine ⟨rfl, fun i hi hb => ⟨?_, ?_⟩⟩
        · rw [loadBytes_home (b := queueBinds s k w (.mem pa)) hi hb, viewOf, hv]
          rfl
        · rw [if_pos ((boundBytes_contains (b := queueBinds s k w (.mem pa)) .home).mpr ⟨i, hi, hb⟩), viewOf, hv]
          rfl
      case fetch =>
        rw [boundState_fetch hold hneed, viewOf_fetch]
        refine ⟨rfl, if_pos ((boundBytes_contains .home).mpr hneed), fun i hi hb => ?_⟩
        rw [loadBytes_home (b := queueBinds s k w (.mem pa)) hi hb, memRead_getD _ _ (by omega)]
        congr 1
        omega
    | scr k' off =>
      have hp : ∀ pa, Place.scr k' off ≠ .mem pa := by
        intro _ h
        cases h
      obtain ⟨st, h⟩ := bindLoad_other (d := d) hw hp hfree
      exact ⟨_, _, _, h, loadBytes_length, fun i x j hi hb => loadBytes_val hi hb, fun pa h => absurd h (hp pa),
        fun _ => ⟨rfl, fun i hi hb => loadBytes_home hi hb⟩⟩
    | sys a =>
      have hp : ∀ pa, Place.sys a ≠ .mem pa := by
        intro _ h
        cases h
      obtain ⟨st, h⟩ := bindLoad_other (d := d) hw hp hfree
      exact ⟨_, _, _, h, loadBytes_length, fun i x j hi hb => loadBytes_val hi hb, fun pa h => absurd h (hp pa),
        fun _ => ⟨rfl, fun i hi hb => loadBytes_home hi hb⟩⟩
    | ws off =>
      have hp : ∀ pa, Place.ws off ≠ .mem pa := by
        intro _ h
        cases h
      obtain ⟨st, h⟩ := bindLoad_other (d := d) hw hp hfree
      exact ⟨_, _, _, h, loadBytes_length, fun i x j hi hb => loadBytes_val hi hb, fun pa h => absurd h (hp pa),
        fun _ => ⟨rfl, fun i hi hb => loadBytes_home hi hb⟩⟩

end Sys2Proof.Proofs.Memory
end

section
/-!
The addresses and bytes of memory instructions (R218), the memory trap before any thread performs (R219, R220), and the instructions beside the
per-thread ones: SLD, SST, FENCE, PREF, CCTL, PROBE, STF and LDSM (R223, R233 to R236).
-/
namespace Sys2Proof.Proofs.MemoryRules
open Sys2Proof.Machine

variable {s : State} {e : Env}

/-! ## Addresses -/

section Address
variable {x : Op} {r : Row} {i : Nat} {a : SV}

theorem glbAddr_va_reg (ha : (Env.srcs s e x r x.lit i).a = [a]) {b w n q} (hr : r.b = .reg b w n) (hq : (Env.srcs s e x r x.lit i).b = [q]) :
    (glbAddr s e x r i).va = ((a.lo : Int) + sIntOf 32 q.lo + sIntOf 16 x.imm16) % 2 ^ 64 := by
  unfold glbAddr
  simp only [hr, ha, hq]
  simp [addrSum]

theorem glbAddr_va_no (ha : (Env.srcs s e x r x.lit i).a = [a]) (hr : r.b = .no) :
    (glbAddr s e x r i).va = ((a.lo : Int) + sIntOf 16 x.imm16) % 2 ^ 64 := by
  unfold glbAddr
  simp only [hr, ha]
  simp [addrSum]

theorem scrAddrOf_eq (ha : (Env.srcs s e x r x.lit i).a = [a]) :
    (scrAddrOf s e x r i).2 = (scrAddr a.lo, ((scrAddr a.lo).off : Int) + if x.form = .c32 then 0 else sIntOf 16 x.imm16) := by
  unfold scrAddrOf
  simp only [ha]
  rfl

/-- A thread outside bounds mode names a point. -/
theorem glbAddr_isPoint (hb : (e.warp.lane i).bounds = false) : (glbAddr s e x r i).point = true := by
  unfold glbAddr
  rw [hb]
  rfl

theorem ldReq_accs (hb : (e.warp.lane i).bounds = false) : (ldReq x s e i).accs = [loadAcc x i (vecOf x) false (glbAddr s e x (rowAt 0xC0 x) i)] := by
  unfold ldReq
  exact congrArg MemReq.accs (if_pos (glbAddr_isPoint hb))

theorem sldReq_accs (hb : (e.warp.lane i).bounds = false) : (sldReq x s e i).accs = [loadAcc x i (vecOf x) true (glbAddr s e x (rowAt 0xC6 x) i)] := by
  unfold sldReq
  exact congrArg MemReq.accs (if_pos (glbAddr_isPoint hb))

theorem xloadReq_accs (hb : (e.warp.lane i).bounds = false) : (xloadReq x s e i).accs =
    [loadAcc x i 1 false ((glbAddr s e x (rowAt 0xCC x) i).add (rankOf e x.g i * tyBytes x.type))] := by
  unfold xloadReq
  exact congrArg MemReq.accs (if_pos (glbAddr_isPoint hb))

end Address

/-- Settles O42: each request's one access, and the address its row and operands give. -/
theorem memoryAddresses : Obligations.MemoryAddresses := by
  unfold Obligations.MemoryAddresses
  refine ⟨?_, fun s e x i hb => ⟨?ld, ?sld, ?st, ?sst, ?atom, ?red, ?cstore, ?xload⟩⟩
  · rintro s e x r i hb v rfl
    refine ⟨fun a ha b w n hr q hq => glbAddr_va_reg ha hr hq, fun a ha hr => glbAddr_va_no ha hr, fun a ha => ?_⟩
    rw [scrAddrOf_eq ha]
    exact ⟨rfl, rfl, rfl⟩
  case ld => exact ⟨_, ldReq_accs hb, rfl, rfl, rfl, rfl, rfl, rfl⟩
  case sld => exact ⟨_, sldReq_accs hb, rfl, rfl⟩
  case st => exact ⟨_, rfl, rfl, rfl, rfl, rfl⟩
  case sst => exact ⟨_, rfl, rfl, rfl⟩
  case atom => exact ⟨_, rfl, rfl, rfl, rfl⟩
  case red => exact ⟨_, rfl, rfl, rfl, rfl⟩
  case cstore => exact ⟨_, rfl, rfl, rfl⟩
  case xload => exact ⟨_, xloadReq_accs hb, rfl, rfl⟩

/-! ## Traps -/

theorem memCourse_traps {f : MemForm} {evs : List Nat} {c : Nat} (hact : e.active f.x.g ≠ []) (hreg : e.regTrap f.x (rowAt f.opc f.x) (maskOf (e.active f.x.g)) = none)
    (hmin : (f.reasons s e).min? = some c) :
    memCourse f.opc f.x f.pre f.count f.req evs s e = (s, some { cls := 2, reason := c, mask := 0 }) := by
  obtain ⟨a, l, hal⟩ := List.exists_cons_of_ne_nil hact
  have hr : (f.pre e ++ ((memReqs f.x f.req s e).flatMap fun q => q.2.reasons) ++ s.fullReason e (memAccs f.x f.req s e)).min? = some c := hmin
  unfold memCourse
  rw [hal] at hreg
  simp only [hal, hreg, hr]

theorem memForm_traps {i : Instr} {f : MemForm} (hi : memForm i = some f) (hs : Steady s e) (hb : ElementMode e) (hact : e.active f.x.g ≠ [])
    (hreg : e.regTrap f.x (rowAt f.opc f.x) (maskOf (e.active f.x.g)) = none) {c : Nat}
    (hmin : (f.reasons (e.issued s (perActive f.x.g e) 1) (e.issuing s (perActive f.x.g e) 1)).min? = some c) :
    exec i s = .next ((e.issued s (perActive f.x.g e) 1).takeTrap e.k e.slot e.gid { cls := 2, reason := c, mask := 0 } f.x.form.bytes) := by
  obtain ⟨ev, hx⟩ := memForm_exec hi
  rw [hx]
  unfold memInstr
  rw [issued_element hs hb]
  change answer e _ (memCourse f.opc f.x f.pre f.count f.req [] (e.issued s (perActive f.x.g e) 1) (e.issuing s (perActive f.x.g e) 1)) = _
  rw [memCourse_traps (e := e.issuing s (perActive f.x.g e) 1) hact hreg hmin]
  rfl

/-- The reasons of a virtual address. -/
theorem glbReasons_virtual {p : Party} (hp : s.physical p = false) (va n : Nat) (atomic : Bool) : glbReasons s p va n atomic =
    (if ¬ canonical va then [5] else []) ++ (if va % n ≠ 0 then [6] else []) ++ (if sysAddr va ∧ atomic then [14] else []) ++
      (if sysAddr va ∧ 17 ≤ sysPort va then [15] else []) := by
  unfold glbReasons
  rw [hp]
  rfl

theorem mem_ite_singleton {P : Prop} [Decidable P] {a b : Nat} : a ∈ (if P then [b] else []) ↔ P ∧ a = b := by
  split <;> simp [*]

section Scratchpad
variable {k n : Nat} {t : Team} {a : ScrAddr} {off : Int}

theorem scrPlace_bad (h : a.bad = true) : s.scrPlace k t a off n = .error 7 := if_pos h

theorem scrPlace_own (hbad : a.bad = false) (hwin : a.win = false) : s.scrPlace k t a off n =
    if 0 ≤ off ∧ off + n ≤ t.scrSize then .ok (.scr k (t.scrBase + off.toNat)) else .error 7 := by
  unfold State.scrPlace
  rw [hbad, hwin]
  rfl

theorem scrPlace_noPartner (hbad : a.bad = false) (hwin : a.win = true) (hp : s.partner k t a.pos = none) : s.scrPlace k t a off n = .error 8 := by
  unfold State.scrPlace
  rw [hbad, hwin, hp]
  rfl

end Scratchpad

/-- Settles O43: the course takes its trap at the least reason, in the machine as it issued. -/
theorem memoryTraps : Obligations.MemoryTraps := by
  unfold Obligations.MemoryTraps
  refine ⟨fun i f hi s e hs hb hact hreg c hc hleast => ?_, fun s p va n atomic hp => ?_, fun s k t a off n hbad hwin => ⟨fun h0 hn => ?_, fun h => ?_⟩,
    fun s k t a off n => ⟨fun h => scrPlace_bad h, fun hbad hwin hp => scrPlace_noPartner hbad hwin hp⟩⟩
  · exact memForm_traps hi hs hb hact hreg (List.min?_eq_some_iff.mpr ⟨hc, hleast⟩)
  · rw [glbReasons_virtual hp]
    simp only [List.mem_append, mem_ite_singleton]
    simp
  · rw [scrPlace_own hbad hwin, if_pos ⟨h0, hn⟩]
  · rw [scrPlace_own hbad hwin, if_neg (by omega)]

/-! ## Fences -/

theorem Mem.fenceWarp (hs : Steady s e) (hb : ElementMode e) (x : X96) (h0 : x.op.scope = 0) :
    Completes (.fence x) s e 12 s (acquired (e.issued s 1 1) e.k 2 e.warp) := by
  have hx : execFence x s = _ := (congrArg (fence s 12 · x.g) h0).trans (fence_warp hs hb 12 x.g)
  exact completes_done hs (show execFence x s = _ from hx) (.recore ..) (acquire_only (OnlyWarp.charge ..) 2) (acquire_is (hs.charged ..) 2) (acquired_same ..)

/-- With empty queues a fence has nothing to wait for. -/
theorem fenceDone_empty {slot : Nat} {c : Core} (hw : ∀ w, alook slot c.warps = some w → w.sq = []) (hob : c.ob = []) (scope mark : Nat) :
    fenceDone c slot scope mark = true := by
  unfold fenceDone releasedAt
  rw [hob]
  cases h : alook slot c.warps with
  | none => simp
  | some w => simp [hw w h]

/-- Settles O44: the laws of each instruction, and what a fence finds in empty queues. -/
theorem otherMemoryInstructions : Obligations.OtherMemoryInstructions := by
  unfold Obligations.OtherMemoryInstructions
  intro s e hs hb
  refine ⟨?once, fun x => Mem.fenceC32 hs hb x, ?fence, fun x h0 => Mem.fenceWarp hs hb x h0, fun slot c hw hob scope => fenceDone_empty hw hob scope _,
    fun x => Mem.pref hs hb x, fun x hg ht => ⟨cctl_completes hs hb rfl hg ht, cctl_completes hs hb rfl hg ht⟩,
    fun x hact hf => Mem.probe hs hb x hact hf, fun x hact hf => Mem.stf hs hb x hact hf, fun x hact a hd d s1 hf => Mem.ldsm hs hb x hact hf⟩
  case once =>
    rintro i opc x req hi s1 e1 rfl rfl hf
    exact onceForm_completes hi hs hb hf
  case fence =>
    rintro x h0 b rfl
    exact ⟨fun h => Mem.fence hs hb x h0 h, fun h => show execFence x s = _ from fence_waits hs hb 12 x.op.scope x.g h0 h⟩

end Sys2Proof.Proofs.MemoryRules
end

section
/-!
The frame of a returning atomic whose destination has the bank bit set: the form names no destination (`destVecs`), yet the old value is written to
the vector name D (R229), so the frame that O41 states fails there.
-/
namespace Sys2Proof.Proofs.AtomicFrame
open Sys2Proof.Machine

/-! ## The counterexample

One team of one warp on core 0, of which thread 0 lives and runs; its names 0 to 8 are mapped and hold 0, and the page at 0 is translated. -/

def loneTeam : Team where
  kind := .grid
  uid := some 0
  teamIdx := 0
  teamW := 1
  n := 64
  vectors := 64
  scrBase := 0
  scrSize := 0
  barriers := []

def loneWarp : Warp where
  team := 0
  warpId := 0
  lanes := { live := true, exec := true } :: List.replicate 31 {}
  slices := List.replicate 8 { pc := 0x10000 }
  gangs := [{ id := 0, agent := 1 }]
  vregs := (List.range 9).map fun n => (n, List.replicate 32 { lo := 0, hi := 0 })

def loneThread : State := { State.reset with
  cores := (0, { warps := [(0, loneWarp)], teams := [(0, loneTeam)], order := [(0, 0)] }) :: State.reset.cores
  dies := State.reset.dies.map fun d => { d with tlb := [{ ctx := 0, base := 0, size := 2 ^ 21, frame := 0, stg := false, fidx := 0, g := false, rt := false, s := false, x := true, wr := true }] }
  agenda := []
  focus := (0, 0, 0) }

/-- ATOM.ADD of a 32-bit word at the address in name 4, with the bank bit of D set and D = 40, a name that is not mapped. -/
def bankedAtom : X96 where
  g := ⟨false, 7⟩
  d := 40
  a := 4
  la := false
  lb := false
  b := 6
  c := 8
  lc := false
  ixa := false
  ixb := false
  ixc := false
  bkd := true
  bka := false
  bkb := false
  bkc := false
  op7 := 0
  immb := false
  rm := 0
  sat := false
  type := 1
  scope := 0
  acq := false
  rel := false
  res := 0
  imm16 := 0

/-- How it runs. -/
def bankedForm : MemForm :=
  { opc := 0xCD, x := bankedAtom.op, store := true, pre := detAtomic, count := noCount, req := atomReq bankedAtom.op }

/-! ## What it meets -/

/-- What `Steady` and `ElementMode` ask of a warp, over its own lanes and slices. -/
def standing (e : Env) : Bool :=
  decide (e.warp.lanes.length = 32 ∧ e.warp.slices.length = 8 ∧ e.warp.gangSlices e.gid ≠ []) && (e.warp.slices.all fun x => !x.ended) &&
    (e.warp.lanes.all fun l => !l.bounds)

/-- What `MemForm.Free` asks. -/
def unhindered (f : MemForm) (s : State) (e : Env) : Bool :=
  decide (e.gang.deliv = [] ∧ e.regTrap f.x (rowAt f.opc f.x) (maskOf (e.active f.x.g)) = none ∧ f.reasons s e = []) &&
    (!(e.det && !s.known (Env.party s e) (f.accs s e)) && decide (s.races e (Env.party s e) (f.accs s e) = none ∧ (performed s e (f.accs s e)).2 = []))

/-- Name 40 is mapped once it has performed, and was not before. -/
def mapsForty (s : State) (e : Env) : Bool :=
  ((bankedForm.after s e).warp? e.k e.slot).any fun w => (alook 40 w.vregs).isSome && (alook 40 e.warp.vregs).isNone

theorem standing_iff {s : State} {e : Env} (he : s.env? = some e) (h : standing e = true) : Steady s e ∧ ElementMode e := by
  simp only [standing, Bool.and_eq_true, decide_eq_true_eq, List.all_eq_true, Bool.not_eq_true'] at h
  obtain ⟨⟨⟨hlanes, hslices, hlive⟩, hended⟩, hbounds⟩ := h
  refine ⟨⟨he, hlanes, hslices, hlive, fun x hx _ => hended x hx⟩, fun i => ?_⟩
  unfold Warp.lane
  rw [List.getD_eq_getElem?_getD]
  cases hl : e.warp.lanes[i]? with
  | none => rfl
  | some l => exact hbounds l (List.mem_of_getElem? hl)

theorem free_of_unhindered {f : MemForm} {s : State} {e : Env} (h : unhindered f s e = true) : f.Free s e := by
  simp only [unhindered, Bool.and_eq_true, decide_eq_true_eq, Bool.not_eq_true'] at h
  obtain ⟨⟨hfresh, hregs, hreasons⟩, hknown, hraces, hall⟩ := h
  exact ⟨hfresh, hregs, hreasons, hknown, hraces, hall⟩

/-- Nothing stands in the atomic's way there, and it maps name 40. -/
theorem bankedAtom_runs : (loneThread.env?.any fun e => standing e && decide (e.active bankedForm.x.g ≠ []) &&
    (unhindered bankedForm (e.issued loneThread (perActive bankedForm.x.g e) 1) (e.issuing loneThread (perActive bankedForm.x.g e) 1) &&
      mapsForty loneThread e)) = true := by decide +kernel

/-- Refutes O41: ATOM with the bank bit of D set is a store of no destination name, and maps name 40 all the same. -/
theorem not_memoryInstructionsComplete : ¬ Obligations.MemoryInstructionsComplete := by
  unfold Obligations.MemoryInstructionsComplete
  intro h
  obtain ⟨e, he, hruns⟩ := (Option.any_eq_true _ _).mp bankedAtom_runs
  simp only [Bool.and_eq_true, decide_eq_true_eq] at hruns
  obtain ⟨⟨hstand, hact⟩, hfree, hmaps⟩ := hruns
  obtain ⟨hs, hb⟩ := standing_iff he hstand
  obtain ⟨w, hw, -, -, hframe, -⟩ := (h (.atom bankedAtom) bankedForm rfl loneThread e hs hb).2 hact (free_of_unhindered hfree)
  have hsame : alook 40 w.vregs = alook 40 e.warp.vregs := hframe (.inr rfl) 40 List.not_mem_nil
  unfold mapsForty at hmaps
  rw [hw] at hmaps
  simp [hsame, Option.isSome_iff_ne_none] at hmaps

end Sys2Proof.Proofs.AtomicFrame
end

section
/-!
What performing one access does (R174, R175, R179, R229): the bytes it leaves alone, the queue entry of a store or reduction, what a load and a
returning atomic write.
-/
namespace Sys2Proof.Proofs.Accesses
open Sys2Proof.Machine

variable {s t u : State} {e : Env} {a : Acc} {h : Hit} {w : Warp}

/-! ## Bytes left alone -/

/-- No byte of memory, of system memory or of a scratchpad changes. -/
structure SameBytes (s t : State) : Prop where
  hbm : t.hbm = s.hbm
  sys : t.sysMem = s.sysMem
  scr : ∀ j, (t.core j).scr = (s.core j).scr

theorem SameBytes.refl (s : State) : SameBytes s s := ⟨rfl, rfl, fun _ => rfl⟩

theorem SameBytes.trans (h1 : SameBytes s t) (h2 : SameBytes t u) : SameBytes s u :=
  ⟨h2.hbm.trans h1.hbm, h2.sys.trans h1.sys, fun j => (h2.scr j).trans (h1.scr j)⟩

theorem scr_modCore (s : State) (k : Nat) {f : Core → Core} (h : (f (s.core k)).scr = (s.core k).scr) (j : Nat) :
    ((s.modCore k f).core j).scr = (s.core j).scr := by
  by_cases hj : j = k
  · rw [hj, core_modCore, h]
  · rw [core_modCore_other s f hj]

theorem SameBytes.modCore (s : State) (k : Nat) {f : Core → Core} (h : (f (s.core k)).scr = (s.core k).scr) : SameBytes s (s.modCore k f) :=
  ⟨rfl, rfl, scr_modCore s k h⟩

theorem scr_modWarp (c : Core) (j : Nat) (f : Warp → Warp) : (c.modWarp j f).scr = c.scr := by
  unfold Core.modWarp
  split <;> rfl

theorem scr_modTeam (c : Core) (j : Nat) (f : Team → Team) : (c.modTeam j f).scr = c.scr := by
  unfold Core.modTeam
  split <;> rfl

theorem scr_cvUpdate (c : Core) (pa : Nat) (bs : List Byte) : (c.cvUpdate pa bs).scr = c.scr := by
  unfold Core.cvUpdate
  split <;> rfl

theorem SameBytes.modWarp (s : State) (k j : Nat) (f : Warp → Warp) : SameBytes s (s.modWarp k j f) := .modCore s k (scr_modWarp ..)
theorem SameBytes.modTeam (s : State) (k j : Nat) (f : Team → Team) : SameBytes s (s.modTeam k j f) := .modCore s k (scr_modTeam ..)
theorem SameBytes.fetchSector (s : State) (k x : Nat) : SameBytes s (s.fetchSector k x) :=
  .modCore s k (f := fun c => { c with cv := aput x { data := memRead s.hbm (32 * x) 32, stamp := s.cycleOf k } c.cv }) rfl
theorem SameBytes.pushSq (s : State) (k j : Nat) (x : WEnt) : SameBytes s (s.pushSq k j x) := .modCore s k (scr_modWarp ..)

theorem SameBytes.acquire (s : State) (k j n : Nat) : SameBytes s (s.acquire k j n) := by
  unfold State.acquire
  split
  · exact .modWarp ..
  · exact .refl s

theorem SameBytes.bindLoad {k j n d st : Nat} {p : Place} {bs : List Byte} (hb : s.bindLoad k j p n d = some (bs, st, t)) : SameBytes s t := by
  cases hw : s.warp? k j with
  | none =>
    unfold State.bindLoad at hb
    rw [hw] at hb
    cases hb
  | some w =>
    by_cases hblock : ∃ i, i < n ∧ Memory.queueBinds s k w p i = .blocked
    · rw [Memory.bindLoad_blocked hw hblock] at hb
      cases hb
    · have hfree : ∀ i, i < n → Memory.queueBinds s k w p i ≠ .blocked := fun i hi hx => hblock ⟨i, hi, hx⟩
      by_cases hp : ∃ pa, p = .mem pa
      · obtain ⟨pa, rfl⟩ := hp
        rw [Memory.bindLoad_mem hw hfree] at hb
        cases hb
        unfold Memory.boundState Memory.viewFor
        split
        · split
          · split
            · exact .refl s
            · exact .fetchSector ..
          · exact .fetchSector ..
        · exact .refl s
      · obtain ⟨st', ho⟩ := Memory.bindLoad_other (d := d) hw (fun pa hpa => hp ⟨pa, hpa⟩) hfree
        rw [ho] at hb
        cases hb
        exact .refl s

theorem SameBytes.addRed {ty : Nat} (hr : s.addRed e a h ty = some t) : SameBytes s t := by
  unfold State.addRed at hr
  split at hr
  · obtain ⟨tm, -, rfl⟩ := Option.map_eq_some_iff.mp hr
    exact .modTeam ..
  · cases hr

/-! ## The course of a load -/

/-- The elements of a load as operands. -/
def loadVals (a : Acc) (bs : List Byte) (st : Nat) : List SV := (elemsOf a.type a.count bs).map fun n => { svConst n with stamp := st, e := a.e }

theorem loadAt_some {d : Nat} {uni : Bool} (hl : s.loadAt e a h d uni = some t) : ∃ bs st s1, s.bindLoad e.k e.slot h.place a.size a.stamp = some (bs, st, s1) ∧
    t = (s1.modWarp e.k e.slot fun w => w.putLoad e.handling a.lane d uni a.type (loadVals a bs st)).acquire e.k e.slot a.acq := by
  unfold State.loadAt at hl
  split at hl
  · cases hl
  · split at hl
    · cases hl
    · next bs st s1 hb =>
      cases hl
      exact ⟨bs, st, s1, hb, rfl⟩

theorem SameBytes.loadAt {d : Nat} {uni : Bool} (hl : s.loadAt e a h d uni = some t) : SameBytes s t := by
  obtain ⟨bs, st, s1, hb, rfl⟩ := loadAt_some hl
  exact (SameBytes.bindLoad hb).trans ((SameBytes.modWarp ..).trans (.acquire ..))

/-! ## What each kind of access is -/

section Kinds
variable {op ty m d : Nat}

theorem performAcc_touch (hw : s.warp? e.k e.slot = some w) (hk : a.kind = .touch) : s.performAcc e a h = some s := by
  unfold State.performAcc
  rw [hw, hk]

theorem performAcc_store (hw : s.warp? e.k e.slot = some w) (hk : a.kind = .store) : s.performAcc e a h = some (s.pushSq e.k e.slot (accEntry s e a h)) := by
  unfold State.performAcc
  rw [hw, hk]

theorem performAcc_red (hw : s.warp? e.k e.slot = some w) (hk : a.kind = .red op ty m) : s.performAcc e a h =
    if redirected e.det a h.place then s.addRed e a h ty else some (s.pushSq e.k e.slot { accEntry s e a h with kind := .red op ty m }) := by
  unfold State.performAcc
  rw [hw, hk]

theorem performAcc_load {uni : Bool} (hw : s.warp? e.k e.slot = some w) (hk : a.kind = .load d uni) : s.performAcc e a h = s.loadAt e a h d uni := by
  unfold State.performAcc
  rw [hw, hk]

theorem performAcc_atom (hw : s.warp? e.k e.slot = some w) (hk : a.kind = .atom op ty m d) : s.performAcc e a h = s.atomAt e w a h := by
  unfold State.performAcc
  rw [hw, hk]

theorem performAcc_cas {cmp : Nat} (hw : s.warp? e.k e.slot = some w) (hk : a.kind = .cas cmp d) : s.performAcc e a h = s.atomAt e w a h := by
  unfold State.performAcc
  rw [hw, hk]

theorem SameBytes.red (hw : s.warp? e.k e.slot = some w) (hk : a.kind = .red op ty m) (hp : s.performAcc e a h = some t) : SameBytes s t := by
  rw [performAcc_red hw hk] at hp
  split at hp
  · exact .addRed hp
  · cases hp
    exact .pushSq ..

end Kinds

/-- A warp's store queue with an entry appended. -/
theorem pushSq_is (hw : s.warp? e.k e.slot = some w) (x : WEnt) :
    (s.pushSq e.k e.slot x).warp? e.k e.slot = some { w with sq := w.sq ++ [{ x with seq := (s.core e.k).seq }] } := by
  have h' : alook e.slot (s.core e.k).warps = some w := hw
  simp only [State.warp?, State.pushSq, core_modCore, Core.modWarp, h', alook_put_same]

/-! ## Registers written -/

/-- Everything but the registers of a warp. -/
structure OnlyRegisters (w v : Warp) : Prop where
  sq : v.sq = w.sq
  lanes : v.lanes = w.lanes
  slices : v.slices = w.slices

theorem OnlyRegisters.refl (w : Warp) : OnlyRegisters w w := ⟨rfl, rfl, rfl⟩

theorem OnlyRegisters.foldl {α : Type} {f : Warp → α → Warp} (hf : ∀ w x, OnlyRegisters w (f w x)) (l : List α) (w : Warp) : OnlyRegisters w (l.foldl f w) := by
  induction l generalizing w with
  | nil => exact .refl w
  | cons x l ih =>
    have h1 := hf w x
    have h2 := ih (f w x)
    exact ⟨h2.sq.trans h1.sq, h2.lanes.trans h1.lanes, h2.slices.trans h1.slices⟩

theorem OnlyRegisters.writeVec (w : Warp) (n : Nat) (vals : List (Nat × RVal)) : OnlyRegisters w (w.writeVec n vals) := by
  cases vals <;> exact ⟨rfl, rfl, rfl⟩

theorem OnlyRegisters.writeUni (w : Warp) (b : Bool) (n : Nat) (v : RVal) : OnlyRegisters w (w.writeUni b n v) := by
  unfold Warp.writeUni
  split <;> exact ⟨rfl, rfl, rfl⟩

theorem OnlyRegisters.putLoad (w : Warp) (b : Bool) (lane d : Nat) (uni : Bool) (ty : Nat) (vals : List SV) : OnlyRegisters w (w.putLoad b lane d uni ty vals) := by
  unfold Warp.putLoad Warp.writeUnis Warp.writeVecs
  split
  · exact .foldl (fun w x => .writeUni ..) _ w
  · exact .foldl (fun w x => .writeVec ..) _ w

/-- One 32-bit element written to one lane. -/
theorem putLoad_one (w : Warp) (b : Bool) (lane d ty : Nat) (v : SV) (h32 : tyRegs ty = 32) :
    w.putLoad b lane d false ty [v] = w.writeVec d [(lane, (svNames v 32).headD {})] := by
  simp [Warp.putLoad, Warp.writeVecs, h32, svNames]

theorem writeVec_one (w : Warp) (d lane : Nat) (r : RVal) (l : Nat) :
    (w.writeVec d [(lane, r)]).vec d l = (((alook d w.vregs).getD (List.replicate 32 {})).set lane r).getD l {} := by
  change (match alook d (aput d _ w.vregs) with | some vs => vs.getD l {} | none => {}) = _
  rw [alook_put_same]
  rfl

theorem vec_getD (w : Warp) (d l : Nat) : ((alook d w.vregs).getD (List.replicate 32 {})).getD l {} = w.vec d l := by
  unfold Warp.vec
  cases alook d w.vregs with
  | none =>
    simp only [Option.getD_none, List.getD, List.getElem?_replicate]
    split <;> rfl
  | some vs => rfl

theorem writeVec_one_at (hw : FullVectors w) (d : Nat) {lane : Nat} (hl : lane < 32) (r : RVal) : (w.writeVec d [(lane, r)]).vec d lane = r := by
  have hlen : ((alook d w.vregs).getD (List.replicate 32 {})).length = 32 := by
    cases h : alook d w.vregs with
    | none => simp
    | some vs => exact hw _ (alook_mem h)
  rw [writeVec_one]
  generalize (alook d w.vregs).getD (List.replicate 32 {}) = vs at hlen ⊢
  simp [List.getD, hlen, hl]

theorem writeVec_one_other (w : Warp) (d lane : Nat) (r : RVal) {n l : Nat} (hne : (n, l) ≠ (d, lane)) : (w.writeVec d [(lane, r)]).vec n l = w.vec n l := by
  by_cases hn : n = d
  · subst hn
    have hl : lane ≠ l := fun hl => hne (by rw [hl])
    rw [writeVec_one, ← vec_getD w n l]
    simp [List.getD, hl]
  · exact writeVec_other d _ hn l

theorem warp_acquired {k j n : Nat} {v : Warp} (hv : s.warp? k j = some v) : ∃ v', (s.acquire k j n).warp? k j = some v' ∧ OnlyRegisters v v' ∧ v'.vregs = v.vregs := by
  refine ⟨acquired s k n v, acquire_is hv n, ?_, ?_⟩ <;> unfold acquired <;> split
  · exact ⟨rfl, rfl, rfl⟩
  · exact .refl v
  · rfl
  · rfl

theorem vec_of_vregs {v w : Warp} (h : v.vregs = w.vregs) (n l : Nat) : v.vec n l = w.vec n l := by
  unfold Warp.vec
  rw [h]

/-- What a load leaves in its warp. -/
theorem load_warp {d : Nat} {uni : Bool} {vals : List SV} (hw : s.warp? e.k e.slot = some w) : ∃ v,
    ((s.modWarp e.k e.slot fun w => w.putLoad e.handling a.lane d uni a.type vals).acquire e.k e.slot a.acq).warp? e.k e.slot = some v ∧
      OnlyRegisters w v ∧ v.vregs = (w.putLoad e.handling a.lane d uni a.type vals).vregs := by
  obtain ⟨v, hv, honly, hregs⟩ := warp_acquired (n := a.acq) (warp_modWarp (fun w => w.putLoad e.handling a.lane d uni a.type vals) hw)
  have hput := OnlyRegisters.putLoad w e.handling a.lane d uni a.type vals
  exact ⟨v, hv, ⟨honly.sq.trans hput.sq, honly.lanes.trans hput.lanes, honly.slices.trans hput.slices⟩, hregs⟩

/-! ## Returning atomics -/

theorem atomAt_some (hp : s.atomAt e w a h = some t) : s.atomWaits e w a h = false ∧
    t = (s.atomHome e.k h.place a).1.atomTake e a (s.atomHome e.k h.place a).2 := by
  unfold State.atomAt at hp
  split at hp
  · cases hp
  · next hwait => exact ⟨Bool.eq_false_iff.mpr hwait, (Option.some.inj hp).symm⟩

theorem atomWaits_clear (hf : s.atomWaits e w a h = false) : w.sq = [] ∧ obHas (s.core e.k).ob h.place = false := by
  unfold State.atomWaits at hf
  simp only [Bool.or_eq_false_iff, decide_eq_false_iff_not, ne_eq, Classical.not_not] at hf
  obtain ⟨⟨⟨hsq, hob⟩, -⟩, -⟩ := hf
  exact ⟨hsq, hob⟩

theorem SameBytes.atomTake (s : State) (e : Env) (a : Acc) (old : Nat) : SameBytes s (s.atomTake e a old) := (SameBytes.modWarp ..).trans (.acquire ..)

theorem leNat_lt (bs : List Byte) : leNat bs < 256 ^ bs.length := by
  induction bs with
  | nil => exact Nat.one_pos
  | cons b bs ih =>
    have hb := b.isLt
    have hpow : (256 : Nat) ^ (bs.length + 1) = 256 * 256 ^ bs.length := Nat.pow_succ'
    simp only [leNat, List.length_cons, hpow]
    omega

theorem memNat_lt (m : List Host.Cell) (a n : Nat) : memNat m a n < 256 ^ n := by
  have hlen : (memRead m a n).length = n := by simp [memRead]
  have := leNat_lt (memRead m a n)
  rwa [hlen] at this

/-- The state an atomic leaves at its home. -/
theorem atomWrite_mem (s : State) (k pa : Nat) (bs : List Byte) : (s.atomWrite k (.mem pa) bs).hbm = memWrite s.hbm pa bs ∧
    (s.atomWrite k (.mem pa) bs).sysMem = s.sysMem ∧ ∀ j, ((s.atomWrite k (.mem pa) bs).core j).scr = (s.core j).scr :=
  ⟨rfl, rfl, scr_modCore (s.memApply pa bs) k (scr_cvUpdate ..)⟩

theorem memNat_memWrite {m : List Host.Cell} (hm : Memory.wf m = true) (pa n v : Nat) : memNat (memWrite m pa (natLe n v)) pa n = v % 256 ^ n := by
  have h := memRead_memWrite (natLe n v) pa hm
  rw [natLe_length] at h
  rw [memNat, h, leNat_natLe]

/-- A value is what an atomic writes over an old one. -/
def Writes (a : Acc) (old new : Nat) : Prop := a.atomOut old = some new ∨ (a.atomOut old = none ∧ new = old)

theorem atomHome_mem {pa new : Nat} (hm : MemoryCanonical s) (hnew : Writes a (memNat s.hbm pa a.size) new) (r : State)
    (hr : r = (s.atomHome e.k (.mem pa) a).1) : memNat r.hbm pa a.size = new % 256 ^ a.size ∧
      (∀ b, b < pa ∨ pa + a.size ≤ b → memByte r.hbm b = memByte s.hbm b) ∧ r.sysMem = s.sysMem ∧ ∀ j, (r.core j).scr = (s.core j).scr := by
  have hhome : (s.atomHome e.k (.mem pa) a).1 = match a.atomOut (memNat s.hbm pa a.size) with
      | none => s
      | some n => s.atomWrite e.k (.mem pa) (natLe a.size n) := rfl
  rw [hhome] at hr
  rcases hnew with hout | ⟨hout, rfl⟩
  · obtain ⟨hh, hs, hscr⟩ := atomWrite_mem s e.k pa (natLe a.size new)
    rw [hout] at hr
    subst hr
    refine ⟨?_, fun b hb => ?_, hs, hscr⟩
    · rw [hh, memNat_memWrite hm.1]
    · rw [hh]
      exact memByte_memWrite_other _ (by rwa [natLe_length])
  · rw [hout] at hr
    subst hr
    exact ⟨(Nat.mod_eq_of_lt (memNat_lt ..)).symm, fun _ _ => rfl, rfl, fun _ => rfl⟩

theorem atomDst_vec {d old : Nat} (hw : s.warp? e.k e.slot = some w) (hd : a.atomDst = d) (hfull : FullVectors w) (hl : a.lane < 32) (h32 : tyRegs a.type = 32) :
    ∃ v, (s.atomTake e a old).warp? e.k e.slot = some v ∧ (v.vec d a.lane).lo.toNat = old % 2 ^ 32 := by
  obtain ⟨v, hv, -, hregs⟩ := load_warp (a := a) (d := a.atomDst) (uni := false) (vals := [{ svConst old with stamp := s.cycleOf e.k }]) hw
  refine ⟨v, hv, ?_⟩
  rw [putLoad_one _ _ _ _ _ _ h32] at hregs
  rw [vec_of_vregs hregs, hd, writeVec_one_at hfull d hl]
  simp [svNames, svConst]

/-! ## The statement -/

theorem quiet_bytes (hw : s.warp? e.k e.slot = some w) (hp : s.performAcc e a h = some t)
    (hk : (∃ d u, a.kind = .load d u) ∨ a.kind = .touch ∨ a.kind = .store ∨ ∃ op ty m, a.kind = .red op ty m) : SameBytes s t := by
  rcases hk with ⟨d, u, hk⟩ | hk | hk | ⟨op, ty, m, hk⟩
  · rw [performAcc_load hw hk] at hp
    exact .loadAt hp
  · rw [performAcc_touch hw hk] at hp
    cases hp
    exact .refl s
  · rw [performAcc_store hw hk] at hp
    cases hp
    exact .pushSq ..
  · exact .red hw hk hp

theorem load_effect {d : Nat} {uni : Bool} (hw : s.warp? e.k e.slot = some w) (hp : s.performAcc e a h = some t) (hk : a.kind = .load d uni) :
    ∃ (bs : List Byte) (st : Nat) (s1 : State) (v : Warp), s.bindLoad e.k e.slot h.place a.size a.stamp = some (bs, st, s1) ∧
      t.warp? e.k e.slot = some v ∧ v.sq = w.sq ∧ v.lanes = w.lanes ∧ v.slices = w.slices ∧
      (uni = false → FullVectors w → a.lane < 32 → a.count = 1 → tyRegs a.type = 32 → (v.vec d a.lane).lo.toNat = (elemsOf a.type 1 bs).headD 0 % 2 ^ 32 ∧
        (v.vec d a.lane).stamp = st ∧ ∀ n l, (n, l) ≠ (d, a.lane) → v.vec n l = w.vec n l) := by
  rw [performAcc_load hw hk] at hp
  obtain ⟨bs, st, s1, hb, rfl⟩ := loadAt_some hp
  obtain ⟨v, hv, honly, hregs⟩ := load_warp (a := a) (d := d) (uni := uni) (vals := loadVals a bs st) ((bindLoad_warp hb _ _).trans hw)
  refine ⟨bs, st, s1, v, hb, hv, honly.sq, honly.lanes, honly.slices, ?_⟩
  rintro rfl hfull hl hcount h32
  have hvals : loadVals a bs st = [{ svConst ((elemsOf a.type 1 bs).headD 0) with stamp := st, e := a.e }] := by
    unfold loadVals
    rw [hcount]
    rfl
  rw [hvals, putLoad_one _ _ _ _ _ _ h32] at hregs
  refine ⟨?_, ?_, fun n l hne => ?_⟩
  · rw [vec_of_vregs hregs, writeVec_one_at hfull d hl]
    simp [svNames, svConst]
  · rw [vec_of_vregs hregs, writeVec_one_at hfull d hl]
    simp [svNames]
  · rw [vec_of_vregs hregs, writeVec_one_other w d a.lane _ hne]

theorem atom_effect {new : Nat → Nat → Nat} {d : Nat} (hw : s.warp? e.k e.slot = some w) (hp : s.atomAt e w a h = some t)
    (hnew : ∀ old, Writes a old (new old (leNat a.data))) (hd : a.atomDst = d) (hm : MemoryCanonical s) :
    w.sq = [] ∧ obHas (s.core e.k).ob h.place = false ∧
      (∀ pa, h.place = .mem pa → memNat t.hbm pa a.size = new (memNat s.hbm pa a.size) (leNat a.data) % 256 ^ a.size ∧
        (∀ b, b < pa ∨ pa + a.size ≤ b → memByte t.hbm b = memByte s.hbm b) ∧ t.sysMem = s.sysMem ∧ ∀ j, (t.core j).scr = (s.core j).scr) ∧
      (FullVectors w → a.lane < 32 → tyRegs a.type = 32 → ∃ v, t.warp? e.k e.slot = some v ∧
        (v.vec d a.lane).lo.toNat = leNat (s.homeBytes (dieOf e.k) h.place a.size) % 2 ^ 32) := by
  obtain ⟨hwait, rfl⟩ := atomAt_some hp
  obtain ⟨hsq, hob⟩ := atomWaits_clear hwait
  refine ⟨hsq, hob, fun pa hpa => ?_, fun hfull hl h32 => atomDst_vec ((atomHome_warp ..).trans hw) hd hfull hl h32⟩
  have htake := SameBytes.atomTake (s.atomHome e.k h.place a).1 e a (s.atomHome e.k h.place a).2
  rw [hpa] at htake ⊢
  obtain ⟨h1, h2, h3, h4⟩ := atomHome_mem (e := e) (pa := pa) hm (hnew _) _ rfl
  exact ⟨htake.hbm ▸ h1, fun b hb => htake.hbm ▸ h2 b hb, htake.sys.trans h3, fun j => (htake.scr j).trans (h4 j)⟩

/-- Settles O40: the kinds of access one by one. -/
theorem accessEffects : Obligations.AccessEffects := by
  unfold Obligations.AccessEffects
  intro s t e a h w hw hp
  refine ⟨fun hk => ?bytes, fun hk => ?store, fun op ty m hk hred => ?red, fun d u hk => load_effect hw hp hk, fun new d hk hm => ?atom⟩
  case bytes =>
    have hb := quiet_bytes hw hp hk
    exact ⟨hb.hbm, hb.sys, hb.scr⟩
  case store =>
    rw [performAcc_store hw hk] at hp
    cases hp
    exact ⟨_, pushSq_is hw _, rfl, rfl, rfl, rfl, rfl⟩
  case red =>
    rw [performAcc_red hw hk, hred] at hp
    cases hp
    exact ⟨_, pushSq_is hw _, rfl, rfl, rfl, rfl⟩
  case atom =>
    rcases hk with ⟨op, ty, m, hk, rfl⟩ | ⟨cmp, hk, rfl⟩
    · rw [performAcc_atom hw hk] at hp
      refine atom_effect hw hp (fun old => .inl ?_) (by rw [Acc.atomDst, hk]) hm
      rw [Acc.atomOut, hk]
    · rw [performAcc_cas hw hk] at hp
      refine atom_effect (new := fun old arg => if old = cmp then arg else old) (d := d) hw hp (fun old => ?_) (by rw [Acc.atomDst, hk]) hm
      unfold Writes
      rw [Acc.atomOut, hk]
      by_cases hold : old = cmp
      · exact .inl (by simp [hold])
      · exact .inr (by simp [hold])

end Sys2Proof.Proofs.Accesses
end

section
/-!
Engine commands: the table that tasks enter (R150, R152, R186), and CPY, REDUCE, SUMM, KICK and DRAIN (R163 to R170).
-/
namespace Sys2Proof.Proofs.Engines
open Sys2Proof.Machine

variable {s : State} {e : Env}

/-! ## Entering the table -/

section Table
variable {k slot : Nat} {t : Task} {tm : Team}

/-- The clock a task enters with: its wait's, where that is met on an object (R189). -/
def entryClock (s : State) (k : Nat) (tm : Team) (t : Task) : Clock :=
  match s.waitMet k tm t, (s.refPlace k tm t.wref).bind s.obj? with
  | true, some o => if t.wref.getLsbD 0 then Clock.join t.clock ((((s.refPlace k tm t.wref).map fun p => t.sees tm p o).getD o).clock) else t.clock
  | _, _ => t.clock

/-- A task as it enters: its state, its place in the order, and its bank where it is speculative. -/
def entering (s : State) (k : Nat) (tm : Team) (t : Task) : Task × Team :=
  Task.recorded k tm { t with state := if s.waitMet k tm t then .ready else .waiting, obMark := (s.core k).seq, agent := s.nextAgent, clock := entryClock s k tm t }

/-- The core with an entering task. -/
def withEntry (c : Core) (slot : Nat) (q : Task × Team) : Core :=
  { c with tasks := aput c.nextTask q.1 c.tasks, nextTask := c.nextTask + 1 }.modTeam slot fun _ => q.2

theorem recorded_job (k : Nat) (tm : Team) (t : Task) : ∃ job, (t.token = none → job = t.job) ∧ (Task.recorded k tm t).1 = { t with job := job } := by
  unfold Task.recorded
  split
  · next htok _ => exact ⟨_, fun h => absurd (h.symm.trans htok) nofun, rfl⟩
  · exact ⟨t.job, fun _ => rfl, rfl⟩

theorem entering_slot (s : State) (k : Nat) (tm : Team) (t : Task) : (entering s k tm t).1.slot = t.slot := by
  obtain ⟨job, -, h⟩ := recorded_job k tm { t with
    state := if s.waitMet k tm t then .ready else .waiting, obMark := (s.core k).seq, agent := s.nextAgent, clock := entryClock s k tm t }
  unfold entering
  rw [h]

theorem enterTask_enters (ht : alook t.slot (s.core k).teams = some tm)
    (href : t.wref.getLsbD 0 = true → ∃ p, s.refPlace k tm t.wref = some p ∧ (s.obj? p).isSome = true) :
    s.enterTask k t = { s.setCore k (withEntry (s.core k) t.slot (entering s k tm t)) with nextAgent := s.nextAgent + 1 } := by
  have huntagged : (t.wref.getLsbD 0 && ((s.refPlace k tm t.wref).bind s.obj?).isNone) = false := by
    cases h : t.wref.getLsbD 0 with
    | false => rfl
    | true =>
      obtain ⟨p, hp, ho⟩ := href h
      rw [hp]
      simpa [Option.isSome_iff_ne_none] using ho
  have henter : s.enterTask k t =
      { s.setCore k (withEntry (s.core k) (entering s k tm t).1.slot (entering s k tm t)) with nextAgent := s.nextAgent + 1 } := by
    unfold State.enterTask
    rw [ht]
    exact (if_neg (ne_true_of_eq_false huntagged)).trans rfl
  rw [henter, entering_slot]

theorem withEntry_tasks (c : Core) (slot : Nat) (q : Task × Team) : (withEntry c slot q).tasks = aput c.nextTask q.1 c.tasks := by
  unfold withEntry Core.modTeam
  split <;> rfl

theorem withEntry_next (c : Core) (slot : Nat) (q : Task × Team) : (withEntry c slot q).nextTask = c.nextTask + 1 := by
  unfold withEntry Core.modTeam
  split <;> rfl

/-- The team stays on its slot. -/
theorem withEntry_team (c : Core) {slot : Nat} (q : Task × Team) (h : (alook slot c.teams).isSome = true) : (alook slot (withEntry c slot q).teams).isSome = true := by
  obtain ⟨tm, htm⟩ := Option.isSome_iff_exists.mp h
  unfold withEntry Core.modTeam
  simp only [htm, alook_put_same, Option.isSome_some]

/-- A number above every key goes to the end. -/
theorem aput_end {α : Type} {n : Nat} (v : α) {l : List (Nat × α)} (h : ∀ p ∈ l, p.1 < n) : aput n v l = l ++ [(n, v)] := by
  induction l with
  | nil => rfl
  | cons q l ih =>
    obtain ⟨j, u⟩ := q
    have hj : j < n := h (j, u) List.mem_cons_self
    unfold aput
    rw [if_neg (by omega), if_neg (by omega), ih fun p hp => h p (List.mem_cons_of_mem _ hp)]
    rfl

/-- The tasks of a team. -/
def ofTeam (c : Core) (slot : Nat) : Nat := (c.tasks.filter fun p => p.2.slot = slot).length

theorem entryFree_iff (c : Core) (slot : Nat) : c.entryFree slot = true ↔ c.tasks.length < 64 ∧ ofTeam c slot < 32 := by
  simp [Core.entryFree, ofTeam]

/-- What the numbers of a core's table are after one of a team's tasks has entered. -/
theorem withEntry_counts {c : Core} {q : Task × Team} (hnum : ∀ p ∈ c.tasks, p.1 < c.nextTask) (hq : q.1.slot = slot) :
    (withEntry c slot q).tasks.length = c.tasks.length + 1 ∧ ofTeam (withEntry c slot q) slot = ofTeam c slot + 1 ∧
      ∀ p ∈ (withEntry c slot q).tasks, p.1 < (withEntry c slot q).nextTask := by
  unfold ofTeam
  rw [withEntry_tasks, withEntry_next, aput_end q.1 hnum]
  refine ⟨by simp, by simp [List.filter_append, hq], fun p hp => ?_⟩
  rcases List.mem_append.mp hp with h | h
  · exact Nat.lt_succ_of_lt (hnum p h)
  · rw [List.mem_singleton.mp h]
    exact Nat.lt_succ_self _

/-- Tasks of one team without a wait enter in order while entries are free. -/
theorem enterMany_all (ts : List Task) (s : State) (hts : ∀ t ∈ ts, t.slot = slot ∧ t.wref.getLsbD 0 = false) (hteam : (alook slot (s.core k).teams).isSome = true)
    (hnum : ∀ p ∈ (s.core k).tasks, p.1 < (s.core k).nextTask) (h64 : (s.core k).tasks.length + ts.length ≤ 64) (h32 : ofTeam (s.core k) slot + ts.length ≤ 32) :
    (State.enterMany k ts s).2 = [] ∧ ((State.enterMany k ts s).1.core k).tasks.length = (s.core k).tasks.length + ts.length := by
  induction ts generalizing s with
  | nil => exact ⟨rfl, rfl⟩
  | cons t ts ih =>
    obtain ⟨hslot, hwait⟩ := hts t List.mem_cons_self
    obtain ⟨tm, htm⟩ := Option.isSome_iff_exists.mp hteam
    rw [List.length_cons] at h64 h32
    have henter := enterTask_enters (s := s) (k := k) (t := t) (tm := tm) (by rw [hslot]; exact htm) fun h => absurd (h.symm.trans hwait) nofun
    have hfree : (s.core k).entryFree t.slot = true := by
      rw [entryFree_iff, hslot]
      omega
    have hcore : (s.enterTask k t).core k = withEntry (s.core k) slot (entering s k tm t) := by
      rw [henter, hslot]
      exact core_setCore ..
    obtain ⟨hlen, hown, hnext⟩ := withEntry_counts (q := entering s k tm t) hnum ((entering_slot ..).trans hslot)
    have hih := ih (s.enterTask k t) (fun x hx => hts x (List.mem_cons_of_mem _ hx)) (by rw [hcore]; exact withEntry_team _ _ hteam)
      (by rw [hcore]; exact hnext) (by rw [hcore, hlen]; omega) (by rw [hcore, hown]; omega)
    unfold State.enterMany
    rw [if_pos hfree, List.length_cons]
    refine ⟨hih.1, hih.2.trans ?_⟩
    rw [hcore, hlen]
    omega

end Table

/-- Settles O45: the entry as `enterTask` makes it, and by induction on the tasks. -/
theorem tasksEnter : Obligations.TasksEnter := by
  unfold Obligations.TasksEnter
  refine ⟨fun s k t tm ht href => ?_, fun s k slot ts hts hteam hnum h64 h32 => enterMany_all ts s hts hteam hnum h64 h32, fun s k slot h => ?_⟩
  · obtain ⟨job, hjob, hrec⟩ := recorded_job k tm { t with
      state := if s.waitMet k tm t then .ready else .waiting, obMark := (s.core k).seq, agent := s.nextAgent, clock := entryClock s k tm t }
    have hcore : (s.enterTask k t).core k = withEntry (s.core k) t.slot (entering s k tm t) := by
      rw [enterTask_enters ht href]
      exact core_setCore ..
    refine ⟨entryClock s k tm t, job, hjob, ?_, ?_, ?_, fun j hj => ?_⟩
    · rw [hcore, withEntry_tasks, entering, hrec]
    · rw [hcore, withEntry_next]
    · rw [enterTask_enters ht href]
      rfl
    · rw [enterTask_enters ht href]
      exact core_setCore_other _ _ hj
  · have hno : ¬ (s.core k).entryFree slot = true := by
      rw [entryFree_iff, ofTeam]
      omega
    simpa using hno

/-! ## Commands -/

section Courses
variable (hs : Steady s e) (hb : ElementMode e)
include hs hb

/-- A course at the cost of its opcode answers a trap. -/
theorem issuePaid_traps {len opc : Nat} {x : Op} {g : Guard} {ev : State → Env → Nat → Bool} {f : List Nat → State → Env → Except Trap State} {t : Trap}
    (h : f [] (e.paid s opc x) (e.paying s opc x) = .error t) :
    issue s len g (opCost opc x) 1 ev f = .next ((e.paid s opc x).takeTrap e.k e.slot e.gid t len) := issue_trap hs hb h

variable {f : EngineForm}

theorem engineInstr_enters (hact : actors e f.opc f.x false ≠ []) (hreg : e.regTrap f.x (rowAt f.opc f.x) (maskOf (e.active f.x.g)) = none)
    (hgood : engTrap (lowest ((f.lanes (e.paid s f.opc f.x) (e.paying s f.opc f.x)).map fun q =>
      (q.1, f.reasons (e.paid s f.opc f.x) (e.paying s f.opc f.x) q.2))) 0 = none)
    (hall : AllEnter (e.paid s f.opc f.x) (e.paying s f.opc f.x)
      fun c => (f.lanes (e.paid s f.opc f.x) (e.paying s f.opc f.x)).map fun q => f.task (e.paying s f.opc f.x) c q.2) :
    engineInstr s f.opc f.x f.vals f.reasons f.task = .next ((entered (e.paid s f.opc f.x) (e.paying s f.opc f.x) f.x.form.bytes
      (e.frees f.x (rowAt f.opc f.x)) fun c => (f.lanes (e.paid s f.opc f.x) (e.paying s f.opc f.x)).map fun q => f.task (e.paying s f.opc f.x) c q.2).drawn 1) := by
  obtain ⟨i, l, hil⟩ := List.exists_cons_of_ne_nil hact
  have hil' : actors (e.paying s f.opc f.x) f.opc f.x false = i :: l := hil
  have hreg' : (e.paying s f.opc f.x).regTrap f.x (rowAt f.opc f.x) (maskOf ((e.paying s f.opc f.x).active f.x.g)) = none := hreg
  have henter := enterAll_ok hall f.x.form.bytes (e.frees f.x (rowAt f.opc f.x))
  unfold EngineForm.lanes at hgood henter ⊢
  rw [hil'] at hgood henter ⊢
  unfold engineInstr
  refine issue_paid hs hb ?_
  simp only [hil', hreg', hgood]
  exact congrArg (fun t => Except.ok (State.drawn t 1)) henter

theorem engineInstr_traps {t : Trap} (hact : actors e f.opc f.x false ≠ []) (hreg : e.regTrap f.x (rowAt f.opc f.x) (maskOf (e.active f.x.g)) = none)
    (hbad : engTrap (lowest ((f.lanes (e.paid s f.opc f.x) (e.paying s f.opc f.x)).map fun q =>
      (q.1, f.reasons (e.paid s f.opc f.x) (e.paying s f.opc f.x) q.2))) 0 = some t) :
    engineInstr s f.opc f.x f.vals f.reasons f.task = .next ((e.paid s f.opc f.x).takeTrap e.k e.slot e.gid t f.x.form.bytes) := by
  obtain ⟨i, l, hil⟩ := List.exists_cons_of_ne_nil hact
  have hil' : actors (e.paying s f.opc f.x) f.opc f.x false = i :: l := hil
  have hreg' : (e.paying s f.opc f.x).regTrap f.x (rowAt f.opc f.x) (maskOf ((e.paying s f.opc f.x).active f.x.g)) = none := hreg
  unfold EngineForm.lanes at hbad
  rw [hil'] at hbad
  unfold engineInstr
  refine issuePaid_traps hs hb ?_
  simp only [hil', hreg', hbad]

end Courses

theorem lowest_nil {l : List (Nat × List Nat)} (h : ∀ q ∈ l, q.2 = []) : lowest l = [] :=
  List.filterMap_eq_nil_iff.mpr fun q hq => by rw [h q hq]; rfl

/-- With one lane that has a reason, that lane is the failing one. -/
theorem lowest_one {β : Type} {l : List (Nat × β)} (g : β → List Nat) {q : Nat × β} {c : Nat} (hq : q ∈ l) (hc : g q.2 = [c])
    (hrest : ∀ r ∈ l, r ≠ q → g r.2 = []) (hnd : l.Nodup) : lowest (l.map fun r => (r.1, g r.2)) = [(q.1, c)] := by
  have hnone : ∀ l' : List (Nat × β), (∀ r ∈ l', g r.2 = []) → lowest (l'.map fun r => (r.1, g r.2)) = [] := by
    intro l' h
    refine lowest_nil fun r hr => ?_
    obtain ⟨p, hp, rfl⟩ := List.mem_map.mp hr
    exact h p hp
  obtain ⟨l1, l2, rfl⟩ := List.append_of_mem hq
  have hout : q ∉ l1 ++ l2 := (List.nodup_cons.mp (List.perm_middle.nodup_iff.mp hnd)).1
  have hl1 := hnone l1 fun r hr => hrest r (List.mem_append_left _ hr) fun h => hout (h ▸ List.mem_append_left _ hr)
  have hl2 := hnone l2 fun r hr => hrest r (List.mem_append_right _ (List.mem_cons_of_mem _ hr)) fun h => hout (h ▸ List.mem_append_right _ hr)
  unfold lowest at *
  rw [List.map_append, List.map_cons, List.filterMap_append, List.filterMap_cons, hl1, hl2, hc]
  rfl

/-- A row of `engineForm` says how its instruction runs. -/
theorem engineForm_exec {i : Instr} {f : EngineForm} (h : engineForm i = some f) (s : State) :
    exec i s = engineInstr s f.opc f.x f.vals f.reasons f.task := by
  cases i <;> cases h <;> rfl

section Kick
variable (hs : Steady s e) (hb : ElementMode e)
include hs hb
variable {x : Op} {lane : Nat} {l : List Nat}

/-- What a KICK reads of its operands: the address of its records and their number. -/
def kickAddr (s : State) (e : Env) (x : Op) (lane : Nat) : Nat := pointOf s (sv1 (Env.srcs s e x (rowAt 0xE1 x) (litInt x false 32) lane).a)
def kickCount (s : State) (e : Env) (x : Op) (lane : Nat) : Nat := pointOf (s.drawn 1) (sv1 (Env.srcs s e x (rowAt 0xE1 x) (litInt x false 32) lane).b)

theorem kick_none (hact : actors e 0xE1 x true = lane :: l) (hreg : e.regTrap x (rowAt 0xE1 x) (maskOf (e.active x.g)) = none)
    (hn : kickCount (e.paid s 0xE1 x) (e.paying s 0xE1 x) x lane = 0) :
    kick s x = .next ((e.paying s 0xE1 x).done x.form.bytes (((e.paid s 0xE1 x).drawn 2).modWarp e.k e.slot fun w => w.free (e.frees x (rowAt 0xE1 x)))) := by
  have hact' : actors (e.paying s 0xE1 x) 0xE1 x true = lane :: l := hact
  have hreg' : (e.paying s 0xE1 x).regTrap x (rowAt 0xE1 x) (maskOf ((e.paying s 0xE1 x).active x.g)) = none := hreg
  unfold kickCount at hn
  unfold kick
  refine issue_paid hs hb ?_
  simp only [hact', hreg', hn, if_true, List.min?_nil]
  rfl

theorem kick_enters {a n : Nat} (hact : actors e 0xE1 x true = lane :: l) (hreg : e.regTrap x (rowAt 0xE1 x) (maskOf (e.active x.g)) = none)
    (ha : kickAddr (e.paid s 0xE1 x) (e.paying s 0xE1 x) x lane = a) (hn : kickCount (e.paid s 0xE1 x) (e.paying s 0xE1 x) x lane = n)
    (h0 : 0 < n) (h64 : n ≤ 64) (hal : a % 32 = 0) (hown : ownScr e.k a = true) (hspan : spanReasons (e.paid s 0xE1 x) (e.paying s 0xE1 x) a (32 * n) = [])
    (hgood : ∀ r ∈ kickRecs (e.paid s 0xE1 x) (e.paying s 0xE1 x) a n, copyReasons (e.paid s 0xE1 x) (e.paying s 0xE1 x) r = [])
    (hall : AllEnter (e.paid s 0xE1 x) (e.paying s 0xE1 x) fun c => (kickRecs (e.paid s 0xE1 x) (e.paying s 0xE1 x) a n).map (copyTask (e.paying s 0xE1 x) c)) :
    kick s x = .next ((entered (e.paid s 0xE1 x) (e.paying s 0xE1 x) x.form.bytes (e.frees x (rowAt 0xE1 x)) fun c =>
      (kickRecs (e.paid s 0xE1 x) (e.paying s 0xE1 x) a n).map (copyTask (e.paying s 0xE1 x) c)).drawn 2) := by
  have hact' : actors (e.paying s 0xE1 x) 0xE1 x true = lane :: l := hact
  have hreg' : (e.paying s 0xE1 x).regTrap x (rowAt 0xE1 x) (maskOf ((e.paying s 0xE1 x).active x.g)) = none := hreg
  have hown' : ownScr (e.paying s 0xE1 x).k a = true := hown
  have hsq : ¬ (e.paying s 0xE1 x).warp.sq ≠ [] := not_not_intro hall.1
  have hrecs : ((kickRecs (e.paid s 0xE1 x) (e.paying s 0xE1 x) a n).zipIdx.filterMap
      fun q => (copyReasons (e.paid s 0xE1 x) (e.paying s 0xE1 x) q.1).min?.map fun c => (q.2, c)) = [] :=
    List.filterMap_eq_nil_iff.mpr fun q hq => by
      have hq' : q.1 ∈ kickRecs (e.paid s 0xE1 x) (e.paying s 0xE1 x) a n := (List.mem_zipIdx' hq).2 ▸ List.getElem_mem _
      rw [hgood q.1 hq']
      rfl
  have hn0 : ¬ n = 0 := by omega
  have hnot64 : ¬ 64 < n := by omega
  have henter := enterAll_ok hall x.form.bytes (e.frees x (rowAt 0xE1 x))
  unfold kickAddr at ha
  unfold kickCount at hn
  unfold kick
  refine issue_paid hs hb ?_
  simp only [hact', hreg', ha, hn, if_neg hn0, hal, hspan, hown', if_pos h64, if_neg hnot64, ne_eq, not_true_eq_false, if_false, if_true, List.append_nil,
    List.min?_nil, if_neg hsq, hrecs, List.head?_nil]
  exact congrArg (fun t => Except.ok (State.drawn t 2)) henter

end Kick

theorem issued_tasks (a f : Nat) : ((e.issued s a f).core e.k).tasks = (s.core e.k).tasks := by
  unfold Env.issued State.charge State.occupy State.setWay
  split <;> simp only [core_setCore]

section Drain
variable (hs : Steady s e) (hb : ElementMode e)
include hs hb
variable {x : X96}

/-- The tasks a DRAIN waits for. -/
def drainIds (s : State) (e : Env) (x : X96) : List Nat := ((s.core e.k).tasks.filter fun t => decide (t.2.job.writes &&& x.op.op7 ≠ 0)).map (·.1)

theorem Drain.completes (h : ((s.core e.k).tasks.all fun t => decide (t.2.job.writes &&& x.op.op7 = 0)) = true) : Completes (.drain x) s e 12 s e.warp := by
  have hids : drainIds (e.issued s 1 1) (e.issuing s 1 1) x = [] := by
    unfold drainIds
    change List.map _ (List.filter _ ((e.issued s 1 1).core e.k).tasks) = []
    rw [issued_tasks, List.map_eq_nil_iff, List.filter_eq_nil_iff]
    intro t ht
    simpa using (List.all_eq_true.mp h) t ht
  refine completes_done (e1 := e.issuing s 1 1) (s1 := e.issued s 1 1) hs ?_ (.recore ..) (OnlyWarp.charge ..) (hs.charged ..) (.refl _)
  change execDrain x s = _
  unfold execDrain Machine.control
  refine issue_ok hs hb ?_
  split
  · rfl
  · change (match drainIds (e.issued s 1 1) (e.issuing s 1 1) x with | [] => _ | ids => _) = _
    rw [hids]
    rfl

theorem Drain.stalls (ha : ActsOnce e x.op) {t : Nat × Task} {l : List (Nat × Task)}
    (h : ((s.core e.k).tasks.filter fun t => decide (t.2.job.writes &&& x.op.op7 ≠ 0)) = t :: l) :
    exec (.drain x) s = .next (e.stall (.drain ((t :: l).map (·.1)) 12) (e.issued s 1 1)) := by
  have hids : drainIds (e.issued s 1 1) (e.issuing s 1 1) x = (t :: l).map (·.1) := by
    unfold drainIds
    change List.map _ (List.filter _ ((e.issued s 1 1).core e.k).tasks) = _
    rw [issued_tasks, h]
  have hacts : ¬ (¬ unguarded x.op.g = true ∧ ((e.issuing s 1 1).active x.op.g).isEmpty = true) := by
    rintro ⟨hg, hempty⟩
    rcases ha with h | h
    · exact hg h
    · exact h (List.isEmpty_iff.mp hempty)
  change execDrain x s = _
  unfold execDrain Machine.control
  refine issue_ok hs hb ((if_neg hacts).trans ?_)
  change (match drainIds (e.issued s 1 1) (e.issuing s 1 1) x with | [] => _ | ids => _) = _
  rw [hids]
  rfl

end Drain

/-- Settles O46: the shared course of the commands of one task a lane, KICK's records, DRAIN's wait. -/
theorem engineCommands : Obligations.EngineCommands := by
  unfold Obligations.EngineCommands
  intro s e hs hb
  refine ⟨?forms, ?kick, fun x h => Drain.completes hs hb h, fun x ha t l h => Drain.stalls hs hb ha h⟩
  case forms =>
    rintro i f hi s1 e1 rfl rfl hact hreg
    rw [engineForm_exec hi]
    refine ⟨fun hgood hall => engineInstr_enters hs hb hact hreg ?_ hall, fun q hq c hc hrest hnd => engineInstr_traps hs hb hact hreg ?_⟩
    · rw [lowest_nil]
      · rfl
      · intro q hq
        obtain ⟨p, hp, rfl⟩ := List.mem_map.mp hq
        exact hgood p hp
    · rw [lowest_one _ hq hc hrest hnd]
      rfl
  case kick =>
    rintro x i hi s1 e1 rfl rfl lane l hact hreg a n ha hn
    have hx : exec i s = kick s x := by
      rcases hi with ⟨f, rfl, rfl⟩ | ⟨f, rfl, rfl⟩ <;> rfl
    rw [hx]
    exact ⟨fun h0 => kick_none hs hb hact hreg (hn.symm.trans h0), fun h0 h64 hal hown hspan hgood hall =>
      kick_enters hs hb hact hreg ha.symm hn.symm h0 h64 hal hown hspan hgood hall⟩

end Sys2Proof.Proofs.Engines
end

section
/-!
The matrix unit's instructions (R296 to R308) and the accumulator's (R304, R305), where nothing stands against them.
-/
namespace Sys2Proof.Proofs.Matrix
open Sys2Proof.Machine Sys2Proof.Proofs.Engines

variable {s : State} {e : Env}

/-! ## RSV, RSVFREE, OBLD and ACCST -/

section Once
variable (hs : Steady s e) (hb : ElementMode e)
include hs hb

theorem Mat.rsv {x : X96} (ha : ActsOnce e x.op) (hreg : e.regTrap x.op (rowAt 0xEB x.op) (maskOf (e.active x.op.g)) = none) {r : Resv} {id b : Nat}
    (hr : resvOf ((natsOf (onceOps (e.paid s 0xEB x.op) (e.paying s 0xEB x.op) 0xEB x.op 0).a).foldr (fun w n => n * 2 ^ 32 + w) 0) = some r)
    (hid : (List.range 16).find? (fun i => (alook i e.team.resvs).isNone) = some id) (hfit : ((e.paid s 0xEB x.op).core e.k).fbufFit r.size = some b) :
    exec (.rsv x) s = .next ((e.paying s 0xEB x.op).done 12 ((((e.paid s 0xEB x.op).modTeam e.k e.warp.team
      fun t => { t with resvs := aput id { r with base := b } t.resvs }).modCore e.k
        fun (c : Core) => { c with fbuf := c.fbuf.filter fun p => ¬ (b ≤ p.1 ∧ p.1 < b + r.size) }).modWarp e.k e.slot
          fun w => w.writeUni e.handling x.op.d { lo := BitVec.ofNat 32 id, hi := BitVec.ofNat 32 id })) := by
  have hid' : (List.range 16).find? (fun i => (alook i (e.paying s 0xEB x.op).team.resvs).isNone) = some id := hid
  have hfit' : ((e.paid s 0xEB x.op).core (e.paying s 0xEB x.op).k).fbufFit r.size = some b := hfit
  change execRsv x s = _
  unfold execRsv
  refine matrixOnce_ok hs hb ha hreg ?_
  simp only [hr, hid', hfit']
  rfl

theorem Mat.rsvfree {x : Op} (ha : ActsOnce e x) (hreg : e.regTrap x (rowAt 0xEC x) (maskOf (e.active x.g)) = none) {id : Nat}
    (hid : (sv1 (onceOps (e.paid s 0xEC x) (e.paying s 0xEC x) 0xEC x 0).a).lo = id) (h16 : id < 16) (hsome : (alook id e.team.resvs).isSome = true)
    (hbusy : ((e.paid s 0xEC x).core e.k).resvBusy e.warp.team id = false) :
    rsvfree s x = .next ((e.paying s 0xEC x).done x.form.bytes ((e.paid s 0xEC x).modTeam e.k e.warp.team fun t => { t with resvs := adel id t.resvs })) := by
  have hok : ¬ (16 ≤ id ∨ (alook id (e.paying s 0xEC x).team.resvs).isNone = true ∨
      ((e.paid s 0xEC x).core (e.paying s 0xEC x).k).resvBusy (e.paying s 0xEC x).warp.team id = true) := by
    rintro (h | h | h)
    · omega
    · have hnone : alook id e.team.resvs = none := Option.isNone_iff_eq_none.mp h
      rw [hnone] at hsome
      cases hsome
    · exact absurd (h.symm.trans hbusy) nofun
  unfold Machine.rsvfree
  refine matrixOnce_ok hs hb ha hreg ?_
  simp only [hid, if_neg hok]
  rfl

theorem Mat.obld {x : X96} (ha : ActsOnce e x.op) (hreg : e.regTrap x.op (rowAt 0xED x.op) (maskOf (e.active x.op.g)) = none) {ref : Nat} {c : List Nat} {r : Resv}
    (href : ref = (sv1 (onceOps (e.paid s 0xED x.op) (e.paying s 0xED x.op) 0xED x.op 0).a).lo)
    (hc : c = natsOf (onceOps (e.paid s 0xED x.op) (e.paying s 0xED x.op) 0xED x.op 0).c) (hr : alook (ref % 16) e.team.resvs = some r)
    (hgood : obldBad r (x.op.op7 % 4) ref (c.getD 0 0 % 65536) (c.getD 0 0 / 65536) = false) {mk : Clock → List Task}
    (hmk : mk = fun ck => [(e.paying s 0xED x.op).newTask (.obld (x.op.op7 % 4) x.op.type (e.mode x.op.rm) (x.op.op7 / 4 % 2 = 1) (BitVec.ofNat 32 ref)
      (sv1 (onceOps (e.paid s 0xED x.op) (e.paying s 0xED x.op) 0xED x.op 0).b).lo (c.getD 0 0 % 65536) (c.getD 0 0 / 65536) (c.getD 1 0))
      (BitVec.ofNat 32 (c.getD 2 0)) (BitVec.ofNat 32 (c.getD 3 0)) 0 none ck])
    (hall : AllEnter (e.paid s 0xED x.op) (e.paying s 0xED x.op) mk) :
    exec (.obld x) s = .next (entered (e.paid s 0xED x.op) (e.paying s 0xED x.op) 12 [] mk) := by
  have hr' : alook (ref % 16) (e.paying s 0xED x.op).team.resvs = some r := hr
  have henter := enterAll_ok hall 12 []
  subst hmk
  change execObld x s = _
  unfold execObld
  refine matrixOnce_ok hs hb ha hreg ?_
  simp only [← href, ← hc, hr', hgood]
  exact congrArg Except.ok henter

theorem Mat.accst {x : X96} (ha : ActsOnce e x.op) (hreg : e.regTrap x.op (rowAt 0xEF x.op) (maskOf (e.active x.op.g)) = none) {c : List Nat} {dst n : Nat} {r : Rect}
    (hc : c = natsOf (onceOps (e.paid s 0xEF x.op) (e.paying s 0xEF x.op) 0xEF x.op 0).c)
    (hdst : dst = (sv1 (onceOps (e.paid s 0xEF x.op) (e.paying s 0xEF x.op) 0xEF x.op 0).b).lo)
    (hr : shapeRect (sv1 (onceOps (e.paid s 0xEF x.op) (e.paying s 0xEF x.op) 0xEF x.op 0).a).lo (c.getD 0 0) (if x.op.type = 6 then 2 else 1) = some r)
    (hn : n = r.cols / (if x.op.type = 6 then 2 else 1)) (hpitch : n * tyBytes x.op.type ≤ c.getD 1 0) (hal : dst % tyBytes x.op.type = 0)
    (hin : x.op.op7 = 1 → ∃ p, (e.paid s 0xEF x.op).scrPlace e.k e.team (scrAddr dst) (scrAddr dst).off ((r.rows - 1) * c.getD 1 0 + n * tyBytes x.op.type) = .ok p)
    (howns : ((e.paid s 0xEF x.op).core e.k).owns e.warp.team r = true) {mk : Clock → List Task}
    (hmk : mk = fun ck => [(e.paying s 0xEF x.op).newTask (.accst x.op.type (e.mode x.op.rm) x.op.sat (x.op.op7 = 1) r dst (c.getD 1 0))
      (BitVec.ofNat 32 (c.getD 2 0)) (BitVec.ofNat 32 (c.getD 3 0)) (relOf x.op) none ck])
    (hall : AllEnter (e.paid s 0xEF x.op) (e.paying s 0xEF x.op) mk) :
    exec (.accst x) s = .next (entered (e.paid s 0xEF x.op) (e.paying s 0xEF x.op) 12 [] mk) := by
  have howns' : ¬ ¬ ((e.paid s 0xEF x.op).core (e.paying s 0xEF x.op).k).owns (e.paying s 0xEF x.op).warp.team r = true := not_not_intro howns
  have hplace : ¬ (c.getD 1 0 < n * tyBytes x.op.type ∨ dst % tyBytes x.op.type ≠ 0 ∨
      (decide (x.op.op7 = 1) && (match (e.paid s 0xEF x.op).scrPlace (e.paying s 0xEF x.op).k (e.paying s 0xEF x.op).team (scrAddr dst) (scrAddr dst).off
        ((r.rows - 1) * c.getD 1 0 + n * tyBytes x.op.type) with | .ok _ => false | .error _ => true)) = true) := by
    rintro (h | h | h)
    · omega
    · exact h hal
    · obtain ⟨h1, h2⟩ := Bool.and_eq_true_iff.mp h
      obtain ⟨p, hp⟩ := hin (of_decide_eq_true h1)
      have hp' : (e.paid s 0xEF x.op).scrPlace (e.paying s 0xEF x.op).k (e.paying s 0xEF x.op).team (scrAddr dst) (scrAddr dst).off
        ((r.rows - 1) * c.getD 1 0 + n * tyBytes x.op.type) = .ok p := hp
      rw [hp'] at h2
      exact absurd h2 nofun
  have henter := enterAll_ok hall 12 []
  subst hmk
  change execAccst x s = _
  unfold execAccst
  refine matrixOnce_ok hs hb ha hreg ?_
  simp only [← hdst, ← hc, hr, ← hn]
  refine (if_neg hplace).trans ((if_neg howns').trans ?_)
  exact congrArg Except.ok henter

end Once

/-! ## MMA -/

section Mma
variable (hs : Steady s e) (hb : ElementMode e)
include hs hb
variable {x : Long} {lane : Nat}

/-- The plan of an MMA as it issues. -/
def planned (s : State) (e : Env) (x : Op) (lane : Nat) : MmaPlan := mmaPlan (e.issued s (perActive x.g e) 1) (e.issuing s (perActive x.g e) 1) x lane

theorem Mat.mma (hact : e.active (x.op 0).g = [lane]) (hreg : mmaRegs (e.issuing s (perActive (x.op 0).g e) 1) (x.op 0) (planned s e (x.op 0) lane) = [])
    (hgood : (planned s e (x.op 0) lane).reasons = [])
    (hall : AllEnter (e.issued s (perActive (x.op 0).g e) 1) (e.issuing s (perActive (x.op 0).g e) 1)
      fun ck => [mmaTask (e.issuing s (perActive (x.op 0).g e) 1) (planned s e (x.op 0) lane) ck]) :
    exec (.mma x) s = .next (entered (e.issued s (perActive (x.op 0).g e) 1) (e.issuing s (perActive (x.op 0).g e) 1) (x.op 0).form.bytes
      (planned s e (x.op 0) lane).frees fun ck => [mmaTask (e.issuing s (perActive (x.op 0).g e) 1) (planned s e (x.op 0) lane) ck]) := by
  have hact' : (e.issuing s (perActive (x.op 0).g e) 1).active (x.op 0).g = [lane] := hact
  have hsq : ¬ (e.issuing s (perActive (x.op 0).g e) 1).warp.sq ≠ [] := not_not_intro hall.1
  have henter := enterAll_ok hall (x.op 0).form.bytes (planned s e (x.op 0) lane).frees
  unfold planned at hreg hgood henter ⊢
  change execMma x s = _
  unfold execMma
  refine issue_ok hs hb ?_
  change (match (e.issuing s (perActive (x.op 0).g e) 1).active (x.op 0).g with | [] => _ | _ :: _ :: _ => _ | [lane] => _) = _
  rw [hact']
  change (match (mmaRegs (e.issuing s (perActive (x.op 0).g e) 1) (x.op 0) (mmaPlan (e.issued s (perActive (x.op 0).g e) 1)
    (e.issuing s (perActive (x.op 0).g e) 1) (x.op 0) lane)).min? with | some q => _ | none => _) = _
  rw [hreg]
  change (match (mmaPlan (e.issued s (perActive (x.op 0).g e) 1) (e.issuing s (perActive (x.op 0).g e) 1) (x.op 0) lane).reasons.min? with
    | some q => _ | none => _) = _
  rw [hgood]
  exact (if_neg hsq).trans (congrArg Except.ok henter)

theorem Mat.mma_traps (hact : e.active (x.op 0).g = [lane]) (hreg : mmaRegs (e.issuing s (perActive (x.op 0).g e) 1) (x.op 0) (planned s e (x.op 0) lane) = [])
    {c : Nat} (hmin : (planned s e (x.op 0) lane).reasons.min? = some c) :
    exec (.mma x) s = .next ((e.issued s (perActive (x.op 0).g e) 1).takeTrap e.k e.slot e.gid { cls := 10, reason := c, mask := maskOf [lane] } (x.op 0).form.bytes) := by
  have hact' : (e.issuing s (perActive (x.op 0).g e) 1).active (x.op 0).g = [lane] := hact
  unfold planned at hreg hmin
  change execMma x s = _
  unfold execMma
  refine issue_trap hs hb ?_
  change (match (e.issuing s (perActive (x.op 0).g e) 1).active (x.op 0).g with | [] => _ | _ :: _ :: _ => _ | [lane] => _) = _
  rw [hact']
  change (match (mmaRegs (e.issuing s (perActive (x.op 0).g e) 1) (x.op 0) (mmaPlan (e.issued s (perActive (x.op 0).g e) 1)
    (e.issuing s (perActive (x.op 0).g e) 1) (x.op 0) lane)).min? with | some q => _ | none => _) = _
  rw [hreg]
  change (match (mmaPlan (e.issued s (perActive (x.op 0).g e) 1) (e.issuing s (perActive (x.op 0).g e) 1) (x.op 0) lane).reasons.min? with
    | some q => _ | none => _) = _
  rw [hmin]
  exact congrArg (fun l => Except.error ({ cls := 10, reason := c, mask := maskOf l } : Trap)) hact'

theorem Mat.mma_several (h : 2 ≤ (e.active (x.op 0).g).length) :
    exec (.mma x) s = .next ((e.issued s (perActive (x.op 0).g e) 1).takeTrap e.k e.slot e.gid
      { cls := 10, reason := 1, mask := maskOf (e.active (x.op 0).g) } (x.op 0).form.bytes) := by
  match hact : e.active (x.op 0).g, h with
  | i :: j :: l, _ =>
    have hact' : (e.issuing s (perActive (x.op 0).g e) 1).active (x.op 0).g = i :: j :: l := hact
    change execMma x s = _
    unfold execMma
    refine issue_trap hs hb ?_
    change (match (e.issuing s (perActive (x.op 0).g e) 1).active (x.op 0).g with | [] => _ | _ :: _ :: _ => _ | [lane] => _) = _
    rw [hact']
    exact congrArg (fun l => Except.error ({ cls := 10, reason := 1, mask := maskOf l } : Trap)) hact'

end Mma

/-! ## RESOLVE -/

section Resolve
variable (hs : Steady s e) (hb : ElementMode e)
include hs hb
variable {x : Op} {lane tok : Nat} {l : List Nat} {b : Bool}

/-- A course at the cost of one cycle answers a state. -/
theorem issueOne_ok {len : Nat} {g : Guard} {ev : State → Env → Nat → Bool} {f : List Nat → State → Env → Except Trap State} {t : State}
    (h : f [] (e.issued s 1 1) (e.issuing s 1 1) = .ok t) : issue s len g oneCycle 1 ev f = .next t := issue_ok hs hb h

/-- A lane's vote for a commit. -/
def votes (e : Env) (x : Op) (i : Nat) : Bool := decide (((e.warp.lane i).pred (x.a % 8)).v = .t)

/-- RESOLVE with one vote of all its threads, and a token of the team. -/
theorem resolveTok_settles (hact : e.active x.g = lane :: l) (hreg : e.regTrap x (rowAt 0xF1 x) (maskOf (e.active x.g)) = none)
    (htok : tok = (sv1 (Env.srcs (e.issued s 1 1) (e.issuing s 1 1) x (rowAt 0xF1 x) (litInt x false 32) lane).b).lo) (h4 : tok < 4)
    (hvotes : ∀ j ∈ e.active x.g, votes e x j = b) {t : State}
    (ht : (if ¬ b = true then Except.ok ((e.issuing s 1 1).done x.form.bytes (((e.issued s 1 1).discardToken e.k e.warp.team tok).modWarp e.k e.slot
        fun w => w.free (e.frees x (rowAt 0xF1 x))))
      else match (e.team.tokens.getD tok {}).held with
        | h :: _ => .ok (((e.issuing s 1 1).stall .retry (e.issued s 1 1)).applyHeld e.k e.warp.team tok h)
        | [] => .ok ((e.issuing s 1 1).done x.form.bytes (((e.issued s 1 1).commitToken e.k e.warp.team tok).modWarp e.k e.slot
          fun w => w.free (e.frees x (rowAt 0xF1 x))))) = (.ok t : Except Trap State)) : resolveTok s x = .next t := by
  have hact' : (e.issuing s 1 1).active x.g = lane :: l := hact
  have hreg' : (e.issuing s 1 1).regTrap x (rowAt 0xF1 x) (maskOf (lane :: l)) = none := hact ▸ hreg
  have hlane : votes e x lane = b := hvotes lane (hact ▸ List.mem_cons_self)
  have hagree : ¬ (4 ≤ tok ∨ (l.any fun i => votes e x i != votes e x lane) = true) := by
    rintro (h | h)
    · omega
    · obtain ⟨i, hi, hne⟩ := List.any_eq_true.mp h
      rw [hvotes i (hact ▸ List.mem_cons_of_mem _ hi), hlane] at hne
      simp at hne
  unfold votes at hlane hagree
  unfold resolveTok
  refine issueOne_ok hs hb ?_
  simp only [hact', hreg', ← htok]
  refine (if_neg hagree).trans ?_
  rw [← ht, ← hlane]
  rfl

end Resolve

/-- Settles O47: the laws above. -/
theorem matrixInstructions : Obligations.MatrixInstructions := by
  unfold Obligations.MatrixInstructions
  intro s e hs hb
  refine ⟨?rsv, ?rsvfree, ?obld, ?accst, ?mma, fun x h => Mat.mma_several hs hb h, ?resolve⟩
  case rsv =>
    rintro x ha hreg s1 e1 rfl rfl r id b hr hid hfit
    exact Mat.rsv hs hb ha hreg hr hid hfit
  case rsvfree =>
    rintro x i hi ha hreg s1 e1 rfl rfl id hid h16 hsome hbusy
    have hx : exec i s = rsvfree s x := by
      rcases hi with ⟨f, rfl, rfl⟩ | ⟨f, rfl, rfl⟩ <;> rfl
    exact hx.trans (Mat.rsvfree hs hb ha hreg hid.symm h16 hsome hbusy)
  case obld =>
    rintro x ha hreg s1 e1 rfl rfl ref c r href hc hr hgood mk hmk hall
    exact Mat.obld hs hb ha hreg href hc hr hgood hmk hall
  case accst =>
    rintro x ha hreg s1 e1 rfl rfl c dst r n hc hdst hr hn hpitch hal hin howns mk hmk hall
    exact Mat.accst hs hb ha hreg hc hdst hr hn hpitch hal hin howns hmk hall
  case mma =>
    rintro x lane hact s1 e1 rfl rfl p rfl hreg
    exact ⟨fun hgood hall => Mat.mma hs hb hact hreg hgood hall,
      fun c hc hleast => Mat.mma_traps hs hb hact hreg (List.min?_eq_some_iff.mpr ⟨hc, hleast⟩)⟩
  case resolve =>
    rintro x i hi lane l hact hreg s1 e1 rfl rfl tok b htok h4 hvotes
    have hx : exec i s = resolveTok s x := by
      rcases hi with ⟨f, rfl, rfl⟩ | ⟨f, rfl, rfl⟩ <;> rfl
    rw [hx]
    refine ⟨fun hb' => resolveTok_settles hs hb hact hreg htok h4 hvotes ?_, fun h hs' hb' hheld => resolveTok_settles hs hb hact hreg htok h4 hvotes ?_⟩
    · cases b with
      | false => rfl
      | true =>
        rw [hb'.resolve_left nofun]
        rfl
    · rw [hb', hheld]
      rfl

/-! ## The accumulator -/

/-- With no flag enabled none of the threads traps. -/
theorem enabledFlags_none {e : Env} (hfp : e.warp.fpmode.toNat / 256 % 128 = 0) (b : Bool) : enabledFlags e.warp b = 0 := by
  unfold enabledFlags
  rw [hfp, Nat.zero_and]

section Accumulator
variable (hs : Steady s e) (hb : ElementMode e)
include hs hb
variable {x : X96} {row col n : Nat}

/-- The operands of an ACCZ. -/
def acczOps (s : State) (e : Env) (x : Op) : Srcs := onceOps (e.paid s 0xF0 x) (e.paying s 0xF0 x) 0xF0 x (litInt x false 32)

/-- `n` strips from a row on, and the rectangle they are. -/
def stripsFrom (row n : Nat) : List Nat := (List.range n).map (row / 16 + ·)
abbrev stripRect (row n : Nat) : Rect := { row := row, col := 0, rows := 16 * n, cols := 512 }

theorem Mat.acczTake (ha : ActsOnce e x.op) (hreg : e.regTrap x.op (rowAt 0xF0 x.op) (maskOf (e.active x.op.g)) = none)
    (haddr : accAddr (sv1 (acczOps s e x.op).a).lo = some (row, col)) (hn : n = (sv1 (acczOps s e x.op).b).lo) (h0 : 0 < n) (h32 : row / 16 + n ≤ 32)
    (hbusy : (e.paid s 0xF0 x.op).rectBusy e.k e.warp.team (stripRect row n) (e.paid s 0xF0 x.op).nextAgent = false) {c : Core}
    (hc : c = (e.paid s 0xF0 x.op).core e.k) (hfree : ∀ i ∈ stripsFrom row n, alook i c.strips = none) :
    exec (.acczTake x) s = .next ((e.paying s 0xF0 x.op).done 12 ((e.paid s 0xF0 x.op).setCore e.k { c with
      strips := (stripsFrom row n).foldl (fun m i => aput i e.warp.team m) c.strips
      acc := bankClear c.acc (stripRect row n), shadow := bankClear c.shadow (stripRect row n)
      stat := (stripsFrom row n).foldl (fun m i => adel i m) c.stat, shadowStat := (stripsFrom row n).foldl (fun m i => adel i m) c.shadowStat })) := by
  have hmin : min n 33 = n := by omega
  have hnone : ∀ p : Option Nat → Bool, p none = false → (stripsFrom row n).any (fun i => p (alook i c.strips)) = false := by
    intro p hp
    refine List.any_eq_false.mpr fun i hi => ?_
    rw [hfree i hi, hp]
    exact nofun
  have hok : ¬ (n = 0 ∨ 32 < row / 16 + n ∨ (stripsFrom row n).any (fun i => alook i c.strips = some e.warp.team) = true) := by
    rintro (h | h | h)
    · omega
    · omega
    · exact absurd (h.symm.trans (hnone (fun o => o = some e.warp.team) rfl)) nofun
  have hgo : ¬ ((stripsFrom row n).any (fun i => (alook i c.strips).isSome) = true ∨
      (e.paid s 0xF0 x.op).rectBusy e.k e.warp.team (stripRect row n) (e.paid s 0xF0 x.op).nextAgent = true) := by
    rintro (h | h)
    · exact absurd (h.symm.trans (hnone Option.isSome rfl)) nofun
    · exact absurd (h.symm.trans hbusy) nofun
  unfold stripsFrom at hok hgo ⊢
  unfold acczOps at haddr hn
  subst hc
  change execAcczTake x s = _
  unfold execAcczTake
  refine matrixOnce_ok hs hb ha hreg ?_
  simp only [haddr, ← hn, hmin]
  exact (if_neg hok).trans (if_neg hgo)

theorem Mat.acczGive (ha : ActsOnce e x.op) (hreg : e.regTrap x.op (rowAt 0xF0 x.op) (maskOf (e.active x.op.g)) = none)
    (haddr : accAddr (sv1 (acczOps s e x.op).a).lo = some (row, col)) (hn : n = (sv1 (acczOps s e x.op).b).lo) (h0 : 0 < n) (h32 : row / 16 + n ≤ 32)
    (hbusy : (e.paid s 0xF0 x.op).rectBusy e.k e.warp.team (stripRect row n) (e.paid s 0xF0 x.op).nextAgent = false) {c : Core}
    (hc : c = (e.paid s 0xF0 x.op).core e.k) (hheld : ∀ i ∈ stripsFrom row n, alook i c.strips = some e.warp.team)
    (htask : (e.paid s 0xF0 x.op).rectTask e.k (stripRect row n) = false) :
    exec (.acczGive x) s = .next ((e.paying s 0xF0 x.op).done 12 ((e.paid s 0xF0 x.op).setCore e.k { c with
      strips := (stripsFrom row n).foldl (fun m i => adel i m) c.strips
      stat := (stripsFrom row n).foldl (fun m i => adel i m) c.stat, shadowStat := (stripsFrom row n).foldl (fun m i => adel i m) c.shadowStat })) := by
  have hmin : min n 33 = n := by omega
  have hok : ¬ (n = 0 ∨ 32 < row / 16 + n ∨ (stripsFrom row n).any (fun i => alook i c.strips ≠ some e.warp.team) = true) := by
    rintro (h | h | h)
    · omega
    · omega
    · obtain ⟨i, hi, hne⟩ := List.any_eq_true.mp h
      exact of_decide_eq_true hne (hheld i hi)
  unfold stripsFrom at hok ⊢
  unfold acczOps at haddr hn
  subst hc
  change execAcczGive x s = _
  unfold execAcczGive
  refine matrixOnce_ok hs hb ha hreg ?_
  simp only [haddr, ← hn, hmin]
  exact (if_neg hok).trans ((if_neg (ne_true_of_eq_false hbusy)).trans (if_neg (ne_true_of_eq_false htask)))

theorem Mat.acczClr (ha : ActsOnce e x.op) (hreg : e.regTrap x.op (rowAt 0xF0 x.op) (maskOf (e.active x.op.g)) = none) {r : Rect}
    (hr : shapeRect (sv1 (acczOps s e x.op).a).lo (sv1 (acczOps s e x.op).b).lo 1 = some r) {c : Core} (hc : c = (e.paid s 0xF0 x.op).core e.k)
    (howns : c.owns e.warp.team r = true) (htoken : (e.paid s 0xF0 x.op).tokenBusy e.k r = false)
    (hbusy : (e.paid s 0xF0 x.op).rectBusy e.k e.warp.team r (e.paid s 0xF0 x.op).nextAgent = false) :
    exec (.acczClr x) s = .next ((e.paying s 0xF0 x.op).done 12 ((e.paid s 0xF0 x.op).setCore e.k { c with
      acc := bankClear c.acc r, stat := r.strips.foldl (fun m i => adel i m) c.stat, shadowStat := r.strips.foldl (fun m i => adel i m) c.shadowStat })) := by
  unfold acczOps at hr
  subst hc
  change execAcczClr x s = _
  unfold execAcczClr
  refine matrixOnce_ok hs hb ha hreg ?_
  simp only [hr]
  exact (if_neg (not_not_intro howns)).trans ((if_neg (ne_true_of_eq_false htoken)).trans (if_neg (ne_true_of_eq_false hbusy)))

theorem Mat.accrd (hact : e.active x.op.g ≠ []) (hreg : e.regTrap x.op (rowAt 0xEE x.op) (maskOf (e.active x.op.g)) = none)
    (hfp : e.warp.fpmode.toNat / 256 % 128 = 0) {s2 : State} {e2 : Env} (hs2 : s2 = e.issued s (perActive x.op.g e) 1) (he2 : e2 = e.issuing s (perActive x.op.g e) 1)
    (hbad : accrdBad s2 e2 x.op = []) (hbusy : accrdBusy s2 e2 x.op = false) :
    exec (.accrd x) s = .next (e2.done 12 (s2.modWarp e.k e.slot fun _ =>
      e2.writeOut ((accrdOuts s2 e2 x.op).foldl (fun w o => w.modLane o.1 fun l => l.note o.2.fl 0) e.warp) x.op (rowAt 0xEE x.op) (accrdOuts s2 e2 x.op))) := by
  obtain ⟨i, l, hil⟩ := List.exists_cons_of_ne_nil hact
  have hact' : e2.active x.op.g = i :: l := he2 ▸ hil
  have hreg' : e2.regTrap x.op (rowAt 0xEE x.op) (maskOf (i :: l)) = none := he2 ▸ hil ▸ hreg
  have hquiet : (accrdOuts s2 e2 x.op).filter (fun o => o.2.fl &&& enabledFlags e2.warp (e2.warp.lane o.1).bounds ≠ 0) = [] := by
    refine List.filter_eq_nil_iff.mpr fun o ho => ?_
    have henabled : enabledFlags e2.warp (e2.warp.lane o.1).bounds = 0 := he2 ▸ enabledFlags_none hfp _
    rw [henabled]
    simp
  have hcourse : accrdCourse x.op s2 e2 = (e2.done 12 (s2.modWarp e2.k e2.slot fun _ =>
      e2.writeOut ((accrdOuts s2 e2 x.op).foldl (fun w o => w.modLane o.1 fun l => l.note o.2.fl 0) e2.warp) x.op (rowAt 0xEE x.op) (accrdOuts s2 e2 x.op)), none) := by
    unfold accrdCourse
    simp only [hact', hreg', hbad, hbusy, hquiet]
    rfl
  subst hs2 he2
  exact (show execAccrd x s = _ from issued_course hs hb hcourse)

end Accumulator

theorem alook_filter {α : Type} (p : Nat → Bool) (k : Nat) (l : List (Nat × α)) : alook k (l.filter fun q => p q.1) = if p k then alook k l else none := by
  induction l with
  | nil => simp [alook]
  | cons q l ih =>
    obtain ⟨j, v⟩ := q
    rw [List.filter_cons]
    by_cases hj : j = k
    · subst hj
      by_cases hp : p j = true
      · simp [hp, alook]
      · simp [hp, ih]
    · split <;> simp [alook, hj, ih]

/-- A cell of a cleared rectangle, and one outside it. -/
theorem bankGet_bankClear (b : List (Nat × Word)) (r : Rect) {row col : Nat} (h : col < 512) : bankGet (bankClear b r) row col =
    if r.row ≤ row ∧ row < r.row + r.rows ∧ r.col ≤ col ∧ col < r.col + r.cols then 0 else bankGet b row col := by
  have hrow : (row * 512 + col) / 512 = row := by omega
  have hcol : (row * 512 + col) % 512 = col := by omega
  unfold bankGet bankClear
  rw [alook_filter (fun a => decide ¬ (r.row ≤ a / 512 ∧ a / 512 < r.row + r.rows ∧ r.col ≤ a % 512 ∧ a % 512 < r.col + r.cols)), hrow, hcol]
  by_cases hin : r.row ≤ row ∧ row < r.row + r.rows ∧ r.col ≤ col ∧ col < r.col + r.cols
  · rw [if_pos hin, if_neg fun h => (of_decide_eq_true h : ¬ _) hin]
    rfl
  · rw [if_neg hin, if_pos (decide_eq_true hin)]

/-- Settles O48: ACCZ on strips 0 to 31, ACCRD's course with no flag enabled, and the cells that a clear leaves. -/
theorem accumulatorInstructions : Obligations.AccumulatorInstructions := by
  unfold Obligations.AccumulatorInstructions
  intro s e hs hb
  refine ⟨?accz, ?accrd, fun c r row col hcol => ?cells⟩
  case accz =>
    rintro x ha hreg s1 e1 rfl rfl v c rfl hc
    refine ⟨?_, fun r hr howns htoken hbusy => Mat.acczClr hs hb ha hreg hr hc howns htoken hbusy⟩
    rintro row col n l haddr hn h0 h32 rfl hbusy
    exact ⟨fun hfree => Mat.acczTake hs hb ha hreg haddr hn h0 h32 hbusy hc hfree,
      fun hheld htask => Mat.acczGive hs hb ha hreg haddr hn h0 h32 hbusy hc hheld htask⟩
  case accrd =>
    rintro x hact hreg hfp s2 e2 hs2 he2 hbad hbusy
    exact Mat.accrd hs hb hact hreg hfp hs2 he2 hbad hbusy
  case cells =>
    rw [bankGet_bankClear c.acc r hcol]
    exact ⟨fun h => if_pos h, fun h => if_neg h⟩

end Sys2Proof.Proofs.Matrix
end

section
/-!
SPAWN, TLAUNCH and MSEND (R369 to R371, R132 to R136), where nothing stands against them.
-/
namespace Sys2Proof.Proofs.Launches
open Sys2Proof.Machine

variable {s : State} {e : Env}

/-- The machine and the gang of an instruction that its active threads pay for. -/
abbrev issuedBy (s : State) (e : Env) (g : Guard) : State := e.issued s (perActive g e) 1
abbrev issuingBy (s : State) (e : Env) (g : Guard) : Env := e.issuing s (perActive g e) 1

/-! ## SPAWN's placement -/

/-- SPAWN's placement outside a deterministic launch, where no thread waits for a bin. -/
theorem spawnNow_bins {s1 t : State} {e1 : Env} {ts : List Spawned} {timer len : Nat} {fr : List Nat} {u : Nat} (hu : u = e1.team.uid.getD 0)
    (hcan : s1.canRaise u ts.length = true) (hdet : s1.detLaunch u = false)
    (ht : t = ((e1.publish s1).2.raiseCounter u ts.length).arriveAll e1.k (ts.map fun t => { t with clock := (e1.publish s1).1 }) timer false)
    (hplace : (t.core e1.k).placing = []) :
    s1.spawnNow e1 ts timer len fr = e1.done len (t.modWarp e1.k e1.slot fun w => w.free fr) := by
  subst hu ht
  have hnone : ¬ (((((e1.publish s1).2.raiseCounter (e1.team.uid.getD 0) ts.length).arriveAll e1.k
      (ts.map fun t => { t with clock := (e1.publish s1).1 }) timer false).core e1.k).placing.any fun p => decide (p.num ≤
        ((((e1.publish s1).2.raiseCounter (e1.team.uid.getD 0) ts.length).arriveAll e1.k
          (ts.map fun t => { t with clock := (e1.publish s1).1 }) timer false).core e1.k).arrivals - 1)) = true := by
    rw [hplace]
    exact nofun
  unfold State.spawnNow
  refine (if_neg (not_not_intro hcan)).trans ((if_neg (ne_true_of_eq_false hdet)).trans ?_)
  simp only [List.length_map] at hnone ⊢
  exact if_neg hnone

/-- SPAWN's placement in a deterministic launch: warps at once. -/
theorem spawnNow_det {s1 t : State} {e1 : Env} {ts : List Spawned} {timer len : Nat} {fr : List Nat} {u : Nat} (hu : u = e1.team.uid.getD 0)
    (hcan : s1.canRaise u ts.length = true) (hdet : s1.detLaunch u = true)
    (ht : (e1.publish s1).2.formNow e1.k u (ts.map fun t => { t with clock := (e1.publish s1).1 }) = some t) :
    s1.spawnNow e1 ts timer len fr = e1.done len ((t.raiseCounter u ts.length).modWarp e1.k e1.slot fun w => w.free fr) := by
  subst hu
  cases hp : e1.publish s1 with
  | mk c s0 =>
    rw [hp] at ht
    unfold State.spawnNow
    simp only [hcan, not_true_eq_false, if_false, hp, hdet, if_true, ht, List.length_map]

section Courses
variable (hs : Steady s e) (hb : ElementMode e)
include hs hb

/-- A course that its active threads pay for answers a state. -/
theorem issueBy_ok {len : Nat} {g : Guard} {ev : State → Env → Nat → Bool} {f : List Nat → State → Env → Except Trap State} {t : State}
    (h : f [] (issuedBy s e g) (issuingBy s e g) = .ok t) : issue s len g (perActive g) 1 ev f = .next t := issue_ok hs hb h

theorem issueBy_traps {len : Nat} {g : Guard} {ev : State → Env → Nat → Bool} {f : List Nat → State → Env → Except Trap State} {t : Trap}
    (h : f [] (issuedBy s e g) (issuingBy s e g) = .error t) :
    issue s len g (perActive g) 1 ev f = .next ((issuedBy s e g).takeTrap e.k e.slot e.gid t len) := issue_trap hs hb h

/-! ## SPAWN -/

variable {x : Long} {l : Launch} {img : Image}

/-- The cycles its threads wait for a full warp at most. -/
def spawnTimer (x : Op) : Nat := if x.imm16 = 0 then 256 else x.imm16

/-- The threads whose entry is not one of the role `spawn`. -/
def badEntries (s : State) (e : Env) (x : Op) (l : Launch) (img : Image) : List Nat :=
  (e.active x.g).filter fun i => !(isEntry img l .spawn (spawnEntry (issuedBy s e x.g) (issuingBy s e x.g) x i))

/-- SPAWN with every entry good and its stores drained. -/
theorem spawn_places (hact : e.active (x.op 0).g ≠ []) (hreg : e.regTrap (x.op 0) (rowAt 0x0E (x.op 0)) (maskOf (e.active (x.op 0).g)) = none)
    (hl : e.launch = some l) (hi : e.img = some img) (hgood : badEntries s e (x.op 0) l img = []) (hsq : e.warp.sq = []) :
    exec (.spawn x) s = .next ((issuedBy s e (x.op 0).g).spawnNow (issuingBy s e (x.op 0).g) (spawnThreads (issuedBy s e (x.op 0).g) (issuingBy s e (x.op 0).g) (x.op 0))
      (spawnTimer (x.op 0)) (x.op 0).form.bytes (e.frees (x.op 0) (rowAt 0x0E (x.op 0)))) := by
  obtain ⟨i, m, him⟩ := List.exists_cons_of_ne_nil hact
  have hact' : (issuingBy s e (x.op 0).g).active (x.op 0).g = i :: m := him
  have hreg' : (issuingBy s e (x.op 0).g).regTrap (x.op 0) (rowAt 0x0E (x.op 0)) (maskOf (i :: m)) = none := him ▸ hreg
  have hl' : (issuingBy s e (x.op 0).g).launch = some l := hl
  have hi' : (issuingBy s e (x.op 0).g).img = some img := hi
  have hsq' : ¬ (issuingBy s e (x.op 0).g).warp.sq ≠ [] := not_not_intro hsq
  unfold badEntries spawnEntry at hgood
  rw [him] at hgood
  change execSpawn x s = _
  unfold execSpawn
  refine issueBy_ok hs hb ?_
  simp only [hact', hreg', hl', hi', hgood, if_neg hsq']
  unfold spawnThreads
  rw [hact']
  rfl

theorem spawn_traps (hact : e.active (x.op 0).g ≠ []) (hreg : e.regTrap (x.op 0) (rowAt 0x0E (x.op 0)) (maskOf (e.active (x.op 0).g)) = none)
    (hl : e.launch = some l) (hi : e.img = some img) (hbad : badEntries s e (x.op 0) l img ≠ []) :
    exec (.spawn x) s = .next ((issuedBy s e (x.op 0).g).takeTrap e.k e.slot e.gid
      { cls := 13, reason := 1, mask := maskOf (badEntries s e (x.op 0) l img) } (x.op 0).form.bytes) := by
  obtain ⟨i, m, him⟩ := List.exists_cons_of_ne_nil hact
  obtain ⟨b, bs, hbs⟩ := List.exists_cons_of_ne_nil hbad
  have hact' : (issuingBy s e (x.op 0).g).active (x.op 0).g = i :: m := him
  have hreg' : (issuingBy s e (x.op 0).g).regTrap (x.op 0) (rowAt 0x0E (x.op 0)) (maskOf (i :: m)) = none := him ▸ hreg
  have hl' : (issuingBy s e (x.op 0).g).launch = some l := hl
  have hi' : (issuingBy s e (x.op 0).g).img = some img := hi
  rw [hbs]
  unfold badEntries spawnEntry at hbs
  rw [him] at hbs
  change execSpawn x s = _
  unfold execSpawn
  refine issueBy_traps hs hb ?_
  simp only [hact', hreg', hl', hi', hbs]

/-! ## MSEND -/

/-- The tasks of the warp that a message's release waits for. -/
def releaseTasks (s1 : State) (e : Env) (x : Op) : List Nat :=
  if relOf x = 0 then [] else ((s1.core e.k).tasks.filter fun t => t.2.slot = e.warp.team ∧ t.2.warp = e.slot).map (·.1)

/-- MSEND with no reason against a thread queues its messages, and waits where a target is full. -/
theorem msend_sends (hact : e.active (x.op 0).g ≠ []) (hreg : e.regTrap (x.op 0) (rowAt 0xF3 (x.op 0)) (maskOf (e.active (x.op 0).g)) = none)
    {s1 t : State} {e1 : Env} (hs1 : s1 = issuedBy s e (x.op 0).g) (he1 : e1 = issuingBy s e (x.op 0).g)
    (hgood : ∀ i ∈ e.active (x.op 0).g, msgReasons s1 e1 (x.op 0) (sv1 (msendSrc s1 e1 (x.op 0) i).b).lo (sv1 (msendSrc s1 e1 (x.op 0) i).c).lo i = [])
    {ms : List (Nat × Nat × Spawned)} (hms : ms = msendMsgs s1 e1 (x.op 0)) (hcan : s1.canRaise (e.team.uid.getD 0) ms.length = true)
    (ht : t = ms.foldl (State.sendMsg e1 (relOf (x.op 0)) (releaseTasks s1 e (x.op 0))) (s1.raiseCounter (e.team.uid.getD 0) ms.length)) :
    exec (.msend x) s = .next (if (ms.any fun m => s1.inboxFull m.2.1) = true
      then e1.stall (.msend ((List.range ms.length).map (s1.nextMsg + ·)) (x.op 0).form.bytes (e.frees (x.op 0) (rowAt 0xF3 (x.op 0)))) t
      else e1.done (x.op 0).form.bytes (t.modWarp e.k e.slot fun w => w.free (e.frees (x.op 0) (rowAt 0xF3 (x.op 0))))) := by
  obtain ⟨i, m, him⟩ := List.exists_cons_of_ne_nil hact
  have hact' : (issuingBy s e (x.op 0).g).active (x.op 0).g = i :: m := him
  have hreg' : (issuingBy s e (x.op 0).g).regTrap (x.op 0) (rowAt 0xF3 (x.op 0)) (maskOf (i :: m)) = none := him ▸ hreg
  have hbad : (i :: m).filterMap (fun i => ((msgReasons s1 e1 (x.op 0) (sv1 (msendSrc s1 e1 (x.op 0) i).b).lo (sv1 (msendSrc s1 e1 (x.op 0) i).c).lo i).min?).map
      fun n => (i, n)) = [] :=
    List.filterMap_eq_nil_iff.mpr fun j hj => by
      rw [hgood j (him ▸ hj)]
      rfl
  subst hs1 he1
  unfold msendMsgs at hms
  rw [hact'] at hms
  unfold msendSrc at hbad hms
  change execMsend x s = _
  unfold execMsend
  refine issueBy_ok hs hb ?_
  simp only [hact', hreg', hbad]
  refine Eq.trans ?_ (congrArg Except.ok (by rw [ht]))
  rw [hms] at hcan ⊢
  exact if_neg (not_not_intro hcan)

/-! ## TLAUNCH -/

/-- The machine and the gang of a TLAUNCH, and its operands. -/
abbrev tlaunchOps (s : State) (e : Env) (x : Op) : Srcs := onceOps (e.paid s 0x0F x) (e.paying s 0x0F x) 0x0F x (litInt x false 32)

/-- What TLAUNCH holds. -/
def tlaunchWait (e : Env) (x : Op) : MemWait := { accs := [], len := 12, frees := e.frees x (rowAt 0x0F x), once := true, lanes := 0 }

theorem tlaunch_records {x : X96} {s1 s2 s3 s4 : State} {e1 : Env} (hs1 : s1 = e.paid s 0x0F x.op) (he1 : e1 = e.paying s 0x0F x.op)
    (ha : ActsOnce e x.op) (hreg : e.regTrap x.op (rowAt 0x0F x.op) (maskOf (e.active x.op.g)) = none) {u : Nat} {l : Launch} (hu : e.team.uid = some u)
    (hl : e.launch = some l) {src : Srcs} {a word : Nat} {m : MemWait} (hsrc : src = onceOps s1 e1 0x0F x.op (litInt x.op false 32))
    (haddr : a = pointOf s1 (sv1 src.a)) (hword : word = pointOf s1 (sv1 src.b)) (hm : m = tlaunchWait e x.op)
    (hfence : fenceDone (s1.core e.k) e.slot 4 (e1.relMark s1) = true) {vs : List Nat} {st : Nat}
    (hread : s1.onceRead e1 m ((e.active x.op.g).headD 0) (sv1 src.a).stamp a 64 (spansOf a 64 32) = .got vs st s2) {lr : LRec}
    (hlr : lr = lrecOf (joinVals 32 vs)) (hsub : (subgroupOf l word).isSome = true) (hndep : lr.ndep = 0) {img : Image} {c : Launch}
    (hchild : childOf s2 e1 u l word lr [] = .ok (img, c)) (hcan : s2.canRaise u 1 = true) {ck : Clock} (hpub : e1.publish s2 = (ck, s3))
    (hs4 : s4 = (s3.recordChild u img { c with clock := ck }).modDie (dieOf e.k) fun d => { d with tlaunchCount := d.tlaunchCount + 1 }) :
    exec (.tlaunch x) s = .next ((((if e.det then s4 else s4.aggregate (dieOf e.k) s3.nextUid).modWarp e.k e.slot
      fun w => w.writeUnis e.handling x.op.d 64 [svConst c.tag.toNat]).drawn 2).finishMem e1 m) := by
  have hacts : ¬ (e1.active x.op.g = [] ∧ (¬ unguarded x.op.g = true ∨ ([] : List Nat) ≠ [])) := by
    subst he1
    rintro ⟨h1, h2 | h2⟩
    · rcases ha with h | h
      · exact h2 h
      · exact h h1
    · exact h2 rfl
  have hreg' : e1.regTrap x.op (rowAt 0x0F x.op) (maskOf (e1.active x.op.g)) = none := he1 ▸ hreg
  have hfence' : ¬ ¬ fenceDone (s1.core e1.k) e1.slot 4 (e1.relMark s1) = true := by
    rw [he1] at hfence ⊢
    exact not_not_intro hfence
  have hu' : e1.team.uid = some u := he1 ▸ hu
  have hl' : e1.launch = some l := he1 ▸ hl
  have hread' : s1.onceRead e1 m ((e1.active x.op.g).headD 0) (sv1 src.a).stamp a 64 (spansOf a 64 32) = .got vs st s2 := he1 ▸ hread
  have hm' : ({ accs := [], len := 12, frees := e1.frees x.op (rowAt 0x0F x.op), once := true, lanes := 0 } : MemWait) = m := by
    rw [hm, he1]
    rfl
  have hsrc' : Env.srcs s1 e1 x.op (rowAt 0x0F x.op) (litInt x.op false 32) ((e1.active x.op.g).headD 0) = src := hsrc.symm
  have hlist : ¬ (16 < lr.ndep ∨ (lr.ndep ≠ 0 ∧ lr.deps % 16 ≠ 0)) := by omega
  have hsub' : ¬ (subgroupOf l word).isNone = true := by
    rw [Option.isNone_iff_eq_none]
    exact Option.isSome_iff_ne_none.mp hsub
  change execTlaunch x s = _
  unfold execTlaunch
  refine issue_paid hs hb ?_
  rw [← hs1, ← he1]
  simp only [if_neg hacts, hreg', hsrc', ← haddr, ← hword, if_neg hfence', hm', hread', hu', hl', if_neg hsub', ← hlr, if_neg hlist, if_pos hndep, hchild, hcan,
    not_true_eq_false, if_false, hpub]
  subst hs4 he1
  rfl

end Courses

/-- Settles O49: the three courses, and how SPAWN places its threads. -/
theorem spawnsLaunchesMessages : Obligations.SpawnsLaunchesMessages := by
  unfold Obligations.SpawnsLaunchesMessages
  intro s e hs hb
  refine ⟨?spawn, ?tlaunch, ?msend⟩
  case spawn =>
    rintro x s1 e1 rfl rfl hact hreg l img hl hi ts u timer n0 rfl hu htimer rfl
    refine ⟨fun hgood hsq hcan => ?_, fun b hb1 hb2 => ?_⟩
    · have hnone : badEntries s e (x.op 0) l img = [] := List.filter_eq_nil_iff.mpr fun i hi => by
        change ¬ (!(isEntry img l .spawn (spawnEntry (e.issued s (perActive (x.op 0).g e) 1) (e.issuing s (perActive (x.op 0).g e) 1) (x.op 0) i))) = true
        rw [hgood i hi]
        exact nofun
      rw [spawn_places hs hb hact hreg hl hi hnone hsq]
      refine ⟨fun hdet t ht hplace => ?_, fun hdet t ht => ?_⟩
      · rw [htimer] at ht
        exact congrArg Host.Outcome.next (spawnNow_bins hu hcan hdet ht hplace)
      · exact congrArg Host.Outcome.next (spawnNow_det hu hcan hdet ht)
    · exact spawn_traps hs hb hact hreg hl hi (List.ne_nil_of_mem (List.mem_filter.mpr ⟨hb1, by
        change (!(isEntry img l .spawn (spawnEntry (e.issued s (perActive (x.op 0).g e) 1) (e.issuing s (perActive (x.op 0).g e) 1) (x.op 0) b))) = true
        rw [hb2]
        rfl⟩))
  case tlaunch =>
    rintro x s1 e1 hs1 he1 ha hreg u l hu hl src a word m hsrc haddr hword hm hfence vs st s2 lr hread hlr hsub hndep img c hchild hcan ck s3 s4 hpub hs4
    exact tlaunch_records hs hb hs1 he1 ha hreg hu hl hsrc haddr hword hm hfence hread hlr hsub hndep hchild hcan hpub hs4
  case msend =>
    rintro x s1 e1 hs1 he1 hact hreg hgood ms hms hcan tasks htasks t ht
    have hfull : ∀ m : Nat × Nat × Spawned, s1.inboxFull m.2.1 = true ↔ 32 ≤ ((s1.core m.2.1).placing.filter (·.msg)).length := fun m => decide_eq_true_iff
    rw [msend_sends hs hb hact hreg hs1 he1 hgood hms hcan (t := t) (by rw [ht, htasks]; rfl)]
    refine ⟨fun hroom => congrArg Host.Outcome.next (if_neg fun h => ?_), fun ⟨m, hm, hlen⟩ => congrArg Host.Outcome.next (if_pos ?_)⟩
    · obtain ⟨m, hm, hlen⟩ := List.any_eq_true.mp h
      exact Nat.not_le.mpr (hroom m hm) ((hfull m).mp hlen)
    · exact List.any_eq_true.mpr ⟨m, hm, (hfull m).mpr hlen⟩

end Sys2Proof.Proofs.Launches
end

section
/-!
The solver's and the checker's instructions (R402, R387, R323, R324), where their reads are at hand and no reason stands against them.
-/
namespace Sys2Proof.Proofs.SolverOps
open Sys2Proof.Machine

variable {s : State} {e : Env}

section Courses
variable (hs : Steady s e) (hb : ElementMode e)
include hs hb

/-- The frame of the solver's and the checker's instructions passes on a trap of its course. -/
theorem onceInstr_traps {opc : Nat} {x : Op} {ev : State → Env → Nat → Bool} {f : State → Env → Row → List Nat → Nat → Except Trap State}
    (ha : ActsOnce e x) (hreg : e.regTrap x (rowAt opc x) (maskOf (e.active x.g)) = none) {t : Trap}
    (h : f (e.paid s opc x) (e.paying s opc x) (rowAt opc x) (e.active x.g) ((e.active x.g).headD 0) = .error t) :
    onceInstr s opc x ev f = .next ((e.paid s opc x).takeTrap e.k e.slot e.gid t 12) := by
  have hacts : ¬ ((e.paying s opc x).active x.g = [] ∧ (¬ unguarded x.g = true ∨ ([] : List Nat) ≠ [])) := by
    rintro ⟨h1, h2 | h2⟩
    · rcases ha with h | h
      · exact h2 h
      · exact h h1
    · exact h2 rfl
  have hreg' : (e.paying s opc x).regTrap x (rowAt opc x) (maskOf ((e.paying s opc x).active x.g)) = none := hreg
  unfold onceInstr
  refine Engines.issuePaid_traps hs hb ?_
  simp only [if_neg hacts, hreg']
  exact h

variable {x : X96} (ha : ActsOnce e x.op)
include ha

/-- The lane that such an instruction acts as. -/
abbrev onceLane (e : Env) (x : X96) : Nat := (e.active x.op.g).headD 0

/-! ## The sequencer -/

section Sequencer
variable (hreg : e.regTrap x.op (rowAt 0xF2 x.op) (maskOf (e.active x.op.g)) = none) {s1 : State} {e1 : Env} (hs1 : s1 = e.paid s 0xF2 x.op)
  (he1 : e1 = e.paying s 0xF2 x.op) {m : MemWait} (hm : m = e1.onceWait x.op (rowAt 0xF2 x.op))
include hreg hs1 he1 hm

theorem sqload_loads {src : Srcs} {a : Nat} (hsrc : src = onceOps s1 e1 0xF2 x.op (litInt x.op false 32)) (haddr : a = (sv1 src.a).lo) (hslot : (sv1 src.b).lo < 8)
    {hd vs : List Nat} {st st' : Nat} {s2 s3 : State} {md : Method} (hread : s1.onceRead e1 m (onceLane e x) (sv1 src.a).stamp a 8 (spansOf a 32 8) = .got hd st s2)
    (hlo : 2 ≤ bitsOf (joinVals 8 hd) 3 0) (hhi : bitsOf (joinVals 8 hd) 3 0 ≤ 12)
    (hread2 : s2.onceRead e1 m (onceLane e x) 0 ((a + 32) % 2 ^ 64) 8 (spansOf (a + 32) (8 * methodLen (bitsOf (joinVals 8 hd) 3 0)) 8) = .got vs st' s3)
    (hmd : methodOf (joinVals 8 hd) vs = some md) :
    exec (.sqload x) s = .next ((s3.modDie (dieOf e.k) fun d => { d with slots := aput (sv1 src.b).lo ((Env.party s1 e1).ctx, md) d.slots }).finishMem e1 m) := by
  have hst : ¬ (bitsOf (joinVals 8 hd) 3 0 < 2 ∨ 12 < bitsOf (joinVals 8 hd) 3 0) := by omega
  have hslot' : ¬ 7 < (sv1 src.b).lo := by omega
  have hsrc' : Env.srcs s1 e1 x.op (rowAt 0xF2 x.op) (litInt x.op false 32) (onceLane e x) = src := by
    rw [hsrc, he1]
    rfl
  have hk : e1.k = e.k := by rw [he1]; rfl
  change execSqload x s = _
  unfold execSqload
  refine onceInstr_ok hs hb ha hreg ?_
  rw [← hs1, ← he1]
  simp only [← hm, hsrc', ← haddr, hread, if_neg hst, hread2, hmd, if_neg hslot', hk]

theorem sqstart_runs {t : State} (hfence : fenceDone (s1.core e.k) e.slot 4 (e1.relMark s1) = true)
    (ht : sqStart s1 e1 m (onceLane e x) (sv1 (onceOps s1 e1 0xF2 x.op 0).a).lo x.op.d (maskOf (e.active x.op.g)) (sv1 (onceOps s1 e1 0xF2 x.op 0).a).stamp = .ok t) :
    exec (.sqstart x) s = .next t := by
  have hfence' : ¬ ¬ fenceDone (s1.core e1.k) e1.slot 4 (e1.relMark s1) = true := by
    rw [he1] at hfence ⊢
    exact not_not_intro hfence
  have hsrc : Env.srcs s1 e1 x.op (rowAt 0xF2 x.op) 0 (onceLane e x) = onceOps s1 e1 0xF2 x.op 0 := by
    rw [he1]
    rfl
  change execSqstart x s = _
  unfold execSqstart
  refine onceInstr_ok hs hb ha hreg ?_
  rw [← hs1, ← he1]
  simp only [← hm, hsrc, if_neg hfence', ht]

/-- The form of SQWAIT, SQSTAT and SQABORT on a handle that its die knows. -/
theorem sqHandled_ok {detBars : Bool} {f : State → Env → MemWait → SV → SqDone × Bool → State} {q : SqDone × Bool}
    (hq : s1.sqHandle (Env.party s1 e1).ctx (sv1 (onceOps s1 e1 0xF2 x.op 0).a).lo = some q) (hdet : ¬ (detBars = true ∧ e.det = true)) :
    sqHandled s x.op detBars f = .next (f s1 e1 m (sv1 (onceOps s1 e1 0xF2 x.op 0).a) q) := by
  have hsrc : Env.srcs s1 e1 x.op (rowAt 0xF2 x.op) 0 (onceLane e x) = onceOps s1 e1 0xF2 x.op 0 := by
    rw [he1]
    rfl
  have hdet' : ¬ (detBars = true ∧ e1.det = true) := by
    rw [he1]
    exact hdet
  unfold sqHandled
  refine onceInstr_ok hs hb ha hreg ?_
  rw [← hs1, ← he1]
  simp only [← hm, hsrc, hq, if_neg hdet']

omit hm in
theorem sqHandled_traps {f : State → Env → MemWait → SV → SqDone × Bool → State} {q : SqDone × Bool}
    (hq : s1.sqHandle (Env.party s1 e1).ctx (sv1 (onceOps s1 e1 0xF2 x.op 0).a).lo = some q) (hdet : e.det = true) :
    sqHandled s x.op true f = .next (s1.takeTrap e.k e.slot e.gid { cls := 15, reason := 7, mask := maskOf (e.active x.op.g) } 12) := by
  have hsrc : Env.srcs s1 e1 x.op (rowAt 0xF2 x.op) 0 (onceLane e x) = onceOps s1 e1 0xF2 x.op 0 := by
    rw [he1]
    rfl
  have hdet' : True ∧ e1.det = true := ⟨trivial, by rw [he1]; exact hdet⟩
  unfold sqHandled
  rw [hs1]
  refine onceInstr_traps hs hb ha hreg ?_
  rw [← hs1, ← he1]
  simp only [hsrc, hq]
  exact if_pos hdet'

end Sequencer

/-! ## Witnesses -/

/-- WITN, once its descriptors are read. -/
theorem witn_adds (hreg : e.regTrap x.op (rowAt 0xF4 x.op) (maskOf (e.active x.op.g)) = none) {s1 s2 t : State} {e1 : Env} (hs1 : s1 = e.paid s 0xF4 x.op)
    (he1 : e1 = e.paying s 0xF4 x.op) {m : MemWait} {u : Nat} {l : Launch} (hm : m = e1.onceWait x.op (rowAt 0xF4 x.op)) (hu : e.team.uid = some u)
    (hl : e.launch = some l) {vs : List Nat}
    (hread : x.op.op7 = 5 ∧ vs = [] ∧ s2 = s1 ∨ x.op.op7 ≠ 5 ∧ ∃ st, s1.onceRead e1 m (onceLane e x) (sv1 (onceOps s1 e1 0xF4 x.op 0).a).stamp
      (sv1 (onceOps s1 e1 0xF4 x.op 0).a).lo 32 (spansOf (sv1 (onceOps s1 e1 0xF4 x.op 0).a).lo (32 * descCount x.op.op7) 32) = .got vs st s2)
    (hgood : witReason s2 { Env.party s2 e1 with uid := some u } x.op.op7 vs = none) (ht : s2.appendWitness l.root { kind := x.op.op7, descs := vs } = some t) :
    exec (.witn x) s = .next (t.finishMem e1 m) := by
  have hu' : e1.team.uid = some u := he1 ▸ hu
  have hl' : e1.launch = some l := he1 ▸ hl
  have hsrc : Env.srcs s1 e1 x.op (rowAt 0xF4 x.op) 0 (onceLane e x) = onceOps s1 e1 0xF4 x.op 0 := by
    rw [he1]
    rfl
  change execWitn x s = _
  unfold execWitn
  refine onceInstr_ok hs hb ha hreg ?_
  rw [← hs1, ← he1]
  rcases hread with ⟨hkind, rfl, rfl⟩ | ⟨hkind, st, hread⟩
  · simp only [← hm, hu', hl', if_pos hkind, hgood, ht]
  · simp only [← hm, hu', hl', if_neg hkind, hsrc, hread, hgood, ht]

/-- Both forms of WSTAT on a region of the launch's context. -/
theorem wstat_writes (hreg : e.regTrap x.op (rowAt 0xF5 x.op) (maskOf (e.active x.op.g)) = none) {s1 : State} {e1 : Env} (hs1 : s1 = e.paid s 0xF5 x.op)
    (he1 : e1 = e.paying s 0xF5 x.op) {l : Launch} {a : Nat} (hl : e.launch = some l) (haddr : a = pointOf s1 (sv1 (onceOps s1 e1 0xF5 x.op 0).a)) (h16 : a < 65536)
    (hdet : e.det = false) (hregion : s1.isRegion l.ctx a = true) (att : Bool) :
    wstat s x.op att = .next (((s1.modWarp e.k e.slot fun w => w.writeUnis e.handling x.op.d 32 [svConst (s1.wstat l.ctx a att)]).drawn 1).finishMem e1
      (e1.onceWait x.op (rowAt 0xF5 x.op))) := by
  have hl' : e1.launch = some l := he1 ▸ hl
  have hdet' : ¬ e1.det = true := by
    rw [he1]
    exact ne_true_of_eq_false hdet
  have hsrc : Env.srcs s1 e1 x.op (rowAt 0xF5 x.op) 0 (onceLane e x) = onceOps s1 e1 0xF5 x.op 0 := by
    rw [he1]
    rfl
  have hdiv : a / 65536 = 0 := Nat.div_eq_of_lt h16
  have hmod : a % 65536 = a := Nat.mod_eq_of_lt h16
  unfold wstat
  refine onceInstr_ok hs hb ha hreg ?_
  rw [← hs1, ← he1]
  simp only [hsrc, ← haddr, hl', hdiv, hmod, if_neg hdet', hregion, ne_eq, not_true_eq_false, if_false, List.append_nil, List.min?_nil]
  rw [he1]
  rfl

end Courses

/-! ## The start of a run -/

/-- A gang's own entry in the sequencer's queue. -/
def ownWait (e : Env) (w : SqWaiter) : Bool := decide (w.core = e.k ∧ w.warp = e.slot ∧ w.gang = e.gid)

/-- The run of a record. -/
def runOf (s : State) (e : Env) (u : Nat) (l : Launch) (a : Nat) (h : SqHdr) (md : Method) (xs : List Sample) : SqRun :=
  { serial := (s.die (dieOf e.k)).sqSerial, uid := u, ctx := l.ctx, core := e.k, recAddr := a, kernel := h.kernel, key := h.key, rtol := h.rtol
    atol := h.atol, tend := h.tend, teams := h.teams, n := h.n, rlim := h.rlim, subg := h.subg, type := h.type, method := md, samples := xs }

/-- The machine in which it has started. -/
def started (s s2 : State) (e : Env) (u : Nat) (l : Launch) (r : SqRun) (dst : Nat) : State :=
  ((s2.modDie (dieOf e.k) fun d => { d with
    run := some r, sqSerial := ((s.die (dieOf e.k)).sqSerial + 1) % 2 ^ 30, sqWait := d.sqWait.filter fun w => ¬ (w.core = e.k ∧ w.warp = e.slot ∧ w.gang = e.gid)
    recent := (d.recent ++ [({ serial := (s.die (dieOf e.k)).sqSerial, ctx := l.ctx, status := r.word 0 } : SqDone)]).drop (d.recent.length - 15) }).raiseCounter u 1).modWarp
      e.k e.slot fun w => w.writeUnis e.handling dst 32 [svConst (dieOf e.k * 2 ^ 30 + (s.die (dieOf e.k)).sqSerial)]

theorem sqStart_starts {m : MemWait} {lane a dst : Nat} {mask : Mask} {stamp : Nat} {hd es : List Nat} {st st' : Nat} {s1 s2 : State} {h : SqHdr} {md : Method}
    {u : Nat} {l : Launch} {rows : List Nat} (hu : e.team.uid = some u) (hl : e.launch = some l)
    (hread : s.onceRead e m lane stamp a 64 (spansOf a 64 32) = .got hd st s1) (hh : h = sqHdrOf (joinVals 32 hd))
    (hslot : alook h.slot (s.die (dieOf e.k)).slots = some ((Env.party s e).ctx, md)) (hgood : h.good = true) (hsub : (subgroupOf l h.subg).isSome = true)
    (himg : (s.image l.ctx h.kernel).isSome = true)
    (hread2 : s1.onceRead e m lane 0 ((a + 64) % 2 ^ 64) 64 (spansOf (a + 64) (64 * h.samples) 32) = .got es st' s2)
    (hrows : rows = (List.range h.samples).map (fun j => joinVals 32 ((es.drop (2 * j)).take 2))) (hall : rows.all (sampleGood h.tend) = true)
    {xs : List Sample} (hxs : xs = rows.zipIdx.map fun q => sampleOf q.2 q.1) (hbuf : s2.buffersGood (Env.party s e) a h md xs = true)
    (hrun : (s.die (dieOf e.k)).run = none) (hwait : (s.die (dieOf e.k)).sqWait = []) (hcan : s2.canRaise u 1 = true) (hsome : xs.any (fun z => z.status = 0) = true) :
    sqStart s e m lane a dst mask stamp = .ok ((started s s2 e u l (runOf s e u l a h md xs) dst).finishMem e m) := by
  have hhead : ¬ (¬ h.good = true ∨ (subgroupOf l h.subg).isNone = true ∨ (s.image l.ctx h.kernel).isNone = true) := by
    rintro (hx | hx | hx)
    · exact hx hgood
    · exact Option.isSome_iff_ne_none.mp hsub (Option.isNone_iff_eq_none.mp hx)
    · exact Option.isSome_iff_ne_none.mp himg (Option.isNone_iff_eq_none.mp hx)
  have hfree : ¬ ((none : Option SqRun) ≠ none ∨ ¬ (match ([] : List SqWaiter) with | [] => true | w :: _ => ownWait e w) = true) := by
    rintro (hx | hx)
    · exact hx rfl
    · exact hx rfl
  unfold sqStart
  simp only [hread, ← hh, hslot, ne_eq, not_true_eq_false, if_false, hu, hl, if_neg hhead, hread2, ← hrows, ← hxs, hall, hbuf, hrun, hwait, hcan]
  simp only [List.any_nil, false_or, hsome, if_true]
  unfold started
  simp only [decide_not]
  rfl

/-- Settles O50: the courses above, and the start of a run. -/
theorem solverAndWitnessInstructions : Obligations.SolverAndWitnessInstructions := by
  unfold Obligations.SolverAndWitnessInstructions
  rintro s e hs hb x ha lane rfl
  refine ⟨?sequencer, ?start, ?witn, ?wstat⟩
  case sequencer =>
    rintro hreg s1 e1 hs1 he1 m hm
    refine ⟨?_, fun t hfence ht => sqstart_runs hs hb ha hreg hs1 he1 hm hfence ht, ?_⟩
    · rintro src a hsrc haddr hslot hd st s2 vs st' s3 md hread hlo hhi hread2 hmd
      exact sqload_loads hs hb ha hreg hs1 he1 hm hsrc haddr hslot hread hlo hhi hread2 hmd
    · rintro h st q rfl rfl hq
      have hk : e1.k = e.k := by rw [he1]; rfl
      have hlen : m.len = 12 := by rw [hm]; rfl
      refine ⟨fun h => ?_, fun h => ?_, fun hdet => ?_, fun hdet h => ?_, fun hdet h => ?_, fun hdet => ?_⟩
      · refine (show execSqwait x s = _ from sqHandled_ok hs hb ha hreg hs1 he1 hm hq nofun).trans ?_
        rw [if_pos h, hlen]
      · refine (show execSqwait x s = _ from sqHandled_ok hs hb ha hreg hs1 he1 hm hq nofun).trans ?_
        rw [if_neg (ne_true_of_eq_false h), he1]
        rfl
      · refine (show execSqstat x s = _ from sqHandled_ok hs hb ha hreg hs1 he1 hm hq (by simp [hdet])).trans ?_
        rw [he1]
        rfl
      · refine (show execSqabort x s = _ from sqHandled_ok hs hb ha hreg hs1 he1 hm hq (by simp [hdet])).trans ?_
        rw [if_pos h]
      · refine (show execSqabort x s = _ from sqHandled_ok hs hb ha hreg hs1 he1 hm hq (by simp [hdet])).trans ?_
        rw [if_neg (ne_true_of_eq_false h)]
      · exact (show execSqstat x s = _ from sqHandled_traps hs hb ha hreg hs1 he1 hq hdet)
  case start =>
    rintro s e m lane a dst mask stamp hd st s1 h md u l es st' s2 rows hu hl hread hh hslot hgood hsub himg hread2 hrows hall hbuf hrun hwait hcan hsome
    exact ⟨_, _, sqStart_starts hu hl hread hh hslot hgood hsub himg hread2 hrows hall rfl hbuf hrun hwait hcan hsome, rfl, rfl, rfl, rfl, rfl, rfl, rfl, rfl⟩
  case witn =>
    rintro hreg s1 e1 hs1 he1 m u l hm hu hl vs s2 hread hgood t ht
    exact witn_adds hs hb ha hreg hs1 he1 hm hu hl hread hgood ht
  case wstat =>
    rintro hreg s1 e1 hs1 he1 l a hl haddr h16 hdet hregion
    exact ⟨wstat_writes hs hb ha hreg hs1 he1 hl haddr h16 hdet hregion false, wstat_writes hs hb ha hreg hs1 he1 hl haddr h16 hdet hregion true⟩

end Sys2Proof.Proofs.SolverOps
end

section
/-!
PGET, SWR, REGION, CSRR and CSRW, and what the registers they name hold afterwards (R206, R215, R255, R407, R411, R414, R419).
-/
namespace Sys2Proof.Proofs.Specials
open Sys2Proof.Machine

variable {s : State} {e : Env}

/-- Outside bounds mode no tag is written (R375). -/
theorem pgetOut_element (l : Lane) (h : l.bounds = false) : pgetOut l = [svConst (predWord l)] := by
  unfold pgetOut
  rw [h]
  rfl

theorem modSlice_self (w : Warp) (i : Nat) : w.modSlice i (fun x => x) = w := by
  have h : w.slices.set i (w.slices.getD i {}) = w.slices := by
    by_cases hi : i < w.slices.length
    · simp [List.getD, hi]
    · exact List.set_eq_of_length_le (Nat.not_lt.mp hi)
  unfold Warp.modSlice Warp.slice
  rw [h]

/-- SWR to EXEC sets the bits of the gang's slices. -/
theorem swrWrite_exec (hs : Steady s e) (v : Nat) : SlicesEdited e.warp (swrWrite e 93 [(0, v)]) (e.warp.gangSlices e.gid) (fun _ => some (BitVec.ofNat 32 v)) fun _ x => x :=
  hs.fold_edit fun i _ w _ _ _ => by
    change w.setExec i (BitVec.ofNat 32 v) = (w.setExec i (BitVec.ofNat 32 v)).modSlice i fun x => x
    rw [modSlice_self]

/-! ## Registers of a die read back -/

/-- TVECLO's bit 1 reads 0 (R407). -/
theorem and_tvecLo {v : Nat} (hv : v < 2 ^ 32) : v &&& 0xFFFFFFFD = v - v / 2 % 2 * 2 := by
  have hsplit : v - v / 2 % 2 * 2 = 2 ^ 2 * (v / 4) + v % 2 := by omega
  have hself : v = 2 ^ 2 * (v / 4) + v % 4 := by omega
  rw [hsplit]
  refine Nat.eq_of_testBit_eq fun j => ?_
  rw [Nat.testBit_and, Nat.testBit_two_pow_mul_add _ (by omega : v % 2 < 2 ^ 2), show (0xFFFFFFFD : Nat) = 2 ^ 2 * (2 ^ 30 - 1) + 1 by decide,
    Nat.testBit_two_pow_mul_add _ (by decide : 1 < 2 ^ 2)]
  by_cases hj : j < 2
  · have hbit : v.testBit j = (v % 4).testBit j := by
      conv => lhs; rw [hself]
      rw [Nat.testBit_two_pow_mul_add _ (by omega : v % 4 < 2 ^ 2), if_pos hj]
    rw [if_pos hj, if_pos hj, hbit, ← Nat.testBit_and, Nat.and_one_is_mod]
    congr 1
    omega
  · have hbit : v.testBit j = (v / 4).testBit (j - 2) := by
      conv => lhs; rw [hself]
      rw [Nat.testBit_two_pow_mul_add _ (by omega : v % 4 < 2 ^ 2), if_neg hj]
    rw [if_neg hj, if_neg hj, hbit, ← Nat.testBit_and, Nat.and_two_pow_sub_one_eq_mod, Nat.mod_eq_of_lt (by omega)]

section Readback
variable {t : State} {u : CsrUser} {v : Nat} (hdie : dieOf u.k < t.dies.length)
include hdie

theorem tvecLo_readback (hv : v < 2 ^ 32) : (t.csrWrite u 0x100 v).csr u 0x100 = some (v - v / 2 % 2 * 2) := by
  change some ((t.modDie (dieOf u.k) fun d => { d with tvecLo := BitVec.ofNat 32 v &&& 0xFFFFFFFD#32 }).die (dieOf u.k)).tvecLo.toNat = _
  rw [die_modDie _ _ _ hdie, BitVec.toNat_and, BitVec.toNat_ofNat, Nat.mod_eq_of_lt hv]
  exact congrArg some (and_tvecLo hv)

theorem tvecHi_readback (hv : v < 2 ^ 32) : (t.csrWrite u 0x101 v).csr u 0x101 = some v := by
  change some ((t.modDie (dieOf u.k) fun d => { d with tvecHi := BitVec.ofNat 32 v }).die (dieOf u.k)).tvecHi.toNat = _
  rw [die_modDie _ _ _ hdie, BitVec.toNat_ofNat, Nat.mod_eq_of_lt hv]

theorem intPend_readback : (t.csrWrite u 0x110 v).csr u 0x110 = some ((t.die (dieOf u.k)).intPend &&& ((2 ^ 24 - 1) ^^^ (v % 2 ^ 24))) := by
  change some ((t.modDie (dieOf u.k) fun d => { d with intPend := d.intPend &&& ((2 ^ 24 - 1) ^^^ (v % 2 ^ 24)) }).die (dieOf u.k)).intPend = _
  rw [die_modDie _ _ _ hdie]

theorem intEn_readback : (t.csrWrite u 0x111 v).csr u 0x111 = some (v % 2 ^ 24) := by
  change some ((t.modDie (dieOf u.k) fun d => { d with intEn := v % 2 ^ 24 }).die (dieOf u.k)).intEn = _
  rw [die_modDie _ _ _ hdie]

theorem ctxBase_readback : (t.csrWrite u 0x170 v).csr u 0x170 = some (v % 2 ^ 28) := by
  change some ((t.modDie (dieOf u.k) fun d => { d with ctxBase := v % 2 ^ 28 }).die (dieOf u.k)).ctxBase = _
  rw [die_modDie _ _ _ hdie]

theorem fqBase_readback : (t.csrWrite u 0x171 v).csr u 0x171 = some (v % 2 ^ 28) := by
  change some ((t.modDie (dieOf u.k) fun d => { d with fqBase := v % 2 ^ 28 }).die (dieOf u.k)).fqBase = _
  rw [die_modDie _ _ _ hdie]

theorem fwMode_readback (hfw : isFw u.k = true) : (t.csrWrite u 0x178 v).csr u 0x178 = some (v &&& 0x0FFF0001) := by
  change (if isFw u.k = true then some (((if isFw u.k = true then t.modDie (dieOf u.k) fun d => { d with fwMode := v &&& 0x0FFF0001 } else t).die (dieOf u.k)).fwMode)
    else none) = _
  rw [if_pos hfw, if_pos hfw, die_modDie _ _ _ hdie]

end Readback

/-- Settles O51: the laws of the instructions, what SWR writes, and each register read back. -/
theorem specialRegisters : Obligations.SpecialRegisters := by
  unfold Obligations.SpecialRegisters
  intro s e hs
  refine ⟨fun hb => ⟨fun x ht => ?pget, fun x hw ht => Special.swr hs hb x hw ht, fun x hg => Special.region hs hb x hg⟩,
    fun v => ⟨rfl, rfl, swrWrite_exec hs v⟩, fun hu => ⟨fun x v h => Special.csrr hs hu x h, ?csrw⟩, ?readback⟩
  case pget =>
    have h := Special.pget hs hb x ht
    simp only [pgetOut_element _ (hb _)] at h
    exact h
  case csrw =>
    rintro x v ht rfl
    exact Special.csrw hs hu x ht
  case readback =>
    rintro t u v hv hdie d rfl
    exact ⟨tvecLo_readback hdie hv, tvecHi_readback hdie hv, intPend_readback hdie, intEn_readback hdie, ctxBase_readback hdie, fqBase_readback hdie, fwMode_readback hdie⟩

end Sys2Proof.Proofs.Specials
end

section
/-!
Taking a trap (R405 to R408), TRAP, RTE, HALT, TLBI and WAITI (R410, R411), the fates of a fetch (R67, R405), and supervisor-only instructions (R72).
-/
namespace Sys2Proof.Proofs.Traps
open Sys2Proof.Machine

variable {s : State} {e : Env}

/-! ## Taking a trap -/

section Taking
variable {k slot g len : Nat} {t : Trap} {w : Warp}

/-- The warp with its trap registers written. -/
def trapped (w : Warp) (g : Nat) (t : Trap) : Warp := { w with trapCause := trapCause t, trapAddr := w.pcOf g, trapMask := t.mask }

/-- The warp as its handler begins, before the gang's slices go there. -/
def handled (w : Warp) (g len : Nat) (t : Trap) : Warp :=
  { trapped w g t with tsexec := maskOf (((w.gangSlices g).flatMap laneIds).filter fun j => (w.lane j).exec), tsdone := trapDone t, handler := some ([g], len) }

/-- The gang's slices at the handler's address. -/
def atHandler (d : Die) (w : Warp) (g len : Nat) (t : Trap) : Warp :=
  (w.gangSlices g).foldl (fun v i => (v.setExec i w.liveMask).modSlice i fun x => { x with pc := tvec d, tstack := [], ended := false }) (handled w g len t)

/-- Where no handler runs: the trap registers are written; the team is killed where the handler's address is disabled or astray. -/
theorem takeTrap_none (hw : s.warp? k slot = some w) (hh : w.handler = none) : s.takeTrap k slot g t len =
    if ¬ (s.die (dieOf k)).tvecLo.getLsbD 0 = true then (s.modWarp k slot fun _ => trapped w g t).teamError 16 k w.team
    else if ¬ canonical (tvec (s.die (dieOf k))).toNat = true then (s.modWarp k slot fun _ => trapped w g t).teamError 15 k w.team
    else s.modWarp k slot fun _ => (atHandler (s.die (dieOf k)) w g len t).modGang g fun x => { x with wait := .ready, skip := 0, deliv := [], mark := none } := by
  unfold State.takeTrap
  rw [hw]
  dsimp only
  split
  · next h heq => exact absurd (heq.symm.trans hh) nofun
  · rfl

theorem takeTrap_enters (hw : s.warp? k slot = some w) (hh : w.handler = none) (hen : (s.die (dieOf k)).tvecLo.getLsbD 0 = true)
    (hcan : canonical (tvec (s.die (dieOf k))).toNat = true) : s.takeTrap k slot g t len =
      s.modWarp k slot fun _ => (atHandler (s.die (dieOf k)) w g len t).modGang g fun x => { x with wait := .ready, skip := 0, deliv := [], mark := none } := by
  rw [takeTrap_none hw hh, if_neg (not_not_intro hen), if_neg (not_not_intro hcan)]

theorem takeTrap_disabled (hw : s.warp? k slot = some w) (hh : w.handler = none) (hen : (s.die (dieOf k)).tvecLo.getLsbD 0 = false) :
    s.takeTrap k slot g t len = (s.modWarp k slot fun _ => trapped w g t).teamError 16 k w.team := by
  rw [takeTrap_none hw hh, if_pos (ne_true_of_eq_false hen)]

theorem takeTrap_astray (hw : s.warp? k slot = some w) (hh : w.handler = none) (hen : (s.die (dieOf k)).tvecLo.getLsbD 0 = true)
    (hcan : canonical (tvec (s.die (dieOf k))).toNat = false) :
    s.takeTrap k slot g t len = (s.modWarp k slot fun _ => trapped w g t).teamError 15 k w.team := by
  rw [takeTrap_none hw hh, if_neg (not_not_intro hen), if_pos (ne_true_of_eq_false hcan)]

theorem takeTrap_handling {h : List Nat × Nat} (hw : s.warp? k slot = some w) (hh : w.handler = some h) : s.takeTrap k slot g t len =
    if h.1.contains g then s.teamError 15 k w.team
    else s.modWarp k slot fun _ => w.modGang g fun x => { x with wait := .ready, skip := x.skip ||| trapDone t, deliv := [], mark := none } := by
  unfold State.takeTrap
  simp only [hw, hh]

theorem atHandler_edited (d : Die) (hl : w.lanes.length = 32) (hs : w.slices.length = 8) : SlicesEdited (handled w g len t) (atHandler d w g len t) (w.gangSlices g)
    (fun _ => some w.liveMask) fun _ x => { x with pc := tvec d, tstack := [], ended := false } :=
  (fold_edit (w0 := handled w g len t) (m := fun _ => some w.liveMask) (g := fun _ x => { x with pc := tvec d, tstack := [], ended := false }) hs hl (w.gangSlices g) (gangSlices_nodup ..) (fun _ => gangSlices_lt) fun _ _ _ _ _ _ => rfl).1

end Taking

/-- Settles O52: the cases of `takeTrap`. -/
theorem takingATrap : Obligations.TakingATrap := by
  unfold Obligations.TakingATrap
  rintro s k slot g t len w hw hl hs d w1 rfl rfl
  refine ⟨fun hh hen hcan => ⟨atHandler (s.die (dieOf k)) w g len t, takeTrap_enters hw hh hen hcan, atHandler_edited _ hl hs⟩,
    fun hh hen => takeTrap_disabled hw hh hen, fun hh hen hcan => takeTrap_astray hw hh hen hcan, fun hs n hh hg => ?_, fun hs n hh hg => ?_⟩
  · rw [takeTrap_handling hw hh, if_pos (List.contains_iff_mem.mpr hg)]
  · rw [takeTrap_handling hw hh, if_neg fun h => hg (List.contains_iff_mem.mp h)]
    rfl

/-! ## System instructions -/

section System
variable {len : Nat} {f : State → Env → Except Trap State} {t : Trap}

/-- The frame of a system instruction passes on a trap of its course. -/
theorem systemInstr_traps (hs : Steady s e) (hu : e.super = true) (h : f (e.issued s 1 1) (e.issuing s 1 1) = .error t) :
    systemInstr s len f = .next ((e.issued s 1 1).takeTrap e.k e.slot e.gid t len) := by
  unfold systemInstr instr2 needSuper
  simp only [hs.env, hu, if_true]
  rw [envOf_charge hs.envOf]
  change (match (orTrap (e.issued s 1 1) (f (e.issued s 1 1) (e.issuing s 1 1))).2 with | none => _ | some t => _) = _
  rw [h]
  simp only [orTrap]
  change Host.Outcome.next ((orTrap (e.issued s 1 1) (f (e.issued s 1 1) (e.issuing s 1 1))).1.takeTrap _ _ _ _ _) = _
  rw [h]
  rfl

/-- Outside supervisor mode it is an illegal instruction of detail 11. -/
theorem systemInstr_user (hs : Steady s e) (hu : e.super = false) :
    systemInstr s len f = .next (s.takeTrap e.k e.slot e.gid { cls := 1, reason := 11, mask := maskOf e.lanes } len) := by
  unfold systemInstr instr2 needSuper
  simp only [hs.env, hu, Bool.false_eq_true, if_false]

theorem rte_idle {skip : Bool} (hs : Steady s e) (hu : e.super = true) (hh : e.handling = false) :
    rte s skip = .next ((e.issued s 1 1).takeTrap e.k e.slot e.gid { cls := 1, reason := 11, mask := maskOf e.lanes } 4) := by
  unfold rte
  refine systemInstr_traps hs hu (if_pos ?_)
  exact ne_true_of_eq_false hh

theorem waiti_stalls (hs : Steady s e) (hu : e.super = true) (x : C32R) (hf : isFw e.k = true) (hq : ((e.issued s 1 1).die (dieOf e.k)).interrupted = false) :
    exec (.waiti x) s = .next (e.stall (.waiti 4) (e.issued s 1 1)) := by
  change execWaiti x s = _
  unfold execWaiti
  refine systemInstr_ok hs hu (if_neg ?_)
  rintro (h | h)
  · exact h hf
  · exact absurd (h.symm.trans hq) nofun

/-- A meaning that answers a trap. -/
theorem instr_traps (hs : Steady s e) {f : Env → Except Trap State} (h : f e = .error t) : instr s len f = .next (s.takeTrap e.k e.slot e.gid t len) := by
  unfold instr
  simp only [hs.env, h]

theorem illegal_traps (hs : Steady s e) (n : Nat) {w : Word} {ws : List Word} (h : fetchAll s e.k (Env.party s e) e.pc.toNat = .ok (w, ws)) :
    exec (.illegalInstruction n) s = .next (s.takeTrap e.k e.slot e.gid { cls := 1, reason := n, mask := maskOf e.lanes } (4 * lenWords w)) := by
  change execIllegalInstruction n s = _
  unfold execIllegalInstruction
  rw [instr_traps hs rfl]
  simp only [hs.env, h]

/-- A fetch that stops (R405). -/
theorem fetchFault_traps (hs : Steady s e) (n : Nat) :
    exec (.instructionFetchFault n) s = .next (s.takeTrap e.k e.slot e.gid { cls := 3, reason := n, mask := 0 } 4) := by
  change execInstructionFetchFault n s = _
  unfold execInstructionFetchFault
  exact instr_traps hs (f := fun _ => .error { cls := 3, reason := n, mask := 0 }) rfl

theorem rteSkip_returns (hs : Steady s e) (hu : e.super = true) (hh : e.handling = true) (x : C32R) {w w1 : Warp} (hw : w = e.warp.returnFrom e.gid true)
    (hw1 : w1 = ((w.gangSlices e.gid).foldl (fun w i => w.markEmpty i e.warp.tsexec) w).unwindEnded e.gid false (w.pcOf e.gid)) :
    exec (.rteSkip x) s = .next ((((e.issued s 1 1).modWarp e.k e.slot fun _ => w1).partGang e.k e.slot e.gid).settleTeam e.k e.warp.team) := by
  rw [hw1, hw]
  change execRteSkip x s = _
  unfold execRteSkip
  rw [rte_ok hs hu hh]

theorem rteRep_returns (hs : Steady s e) (hu : e.super = true) (hh : e.handling = true) (x : C32R) {w w1 : Warp} (hw : w = e.warp.returnFrom e.gid false)
    (hw1 : w1 = ((w.gangSlices e.gid).foldl (fun w i => w.markEmpty i e.warp.tsexec) w).unwindEnded e.gid false (w.pcOf e.gid)) :
    exec (.rteRep x) s = .next ((((e.issued s 1 1).modWarp e.k e.slot fun _ => w1).partGang e.k e.slot e.gid).settleTeam e.k e.warp.team) := by
  rw [hw1, hw]
  change execRteRep x s = _
  unfold execRteRep
  rw [rte_ok hs hu hh]

/-- Outside supervisor mode the supervisor-only instructions are illegal (R72). -/
theorem supervisor_only (hs : Steady s e) (hu : e.super = false) (x : X96) (y : C32R) : ∀ q ∈ [(Instr.csrr x, 12), (.csrw x, 12), (.rteRep y, 4), (.rteSkip y, 4),
    (.halt y, 4), (.tlbiAll x, 12), (.tlbiCtx x, 12), (.tlbiPage x, 12), (.waiti y, 4)],
    exec q.1 s = .next (s.takeTrap e.k e.slot e.gid { cls := 1, reason := 11, mask := maskOf e.lanes } q.2) := by
  simp only [List.forall_mem_cons, List.not_mem_nil, false_implies, implies_true, and_true]
  refine ⟨?_, ?_, ?_, ?_, ?_, ?_, ?_, ?_, ?_⟩
  · change execCsrr x s = _
    exact systemInstr_user hs hu
  · change execCsrw x s = _
    exact systemInstr_user hs hu
  · change rte s false = _
    exact systemInstr_user hs hu
  · change rte s true = _
    exact systemInstr_user hs hu
  · change execHalt y s = _
    exact systemInstr_user hs hu
  · change execTlbiAll x s = _
    exact systemInstr_user hs hu
  · change execTlbiCtx x s = _
    exact systemInstr_user hs hu
  · change execTlbiPage x s = _
    exact systemInstr_user hs hu
  · change execWaiti y s = _
    exact systemInstr_user hs hu

/-- TRAP in both forms. -/
theorem trapC32_traps (hs : Steady s e) (hb : ElementMode e) (x : C32I) :
    exec (.trapC32 x) s = .next ((e.issued s 1 1).takeTrap e.k e.slot e.gid { cls := 16, reason := x.op.lit % 256, mask := maskOf e.lanes } 4) := by
  change execTrapC32 x s = _
  exact softTrap_takes hs hb 4 x.op.lit

theorem trap_traps (hs : Steady s e) (hb : ElementMode e) (x : X96) :
    exec (.trap x) s = .next ((e.issued s 1 1).takeTrap e.k e.slot e.gid { cls := 16, reason := x.op.imm16 % 256, mask := maskOf e.lanes } 12) := by
  change execTrap x s = _
  exact softTrap_takes hs hb 12 x.op.imm16

end System

/-- The gang's slices after its return (R411). -/
def returning (w : Warp) (g : Nat) (dst : DWord) : Warp :=
  (w.gangSlices g).foldl (fun v i => (v.setExec i w.tsexec).modSlice i fun x => { x with pc := dst, tstack := [] }) w

theorem returning_edited {w : Warp} {g : Nat} {dst : DWord} (hl : w.lanes.length = 32) (hs : w.slices.length = 8) :
    SlicesEdited w (returning w g dst) (w.gangSlices g) (fun _ => some w.tsexec) fun _ x => { x with pc := dst, tstack := [] } :=
  (fold_edit (m := fun _ => some w.tsexec) (g := fun _ x => { x with pc := dst, tstack := [] }) hs hl (w.gangSlices g) (gangSlices_nodup ..)
    (fun _ => gangSlices_lt) fun _ _ _ _ _ _ => rfl).1

theorem returnFrom_eq {w : Warp} {g len : Nat} {l left : List Nat} (hh : w.handler = some (l, len)) (hleft : left = l.filter fun h => h ≠ g ∧ w.gangSlices h ≠ [])
    (skip : Bool) : w.returnFrom g skip = { returning w g (if skip then w.trapAddr + BitVec.ofNat 64 len else w.trapAddr) with
      handler := if left = [] then none else some (left, len) }.modGang g fun x => { x with wait := .ready, skip := if skip then 0 else w.tsdone } := by
  subst hleft
  unfold Warp.returnFrom
  rw [hh]
  rfl

/-- Settles O53: each instruction's law, and what returns from a handler leave. -/
theorem systemInstructions : Obligations.SystemInstructions := by
  unfold Obligations.SystemInstructions
  rintro s e hs s1 e1 rfl rfl
  refine ⟨fun hb => ⟨trapC32_traps hs hb, trap_traps hs hb⟩, fun n w ws h => illegal_traps hs n h,
    fun n => fetchFault_traps hs n, fun hu => ⟨?rte, ?idle, ?halt, ?waiti, ?tlbi⟩, ?user, ?back⟩
  case rte =>
    intro hh skip w w1 hw hw1 x
    cases skip with
    | true => exact rteSkip_returns hs hu hh x hw hw1
    | false => exact rteRep_returns hs hu hh x hw hw1
  case idle =>
    rintro hh x i hi
    obtain rfl | hj := List.mem_cons.mp hi
    · exact rte_idle hs hu hh
    · obtain rfl := List.mem_singleton.mp hj
      exact rte_idle hs hu hh
  case halt => exact fun x => ⟨fun hf => Special.halt_firmware hs hu x hf, fun hf => Special.halt_handler hs hu x hf⟩
  case waiti => exact fun x => ⟨fun h => Special.waiti hs hu x h, fun hf hq => waiti_stalls hs hu x hf hq⟩
  case tlbi =>
    rintro x ht q hq s2 marks rfl rfl
    simp only [List.mem_cons, List.not_mem_nil, or_false] at hq
    rcases hq with rfl | rfl | rfl <;> exact tlbi_ok hs hu ht
  case user => exact fun hu x y => supervisor_only hs hu x y
  case back =>
    rintro l len left hh hleft skip
    exact ⟨returning e.warp e.gid _, returning_edited hs.lanes hs.slices, returnFrom_eq hh hleft skip⟩

end Sys2Proof.Proofs.Traps
end

section
/-!
What a step does before an instruction runs: fetch and decode (R68, R405), the agenda (log 1), the fairness of a way (R327), words fetched ahead (R463), and reset.
-/
namespace Sys2Proof.Proofs.Steps
open Sys2Proof.Machine

/-! ## A step runs what its words decode to -/

theorem step_of_run {s t : State} {i : Instr} (h : s.plan = .run i t) : step s = exec i t := by
  unfold step
  rw [h]

theorem step_of_reached {s t : State} (h : s.plan = .reached t) : step s = .next t := by
  unfold step
  rw [h]

/-- A gang that may issue has its words fetched. -/
theorem issue_fetches {s : State} {pace : Option Nat} {k slot g : Nat} (h : s.mayIssue k slot g = true) :
    s.issue pace k slot g = fetchFocus pace { s with focus := (k, slot, g) } := if_pos h

/-- The fates of a fetch by the focus gang. -/
theorem fetchFocus_of_instr {s s1 : State} {pace : Option Nat} {k slot g n : Nat} {e : Env} {w : Word} {ws : List Word} {i : Instr} (hfoc : s.focus = (k, slot, g))
    (hs1 : s1 = (s.starting pace k slot g).startWarp k slot) (he : s1.env? = some e) (hf : fetchAll s1 k (Env.party s1 e) e.pc.toNat = .ok (w, ws))
    (hd : decodeWords e.super w ws = .instr i n) : fetchFocus pace s = .run i s1 := by
  subst hs1
  unfold fetchFocus
  simp only [hfoc, he, hf, hd]

theorem fetchFocus_of_illegal {s s1 : State} {pace : Option Nat} {k slot g d : Nat} {e : Env} {w : Word} {ws : List Word} (hfoc : s.focus = (k, slot, g))
    (hs1 : s1 = (s.starting pace k slot g).startWarp k slot) (he : s1.env? = some e) (hf : fetchAll s1 k (Env.party s1 e) e.pc.toNat = .ok (w, ws))
    (hd : decodeWords e.super w ws = .illegal d) : fetchFocus pace s = .run (.illegalInstruction d) s1 := by
  subst hs1
  unfold fetchFocus
  simp only [hfoc, he, hf, hd]

theorem fetchFocus_of_trap {s s1 : State} {pace : Option Nat} {k slot g r : Nat} {e : Env} (hfoc : s.focus = (k, slot, g))
    (hs1 : s1 = (s.starting pace k slot g).startWarp k slot) (he : s1.env? = some e)
    (hf : fetchAll s1 k (Env.party s1 e) e.pc.toNat = .error (.trap r)) : fetchFocus pace s = .run (.instructionFetchFault r) s1 := by
  subst hs1
  unfold fetchFocus
  simp only [hfoc, he, hf]

theorem fetchFocus_of_walk {s s1 : State} {pace : Option Nat} {k slot g va : Nat} {e : Env} (hfoc : s.focus = (k, slot, g))
    (hs1 : s1 = (s.starting pace k slot g).startWarp k slot) (he : s1.env? = some e) (hf : fetchAll s1 k (Env.party s1 e) e.pc.toNat = .error (.walk va)) :
    fetchFocus pace s = .reached ((s1.addWalk (Env.party s1 e).die (Env.party s1 e).ctx va).modGang k slot g fun x => { x with wait := .fetch va none }) := by
  subst hs1
  unfold fetchFocus
  simp only [hfoc, he, hf]

/-- A gang's state touches its own warp alone. -/
theorem warp?_modGang_other (s : State) {k slot i : Nat} (g : Nat) (f : Gang → Gang) (h : i ≠ slot) : (s.modGang k slot g f).warp? k i = s.warp? k i := by
  simp only [State.modGang, State.modWarp, State.warp?, core_modCore, Core.modWarp]
  split
  · exact alook_put_other _ _ h
  · rfl

/-- What the head of the agenda has come to where its gang may issue. -/
theorem plan_fetches {s0 s : State} {k slot g : Nat} {pace : Option Nat} (h : (s0.agenda = [] ∧ (k, slot, g) = s0.focus ∧ pace = none ∧ s = s0) ∨
      (∃ rest, s0.agenda = .issue k slot g :: rest ∧ pace = none ∧ s = { s0 with agenda := rest, focus := (k, slot, g) }) ∨
      (∃ n rest, s0.agenda = .paced k slot g n :: rest ∧ pace = some n ∧ s = { s0 with agenda := rest, focus := (k, slot, g) }))
    (hm : s.mayIssue k slot g = true) : s0.plan = fetchFocus pace s ∧ s.focus = (k, slot, g) := by
  unfold State.plan
  rcases h with ⟨ha, hf, rfl, rfl⟩ | ⟨rest, ha, rfl, rfl⟩ | ⟨n, rest, ha, rfl, rfl⟩
  · simp only [ha, ← hf]
    refine ⟨(issue_fetches hm).trans ?_, trivial⟩
    rw [hf]
  · simp only [ha]
    exact ⟨issue_fetches (s := { s0 with agenda := rest }) hm, trivial⟩
  · simp only [ha]
    exact ⟨issue_fetches (s := { s0 with agenda := rest }) hm, trivial⟩

/-- Settles O6: the plan is the fetch of the focus gang, and its fate says what runs. -/
theorem stepRunsDecoded : Obligations.StepRunsDecoded := by
  unfold Obligations.StepRunsDecoded
  intro s0 s s1 k slot g pace e h hm hs1 he
  obtain ⟨hp, hfoc⟩ := plan_fetches h hm
  refine ⟨fun w0 ws hf => ⟨fun i n hd => step_of_run (hp.trans (fetchFocus_of_instr hfoc hs1 he hf hd)),
    fun d hd => step_of_run (hp.trans (fetchFocus_of_illegal hfoc hs1 he hf hd))⟩, fun r hf => step_of_run (hp.trans (fetchFocus_of_trap hfoc hs1 he hf)),
    fun va hf => ⟨_, step_of_reached (hp.trans (fetchFocus_of_walk hfoc hs1 he hf)), ?_, fun i hi => (warp?_modGang_other _ _ _ hi).trans rfl⟩⟩
  rw [hs1]
  rfl

/-! ## The agenda's other items -/

theorem step_event {s : State} {i : Instr} {a : EvArgs} {rest : List Sched} (h : s.agenda = .event i a :: rest) (hi : isEventRow i = true) :
    step s = exec i { s with agenda := rest, ev := a } := by
  refine step_of_run ?_
  unfold State.plan
  simp only [h, hi, if_true]

/-- A way that has a gang to start goes on as the issue of that gang. -/
theorem step_way {s : State} {k way : Nat} {rest : List Sched} {p : Nat × Nat} (h : s.agenda = .way k way :: rest)
    (hn : ({ s with agenda := rest } : State).wayNext k way = some p) :
    step s = step { (({ s with agenda := rest } : State).modCore k fun (c : Core) => { c with order := c.order.filter (· ≠ p) ++ [p] }) with
      agenda := .issue k p.1 p.2 :: rest } := by
  unfold step
  have : s.plan = State.plan { (({ s with agenda := rest } : State).modCore k fun (c : Core) => { c with order := c.order.filter (· ≠ p) ++ [p] }) with
      agenda := .issue k p.1 p.2 :: rest } := by
    conv => lhs; unfold State.plan
    simp only [h, hn]
    rfl
  rw [this]

theorem wayNext_some {s : State} {k way : Nat} {p : Nat × Nat} (h : s.wayNext k way = some p) :
    p.1 % 8 = way ∧ s.mayIssue k p.1 p.2 = true ∧ p ∈ (s.core k).order := by
  unfold State.wayNext at h
  have hp := List.find?_some h
  simp only [decide_eq_true_eq] at hp
  exact ⟨hp.1, hp.2, List.mem_of_find?_eq_some h⟩

/-- A gang that is owed every start left to it keeps the others from starting: no starts are left over for nobody. -/
theorem not_fair_of_waited {s : State} {k slot g : Nat} {p : Nat × Nat} (hp : p ∈ s.wayGangs k (slot % 8)) (hne : p ≠ (slot, g)) (hr : s.ready k p.1 p.2 = true)
    (hw : 2 * (s.wayGangs k (slot % 8)).length ≤ s.waitedOf k p + 1) : s.fair k slot g = false := by
  have hpos : 0 < (s.wayGangs k (slot % 8)).length := List.length_pos_of_mem hp
  unfold State.fair
  rw [List.all_eq_false]
  refine ⟨0, List.mem_range.mpr (by omega), ?_⟩
  have hmem : (2 * (s.wayGangs k (slot % 8)).length : Int) - 1 - s.waitedOf k p ∈
      ((((s.wayGangs k (slot % 8)).filter fun p => p ≠ (slot, g) ∧ s.ready k p.1 p.2).map fun p => (2 * (s.wayGangs k (slot % 8)).length : Int) - 1 - s.waitedOf k p).filter
        fun d => d ≤ ((0 : Nat) : Int)) := by
    refine List.mem_filter.mpr ⟨List.mem_map.mpr ⟨p, List.mem_filter.mpr ⟨hp, by simp [hne, hr]⟩, rfl⟩, ?_⟩
    simp only [decide_eq_true_eq]
    omega
  have := List.length_pos_of_mem hmem
  simp only [decide_eq_true_eq, Nat.le_zero]
  omega

theorem fetchAhead_runs {s : State} {k u pa : Nat} {l : Launch} (hl : s.launch u = some l) (hr : l.phase = .running) : s.fetchAhead k (some u) pa =
    s.modCore k fun (c : Core) => { c with ahead := ((some u, pa), BitVec.ofNat 32 (memNat s.hbm pa 4)) :: c.ahead.filter fun a => a.1 ≠ (some u, pa) } := by
  unfold State.fetchAhead
  simp only [hl, hr, decide_true, if_true]

/-- A word in front of those fetched ahead is the word fetched. -/
theorem instrWord_of_ahead {s : State} {k pa : Nat} {uid : Option Nat} {w : Word} {l : List ((Option Nat × Nat) × Word)} (h : (s.core k).ahead = ((uid, pa), w) :: l) :
    s.instrWord k uid pa = w := by
  unfold State.instrWord
  rw [h, List.find?_cons_of_pos (by simp)]
  rfl

theorem step_fetchAhead {s : State} {k u pa : Nat} {rest : List Sched} {l : Launch} (h : s.agenda = .fetchAhead k (some u) pa :: rest) (hl : s.launch u = some l)
    (hr : l.phase = .running) : ∃ t, step s = .next t ∧ t.instrWord k (some u) pa = BitVec.ofNat 32 (memNat s.hbm pa 4) ∧
      ∀ m, ({ t with hbm := m } : State).instrWord k (some u) pa = BitVec.ofNat 32 (memNat s.hbm pa 4) := by
  have hplan : s.plan = .reached (({ s with agenda := rest } : State).fetchAhead k (some u) pa) := by
    unfold State.plan
    simp only [h]
  have ha := fetchAhead_runs (s := { s with agenda := rest }) (k := k) (pa := pa) hl hr
  have hc := congrArg Core.ahead (congrArg (fun x : State => x.core k) ha)
  rw [core_modCore] at hc
  exact ⟨_, step_of_reached hplan, instrWord_of_ahead hc, fun m => instrWord_of_ahead hc⟩

/-- Settles O7: one law for each item. -/
theorem stepFollowsAgenda : Obligations.StepFollowsAgenda := by
  unfold Obligations.StepFollowsAgenda
  refine ⟨fun s i a rest h hi => step_event h hi, fun s k way rest p h hn => step_way h hn, fun s k way p h => wayNext_some h,
    fun s k slot g p hp hne hr hw _ hpoll => ?_, fun s k u pa rest l h hl hr => step_fetchAhead h hl hr, fun s d n rest h => step_of_reached ?_⟩
  · unfold State.mayIssue
    rw [not_fair_of_waited hp hne hr hw, hpoll, Bool.and_false, Bool.or_false]
  · unfold State.plan
    simp only [h]
    rfl

/-! ## Reset -/

/-- Settles O10: the four dies are fresh ones, and memory lists nothing. -/
theorem resetState : Obligations.ResetState := by
  unfold Obligations.ResetState MemoryCanonical
  refine ⟨⟨rfl, rfl⟩, rfl, fun d hd => ?_⟩
  have hfresh : d = .fresh := by simpa [State.reset] using hd
  subst hfresh
  exact ⟨rfl, rfl, rfl, rfl, rfl, rfl, rfl⟩

end Sys2Proof.Proofs.Steps
end

section
/-!
Queues and launches (R346 to R351, R357 to R364, R426 to R430, R188, R459): one law for each step, where what it waits for holds.
-/
namespace Sys2Proof.Proofs.Queues
open Sys2Proof.Machine

variable {s : State}

/-! ## Doorbells and commits -/

/-- A doorbell on the submission ring of a started queue (R426). -/
theorem sqDoorbell {q : Queue} {v : Nat} (hq : s.queue? s.ev.n = some q) (hv : v = s.ev.v.toNat % 2 ^ 48) (hst : q.started = true) :
    exec .sqDoorbellWrite s = if q.tail < v ∧ v ≤ q.head + 2 ^ q.srlog then .next (s.setQueue s.ev.n { q with tail := v }) else .next s := by
  subst hv
  change execSqDoorbellWrite s = _
  unfold execSqDoorbellWrite
  simp only [hq, hst, true_and]

/-- A doorbell on the completion ring (R430). -/
theorem cqDoorbell {q : Queue} {v : Nat} (hq : s.queue? s.ev.n = some q) (hv : v = s.ev.v.toNat % 2 ^ 48) (hst : q.started = true) :
    exec .cqDoorbellWrite s = if q.cqHead < v then .next (s.setQueue s.ev.n { q with cqHead := v }) else .next s := by
  subst hv
  change execCqDoorbellWrite s = _
  unfold execCqDoorbellWrite
  simp only [hq, hst, true_and]

theorem doorbells {q : Queue} {v : Nat} (hq : s.queue? s.ev.n = some q) (hv : v = s.ev.v.toNat % 2 ^ 48) (hst : q.started = true) :
    (q.tail < v → v ≤ q.head + 2 ^ q.srlog → exec .sqDoorbellWrite s = .next (s.setQueue s.ev.n { q with tail := v })) ∧
    (v ≤ q.tail ∨ q.head + 2 ^ q.srlog < v → exec .sqDoorbellWrite s = .next s) ∧
    (q.cqHead < v → exec .cqDoorbellWrite s = .next (s.setQueue s.ev.n { q with cqHead := v })) ∧
    (v ≤ q.cqHead → exec .cqDoorbellWrite s = .next s) := by
  refine ⟨fun h1 h2 => (sqDoorbell hq hv hst).trans (if_pos ⟨h1, h2⟩), fun h => (sqDoorbell hq hv hst).trans (if_neg ?_),
    fun h => (cqDoorbell hq hv hst).trans (if_pos h), fun h => (cqDoorbell hq hv hst).trans (if_neg (Nat.not_lt.mpr h))⟩
  omega

theorem qcommit_denied (h : s.leads s.ev.die = false) : exec .qcommitWrite s = .next (s.violation s.ev.die) := by
  change execQcommitWrite s = _
  unfold execQcommitWrite State.qcommit
  rw [if_pos (ne_true_of_eq_false h)]

/-- The machine once a block of generation `g` is committed for queue `n`. -/
def committed (s : State) (n g : Nat) (old q : Queue) : State :=
  ({ s with dies := s.dies.map fun (x : Die) => { x with dropCtx := if q.en = true then x.dropCtx.filter (· ≠ q.ctx) else x.dropCtx } } : State).setQueue n { q with
    gen := g
    started := old.started || q.en
    head := old.head
    tail := old.tail
    cqHead := old.cqHead
    count := old.count }

theorem qcommit_block {n g d : Nat} {old q : Queue} (hl : s.leads s.ev.die = true) (hn : n = s.ev.v.toNat % 4096) (ho : old = (s.queue? n).getD {})
    (hb : qcbOf (memNat s.hbm (s.qcbBase * 4096 + 64 * n) 64) = some (g, q)) (hd : d = (g + 2 ^ 32 - old.gen) % 2 ^ 32) :
    exec .qcommitWrite s = .next (if d = 0 ∨ 2 ^ 31 ≤ d then s else committed s n g old q) := by
  subst hd ho hn
  change execQcommitWrite s = _
  unfold execQcommitWrite State.qcommit
  rw [if_neg (not_not_intro hl)]
  simp only [hb]
  rfl

/-! ## The fetch of a record (R346, R350) -/

/-- What a queue has to be for a record of it to be fetched. -/
structure Fetches (s : State) (q : Queue) : Prop where
  queue : s.queue? s.ev.n = some q
  powered : s.powered = true
  recovery : s.recovery = false
  en : q.en = true
  started : q.started = true
  holds : q.head < q.tail

theorem recordFetch_launch {q : Queue} {v : Nat} {l : Launch} (h : Fetches s q) (hr : s.ringRead q (q.srbase + 64 * (q.head % 2 ^ q.srlog)) 64 = some v)
    (hl : s.launchOf s.ev.n q v = .ok l) : exec .launchRecordFetch s = .next ((s.addLaunch l).setQueue s.ev.n { q with head := q.head + 1 }) := by
  have hg : ¬ (¬ s.powered = true ∨ s.recovery = true ∨ ¬ q.en = true ∨ ¬ q.started = true ∨ q.tail ≤ q.head) := by
    simp [h.powered, h.recovery, h.en, h.started, h.holds]
  change execLaunchRecordFetch s = _
  unfold execLaunchRecordFetch
  simp only [h.queue, hr, hl, if_neg hg]

theorem recordFetch_dead {q : Queue} {v c : Nat} (h : Fetches s q) (hr : s.ringRead q (q.srbase + 64 * (q.head % 2 ^ q.srlog)) 64 = some v)
    (hl : s.launchOf s.ev.n q v = .error c) :
    exec .launchRecordFetch s = .next ((s.addLaunch (deadLaunch s.ev.n q s.nextUid c)).setQueue s.ev.n { q with head := q.head + 1 }) := by
  have hg : ¬ (¬ s.powered = true ∨ s.recovery = true ∨ ¬ q.en = true ∨ ¬ q.started = true ∨ q.tail ≤ q.head) := by
    simp [h.powered, h.recovery, h.en, h.started, h.holds]
  change execLaunchRecordFetch s = _
  unfold execLaunchRecordFetch
  simp only [h.queue, hr, hl, if_neg hg]

/-! ## Dispatch -/

/-- Where the check at the checker's head is no DUAL, none is taken (R317). -/
theorem takeDuals_none (f : Nat) (h : ∀ n c, s.headCheck = some (n, c) → c.wit.kind ≠ 5) : State.takeDuals f s = s := by
  cases f with
  | zero => rfl
  | succ f =>
    unfold State.takeDuals
    cases hc : s.headCheck with
    | none => rfl
    | some p => exact if_neg (h p.1 p.2 hc)

/-- What a launch has to be for its dispatch to look at its dependences. -/
structure Dispatching (s : State) (l : Launch) : Prop where
  launch : s.launch s.ev.n = some l
  waits : l.phase = .waiting
  whole : l.failed = none
  alone : l.grouped = false
  noDual : ∀ n c, s.headCheck = some (n, c) → c.wit.kind ≠ 5

theorem Dispatching.exec_eq {l : Launch} (h : Dispatching s l) : exec .launchDispatch s = .next (s.dispatch s.ev.n) := by
  change execLaunchDispatch s = _
  unfold execLaunchDispatch
  rw [takeDuals_none _ h.noDual]

theorem Dispatching.goes {l : Launch} (h : Dispatching s l) : ¬ (l.phase ≠ .waiting ∨ l.failed ≠ none ∨ l.grouped = true) := by
  simp [h.waits, h.whole, h.alone]

theorem dispatch_failed {l : Launch} (h : Dispatching s l) (hd : (l.deps.any fun d => s.depState l.ctx d = .failed) = true) :
    exec .launchDispatch s = .next (s.failLaunch s.ev.n 3) := by
  rw [h.exec_eq]
  unfold State.dispatch
  simp only [h.launch, if_neg h.goes, if_pos hd]

theorem dispatch_starts {l : Launch} {img : Image} {s1 : State} (h : Dispatching s l) (hd : (l.deps.any fun d => s.depState l.ctx d = .failed) = false)
    (hgo : s.dispatchable l = true) (hf : s.framesMet s.ev.n l = true) (hi : s.imageOf l = some img)
    (hr : s.replace l.ocr l.occ l.ch l.cw = some (l.ocr, l.occ)) (hp : s.placeCopy s.ev.n img l = some s1) :
    exec .launchDispatch s = .next (s1.start s.ev.n img l) := by
  have hgo' : ¬ (¬ s.dispatchable l = true ∨ ¬ s.framesMet s.ev.n l = true) := by simp [hgo, hf]
  rw [h.exec_eq]
  unfold State.dispatch
  simp only [h.launch, if_neg h.goes, hd, Bool.false_eq_true, if_false, if_neg hgo', hi, hr, and_self, if_true, hp]

/-! ## Admission -/

theorem quadAdmission_places {c : Cand} {cs : List (Nat × Nat)} {q : Nat × Nat} (hp : s.pick s.ev.die = .place c cs)
    (ho : (c.l.onePerCore && decide (c.l.nextQuad = 0)) = false)
    (hq : s.coolest (c.spots.filter fun q => ((rectDies c.l.ocr c.l.occ c.l.ch c.l.cw).flatMap (s.pickedOn c.uid)).contains q) = some q) :
    exec .quadAdmission s = .next (s.admitQuad c.img c.uid q) := by
  change execQuadAdmission s = _
  unfold execQuadAdmission
  simp only [hp, ho, Bool.false_eq_true, if_false, hq]

theorem quadAdmission_preempts {k slot : Nat} (hp : s.pick s.ev.die = .preempt k slot) : exec .quadAdmission s = .next (s.askDiscard k slot) := by
  change execQuadAdmission s = _
  unfold execQuadAdmission
  simp only [hp]

theorem rerun_unplaced {l : Launch} {img : Image} {r : Rerun} (hl : s.launch s.ev.n = some l) (hi : s.imageOf l = some img)
    (hr : l.reruns.find? (fun r => r.team = s.ev.k) = some r) (hp : l.phase = .running) (hc : ∀ c ∈ s.rerunSpots s.ev.n l r, s.present c.1 c.2 = false) :
    exec .teamRerunAdmission s = .next (s.endLaunch l.root 4) := by
  have hall : ((s.rerunSpots s.ev.n l r).all fun c => !(s.present c.1 c.2)) = true :=
    List.all_eq_true.mpr fun c hm => by rw [hc c hm, Bool.not_false]
  change execTeamRerunAdmission s = _
  unfold execTeamRerunAdmission
  simp only [hl, hi, hr, hp, ne_eq, not_true_eq_false, if_false, hall, if_true]

theorem rerun_admits {l : Launch} {img : Image} {r : Rerun} {c : Nat × Nat} (hl : s.launch s.ev.n = some l) (hi : s.imageOf l = some img)
    (hr : l.reruns.find? (fun r => r.team = s.ev.k) = some r) (hp : l.phase = .running) (ht : r.threads = [])
    (hcool : s.coolest ((s.rerunSpots s.ev.n l r).filter fun c => ((s.core (clusterCore c.1 c.2 r.pos)).takes l.pri s.scanPri && !(s.blockedAbove l.pri).contains c &&
      s.present c.1 c.2 && ((s.residentOf s.ev.n r.seg r.quad).isSome || !(s.die (clusterDie c.1 c.2)).retiring.contains (clusterIdx c.1 c.2))) &&
      ((s.core (clusterCore c.1 c.2 r.pos)).room (needOf img l img.teamW true)).isSome) = some c)
    (hc : ∃ c ∈ s.rerunSpots s.ev.n l r, s.present c.1 c.2 = true) :
    exec .teamRerunAdmission s = .next ((s.admitGrid img s.ev.n (clusterCore c.1 c.2 r.pos) (r.seg - l.seg0) r.team r.reruns).modLaunch s.ev.n
      fun x => { x with reruns := x.reruns.erase r }) := by
  have hall : ¬ ((s.rerunSpots s.ev.n l r).all fun c => !(s.present c.1 c.2)) = true := by
    obtain ⟨c, hm, hc⟩ := hc
    exact fun h => absurd (List.all_eq_true.mp h c hm) (by rw [hc]; decide)
  change execTeamRerunAdmission s = _
  unfold execTeamRerunAdmission
  simp only [hl, hi, hr, hp, ne_eq, not_true_eq_false, if_false, if_neg hall, ht, decide_true, Bool.true_and, hcool]

/-! ## Formed warps and bins -/

theorem formedWarp_admits {f : Formed} {rest : List Formed} {s1 : State} (hf : (s.core s.ev.core).formed = f :: rest)
    (ha : s.admitThreads s.ev.core f.threads 0 = some s1) : exec .formedWarpAdmission s =
      .next (((s1.modCore s.ev.core fun (c : Core) => { c with formed := rest }).modDie (dieOf s.ev.core) fun d => { d with
        cycle := d.cycle + (f.since + 44 - s.cycleOf s.ev.core) }).settleBins s.ev.core) := by
  change execFormedWarpAdmission s = _
  unfold execFormedWarpAdmission
  simp only [hf, ha]

theorem binTimer_forms {b : Bin} {s1 : State} (hb : alook s.ev.n (s.core s.ev.core).bins = some b)
    (hs1 : s1 = (s.modDie (dieOf s.ev.core) fun d => { d with cycle := d.cycle + (b.deadline - s.cycleOf s.ev.core) })) (hlen : (s1.core s.ev.core).formed.length < 16)
    (hfirst : earliest ((s1.core s.ev.core).bins.filter fun x => decide (x.2.deadline ≤ s1.cycleOf s.ev.core ∨ s1.widthOf x.2.uid ≤ x.2.threads.length)) = some s.ev.n) :
    exec .binTimerExpiry s = .next ((s1.setCore s.ev.core ((s1.core s.ev.core).formBin s.ev.n (s1.cycleOf s.ev.core))).settleBins s.ev.core) := by
  have hgo : ¬ (16 ≤ (s1.core s.ev.core).formed.length ∨ earliest ((s1.core s.ev.core).bins.filter fun x =>
      decide (x.2.deadline ≤ s1.cycleOf s.ev.core ∨ s1.widthOf x.2.uid ≤ x.2.threads.length)) ≠ some s.ev.n) := by
    rw [hfirst]
    simp only [ne_eq, not_true_eq_false, or_false]
    omega
  subst hs1
  change execBinTimerExpiry s = _
  unfold execBinTimerExpiry
  simp only [hb]
  exact if_neg hgo

theorem group_closes {g : AggGroup} {rest : List AggGroup} (hg : (s.die s.ev.die).agg = g :: rest) :
    exec .aggregatorGroupClose s = .next ((s.modDie s.ev.die fun d => { d with
      agg := rest
      cycle := max d.cycle (g.first + 256) }).closeGroup g) := by
  change execAggregatorGroupClose s = _
  unfold execAggregatorGroupClose
  simp only [hg]

/-! ## The end of a launch -/

/-- What a launch that runs has to be for it to complete. -/
theorem completes_now {l : Launch} (hp : l.phase = .running) (hc : l.counter = 0) (hseg : l.segs.length ≤ l.nextSeg) (hr : l.reruns = []) :
    ¬ (l.phase ≠ .running ∨ l.counter ≠ 0 ∨ l.nextSeg < l.segs.length ∨ l.reruns ≠ []) := by simp [hp, hc, hr, hseg]

theorem completion_root {l : Launch} (hl : s.launch s.ev.n = some l) (hgo : ¬ (l.phase ≠ .running ∨ l.counter ≠ 0 ∨ l.nextSeg < l.segs.length ∨ l.reruns ≠ []))
    (hn : l.parent = none) : exec .launchCompletion s = .next (s.modLaunch s.ev.n fun x => { x with phase := .flushing }) := by
  change execLaunchCompletion s = _
  unfold execLaunchCompletion
  simp only [hl, if_neg hgo, hn]

theorem completion_child {l : Launch} {p : Nat} (hl : s.launch s.ev.n = some l) (hgo : ¬ (l.phase ≠ .running ∨ l.counter ≠ 0 ∨ l.nextSeg < l.segs.length ∨ l.reruns ≠ []))
    (hn : l.parent = some p) : exec .launchCompletion s = .next ((s.modLaunch s.ev.n fun x => { x with phase := .ended }).lowerCounter p 1) := by
  change execLaunchCompletion s = _
  unfold execLaunchCompletion
  simp only [hl, if_neg hgo, hn]

theorem gate_firmware (hk : s.ev.k = 1) : exec .releaseGateDelivery s = .next (s.fwDeliver s.ev.die) := by
  change execReleaseGateDelivery s = _
  exact if_pos hk

/-- The first write at the gate of a launch that has settled (R188, R432). -/
theorem gate_delivers {l : Launch} {w : SysWrite} {rest : List SysWrite} (hk : s.ev.k ≠ 1) (hl : s.launch s.ev.n = some l) (hg : l.gate = w :: rest)
    (hp : l.phase = .settled) (h2 : l.second = false) : exec .releaseGateDelivery s =
      if 1 < l.status.getD 7 then .next s
      else if s.peerRefuses w = true then .next ((s.refusedWrite (some l.ctx) l.tag).modLaunch s.ev.n fun x => { x with
        gate := rest
        peerRefused := true })
      else .next ((s.homeWrite (.sys w.addr) w.data).modLaunch s.ev.n fun x => { x with gate := rest }) := by
  change execReleaseGateDelivery s = _
  unfold execReleaseGateDelivery
  simp only [if_neg hk, hl, hg, hp, h2, ne_eq, not_true_eq_false, Bool.false_eq_true, false_or]

theorem gate_cases {l : Launch} {w : SysWrite} {rest : List SysWrite} (hk : s.ev.k ≠ 1) (hl : s.launch s.ev.n = some l) (hg : l.gate = w :: rest)
    (hp : l.phase = .settled) (h2 : l.second = false) :
    (l.status.getD 7 ≤ 1 → (s.ev.v = 0 ∨ w.addr < 2 ^ 47) →
      exec .releaseGateDelivery s = .next ((s.homeWrite (.sys w.addr) w.data).modLaunch s.ev.n fun x => { x with gate := rest })) ∧
    (l.status.getD 7 ≤ 1 → s.ev.v ≠ 0 → 2 ^ 47 ≤ w.addr → exec .releaseGateDelivery s =
      .next ((s.logError (sevReset.getD 23 2) 23 true none none (some l.ctx) none l.tag).modLaunch s.ev.n fun x => { x with
        gate := rest
        peerRefused := true })) ∧
    (2 ≤ l.status.getD 7 → exec .releaseGateDelivery s = .next s) := by
  have h := gate_delivers hk hl hg hp h2
  refine ⟨fun h1 hv => ?_, fun h1 hv ha => ?_, fun h1 => h.trans (if_pos h1)⟩
  · have hpass : ¬ s.peerRefuses w = true := by
      unfold State.peerRefuses
      rw [decide_eq_true_eq]
      rintro ⟨h3, h4⟩
      rcases hv with hv | hv
      · exact h3 hv
      · omega
    exact h.trans ((if_neg (Nat.not_lt.mpr h1)).trans (if_neg hpass))
  · exact h.trans ((if_neg (Nat.not_lt.mpr h1)).trans (if_pos (decide_eq_true ⟨hv, ha⟩)))

/-- The completion record of a launch that has settled and whose gate is empty (R430). -/
theorem record_written {l : Launch} {n st status : Nat} {q : Queue} {s1 : State} (hl : s.launch s.ev.n = some l) (hn : l.queue = some n) (hst : l.status = some st)
    (hs : status = (if l.peerRefused then 7 else st)) (hq : q = (s.queue? n).getD {}) (hp : l.phase = .settled) (hg : l.gate = [])
    (hs1 : s1 = s.ringWrite q (q.crbase + 32 * (q.count % 2 ^ q.crlog)) (natLe 32 (l.tag.toNat * 2 ^ 64 + l.dies % 16 * 2 ^ 12 + l.run % 4 * 2 ^ 10 + status % 8 * 2 ^ 4 +
      (if q.count / 2 ^ q.crlog % 2 = 0 then 1 else 0)))) : exec .completionRecordWrite s =
      if q.cqHead + 2 ^ q.crlog ≤ q.count then .next s
      else .next ((({ s1 with
        msix := s1.msix ++ [n % 2048]
        results := s1.results ++ [s1.resultOf l status] } : State).setQueue n { q with count := q.count + 1 }).bury s.ev.n) := by
  subst hs1 hs hq
  change execCompletionRecordWrite s = _
  unfold execCompletionRecordWrite
  simp only [hl, hn, hst, hp, hg, ne_eq, not_true_eq_false, false_or, completionBytes, decide_eq_true_eq]
  rfl

/-- Settles O54: the laws above, step by step. -/
theorem queueAndLaunchSteps : Obligations.QueueAndLaunchSteps := by
  unfold Obligations.QueueAndLaunchSteps
  intro s
  refine ⟨fun q v hq hv hst => doorbells hq hv hst, fun h => qcommit_denied h, fun n old g q d hl hn ho hb hd => ?commit, fun q hq hp hr he hst hh => ?fetch,
    fun l img s1 hl hw hf hg hc => ?dispatch, fun c cs hp ho q hq => quadAdmission_places hp ho hq, fun k slot hp => quadAdmission_preempts hp,
    fun l img r hl hi hr hp hc => rerun_unplaced hl hi hr hp hc, fun l img r c hl hi hr hp ht hcool hc => rerun_admits hl hi hr hp ht hcool hc,
    fun f rest s1 hf ha => formedWarp_admits hf ha, fun b s1 hb hs1 hlen hfirst => binTimer_forms hb hs1 hlen hfirst, fun g rest hg => group_closes hg,
    fun l hl hp hc hseg hr => ?complete, fun hk => gate_firmware hk, fun l w rest hk hl hg hp h2 => gate_cases hk hl hg hp h2,
    fun l n st status q s1 hl hn hst hs hq hp hg hs1 => ?record⟩
  case commit =>
    have h := qcommit_block hl hn ho hb hd
    refine ⟨fun h0 h31 => h.trans ?_, fun h0 => h.trans (congrArg _ (if_pos h0))⟩
    rw [if_neg (by omega)]
    rfl
  case fetch =>
    have h : Fetches s q := ⟨hq, hp, hr, he, hst, hh⟩
    exact ⟨fun v l hr hl => recordFetch_launch h hr hl, fun v c hr hl => recordFetch_dead h hr hl⟩
  case dispatch =>
    have h : Dispatching s l := ⟨hl, hw, hf, hg, hc⟩
    exact ⟨fun hd => dispatch_failed h hd, fun hd hgo hfr hi hr hp => dispatch_starts h hd hgo hfr hi hr hp⟩
  case complete =>
    have hgo := completes_now hp hc hseg hr
    exact ⟨fun hn => completion_root hl hgo hn, fun p hn => completion_child hl hgo hn⟩
  case record =>
    have h := record_written hl hn hst hs hq hp hg hs1
    exact ⟨fun hc => h.trans (if_neg (Nat.not_le.mpr hc)), fun hc => h.trans (if_pos hc)⟩

end Sys2Proof.Proofs.Queues
end

section
/-!
Steps that place threads, end a stall, or move a team (R135, R359, R379, R381, R341 to R343, R145, R345, R411, R420 to R424).
-/
namespace Sys2Proof.Proofs.Threads
open Sys2Proof.Machine

variable {s : State} {e : Env}

/-! ## Ends of a stall -/

section Stalls
variable (he : s.envOf s.ev.core s.ev.warp s.ev.gang = some e)
include he

theorem bowait_ends {acq len : Nat} {fr : List Nat} (hw : e.gang.wait = .bowait [] acq len fr) :
    exec .bowaitSatisfied s = .next (e.done len ((s.modWarp e.k e.slot fun w => w.free fr).acquire e.k e.slot acq)) := by
  change execBowaitSatisfied s = _
  unfold execBowaitSatisfied
  simp only [he, hw]

theorem spawn_resumes {ts : List Spawned} {timer len : Nat} {frees : List Nat} (hw : e.gang.wait = .spawn ts timer len frees) :
    exec .spawnPlacement s = if e.warp.sq ≠ [] then .next s else .next (s.spawnNow e ts timer len frees) := by
  change execSpawnPlacement s = _
  unfold execSpawnPlacement
  simp only [he, hw]

theorem place_settles {last len : Nat} (hw : e.gang.wait = .place last len) : exec .spawnPlacement s = .next (s.settleBins s.ev.core) := by
  change execSpawnPlacement s = _
  unfold execSpawnPlacement
  simp only [he, hw]

theorem sleep_ends {till : Nat} (hw : e.gang.wait = .sleep till) :
    exec .sleepExpiry s = .next ((e.stall .ready s).modDie (dieOf s.ev.core) fun d => { d with cycle := max d.cycle till }) := by
  change execSleepExpiry s = _
  unfold execSleepExpiry
  simp only [he, hw]

variable {pc : DWord} {mask len : Nat} {gs : List Nat} (hat : e.warp.atRegang e.gid = some (pc, mask, len))
  (hgs : gs = (((List.range 8).filter fun i => mask.testBit i && e.warp.sliceLive i).map fun i => (e.warp.slice i).gang).eraseDups)
include hat hgs

/-- Gangs that all stand at the same REGANG merge (R341). -/
theorem regang_merges (hall : ∀ g ∈ gs, ∃ n, e.warp.atRegang g = some (pc, mask, n)) :
    exec .regangMerge s = .next ((s.modWarp s.ev.core s.ev.warp fun _ => e.warp.mergeGangs e.gid gs).retire s.ev.core s.ev.warp e.gid pc len) := by
  have hsome : ¬ (gs.map e.warp.atRegang).any (·.isNone) = true := by
    rw [List.any_map, List.any_eq_true]
    rintro ⟨g, hg, h⟩
    obtain ⟨n, hn⟩ := hall g hg
    simp [hn] at h
  have hsame : ((gs.map e.warp.atRegang).all fun x => match x with | some y => decide (y.1 = pc ∧ y.2.1 = mask) | none => false) = true := by
    rw [List.all_map, List.all_eq_true]
    intro g hg
    obtain ⟨n, hn⟩ := hall g hg
    simp [hn]
  subst hgs
  change execRegangMerge s = _
  unfold execRegangMerge
  simp only [he, hat]
  exact (if_neg hsome).trans (if_pos hsame)

/-- Gangs that stand at different REGANGs trap, the one issued first in front (R341; log 79). -/
theorem regang_traps (hall : ∀ g ∈ gs, ∃ y, e.warp.atRegang g = some y)
    (hother : ∃ g ∈ gs, ∃ y, e.warp.atRegang g = some y ∧ (y.1 ≠ pc ∨ y.2.1 ≠ mask)) :
    exec .regangMerge s = .next ((s.issuedFirst s.ev.core s.ev.warp gs).foldl (fun t g => match t.envOf s.ev.core s.ev.warp g with
      | some x => t.takeTrap s.ev.core s.ev.warp g (ctlTrap x 3) len
      | none => t) s) := by
  have hsome : ¬ (gs.map e.warp.atRegang).any (·.isNone) = true := by
    rw [List.any_map, List.any_eq_true]
    rintro ⟨g, hg, h⟩
    obtain ⟨n, hn⟩ := hall g hg
    simp [hn] at h
  have hsame : ¬ ((gs.map e.warp.atRegang).all fun x => match x with | some y => decide (y.1 = pc ∧ y.2.1 = mask) | none => false) = true := by
    rw [List.all_map, List.all_eq_true]
    obtain ⟨g, hg, y, hy, hne⟩ := hother
    intro h
    have hg' := h g hg
    simp only [Function.comp_apply, hy, decide_eq_true_eq] at hg'
    rcases hne with hne | hne
    · exact hne hg'.1
    · exact hne hg'.2
  subst hgs
  change execRegangMerge s = _
  unfold execRegangMerge
  simp only [he, hat]
  exact ((if_neg hsome).trans (if_neg hsame)).trans rfl

end Stalls

/-! ## Messages, quarters and hand-offs -/

theorem message_arrives {m : Msg} (hm : s.flight.find? (fun m => m.id = s.ev.n) = some m) (hc : m.core = s.ev.core) (hsent : m.sent = true)
    (hord : ∀ o ∈ s.flight, o.id < m.id → o.sender = m.sender → o.core ≠ m.core) (hroom : ((s.core m.core).placing.filter (·.msg)).length < 32) :
    exec .messageArrival s = .next (({ s with flight := s.flight.filter fun o => o.id ≠ m.id } : State).arriveAll m.core [m.thread] 256 true) := by
  have hany : ¬ (s.flight.any fun o => o.id < m.id ∧ o.sender = m.sender ∧ o.core = m.core) = true := by
    rw [List.any_eq_true]
    rintro ⟨o, ho, h⟩
    obtain ⟨h1, h2, h3⟩ := of_decide_eq_true h
    exact hord o ho h1 h2 h3
  have hfull : ¬ s.inboxFull m.core = true := by
    unfold State.inboxFull
    rw [decide_eq_true_eq]
    omega
  have hgo : ¬ (¬ m.sent = true ∨ m.core ≠ s.ev.core ∨ (s.flight.any fun o => o.id < m.id ∧ o.sender = m.sender ∧ o.core = m.core) = true ∨ s.inboxFull m.core = true) := by
    rintro (h | h | h | h)
    · exact h hsent
    · exact h hc
    · exact hany h
    · exact hfull h
  change execMessageArrival s = _
  unfold execMessageArrival
  simp only [hm]
  exact if_neg hgo

section Tiles
variable {t : Tile} {l : Launch} {img : Image} (ht : alook s.ev.n (s.core s.ev.core).tiles = some t) (hl : s.launch t.uid = some l) (hi : s.imageOf l = some img)
  (hd : s.tileDrained s.ev.core t = true)
include ht hl hi hd

theorem quarter_places {s1 : State} (hq : t.quarter = true)
    (hp : s.placeEvent s.ev.core t.uid ((List.range 4).map fun i => boundsThread img l t.uid (t.depth + 1) t.clock (quarterOf (domainDim l) t.x t.y t.z i).1
      (quarterOf (domainDim l) t.x t.y t.z i).2.1 (quarterOf (domainDim l) t.x t.y t.z i).2.2) = some s1) :
    exec .quarterEvent s = .next (s1.modCore s.ev.core fun (c : Core) => { c with tiles := adel s.ev.n c.tiles }) := by
  have hgo : ¬ (¬ t.quarter = true ∨ ¬ s.tileDrained s.ev.core t = true) := by simp [hq, hd]
  change execQuarterEvent s = _
  unfold execQuarterEvent
  simp only [ht, hl, hi, if_neg hgo, hp]

theorem handoff_places {s1 : State} {ts : List Spawned}
    (hts : ts = tileElems img l t (if s.detLaunch t.uid then min ((16 - (s.core s.ev.core).formed.length) * s.widthOf t.uid) 4096 else 4096)) (hq : t.quarter = false)
    (hlast : ∀ p ∈ (s.core s.ev.core).placing, t.last < p.num) (hp : s.placeEvent s.ev.core t.uid ts = some s1) :
    exec .handoffGroupPlace s = .next (s1.modCore s.ev.core fun (c : Core) => { c with
      tiles := if tileCount t.x t.y t.z ≤ t.next + ts.length then adel s.ev.n c.tiles else aput s.ev.n { t with
        next := t.next + ts.length
        last := c.arrivals - 1 } c.tiles }) := by
  have hany : ¬ ((s.core s.ev.core).placing.any fun p => p.num ≤ t.last) = true := by
    rw [List.any_eq_true]
    rintro ⟨p, hp, h⟩
    have := hlast p hp
    have := of_decide_eq_true h
    omega
  have hgo : ¬ (t.quarter = true ∨ ¬ s.tileDrained s.ev.core t = true ∨ ((s.core s.ev.core).placing.any fun p => p.num ≤ t.last) = true) := by
    rintro (h | h | h)
    · exact absurd (hq.symm.trans h) nofun
    · exact h hd
    · exact hany h
  subst hts
  change execHandoffGroupPlace s = _
  unfold execHandoffGroupPlace
  simp only [ht, hl, hi, if_neg hgo, hp]

end Tiles

/-! ## REGROUP -/

section Regroup
variable {w w' : Warp} {g g' : Gang} {partner pd len back pd' len' slot' : Nat} (hw : s.warp? s.ev.core s.ev.warp = some w)
  (hat : w.atRegroup = some (g, partner, pd, len))
include hw hat

theorem regroup_alone (hp : (s.core s.ev.core).partner w.team partner = none) : exec .regroupFusion s = .next (s.regroupFails s.ev.core s.ev.warp) := by
  change execRegroupFusion s = _
  unfold execRegroupFusion
  simp only [hw, hat, hp]

variable (hp : (s.core s.ev.core).partner w.team partner = some (slot', w')) (hat' : w'.atRegroup = some (g', back, pd', len')) (hb : back = w.warpId)
  (hpc : w'.pcOf g'.id = w.pcOf g.id) (he : s.envOf s.ev.core s.ev.warp g.id = some e)
include hp hat' hb hpc he

theorem regroup_crowded (hwide : e.w < w.liveLanes.length + w'.liveLanes.length) :
    exec .regroupFusion s = .next ((s.regroupFails s.ev.core s.ev.warp).regroupFails s.ev.core slot') := by
  change execRegroupFusion s = _
  unfold execRegroupFusion
  simp only [hw, hat, hp, hat', hb, hpc, he, ne_eq, not_true_eq_false, or_self, if_false, if_pos hwide]

variable {s1 : State} {share : Team → Nat} (hwide : w.liveLanes.length + w'.liveLanes.length ≤ e.w)
  (hshare : ∀ t : Team, share t = t.n * (match t.uid.bind s.launch with
    | some l => if l.mirrored then 2 else 1
    | none => 1))
  (hs1 : s1 = (s.modTeam s.ev.core w.team fun t => { t with vectors := t.vectors - share t }))
include hwide hshare hs1

theorem regroup_fuses_low (hlow : w.warpId < w'.warpId) : exec .regroupFusion s = .next (s1.modCore s.ev.core fun (c : Core) => ({ c with
    warps := aput s.ev.warp (fuse w w' g g' (w.pcOf g.id) pd len) (adel slot' c.warps)
    order := c.order.filter fun p => p.1 ≠ slot' }).tidyWarp s.ev.warp) := by
  obtain rfl : share = _ := funext hshare
  subst hs1
  change execRegroupFusion s = _
  unfold execRegroupFusion
  simp only [hw, hat, hp, hat', hb, hpc, he, ne_eq, not_true_eq_false, or_self, if_false, if_neg (Nat.not_lt.mpr hwide), decide_eq_true hlow, if_true] <;> rfl

theorem regroup_fuses_high (hlow : w'.warpId ≤ w.warpId) : exec .regroupFusion s = .next (s1.modCore s.ev.core fun (c : Core) => ({ c with
    warps := aput slot' (fuse w' w g' g (w.pcOf g.id) pd len) (adel s.ev.warp c.warps)
    order := c.order.filter fun p => p.1 ≠ s.ev.warp }).tidyWarp slot') := by
  obtain rfl : share = _ := funext hshare
  subst hs1
  change execRegroupFusion s = _
  unfold execRegroupFusion
  simp only [hw, hat, hp, hat', hb, hpc, he, ne_eq, not_true_eq_false, or_self, if_false, if_neg (Nat.not_lt.mpr hwide), decide_eq_false (Nat.not_lt.mpr hlow),
    Bool.false_eq_true] <;> rfl

end Regroup

/-! ## Pre-emption -/

theorem discard_asked {t : Team} (ht : alook s.ev.n (s.core s.ev.core).teams = some t) : exec .preemptDiscard s = .next (if s.discardable t then s.killTeam s.ev.core s.ev.n false
    else if s.svSize = 0 then s else s.modTeam s.ev.core s.ev.n fun t => { t with saving := true }) := by
  change execPreemptDiscard s = _
  unfold execPreemptDiscard State.askDiscard State.askSave
  simp only [ht]

theorem team_saved {t t1 : Team} {s1 : State} {x : Saved} (ht : alook s.ev.n (s.core s.ev.core).teams = some t) (hr : s.saveReady s.ev.core s.ev.n t = true)
    (hs1 : s1 = s.retireDone s.ev.core s.ev.n) (ht1 : alook s.ev.n (s1.core s.ev.core).teams = some t1)
    (hx : x = (s1.core s.ev.core).imageOf s.ev.core s1.tracks s.ev.n t1) :
    exec .teamSave s = .next { s1.removeTeam s.ev.core s.ev.n with saved := s1.saved ++ [{ x with team := { x.team with
      pos := if isFw s.ev.core then 0 else posOf s.ev.core } }] } := by
  subst hx hs1
  change execTeamSave s = _
  unfold execTeamSave
  simp only [ht, if_neg (not_not_intro hr), ht1]

theorem team_restored {x : Saved} {l : Launch} {group : List Saved} {c : Nat × Nat} {ls : List Landing} (hx : s.saved[s.ev.k]? = some x) (hl : s.launch s.ev.n = some l)
    (hu : x.uid = s.ev.n)
    (hg : group = (if x.team.kind = .grid then s.saved.filter fun y => y.uid = x.uid ∧ y.team.kind = .grid ∧ y.team.seg = x.team.seg ∧ y.team.quad = x.team.quad else [x]))
    (hf : (s.homesOf l x).findSome? (fun c => (landings s c.1 c.2 l.pri group).map fun ls => (c, ls)) = some (c, ls)) :
    exec .teamRestore s = .next ((ls.foldl State.retest (ls.foldl (State.land ls) { s with saved := s.saved.filter fun y => ¬ group.contains y })).modLaunch s.ev.n fun r => { r with
      quads := r.quads.map fun q => if x.team.kind = .grid ∧ q.1 = x.team.seg ∧ q.2.1 = x.team.quad then (q.1, q.2.1, c.1, c.2) else q }) := by
  subst hg
  change execTeamRestore s = _
  unfold execTeamRestore
  simp only [hx, hl, if_neg (not_not_intro hu), hf]

/-! ## WAITI -/

theorem waiti_sleeps (h : (s.die s.ev.die).interrupted = false) : exec .waitiWake s = .next s := by
  change execWaitiWake s = _
  exact if_pos (ne_true_of_eq_false h)

/-- The only gang of a firmware core, stalled at WAITI, goes on (R411). -/
theorem waiti_wakes {slot g len : Nat} (h : (s.die s.ev.die).interrupted = true) (he : s.envOf (s.ev.die * 256 + 128) slot g = some e) (hw : e.gang.wait = .waiti len)
    (hone : (s.core (s.ev.die * 256 + 128)).warps = [(slot, e.warp)]) (hg : e.warp.gangs = [e.gang]) : exec .waitiWake s = .next (e.done len s) := by
  have hid : e.gang.id = g := by
    obtain ⟨-, -, -, -, -, hgang, -⟩ := env_of_some he
    have hid := List.find?_some (p := fun x : Gang => decide (x.id = g)) hgang
    exact of_decide_eq_true hid
  change execWaitiWake s = _
  unfold execWaitiWake
  simp only [if_neg (not_not_intro h), hone, List.flatMap_cons, List.flatMap_nil, List.append_nil, hg, List.filterMap_cons, hw, List.filterMap_nil, List.foldl_cons, List.foldl_nil,
    hid, he]

/-- Settles O55: the laws above, step by step. -/
theorem threadAndTeamSteps : Obligations.ThreadAndTeamSteps := by
  unfold Obligations.ThreadAndTeamSteps
  rintro s k rfl
  refine ⟨fun e he => ⟨fun acq len fr hw => bowait_ends he hw, fun ts timer len frees hw => ?spawn, fun last len hw => place_settles he hw, fun till hw => sleep_ends he hw,
      fun pc mask len named gs hat hn hgs => ?regang⟩,
    fun m hm hc hsent hord hroom => message_arrives hm hc hsent hord hroom, fun t l img s1 ht hl hi hd => ⟨fun hq hp => quarter_places ht hl hi hd hq hp,
      fun ts hts hq hlast hp => handoff_places ht hl hi hd hts hq hlast hp⟩, fun w w' g g' partner pd len back pd' len' slot' hw hat => ⟨fun hp => regroup_alone hw hat hp,
      fun hp hat' hb hpc e he => ⟨fun hwide => regroup_crowded hw hat hp hat' hb hpc he hwide, fun s1 share hwide hshare hs1 =>
        ⟨fun hlow => regroup_fuses_low hw hat hp hat' hb hpc he hwide hshare hs1 hlow, fun hlow => regroup_fuses_high hw hat hp hat' hb hpc he hwide hshare hs1 hlow⟩⟩⟩,
    rfl, rfl, fun t ht => discard_asked ht, fun t s1 t1 ht hr hs1 ht1 x hx => team_saved ht hr hs1 ht1 hx, fun x l group c ls hx hl hu hg hf => team_restored hx hl hu hg hf,
    fun h => waiti_sleeps h, fun slot g e len h he hw hone hg => waiti_wakes h he hw hone hg⟩
  case spawn =>
    have h := spawn_resumes he hw
    exact ⟨fun hq => h.trans (if_neg (not_not_intro hq)), fun hq => h.trans (if_pos hq)⟩
  case regang =>
    subst hn
    exact ⟨fun hall => regang_merges he hat hgs hall, fun hall hother => regang_traps he hat hgs hall hother⟩

end Sys2Proof.Proofs.Threads
end

section
/-!
Drain, Send, Fetch, Evict, the fabric's exchanges, accesses, walks and the fault queue (R107 to R113, R126 to R130, R174 to R178, R182, R464, R465): one law for each step.
-/
namespace Sys2Proof.Proofs.Fabric
open Sys2Proof.Machine

variable {s : State}

/-! ## Drain (R176) -/

section Drain
variable {w : Warp} {q : WEnt} {rest : List WEnt} {s1 : State} (hw : s.warp? s.ev.core s.ev.warp = some w) (hq : w.sq = q :: rest)
include hw hq

theorem drain_held (hd : canDrain s s.ev.core s.ev.warp q = false) : exec .storeQueueDrain s = .next s := by
  change execStoreQueueDrain s = _
  unfold execStoreQueueDrain State.drain
  simp only [hw, hq, if_pos (ne_true_of_eq_false hd)]

variable (hd : canDrain s s.ev.core s.ev.warp q = true) (hs1 : s1 = (s.modWarp s.ev.core s.ev.warp fun w => { w with sq := rest }))
include hd hs1

/-- A write to the core's own scratchpad is performed. -/
theorem drain_own {off : Nat} (hp : q.place = .scr s.ev.core off) (hk : q.kind = .store) :
    exec .storeQueueDrain s = .next (((s1.homeWrite q.place q.data).wakeFences s.ev.core).settleTeam s.ev.core w.team) := by
  subst hs1
  change execStoreQueueDrain s = _
  unfold execStoreQueueDrain State.drain
  simp only [hw, hq, if_neg (not_not_intro hd), hp, hk, if_true]

/-- Another store goes to the outbound buffer, and the core's view has it. -/
theorem drain_store {pa : Nat} (hp : q.place = .mem pa) (hk : q.kind = .store) :
    exec .storeQueueDrain s = .next (((s1.modCore s.ev.core fun (c : Core) => { c.cvUpdate pa q.data with
      ob := (c.cvUpdate pa q.data).ob ++ [{ q with ob := (c.cvUpdate pa q.data).seq }]
      seq := (c.cvUpdate pa q.data).seq + 1 }).wakeFences s.ev.core).settleTeam s.ev.core w.team) := by
  subst hs1
  change execStoreQueueDrain s = _
  unfold execStoreQueueDrain State.drain
  simp only [hw, hq, if_neg (not_not_intro hd), hp, hk]

/-- A reduction goes to the outbound buffer, and its sector leaves the core's view. -/
theorem drain_red {pa op t mode : Nat} (hp : q.place = .mem pa) (hk : q.kind = .red op t mode) :
    exec .storeQueueDrain s = .next (((s1.modCore s.ev.core fun (c : Core) => { c with
      cv := adel (pa / 32) c.cv
      ob := c.ob ++ [{ q with ob := c.seq }]
      seq := c.seq + 1 }).wakeFences s.ev.core).settleTeam s.ev.core w.team) := by
  subst hs1
  change execStoreQueueDrain s = _
  unfold execStoreQueueDrain State.drain
  simp only [hw, hq, if_neg (not_not_intro hd), hp, hk]

theorem drain_sys {a : Nat} (hp : q.place = .sys a) :
    exec .storeQueueDrain s = .next (((s1.modCore s.ev.core fun (c : Core) => { c with
      ob := c.ob ++ [{ q with ob := c.seq }]
      seq := c.seq + 1 }).wakeFences s.ev.core).settleTeam s.ev.core w.team) := by
  subst hs1
  change execStoreQueueDrain s = _
  unfold execStoreQueueDrain State.drain
  simp only [hw, hq, if_neg (not_not_intro hd), hp]
  rfl

end Drain

/-! ## Send (R177) -/

section Send
variable {q : WEnt} (hq : (s.core s.ev.core).ob[s.ev.n]? = some q) (hc : canSend (s.core s.ev.core).ob s.ev.n = true) (hm : s.msgHeld s.ev.core q = false)
include hq hc hm

theorem send_now (hk : s.ev.k = 0) :
    exec .outboundSend s = .next (((s.applyEnt s.ev.core q).modCore s.ev.core fun (c : Core) => c.dropOb q.ob).left s.ev.core) := by
  change execOutboundSend s = _
  unfold execOutboundSend
  simp only [if_neg (not_not_intro hc), hq, hm, Bool.false_eq_true, if_false, hk]

theorem send_travels {pa : Nat} {s1 : State} (hk : s.ev.k = 1) (hp : q.place = .mem pa)
    (ho : s.openXch s.ev.core q.uid (s.ctxOf s.ev.core q.uid) pa (.ob q) = some s1) :
    exec .outboundSend s = .next (s1.modCore s.ev.core fun (c : Core) => { c with ob := c.ob.map fun x => if x.ob = q.ob then { x with sent := true } else x }) := by
  change execOutboundSend s = _
  unfold execOutboundSend
  simp only [if_neg (not_not_intro hc), hq, hm, Bool.false_eq_true, if_false, hk, hp, ho, Option.map_some, Option.getD_some]

end Send

theorem send_waits (hc : canSend (s.core s.ev.core).ob s.ev.n = false) : exec .outboundSend s = .next s := by
  change execOutboundSend s = _
  exact if_pos (ne_true_of_eq_false hc)

theorem applyEnt_store {k pa : Nat} {q : WEnt} (hp : q.place = .mem pa) (hk : q.kind = .store) : s.applyEnt k q = s.homeWrite (.mem pa) q.data := by
  unfold State.applyEnt
  simp only [hk, hp]

/-! ## Requests that arrive (R126 to R130) -/

/-- What a corrupt request, or one whose header cannot be corrected, records. -/
def headerError (p : Packet) (x : Exchange) : ErrorReport := { cls := 11, die := p.dst.die, onCK := false, core := localOf x.core, slot := 0, ctx := p.ctx, tag := 0, detail := none }

theorem receive_corrupt {p : Packet} {x : Exchange} (h : p.corrupt = true ∨ s.ev.k = 3) :
    s.receive p x = (false, ({ s with packets := adel s.ev.n s.packets } : State).raiseError (headerError p x)) := if_pos h

theorem receive_clean {p : Packet} {x : Exchange} (hp : p.corrupt = false) (hk : s.ev.k = 0) : s.receive p x = (true, { s with packets := adel s.ev.n s.packets }) := by
  have h : ¬ (p.corrupt = true ∨ s.ev.k = 3) := by simp [hp, hk]
  unfold State.receive
  rw [if_neg h]
  simp [hk]

section Request
variable {p : Packet} {x : Exchange} {gone : State} (hx : s.packetAt PKind.isRequest = some (p, x)) (hg : gone = { s with packets := adel s.ev.n s.packets })
include hx hg

theorem request_corrupt (h : p.corrupt = true ∨ s.ev.k = 3) : exec .fabricRequestArrival s = .next (gone.raiseError (headerError p x)).sweepLost := by
  have hfull : ((alook p.xch s.filters).isNone && decide (1024 ≤ s.filterHeld x.pa) && !(x.lost || (s.die x.home).dropCtx.contains x.ctx) && !p.corrupt &&
      decide (s.ev.k = 0)) = false := by
    rcases h with h | h <;> simp [h]
  subst hg
  change execFabricRequestArrival s = _
  unfold execFabricRequestArrival
  simp only [hx, hfull, receive_corrupt h, Bool.false_eq_true, if_false, Bool.not_false, if_true]

variable (hp : p.corrupt = false) (hk : s.ev.k = 0)
include hp hk

theorem request_dropped (h : x.lost = true ∨ (s.die x.home).dropCtx.contains x.ctx = true) : exec .fabricRequestArrival s = .next gone.sweepLost := by
  have hdrop : (x.lost || (s.die x.home).dropCtx.contains x.ctx) = true := by rcases h with h | h <;> rw [h] <;> simp
  subst hg
  change execFabricRequestArrival s = _
  unfold execFabricRequestArrival
  simp only [hx, hdrop, receive_clean hp hk, Bool.not_true, Bool.and_false, Bool.false_and, Bool.false_eq_true, if_false, if_true]

variable (hl : x.lost = false) (hd : (s.die x.home).dropCtx.contains x.ctx = false)
include hl hd

theorem request_again {f : Filter} (hf : alook p.xch s.filters = some f) : exec .fabricRequestArrival s =
    .next (({ gone with filters := aput p.xch { f with copies := f.copies ++ [p.copy] } s.filters }.respond p.xch x f.value).closeFilter p.xch) := by
  subst hg
  change execFabricRequestArrival s = _
  unfold execFabricRequestArrival
  simp only [hx, hl, hd, hf, receive_clean hp hk, Option.isNone_some, Bool.false_and, Bool.or_false, Bool.not_true, Bool.false_eq_true, if_false]

omit hg in
theorem request_full (hf : alook p.xch s.filters = none) (hn : 1024 ≤ s.filterHeld x.pa) : exec .fabricRequestArrival s = .next s := by
  change execFabricRequestArrival s = _
  unfold execFabricRequestArrival
  simp only [hx, hl, hd, hf, hp, hk, hn, Option.isNone_none, decide_true, Bool.or_false, Bool.not_false, Bool.and_true, if_true]

theorem request_first {d : State × List Byte} (hf : alook p.xch s.filters = none) (hn : s.filterHeld x.pa < 1024) (hperf : d = gone.performXch x) :
    exec .fabricRequestArrival s =
      .next (({ d.1 with filters := aput p.xch { copies := [p.copy], value := d.2, ctx := x.ctx } d.1.filters } : State).respond p.xch x d.2) := by
  subst hperf hg
  change execFabricRequestArrival s = _
  unfold execFabricRequestArrival
  simp only [hx, hl, hd, hf, receive_clean hp hk, decide_eq_false (Nat.not_le.mpr hn), Bool.and_false, Bool.false_and, Bool.or_false, Bool.not_true, Bool.false_eq_true, if_false]

end Request

theorem perform_ob {x : Exchange} {q : WEnt} (hv : x.void = false) (hc : x.cargo = .ob q) (hin : ((s.core x.core).ob.any fun r => decide (r.ob = q.ob)) = true) :
    s.performXch x = (((s.applyEnt x.core q).modCore x.core fun (c : Core) => c.dropOb q.ob).left x.core, []) := by
  unfold State.performXch
  simp only [hv, hc, hin, Bool.false_eq_true, if_false, if_true]

theorem perform_atom {x : Exchange} {w g : Nat} {a : Acc} (hv : x.void = false) (hc : x.cargo = .atom w g a) :
    s.performXch x = ((s.atomHome x.core (.mem x.pa) a).1, natLe a.size (s.atomHome x.core (.mem x.pa) a).2) := by
  unfold State.performXch
  simp only [hv, hc, Bool.false_eq_true, if_false]

/-! ## Responses, acknowledgements and the timer (R129) -/

section Response
variable {p : Packet} {x : Exchange} {gone : State} (hx : s.packetAt (fun y => y = .response) = some (p, x)) (hp : p.corrupt = false) (hk : s.ev.k = 0)
  (hg : gone = { s with packets := adel s.ev.n s.packets })
include hx hp hk hg

theorem response_late (h : x.lost = true ∨ x.answered = true) : exec .fabricResponseArrival s = .next gone.sweepLost := by
  subst hg
  change execFabricResponseArrival s = _
  unfold execFabricResponseArrival
  simp only [hx, receive_clean hp hk, Bool.not_true, Bool.false_eq_true, false_or, if_pos h]

theorem response_taken (hl : x.lost = false) (ha : x.answered = false) : exec .fabricResponseArrival s =
    .next ((({ gone with exchanges := aput p.xch { x with answered := true } s.exchanges } : State).takeResponse p.xch x p.data).acknowledge p.xch x) := by
  subst hg
  change execFabricResponseArrival s = _
  unfold execFabricResponseArrival
  simp only [hx, receive_clean hp hk, hl, ha, Bool.not_true, Bool.false_eq_true, or_self, if_false]

end Response

theorem ack_taken {p : Packet} {x : Exchange} {f : Filter} (hx : s.packetAt (fun y => y = .ack) = some (p, x)) (hp : p.corrupt = false) (hk : s.ev.k = 0)
    (hl : x.lost = false) (hf : alook p.xch s.filters = some f) : exec .fabricAckArrival s = .next ({ s with
      packets := adel s.ev.n s.packets
      filters := aput p.xch { f with ack := some p.copy } s.filters }.closeFilter p.xch) := by
  change execFabricAckArrival s = _
  unfold execFabricAckArrival
  simp only [hx, receive_clean hp hk, hl, hf, Bool.not_true, Bool.false_eq_true, or_self, if_false]

/-- What the timer of an exchange does (R129). -/
theorem timer {x : Exchange} (hx : alook s.ev.n s.exchanges = some x) : exec .retransmitTimerExpiry s =
    if x.lost = true ∨ x.answered = true ∨ s.cycleOf x.core < x.last + 4096 then .next s
    else if 8 ≤ x.copies then
      .next (s.raiseError { cls := 12, die := dieOf x.core, onCK := false, core := localOf x.core, slot := 0, ctx := x.ctx, tag := 0, detail := none })
    else .next (({ s with exchanges := aput s.ev.n { x with copies := x.copies + 1, last := s.cycleOf x.core } s.exchanges } : State).request s.ev.n
      { x with copies := x.copies + 1, last := s.cycleOf x.core } (x.copies + 1)) := by
  change execRetransmitTimerExpiry s = _
  unfold execRetransmitTimerExpiry
  simp only [hx]

theorem timer_cases {x : Exchange} (hx : alook s.ev.n s.exchanges = some x) :
    (x.lost = true ∨ x.answered = true ∨ s.cycleOf x.core < x.last + 4096 → exec .retransmitTimerExpiry s = .next s) ∧
    (x.lost = false → x.answered = false → x.last + 4096 ≤ s.cycleOf x.core → (8 ≤ x.copies → exec .retransmitTimerExpiry s =
        .next (s.raiseError { cls := 12, die := dieOf x.core, onCK := false, core := localOf x.core, slot := 0, ctx := x.ctx, tag := 0, detail := none })) ∧
      (x.copies < 8 → ∀ x', x' = ({ x with copies := x.copies + 1, last := s.cycleOf x.core } : Exchange) →
        exec .retransmitTimerExpiry s = .next ({ s with exchanges := aput s.ev.n x' s.exchanges }.request s.ev.n x' (x.copies + 1)))) := by
  refine ⟨fun h => (timer hx).trans (if_pos h), fun hl ha hc => ?_⟩
  have hgo : ¬ (x.lost = true ∨ x.answered = true ∨ s.cycleOf x.core < x.last + 4096) := by
    simp only [hl, ha, Bool.false_eq_true, false_or]
    omega
  refine ⟨fun h => (timer hx).trans ((if_neg hgo).trans (if_pos h)), ?_⟩
  rintro h x' rfl
  exact (timer hx).trans ((if_neg hgo).trans (if_neg (Nat.not_le.mpr h)))

/-! ## Accesses that complete (R109, R179) -/

section Accesses
variable {e : Env} {m : MemWait} {a : Acc} {h : Hit} {s1 : State} (he : s.envOf s.ev.core s.ev.warp s.ev.gang = some e) (hw : e.gang.wait = .mem m)
  (hdet : (e.det && !m.checked && !m.again) = false) (hn : nextAcc s (Env.party s e) m.accs = some (a, h)) (hl : a.lane = s.ev.lane) (hx : a.xch = none)
  (hp : s.performAcc e a h = some s1)
include he hw hdet hn hl hx hp

/-- The next access of the gang is performed. -/
theorem takeAcc_performs {want : AccKind → Bool} (ha : want a.kind = true) : s.takeAcc s.ev.core s.ev.warp s.ev.gang s.ev.lane want = s1.accDone e m a := by
  have hgo : ¬ (¬ want a.kind = true ∨ a.lane ≠ s.ev.lane ∨ a.xch ≠ none) := by simp [ha, hl, hx]
  unfold State.takeAcc
  simp only [he, hw, hdet, Bool.false_eq_true, if_false, hn, if_neg hgo, hp]

theorem access_performs {i : Instr} (hi : i = (if a.kind.returns then Instr.atomicPerform else .accessComplete)) (hk : s.ev.k = 0) : exec i s = .next (s1.accDone e m a) := by
  subst hi
  by_cases hr : a.kind.returns = true
  · rw [if_pos hr]
    change execAtomicPerform s = _
    unfold execAtomicPerform
    rw [if_neg (by rw [hk]; decide), takeAcc_performs he hw hdet hn hl hx hp hr]
  · rw [if_neg hr]
    change execAccessComplete s = _
    unfold execAccessComplete
    rw [takeAcc_performs he hw hdet hn hl hx hp (by simpa using hr)]

end Accesses

theorem accDone_last {e : Env} {m : MemWait} {a : Acc} (h : (m.without a).accs = []) : s.accDone e m a = s.finishMem e (m.without a) := by
  unfold State.accDone
  simp only [h]

theorem accDone_more {e : Env} {m : MemWait} {a : Acc} (h : (m.without a).accs ≠ []) :
    s.accDone e m a = s.modGang e.k e.slot e.gid fun x => { x with wait := .mem (m.without a) } := by
  unfold State.accDone
  dsimp only
  split
  · next heq => exact absurd heq h
  · rfl

/-! ## Walks and the fault queue (R108 to R112) -/

/-- The machine once a walk has come to `r`: its translation is cached, a fault is not (R107). -/
def walkedTo (s : State) (r : Except Nat TlbEnt) : State := match r with
  | .ok t => s.cache s.ev.die t
  | .error _ => s

theorem walk_completes {r : Except Nat TlbEnt} {s1 : State} {q : State × Bool} (hw : ((s.die s.ev.die).walks.take 32).contains (s.ev.n, s.ev.k) = true)
    (hr : r = walk s s.ev.die s.ev.n (ext57 (s.ev.k * 4096)))
    (hs1 : s1 = walkedTo s r)
    (hq : q = (s.waiters s.ev.die s.ev.n s.ev.k).foldl (fun (q : State × Bool) w =>
      ((q.1.serve s.ev.die s.ev.n s.ev.k r w).1, q.2 && (q.1.serve s.ev.die s.ev.n s.ev.k r w).2)) (s1, true)) :
    exec .walkComplete s = .next (if q.2 then q.1.modDie s.ev.die fun d => { d with walks := d.walks.filter (· ≠ (s.ev.n, s.ev.k)) } else q.1) := by
  subst hq hs1 hr
  change execWalkComplete s = _
  unfold execWalkComplete
  dsimp only
  exact if_neg (not_not_intro hw)

section FaultQueue
variable {seq : Nat} {x : Susp} {d : State} (hseq : seq = s.ev.v.toNat % 2 ^ 32) (hx : alook seq (s.die s.ev.die).fq = some x)
  (hd : d = (s.modDie s.ev.die fun d => { d with fq := adel seq d.fq }))
include hseq hx hd

theorem retry_task {id : Nat} (ht : x.task = some id) : exec .fqretryWrite s =
    .next ((d.addWalk s.ev.die x.ctx x.va).modCore x.core fun (c : Core) => c.modTask id fun t => if t.seq = some seq then { t with seq := none } else t) := by
  subst hd
  change execFqretryWrite s = _
  unfold execFqretryWrite State.fqRetry
  simp only [← hseq, hx, ht]

theorem deliver_task {id : Nat} (ht : x.task = some id) : exec .fqdeliverWrite s = .next (d.taskError x.core id) := by
  subst hd
  change execFqdeliverWrite s = _
  unfold execFqdeliverWrite State.fqDeliver
  simp only [← hseq, hx, ht]

variable (ht : x.task = none)
include ht

theorem retry_gang : exec .fqretryWrite s = .next ((d.addWalk s.ev.die x.ctx x.va).modGang x.core x.warp x.gang fun g => match g.wait with
    | .fetch va (some n) => if n = seq then { g with wait := .fetch va none } else g
    | .mem m => { g with wait := .mem { m with accs := m.accs.map fun a => if a.seq = some seq then { a with seq := none } else a } }
    | _ => g) := by
  subst hd
  change execFqretryWrite s = _
  unfold execFqretryWrite State.fqRetry
  simp only [← hseq, hx, ht] <;> rfl

variable {e : Env} (he : d.envOf x.core x.warp x.gang = some e)
include he

theorem deliver_fetch {va : Nat} (hw : e.gang.wait = .fetch va (some seq)) :
    exec .fqdeliverWrite s = .next (d.takeTrap x.core x.warp x.gang { cls := 3, reason := x.cause, mask := 0 } 4) := by
  subst hd
  change execFqdeliverWrite s = _
  unfold execFqdeliverWrite State.fqDeliver
  simp only [← hseq, hx, ht, he, hw, if_true]

variable {m m1 : MemWait} (hw : e.gang.wait = .mem m) (hm1 : m1 = { m with
  accs := m.accs.filter fun a => a.seq ≠ some seq
  deliv := m.deliv ++ [(seq, x.cause, maskOf ((m.accs.filter fun a => a.seq = some seq).map (·.lane)))] })
include hw hm1

theorem deliver_last (hl : m1.accs = []) : exec .fqdeliverWrite s = .next (d.finishMem e m1) := by
  subst hd hm1
  change execFqdeliverWrite s = _
  unfold execFqdeliverWrite State.fqDeliver
  simp only [← hseq, hx, ht, he, hw]
  split
  · rfl
  · next h => exact absurd hl h

theorem deliver_more (hl : m1.accs ≠ []) : exec .fqdeliverWrite s = .next (d.modGang x.core x.warp x.gang fun g => { g with wait := .mem m1 }) := by
  subst hd hm1
  change execFqdeliverWrite s = _
  unfold execFqdeliverWrite State.fqDeliver
  simp only [← hseq, hx, ht, he, hw]

end FaultQueue

theorem fqhead_moves {h : Nat} (hh : h = s.ev.v.toNat % 2 ^ 32) : exec .fqheadWrite s = .next (s.modDie s.ev.die fun d =>
    if (h + (2 ^ 32 - d.fqHead)) % 2 ^ 32 ≤ (d.fqTail + (2 ^ 32 - d.fqHead)) % 2 ^ 32 then { d with fqHead := h } else d) := by
  subst hh
  change execFqheadWrite s = _
  unfold execFqheadWrite State.fqHeadTo
  simp only [Nat.mod_mod]

/-! ## The weight store's rotation (R113) -/

/-- Where no stalled read waits for the weight store, the slot's end moves the die's cycle alone. -/
theorem slot_ends (h : ∀ q ∈ s.cores, dieOf q.1 = s.ev.die → ∀ w ∈ q.2.warps, ∀ g ∈ w.2.gangs, ∀ m, g.wait = .mem m → ∀ a ∈ m.accs, ∀ o, a.place ≠ some (.ws o)) :
    exec .refreshSlotEnd s = .next (s.setDie s.ev.die { s.die s.ev.die with cycle := ((s.die s.ev.die).cycle / 256 + 1) * 256 }) := by
  change execRefreshSlotEnd s = _
  unfold execRefreshSlotEnd
  dsimp only
  refine congrArg Host.Outcome.next ?_
  rw [List.flatMap_eq_nil_iff.mpr, List.foldl_nil]
  intro q hq
  obtain ⟨hq, hdie⟩ := List.mem_filter.mp hq
  refine List.flatMap_eq_nil_iff.mpr fun w hw => List.flatMap_eq_nil_iff.mpr fun g hg => ?_
  split
  · next m hm =>
    refine List.filterMap_eq_nil_iff.mpr fun a ha => ?_
    split
    · next o ho => exact absurd ho (h q hq (of_decide_eq_true hdie) w hw g hg m hm a ha o)
    · rfl
  · rfl

/-- Settles O56: the laws above, step by step. -/
theorem memoryAndFabricSteps : Obligations.MemoryAndFabricSteps := by
  unfold Obligations.MemoryAndFabricSteps
  rintro s k c rfl rfl
  refine ⟨fun w q rest s1 hw hq => ⟨fun hd => drain_held hw hq hd, fun hd hs1 => ⟨fun off hp hk => drain_own hw hq hd hs1 hp hk, fun pa hp hk => drain_store hw hq hd hs1 hp hk,
      fun pa op t mode hp hk => drain_red hw hq hd hs1 hp hk, fun a hp => drain_sys hw hq hd hs1 hp⟩⟩,
    fun q hq hc hm => ⟨fun hk => send_now hq hc hm hk, fun pa s1 hk hp ho => send_travels hq hc hm hk hp ho⟩, fun hc => send_waits hc, fun q pa hp hk => applyEnt_store hp hk,
    rfl, rfl, ?request, fun x hv => ⟨fun q hc hin => perform_ob hv hc hin, fun w g a hc => perform_atom hv hc⟩,
    fun p x gone hx hp hk hg => ⟨fun h => response_late hx hp hk hg h, fun hl ha => response_taken hx hp hk hg hl ha⟩,
    fun p x f hx hp hk hl hf => ack_taken hx hp hk hl hf, fun ex hx => timer_cases hx, ?access,
    fun r s1 q hw hr hs1 hq => walk_completes hw hr hs1 hq, fun seq x d hseq hx hd => ⟨fun id ht => ⟨retry_task hseq hx hd ht, deliver_task hseq hx hd ht⟩,
      fun ht => ⟨retry_gang hseq hx hd ht, fun e he => ⟨fun va hw => deliver_fetch hseq hx hd ht he hw, fun m m1 hw hm1 =>
        ⟨fun hl => deliver_last hseq hx hd ht he hw hm1 hl, fun hl => deliver_more hseq hx hd ht he hw hm1 hl⟩⟩⟩⟩,
    fun h hh => fqhead_moves hh, fun h => slot_ends h⟩
  case request =>
    rintro p x gone err hx hg rfl
    exact ⟨fun h => request_corrupt hx hg h, fun hp hk h => request_dropped hx hg hp hk h, fun hp hk hl hd => ⟨fun f hf => request_again hx hg hp hk hl hd hf,
      fun hf hn => request_full hx hp hk hl hd hf hn, fun d hf hn hperf => request_first hx hg hp hk hl hd hf hn hperf⟩⟩
  case access =>
    intro e m a h s1 he hw hdet hn hl hx hp i hi hk
    have hexec := access_performs he hw hdet hn hl hx hp hi hk
    obtain ⟨hek, hes, heg, -⟩ := env_of_some he
    refine ⟨fun ha => hexec.trans (congrArg _ (accDone_last ha)), fun ha => hexec.trans ?_⟩
    rw [accDone_more ha, hek, hes, heg]

end Sys2Proof.Proofs.Fabric
end

section
/-!
The engines and the weight store at work (R113, R115, R143, R151 to R153, R158, R186): one law for each step.
-/
namespace Sys2Proof.Proofs.EngineWork
open Sys2Proof.Machine

variable {s : State}

/-! ## Tasks -/

section Tasks
variable {t : Task} {tm : Team} (ht : alook s.ev.n (s.core s.ev.core).tasks = some t) (hm : alook t.slot (s.core s.ev.core).teams = some tm)
include ht hm

theorem start_waits (h : s.mayStart s.ev.core s.ev.n t = false) : exec .taskStart s = .next s := by
  have hgo : ¬ s.mayStart s.ev.core s.ev.n t = true ∨ (tm.saving = true ∧ s.saveFits s.ev.core t.slot = true) := .inl (ne_true_of_eq_false h)
  change execTaskStart s = _
  unfold execTaskStart
  simp only [ht, hm, if_pos hgo]

/-- A task that may start starts, or ends where it would write a tagged granule (R143). -/
theorem start_cases (h : s.mayStart s.ev.core s.ev.n t = true) (hs : (tm.saving && s.saveFits s.ev.core t.slot) = false) : exec .taskStart s =
    if s.writesTagged s.ev.core tm t then .next (s.taskError s.ev.core s.ev.n)
    else .next (s.modCore s.ev.core fun (c : Core) => c.modTask s.ev.n fun x => { x with state := .running }) := by
  have hgo : ¬ (¬ s.mayStart s.ev.core s.ev.n t = true ∨ (tm.saving = true ∧ s.saveFits s.ev.core t.slot = true)) := by
    rw [h, ← Bool.and_eq_true, hs]
    decide
  change execTaskStart s = _
  unfold execTaskStart
  simp only [ht, hm, if_neg hgo]

/-- The next unit of a running copy lands (R158). -/
theorem sector_lands {r : CopyRec} {s1 : State} (hj : t.job = .copy r) (hmv : t.moving = true) (hlen : r.len ≠ 0) (hrow : t.row ≤ r.rows)
    (hu : s.copyUnit s.ev.core s.ev.n tm t r = .ok s1) : exec .copySectorLand s = .next s1 := by
  have hgo : ¬ (¬ t.moving = true ∨ r.len = 0 ∨ r.rows < t.row) := by
    rw [hmv]
    simp only [not_true_eq_false, hlen, false_or]
    omega
  change execCopySectorLand s = _
  unfold execCopySectorLand
  simp only [ht, hj, hm, if_neg hgo, hu]

/-- A copy all of whose units have landed and whose queue is empty ends (R153). -/
theorem copy_completes {r : CopyRec} (hj : t.job = .copy r) (hmv : t.moving = true) (hrow : r.len = 0 ∨ r.rows < t.row) (heq : t.eq = [])
    (hr : t.released (s.core s.ev.core) = true) : exec .taskComplete s = .next (s.taskEnd s.ev.core s.ev.n tm t) := by
  change execTaskComplete s = _
  unfold execTaskComplete
  simp only [ht, hm, hmv, not_true_eq_false, if_false, hj, if_pos hrow, heq, hr, ne_eq, or_self]

omit ht hm in
theorem taskEnd_done {k id : Nat} {r : CopyRec} (hj : t.job = .copy r) (h : t.rel = 0 ∨ r.len = 0 ∨ r.rows < t.signed.1) : s.taskEnd k id tm t = s.taskDone k id tm t := by
  unfold State.taskEnd
  simp only [hj, if_pos h]

omit ht hm in
/-- A copy with a release signals unit by unit (R142, R153; log 59). -/
theorem taskEnd_signals {k id : Nat} {r : CopyRec} {s1 : State} (hj : t.job = .copy r) (hrel : t.rel ≠ 0) (hlen : r.len ≠ 0) (hrow : t.signed.1 ≤ r.rows)
    (hsig : s.signal k tm t (.landed (r.unit t.signed.1 t.signed.2)) = some s1) :
    s.taskEnd k id tm t = s1.modCore k fun (c : Core) => c.modTask id fun x => { x with signed := r.after t.signed.1 t.signed.2 } := by
  have hgo : ¬ (t.rel = 0 ∨ r.len = 0 ∨ r.rows < t.signed.1) := by
    simp only [hrel, hlen, false_or]
    omega
  unfold State.taskEnd
  simp only [hj, if_neg hgo, hsig]

/-- What is no copy computes, and ends once its queue is empty and its release is met (R153). -/
theorem compute_completes {s1 s2 : State} {t1 : Task} {tm1 : Team} (hj : ∀ r, t.job ≠ .copy r) (hmv : t.moving = true) (hc : t.computed = false)
    (hs1 : s.compute s.ev.core s.ev.n tm t = .ok s1) (hs2 : s2 = (s1.modCore s.ev.core fun (c : Core) => c.modTask s.ev.n fun x => { x with computed := true }))
    (ht1 : alook s.ev.n (s2.core s.ev.core).tasks = some t1) (hm1 : alook t.slot (s2.core s.ev.core).teams = some tm1) :
    exec .taskComplete s = .next (if t1.eq ≠ [] ∨ t1.released (s2.core s.ev.core) = false then s2 else s2.taskEnd s.ev.core s.ev.n tm1 t1) := by
  subst hs2
  change execTaskComplete s = _
  unfold execTaskComplete
  simp only [ht, hm, hmv, hc, hs1, ht1, hm1, not_true_eq_false, Bool.false_eq_true, if_false, Bool.not_eq_true, apply_ite Host.Outcome.next]

/-! ## The engine queue (R186) -/

variable {q : WEnt} {rest : List WEnt} (hq : t.eq = q :: rest)
include hq

omit hm in
theorem queue_applies (hsent : q.sent = false) (hheld : (q.held && s.speculative t.uid) = false) (hk : s.ev.k = 0) :
    exec .engineQueueApply s = .next (s.eqApply s.ev.core s.ev.n) := by
  change execEngineQueueApply s = _
  unfold execEngineQueueApply
  simp only [ht, hq, hsent, hheld, Bool.or_self, Bool.false_eq_true, if_false, hk]

end Tasks

/-- The machine once the entry has reached its home: the view of the core that wrote it holds it, and a system write stands at its gate. -/
def reached (s : State) (k : Nat) (q : WEnt) : State :=
  match q.place with
  | .sys a => s.gateWrite k q.uid a q.data
  | .mem pa => (s.homeWrite q.place q.data).modCore k fun (c : Core) => c.cvUpdate pa q.data
  | p => s.homeWrite p q.data

theorem reached_of_cases {k : Nat} {q : WEnt} {s1 : State} (hmem : ∀ pa, q.place = .mem pa → s1 = (s.homeWrite q.place q.data).modCore k fun (c : Core) => c.cvUpdate pa q.data)
    (hsys : ∀ a, q.place = .sys a → s1 = s.gateWrite k q.uid a q.data)
    (hrest : (∀ pa, q.place ≠ .mem pa) → (∀ a, q.place ≠ .sys a) → s1 = s.homeWrite q.place q.data) : reached s k q = s1 := by
  unfold reached
  split
  · next a ha => exact (hsys a ha).symm
  · next pa hpa => exact (hmem pa hpa).symm
  · next p h1 h2 => exact (hrest (fun pa h => h2 pa h) (fun a h => h1 a h)).symm

section Applied
variable {k id : Nat} {t : Task} {tm : Team} {q : WEnt} {rest : List WEnt} {s1 s2 : State} (ht : alook id (s.core k).tasks = some t)
  (hm : alook t.slot (s.core k).teams = some tm) (hq : t.eq = q :: rest) (hs1 : reached s k q = s1)
  (hs2 : s2 = (s1.modCore k fun (c : Core) => c.modTask id fun x => { x with eq := rest }))
include ht hm hq hs1 hs2

theorem eqApply_plain (h : (∀ r, t.job ≠ .copy r) ∨ t.rel ≠ 0) : s.eqApply k id = s2 := by
  subst hs1
  rw [hs2]
  unfold State.eqApply
  simp only [ht, hq, hm]
  split
  · next r hj =>
    rcases h with h | h
    · exact absurd hj (h r)
    · rw [if_pos h]
      rfl
  · rfl

theorem eqApply_landed {r : CopyRec} {s3 : State} (hj : t.job = .copy r) (hrel : t.rel = 0) (hsig : s2.signal k tm t (.landed q.data.length) = some s3) :
    s.eqApply k id = s3 := by
  subst hs1 hs2
  unfold State.eqApply
  simp only [ht, hq, hm, hj, hrel, ne_eq, not_true_eq_false, if_false]
  exact (congrArg (fun o : Option State => o.getD _) hsig).trans rfl

end Applied

/-! ## The weight store's write window (R115) -/

theorem window_opens (hw : (s.die s.ev.die).wsWindow = false) (hp : s.wsPending s.ev.die = true) (hr : s.wsReaders s.ev.die = false) (hc : s.wsChecked s.ev.die = false) :
    exec .weightWriteWindowOpen s = .next (s.modDie s.ev.die fun x => { x with
      wsWindow := true
      wsSource := x.ws }) := by
  change execWeightWriteWindowOpen s = _
  refine if_neg ?_
  simp [hw, hp, hr, hc]

theorem window_waits (h : s.wsReaders s.ev.die = true ∨ s.wsChecked s.ev.die = true) : exec .weightWriteWindowOpen s = .next s := by
  change execWeightWriteWindowOpen s = _
  exact if_pos (.inr (.inr h))

/-- The window closes under a new generation; the store is usable where its digest is that of what the copies read (R115; log 24). -/
theorem digest_checked (hw : (s.die s.ev.die).wsWindow = true) (hp : s.wsPending s.ev.die = false) {dig : BitVec 256} (hd : dig = Config.sm3Image Config.weightBytes (s.die s.ev.die).ws)
    {same : Bool} (hsame : decide (dig = Config.sm3Image Config.weightBytes (s.die s.ev.die).wsSource) = same) {s1 : State}
    (hs1 : s1 = s.setDie s.ev.die { s.die s.ev.die with
      wsWindow := false
      wsSource := []
      wsGen := (s.die s.ev.die).wsGen + 1
      wsDigest := dig
      wsUsable := same }) :
    exec .weightStoreDigestCheck s = .next (if same then s1 else s1.record 8 true (some s.ev.die) none none none 0) := by
  have hgo : ¬ (¬ (s.die s.ev.die).wsWindow = true ∨ s.wsPending s.ev.die = true) := by simp [hw, hp]
  subst hs1 hsame hd
  change execWeightStoreDigestCheck s = _
  unfold execWeightStoreDigestCheck
  exact if_neg hgo

/-- Settles O57: the laws above, step by step. -/
theorem engineSteps : Obligations.EngineSteps := by
  unfold Obligations.EngineSteps
  rintro s k id rfl rfl
  refine ⟨fun t tm ht hm => ⟨fun hmay hs => ?start, fun h => start_waits ht hm h, fun r s1 hj hmv hlen hrow hu => sector_lands ht hm hj hmv hlen hrow hu,
    fun r hj hmv hrow heq hr => ?copy, fun s1 t1 tm1 hj hmv hc hs1 s2 hs2 ht1 hm1 => compute_completes ht hm hj hmv hc hs1 hs2 ht1 hm1,
    fun q rest hq hsent hheld hk s1 hmem hsys hrest s2 hs2 => ?queue⟩, ?window, ?digest⟩
  case start =>
    have h := start_cases ht hm hmay hs
    exact ⟨fun hw => h.trans (if_pos hw), fun hw => h.trans (if_neg (ne_true_of_eq_false hw))⟩
  case copy =>
    have h := copy_completes ht hm hj hmv hrow heq hr
    exact ⟨fun hd => h.trans (congrArg _ (taskEnd_done hj hd)), fun s1 hrel hlen hsrow hsig => h.trans (congrArg _ (taskEnd_signals hj hrel hlen hsrow hsig))⟩
  case queue =>
    have h := queue_applies ht hq hsent hheld hk
    have hreach := reached_of_cases hmem hsys hrest
    exact ⟨fun hplain => h.trans (congrArg _ (eqApply_plain ht hm hq hreach hs2 hplain)),
      fun r s3 hj hrel hsig => h.trans (congrArg _ (eqApply_landed ht hm hq hreach hs2 hj hrel hsig))⟩
  case window =>
    rintro d rfl hw hp
    exact ⟨fun hr hc => window_opens hw hp hr hc, fun h => window_waits h⟩
  case digest =>
    rintro d dig rfl hw hp hd
    exact ⟨fun h => digest_checked hw hp hd (decide_eq_true h) rfl, fun h => digest_checked hw hp hd (decide_eq_false h) rfl⟩

end Sys2Proof.Proofs.EngineWork
end

section
/-!
The checker and the solver sequencer at work (R310, R315 to R321, R393 to R400, R448, R455): one law for each step.
-/
namespace Sys2Proof.Proofs.CheckerWork
open Sys2Proof.Machine

variable {s : State}

/-! ## Submission (R310, R321) -/

section Submission
variable {l : Launch} {p : Party} {s1 : State} (hl : s.launch s.ev.n = some l) (hf : l.phase = .flushing) (hfl : s.flushed s.ev.n = true)
  (hp : p = ({ die := 0, ctx := l.ctx, fw := false, uid := some s.ev.n } : Party)) (hs1 : s1 = s.closeOuts s.ev.n l)
include hl hf hfl

omit hl in
/-- A launch whose end flush is complete goes on to its submission. -/
theorem flush_over : ¬ (l.phase ≠ .flushing ∨ ¬ s.flushed s.ev.n = true) := by simp [hf, hfl]

include hs1

theorem submission_second (h2 : l.second = true) : exec .witnessSubmission s = .next (s1.modLaunch s.ev.n fun x => { x with phase := .checking }) := by
  subst hs1
  change execWitnessSubmission s = _
  unfold execWitnessSubmission
  simp only [hl, if_neg (flush_over hf hfl), h2, if_true]

include hp

theorem submission_unread (h2 : l.second = false) (hr : allSome (l.witnesses.map (s1.readDescriptors p)) = none) :
    exec .witnessSubmission s = .next (s1.endLaunch s.ev.n 6) := by
  subst hs1 hp
  change execWitnessSubmission s = _
  unfold execWitnessSubmission
  simp only [hl, if_neg (flush_over hf hfl), h2, Bool.false_eq_true, if_false, hr]

variable {ws : List Witness} (h2 : l.second = false) (hr : allSome (l.witnesses.map (s1.readDescriptors p)) = some ws)
include h2 hr

theorem submission_bad (hb : ((l.witnesses.zip ws).any fun q => decide (q.1.descs = []) && s1.witnessBad l p q.2) = true) :
    exec .witnessSubmission s = .next (s1.endLaunch s.ev.n 6) := by
  subst hs1 hp
  change execWitnessSubmission s = _
  unfold execWitnessSubmission
  simp only [hl, if_neg (flush_over hf hfl), h2, Bool.false_eq_true, if_false, hr, hb, if_true]

theorem submission_goes (hb : ((l.witnesses.zip ws).any fun q => decide (q.1.descs = []) && s1.witnessBad l p q.2) = false) (hne : ws ≠ []) :
    exec .witnessSubmission s = .next (s1.submit s.ev.n l ws) := by
  subst hs1 hp
  obtain ⟨w, rest, rfl⟩ := List.exists_cons_of_ne_nil hne
  change execWitnessSubmission s = _
  unfold execWitnessSubmission
  simp only [hl, if_neg (flush_over hf hfl), h2, Bool.false_eq_true, if_false, hr, hb]

/-- A launch without a witness gets DUAL (R310). -/
theorem submission_dual (hnil : ws = []) : exec .witnessSubmission s = .next (s1.submit s.ev.n l [{ kind := 5 }]) := by
  subst hs1 hp hnil
  change execWitnessSubmission s = _
  unfold execWitnessSubmission
  simp only [hl, if_neg (flush_over hf hfl), h2, Bool.false_eq_true, if_false, hr, List.zip_nil_right, List.any_nil]

end Submission

/-! ## Checks in their turn (R315, R321) -/

section Checks
variable {c : Check} (hn : s.nextCheckIs s.ev.n = some c)
include hn

/-- A check of its kind runs when its turn has come. -/
theorem checkOf_runs {kind : Nat} {f : Check → Party → List Opd → State} (hk : c.wit.kind = kind) : checkOf s kind f = .next (f c (s.checkParty c) (c.wit.descs.map opdOf)) := by
  unfold checkOf
  simp only [hn, if_neg (not_not_intro hk)]

theorem projCheck {a b x : Opd} {v : Verdict} {wrote : List (Nat × Nat × Nat)} (hk : c.wit.kind = 0) (ho : c.wit.descs.map opdOf = [a, b, x])
    (hw : wrote = ((s.launch c.uid).map (·.wrote)).getD []) (hv : v = projVerdict s (s.checkParty c) s.ev.n wrote a b x) :
    exec .projCheck s = .next (s.judge s.ev.n c (if v.pass then none else some { kind := 0, rows := v.rows, cores := v.cores })) := by
  have hwrote : (match s.launch c.uid with | some l => l.wrote | none => []) = wrote := by
    rw [hw]
    cases s.launch c.uid <;> rfl
  subst hv
  change execProjCheck s = _
  unfold execProjCheck
  rw [checkOf_runs hn hk, ho, ← hwrote] <;> rfl

theorem orderCheck {x y : Opd} (hk : c.wit.kind = 1) (ho : c.wit.descs.map opdOf = [x, y]) :
    exec .orderCheck s = .next (s.judge s.ev.n c (if orderGood s (s.checkParty c) s.ev.n x y then none else some { kind := 1 })) := by
  change execOrderCheck s = _
  unfold execOrderCheck
  rw [checkOf_runs hn hk, ho]

theorem residualCheck {a x b : Opd} (hk : c.wit.kind = 2) (ho : c.wit.descs.map opdOf = [a, x, b]) :
    exec .residualCheck s = .next (s.judge s.ev.n c (if residualGood s (s.checkParty c) a x b then none else some { kind := 2 })) := by
  change execResidualCheck s = _
  unfold execResidualCheck
  rw [checkOf_runs hn hk, ho]

theorem prefixCheck {x y : Opd} (hk : c.wit.kind = 3) (ho : c.wit.descs.map opdOf = [x, y]) : exec .prefixCheck s = .next ((s.modLaunch c.uid fun l => { l with
    prefixes := l.prefixes ++ [Config.sm3 (((y.row s (s.checkParty c)).getD []).flatMap fun v => natLe (tyBytes y.type) v)] }).judge s.ev.n c
      (if prefixGood s (s.checkParty c) x y then none else some { kind := 3 })) := by
  change execPrefixCheck s = _
  unfold execPrefixCheck
  rw [checkOf_runs hn hk, ho]

theorem stepCheck_passes (hk : c.wit.kind = 4) (hb : ((stepElems s c (c.wit.descs.map opdOf)).filter fun q => !q.2.good) = []) :
    exec .stepCheck s = .next (s.judge s.ev.n c none) := by
  change execStepCheck s = _
  unfold execStepCheck
  rw [checkOf_runs hn hk, hb]

theorem stepCheck_fails {q : Option Nat × StepElem} {rest : List (Option Nat × StepElem)} (hk : c.wit.kind = 4)
    (hb : ((stepElems s c (c.wit.descs.map opdOf)).filter fun q => !q.2.good) = q :: rest) :
    exec .stepCheck s = .next (s.judge s.ev.n c (some { kind := 4, seqDie := q.1 })) := by
  change execStepCheck s = _
  unfold execStepCheck
  rw [checkOf_runs hn hk, hb]

theorem combineCheck (hk : c.wit.kind = 7) :
    exec .combineWitnessCheck s = .next (s.judge s.ev.n c (if c.comb.all fun e => decide (e.out = e.value) then none else some { kind := 7, seqDie := c.seqDie })) := by
  change execCombineWitnessCheck s = _
  unfold execCombineWitnessCheck
  exact checkOf_runs hn hk

end Checks

/-! ## DUAL and SHADOW (R317) -/

section Dual
variable {l t : Launch} (hl : s.launch s.ev.n = some l) (ht : l.twin.bind s.launch = some t) (hp : l.phase = .checking)
include hl ht hp

theorem dual_broken (hb : t.broken = true) : exec .dualComparison s = .next (s.failRun s.ev.n { kind := 5 }) := by
  change execDualComparison s = _
  unfold execDualComparison
  simp only [hl, ht, hp, ne_eq, not_true_eq_false, if_false, hb, if_true]

theorem dual_compares (hb : t.broken = false) (htp : t.phase = .checking) : exec .dualComparison s =
    if s.runDigests l = s.runDigests t then .next (s.dropTwin s.ev.n).settleChecks else .next (s.failRun s.ev.n { kind := 5 }) := by
  change execDualComparison s = _
  unfold execDualComparison
  simp only [hl, ht, hp, ne_eq, not_true_eq_false, if_false, hb, htp, Bool.false_eq_true]

end Dual

theorem shadow_mismatch {w : Warp} {t : Team} {l : Launch} {img : Image} (hw : s.warp? s.ev.core s.ev.warp = some w)
    (ht : alook w.team (s.core s.ev.core).teams = some t) (hl : t.uid.bind s.launch = some l) (hi : s.imageOf l = some img) :
    exec .shadowMismatch s = if img.prot then .next (s.failRun (s.ownerOf l.root) { kind := 6, cores := [s.ev.core] }) else .next s := by
  change execShadowMismatch s = _
  unfold execShadowMismatch
  simp only [hw, Option.bind_some, ht, hl, hi]

/-! ## Re-runs (R318, R319, R448) -/

section Rerun
variable {l : Launch} {d : Nat} {counts : Bool} {charged : List Nat} (hl : s.launch s.ev.n = some l) (hp : l.phase = .waiting) (hf : l.failed = some (d, counts))
  (hc : charged = (l.charges.map fun c => dieOf c.1) ++ l.chargedDies ++ (if counts then [d] else []))
include hl hp hf hc

theorem rerun_away {o : Nat × Nat} (ho : s.placeAway l.ocr l.occ l.ch l.cw d charged = some o) : exec .rerunDispatch s = .next ((s.setLaunch s.ev.n { l with
    ocr := o.1
    occ := o.2
    fixed := []
    rot := 0
    failed := none }).dispatch s.ev.n) := by
  subst hc
  change execRerunDispatch s = _
  unfold execRerunDispatch
  simp only [hl, hp, hf, ho]

theorem rerun_rotated (ho : s.placeAway l.ocr l.occ l.ch l.cw d charged = none) :
    exec .rerunDispatch s = .next ((s.setLaunch s.ev.n { l with failed := none }).dispatch s.ev.n) := by
  subst hc
  change execRerunDispatch s = _
  unfold execRerunDispatch
  simp only [hl, hp, hf, ho]

end Rerun

/-! ## The sequencer (R393 to R398, R402) -/

theorem run_starts {w : SqWaiter} {rest : List SqWaiter} {e : Env} {len : Nat} {m : MemWait} {s1 : State} (hr : (s.die s.ev.die).run = none)
    (hw : (s.die s.ev.die).sqWait = w :: rest) (he : s.envOf w.core w.warp w.gang = some e) (hg : e.gang.wait = .sqstart len)
    (hm : m = ({ accs := [], len := len, frees := [], once := true, lanes := 0 } : MemWait))
    (hs : sqStart s e m ((lanesOf w.mask).headD 0) w.record w.dst w.mask w.stamp = .ok s1) : exec .solverRunStart s = .next s1 := by
  subst hm
  change execSolverRunStart s = _
  unfold execSolverRunStart
  simp only [hr, hw, he, hg, hs]

section Stages
variable {r : SqRun} (hr : (s.die s.ev.die).run = some r)
include hr

section Launching
variable (hc : r.children = [])
include hc

/-- An aborted run is abandoned (R395). -/
theorem launch_aborts {t : State} (ha : r.abort = true) (ht : s.abandon s.ev.die r 2 = some t) : exec .solverStageLaunch s = .next t := by
  change execSolverStageLaunch s = _
  unfold execSolverStageLaunch
  simp only [hr, hc, ne_eq, not_true_eq_false, if_false, ha, if_true, ht, Option.getD_some]

variable (ha : r.abort = false)
include ha

theorem launch_next {t : State} (hst : r.stage ≠ 0) (hs : (r.samples.any fun x => x.status = 0) = true) (ht : s.launchStage s.ev.die r (r.stage + 1) = some t) :
    exec .solverStageLaunch s = .next t := by
  change execSolverStageLaunch s = _
  unfold execSolverStageLaunch
  simp only [hr, hc, ne_eq, not_true_eq_false, if_false, ha, Bool.false_eq_true, hst, hs, false_and, ht, Option.getD_some]

variable {s1 : State} {r1 : SqRun} (hst : r.stage = 0) (hcl : s.clampRound s.ev.die r = some (s1, r1))
include hst hcl

theorem launch_over (hs : (r1.samples.any fun x => x.status = 0) = false) : exec .solverStageLaunch s = .next (s1.endRun s.ev.die r1 1) := by
  change execSolverStageLaunch s = _
  unfold execSolverStageLaunch
  simp only [hr, hc, ne_eq, not_true_eq_false, if_false, ha, Bool.false_eq_true, hst, if_true, hcl, hs, not_false_eq_true]

variable (hs : (r1.samples.any fun x => x.status = 0) = true) (hst1 : r1.stage = 0)
include hs hst1

theorem launch_first {t : State} (hcov : r1.covers 1 ≠ []) (ht : s1.launchStage s.ev.die r1 1 = some t) : exec .solverStageLaunch s = .next t := by
  change execSolverStageLaunch s = _
  unfold execSolverStageLaunch
  simp only [hr, hc, ne_eq, not_true_eq_false, if_false, ha, Bool.false_eq_true, hst, if_true, hcl, hs, hst1, hcov, and_false, Nat.zero_add, ht, Option.getD_some]

/-- A first stage that covers no sample is passed over (R394). -/
theorem launch_second {s2 t : State} (hcov : r1.covers 1 = []) (hcomb : s1.combine s.ev.die r1 2 = some s2) (ht : s2.launchStage s.ev.die r1 2 = some t) :
    exec .solverStageLaunch s = .next t := by
  change execSolverStageLaunch s = _
  unfold execSolverStageLaunch
  simp only [hr, hc, ne_eq, not_true_eq_false, if_false, ha, Bool.false_eq_true, hst, if_true, hcl, hs, hst1, hcov, and_self, hcomb, Option.bind_some, ht, Option.getD_some]

end Launching

section Ending
variable (hc : r.children ≠ [])
include hc

omit hc in
theorem stage_runs (ho : s.stageOver r = false) : exec .solverStageEnd s = .next s := by
  have hgo : r.children = [] ∨ ¬ s.stageOver r = true := .inr (ne_true_of_eq_false ho)
  change execSolverStageEnd s = _
  unfold execSolverStageEnd
  simp only [hr, if_pos hgo]

variable (ho : s.stageOver r = true)
include ho

omit hr in
theorem stage_over : ¬ (r.children = [] ∨ ¬ s.stageOver r = true) := by simp [hc, ho]

theorem stage_killed {t : State} (hk : r.killed = true) (ht : s.abandon s.ev.die r 3 = some t) : exec .solverStageEnd s = .next t := by
  change execSolverStageEnd s = _
  unfold execSolverStageEnd
  simp only [hr, if_neg (stage_over hc ho), hk, if_true, ht, Option.getD_some]

variable (hk : r.killed = false)
include hk

theorem stage_aborted {t : State} (ha : r.abort = true) (ht : s.abandon s.ev.die r 2 = some t) : exec .solverStageEnd s = .next t := by
  change execSolverStageEnd s = _
  unfold execSolverStageEnd
  simp only [hr, if_neg (stage_over hc ho), hk, Bool.false_eq_true, if_false, ha, if_true, ht, Option.getD_some]

variable (ha : r.abort = false)
include ha

theorem round_decided {t : State} (hm : r.method.stages ≤ r.stage) (ht : s.decideRound s.ev.die r = some t) : exec .solverStageEnd s = .next t := by
  change execSolverStageEnd s = _
  unfold execSolverStageEnd
  simp only [hr, if_neg (stage_over hc ho), hk, Bool.false_eq_true, if_false, ha, if_pos hm, ht, Option.getD_some]

theorem stage_combined {t : State} {r1 : SqRun} (hm : r.stage < r.method.stages) (hr1 : r1 = { r with children := [] })
    (ht : (s.setRun s.ev.die r1).combine s.ev.die r1 (r.stage + 1) = some t) : exec .solverStageEnd s = .next t := by
  subst hr1
  change execSolverStageEnd s = _
  unfold execSolverStageEnd
  simp only [hr, if_neg (stage_over hc ho), if_neg (ne_true_of_eq_false hk), if_neg (ne_true_of_eq_false ha), if_neg (Nat.not_le.mpr hm)]
  exact congrArg (fun o : Option State => Host.Outcome.next (o.getD s)) ht

end Ending
end Stages

/-- Settles O58: the laws above, step by step. -/
theorem checkerAndSequencerSteps : Obligations.CheckerAndSequencerSteps := by
  unfold Obligations.CheckerAndSequencerSteps
  intro s
  refine ⟨fun l p s1 hl hf hfl hp hs1 => ⟨fun h2 => submission_second hl hf hfl hs1 h2, fun h2 hr => submission_unread hl hf hfl hp hs1 h2 hr,
      fun ws h2 hr => ⟨fun hb => submission_bad hl hf hfl hp hs1 h2 hr hb, fun hb hne => submission_goes hl hf hfl hp hs1 h2 hr hb hne,
        fun hnil => submission_dual hl hf hfl hp hs1 h2 hr hnil⟩⟩,
    ?checks, fun l t hl ht hp => ⟨fun hb => dual_broken hl ht hp hb, fun hb htp => ?dual⟩, fun w t l img hw ht hl hi => ?shadow,
    fun l d counts charged hl hp hf hc => ⟨fun o ho => rerun_away hl hp hf hc ho, fun ho => rerun_rotated hl hp hf hc ho⟩,
    fun w rest e len m s1 hr hw he hg hm hs => run_starts hr hw he hg hm hs, ?stages⟩
  case checks =>
    rintro n c p rfl hn rfl
    refine ⟨fun a b x v wrote hk ho hw hv => ?proj, fun x y hk ho => orderCheck hn hk ho, fun a x b hk ho => residualCheck hn hk ho, fun x y hk ho => prefixCheck hn hk ho,
      fun bad hk hb => ⟨fun hnil => stepCheck_passes hn hk (hb ▸ hnil), fun q rest hcons => stepCheck_fails hn hk (hb ▸ hcons)⟩, fun hk => combineCheck hn hk⟩
    case proj =>
      have h := projCheck hn hk ho hw hv
      refine ⟨fun hpass => h.trans ?_, fun hpass => h.trans ?_⟩
      · rw [if_pos hpass]
        rfl
      · rw [if_neg (ne_true_of_eq_false hpass)]
        rfl
  case dual =>
    have h := dual_compares hl ht hp hb htp
    exact ⟨fun heq => h.trans (if_pos heq), fun hne => h.trans (if_neg hne)⟩
  case shadow =>
    have h := shadow_mismatch hw ht hl hi
    exact ⟨fun hp => h.trans (if_pos hp), fun hp => h.trans (if_neg (ne_true_of_eq_false hp))⟩
  case stages =>
    rintro di r rfl hr
    refine ⟨fun hc ha hst hs t ht => launch_next hr hc ha hst hs ht, fun s1 r1 hc ha hst hcl => ⟨fun hs => launch_over hr hc ha hst hcl hs,
        fun hs hst1 hcov t ht => launch_first hr hc ha hst hcl hs hst1 hcov ht, fun hs hst1 hcov s2 t hcomb ht => launch_second hr hc ha hst hcl hs hst1 hcov hcomb ht⟩,
      fun hc ha t ht => launch_aborts hr hc ha ht, fun hc ho => ⟨fun hk t ht => stage_killed hr hc ho hk ht, fun hk ha t ht => stage_aborted hr hc ho hk ha ht,
        fun hk ha hm t ht => round_decided hr hc ho hk ha hm ht, fun r1 hk ha hm hr1 t ht => stage_combined hr hc ho hk ha hm hr1 ht⟩,
      fun hc ho => stage_runs hr ho⟩

end Sys2Proof.Proofs.CheckerWork
end

section
/-!
Power, reset, errors, heat, scans, peers, attestation and management (R13, R16, R17, R116, R209, R412, R413, R432, R433, R437 to R442): one law for each step.
-/
namespace Sys2Proof.Proofs.Platform
open Sys2Proof.Machine

variable {s : State}

/-! ## Power and the firmware image (R433, R434) -/

theorem loadImage_good {bs : List Byte} (h : imageGood bs = true) :
    s.loadImage bs = (List.range 4).foldl (fun s d => s.startFirmware d) { s.writeImage bs with recovery := false } := if_pos h

theorem loadImage_bad {bs : List Byte} (h : imageGood bs = false) : s.loadImage bs = { s with recovery := true } := if_neg (ne_true_of_eq_false h)

/-- Power-on clears the weight stores and loads the image (R116, R433). -/
theorem power_on {s1 : State} (hp : s.powered = false) (hs1 : s1 = ({ s with
      powered := true
      dies := s.dies.map fun (d : Die) => { d with
        ws := []
        wsGen := 0
        wsDigest := Config.sm3Image Config.weightBytes []
        wsUsable := true } } : State)) : exec .packagePowerOn s = .next (s1.loadImage s.flash) := by
  subst hs1
  change execPackagePowerOn s = _
  exact if_neg (ne_true_of_eq_false hp)

/-- A firmware watchdog verifies the image again (R433). -/
theorem watchdog (hp : s.powered = true) (hr : s.recovery = false) : exec .firmwareWatchdogReset s =
    if imageGood s.flash then .next ((s.writeImage s.flash).startFirmware s.ev.die)
    else .next (({ s with recovery := true } : State).setCore (s.ev.die * 256 + 128) .firmware) := by
  change execFirmwareWatchdogReset s = _
  refine if_neg ?_
  simp [hp, hr]

theorem mailbox {bs : List Byte} (hr : s.recovery = true) (hbs : bs = memRead s.sysMem (s.ev.v.toNat % 2 ^ 47) (min s.ev.n (Config.fwRegion + 1))) :
    exec .recoveryMailboxWrite s = if imageGood bs then .next (({ s with flash := bs } : State).loadImage bs) else .next s := by
  subst hbs
  change execRecoveryMailboxWrite s = _
  exact if_neg (not_not_intro hr)

/-! ## Errors and heat (R209, R412, R413, R438) -/

theorem error_detected {err : ErrorReport} (hc : err.cls < 24) (hd : err.die < 4) : exec (.errorDetected err) s =
    .next ((if err.cls = 1 then s.modDie err.die fun d => { d with mirFixed := min (d.mirFixed + 1) 0xFFFF } else s).raiseError err) := by
  change execErrorDetected err s = _
  refine if_neg ?_
  omega

theorem heat_eq (c : Core) (thot : Nat) :
    c.heat thot = { c with thr := if thot ≤ c.temp then true else if c.temp + 32 ≤ thot then false else c.thr } := by
  unfold Core.heat
  by_cases hot : thot ≤ c.temp
  · simp only [hot, if_true]
  · simp only [hot, if_false]
    by_cases cool : c.temp + 32 ≤ thot <;> simp only [cool, if_true, if_false]

/-- The core of a reading holds it, and THR follows it. -/
def sampled (s : State) : State := s.modCore s.ev.core fun (c : Core) => { c with
  temp := s.ev.n % 4096
  thr := if (s.die (dieOf s.ev.core)).thot ≤ s.ev.n % 4096 then true else if s.ev.n % 4096 + 32 ≤ (s.die (dieOf s.ev.core)).thot then false else c.thr }

theorem temperature : exec .temperatureSample s = if Config.tripTemp < s.ev.n % 4096 ∧ (s.core s.ev.core).temp ≤ Config.tripTemp then
    .next ((sampled s).dieError 20 (dieOf s.ev.core) (localOf s.ev.core)) else .next (sampled s) := by
  change execTemperatureSample s = _
  unfold execTemperatureSample sampled
  simp only [heat_eq]

/-! ## Scans and retirement (R17, R439, R440) -/

theorem scan_starts (hf : isFw s.ev.core = false) (hm : (s.core s.ev.core).marked = true) (hs : (s.core s.ev.core).scan = none) (ht : (s.core s.ev.core).teams = []) :
    exec .doldrumsScanStart s = .next (s.modCore s.ev.core fun (c : Core) => { c with scan := some (s.cycleOf s.ev.core) }) := by
  change execDoldrumsScanStart s = _
  refine if_neg ?_
  simp [hf, hm, hs, ht]

theorem scan_aborts (hs : (s.core s.ev.core).scan ≠ none) (hw : s.wanted (clusterOf s.ev.core) = true) :
    exec .scanAbort s = .next (s.modCore s.ev.core fun (c : Core) => { c with scan := none }) := by
  change execScanAbort s = _
  exact if_pos ⟨hs, hw⟩

section ScanEnd
variable {t : Nat} {s1 : State} (hs : (s.core s.ev.core).scan = some t)
  (hs1 : s1 = (s.modDie (dieOf s.ev.core) fun x => { x with cycle := max x.cycle (t + 220000 - (s.core s.ev.core).cycOff) }))
include hs hs1

theorem scan_passes (hn : s.ev.n = 1) : exec .scanComplete s = .next (s1.modCore s.ev.core fun (c : Core) => { c with
    scan := none
    charges := []
    marked := false }) := by
  subst hs1
  change execScanComplete s = _
  unfold execScanComplete
  simp only [hs, hn, if_true]

theorem scan_fails (hn : s.ev.n ≠ 1) {i : Nat} (hi : i = clusterIdx (clusterOf s.ev.core).1 (clusterOf s.ev.core).2) : exec .scanComplete s =
    .next (((s1.logError (sevReset.getD 22 2) 22 true (some (dieOf s.ev.core)) (some (localOf s.ev.core)) none none 0).modCore s.ev.core fun (c : Core) => { c with
      scan := none }).modDie (dieOf s.ev.core) fun x => { x with retiring := if x.retiring.contains i then x.retiring else x.retiring ++ [i] }) := by
  subst hs1 hi
  change execScanComplete s = _
  unfold execScanComplete
  simp only [hs, if_neg hn]

end ScanEnd

/-- A retired cluster that nothing uses is served by a spare (R17; log 43). -/
theorem cluster_replaced {x : Die} {i j sp : Nat} {ks : List Nat} {s1 : State} (hx : x = s.die s.ev.die) (hi : i = s.ev.die / 2 * 4 + s.ev.n / 8)
    (hj : j = s.ev.die % 2 * 8 + s.ev.n % 8) (hks : ks = (List.range 4).map (clusterCore i j)) (hn : s.ev.n < 32) (hr : x.retiring.contains s.ev.n = true)
    (hidle : ∀ c ∈ ks, (s.core c).teams = [] ∧ s.expects c = false) (hsp : sp ∈ x.spares)
    (hpick : x.spares.getD ((Config.freeWord s.freeCtr).toNat % x.spares.length) 0 = sp) (hs1 : s1 = s.setDie s.ev.die { x with
      clmap := x.clmap.set s.ev.n (true, sp)
      spares := x.spares.erase sp
      retiring := x.retiring.filter (· ≠ s.ev.n) }) : exec .clusterMapUpdate s = .next ((ks.foldl (fun s c => s.modCore c fun (c : Core) => { c with
      charges := []
      marked := false
      scan := none }) s1).drawn 1) := by
  have hany : ¬ (ks.any fun k => (s.core k).teams ≠ [] ∨ s.expects k = true) = true := by
    rw [List.any_eq_true]
    rintro ⟨k, hk, h⟩
    obtain ⟨h1, h2⟩ := hidle k hk
    simp [h1, h2] at h
  have hgo : ¬ (32 ≤ s.ev.n ∨ ¬ x.retiring.contains s.ev.n = true ∨ (ks.any fun k => (s.core k).teams ≠ [] ∨ s.expects k = true) = true) := by
    rintro (h | h | h)
    · omega
    · exact h hr
    · exact hany h
  have hentry : (match x.spares with | [] => (false, 0) | _ => (true, sp)) = (true, sp) := by
    split
    · next h => simp [h] at hsp
    · rfl
  subst hs1 hks hi hj
  rw [← hentry, ← hpick]
  subst hx
  change execClusterMapUpdate s = _
  exact if_neg hgo

/-! ## Peers and attestation (R432, R437) -/

theorem peer_writes {acc : PeerAccess} {bs : List Byte} (hd : acc.data = some bs) : exec (.kaushInboundAccess acc) s =
    if s.peerRefused acc.offset bs.length then .next (s.logError (sevReset.getD 23 2) 23 true none none none none 0)
    else .next (s.memApply (s.pwBase * 65536 + acc.offset) bs) := by
  change execKaushInboundAccess acc s = _
  unfold execKaushInboundAccess
  simp only [hd]

theorem peer_reads {acc : PeerAccess} (hd : acc.data = none) : exec (.kaushInboundAccess acc) s =
    if s.peerRefused acc.offset acc.len then .next (s.logError (sevReset.getD 23 2) 23 true none none none none 0)
    else .next { s with peerOut := s.peerOut ++ [memRead s.hbm (s.pwBase * 65536 + acc.offset) acc.len] } := by
  change execKaushInboundAccess acc s = _
  unfold execKaushInboundAccess
  simp only [hd]

theorem report_written {req : AttRequest} {r : Option Result} {body : List Byte} (hreq : alook s.ev.n s.attReqs = some req)
    (hr : r = (s.results.filter fun x => x.tag = req.tag).getLast?) (hk : req.kind = 2 → r ≠ none) (hb : body = s.reportBody req (if req.kind = 2 then r else none)) :
    exec .attestationReportWrite s = .next { s with
      sysMem := memWrite s.sysMem (req.addr.toNat % 2 ^ 47) (body ++ natLe 64 (Config.sm2Sign (Config.sm3 body)).toNat)
      attReqs := adel s.ev.n s.attReqs } := by
  have hgo : ¬ (req.kind = 2 ∧ r = none) := fun ⟨h1, h2⟩ => hk h1 h2
  subst hb hr
  change execAttestationReportWrite s = _
  unfold execAttestationReportWrite
  simp only [hreq, if_neg hgo]

/-! ## Management (R441, R442) -/

theorem dielim_writes {d : Nat} (hd : d < 4) (w : Nat) : exec (.dielim d (some w)) s = .next (s.modDie d fun x => { x with plim := min w Config.plimMax }) := by
  have hmin : min d 3 = d := by omega
  change execDielim d (some w) s = _
  unfold execDielim
  simp only [hmin]

theorem dielim_reads {d : Nat} (hd : d < 4) : exec (.dielim d none) s = .next { s with smbus := s.smbus ++ [(s.die d).plim] } := by
  have hmin : min d 3 = d := by omega
  change execDielim d none s = _
  unfold execDielim State.answer
  simp only [hmin]

/-- Answers one after another stand in their order. -/
theorem foldl_answer (f : Nat → Nat) (l : List Nat) (s : State) : (l.foldl (fun s d => s.answer (f d)) s).smbus = s.smbus ++ l.map f := by
  induction l generalizing s with
  | nil => exact (List.append_nil _).symm
  | cons d l ih =>
    rw [List.foldl_cons, ih]
    simp [State.answer]

theorem temps_answers : ∃ t x, exec .temps s = .next t ∧
    t.smbus = s.smbus ++ ((List.range 4).map fun d => ((s.cores.filter fun c => dieOf c.1 = d).map fun c => c.2.temp).foldl max 0) ++ [x] :=
  ⟨_, (Config.freeWord s.freeCtr).toNat % 4096, rfl, congrArg (· ++ [_]) (foldl_answer _ _ _)⟩

theorem fread_lost (hn : s.ev.n = 2 ^ 64 - 1) : exec .fread s = .next { s with smbus := s.smbus ++ [s.faultLost] } := by
  change execFread s = _
  exact if_pos hn

/-- The number of an entry that is held answers it. -/
theorem fread_entry (hn : s.ev.n ≠ 2 ^ 64 - 1) {f : FaultEnt} (hf : f ∈ s.faultRec) (hfind : s.faultRec.find? (fun f => f.seq = s.ev.n) = some f)
    (hhead : ∀ a, s.faultRec.head? = some a → a.seq ≤ s.ev.n) (hlast : ∀ b, s.faultRec.getLast? = some b → s.ev.n ≤ b.seq) :
    exec .fread s = .next { s with smbus := s.smbus ++ [f.bits] } := by
  obtain ⟨a, rest, hrec⟩ := List.exists_cons_of_ne_nil (List.ne_nil_of_mem hf)
  obtain ⟨b, hb⟩ : ∃ b, s.faultRec.getLast? = some b := ⟨_, List.getLast?_eq_some_getLast (List.ne_nil_of_mem hf)⟩
  have hclamp : max a.seq (min s.ev.n b.seq) = s.ev.n := by
    have h1 := hhead a (by rw [hrec]; rfl)
    have h2 := hlast b hb
    omega
  rw [hrec] at hfind hb
  change execFread s = .next (s.answer f.bits)
  unfold execFread
  rw [if_neg hn]
  simp only [hrec, hb, hclamp, hfind]

/-- Settles O60: the laws above, step by step. -/
theorem platformSteps : Obligations.PlatformSteps := by
  unfold Obligations.PlatformSteps
  rintro s die k n rfl rfl rfl
  refine ⟨fun s1 hp hs1 => ?power, fun hp hr => ?watchdog, fun bs hr hbs => ?mailbox, rfl, fun err hc hd => ?error, ?cool, ?hot, ?scan,
    fun x i j ks sp s1 hx hi hj hks hn hr hidle hsp _ hpick hs1 => cluster_replaced hx hi hj hks hn hr hidle hsp hpick hs1, ?peer, fun req hk => if_pos hk,
    fun req r body hreq hr hk hb => report_written hreq hr hk hb, fun w => rfl, rfl, fun d hd => ⟨fun w => dielim_writes hd w, dielim_reads hd⟩, temps_answers,
    fun hn => fread_lost hn, fun hn f hf hfind hhead hlast => fread_entry hn hf hfind hhead hlast, rfl⟩
  case power =>
    have h := power_on hp hs1
    refine ⟨fun hg => h.trans (congrArg _ (loadImage_good hg)), fun hg => h.trans (congrArg _ (loadImage_bad hg))⟩
  case watchdog =>
    have h := watchdog hp hr
    exact ⟨fun hg => h.trans (if_pos hg), fun hg => h.trans (if_neg (ne_true_of_eq_false hg))⟩
  case mailbox =>
    have h := mailbox hr hbs
    exact ⟨fun hg => h.trans (if_pos hg), fun hg => h.trans (if_neg (ne_true_of_eq_false hg))⟩
  case error =>
    have h := error_detected (s := s) hc hd
    refine ⟨fun h1 => h.trans ?_, fun h1 => h.trans ?_⟩
    · rw [if_neg h1]
    · rw [if_pos h1]
  case cool =>
    rintro c t rfl rfl ht
    exact temperature.trans (if_neg (by omega))
  case hot =>
    rintro c t rfl rfl ht hc
    exact temperature.trans (if_pos ⟨ht, hc⟩)
  case scan =>
    rintro c rfl
    exact ⟨fun hf hm hs ht => scan_starts hf hm hs ht, fun hs hw => scan_aborts hs hw, fun t s1 hs hs1 => ⟨fun hn => scan_passes hs hs1 hn,
      fun hn i hi => scan_fails hs hs1 hn hi⟩⟩
  case peer =>
    rintro acc a rfl
    refine ⟨fun bs hd => ?_, fun hd => ?_⟩
    · have h := peer_writes (s := s) hd
      exact ⟨fun hr => h.trans (if_neg (ne_true_of_eq_false hr)), fun hr => h.trans (if_pos hr)⟩
    · have h := peer_reads (s := s) hd
      exact ⟨fun hr => h.trans (if_neg (ne_true_of_eq_false hr)), fun hr => h.trans (if_pos hr)⟩

end Sys2Proof.Proofs.Platform
end

section
/-!
What the operations of the state leave of memory's canonical form (R102; log 3): the rule of each operation, from the state's own updates to the
teams, launches, traps and admissions that the instructions and events share. The name of a rule is that of its operation.
-/
namespace Sys2Proof.Machine

variable {s t : State}

/-! ## Updates that leave memory alone -/

/-- A state with the memories of a canonical one is canonical. -/
theorem MemoryCanonical.same (h : MemoryCanonical s) (hm : (t.hbm, t.sysMem) = (s.hbm, s.sysMem)) : MemoryCanonical t := by
  obtain ⟨h1, h2⟩ := Prod.mk.inj hm
  unfold MemoryCanonical
  rw [h1, h2]
  exact h

theorem MemoryCanonical.foldl {α : Type} {l : List α} {f : State → α → State} (h : MemoryCanonical s)
    (hf : ∀ s a, MemoryCanonical s → MemoryCanonical (f s a)) : MemoryCanonical (l.foldl f s) := by
  induction l generalizing s with
  | nil => exact h
  | cons a l ih => exact ih (hf s a h)

/-- The rule of a fold that carries more than the state. -/
theorem MemoryCanonical.foldl_with {α β : Type} {l : List α} {f : β → α → β} {m : β → State} {b : β} (h : MemoryCanonical (m b))
    (hf : ∀ b a, MemoryCanonical (m b) → MemoryCanonical (m (f b a))) : MemoryCanonical (m (l.foldl f b)) := by
  induction l generalizing b with
  | nil => exact h
  | cons a l ih => exact ih (hf b a h)

theorem MemoryCanonical.ite {c : Prop} [Decidable c] (hs : MemoryCanonical s) (ht : MemoryCanonical t) : MemoryCanonical (if c then s else t) := by
  split <;> assumption

section Updates
variable (h : MemoryCanonical s) {k d u n slot g : Nat}
include h

theorem MemoryCanonical.setCore {c : Core} : MemoryCanonical (s.setCore k c) := h.same rfl
theorem MemoryCanonical.modCore {f : Core → Core} : MemoryCanonical (s.modCore k f) := h.same rfl
theorem MemoryCanonical.setDie {x : Die} : MemoryCanonical (s.setDie d x) := h.same rfl
theorem MemoryCanonical.modDie {f : Die → Die} : MemoryCanonical (s.modDie d f) := h.same rfl
theorem MemoryCanonical.setLaunch {l : Launch} : MemoryCanonical (s.setLaunch u l) := h.same rfl
theorem MemoryCanonical.modWarp {f : Warp → Warp} : MemoryCanonical (s.modWarp k slot f) := h.same rfl
theorem MemoryCanonical.modGang {f : Gang → Gang} : MemoryCanonical (s.modGang k slot g f) := h.same rfl
theorem MemoryCanonical.modTeam {f : Team → Team} : MemoryCanonical (s.modTeam k slot f) := h.same rfl

theorem MemoryCanonical.modLaunch {f : Launch → Launch} : MemoryCanonical (s.modLaunch u f) := by
  unfold State.modLaunch
  split
  · exact h.setLaunch
  · exact h

theorem MemoryCanonical.record {cls : Nat} {ck : Bool} {die core ctx detail : Option Nat} {tag : DWord} : MemoryCanonical (s.record cls ck die core ctx detail tag) := by
  unfold State.record
  split <;> exact h.same rfl

theorem MemoryCanonical.logError {sev cls : Nat} {ck : Bool} {die core ctx detail : Option Nat} {tag : DWord} :
    MemoryCanonical (s.logError sev cls ck die core ctx detail tag) := by
  unfold State.logError
  extract_lets s1 set
  have h1 : MemoryCanonical s1 := h.record
  split
  · exact h
  split
  · exact h1
  split
  · exact h1.modDie
  · exact h1.same rfl

theorem MemoryCanonical.modVersion {ctx region num : Nat} {f : Version → Version} : MemoryCanonical (s.modVersion ctx region num f) := h.same rfl
theorem MemoryCanonical.returnFrames : MemoryCanonical s.returnFrames := h.same rfl
theorem MemoryCanonical.resetObj {p : Nat × Nat} : MemoryCanonical (s.resetObj p) := h.modCore

/-- A write to device memory (R102). -/
theorem MemoryCanonical.memApply {pa : Nat} {bs : List Byte} : MemoryCanonical (s.memApply pa bs) := h.homeWrite (.mem pa) bs

/-! ## The fabric -/

theorem MemoryCanonical.request {x : Exchange} {copy : Nat} : MemoryCanonical (s.request n x copy) := h.same rfl
theorem MemoryCanonical.respond {x : Exchange} {bs : List Byte} : MemoryCanonical (s.respond n x bs) := h.same rfl
theorem MemoryCanonical.acknowledge {x : Exchange} : MemoryCanonical (s.acknowledge n x) := h.same rfl

theorem MemoryCanonical.openXch {uid ctx pa : Nat} {c : Cargo} (ht : s.openXch k uid ctx pa c = some t) : MemoryCanonical t := by
  obtain ⟨tag, -, rfl⟩ := Option.map_eq_some_iff.mp ht
  exact h.same rfl

theorem MemoryCanonical.sweepLost : MemoryCanonical s.sweepLost := h.same rfl
theorem MemoryCanonical.loseXch {p : Exchange → Bool} : MemoryCanonical (s.loseXch p) := h.same rfl

theorem MemoryCanonical.closeFilter : MemoryCanonical (s.closeFilter n) := by
  unfold State.closeFilter
  split
  · exact h
  split
  · exact h
  split
  · exact h.same rfl
  · exact h

/-! ## Launches and teams -/

theorem MemoryCanonical.raiseCounter : MemoryCanonical (s.raiseCounter u n) := h.modLaunch
theorem MemoryCanonical.lowerCounter : MemoryCanonical (s.lowerCounter u n) := h.modLaunch

theorem MemoryCanonical.removeTeam {i : Nat} : MemoryCanonical (s.removeTeam k i) := by
  unfold State.removeTeam
  dsimp only
  split
  · exact h
  · exact h.setCore.modDie

theorem MemoryCanonical.dropTokens {i : Nat} : MemoryCanonical (s.dropTokens k i) := by
  unfold State.dropTokens
  split
  · exact h
  · exact h.foldl fun _ _ h => h.resetObj

theorem MemoryCanonical.stopWork {us : List Nat} : MemoryCanonical (s.stopWork us) := by
  unfold State.stopWork
  extract_lets s1
  have h1 : MemoryCanonical s1 := h.foldl fun _ _ h => h.dropTokens.removeTeam
  exact h1.same rfl

theorem MemoryCanonical.dropTree : MemoryCanonical (s.dropTree u) := by
  unfold State.dropTree
  extract_lets us s1 s2
  have h1 : MemoryCanonical s1 := h.stopWork
  have h2 : MemoryCanonical s2 := h1.same rfl
  exact h2.modLaunch

theorem MemoryCanonical.discardOuts : MemoryCanonical (s.discardOuts u).1 := by
  unfold State.discardOuts
  split
  · exact h
  · exact h.foldl fun _ _ h => h.modVersion

theorem MemoryCanonical.dropTwin : MemoryCanonical (s.dropTwin u) := by
  unfold State.dropTwin
  split
  · exact h
  split
  · exact h
  · next i _ =>
    extract_lets used s1 s2
    have h1 : MemoryCanonical s1 := h.dropTree
    have h2 : MemoryCanonical s2 := h1.same rfl
    exact h2.modLaunch

omit h in
theorem MemoryCanonical.squash {fuel producer : Nat} {vs : List (Nat × Nat × Nat)} (h : MemoryCanonical s) : MemoryCanonical (squash fuel producer vs s) := by
  induction fuel generalizing vs s with
  | zero => exact h
  | succ fuel ih =>
    unfold Machine.squash
    split
    · exact h
    · exact ih (h.dropTwin.dropTree.discardOuts.modLaunch)

theorem MemoryCanonical.discardWith : MemoryCanonical (s.discardWith u) := h.discardOuts.squash.returnFrames

theorem MemoryCanonical.endLaunch {status : Nat} : MemoryCanonical (s.endLaunch u status) := by
  unfold State.endLaunch
  split
  · exact h
  · have h1 : MemoryCanonical (((s.dropTwin u).dropTree u).discardWith u) := h.dropTwin.dropTree.discardWith
    exact (h1.modLaunch.returnFrames).ite h1.modLaunch.returnFrames

theorem MemoryCanonical.killTeam {i : Nat} {counts : Bool} : MemoryCanonical (s.killTeam k i counts) := by
  unfold State.killTeam
  split
  · exact h
  extract_lets live unsent s1 s2
  have h1 : MemoryCanonical s1 := h.dropTokens.removeTeam
  have h2 : MemoryCanonical s2 := h1.same rfl
  split
  · exact h2
  split
  · exact h2
  extract_lets s3
  have h3 : MemoryCanonical s3 := h2.lowerCounter
  split
  · extract_lets s4 us s5 s6
    have h4 : MemoryCanonical s4 := h3.modDie
    have h5 : MemoryCanonical s5 := h4.stopWork
    have h6 : MemoryCanonical s6 := h5.same rfl
    split
    · exact h6.lowerCounter
    · exact h6
  · refine MemoryCanonical.ite (MemoryCanonical.modLaunch ?_) h3.endLaunch
    exact h3.same rfl

theorem MemoryCanonical.killContext {ctx : Nat} : MemoryCanonical (s.killContext ctx) := by
  unfold State.killContext
  extract_lets us s1 s2
  have h1 : MemoryCanonical s1 := h.foldl fun _ _ h => h.endLaunch
  have h2 : MemoryCanonical s2 := h1.same rfl
  exact h2.loseXch

theorem MemoryCanonical.resetDie {runs : Bool} : MemoryCanonical (s.resetDie d runs) := by
  unfold State.resetDie
  extract_lets hit s1 old src fresh s2 keep
  have h1 : MemoryCanonical s1 := h.foldl fun _ _ h => h.dropTree.discardWith.modLaunch
  have h2 : MemoryCanonical s2 := h1.setDie
  exact h2.same rfl

theorem MemoryCanonical.escalate {sev cls die ctx : Nat} : MemoryCanonical (s.escalate sev cls die k slot ctx) := by
  unfold State.escalate
  extract_lets s1
  have h1 : MemoryCanonical s1 := by
    refine h.ite ?_
    split
    · exact h.killTeam
    · exact h.killContext
    · exact h
  exact h1.ite h1.resetDie

theorem MemoryCanonical.raiseError {e : ErrorReport} : MemoryCanonical (s.raiseError e) := h.logError.escalate
theorem MemoryCanonical.dieError {cls die core : Nat} : MemoryCanonical (s.dieError cls die core) := h.logError.escalate
theorem MemoryCanonical.violation {die : Nat} : MemoryCanonical (s.violation die) := h.dieError
theorem MemoryCanonical.teamError {cls i : Nat} : MemoryCanonical (s.teamError cls k i) := h.raiseError

/-! ## Faults, the way's time and retirement -/

theorem MemoryCanonical.addWalk {die ctx va : Nat} : MemoryCanonical (s.addWalk die ctx va) := h.modDie
theorem MemoryCanonical.placeFault {die : Nat} {x : Susp} : MemoryCanonical (s.placeFault die x).1 := h.memApply.setDie
theorem MemoryCanonical.setWay {cycle free : Nat} : MemoryCanonical (s.setWay k slot cycle free) := h.same rfl
theorem MemoryCanonical.charge {a f : Nat} : MemoryCanonical (s.charge k slot a f) := MemoryCanonical.ite h.setWay h.setWay

theorem MemoryCanonical.partGang : MemoryCanonical (s.partGang k slot g) := by
  unfold State.partGang
  dsimp only
  split
  · exact h
  split
  · exact h.setCore
  · exact h.same rfl

theorem MemoryCanonical.settleTeam {i : Nat} : MemoryCanonical (s.settleTeam k i) := by
  unfold State.settleTeam
  extract_lets c ws dropped tag sev
  split
  · exact h
  extract_lets s1 s2 s3 s4
  have h1 : MemoryCanonical s1 := h.ite (h.foldl fun _ _ h => h.logError)
  have h2 : MemoryCanonical s2 := h1.ite h1.modCore
  have h3 : MemoryCanonical s3 := by
    unfold s3
    split
    · exact h2.modLaunch
    · exact h2
  have h4 : MemoryCanonical s4 := h3.dropTokens.removeTeam
  split
  · exact h
  split
  · exact h2.resetDie
  split
  · exact h2
  split
  · exact h4.lowerCounter
  · exact h4

theorem MemoryCanonical.endThreads {ls : List Nat} : MemoryCanonical (s.endThreads k slot ls) := by
  unfold State.endThreads
  split
  · exact h
  extract_lets w1 w2 s1
  have h1 : MemoryCanonical s1 := h.modWarp
  split
  · split
    · exact h1.lowerCounter
    · exact h1
  · exact h1

theorem MemoryCanonical.settleGang {next : DWord} : MemoryCanonical (s.settleGang k slot g next) := by
  unfold State.settleGang
  split
  · exact h
  · exact h.modWarp.partGang.settleTeam

theorem MemoryCanonical.retire {pc : DWord} {len : Nat} : MemoryCanonical (s.retire k slot g pc len) := h.modWarp.settleGang
theorem MemoryCanonical.done {e : Env} {len : Nat} : MemoryCanonical (e.done len s) := h.retire
theorem MemoryCanonical.stall {e : Env} {x : Wait} : MemoryCanonical (e.stall x s) := h.modGang

theorem MemoryCanonical.takeTrap {tr : Trap} {len : Nat} : MemoryCanonical (s.takeTrap k slot g tr len) := by
  unfold State.takeTrap
  split
  · exact h
  extract_lets d
  split
  · exact h.teamError.ite h.modWarp
  · exact MemoryCanonical.ite h.modWarp.teamError (MemoryCanonical.ite h.modWarp.teamError h.modWarp)

/-! ## Admission, bins and formed warps -/

theorem MemoryCanonical.enterTeam {tm : Team} {ws : List WarpStart} : MemoryCanonical (s.enterTeam k slot tm ws) := by
  unfold State.enterTeam
  extract_lets c slots warps inside s1 s2 s3 s4
  have h1 : MemoryCanonical s1 := h.setCore
  have h2 : MemoryCanonical s2 := h1.same rfl
  have h3 : MemoryCanonical s3 := by
    unfold s3
    split
    · exact h2.raiseCounter
    · exact h2
  have h4 : MemoryCanonical s4 := h3.foldl fun _ _ h => h.ite h.setCore
  exact h4.settleTeam

theorem MemoryCanonical.settleBins : MemoryCanonical (s.settleBins k) := by
  unfold State.settleBins
  extract_lets c s1 left done
  have h1 : MemoryCanonical s1 := h.setCore
  refine h1.foldl fun s q h => ?_
  split
  · exact h.done
  · exact h

theorem MemoryCanonical.arriveAll {ts : List Spawned} {timer : Nat} {msg : Bool} : MemoryCanonical (s.arriveAll k ts timer msg) := h.setCore

theorem MemoryCanonical.spawnSeg {l : Launch} : MemoryCanonical (s.spawnSeg l).2 := by
  unfold State.spawnSeg
  split
  · exact h
  · exact h.same rfl

theorem MemoryCanonical.admitThreads {ts : List Spawned} {reruns : Nat} (ht : s.admitThreads k ts reruns = some t) : MemoryCanonical t := by
  unfold State.admitThreads at ht
  split at ht
  · cases ht
    exact h
  split at ht
  · cases ht
    exact h
  split at ht
  · cases ht
    exact h
  · obtain ⟨p, -, rfl⟩ := Option.map_eq_some_iff.mp ht
    exact h.spawnSeg.enterTeam

end Updates

end Sys2Proof.Machine
end

section
/-!
What instructions leave of memory's canonical form: how an instruction's course makes its step, the events of bounds threads, the
register-computing instructions and the control instructions.
-/
namespace Sys2Proof.Machine

variable {s t : State}

/-! ## The course of an instruction -/

/-- The step is answered, by a state that is canonical where the one before was. -/
def Answered (s : State) (o : Host.Outcome State Fault Refusal) : Prop := ∃ t, o = .next t ∧ (MemoryCanonical s → MemoryCanonical t)

/-- A course that is canonical where it does not trap. -/
def CanonicalResult : Except Trap State → Prop
  | .ok s => MemoryCanonical s
  | .error _ => True

theorem Answered.next (h : MemoryCanonical s → MemoryCanonical t) : Answered s (.next t) := ⟨t, rfl, h⟩

theorem Answered.ite {c : Prop} [Decidable c] {o o' : Host.Outcome State Fault Refusal} (h : Answered s o) (h' : Answered s o') :
    Answered s (if c then o else o') := by
  split <;> assumption

theorem CanonicalResult.error {tr : Trap} : CanonicalResult (.error tr) := trivial
theorem CanonicalResult.ok (h : MemoryCanonical s) : CanonicalResult (.ok s) := h

theorem CanonicalResult.of_ok {r : Except Trap State} (h : CanonicalResult r) (hr : r = .ok t) : MemoryCanonical t := by
  rw [hr] at h
  exact h

section
variable {e : Env} {len : Nat} (he : s.env? = some e)
include he

theorem answered_instr {f : Env → Except Trap State} (h : MemoryCanonical s → CanonicalResult (f e)) : Answered s (instr s len f) := by
  unfold instr
  rw [he]
  change Answered s (match f e with
    | .ok s' => .next s'
    | .error t => .next (s.takeTrap e.k e.slot e.gid t len))
  generalize f e = r at h
  cases r with
  | ok s1 => exact .next h
  | error t => exact .next fun hs => hs.takeTrap

theorem answered_instr2 {f : Env → State × Option Trap} (h : MemoryCanonical s → MemoryCanonical (f e).1) : Answered s (instr2 s len f) := by
  unfold instr2
  rw [he]
  dsimp only
  split
  · exact .next h
  · exact .next fun hs => (h hs).takeTrap

end

/-! ## Events of bounds threads -/

section
variable (h : MemoryCanonical s) {e : Env} {len : Nat}
include h

theorem MemoryCanonical.takeEvent {k slot : Nat} {handoff : Bool} {payload : Option Word} {clock : Clock} {lane : Nat} :
    MemoryCanonical (s.takeEvent k slot handoff payload clock lane) := by
  unfold State.takeEvent
  split
  · exact h
  split
  · exact h
  split
  · exact h
  · exact h.setLaunch.modCore

theorem MemoryCanonical.takeEvents {handoff : Bool} {payload : Option Word} {ls : List Nat} : MemoryCanonical (s.takeEvents e handoff payload ls) := by
  unfold State.takeEvents
  split
  · exact h
  · have h1 := (h.foldl (l := ls) (f := fun s i => s.takeEvent e.k e.slot handoff payload (if e.det then e.gang.publish.1 else e.gang.clock) i)
      fun s i h => h.takeEvent).endThreads (k := e.k) (slot := e.slot) (ls := ls)
    exact h1.modGang.ite h1

theorem MemoryCanonical.afterEvents {g : Guard} {p : Nat → Bool} : MemoryCanonical (s.afterEvents e g p).1 := h.takeEvents

theorem MemoryCanonical.orTrap {r : Except Trap State} (hr : CanonicalResult r) : MemoryCanonical (Machine.orTrap s r).1 := by
  cases r with
  | ok s1 => exact hr
  | error t => exact h

theorem MemoryCanonical.freed {x : Op} {r : Row} : MemoryCanonical (e.freed x r s) := h.modWarp
theorem MemoryCanonical.drawn {n : Nat} : MemoryCanonical (s.drawn n) := h.same rfl
theorem MemoryCanonical.setPred {p : Nat} {v : Bool} : MemoryCanonical (e.setPred s p v) := h.modWarp
theorem MemoryCanonical.goto {w : Warp} : MemoryCanonical (e.goto s len w) := h.modWarp.settleGang

end

section
variable {e : Env} {len : Nat} (he : s.env? = some e)
include he

theorem answered_issued {g : Guard} {cost : Env → Nat} {factor : Nat} {ev : State → Env → Nat → Bool}
    {f : Env → List Nat → State → Env → State × Option Trap} (hf : ∀ e0 evs s e, MemoryCanonical s → MemoryCanonical (f e0 evs s e).1) :
    Answered s (issued s len g cost factor ev f) :=
  answered_instr2 he fun h => hf _ _ _ _ h.charge.afterEvents

theorem answered_issue {g : Guard} {cost : Env → Nat} {factor : Nat} {ev : State → Env → Nat → Bool} {f : List Nat → State → Env → Except Trap State}
    (hf : ∀ evs s e, MemoryCanonical s → CanonicalResult (f evs s e)) : Answered s (issue s len g cost factor ev f) :=
  answered_issued he fun _ _ _ _ h => h.orTrap (hf _ _ _ h)

theorem answered_control {g : Guard} {ev : Env → Nat → Bool} {f : State → Env → Except Trap State}
    (hf : ∀ s e, MemoryCanonical s → CanonicalResult (f s e)) : Answered s (control s len g ev f) :=
  answered_issue he fun _ => hf

end

/-! ## Register-computing instructions -/

theorem MemoryCanonical.aluRest (hs : MemoryCanonical s) {e0 e : Env} {opc : Nat} {x : Op} {h : How} {f : State → Env → Nat → Bool → Srcs → Out} :
    MemoryCanonical (aluRest e0 opc x h f s e).1 := by
  unfold Machine.aluRest
  extract_lets r act finish
  have hfin (w : Warp) : MemoryCanonical (finish w) := hs.modWarp.done
  split
  · exact hfin _
  split
  · exact hs
  extract_lets outs noted
  split
  · exact hfin _
  · exact hs.modWarp

section
variable {e : Env} (he : s.env? = some e)
include he

theorem answered_alu {opc : Nat} {x : Op} {h : How} {f : State → Env → Nat → Bool → Srcs → Out} : Answered s (alu s opc x h f) :=
  answered_issued he fun _ _ _ _ h => h.aluRest

theorem answered_intAlu {opc : Nat} {op : IOp} {n : Nat} {cnt : Bool} {x : Op} : Answered s (intAlu s opc op n cnt x) := answered_alu he
theorem answered_floatAlu {opc : Nat} {op : FOp} {n : Nat} {x : Op} : Answered s (floatAlu s opc op n x) := answered_alu he

theorem answered_pget {x : X96} : Answered s (execPget x s) :=
  answered_issue he fun _ _ _ h => by
    split
    · exact .error
    · exact .ok h.modWarp.done

theorem answered_swr {x : X96} : Answered s (execSwr x s) :=
  answered_issue he fun _ s e h => by
    extract_lets r s1
    have h1 : MemoryCanonical s1 := h.modWarp.done
    split
    · exact .ok h.freed.done
    split
    · exact .error
    split
    · exact .error
    · exact .ok (h1.same rfl)

theorem answered_region {x : Long} : Answered s (execRegion x s) :=
  answered_issue he fun _ _ _ h => .ok (h.modWarp.ite h).done

/-! ## Control instructions -/

theorem answered_branch {x : Op} {w : Nat} : Answered s (branch s x w) :=
  answered_control he fun _ _ h => by
    extract_lets dst fall ds
    split
    · exact .ok h.goto
    split
    · exact .error
    · exact .ok h.goto

theorem answered_branchTo {opc : Nat} {call : Bool} {x : Op} : Answered s (branchTo s opc call x) :=
  answered_control he fun _ _ h => by
    extract_lets len fall pass ds
    split
    · exact .error
    split
    · exact .error
    split
    · exact .error
    · exact .ok h.goto

theorem answered_callRel {x : Op} {w : Nat} : Answered s (callRel s x w) :=
  answered_control he fun _ _ h => by
    split
    · exact .error
    · exact .ok h.goto

theorem answered_ret {x : C32R} : Answered s (execRet x s) :=
  answered_control he fun _ _ h => by
    extract_lets isCall
    split
    · exact .ok h.goto
    · exact .error

theorem answered_join {x : C32R} : Answered s (execJoin x s) :=
  answered_control he fun _ _ h => by
    extract_lets isCall next
    split
    · exact .error
    · exact .ok h.goto

theorem answered_yield {x : C32R} : Answered s (execYield x s) :=
  answered_control he fun _ _ h => .ok h.modCore.goto

end

theorem canonicalResult_regangAt (h : MemoryCanonical s) {e : Env} {len mask : Nat} : CanonicalResult (regangAt s e len mask) := by
  unfold regangAt
  split
  · exact .error
  split
  · exact .ok h.done
  · exact .ok h.stall

section
variable {e : Env} (he : s.env? = some e)
include he

theorem answered_regangC32 {x : C32I} : Answered s (execRegangC32 x s) := answered_control he fun _ _ h => canonicalResult_regangAt h

theorem answered_regang {x : X96} : Answered s (execRegang x s) :=
  answered_control he fun _ _ h => by
    split
    · exact .error
    · exact canonicalResult_regangAt h.drawn

theorem answered_regroup {x : Op} : Answered s (regroup s x) :=
  answered_control he fun _ _ h => by
    split
    · exact .error
    extract_lets partner s1
    have h1 : MemoryCanonical s1 := h.drawn
    split
    · exact .ok h1.stall
    split
    · exact .error
    split
    · exact .ok h1.setPred.done
    · exact .ok h1.stall

theorem answered_exit {x : C32R} : Answered s (execExit x s) := answered_control he fun _ _ h => .ok h.endThreads.done
theorem answered_nop {x : C32R} : Answered s (execNop x s) := answered_control he fun _ _ h => .ok h.done
theorem answered_quarter {x : C32R} : Answered s (execQuarter x s) := answered_control he fun _ _ h => .ok h.done

theorem answered_bkpt {x : C32R} : Answered s (execBkpt x s) :=
  answered_control he fun _ _ h => by
    extract_lets act
    split
    · exact .error
    · exact .ok h.done

theorem answered_sleep {x : X96} : Answered s (execSleep x s) :=
  answered_control he fun _ _ h => by
    split
    · exact .error
    · exact .ok (h.drawn.done.ite h.drawn.done.stall)

theorem answered_handoffWith {len : Nat} {g : Guard} {payload : State → Env → Except Trap (Option Word)} : Answered s (handoffWith s len g payload) :=
  answered_instr2 he fun h => by
    extract_lets s1 e1 evs
    have h1 : MemoryCanonical s1 := h.charge
    split
    · exact h1
    split
    · exact h1.stall
    · dsimp only
      exact h1.takeEvents.done

end

end Sys2Proof.Machine
end

section
/-!
What the accesses of instructions leave of memory's canonical form: loads and stores, barrier objects, and the course of a memory instruction.
-/
namespace Sys2Proof.Machine

variable {s t : State}

/-! ## Loads, stores and their tracks -/

section
variable (h : MemoryCanonical s) {k slot : Nat} {e : Env}
include h

theorem MemoryCanonical.fetchSector {sector : Nat} : MemoryCanonical (s.fetchSector k sector) := h.modCore

theorem MemoryCanonical.bindLoad {p : Place} {n d : Nat} {r : List Byte × Nat × State} (hr : s.bindLoad k slot p n d = some r) :
    MemoryCanonical r.2.2 := by
  unfold State.bindLoad at hr
  split at hr
  · cases hr
  dsimp only at hr
  split at hr
  · cases hr
  split at hr
  · cases hr
    dsimp only
    refine MemoryCanonical.ite ?_ h
    split
    · exact h.ite h.fetchSector
    · exact h.fetchSector
  · cases hr
    exact h
  · cases hr
    exact h

theorem MemoryCanonical.acquire {scope : Nat} : MemoryCanonical (s.acquire k slot scope) := h.modWarp.ite h
theorem MemoryCanonical.pushSq {x : WEnt} : MemoryCanonical (s.pushSq k slot x) := h.modCore

theorem MemoryCanonical.track {p : Place} {kind op : Nat} : MemoryCanonical (s.track e p kind op) := by
  unfold State.track
  split
  · exact h
  · exact h.same rfl

/-! ## Barrier objects -/

theorem MemoryCanonical.tellAll {p : Nat × Nat} {o : BObj} : MemoryCanonical (s.tellAll p o) := h.same rfl

theorem MemoryCanonical.updateObj {p : Nat × Nat} {u : BUpd} {c : Clock} : MemoryCanonical (s.updateObj p u c) := by
  unfold State.updateObj
  split
  · exact h
  · exact h.modCore.tellAll

theorem MemoryCanonical.tagObj {p : Nat × Nat} {n : Nat} : MemoryCanonical (s.tagObj p n) := h.modCore.tellAll
theorem MemoryCanonical.untagObj {p : Nat × Nat} : MemoryCanonical (s.untagObj p) := h.modCore

theorem MemoryCanonical.publish : MemoryCanonical (e.publish s).2 := by
  unfold Env.publish
  split
  · exact h.modGang
  · exact h

theorem MemoryCanonical.objDo {op : ObjOp} {c : Clock} {q : Nat × Nat × Nat} : MemoryCanonical (objDo e op c s q) := by
  unfold Machine.objDo
  split
  · exact h
  extract_lets away
  have haway (kind : WKind) : MemoryCanonical (away kind) := h.pushSq
  split
  · exact h.tagObj
  · exact h.untagObj
  · exact h.updateObj.ite (haway _)
  · exact h.updateObj.ite (haway _)

theorem MemoryCanonical.bowaitJoined {x : Op} : MemoryCanonical (bowaitJoined s e x) := h.drawn.modGang.ite h.drawn

/-! ## Performing accesses -/

theorem MemoryCanonical.trackAcc {a : Acc} {x : Hit} : MemoryCanonical (s.trackAcc e a x) := by
  unfold State.trackAcc
  split
  · exact h.track
  · exact h

theorem MemoryCanonical.addRed {a : Acc} {x : Hit} {n : Nat} (ht : s.addRed e a x n = some t) : MemoryCanonical t := by
  unfold State.addRed at ht
  split at ht
  · obtain ⟨tm, -, rfl⟩ := Option.map_eq_some_iff.mp ht
    exact h.modTeam
  · cases ht

theorem MemoryCanonical.loadAt {a : Acc} {x : Hit} {d : Nat} {uni : Bool} (ht : s.loadAt e a x d uni = some t) : MemoryCanonical t := by
  unfold State.loadAt at ht
  split at ht
  · cases ht
  split at ht
  · cases ht
  next bs st s1 hb =>
    have h1 : MemoryCanonical s1 := h.bindLoad hb
    cases ht
    exact h1.modWarp.acquire

theorem MemoryCanonical.atomWrite {p : Place} {bs : List Byte} : MemoryCanonical (s.atomWrite k p bs) := by
  have h1 : MemoryCanonical (s.homeWrite p bs) := h.homeWrite p bs
  unfold State.atomWrite
  dsimp only
  split
  · exact h1.modCore
  · exact h1

theorem MemoryCanonical.atomHome {p : Place} {a : Acc} : MemoryCanonical (s.atomHome k p a).1 := by
  unfold State.atomHome
  dsimp only
  split
  · exact h
  · exact h.atomWrite

theorem MemoryCanonical.atomTake {a : Acc} {old : Nat} : MemoryCanonical (s.atomTake e a old) := h.modWarp.acquire

theorem MemoryCanonical.atomAt {w : Warp} {a : Acc} {x : Hit} (ht : s.atomAt e w a x = some t) : MemoryCanonical t := by
  unfold State.atomAt at ht
  split at ht
  · cases ht
  · cases ht
    exact h.atomHome.atomTake

theorem MemoryCanonical.performAcc {a : Acc} {x : Hit} (ht : s.performAcc e a x = some t) : MemoryCanonical t := by
  unfold State.performAcc at ht
  split at ht
  · cases ht
  split at ht
  · cases ht
    exact h
  · cases ht
    exact h.pushSq
  · split at ht
    · exact h.addRed ht
    · cases ht
      exact h.pushSq
  · exact h.loadAt ht
  · exact h.atomAt ht
  · exact h.atomAt ht

/-! ## The course of a memory instruction -/

theorem MemoryCanonical.finishMem {m : MemWait} : MemoryCanonical (s.finishMem e m) := by
  unfold State.finishMem
  split
  · split
    · exact h.modGang
    extract_lets s1 s2
    have h1 : MemoryCanonical s1 := h.modWarp
    have h2 : MemoryCanonical s2 := by
      unfold s2
      split
      · exact h1.modWarp
      · exact h1
    exact h2.done
  · split
    · exact h.modGang
    · exact h.takeTrap

omit h in
theorem MemoryCanonical.tryAccs {p : Party} {go : Nat} {accs : List Acc} (h : MemoryCanonical s) : MemoryCanonical (State.tryAccs e p go accs s).1 := by
  induction accs generalizing s go with
  | nil =>
    unfold State.tryAccs
    exact h
  | cons a rest ih =>
    unfold State.tryAccs
    split
    · split
      next hp => exact ih (h.performAcc hp)
      · exact ih h
    · exact ih h
    · exact ih h.addWalk
    · exact ih h

theorem MemoryCanonical.trackAll {p : Party} {accs : List Acc} : MemoryCanonical (s.trackAll e p accs) :=
  h.foldl fun _ _ h => by
    split
    · exact h.trackAcc
    · exact h

theorem MemoryCanonical.walked {p : Party} {accs : List Acc} : MemoryCanonical (s.walked p accs) :=
  h.foldl fun _ _ h => by
    split
    · exact h
    · exact h.addWalk
    · exact h

theorem MemoryCanonical.keepKeys {accs : List Acc} : MemoryCanonical (s.keepKeys e accs) := h.foldl fun _ _ h => h.modTeam
theorem MemoryCanonical.performed {accs : List Acc} : MemoryCanonical (performed s e accs).1 := h.keepKeys.trackAll.tryAccs

theorem canonicalResult_startMem {m : MemWait} : CanonicalResult (s.startMem e m) := by
  unfold State.startMem
  extract_lets p began r m1
  have hr : MemoryCanonical r.1 := h.performed
  split
  · exact .ok h.keepKeys.walked.stall
  split
  · exact .error
  split
  · exact .ok hr.finishMem
  · exact .ok hr.stall

theorem MemoryCanonical.startMem {m : MemWait} (ht : s.startMem e m = .ok t) : MemoryCanonical t := (canonicalResult_startMem h).of_ok ht

theorem MemoryCanonical.memCourse {opc : Nat} {x : Op} {pre : Env → List Nat} {count : Env → Option (Nat × Nat)} {req : State → Env → Nat → MemReq}
    {evs : List Nat} : MemoryCanonical (memCourse opc x pre count req evs s e).1 := by
  unfold Machine.memCourse
  extract_lets r base reqs n
  split
  · exact h.finishMem
  split
  · exact h
  split
  · exact h
  split
  · split
    next hm => exact h.startMem hm
    · exact h
  extract_lets w1 w2
  split
  · exact h.modWarp
  split
  next hm => exact h.modWarp.startMem hm
  · exact h

theorem MemoryCanonical.memOnceCourse {opc : Nat} {x : Op} {req : State → Env → Nat → MemReq} {evs : List Nat} :
    MemoryCanonical (memOnceCourse opc x req evs s e).1 := by
  unfold Machine.memOnceCourse
  extract_lets r act base lane q
  split
  · exact h.finishMem
  split
  · exact h
  split
  · exact h
  split
  · split
    · exact h.modWarp
    · exact h.modWarp.modWarp.finishMem
  split
  next hm => exact h.startMem hm
  · exact h

end

section
variable {e : Env} (he : s.env? = some e)
include he

theorem answered_objInstr {opc : Nat} {op : ObjOp} {x : Op} : Answered s (objInstr s opc op x) :=
  answered_issue he fun _ _ _ h => by
    extract_lets r act who fin todo c bad
    have hfin {s : State} (h : MemoryCanonical s) : MemoryCanonical (fin s) := h.freed.done
    clear_value who bad
    split
    · exact .ok (hfin h)
    split
    · exact .error
    split
    · exact .error
    split
    · exact .ok h.stall
    · exact .ok (hfin (h.publish.foldl fun _ _ h => h.objDo).drawn)

theorem answered_bowait {x : Op} : Answered s (bowait s x) :=
  answered_issue he fun _ _ _ h => by
    extract_lets len r
    split
    · exact .ok h.freed.done
    split
    · exact .error
    split
    · exact .error
    split
    · exact .ok h.drawn.modWarp.acquire.freed.done
    split
    · exact .ok h.bowaitJoined.acquire.freed.done
    · exact .ok h.bowaitJoined.stall

theorem answered_memInstr {opc : Nat} {x : Op} {store : Bool} {ev : Env → Nat → Bool} {pre : Env → List Nat} {count : Env → Option (Nat × Nat)}
    {req : State → Env → Nat → MemReq} : Answered s (memInstr s opc x store ev pre count req) :=
  answered_issued he fun _ _ _ _ h => h.memCourse

theorem answered_memOnce {opc : Nat} {x : Op} {store : Bool} {req : State → Env → Nat → MemReq} : Answered s (memOnce s opc x store req) :=
  answered_issued he fun _ _ _ _ h => h.memOnceCourse

end

theorem answered_bowaitSatisfied : Answered s (execBowaitSatisfied s) := by
  unfold execBowaitSatisfied
  extract_lets a
  split
  · exact .next id
  split
  · exact .next fun h => h.modWarp.acquire.done
  · exact .next id

end Sys2Proof.Machine
end

section
/-!
What the memory instructions that read before they perform leave of memory's canonical form, and those that end without an access.
-/
namespace Sys2Proof.Machine

variable {s t : State}

section
variable (h : MemoryCanonical s) {e : Env} {x : Op}
include h

/-! ## Reads that come first -/

theorem MemoryCanonical.preRead {va n stamp st : Nat} {bs : List Byte} (ht : s.preRead e va n stamp = .got bs st t) : MemoryCanonical t := by
  unfold State.preRead at ht
  split at ht
  · split at ht
    · cases ht
    dsimp only at ht
    split at ht
    next hb =>
      cases ht
      exact (h.track.ite h).bindLoad hb
    · cases ht
  · cases ht

omit h in
theorem MemoryCanonical.preReads {stamp st st' : Nat} {l : List (Nat × Nat)} {acc bss : List (List Byte)} {bs : List Byte} (h : MemoryCanonical s)
    (ht : State.preReads e stamp l s acc st = (.got bs st' t, bss)) : MemoryCanonical t := by
  induction l generalizing s acc st with
  | nil =>
    unfold State.preReads at ht
    cases ht
    exact h
  | cons p rest ih =>
    unfold State.preReads at ht
    split at ht
    next hp => exact ih (h.preRead hp) ht
    next hno =>
      obtain ⟨ho, -⟩ := Prod.mk.inj ht
      exact absurd ho (hno _ _ _)

omit h in
theorem MemoryCanonical.readDescs {l : List (Nat × Addr)} {got need : List (Nat × Nat)} (h : MemoryCanonical s) :
    MemoryCanonical (State.readDescs e l s got need).1 := by
  induction l generalizing s got need with
  | nil =>
    unfold State.readDescs
    exact h
  | cons p rest ih =>
    unfold State.readDescs
    split
    next hp => exact ih (h.preRead hp)
    · exact ih h
    · exact h

omit h in
theorem MemoryCanonical.readRanges {ty : Nat} {d : Nat → Nat} {l : List (Nat × List (Nat × Nat))} {got : List (Nat × SV)} {need : List (Nat × Nat)}
    (h : MemoryCanonical s) : MemoryCanonical (State.readRanges e ty d l s got need).1 := by
  induction l generalizing s got need with
  | nil =>
    unfold State.readRanges
    exact h
  | cons p rest ih =>
    unfold State.readRanges
    split
    next hp => exact ih (h.preReads hp)
    · exact ih h
    · exact h

theorem MemoryCanonical.awaitPages {m : MemWait} {needs : List (Nat × Nat)} : MemoryCanonical (e.awaitPages s m needs) :=
  (h.foldl fun _ _ h => h.addWalk).stall

theorem MemoryCanonical.summHead {slot at' hd d : Nat} (ht : s.summHead e slot = .got at' hd d t) : MemoryCanonical t := by
  unfold State.summHead at ht
  split at ht
  · cases ht
  dsimp only at ht
  split at ht
  · cases ht
  split at ht
  next hp =>
    split at ht
    · cases ht
    split at ht
    next hq =>
      cases ht
      exact (h.preRead hp).preRead hq
    · cases ht
  · cases ht

/-! ## STF, LDSM and PROBE -/

theorem MemoryCanonical.stfRest {ds : List (Nat × BufDesc)} : MemoryCanonical (stfRest s e x ds).1 := by
  unfold Machine.stfRest
  split
  · exact h
  · exact h.takeEvents

theorem MemoryCanonical.occupy {k slot a f : Nat} : MemoryCanonical (s.occupy k slot a f) := by
  unfold State.occupy
  exact h.setWay

theorem MemoryCanonical.stfStore {got : List (Nat × Nat)} : MemoryCanonical (stfStore s e x got).1 := by
  unfold Machine.stfStore
  extract_lets wide r s1 e1 accs bad s2
  have h1 : MemoryCanonical s1 := h.stfRest
  have h2 : MemoryCanonical s2 := h1.occupy
  split
  · exact h
  split
  · exact h1
  split
  next hm => exact h2.startMem hm
  · exact h2

theorem MemoryCanonical.stfCourse : MemoryCanonical (stfCourse x s e).1 := by
  unfold Machine.stfCourse
  split
  · exact h.finishMem
  split
  · exact h
  split
  · exact h
  split
  · exact h
  have h1 := h.readDescs (e := e) (l := stfAddrs s e x) (got := []) (need := [])
  split
  · exact h.stall
  next hr =>
    rw [hr] at h1
    split
    · exact h1.awaitPages
    · exact h1.stfStore

theorem MemoryCanonical.ldsmLoad {d : Nat} {uses : List (Nat × SummUse)} : MemoryCanonical (ldsmLoad s e x d uses).1 := by
  unfold Machine.ldsmLoad
  extract_lets p base bads accs spans rs w1
  have h1 := h.readRanges (e := e) (ty := x.type) (d := ldsmStamp s e x d) (l := spans) (got := []) (need := [])
  split
  · exact h
  split
  · exact h
  split
  · exact h.stall
  next hr =>
    rw [hr] at h1
    split
    · exact h1.awaitPages
    extract_lets w2
    split
    · exact h1.modWarp
    split
    next hm => exact h1.modWarp.startMem hm
    · exact h1

theorem MemoryCanonical.ldsmCourse : MemoryCanonical (ldsmCourse x s e).1 := by
  unfold Machine.ldsmCourse
  split
  · exact h.finishMem
  split
  · exact h
  split
  · exact h
  · exact h.awaitPages
  · exact h
  · exact h.stall
  · exact h.ldsmLoad
  next hg => exact (h.summHead hg).ldsmLoad

theorem MemoryCanonical.probeState {w : Warp} : MemoryCanonical (probeState s e x w) := (h.foldl fun _ _ h => h.track).modWarp

theorem MemoryCanonical.probeCourse : MemoryCanonical (probeCourse x s e).1 := by
  unfold Machine.probeCourse
  extract_lets base tops w1 w2
  split
  · exact h.finishMem
  split
  · exact h
  split
  · exact h
  split
  · exact h.modWarp
  split
  next hm => exact h.probeState.startMem hm
  · exact h

/-! ## PREF and CCTL -/

theorem MemoryCanonical.prefFetch : MemoryCanonical (prefFetch s e x) := by
  unfold Machine.prefFetch
  refine h.ite (h.foldl fun _ _ h => ?_)
  dsimp only
  split
  · exact h.fetchSector
  · exact h

theorem MemoryCanonical.cctlDrop : MemoryCanonical (cctlDrop s e x) := by
  unfold Machine.cctlDrop
  refine h.modCore.ite ?_
  dsimp only
  split
  · exact h.modCore
  · exact h

end

section
variable {e : Env} (he : s.env? = some e) {x : X96}
include he

theorem answered_loadScr {x : Op} : Answered s (loadScr s x) := by
  unfold loadScr
  exact answered_memInstr he

theorem answered_storeScr {x : Op} : Answered s (storeScr s x) := by
  unfold storeScr
  exact answered_memInstr he

theorem answered_stf : Answered s (execStf x s) := answered_issued he fun _ _ _ _ h => h.stfCourse
theorem answered_ldsm : Answered s (execLdsm x s) := answered_issued he fun _ _ _ _ h => h.ldsmCourse
theorem answered_probe : Answered s (execProbe x s) := answered_issued he fun _ _ _ _ h => h.probeCourse
theorem answered_pref : Answered s (execPref x s) := answered_issue he fun _ _ _ h => .ok h.prefFetch.finishMem

theorem answered_fence {len scope : Nat} {g : Guard} : Answered s (fence s len scope g) :=
  answered_control he fun _ _ h => by
    extract_lets mark
    split
    · exact .ok h.acquire.done
    split
    · exact .ok h.acquire.done
    · exact .ok h.stall

theorem answered_cctl {x : Op} : Answered s (cctl s x) :=
  answered_issue he fun _ _ _ h => by
    extract_lets r fin
    have hfin {s : State} (h : MemoryCanonical s) : MemoryCanonical (fin s) := h.finishMem
    split
    · exact .ok (hfin h)
    split
    · exact .error
    · exact .ok (hfin h.cctlDrop)

end

end Sys2Proof.Machine
end

section
/-!
What the steps of the queues, accesses, walks and faults and the named barriers leave of memory's canonical form.
-/
namespace Sys2Proof.Machine

variable {s t : State}

section
variable (h : MemoryCanonical s) {k slot g : Nat} {e : Env}
include h

/-! ## The queues -/

theorem MemoryCanonical.applyRed {p : Place} {op ty mode : Nat} {bs : List Byte} : MemoryCanonical (s.applyRed p op ty mode bs) := h.homeWrite p _

theorem MemoryCanonical.gateWrite {uid a : Nat} {bs : List Byte} : MemoryCanonical (s.gateWrite k uid a bs) := by
  unfold State.gateWrite
  refine MemoryCanonical.ite (MemoryCanonical.ite (h.homeWrite (.sys a) bs) (h.same rfl)) ?_
  split
  · exact h
  · exact h.modLaunch

theorem MemoryCanonical.applyEnt {x : WEnt} : MemoryCanonical (s.applyEnt k x) := by
  unfold State.applyEnt
  split
  · exact h.gateWrite
  · exact h.homeWrite _ _
  · exact h.applyRed.modCore
  · exact h.applyRed
  · exact h.updateObj
  · exact h.updateObj
  · exact h.same rfl
  · exact h

theorem MemoryCanonical.wakeFences : MemoryCanonical (s.wakeFences k) := by
  unfold State.wakeFences
  extract_lets c ready s1 senders
  have h1 : MemoryCanonical s1 := h.foldl fun _ _ h => by
    split
    · exact h.acquire.done
    · exact h
  exact h1.foldl fun _ _ h => by
    split
    · exact h.modWarp.done
    · exact h

theorem MemoryCanonical.left : MemoryCanonical (s.left k) := h.wakeFences

theorem MemoryCanonical.drain : MemoryCanonical (s.drain k slot) := by
  unfold State.drain
  split
  · exact h
  split
  · exact h
  split
  · exact h
  extract_lets s1 out s2
  have h1 : MemoryCanonical s1 := h.modWarp
  have hout (f : Core → Core) : MemoryCanonical (out f) := h1.modCore
  have h2 : MemoryCanonical s2 := by
    unfold s2
    split
    · exact (h1.homeWrite _ _).ite (hout _)
    · exact h1.applyRed.ite (hout _)
    · exact hout _
    · exact hout _
    · exact hout _
  exact h2.wakeFences.settleTeam

/-! ## Accesses on their own -/

theorem MemoryCanonical.accDone {m : MemWait} {a : Acc} : MemoryCanonical (s.accDone e m a) := by
  unfold State.accDone
  dsimp only
  split
  · exact h.finishMem
  · exact h.modGang

theorem MemoryCanonical.takeAcc {lane : Nat} {want : AccKind → Bool} : MemoryCanonical (s.takeAcc k slot g lane want) := by
  unfold State.takeAcc
  split
  · exact h
  split
  · dsimp only
    split
    · split
      next hm => exact h.startMem hm
      · exact h.takeTrap
    split
    · exact h.walked
    split
    · exact h.walked
    split
    · exact h
    next hp => exact (h.performAcc hp).accDone
  · exact h

theorem MemoryCanonical.openXch_getD {uid ctx pa : Nat} {c : Cargo} {f : State → State} (hf : ∀ s, MemoryCanonical s → MemoryCanonical (f s)) :
    MemoryCanonical (((s.openXch k uid ctx pa c).map f).getD s) := by
  cases hx : s.openXch k uid ctx pa c with
  | none => exact h
  | some s1 => exact hf s1 (h.openXch hx)

theorem MemoryCanonical.sendAtom {lane : Nat} : MemoryCanonical (s.sendAtom k slot g lane) := by
  unfold State.sendAtom
  split
  · exact h
  split
  · split
    · exact h
    split
    · exact h
    split
    · split
      · exact h
      · exact h.openXch_getD fun _ h => h.modGang
    · exact h
  · exact h

/-! ## Walks and the fault queue -/

section
variable {die ctx page seq : Nat}

theorem MemoryCanonical.cache {x : TlbEnt} : MemoryCanonical (s.cache die x) := h.modDie

theorem MemoryCanonical.taskError {id : Nat} : MemoryCanonical (s.taskError k id) := by
  unfold State.taskError
  split
  · exact h
  · exact h.modCore.teamError

theorem MemoryCanonical.serve {r : Except Nat TlbEnt} {w : Waiter} : MemoryCanonical (s.serve die ctx page r w).1 := by
  unfold State.serve
  split
  · split
    · exact h
    dsimp only
    split
    · split
      · exact h.modGang
      split
      · exact h
      · exact h.placeFault.modGang
    · split
      · split
        · exact h.finishMem
        · exact h.modGang
      split
      · exact h
      · exact h.placeFault.modGang
    · exact h
  · split
    · exact h
    split
    · exact h
    dsimp only
    split
    · exact h.modCore
    split
    · exact h.taskError
    split
    · exact h
    · exact h.placeFault.modCore

theorem MemoryCanonical.fqRetry : MemoryCanonical (s.fqRetry die seq) := by
  unfold State.fqRetry
  split
  · exact h
  extract_lets s1 s2
  have h2 : MemoryCanonical s2 := h.modDie.addWalk
  split
  · exact h2.modCore
  · exact h2.modGang

theorem MemoryCanonical.fqDeliver : MemoryCanonical (s.fqDeliver die seq) := by
  unfold State.fqDeliver
  split
  · exact h
  extract_lets s1
  have h1 : MemoryCanonical s1 := h.modDie
  split
  · exact h1.taskError
  split
  · exact h1
  split
  · exact h1.takeTrap.ite h1
  · dsimp only
    split
    · exact h1.finishMem
    · exact h1.modGang
  · exact h1

theorem MemoryCanonical.fqHeadTo {n : Nat} : MemoryCanonical (s.fqHeadTo die n) := h.modDie

end

/-! ## Named barriers -/

theorem MemoryCanonical.clearPending {i id : Nat} {c : Clock} : MemoryCanonical (s.clearPending k i id c) := h.modCore

theorem MemoryCanonical.arrive {id : Nat} {b : Barrier} {full : Bool} : MemoryCanonical (s.arrive e id b full) :=
  h.modTeam.modWarp.clearPending.ite h.modTeam.modWarp

theorem MemoryCanonical.waitAt {id : Nat} : MemoryCanonical (s.waitAt k slot g id) := by
  unfold State.waitAt
  split
  · exact h
  · exact h.stall.ite h.modGang

theorem MemoryCanonical.tryRbar {u word : Nat} : MemoryCanonical (s.tryRbar u word) := by
  unfold State.tryRbar
  refine h.ite (h.foldl fun _ _ h => ?_)
  split
  · exact h.modGang.acquire.done
  · exact h

theorem MemoryCanonical.wakeRbars : MemoryCanonical (s.wakeRbars k) := h.foldl fun _ _ h => h.tryRbar

end

section
variable {e : Env} (he : s.env? = some e)
include he

theorem answered_namedBarrier {len id : Nat} {g : Guard} {arr wait : Bool} {count : State → Env → Nat} {trap : Env → Option Trap} :
    Answered s (namedBarrier s len g id arr wait count trap) :=
  answered_control he fun _ _ h => by
    split
    · exact .error
    split
    · exact .error
    split
    · exact .ok h.done.waitAt
    dsimp only
    split
    · exact .error
    split
    · exact .ok h.stall
    split
    · exact .error
    · exact .ok (h.drawn.publish.arrive.done.waitAt.ite h.drawn.publish.arrive.done)

theorem answered_rbar {x : X96} : Answered s (execRbar x s) :=
  answered_control he fun _ _ h => by
    split
    · exact .error
    extract_lets word s1 bad clash
    have h1 : MemoryCanonical s1 := h.drawn
    split
    · exact .error
    · exact .ok h1.stall.tryRbar

end

/-! ## The events -/

theorem answered_storeQueueDrain : Answered s (execStoreQueueDrain s) := .next fun h => h.drain
theorem answered_evict : Answered s (execEvict s) := .next fun h => h.modCore
theorem answered_fetch : Answered s (execFetch s) := .next fun h => h.fetchSector.ite h
theorem answered_accessComplete : Answered s (execAccessComplete s) := .next fun h => h.takeAcc
theorem answered_atomicPerform : Answered s (execAtomicPerform s) := .next fun h => h.sendAtom.ite h.takeAcc
theorem answered_fqretryWrite : Answered s (execFqretryWrite s) := .next fun h => h.fqRetry
theorem answered_fqdeliverWrite : Answered s (execFqdeliverWrite s) := .next fun h => h.fqDeliver
theorem answered_fqheadWrite : Answered s (execFqheadWrite s) := .next fun h => h.fqHeadTo
theorem answered_refreshSlotEnd : Answered s (execRefreshSlotEnd s) := .next fun h => h.setDie.foldl fun _ _ h => h.takeAcc

theorem answered_outboundSend : Answered s (execOutboundSend s) := by
  unfold execOutboundSend
  extract_lets k c
  split
  · exact .next id
  split
  · exact .next id
  split
  · exact .next id
  split
  · exact .next fun h => h.openXch_getD fun _ h => h.modCore
  · exact .next fun h => h.applyEnt.modCore.left

theorem answered_walkComplete : Answered s (execWalkComplete s) := by
  unfold execWalkComplete
  extract_lets die ctx page va r s1
  have h1 (h : MemoryCanonical s) : MemoryCanonical s1 := by
    unfold s1
    clear_value r
    split
    · exact h.cache
    · exact h
  split
  · exact .next id
  refine .next fun h => ?_
  have h2 := MemoryCanonical.foldl_with (l := s.waiters die ctx page) (m := Prod.fst) (b := (s1, true))
    (f := fun (q : State × Bool) w => ((q.1.serve die ctx page r w).1, q.2 && (q.1.serve die ctx page r w).2)) (h1 h) fun _ _ h => h.serve
  exact h2.modDie.ite h2

end Sys2Proof.Machine
end

section
/-!
What the engine's tasks, the exchanges of the fabric and the task instructions leave of memory's canonical form.
-/
namespace Sys2Proof.Machine

variable {s t : State}

/-- A stop of an engine that is canonical where it ends the task in an error. -/
def EngStop.Canonical : EngStop → Prop
  | .err s => MemoryCanonical s
  | _ => True

/-- An engine's course whose state, found by `m`, is canonical, or whose stop is. -/
def CanonicalWork {α : Type} (m : α → State) : Except EngStop α → Prop
  | .ok a => MemoryCanonical (m a)
  | .error x => x.Canonical

theorem CanonicalWork.ok {α : Type} {m : α → State} {a : α} (h : MemoryCanonical (m a)) : CanonicalWork m (.ok a) := h
theorem CanonicalWork.error {α : Type} {m : α → State} {x : EngStop} (h : x.Canonical) : CanonicalWork m (.error x) := h
theorem CanonicalWork.err {α : Type} {m : α → State} (h : MemoryCanonical s) : CanonicalWork m (.error (.err s)) := h
theorem CanonicalWork.later {α : Type} {m : α → State} : CanonicalWork m (.error .later) := trivial

theorem CanonicalWork.of_ok {α : Type} {m : α → State} {r : Except EngStop α} {a : α} (h : CanonicalWork m r) (hr : r = .ok a) : MemoryCanonical (m a) := by
  rw [hr] at h
  exact h

theorem CanonicalWork.of_error {α : Type} {m : α → State} {r : Except EngStop α} {x : EngStop} (h : CanonicalWork m r) (hr : r = .error x) :
    x.Canonical := by
  rw [hr] at h
  exact h

section
variable (h : MemoryCanonical s) {k id : Nat} {tm : Team} {tk : Task}
include h

/-! ## Tasks enter and wait -/

theorem MemoryCanonical.engineError {slot : Nat} : MemoryCanonical (s.engineError k slot) := h.teamError

theorem MemoryCanonical.enterTask : MemoryCanonical (s.enterTask k tk) := by
  unfold State.enterTask
  split
  · exact h
  dsimp only
  split
  · exact h.engineError
  · exact h.same rfl

omit h in
theorem MemoryCanonical.enterMany {ts : List Task} (h : MemoryCanonical s) : MemoryCanonical (State.enterMany k ts s).1 := by
  induction ts generalizing s with
  | nil =>
    unfold State.enterMany
    exact h
  | cons x rest ih =>
    unfold State.enterMany
    split
    · exact ih h.enterTask
    · exact h

theorem MemoryCanonical.wakeCore : MemoryCanonical (s.wakeCore k) := by
  unfold State.wakeCore
  refine (h.foldl fun _ _ h => ?_).wakeFences.wakeRbars
  split
  · exact h
  split
  · dsimp only
    split
    · exact h.enterMany.modWarp.done
    · exact h.ite h.enterMany.stall
  · exact h.done.ite h
  · split
    · exact h.stall
    · exact h.ite h.acquire.modWarp.done
  · exact h.ite h.done
  · exact h

theorem MemoryCanonical.freeTask : MemoryCanonical (s.freeTask k id) := by
  unfold State.freeTask
  split
  · exact h
  · exact h.modCore.wakeCore.settleTeam

/-! ## Tasks at work -/

theorem canonicalWork_engPlace {space base disp n kind : Nat} : CanonicalWork (fun _ => s) (engPlace s k tm tk space base disp n kind) := by
  unfold engPlace
  split
  · dsimp only
    split
    · split
      · exact .ok h
      · exact .err h
    split
    · exact .err h
    split
    · exact .ok h
    · trivial
  · split
    · exact .ok h
    · exact .err h
  · split
    · exact .ok h
    · exact .err h

theorem MemoryCanonical.trackTask {first n kind : Nat} {x : Hit} (ht : s.trackTask first tk x n kind = some t) : MemoryCanonical t := by
  unfold State.trackTask at ht
  split at ht
  · cases ht
    exact h
  dsimp only at ht
  split at ht
  · cases ht
  · cases ht
    exact h.same rfl

theorem canonicalWork_engRead {space base disp n : Nat} : CanonicalWork Prod.snd (s.engRead k tm tk space base disp n) := by
  unfold State.engRead
  extract_lets m one
  have hone {s : State} (h : MemoryCanonical s) (d m : Nat) : CanonicalWork Prod.snd (one s d m) := by
    unfold one
    split
    · exact .ok h
    split
    · exact .ok h
    split
    next hp => exact .error ((canonicalWork_engPlace h).of_error hp)
    split
    · exact .later
    split
    · exact .later
    split
    · exact .err h
    next ht => exact .ok (h.trackTask ht)
  split
  next h1 => exact .error ((hone h _ _).of_error h1)
  next h1 =>
    have hs1 := (hone h _ _).of_ok h1
    split
    next h2 => exact .error ((hone hs1 _ _).of_error h2)
    next h2 =>
      have hs2 := (hone hs1 _ _).of_ok h2
      exact .ok hs2

theorem MemoryCanonical.bindEarly {disp n : Nat} : MemoryCanonical (s.bindEarly k id disp n) := by
  unfold State.bindEarly
  split
  · exact h
  split
  · dsimp only
    split
    · exact h
    split
    · exact h
    split
    · exact h
    · exact h.modCore
  · exact h

omit h in
theorem canonicalWork_engReadLong {space base f disp n : Nat} {acc : List Byte} (h : MemoryCanonical s) :
    CanonicalWork Prod.snd (State.engReadLong k tm tk space base f disp n s acc) := by
  induction f generalizing s disp n acc with
  | zero =>
    unfold State.engReadLong
    exact .ok h
  | succ f ih =>
    unfold State.engReadLong
    split
    · exact .ok h
    dsimp only
    split
    next hr => exact .error ((canonicalWork_engRead h).of_error hr)
    next hr => exact ih ((canonicalWork_engRead h).of_ok hr)

theorem canonicalWork_engWrite {space base disp : Nat} {bs : List Byte} : CanonicalWork (fun s => s) (s.engWrite k id tm tk space base disp bs) := by
  unfold State.engWrite
  split
  next hp => exact .error ((canonicalWork_engPlace h).of_error hp)
  split
  · exact .err h
  next ht =>
    have h1 := h.trackTask ht
    split
    · split
      · exact .err h1
      · exact .ok (h1.homeWrite _ _)
    · split
      · exact .later
      · exact .ok h1.modDie
    · exact .ok h1.modCore

omit h in
theorem canonicalWork_engWriteLong {space base f disp : Nat} {bs : List Byte} (h : MemoryCanonical s) :
    CanonicalWork (fun s => s) (State.engWriteLong k id tm tk space base f disp bs s) := by
  induction f generalizing s disp bs with
  | zero =>
    unfold State.engWriteLong
    exact .ok h
  | succ f ih =>
    unfold State.engWriteLong
    split
    · exact .ok h
    dsimp only
    split
    next hw => exact .error ((canonicalWork_engWrite h).of_error hw)
    next hw => exact ih ((canonicalWork_engWrite h).of_ok hw)

theorem MemoryCanonical.signal {u : BUpd} (ht : s.signal k tm tk u = some t) : MemoryCanonical t := by
  unfold State.signal at ht
  split at ht
  · cases ht
    exact h
  split at ht
  · cases ht
  split at ht
  · cases ht
  dsimp only at ht
  split at ht
  · cases ht
    exact h.modTeam.tellAll
  split at ht
  · cases ht
  · cases ht
    exact h.updateObj

theorem MemoryCanonical.signal_getD {u : BUpd} {s' : State} (h' : MemoryCanonical s') : MemoryCanonical ((s.signal k tm tk u).getD s') := by
  cases hx : s.signal k tm tk u with
  | none => exact h'
  | some s1 => exact h.signal hx

theorem MemoryCanonical.engStop {x : EngStop} (hx : x.Canonical) : MemoryCanonical (s.engStop k id x) := by
  unfold State.engStop
  split
  · exact h
  · exact hx.taskError
  · split
    · exact h
    · exact h.modCore.addWalk

theorem MemoryCanonical.eqApply : MemoryCanonical (s.eqApply k id) := by
  unfold State.eqApply
  split
  · exact h
  split
  · extract_lets s1 s2
    have h1 : MemoryCanonical s1 := by
      unfold s1
      split
      · exact h.gateWrite
      · exact (h.homeWrite _ _).modCore
      · exact h.homeWrite _ _
    have h2 : MemoryCanonical s2 := h1.modCore
    split
    · split
      · exact h2
      · exact h2.signal_getD h2.taskError
    · exact h2
  · exact h

theorem canonicalWork_copyUnit {r : CopyRec} : CanonicalWork (fun s => s) (s.copyUnit k id tm tk r) := by
  unfold State.copyUnit
  dsimp only
  split
  next hr => exact .error ((canonicalWork_engRead h).of_error hr)
  next hr =>
    have h1 := (canonicalWork_engRead h).of_ok hr
    split
    next hw => exact .error ((canonicalWork_engWrite h1).of_error hw)
    next hw =>
      have h2 := (canonicalWork_engWrite h1).of_ok hw
      split
      · exact .ok h2.modCore
      split
      next hs => exact .ok (h2.modCore.signal hs)
      · exact .err h2.modCore

/-! ## Exchanges -/

theorem MemoryCanonical.receive {p : Packet} {x : Exchange} : MemoryCanonical (s.receive p x).2 := by
  unfold State.receive
  extract_lets gone err
  have hgone : MemoryCanonical gone := h.same rfl
  split
  · exact hgone.raiseError
  split
  · exact hgone.raiseError
  split
  · exact hgone.raiseError
  · exact hgone

theorem MemoryCanonical.performXch {x : Exchange} : MemoryCanonical (s.performXch x).1 := by
  unfold State.performXch
  split
  · exact h
  split
  · split
    · exact h.applyEnt.modCore.left
    · exact h
  · exact h.atomHome
  · split
    · split
      · exact h.eqApply
      · exact h
    · exact h

theorem MemoryCanonical.takeResponse {n : Nat} {x : Exchange} {bs : List Byte} : MemoryCanonical (s.takeResponse n x bs) := by
  unfold State.takeResponse
  split
  · split
    · exact h
    split
    · split
      · exact h.atomTake.accDone
      · exact h
    · exact h
  · exact h

theorem MemoryCanonical.enterAll {e : Env} {len : Nat} {frees : List Nat} {mk : Clock → List Task} : MemoryCanonical (e.enterAll s len frees mk) := by
  unfold Env.enterAll
  refine h.stall.ite ?_
  dsimp only
  split
  · exact h.publish.enterMany.modWarp.done
  · exact h.publish.enterMany.stall

end

/-! ## The events -/

theorem answered_engineQueueApply : Answered s (execEngineQueueApply s) := by
  unfold execEngineQueueApply
  extract_lets k id
  split
  · exact .next fun h => h
  split
  · exact .next fun h => h
  split
  · exact .next fun h => h
  split
  · exact .next fun h => h.openXch_getD fun _ h => h.modCore
  · exact .next fun h => h.eqApply

theorem answered_fabricRequestArrival : Answered s (execFabricRequestArrival s) := by
  unfold execFabricRequestArrival
  split
  · exact .next id
  dsimp only
  split
  · exact .next id
  split
  · exact .next fun h => h.receive.sweepLost
  split
  · exact .next fun h => h.receive.sweepLost
  split
  · exact .next fun h => ((h.receive.same (by rfl)).respond).closeFilter
  · exact .next fun h => (h.receive.performXch.same (by rfl)).respond

theorem answered_fabricResponseArrival : Answered s (execFabricResponseArrival s) := by
  unfold execFabricResponseArrival
  split
  · exact .next id
  dsimp only
  split
  · exact .next fun h => h.receive.sweepLost
  · exact .next fun h => (h.receive.same (by rfl)).takeResponse.acknowledge

theorem answered_fabricAckArrival : Answered s (execFabricAckArrival s) := by
  unfold execFabricAckArrival
  split
  · exact .next id
  dsimp only
  split
  · exact .next fun h => h.receive.sweepLost
  split
  · exact .next fun h => h.receive
  · exact .next fun h => (h.receive.same (by rfl)).closeFilter

theorem answered_retransmitTimerExpiry : Answered s (execRetransmitTimerExpiry s) := by
  unfold execRetransmitTimerExpiry
  split
  · exact .next id
  dsimp only
  split
  · exact .next id
  split
  · exact .next fun h => h.raiseError
  · exact .next fun h => (h.same (by rfl)).request

/-! ## Task instructions -/

section
variable {e : Env} (he : s.env? = some e)
include he

theorem answered_engineInstr {opc : Nat} {x : Op} {vals : State → Env → Nat → List Nat} {reasons : State → Env → List Nat → List Nat}
    {task : Env → Clock → List Nat → Task} : Answered s (engineInstr s opc x vals reasons task) :=
  answered_issue he fun _ _ _ h => by
    dsimp only
    split
    · exact .ok h.modWarp.done
    split
    · exact .error
    split
    · exact .error
    · exact .ok h.enterAll.drawn

theorem answered_kick {x : Op} : Answered s (kick s x) :=
  answered_issue he fun _ _ _ h => by
    extract_lets r len fin
    have hfin {s : State} (h : MemoryCanonical s) : MemoryCanonical (fin s) := h.modWarp.done
    split
    · exact .ok (hfin h)
    split
    · exact .error
    dsimp only
    split
    · exact .error
    split
    · exact .ok (hfin h.drawn)
    split
    · exact .ok h.stall
    split
    · exact .error
    · exact .ok h.enterAll.drawn

theorem answered_drain {x : X96} : Answered s (execDrain x s) :=
  answered_control he fun _ _ h => by
    split
    · exact .ok h.done
    split
    · exact .ok h.done
    · exact .ok h.stall

end

end Sys2Proof.Machine
end

section
/-!
What the matrix instructions and the steps of tasks leave of memory's canonical form.
-/
namespace Sys2Proof.Machine

variable {s t : State}

/-- A matrix instruction's course that is canonical where it has no reason to trap. -/
def CanonicalPlan : Except Nat State → Prop
  | .ok s => MemoryCanonical s
  | .error _ => True

theorem CanonicalPlan.ok (h : MemoryCanonical s) : CanonicalPlan (.ok s) := h
theorem CanonicalPlan.error {n : Nat} : CanonicalPlan (.error n) := trivial

section
variable (h : MemoryCanonical s) {k : Nat} {tm : Team} {tk : Task}
include h

/-! ## Work on the accumulators -/

theorem MemoryCanonical.arrayRun {kc fa fb kk j0 bank : Nat} {a b : MSrc} {r : Rect} {clear : Bool}
    (ht : s.arrayRun k kc tm a b fa fb r kk j0 clear bank = some t) : MemoryCanonical t := by
  unfold State.arrayRun at ht
  dsimp only at ht
  split at ht
  · cases ht
    exact h.setCore
  · cases ht

theorem MemoryCanonical.commitRect {q : Nat × Rect} : MemoryCanonical (s.commitRect q) := h.modCore

theorem MemoryCanonical.mmaRun {slot fa fb kk n bank fbank : Nat} {a b : MSrc} {r : Rect} {pair clear : Bool}
    (ht : s.mmaRun k tm slot a b fa fb r kk n pair clear bank fbank = some t) : MemoryCanonical t := by
  unfold State.mmaRun at ht
  extract_lets held at ht
  clear_value held
  split at ht
  · cases ht
  split at ht
  · cases ht
  next h1 =>
    split at ht
    · exact (h.arrayRun h1).arrayRun ht
    · cases ht
      exact h.arrayRun h1

omit h in
theorem canonicalWork_obldRows {ssc : Bool} {src pitch n : Nat} {rows : List Nat} {acc : List (List Byte)} (h : MemoryCanonical s) :
    CanonicalWork Prod.snd (State.obldRows k tm tk ssc src pitch n rows s acc) := by
  induction rows generalizing s acc with
  | nil =>
    unfold State.obldRows
    exact .ok h
  | cons r rest ih =>
    unfold State.obldRows
    split
    next hr => exact .error ((canonicalWork_engReadLong h).of_error hr)
    next hr => exact ih ((canonicalWork_engReadLong h).of_ok hr)

theorem canonicalWork_obldRun {mode type rm ref src rows cols pitch : Nat} {ssc : Bool} :
    CanonicalWork (fun s => s) (s.obldRun k tm tk mode type rm ssc ref src rows cols pitch) := by
  unfold State.obldRun
  split
  · exact .err h
  extract_lets ro co bands n
  split
  next hr => exact .error ((canonicalWork_obldRows h).of_error hr)
  next hr => exact .ok ((canonicalWork_obldRows h).of_ok hr).modCore

omit h in
theorem canonicalWork_accstRun {id type rm dst pitch : Nat} {sat dsc : Bool} {r : Rect} {rows : List Nat} (h : MemoryCanonical s) :
    CanonicalWork (fun s => s) (State.accstRun k id tm tk type rm sat dsc r dst pitch rows s) := by
  induction rows generalizing s with
  | nil =>
    unfold State.accstRun
    exact .ok h
  | cons i rest ih =>
    unfold State.accstRun
    dsimp only
    split
    next hw => exact .error ((canonicalWork_engWriteLong h).of_error hw)
    next hw =>
      have h1 := (canonicalWork_engWriteLong h).of_ok hw
      refine ih ?_
      split
      · exact h1.modLaunch
      · exact h1

/-! ## Tokens -/

theorem MemoryCanonical.applyHeld {slot tok : Nat} {x : Held} : MemoryCanonical (s.applyHeld k slot tok x) := by
  unfold State.applyHeld
  dsimp only
  split
  · exact h.modTeam.updateObj
  · exact h.modTeam.engineError

theorem MemoryCanonical.commitToken {slot tok : Nat} : MemoryCanonical (s.commitToken k slot tok) := by
  unfold State.commitToken
  split
  · exact h
  · exact h.modTeam.modCore.foldl fun _ _ h => h.commitRect

theorem MemoryCanonical.discardToken {slot tok : Nat} : MemoryCanonical (s.discardToken k slot tok) := by
  unfold State.discardToken
  split
  · exact h
  · exact (h.modTeam.foldl fun _ _ h => h.freeTask).foldl fun _ _ h => h.resetObj

/-! ## Tasks compute and end -/

theorem MemoryCanonical.finjFlip {bank : Nat} {q : Nat × Rect} : MemoryCanonical (s.finjFlip bank q) := h.ite h.modCore.modDie

theorem canonicalWork_compute {id : Nat} : CanonicalWork (fun s => s) (s.compute k id tm tk) := by
  unfold State.compute
  split
  · exact .ok h
  · dsimp only
    split
    next hr => exact .error ((canonicalWork_engReadLong h).of_error hr)
    next hr => exact canonicalWork_engWrite ((canonicalWork_engReadLong h).of_ok hr)
  · dsimp only
    split
    next hr => exact .error ((canonicalWork_engReadLong h).of_error hr)
    next hr => exact canonicalWork_engWriteLong ((canonicalWork_engReadLong h).of_ok hr)
  · split
    next hm => exact .ok ((h.mmaRun hm).foldl fun _ _ h => h.finjFlip)
    · exact .err h
  · exact canonicalWork_obldRun h
  · split
    · exact canonicalWork_accstRun h
    · exact .err h

theorem MemoryCanonical.taskDone {id : Nat} : MemoryCanonical (s.taskDone k id tm tk) := by
  unfold State.taskDone
  split
  · exact h.taskError
  next s1 hs =>
    have h1 : MemoryCanonical s1 := by
      split at hs
      · cases hs
        exact h
      · exact h.signal hs
    exact ((h1.foldl fun _ _ h => h.commitRect).ite h1).freeTask

theorem MemoryCanonical.taskEnd {id : Nat} : MemoryCanonical (s.taskEnd k id tm tk) := by
  unfold State.taskEnd
  split
  · split
    · exact h.taskDone
    split
    · exact h.taskError
    next hs => exact (h.signal hs).modCore
  · exact h.taskDone

end

/-! ## The matrix instructions -/

section
variable {e : Env} (he : s.env? = some e)
include he

theorem answered_matrixOnce {opc : Nat} {x : Op} {lit : Nat} {f : State → Env → Srcs → Except Nat State}
    (hf : ∀ s e v, MemoryCanonical s → CanonicalPlan (f s e v)) : Answered s (matrixOnce s opc x lit f) :=
  answered_issue he fun _ s e h => by
    dsimp only
    split
    · exact .ok h.modWarp.done
    split
    · exact .error
    have h1 := hf s e (Env.srcs s e x (rowAt opc x) lit ((e.active x.g).headD 0)) h
    split
    next hr =>
      rw [hr] at h1
      exact .ok h1
    · exact .error

theorem answered_mma {x : Long} : Answered s (execMma x s) :=
  answered_issue he fun _ _ _ h => by
    split
    · exact .ok h.modWarp.done
    · exact .error
    dsimp only
    split
    · exact .error
    split
    · exact .error
    split
    · exact .ok h.stall
    · exact .ok h.enterAll

theorem answered_rsv {x : X96} : Answered s (execRsv x s) := by
  unfold execRsv
  extract_lets o
  exact answered_matrixOnce he fun _ _ _ h => by
    split
    · exact .error
    split
    · exact .error
    split
    · exact .ok h.stall
    · exact .ok h.modTeam.modCore.modWarp.done

theorem answered_rsvfree {x : Op} : Answered s (rsvfree s x) :=
  answered_matrixOnce he fun _ _ _ h => by
    dsimp only
    split
    · exact .error
    · exact .ok h.modTeam.done

theorem answered_obld {x : X96} : Answered s (execObld x s) := by
  unfold execObld
  extract_lets o
  exact answered_matrixOnce he fun _ _ _ h => by
    dsimp only
    split
    · exact .error
    split
    · exact .error
    · exact .ok h.enterAll

theorem answered_acczTake {x : X96} : Answered s (execAcczTake x s) := by
  unfold execAcczTake
  extract_lets o
  exact answered_matrixOnce he fun _ _ _ h => by
    dsimp only
    split
    · exact .error
    split
    · exact .error
    split
    · exact .ok h.stall
    · exact .ok h.setCore.done

theorem answered_acczGive {x : X96} : Answered s (execAcczGive x s) := by
  unfold execAcczGive
  extract_lets o
  exact answered_matrixOnce he fun _ _ _ h => by
    dsimp only
    split
    · exact .error
    split
    · exact .error
    split
    · exact .ok h.stall
    split
    · exact .error
    · exact .ok h.setCore.done

theorem answered_acczClr {x : X96} : Answered s (execAcczClr x s) := by
  unfold execAcczClr
  extract_lets o
  exact answered_matrixOnce he fun _ _ _ h => by
    split
    · exact .error
    dsimp only
    split
    · exact .error
    split
    · exact .error
    split
    · exact .ok h.stall
    · exact .ok h.setCore.done

theorem answered_accrd {x : X96} : Answered s (execAccrd x s) :=
  answered_issued he fun _ _ _ _ h => by
    unfold accrdCourse
    split
    · exact h.done
    split
    · exact h
    split
    · exact h
    split
    · exact h.stall
    dsimp only
    split
    · exact h.modWarp.done
    · exact h.modWarp

theorem answered_accst {x : X96} : Answered s (execAccst x s) := by
  unfold execAccst
  extract_lets o
  exact answered_matrixOnce he fun _ _ _ h => by
    extract_lets c w step
    split
    · exact .error
    extract_lets n outside
    clear_value outside
    split
    · exact .error
    split
    · exact .error
    · exact .ok h.enterAll

theorem answered_resolveTok {x : Op} : Answered s (resolveTok s x) :=
  answered_issue he fun _ _ _ h => by
    extract_lets r len fin
    have hfin {s : State} (h : MemoryCanonical s) : MemoryCanonical (fin s) := h.modWarp.done
    split
    · exact .ok (hfin h)
    split
    · exact .error
    dsimp only
    split
    · exact .error
    split
    · exact .ok (hfin h.discardToken)
    split
    · exact .ok h.stall.applyHeld
    · exact .ok (hfin h.commitToken)

end

/-! ## The events of tasks -/

theorem answered_taskStart : Answered s (execTaskStart s) := by
  unfold execTaskStart
  dsimp only
  split
  · exact .next id
  split
  · exact .next id
  split
  · exact .next id
  split
  · exact .next fun h => h.taskError
  · exact .next fun h => h.modCore

theorem answered_copySectorLand : Answered s (execCopySectorLand s) := by
  unfold execCopySectorLand
  dsimp only
  split
  · exact .next id
  split
  · split
    · exact .next id
    split
    next hc => exact .next fun h => (canonicalWork_copyUnit h).of_ok hc
    next hc => exact .next fun h => h.engStop ((canonicalWork_copyUnit h).of_error hc)
  · exact .next id

theorem answered_taskComplete : Answered s (execTaskComplete s) := by
  unfold execTaskComplete
  extract_lets k id
  split
  · exact .next fun h => h
  next tk _ =>
  split
  · exact .next fun h => h
  next tm _ =>
  split
  · exact .next fun h => h
  extract_lets made
  have hm (h : MemoryCanonical s) : CanonicalWork (fun s => s) made := by
    unfold made
    split
    · split
      · exact .ok h
      · exact .later
    split
    · exact .ok h
    split
    next hc => exact .ok ((canonicalWork_compute h).of_ok hc).modCore
    next hc => exact .error ((canonicalWork_compute h).of_error hc)
  clear_value made
  cases made with
  | error x => exact .next fun h => h.engStop (hm h)
  | ok s1 =>
    dsimp only
    split
    · split
      · exact .next hm
      · exact .next fun h => MemoryCanonical.taskEnd (hm h)
    · exact .next hm

theorem answered_weightStoreDigestCheck : Answered s (execWeightStoreDigestCheck s) := by
  unfold execWeightStoreDigestCheck
  dsimp only
  split
  · exact .next id
  · exact .next fun h => h.setDie.ite h.setDie.record

end Sys2Proof.Machine
end

section
/-!
What admission, spawns, messages, launch records and the queues leave of memory's canonical form.
-/
namespace Sys2Proof.Machine

variable {s t : State}

/-- A read of an instruction that may wait, whose state is canonical. -/
def OnceRead.Canonical : OnceRead → Prop
  | .got _ _ s => MemoryCanonical s
  | .wait s => MemoryCanonical s
  | .trap _ => True

section
variable (h : MemoryCanonical s) {k slot u : Nat} {e : Env}
include h

/-! ## Admission -/

theorem MemoryCanonical.askSave : MemoryCanonical (s.askSave k slot) := h.ite h.modTeam
theorem MemoryCanonical.askDrain : MemoryCanonical (s.askDrain k slot) := h.modTeam

theorem MemoryCanonical.askDiscard : MemoryCanonical (s.askDiscard k slot) := by
  unfold State.askDiscard
  split
  · exact h
  · exact h.killTeam.ite h.askSave

theorem MemoryCanonical.useDie {d : Nat} : MemoryCanonical (s.useDie u d) := by
  unfold State.useDie
  split
  · exact h
  · exact h.modLaunch

theorem MemoryCanonical.admitGrid {img : Image} {si idx reruns : Nat} : MemoryCanonical (s.admitGrid img u k si idx reruns) := by
  unfold State.admitGrid
  split
  · exact h
  split
  · exact h
  · exact h.enterTeam.useDie

theorem MemoryCanonical.admitQuad {img : Image} {c : Nat × Nat} : MemoryCanonical (s.admitQuad img u c) := by
  unfold State.admitQuad
  split
  · exact h
  split
  · exact h
  · exact h.modLaunch.foldl fun _ _ h => h.admitGrid

/-! ## Spawned threads and messages -/

theorem MemoryCanonical.formNow {ts : List Spawned} (ht : s.formNow k u ts = some t) : MemoryCanonical t := by
  unfold State.formNow at ht
  dsimp only at ht
  split at ht
  · cases ht
  · cases ht
    exact h.setCore

theorem MemoryCanonical.spawnNow {ts : List Spawned} {timer len : Nat} {frees : List Nat} : MemoryCanonical (s.spawnNow e ts timer len frees) := by
  unfold State.spawnNow
  extract_lets free u
  have hfree {s : State} (h : MemoryCanonical s) : MemoryCanonical (free s) := h.modWarp
  split
  · exact h.stall
  dsimp only
  split
  · split
    next hf => exact (hfree (h.publish.formNow hf).raiseCounter).done
    · exact h.stall
  · have h1 := h.publish (e := e)
    split
    · exact (hfree h1.raiseCounter.arriveAll).stall
    · exact (hfree h1.raiseCounter.arriveAll).done

theorem MemoryCanonical.sendMsg {rel : Nat} {tasks : List Nat} {m : Nat × Nat × Spawned} : MemoryCanonical (State.sendMsg e rel tasks s m) := by
  unfold State.sendMsg
  extract_lets n s1 ent
  have h1 : MemoryCanonical s1 := h.same rfl
  exact h1.pushSq.ite h1.modCore

theorem MemoryCanonical.placeEvent {ts : List Spawned} (ht : s.placeEvent k u ts = some t) : MemoryCanonical t := by
  unfold State.placeEvent at ht
  split at ht
  · exact h.formNow ht
  · cases ht
    exact h.arriveAll

/-! ## Launch records -/

theorem canonical_onceRead {m : MemWait} {lane stamp base align : Nat} {spans : List (Nat × Nat)} :
    (s.onceRead e m lane stamp base align spans).Canonical := by
  unfold State.onceRead
  dsimp only
  split
  · trivial
  split
  · exact h.awaitPages
  split
  next hp => exact h.preReads hp
  · trivial
  · exact h.stall

theorem MemoryCanonical.addLaunch {l : Launch} : MemoryCanonical (s.addLaunch l) := h.same rfl

theorem MemoryCanonical.recordChild {parent : Nat} {img : Image} {l : Launch} : MemoryCanonical (s.recordChild parent img l) :=
  h.addLaunch.raiseCounter.foldl fun _ _ h => h.modLaunch

theorem MemoryCanonical.closeGroup {g : AggGroup} : MemoryCanonical (s.closeGroup g) := h.foldl fun _ _ h => h.modLaunch

theorem MemoryCanonical.aggregate {die : Nat} : MemoryCanonical (s.aggregate die u) := by
  unfold State.aggregate
  split
  · exact h
  dsimp only
  split
  · exact h.modLaunch.modDie.ite h.modLaunch.modDie.closeGroup
  · exact h.ite h.modLaunch.modDie

/-! ## The queues -/

theorem MemoryCanonical.ringWrite {q : Queue} {addr : Nat} {bs : List Byte} : MemoryCanonical (s.ringWrite q addr bs) := by
  unfold State.ringWrite
  split
  · split
    · exact h.homeWrite _ _
    · exact h
  · exact h.homeWrite (.sys _) bs

theorem MemoryCanonical.setQueue {q : Nat} {x : Queue} : MemoryCanonical (s.setQueue q x) := h.same rfl

theorem MemoryCanonical.qcommit {die v : Nat} : MemoryCanonical (s.qcommit die v) := by
  unfold State.qcommit
  refine h.violation.ite ?_
  dsimp only
  split
  · exact h
  · exact h.ite (h.same rfl)

end

/-! ## The instructions -/

section
variable {e : Env} (he : s.env? = some e)
include he

theorem answered_spawn {x : Long} : Answered s (execSpawn x s) := by
  unfold execSpawn
  extract_lets o
  exact answered_issue he fun _ _ _ h => by
    extract_lets r len frees
    split
    · exact .ok h.modWarp.done
    split
    · exact .error
    dsimp only
    split
    · exact .error
    · exact .ok (h.stall.ite h.spawnNow)

theorem answered_msend {x : Long} : Answered s (execMsend x s) := by
  unfold execMsend
  extract_lets o r len rel
  exact answered_issue he fun _ _ _ h => by
    extract_lets fin src u tasks
    have hfin {s : State} (h : MemoryCanonical s) : MemoryCanonical (fin s) := h.modWarp.done
    split
    · exact .ok (hfin h)
    split
    · exact .error
    extract_lets bad msgs s1
    have h1 : MemoryCanonical s1 := h.raiseCounter.foldl fun _ _ h => h.sendMsg
    clear_value bad
    split
    · exact .error
    split
    · exact .ok h.stall
    · exact .ok (h1.stall.ite (hfin h1))

theorem answered_tlaunch {x : X96} : Answered s (execTlaunch x s) := by
  unfold execTlaunch
  extract_lets o r
  exact answered_issue he fun _ _ e h => by
    extract_lets act lane m src a word mark fail
    split
    · exact .ok h.finishMem
    split
    · exact .error
    split
    · exact .ok (h.stall.modGang)
    have h1 := canonical_onceRead h (e := e) (m := m) (lane := lane) (stamp := (sv1 src.a).stamp) (base := a) (align := 64) (spans := spansOf a 64 32)
    split
    · exact .error
    next hr =>
      rw [hr] at h1
      exact .ok h1
    next s1 hr =>
      rw [hr] at h1
      have h1 : MemoryCanonical s1 := h1
      extract_lets lr list
      have hlist : list.Canonical := by
        unfold list
        split
        · exact h1
        · exact canonical_onceRead h1
      clear_value list
      split
      · split
        · exact .error
        split
        · exact .error
        cases list with
        | trap t => exact .error
        | wait s2 => exact .ok hlist
        | got ds _ s2 =>
          have h2 : MemoryCanonical s2 := hlist
          dsimp only
          split
          · exact .error
          split
          · exact .ok h2.stall
          · exact .ok ((h2.publish.recordChild.modDie.ite h2.publish.recordChild.modDie.aggregate).modWarp.drawn.finishMem)
      · exact .error

end

/-! ## The events -/

theorem answered_quadAdmission : Answered s (execQuadAdmission s) := by
  unfold execQuadAdmission
  split
  · exact .next id
  · exact .next fun h => h.askDiscard
  dsimp only
  split
  · split
    · exact .next fun h => h.foldl fun _ _ h => h.admitQuad
    · exact .next id
  split
  · exact .next fun h => h.admitQuad
  · exact .next id

theorem answered_teamRerunAdmission : Answered s (execTeamRerunAdmission s) := by
  unfold execTeamRerunAdmission
  split
  · exact .next id
  split
  · extract_lets drop held core beside retires takes cs
    have hdrop {s : State} (h : MemoryCanonical s) : MemoryCanonical (drop s) := h.modLaunch
    split
    · exact .next id
    split
    · exact .next fun h => h.endLaunch
    split
    · split
      · exact .next id
      split
      next ha => exact .next fun h => hdrop (h.admitThreads ha).raiseCounter
      · exact .next id
    split
    · exact .next id
    · exact .next fun h => hdrop h.admitGrid
  · exact .next id

theorem answered_formedWarpAdmission : Answered s (execFormedWarpAdmission s) := by
  unfold execFormedWarpAdmission
  dsimp only
  split
  · exact .next id
  split
  · exact .next id
  next ha => exact .next fun h => (h.admitThreads ha).modCore.modDie.settleBins

theorem answered_binTimerExpiry : Answered s (execBinTimerExpiry s) := by
  unfold execBinTimerExpiry
  dsimp only
  split
  · exact .next id
  split
  · exact .next fun h => h.modDie
  · exact .next fun h => h.modDie.setCore.settleBins

theorem answered_spawnPlacement : Answered s (execSpawnPlacement s) := by
  unfold execSpawnPlacement
  dsimp only
  split
  · exact .next id
  split
  · split
    · exact .next id
    · exact .next fun h => h.spawnNow
  · exact .next fun h => h.settleBins
  · exact .next id

theorem answered_messageArrival : Answered s (execMessageArrival s) := by
  unfold execMessageArrival
  split
  · exact .next id
  split
  · exact .next id
  · exact .next fun h => h.same rfl

theorem answered_quarterEvent : Answered s (execQuarterEvent s) := by
  unfold execQuarterEvent
  dsimp only
  split
  · exact .next id
  split
  · exact .next id
  split
  · exact .next id
  split
  · exact .next id
  split
  · exact .next id
  next hp => exact .next fun h => (h.placeEvent hp).modCore

theorem answered_handoffGroupPlace : Answered s (execHandoffGroupPlace s) := by
  unfold execHandoffGroupPlace
  dsimp only
  split
  · exact .next id
  split
  · exact .next id
  split
  · exact .next id
  split
  · exact .next id
  split
  · exact .next id
  next hp => exact .next fun h => (h.placeEvent hp).modCore

theorem answered_aggregatorGroupClose : Answered s (execAggregatorGroupClose s) := by
  unfold execAggregatorGroupClose
  split
  · exact .next id
  · exact .next fun h => h.modDie.closeGroup

theorem answered_sqDoorbellWrite : Answered s (execSqDoorbellWrite s) := by
  unfold execSqDoorbellWrite
  dsimp only
  split
  · exact .next id
  split
  · exact .next fun h => h.setQueue
  · exact .next id

theorem answered_cqDoorbellWrite : Answered s (execCqDoorbellWrite s) := by
  unfold execCqDoorbellWrite
  dsimp only
  split
  · exact .next id
  split
  · exact .next fun h => h.setQueue
  · exact .next id

theorem answered_qcommitWrite : Answered s (execQcommitWrite s) := .next fun h => h.qcommit

theorem answered_launchRecordFetch : Answered s (execLaunchRecordFetch s) := by
  unfold execLaunchRecordFetch
  split
  · exact .next id
  split
  · exact .next id
  · exact .next fun h => h.addLaunch.setQueue

end Sys2Proof.Machine
end

section
/-!
What the course of a launch, its witnesses and the checker leave of memory's canonical form.
-/
namespace Sys2Proof.Machine

variable {s t : State}

/-! ## A launch starts and completes -/

/-- A fold of writes keeps a memory's canonical form. -/
theorem wf_foldl {α : Type} {ws : List α} {f : List Host.Cell → α → List Host.Cell} {m : List Host.Cell} (hm : Memory.wf m = true)
    (hf : ∀ m a, Memory.wf m = true → Memory.wf (f m a) = true) : Memory.wf (ws.foldl f m) = true := by
  induction ws generalizing m with
  | nil => exact hm
  | cons a ws ih => exact ih (hf m a hm)

section
variable (h : MemoryCanonical s) {u : Nat} {l : Launch}
include h

theorem MemoryCanonical.failLaunch {status : Nat} : MemoryCanonical (s.failLaunch u status) := by
  unfold State.failLaunch
  split
  · exact h
  split
  · exact h.endLaunch.ite h.modLaunch.lowerCounter
  · exact h.modLaunch.ite h.modLaunch

theorem MemoryCanonical.placeCopy {img : Image} (ht : s.placeCopy u img l = some t) : MemoryCanonical t := by
  unfold State.placeCopy at ht
  extract_lets off m0 at' m1 m2 at ht
  split at ht
  · cases ht
  split at ht
  · cases ht
    exact h
  have hm : Memory.wf s.hbm = true := h.1
  have h0 : Memory.wf m0 = true := by
    unfold m0
    split
    · exact hm
    · exact wf_memWrite _ _ hm
  have h1 : Memory.wf m1 = true := wf_foldl h0 fun _ _ h => wf_memWrite _ _ h
  have h2 : Memory.wf m2 = true := by
    unfold m2
    split
    · exact h1
    · exact wf_foldl h1 fun _ _ h => wf_memWrite _ _ h
  cases ht
  exact ⟨h2, h.2⟩

theorem MemoryCanonical.openVersion {o : Nat × Nat} : MemoryCanonical (s.openVersion u l o).1 := ⟨wf_filter _ h.1, h.2⟩

theorem MemoryCanonical.start {img : Image} : MemoryCanonical (s.start u img l) := by
  unfold State.start
  have h1 := MemoryCanonical.foldl_with (l := l.outs) (m := Prod.fst) (b := (s, []))
    (f := fun (q : State × List (Nat × Nat)) o => ((q.1.openVersion u l o).1, q.2 ++ [(q.1.openVersion u l o).2])) h fun _ _ h => h.openVersion
  exact h1.same rfl

theorem MemoryCanonical.dispatch : MemoryCanonical (s.dispatch u) := by
  unfold State.dispatch
  split
  · exact h
  split
  · exact h
  split
  · exact h.failLaunch
  split
  · exact h
  split
  · exact h.failLaunch
  split
  · exact h.failLaunch
  dsimp only
  split
  · exact h.failLaunch
  next hp => exact (h.placeCopy hp).start

theorem MemoryCanonical.combineSums : MemoryCanonical (s.combineSums u) := by
  unfold State.combineSums
  split
  · exact h
  · exact MemoryCanonical.modLaunch (h.foldl fun _ _ h => h.homeWrite _ _)

theorem MemoryCanonical.refusedWrite {ctx : Option Nat} {tag : DWord} : MemoryCanonical (s.refusedWrite ctx tag) := h.logError

theorem MemoryCanonical.fwDeliver {die : Nat} : MemoryCanonical (s.fwDeliver die) := by
  unfold State.fwDeliver
  split
  · exact h
  extract_lets is gone
  have hgone : MemoryCanonical gone := h.same rfl
  split
  · exact hgone
  split
  · exact h
  split
  · exact hgone.refusedWrite
  · exact hgone.homeWrite _ _

theorem MemoryCanonical.bury : MemoryCanonical (s.bury u) := by
  unfold State.bury
  extract_lets us s1
  have h1 : MemoryCanonical s1 := h.same rfl
  exact h1.modLaunch.returnFrames

/-! ## Attestation and checks -/

theorem MemoryCanonical.attest : MemoryCanonical (s.attest u l) := by
  unfold State.attest
  extract_lets ours older next s1
  have h1 : MemoryCanonical s1 := h.same rfl
  exact h1.modLaunch

omit h in
theorem MemoryCanonical.attestAll {fuel : Nat} (h : MemoryCanonical s) : MemoryCanonical (State.attestAll fuel s) := by
  induction fuel generalizing s with
  | zero => exact h.returnFrames
  | succ fuel ih =>
    unfold State.attestAll
    split
    · exact ih h.attest
    · exact h.returnFrames

theorem MemoryCanonical.addTwin : MemoryCanonical (s.addTwin u) := by
  unfold State.addTwin
  split
  · exact h
  · exact h.addLaunch.modLaunch

omit h in
theorem MemoryCanonical.takeDuals {fuel : Nat} (h : MemoryCanonical s) : MemoryCanonical (State.takeDuals fuel s) := by
  induction fuel generalizing s with
  | zero => exact h
  | succ fuel ih =>
    unfold State.takeDuals
    split
    next n c _ =>
      have h1 : MemoryCanonical { s with checks := adel n s.checks } := h.same rfl
      exact (ih h1.addTwin).ite h
    · exact h

theorem MemoryCanonical.settleChecks : MemoryCanonical s.settleChecks := h.takeDuals.attestAll

theorem MemoryCanonical.record17 {die core detail : Nat} : MemoryCanonical (s.record17 l die core detail) := h.logError
theorem MemoryCanonical.chargeCore {k : Nat} : MemoryCanonical (s.chargeCore u k) := h.modCore

theorem MemoryCanonical.logFailure {f : Failure} : MemoryCanonical (s.logFailure u l f) := by
  unfold State.logFailure
  extract_lets d s1
  have h1 : MemoryCanonical s1 := by
    unfold s1
    split
    · exact h.record17
    · exact h.foldl fun _ _ h => h.record17.chargeCore
  exact h1.modLaunch

theorem MemoryCanonical.withdraw : MemoryCanonical (s.withdraw u) := by
  unfold State.withdraw
  split
  · exact h
  · exact MemoryCanonical.modLaunch (h.foldl fun _ _ h => h.record17.modCore)

omit h in
theorem MemoryCanonical.failSet {fuel : Nat} {vs : List (Nat × Nat × Nat)} (h : MemoryCanonical s) : MemoryCanonical (failSet fuel vs s) := by
  induction fuel generalizing s vs with
  | zero => exact h
  | succ fuel ih =>
    unfold Machine.failSet
    split
    · exact h
    · exact ih h.dropTwin.dropTree.discardOuts.modLaunch

theorem MemoryCanonical.failOuts : MemoryCanonical (s.failOuts u).1 := by
  unfold State.failOuts
  split
  · exact h
  · exact h.foldl fun _ _ h => h.modVersion

theorem MemoryCanonical.failRun {f : Failure} : MemoryCanonical (s.failRun u f) := by
  unfold State.failRun
  split
  · exact h
  extract_lets whole digs s1 s2 s3 place
  have h2 : MemoryCanonical s2 := h.logFailure.same rfl
  have h3 : MemoryCanonical s3 := h2.dropTwin
  split
  · exact h3.withdraw.modLaunch.settleChecks
  have h4 : MemoryCanonical ((s3.dropTree u).failOuts u).1 := h3.dropTree.failOuts
  split
  next hv =>
    rw [hv] at h4
    split
    · exact h4.modLaunch.failSet.returnFrames
    · exact h4.modLaunch.squash.returnFrames

theorem MemoryCanonical.closeOuts : MemoryCanonical (s.closeOuts u l) := by
  unfold State.closeOuts
  extract_lets s1
  have h1 : MemoryCanonical s1 := h.combineSums.foldl fun _ _ h => h.modVersion
  exact h1.foldl fun _ _ h => by
    split
    · exact h.modVersion
    · exact h

theorem MemoryCanonical.submit {ws : List Witness} : MemoryCanonical (s.submit u l ws) := by
  unfold State.submit
  extract_lets s1
  have h1 : MemoryCanonical s1 := h.foldl fun _ _ h => h.ite (h.same rfl)
  exact h1.modLaunch.settleChecks

theorem MemoryCanonical.judge {n : Nat} {c : Check} {f : Option Failure} : MemoryCanonical (s.judge n c f) := by
  unfold State.judge
  extract_lets s1
  have h1 : MemoryCanonical s1 := h.same rfl
  split
  · exact h1.settleChecks
  · exact h1.failRun

theorem MemoryCanonical.appendWitness {root : Nat} {w : Witness} (ht : s.appendWitness root w = some t) : MemoryCanonical t := by
  unfold State.appendWitness at ht
  split at ht
  · cases ht
    exact h
  split at ht
  · cases ht
    exact h
  split at ht
  · cases ht
  · cases ht
    exact h.modLaunch

end

/-! ## The instructions -/

section
variable {e : Env} (he : s.env? = some e)
include he

theorem answered_onceInstr {opc : Nat} {x : Op} {ev : State → Env → Nat → Bool} {f : State → Env → Row → List Nat → Nat → Except Trap State}
    (hf : ∀ s e r act lane, MemoryCanonical s → CanonicalResult (f s e r act lane)) : Answered s (onceInstr s opc x ev f) :=
  answered_issue he fun _ _ _ h => by
    extract_lets r act
    split
    · exact .ok h.finishMem
    split
    · exact .error
    · exact hf _ _ _ _ _ h

theorem answered_witn {x : X96} : Answered s (execWitn x s) := by
  unfold execWitn
  extract_lets o kind
  exact answered_onceInstr he fun _ e _ _ lane h => by
    extract_lets m fail a
    split
    next u l _ _ =>
      extract_lets add
      have hadd {s : State} (h : MemoryCanonical s) (ds : List Nat) : CanonicalResult (add s ds) := by
        unfold add
        split
        · exact .error
        split
        · exact .error
        next ha => exact .ok (h.appendWitness ha).finishMem
      split
      · exact hadd h _
      have h1 := canonical_onceRead h (e := e) (m := m) (lane := lane) (stamp := a.stamp) (base := a.lo) (align := 32)
        (spans := spansOf a.lo (32 * descCount kind) 32)
      split
      · exact .error
      next hr =>
        rw [hr] at h1
        exact .ok h1
      next hr =>
        rw [hr] at h1
        exact hadd h1 _
    · exact .error

theorem answered_wstat {x : Op} {att : Bool} : Answered s (wstat s x att) :=
  answered_onceInstr he fun _ _ _ _ _ h => by
    dsimp only
    split
    · exact .error
    · exact .ok h.modWarp.drawn.finishMem

end

/-! ## The events -/

theorem answered_launchDispatch : Answered s (execLaunchDispatch s) := .next fun h => h.takeDuals.dispatch

theorem answered_launchCompletion : Answered s (execLaunchCompletion s) := by
  unfold execLaunchCompletion
  dsimp only
  split
  · exact .next id
  split
  · exact .next id
  split
  · exact .next fun h => h.modLaunch.lowerCounter
  · exact .next fun h => h.modLaunch

theorem answered_releaseGateDelivery : Answered s (execReleaseGateDelivery s) := by
  unfold execReleaseGateDelivery
  split
  · exact .next fun h => h.fwDeliver
  split
  · exact .next id
  split
  · exact .next id
  split
  · exact .next id
  split
  · exact .next fun h => h.refusedWrite.modLaunch
  · exact .next fun h => (h.homeWrite _ _).modLaunch

theorem answered_completionRecordWrite : Answered s (execCompletionRecordWrite s) := by
  unfold execCompletionRecordWrite
  split
  · exact .next id
  split
  · extract_lets status q bs s1 s2
    have h2 (h : MemoryCanonical s) : MemoryCanonical s2 := h.ringWrite.same rfl
    split
    · exact .next id
    · exact .next fun h => (h2 h).setQueue.bury
  · exact .next id

theorem answered_rerunDispatch : Answered s (execRerunDispatch s) := by
  unfold execRerunDispatch
  split
  · exact .next id
  split
  · exact .next fun h => h.setLaunch.dispatch
  · exact .next id

theorem answered_witnessSubmission : Answered s (execWitnessSubmission s) := by
  unfold execWitnessSubmission
  extract_lets u
  split
  · exact .next fun h => h
  split
  · exact .next fun h => h
  extract_lets s1 p
  have h1 (h : MemoryCanonical s) : MemoryCanonical s1 := h.closeOuts
  split
  · exact .next fun h => (h1 h).modLaunch
  split
  · exact .next fun h => (h1 h).endLaunch
  split
  · exact .next fun h => (h1 h).endLaunch
  · exact .next fun h => (h1 h).submit

theorem answered_checkOf {kind : Nat} {f : Check → Party → List Opd → State} (hf : ∀ c p os, MemoryCanonical s → MemoryCanonical (f c p os)) :
    Answered s (checkOf s kind f) := by
  unfold checkOf
  split
  · exact .next id
  split
  · exact .next id
  · exact .next (hf _ _ _)

theorem answered_projCheck : Answered s (execProjCheck s) :=
  answered_checkOf fun _ _ _ h => by
    split
    · exact h.judge
    · exact h.judge

theorem answered_orderCheck : Answered s (execOrderCheck s) :=
  answered_checkOf fun _ _ _ h => by
    split
    · exact h.judge
    · exact h.judge

theorem answered_residualCheck : Answered s (execResidualCheck s) :=
  answered_checkOf fun _ _ _ h => by
    split
    · exact h.judge
    · exact h.judge

theorem answered_prefixCheck : Answered s (execPrefixCheck s) :=
  answered_checkOf fun _ _ _ h => by
    split
    · exact h.modLaunch.judge
    · exact h.judge

theorem answered_dualComparison : Answered s (execDualComparison s) := by
  unfold execDualComparison
  dsimp only
  split
  · exact .next id
  split
  · exact .next id
  split
  · exact .next id
  split
  · exact .next fun h => h.failRun
  split
  · exact .next id
  split
  · exact .next fun h => h.dropTwin.settleChecks
  · exact .next fun h => h.failRun

theorem answered_shadowMismatch : Answered s (execShadowMismatch s) := by
  unfold execShadowMismatch
  split
  · exact .next id
  split
  · exact .next id
  exact .ite (.next fun h => h.failRun) (.next id)

theorem answered_weightWriteWindowOpen : Answered s (execWeightWriteWindowOpen s) := by
  unfold execWeightWriteWindowOpen
  dsimp only
  split
  · exact .next id
  · exact .next fun h => h.modDie

end Sys2Proof.Machine
end

section
/-!
What the conversions and cross-lane instructions, and the steps of power, faults, merging and pre-emption leave of memory's canonical form.
-/
namespace Sys2Proof.Machine

variable {s t : State}

/-! ## Families of register-computing instructions -/

section
variable {e : Env} (he : s.env? = some e)
include he

theorem answered_packedAlu {opc : Nat} {op : FOp} {x : Op} : Answered s (packedAlu s opc op x) := answered_alu he
theorem answered_convAlu {opc : Nat} {x : Op} : Answered s (convAlu s opc x) := answered_alu he
theorem answered_endAlu {opc : Nat} {hi : Bool} {x : Op} : Answered s (endAlu s opc hi x) := answered_alu he
theorem answered_voteAlu {x : Op} : Answered s (voteAlu s x) := answered_alu he

theorem answered_drawAlu {opc : Nat} {x : Op} {strm : Srcs → SV} {f : Srcs → List Nat → Out} {vague : Srcs → Out} :
    Answered s (drawAlu s opc x strm f vague) := by
  unfold drawAlu
  exact answered_alu he

theorem answered_crossAlu {opc : Nat} {x : Op} {lit : Nat} {f : (Int → SV) → Env → Nat → Srcs → Out} : Answered s (crossAlu s opc x lit f) :=
  answered_alu he

theorem answered_permAlu {x : Op} : Answered s (permAlu s x) := answered_crossAlu he
theorem answered_shiftAlu {x : Op} : Answered s (shiftAlu s x) := answered_crossAlu he
theorem answered_bcastAlu {x : Op} : Answered s (bcastAlu s x) := answered_crossAlu he

end

/-! ## Power and faults -/

section
variable (h : MemoryCanonical s) {k slot : Nat}
include h

theorem MemoryCanonical.writeImage {bs : List Byte} : MemoryCanonical (s.writeImage bs) := ⟨wf_memWrite _ _ h.1, h.2⟩
theorem MemoryCanonical.startFirmware {d : Nat} : MemoryCanonical (s.startFirmware d) := h.setCore.modDie

theorem MemoryCanonical.loadImage {bs : List Byte} : MemoryCanonical (s.loadImage bs) := by
  unfold State.loadImage
  have h1 : MemoryCanonical (s.writeImage bs) := h.writeImage
  have h2 : MemoryCanonical { s.writeImage bs with recovery := false } := h1
  refine MemoryCanonical.ite ?_ (h.same rfl)
  exact h2.foldl fun _ _ h => h.startFirmware

theorem MemoryCanonical.answer {v : Nat} : MemoryCanonical (s.answer v) := h.same rfl

/-! ## Merging and pre-emption -/

theorem MemoryCanonical.regroupFails : MemoryCanonical (s.regroupFails k slot) := by
  unfold State.regroupFails
  split
  · exact h
  split
  · exact h
  split
  · exact h
  · exact h.setPred.done

theorem MemoryCanonical.preemptWrite {die v : Nat} : MemoryCanonical (s.preemptWrite die v) := by
  unfold State.preemptWrite
  refine h.ite ?_
  split
  · exact h.askSave
  · exact h.askDrain
  · exact h.askDiscard
  · exact h

theorem MemoryCanonical.retireDone : MemoryCanonical (s.retireDone k slot) :=
  h.foldl fun _ _ h => by
    split
    · exact h
    split
    · exact h.done
    · exact h.modWarp.acquire.done
    · exact h

theorem MemoryCanonical.landMsgs {x : Landing} {n : Nat} {w : Warp} {ids : List (Nat × Nat)} : MemoryCanonical (s.landMsgs x n w ids) := h.same rfl

theorem MemoryCanonical.land {ls : List Landing} {x : Landing} : MemoryCanonical (State.land ls s x) := by
  unfold State.land
  extract_lets
  rename_i s1 ids s2
  have h1 : MemoryCanonical s1 := h.same rfl
  have h2 : MemoryCanonical s2 := h1.foldl fun _ _ h => h.modCore
  exact MemoryCanonical.useDie (h2.foldl fun _ _ h => h.landMsgs)

theorem MemoryCanonical.retest {x : Landing} : MemoryCanonical (s.retest x) := by
  unfold State.retest
  split
  · exact h
  · exact h.modCore

end

/-! ## The events -/

theorem answered_packagePowerOn : Answered s (execPackagePowerOn s) := by
  unfold execPackagePowerOn
  split
  · exact .next id
  extract_lets dig s1
  have h1 (h : MemoryCanonical s) : MemoryCanonical s1 := h.same rfl
  exact .next fun h => (h1 h).loadImage

theorem answered_firmwareWatchdogReset : Answered s (execFirmwareWatchdogReset s) := by
  unfold execFirmwareWatchdogReset
  split
  · exact .next id
  split
  · exact .next fun h => h.writeImage.startFirmware
  · exact .next fun h => h.same rfl

theorem answered_recoveryMailboxWrite : Answered s (execRecoveryMailboxWrite s) := by
  unfold execRecoveryMailboxWrite
  split
  · exact .next id
  dsimp only
  split
  · exact .next fun h => (h.same (by rfl)).loadImage
  · exact .next id

theorem answered_dieReset : Answered s (execDieReset s) := .next fun h => h.resetDie

theorem answered_errorDetected {err : ErrorReport} : Answered s (execErrorDetected err s) := by
  unfold execErrorDetected
  split
  · exact .next id
  · exact .next fun h => (h.modDie.ite h).raiseError

theorem answered_temperatureSample : Answered s (execTemperatureSample s) := by
  unfold execTemperatureSample
  dsimp only
  split
  · exact .next fun h => h.modCore.dieError
  · exact .next fun h => h.modCore

theorem answered_doldrumsScanStart : Answered s (execDoldrumsScanStart s) := by
  unfold execDoldrumsScanStart
  dsimp only
  split
  · exact .next id
  · exact .next fun h => h.modCore

theorem answered_scanComplete : Answered s (execScanComplete s) := by
  unfold execScanComplete
  dsimp only
  split
  · exact .next id
  split
  · exact .next fun h => h.modDie.modCore
  · exact .next fun h => h.modDie.logError.modCore.modDie

theorem answered_scanAbort : Answered s (execScanAbort s) := by
  unfold execScanAbort
  dsimp only
  split
  · exact .next fun h => h.modCore
  · exact .next id

theorem answered_clusterMapUpdate : Answered s (execClusterMapUpdate s) := by
  unfold execClusterMapUpdate
  extract_lets d n x i j ks spare entry s1
  have h1 (h : MemoryCanonical s) : MemoryCanonical s1 := h.setDie
  split
  · exact .next fun h => h
  exact .next fun h => MemoryCanonical.drawn ((h1 h).foldl fun _ _ h => h.modCore)

theorem answered_kaushInboundAccess {acc : PeerAccess} : Answered s (execKaushInboundAccess acc s) := by
  unfold execKaushInboundAccess
  extract_lets n a
  clear_value n
  split
  · exact .next fun h => h.logError
  split
  · exact .next fun h => h.memApply
  · exact .next fun h => h.same rfl

theorem answered_attestationRequest {req : AttRequest} : Answered s (execAttestationRequest req s) := by
  unfold execAttestationRequest
  split
  · exact .next fun h => h.same rfl
  · exact .next id

theorem answered_attestationReportWrite : Answered s (execAttestationReportWrite s) := by
  unfold execAttestationReportWrite
  split
  · exact .next id
  next req _ =>
  extract_lets r body report
  split
  · exact .next id
  refine .next fun h => ?_
  have h1 := h.homeWrite (.sys (req.addr.toNat % 2 ^ 47)) report
  exact h1.same rfl

theorem answered_pkglim {write : Option Nat} : Answered s (execPkglim write s) := by
  unfold execPkglim
  split
  · exact .next fun h => h.same rfl
  · exact .next fun h => h.answer

theorem answered_dielim {die : Nat} {write : Option Nat} : Answered s (execDielim die write s) := by
  unfold execDielim
  dsimp only
  split
  · exact .next fun h => h.modDie
  · exact .next fun h => h.answer

theorem answered_temps : Answered s (execTemps s) := by
  unfold execTemps
  extract_lets hot
  exact .next fun h => MemoryCanonical.drawn (MemoryCanonical.answer (h.foldl fun _ _ h => h.answer))

theorem answered_fread : Answered s (execFread s) := by
  unfold execFread
  split
  · exact .next fun h => h.answer
  dsimp only
  split
  · exact .next fun h => h.answer
  · exact .next fun h => h.answer.drawn

theorem answered_fack : Answered s (execFack s) := .next fun h => h.same rfl

theorem answered_sleepExpiry : Answered s (execSleepExpiry s) := by
  unfold execSleepExpiry
  dsimp only
  split
  · exact .next id
  split
  · exact .next fun h => h.stall.modDie
  · exact .next id

theorem answered_regangMerge : Answered s (execRegangMerge s) := by
  unfold execRegangMerge
  extract_lets k slot
  split
  · exact .next fun h => h
  split
  · exact .next fun h => h
  dsimp only
  split
  · exact .next fun h => h
  split
  · exact .next fun h => h.modWarp.retire
  · exact .next fun h => h.foldl fun _ _ h => by
      split
      · exact h.takeTrap
      · exact h

theorem answered_regroupFusion : Answered s (execRegroupFusion s) := by
  unfold execRegroupFusion
  extract_lets k slot trap share
  have htrap {s : State} (h : MemoryCanonical s) (sl gg n : Nat) : MemoryCanonical (trap s sl gg n) := by
    unfold trap
    split
    · exact h.takeTrap
    · exact h
  split
  · exact .next fun h => h
  split
  · exact .next fun h => h
  split
  · exact .next fun h => h.regroupFails
  split
  · exact .next fun h => h
  extract_lets pc width low x keep gone s1
  have h1 (h : MemoryCanonical s) : MemoryCanonical s1 := h.modTeam
  split
  · exact .next fun h => htrap (htrap h _ _ _) _ _ _
  clear_value width
  split
  · exact .next fun h => h.regroupFails.regroupFails
  · exact .next fun h => (h1 h).modCore

theorem answered_preemptSave : Answered s (execPreemptSave s) := .next fun h => h.askSave
theorem answered_preemptDrain : Answered s (execPreemptDrain s) := .next fun h => h.askDrain
theorem answered_preemptDiscard : Answered s (execPreemptDiscard s) := .next fun h => h.askDiscard

theorem answered_teamSave : Answered s (execTeamSave s) := by
  unfold execTeamSave
  dsimp only
  split
  · exact .next id
  split
  · exact .next id
  split
  · exact .next fun h => h.retireDone
  · exact .next fun h => h.retireDone.removeTeam.same rfl

theorem answered_teamRestore : Answered s (execTeamRestore s) := by
  unfold execTeamRestore
  split
  · split
    · exact .next id
    extract_lets group
    split
    · exact .next id
    next c ls _ =>
      have h1 (h : MemoryCanonical s) : MemoryCanonical { s with saved := s.saved.filter fun y => ¬ group.contains y } := h.same rfl
      exact .next fun h => MemoryCanonical.modLaunch (((h1 h).foldl fun _ _ h => h.land).foldl fun _ _ h => h.retest)
  · exact .next id

end Sys2Proof.Machine
end

section
/-!
What the sequencer's instructions and steps leave of memory's canonical form.
-/
namespace Sys2Proof.Machine

variable {s t : State}

section
variable (h : MemoryCanonical s) {d : Nat} {r : SqRun} {p : Party}
include h

/-! ## Runs -/

theorem MemoryCanonical.setRun : MemoryCanonical (s.setRun d r) := h.modDie
theorem MemoryCanonical.wakeAll : MemoryCanonical s.wakeAll := h.foldl fun _ _ h => h.wakeCore
theorem MemoryCanonical.endRun {state : Nat} : MemoryCanonical (s.endRun d r state) := h.modDie.lowerCounter.wakeAll

/-! ## What the sequencer writes -/

omit h in
theorem MemoryCanonical.seqWrite {fuel va : Nat} {bs : List Byte} (h : MemoryCanonical s) (ht : State.seqWrite p fuel va bs s = some t) :
    MemoryCanonical t := by
  induction fuel generalizing s va bs with
  | zero =>
    unfold State.seqWrite at ht
    cases ht
    exact h
  | succ fuel ih =>
    unfold State.seqWrite at ht
    split at ht
    · cases ht
      exact h
    · obtain ⟨pa, -, hw⟩ := Option.bind_eq_some_iff.mp ht
      exact ih h.memApply hw

theorem MemoryCanonical.put {va : Nat} {bs : List Byte} (ht : s.put p va bs = some t) : MemoryCanonical t := h.seqWrite ht
theorem MemoryCanonical.putVec {va : Nat} {vs : List Nat} (ht : s.putVec p r va vs = some t) : MemoryCanonical t := h.put ht

theorem MemoryCanonical.putSample {x : Sample} (ht : s.putSample p r x = some t) : MemoryCanonical t := by
  obtain ⟨s1, h1, rfl⟩ := Option.map_eq_some_iff.mp ht
  exact (h.put h1).ite (h.put h1).drawn

omit h in
theorem MemoryCanonical.putSamples {xs : List Sample} (h : MemoryCanonical s) (ht : putSamples p r xs s = some t) : MemoryCanonical t := by
  induction xs generalizing s with
  | nil =>
    unfold Machine.putSamples at ht
    cases ht
    exact h
  | cons x xs ih =>
    unfold Machine.putSamples at ht
    obtain ⟨s1, h1, h2⟩ := Option.bind_eq_some_iff.mp ht
    exact ih (h.putSample h1) h2

theorem MemoryCanonical.abandon {state : Nat} (ht : s.abandon d r state = some t) : MemoryCanonical t := by
  obtain ⟨s1, h1, rfl⟩ := Option.map_eq_some_iff.mp ht
  exact (h.putSamples h1).endRun

theorem MemoryCanonical.seqCheck {kind : Nat} {comb : List CombElem} {step : List StepElem} : MemoryCanonical (s.seqCheck d r kind comb step) := by
  unfold State.seqCheck
  split
  · exact h.same rfl
  · exact h

theorem MemoryCanonical.keepSteps {es : List StepElem} : MemoryCanonical (s.keepSteps d r es) := by
  unfold State.keepSteps
  split
  · exact h.modLaunch
  · exact h

/-! ## Stages and rounds -/

omit h in
theorem MemoryCanonical.formStage {i : Nat} {xs : List Sample} {acc : List CombElem} {q : State × List CombElem} (h : MemoryCanonical s)
    (ht : formStage p r i xs acc s = some q) : MemoryCanonical q.1 := by
  induction xs generalizing s acc with
  | nil =>
    unfold Machine.formStage at ht
    cases ht
    exact h
  | cons x xs ih =>
    unfold Machine.formStage at ht
    obtain ⟨es, -, h1⟩ := Option.bind_eq_some_iff.mp ht
    obtain ⟨s1, h2, h3⟩ := Option.bind_eq_some_iff.mp h1
    exact ih (h.putVec h2) h3

theorem MemoryCanonical.combine {i : Nat} (ht : s.combine d r i = some t) : MemoryCanonical t := by
  unfold State.combine at ht
  split at ht
  · cases ht
    exact h
  · obtain ⟨q, h1, rfl⟩ := Option.map_eq_some_iff.mp ht
    exact (h.formStage h1).seqCheck

omit h in
theorem MemoryCanonical.putBlocks {i : Nat} {xs : List Sample} (h : MemoryCanonical s) (ht : putBlocks p r i xs s = some t) : MemoryCanonical t := by
  induction xs generalizing s with
  | nil =>
    unfold Machine.putBlocks at ht
    cases ht
    exact h
  | cons x xs ih =>
    unfold Machine.putBlocks at ht
    obtain ⟨s1, h1, h2⟩ := Option.bind_eq_some_iff.mp ht
    exact ih (h.put h1) h2

theorem MemoryCanonical.recordStage {i : Nat} {xs : List Sample} (ht : s.recordStage d r i xs = some t) : MemoryCanonical t := by
  unfold State.recordStage at ht
  split at ht
  · split at ht
    · cases ht
    dsimp only at ht
    split at ht
    · cases ht
    · cases ht
      exact MemoryCanonical.setRun (h.foldl fun _ _ h => h.recordChild)
  · cases ht

theorem MemoryCanonical.launchStage {i : Nat} (ht : s.launchStage d r i = some t) : MemoryCanonical t := by
  obtain ⟨s1, h1, h2⟩ := Option.bind_eq_some_iff.mp ht
  exact (h.putBlocks h1).recordStage h2

theorem MemoryCanonical.clampRound {q : State × SqRun} (ht : s.clampRound d r = some q) : MemoryCanonical q.1 := by
  unfold State.clampRound at ht
  obtain ⟨s1, h1, rfl⟩ := Option.map_eq_some_iff.mp ht
  exact (h.putSamples h1).setRun

theorem MemoryCanonical.putDecision {c : SqDecision} (ht : s.putDecision p r c = some t) : MemoryCanonical t := by
  obtain ⟨s1, h1, ht⟩ := Option.bind_eq_some_iff.mp ht
  obtain ⟨s2, h2, ht⟩ := Option.bind_eq_some_iff.mp ht
  obtain ⟨s3, h3, ht⟩ := Option.bind_eq_some_iff.mp ht
  have hs1 := h.putVec h1
  have hs2 : MemoryCanonical s2 := by
    split at h2
    · exact hs1.putVec h2
    · cases h2
      exact hs1
  have hs3 : MemoryCanonical s3 := by
    split at h3
    · exact hs2.putVec h3
    · cases h3
      exact hs2
  exact hs3.putSample ht

omit h in
theorem MemoryCanonical.decideAll {xs : List Sample} {acc : List SqDecision} {q : State × List SqDecision} (h : MemoryCanonical s)
    (ht : decideAll p r xs acc s = some q) : MemoryCanonical q.1 := by
  induction xs generalizing s acc with
  | nil =>
    unfold Machine.decideAll at ht
    cases ht
    exact h
  | cons x xs ih =>
    unfold Machine.decideAll at ht
    obtain ⟨c, -, h1⟩ := Option.bind_eq_some_iff.mp ht
    obtain ⟨s1, h2, h3⟩ := Option.bind_eq_some_iff.mp h1
    exact ih (h.putDecision h2) h3

theorem MemoryCanonical.decideRound (ht : s.decideRound d r = some t) : MemoryCanonical t := by
  unfold State.decideRound at ht
  obtain ⟨q, h1, rfl⟩ := Option.map_eq_some_iff.mp ht
  have hq := ((h.decideAll h1).seqCheck (d := d) (r := r) (kind := 7) (comb := q.2.flatMap (·.combs)) (step := [])).seqCheck
    (d := d) (r := r) (kind := 4) (comb := []) (step := q.2.map (·.elem))
  exact hq.keepSteps.setRun.ite hq.keepSteps.endRun

/-- A step that may not be made leaves the state. -/
theorem MemoryCanonical.getD {o : Option State} (ho : ∀ t, o = some t → MemoryCanonical t) : MemoryCanonical (o.getD s) := by
  cases o with
  | none => exact h
  | some t => exact ho t rfl

theorem canonicalResult_sqStart {e : Env} {m : MemWait} {lane a dst stamp : Nat} {mask : Mask} :
    CanonicalResult (sqStart s e m lane a dst mask stamp) := by
  unfold sqStart
  extract_lets di x fail q
  have h1 := canonical_onceRead h (e := e) (m := m) (lane := lane) (stamp := stamp) (base := a) (align := 64) (spans := spansOf a 64 32)
  split
  · exact .error
  next hr =>
    rw [hr] at h1
    exact .ok h1
  next s1 hr =>
    rw [hr] at h1
    have h1 : MemoryCanonical s1 := h1
    extract_lets hd
    split
    · exact .error
    split
    · exact .error
    split
    · split
      · exact .error
      have h2 := canonical_onceRead h1 (e := e) (m := m) (lane := lane) (stamp := 0) (base := (a + 64) % 2 ^ 64) (align := 64)
        (spans := spansOf (a + 64) (64 * hd.samples) 32)
      split
      · exact .error
      next hr2 =>
        rw [hr2] at h2
        exact .ok h2
      next s2 hr2 =>
        rw [hr2] at h2
        have h2 : MemoryCanonical s2 := h2
        dsimp only
        split
        · exact .error
        split
        · exact .error
        split
        · exact .ok (h2.ite h2.modDie).stall
        split
        · exact .ok h2.stall
        · exact .ok (h2.modDie.raiseCounter.modWarp.ite h2.modDie.raiseCounter.modWarp.endRun).finishMem
    · exact .error

end

/-! ## The instructions -/

section
variable {e : Env} (he : s.env? = some e)
include he

theorem answered_sqload {x : X96} : Answered s (execSqload x s) := by
  unfold execSqload
  extract_lets o
  exact answered_onceInstr he fun s e r act lane h => by
    extract_lets m src a slot fail
    have h1 := canonical_onceRead h (e := e) (m := m) (lane := lane) (stamp := (sv1 src.a).stamp) (base := a) (align := 8) (spans := spansOf a 32 8)
    split
    · exact .error
    next hr =>
      rw [hr] at h1
      exact .ok h1
    next s1 hr =>
      rw [hr] at h1
      have h1 : MemoryCanonical s1 := h1
      extract_lets hd st
      split
      · exact .error
      have h2 := canonical_onceRead h1 (e := e) (m := m) (lane := lane) (stamp := 0) (base := (a + 32) % 2 ^ 64) (align := 8)
        (spans := spansOf (a + 32) (8 * methodLen st) 8)
      split
      · exact .error
      next hr2 =>
        rw [hr2] at h2
        exact .ok h2
      next s2 hr2 =>
        rw [hr2] at h2
        have h2 : MemoryCanonical s2 := h2
        split
        · exact .error
        split
        · exact .error
        · exact .ok h2.modDie.finishMem

theorem answered_sqstart {x : X96} : Answered s (execSqstart x s) := by
  unfold execSqstart
  extract_lets o
  exact answered_onceInstr he fun _ _ _ _ _ h => by
    extract_lets a mark
    split
    · exact .ok (h.stall.modGang)
    · exact canonicalResult_sqStart h

theorem answered_sqHandled {x : Op} {detBars : Bool} {f : State → Env → MemWait → SV → SqDone × Bool → State}
    (hf : ∀ s e m v q, MemoryCanonical s → MemoryCanonical (f s e m v q)) : Answered s (sqHandled s x detBars f) :=
  answered_onceInstr he fun _ _ _ _ _ h => by
    dsimp only
    split
    · exact .error
    split
    · exact .error
    · exact .ok (hf _ _ _ _ _ h)

theorem answered_sqwait {x : X96} : Answered s (execSqwait x s) :=
  answered_sqHandled he fun _ _ _ _ _ h => h.stall.ite h.acquire.modWarp.finishMem

theorem answered_sqstat {x : X96} : Answered s (execSqstat x s) := answered_sqHandled he fun _ _ _ _ _ h => h.modWarp.finishMem
theorem answered_sqabort {x : X96} : Answered s (execSqabort x s) := answered_sqHandled he fun _ _ _ _ _ h => (h.modDie.ite h).finishMem

end

/-! ## The events -/

theorem answered_solverRunStart : Answered s (execSolverRunStart s) := by
  unfold execSolverRunStart
  dsimp only
  split
  · split
    · exact .next fun h => h.modDie
    split
    · split
      next hs => exact .next fun h => (canonicalResult_sqStart h).of_ok hs
      · exact .next fun h => h.modDie.takeTrap
    · exact .next id
  · exact .next id

theorem answered_solverStageLaunch : Answered s (execSolverStageLaunch s) := by
  unfold execSolverStageLaunch
  extract_lets di
  split
  · exact .next fun h => h
  split
  · exact .next fun h => h
  split
  · exact .next fun h => h.getD fun _ ht => h.abandon ht
  split
  · exact .next fun h => h
  next s1 r1 hc =>
    have h1 (h : MemoryCanonical s) : MemoryCanonical s1 := by
      split at hc
      · exact h.clampRound hc
      · cases hc
        exact h
    split
    · exact .next fun h => (h1 h).endRun
    split
    · refine .next fun h => h.getD fun _ ht => ?_
      obtain ⟨s2, h2, h3⟩ := Option.bind_eq_some_iff.mp ht
      exact ((h1 h).combine h2).launchStage h3
    · exact .next fun h => h.getD fun _ ht => (h1 h).launchStage ht

theorem answered_solverStageEnd : Answered s (execSolverStageEnd s) := by
  unfold execSolverStageEnd
  dsimp only
  split
  · exact .next fun h => h
  split
  · exact .next fun h => h
  split
  · exact .next fun h => h.getD fun _ ht => h.abandon ht
  split
  · exact .next fun h => h.getD fun _ ht => h.abandon ht
  split
  · exact .next fun h => h.getD fun _ ht => h.decideRound ht
  · exact .next fun h => h.getD fun _ ht => h.setRun.combine ht

theorem answered_combineWitnessCheck : Answered s (execCombineWitnessCheck s) := answered_checkOf fun _ _ _ h => h.judge
theorem answered_stepCheck : Answered s (execStepCheck s) := answered_checkOf fun _ _ _ h => h.judge

end Sys2Proof.Machine
end

section
/-!
What the system instructions, the fates of a fetch and the items of the agenda leave of memory's canonical form.
-/
namespace Sys2Proof.Machine

variable {s t : State}

/-! ## Control registers -/

section
variable (h : MemoryCanonical s) {die v k : Nat}
include h

theorem MemoryCanonical.leaderWrite {f : State → State} (hf : ∀ s, MemoryCanonical s → MemoryCanonical (f s)) :
    MemoryCanonical (s.leaderWrite die f) := (hf s h).ite h.violation

theorem MemoryCanonical.spanWrite {busy : Bool} {base size : Nat} {f : State → State} (hf : ∀ s, MemoryCanonical s → MemoryCanonical (f s)) :
    MemoryCanonical (s.spanWrite die busy base size f) := h.leaderWrite fun _ h => h.violation.ite (hf _ h)

theorem MemoryCanonical.sevWrite {c : Nat} : MemoryCanonical (s.sevWrite die c v) := by
  unfold State.sevWrite
  exact h.ite (h.modDie.violation.ite h.modDie)

theorem MemoryCanonical.leaseClaim : MemoryCanonical (s.leaseClaim die v) := MemoryCanonical.ite (h.same rfl) h
theorem MemoryCanonical.leaseRenew : MemoryCanonical (s.leaseRenew die v) := MemoryCanonical.ite (h.same rfl) h
theorem MemoryCanonical.scanWrite : MemoryCanonical (s.scanWrite v) := h.same rfl

theorem MemoryCanonical.plimWrite : MemoryCanonical (s.plimWrite die v) := h.modDie.violation.ite h.modDie

theorem MemoryCanonical.thotWrite : MemoryCanonical (s.thotWrite die v) := by
  unfold State.thotWrite
  extract_lets n n1 s1 s2
  have h2 : MemoryCanonical s2 := h.same rfl
  exact h2.violation.ite h2

theorem MemoryCanonical.note : MemoryCanonical (s.note k v) := h.record

theorem MemoryCanonical.csrWrite {u : CsrUser} {n : Nat} : MemoryCanonical (s.csrWrite u n v) := by
  unfold State.csrWrite
  extract_lets di mod
  have hmod (f : Die → Die) : MemoryCanonical (mod f) := h.modDie
  refine h.violation.ite (h.sevWrite.ite ?_)
  split
  · exact hmod _
  · exact hmod _
  · split
    · exact h.modWarp
    · exact h
  · exact hmod _
  · exact hmod _
  · exact h.preemptWrite
  · exact h.leaseClaim
  · exact h.leaseRenew
  · exact hmod _
  · exact hmod _
  · exact h.fqHeadTo
  · exact h.fqRetry
  · exact h.fqDeliver
  · exact (hmod _).ite h
  · exact h.spanWrite fun _ h => h.same rfl
  · exact h.spanWrite fun _ h => h.same rfl
  · exact h.spanWrite fun _ h => h.same rfl
  · exact h.spanWrite fun _ h => h.same rfl
  · exact hmod _
  · exact h.plimWrite
  · exact h.leaderWrite fun _ h => h.modDie
  · exact h.thotWrite
  · exact h.leaderWrite fun _ h => h.scanWrite
  · exact h.note
  · exact (hmod _).note.ite h
  · exact h.leaderWrite fun _ h => h.same rfl
  · exact h.qcommit
  · exact h.spanWrite fun _ h => h.same rfl
  · exact h.spanWrite fun _ h => h.same rfl
  · exact h

/-! ## The items of the agenda -/

theorem MemoryCanonical.scheduled {rest : List Sched} : MemoryCanonical { s with agenda := rest } := h.same rfl
theorem MemoryCanonical.starting {pace : Option Nat} {slot g : Nat} : MemoryCanonical (s.starting pace k slot g) := h.same rfl
theorem MemoryCanonical.startWarp {slot : Nat} : MemoryCanonical (s.startWarp k slot) := h.modWarp
theorem MemoryCanonical.tick {n : Nat} : MemoryCanonical (s.tick die n) := h.modDie

theorem MemoryCanonical.tlbFill {ctx page : Nat} : MemoryCanonical (s.tlbFill die ctx page) := by
  unfold State.tlbFill
  split
  · exact h.cache
  · exact h

theorem MemoryCanonical.fetchAhead {uid : Option Nat} {pa : Nat} : MemoryCanonical (s.fetchAhead k uid pa) := by
  unfold State.fetchAhead
  extract_lets runs
  exact h.modCore.ite h

theorem MemoryCanonical.fetchDrop {uid : Option Nat} {pa : Nat} : MemoryCanonical (s.fetchDrop k uid pa) := h.modCore

end

/-! ## The instructions -/

theorem canonicalResult_sysReads {opc : Nat} {x : Op} {f : State → Env → Except Trap State} {e : Env} (h : CanonicalResult (f s e)) :
    CanonicalResult (sysReads opc x f s e) := by
  unfold sysReads
  split
  · exact .error
  · exact h

section
variable {e : Env} (he : s.env? = some e)
include he

theorem answered_systemInstr {len : Nat} {f : State → Env → Except Trap State} (hf : ∀ s e, MemoryCanonical s → CanonicalResult (f s e)) :
    Answered s (systemInstr s len f) :=
  answered_instr2 he fun h => by
    split
    · exact h
    · exact h.charge.orTrap (hf _ _ h.charge)

theorem answered_csrr {x : X96} : Answered s (execCsrr x s) :=
  answered_systemInstr he fun _ _ h => .ok (h.ite h.drawn).modWarp.done

theorem answered_csrw {x : X96} : Answered s (execCsrw x s) :=
  answered_systemInstr he fun _ _ h => canonicalResult_sysReads (.ok h.drawn.done.csrWrite)

theorem answered_softTrap {len code : Nat} : Answered s (softTrap s len code) := answered_issue he fun _ _ _ _ => .error

theorem answered_rte {skip : Bool} : Answered s (rte s skip) :=
  answered_systemInstr he fun _ _ h => by
    split
    · exact .error
    · exact .ok h.modWarp.partGang.settleTeam

theorem answered_halt {x : C32R} : Answered s (execHalt x s) :=
  answered_systemInstr he fun _ _ h => by
    split
    · exact .ok h.stall.modCore
    · exact .ok h.teamError

theorem answered_tlbi {x : Op} {drop : State → Env → TlbEnt → Bool} : Answered s (tlbi s x drop) :=
  answered_systemInstr he fun _ _ h => canonicalResult_sysReads (by
    extract_lets gone s1 marks
    have h1 : MemoryCanonical s1 := h.same rfl
    exact .ok (h1.done.ite h1.stall))

theorem answered_waiti {x : C32R} : Answered s (execWaiti x s) :=
  answered_systemInstr he fun _ _ h => by
    split
    · exact .ok h.done
    · exact .ok h.stall

theorem answered_illegalInstruction {detail : Nat} : Answered s (execIllegalInstruction detail s) := by
  unfold execIllegalInstruction
  exact answered_instr he fun _ => .error

theorem answered_instructionFetchFault {reason : Nat} : Answered s (execInstructionFetchFault reason s) := answered_instr he fun _ => .error

end

/-! ## The events -/

theorem answered_waitiWake : Answered s (execWaitiWake s) := by
  unfold execWaitiWake
  dsimp only
  split
  · exact .next id
  · exact .next fun h => h.foldl fun _ _ h => by
      split
      · exact h.done
      · exact h

theorem answered_sevWrite : Answered s (execSevWrite s) := .next fun h => h.csrWrite.ite h
theorem answered_stagingPoolConfigWrite : Answered s (execStagingPoolConfigWrite s) := .next fun h => h.csrWrite
theorem answered_savePoolConfigWrite : Answered s (execSavePoolConfigWrite s) := .next fun h => h.csrWrite
theorem answered_peerWindowConfigWrite : Answered s (execPeerWindowConfigWrite s) := .next fun h => h.csrWrite
theorem answered_fwmodeWrite : Answered s (execFwmodeWrite s) := .next fun h => h.csrWrite
theorem answered_lclaimWrite : Answered s (execLclaimWrite s) := .next fun h => h.csrWrite
theorem answered_lrenewWrite : Answered s (execLrenewWrite s) := .next fun h => h.csrWrite
theorem answered_plimWrite : Answered s (execPlimWrite s) := .next fun h => h.csrWrite
theorem answered_thotWrite : Answered s (execThotWrite s) := .next fun h => h.csrWrite
theorem answered_scancfgWrite : Answered s (execScancfgWrite s) := .next fun h => h.csrWrite
theorem answered_frappWrite : Answered s (execFrappWrite s) := .next fun h => h.csrWrite
theorem answered_finjWrite : Answered s (execFinjWrite s) := .next fun h => h.csrWrite

end Sys2Proof.Machine
end

section
/-!
The machine answers every step and keeps memory canonical: the meaning of each instruction, the fetch that leads to it, and the items of the agenda.
-/
namespace Sys2Proof.Proofs.Totality
open Sys2Proof.Machine

variable {s t : State}

/-! ## Every meaning answers -/

/-- An event answers in any state, an instruction or a fetch's fate where the focus is on a gang. -/
theorem answered_exec {i : Instr} (hi : isEventRow i = false → ∃ e, s.env? = some e) : Answered s (exec i s) := by
  cases i with
  | nop _ =>
    obtain ⟨e, he⟩ := hi rfl
    unfold exec
    exact answered_nop he
  | brC32 _ | brL64 _ =>
    obtain ⟨e, he⟩ := hi rfl
    unfold exec
    exact answered_branch he
  | briC32 _ | bri _ | calliC32 _ | calli _ =>
    obtain ⟨e, he⟩ := hi rfl
    unfold exec
    exact answered_branchTo he
  | callC32 _ | callL64 _ =>
    obtain ⟨e, he⟩ := hi rfl
    unfold exec
    exact answered_callRel he
  | ret _ =>
    obtain ⟨e, he⟩ := hi rfl
    unfold exec
    exact answered_ret he
  | join _ =>
    obtain ⟨e, he⟩ := hi rfl
    unfold exec
    exact answered_join he
  | yield _ =>
    obtain ⟨e, he⟩ := hi rfl
    unfold exec
    exact answered_yield he
  | regangC32 _ =>
    obtain ⟨e, he⟩ := hi rfl
    unfold exec
    exact answered_regangC32 he
  | regang _ =>
    obtain ⟨e, he⟩ := hi rfl
    unfold exec
    exact answered_regang he
  | regroupC32 _ | regroup _ =>
    obtain ⟨e, he⟩ := hi rfl
    unfold exec
    exact answered_regroup he
  | exit _ =>
    obtain ⟨e, he⟩ := hi rfl
    unfold exec
    exact answered_exit he
  | bkpt _ =>
    obtain ⟨e, he⟩ := hi rfl
    unfold exec
    exact answered_bkpt he
  | sleep _ =>
    obtain ⟨e, he⟩ := hi rfl
    unfold exec
    exact answered_sleep he
  | spawn _ =>
    obtain ⟨e, he⟩ := hi rfl
    unfold exec
    exact answered_spawn he
  | tlaunch _ =>
    obtain ⟨e, he⟩ := hi rfl
    unfold exec
    exact answered_tlaunch he
  | baraC32 _ | bara _ | barwC32 _ | barw _ | barsC32 _ | bars _ =>
    obtain ⟨e, he⟩ := hi rfl
    unfold exec
    exact answered_namedBarrier he
  | rbar _ =>
    obtain ⟨e, he⟩ := hi rfl
    unfold exec
    exact answered_rbar he
  | elect _ | matchLanes _ | redw _ | scanw _ | fdot _ | packn _ | qnt _ | dqnt _ | ivmk _ =>
    obtain ⟨e, he⟩ := hi rfl
    dsimp only [exec, execElect, execMatchLanes, execRedw, execScanw, execFdot, execPackn, execQnt, execDqnt, execIvmk]
    exact answered_alu he
  | quarter _ =>
    obtain ⟨e, he⟩ := hi rfl
    unfold exec
    exact answered_quarter he
  | handoffC32 _ | handoff _ =>
    obtain ⟨e, he⟩ := hi rfl
    unfold exec
    exact answered_handoffWith he
  | iaddC32 _ | iadd _ | isubC32 _ | isub _ | imulC32 _ | imul _ | imulhC32 _ | imulh _ | imulw _ | imad _ | idiv _ | irem _ | inegC32 _
  | ineg _ | iabsC32 _ | iabs _ | iminC32 _ | imin _ | imaxC32 _ | imax _ | isad _ | iclamp _ | idot _ | andC32 _ | and _ | orC32 _ | or _
  | xorC32 _ | xor _ | notC32 _ | not _ | andnC32 _ | andn _ | tern _ | shlC32 _ | shl _ | shrC32 _ | shr _ | sarC32 _ | sar _ | rolC32 _
  | rol _ | funs _ | bfx _ | bfi _ | brevC32 _ | brev _ | bperm _ | popcC32 _ | popc _ | clzC32 _ | clz _ | ctzC32 _ | ctz _ | iext _ =>
    obtain ⟨e, he⟩ := hi rfl
    unfold exec
    exact answered_intAlu he
  | iaddx _ | isubx _ | icmp _ | isel _ | lea _ | pand _ | por _ | pxor _ | pnot _ | pset _ | movC32 _ | mov _ | moviC32 _ | movi _ | movl _
  | srd _ | fcmp _ =>
    obtain ⟨e, he⟩ := hi rfl
    unfold exec
    exact answered_alu he
  | pget _ =>
    obtain ⟨e, he⟩ := hi rfl
    unfold exec
    exact answered_pget he
  | swr _ =>
    obtain ⟨e, he⟩ := hi rfl
    unfold exec
    exact answered_swr he
  | region _ =>
    obtain ⟨e, he⟩ := hi rfl
    unfold exec
    exact answered_region he
  | perm _ =>
    obtain ⟨e, he⟩ := hi rfl
    unfold exec
    exact answered_permAlu he
  | shiftwC32 _ | shiftw _ =>
    obtain ⟨e, he⟩ := hi rfl
    unfold exec
    exact answered_shiftAlu he
  | voteC32 _ | vote _ =>
    obtain ⟨e, he⟩ := hi rfl
    unfold exec
    exact answered_voteAlu he
  | rstep _ =>
    obtain ⟨e, he⟩ := hi rfl
    dsimp only [exec, execRstep]
    exact answered_crossAlu he
  | bcastC32 _ | bcast _ =>
    obtain ⟨e, he⟩ := hi rfl
    unfold exec
    exact answered_bcastAlu he
  | faddC32 _ | fadd _ | fsubC32 _ | fsub _ | fmulC32 _ | fmul _ | fma _ | fminC32 _ | fmin _ | fmaxC32 _ | fmax _ | fclass _ | fabsC32 _
  | fabs _ | fnegC32 _ | fneg _ | fsgn _ | frnd _ | fscale _ | flogb _ | fdiv _ | fsqrt _ | frcp _ | frsq _ | fexp _ | fexpm1 _ | flog _
  | flog1p _ | ferf _ | ferfc _ =>
    obtain ⟨e, he⟩ := hi rfl
    unfold exec
    exact answered_floatAlu he
  | fadd2 _ | fmul2 _ | fma2 _ =>
    obtain ⟨e, he⟩ := hi rfl
    unfold exec
    exact answered_packedAlu he
  | cvt _ | cvti _ | cvtf _ =>
    obtain ⟨e, he⟩ := hi rfl
    unfold exec
    exact answered_convAlu he
  | rnd _ | rndf _ =>
    obtain ⟨e, he⟩ := hi rfl
    dsimp only [exec, execRnd, execRndf]
    exact answered_drawAlu he
  | rndm _ =>
    obtain ⟨e, he⟩ := hi rfl
    unfold exec
    exact answered_drawAlu he
  | ivlo _ | ivhi _ =>
    obtain ⟨e, he⟩ := hi rfl
    unfold exec
    exact answered_endAlu he
  | ld _ | st _ | ldw _ | stw _ | ldwt _ | cstore _ | xload _ | atom _ | atoms _ | atomw _ | red _ | reds _ | cas _ =>
    obtain ⟨e, he⟩ := hi rfl
    unfold exec
    exact answered_memInstr he
  | ldsC32 _ | lds _ =>
    obtain ⟨e, he⟩ := hi rfl
    unfold exec
    exact answered_loadScr he
  | stsC32 _ | sts _ =>
    obtain ⟨e, he⟩ := hi rfl
    unfold exec
    exact answered_storeScr he
  | sld _ | sst _ =>
    obtain ⟨e, he⟩ := hi rfl
    unfold exec
    exact answered_memOnce he
  | ldsm _ =>
    obtain ⟨e, he⟩ := hi rfl
    unfold exec
    exact answered_ldsm he
  | stf _ =>
    obtain ⟨e, he⟩ := hi rfl
    unfold exec
    exact answered_stf he
  | fenceC32 _ | fence _ =>
    obtain ⟨e, he⟩ := hi rfl
    unfold exec
    exact answered_fence he
  | pref _ =>
    obtain ⟨e, he⟩ := hi rfl
    unfold exec
    exact answered_pref he
  | probe _ =>
    obtain ⟨e, he⟩ := hi rfl
    unfold exec
    exact answered_probe he
  | cctlEv _ | cctlEvall _ =>
    obtain ⟨e, he⟩ := hi rfl
    unfold exec
    exact answered_cctl he
  | cpy _ | reduce _ | summ _ =>
    obtain ⟨e, he⟩ := hi rfl
    dsimp only [exec, execCpy, execReduce, execSumm]
    exact answered_engineInstr he
  | kickC32 _ | kick _ =>
    obtain ⟨e, he⟩ := hi rfl
    unfold exec
    exact answered_kick he
  | boinit _ | boexp _ | boarr _ | bofree _ =>
    obtain ⟨e, he⟩ := hi rfl
    unfold exec
    exact answered_objInstr he
  | bowaitC32 _ | bowait _ =>
    obtain ⟨e, he⟩ := hi rfl
    unfold exec
    exact answered_bowait he
  | drain _ =>
    obtain ⟨e, he⟩ := hi rfl
    unfold exec
    exact answered_drain he
  | mma _ =>
    obtain ⟨e, he⟩ := hi rfl
    unfold exec
    exact answered_mma he
  | rsv _ =>
    obtain ⟨e, he⟩ := hi rfl
    unfold exec
    exact answered_rsv he
  | rsvfreeC32 _ | rsvfree _ =>
    obtain ⟨e, he⟩ := hi rfl
    unfold exec
    exact answered_rsvfree he
  | obld _ =>
    obtain ⟨e, he⟩ := hi rfl
    unfold exec
    exact answered_obld he
  | accrd _ =>
    obtain ⟨e, he⟩ := hi rfl
    unfold exec
    exact answered_accrd he
  | accst _ =>
    obtain ⟨e, he⟩ := hi rfl
    unfold exec
    exact answered_accst he
  | acczTake _ =>
    obtain ⟨e, he⟩ := hi rfl
    unfold exec
    exact answered_acczTake he
  | acczGive _ =>
    obtain ⟨e, he⟩ := hi rfl
    unfold exec
    exact answered_acczGive he
  | acczClr _ =>
    obtain ⟨e, he⟩ := hi rfl
    unfold exec
    exact answered_acczClr he
  | resolveC32 _ | resolve _ =>
    obtain ⟨e, he⟩ := hi rfl
    unfold exec
    exact answered_resolveTok he
  | sqload _ =>
    obtain ⟨e, he⟩ := hi rfl
    unfold exec
    exact answered_sqload he
  | sqstart _ =>
    obtain ⟨e, he⟩ := hi rfl
    unfold exec
    exact answered_sqstart he
  | sqwait _ =>
    obtain ⟨e, he⟩ := hi rfl
    unfold exec
    exact answered_sqwait he
  | sqstat _ =>
    obtain ⟨e, he⟩ := hi rfl
    unfold exec
    exact answered_sqstat he
  | sqabort _ =>
    obtain ⟨e, he⟩ := hi rfl
    unfold exec
    exact answered_sqabort he
  | msend _ =>
    obtain ⟨e, he⟩ := hi rfl
    unfold exec
    exact answered_msend he
  | witn _ =>
    obtain ⟨e, he⟩ := hi rfl
    unfold exec
    exact answered_witn he
  | wstatReg _ | wstatAtt _ =>
    obtain ⟨e, he⟩ := hi rfl
    unfold exec
    exact answered_wstat he
  | trapC32 _ | trap _ =>
    obtain ⟨e, he⟩ := hi rfl
    unfold exec
    exact answered_softTrap he
  | rteRep _ | rteSkip _ =>
    obtain ⟨e, he⟩ := hi rfl
    unfold exec
    exact answered_rte he
  | csrr _ =>
    obtain ⟨e, he⟩ := hi rfl
    unfold exec
    exact answered_csrr he
  | csrw _ =>
    obtain ⟨e, he⟩ := hi rfl
    unfold exec
    exact answered_csrw he
  | halt _ =>
    obtain ⟨e, he⟩ := hi rfl
    unfold exec
    exact answered_halt he
  | tlbiAll _ | tlbiCtx _ | tlbiPage _ =>
    obtain ⟨e, he⟩ := hi rfl
    unfold exec
    exact answered_tlbi he
  | waiti _ =>
    obtain ⟨e, he⟩ := hi rfl
    unfold exec
    exact answered_waiti he
  | errorDetected _ => exact answered_errorDetected
  | kaushInboundAccess _ => exact answered_kaushInboundAccess
  | attestationRequest _ => exact answered_attestationRequest
  | pkglim _ => exact answered_pkglim
  | dielim _ _ => exact answered_dielim
  | illegalInstruction _ =>
    obtain ⟨e, he⟩ := hi rfl
    unfold exec
    exact answered_illegalInstruction he
  | instructionFetchFault _ =>
    obtain ⟨e, he⟩ := hi rfl
    unfold exec
    exact answered_instructionFetchFault he
  | packagePowerOn => exact answered_packagePowerOn
  | firmwareWatchdogReset => exact answered_firmwareWatchdogReset
  | recoveryMailboxWrite => exact answered_recoveryMailboxWrite
  | dieReset => exact answered_dieReset
  | sqDoorbellWrite => exact answered_sqDoorbellWrite
  | cqDoorbellWrite => exact answered_cqDoorbellWrite
  | qcommitWrite => exact answered_qcommitWrite
  | launchRecordFetch => exact answered_launchRecordFetch
  | launchDispatch => exact answered_launchDispatch
  | quadAdmission => exact answered_quadAdmission
  | teamRerunAdmission => exact answered_teamRerunAdmission
  | formedWarpAdmission => exact answered_formedWarpAdmission
  | binTimerExpiry => exact answered_binTimerExpiry
  | aggregatorGroupClose => exact answered_aggregatorGroupClose
  | launchCompletion => exact answered_launchCompletion
  | witnessSubmission => exact answered_witnessSubmission
  | projCheck => exact answered_projCheck
  | orderCheck => exact answered_orderCheck
  | residualCheck => exact answered_residualCheck
  | prefixCheck => exact answered_prefixCheck
  | stepCheck => exact answered_stepCheck
  | shadowMismatch => exact answered_shadowMismatch
  | dualComparison => exact answered_dualComparison
  | rerunDispatch => exact answered_rerunDispatch
  | completionRecordWrite => exact answered_completionRecordWrite
  | releaseGateDelivery => exact answered_releaseGateDelivery
  | storeQueueDrain => exact answered_storeQueueDrain
  | outboundSend => exact answered_outboundSend
  | fetch => exact answered_fetch
  | evict => exact answered_evict
  | engineQueueApply => exact answered_engineQueueApply
  | atomicPerform => exact answered_atomicPerform
  | walkComplete => exact answered_walkComplete
  | accessComplete => exact answered_accessComplete
  | fqretryWrite => exact answered_fqretryWrite
  | fqdeliverWrite => exact answered_fqdeliverWrite
  | fqheadWrite => exact answered_fqheadWrite
  | fabricRequestArrival => exact answered_fabricRequestArrival
  | fabricResponseArrival => exact answered_fabricResponseArrival
  | fabricAckArrival => exact answered_fabricAckArrival
  | retransmitTimerExpiry => exact answered_retransmitTimerExpiry
  | messageArrival => exact answered_messageArrival
  | spawnPlacement => exact answered_spawnPlacement
  | quarterEvent => exact answered_quarterEvent
  | handoffGroupPlace => exact answered_handoffGroupPlace
  | taskStart => exact answered_taskStart
  | copySectorLand => exact answered_copySectorLand
  | taskComplete => exact answered_taskComplete
  | refreshSlotEnd => exact answered_refreshSlotEnd
  | weightWriteWindowOpen => exact answered_weightWriteWindowOpen
  | weightStoreDigestCheck => exact answered_weightStoreDigestCheck
  | sleepExpiry => exact answered_sleepExpiry
  | bowaitSatisfied => exact answered_bowaitSatisfied
  | regangMerge => exact answered_regangMerge
  | regroupFusion => exact answered_regroupFusion
  | teamSave => exact answered_teamSave
  | teamRestore => exact answered_teamRestore
  | preemptSave => exact answered_preemptSave
  | preemptDrain => exact answered_preemptDrain
  | preemptDiscard => exact answered_preemptDiscard
  | sevWrite => exact answered_sevWrite
  | stagingPoolConfigWrite => exact answered_stagingPoolConfigWrite
  | savePoolConfigWrite => exact answered_savePoolConfigWrite
  | peerWindowConfigWrite => exact answered_peerWindowConfigWrite
  | fwmodeWrite => exact answered_fwmodeWrite
  | lclaimWrite => exact answered_lclaimWrite
  | lrenewWrite => exact answered_lrenewWrite
  | plimWrite => exact answered_plimWrite
  | thotWrite => exact answered_thotWrite
  | scancfgWrite => exact answered_scancfgWrite
  | frappWrite => exact answered_frappWrite
  | finjWrite => exact answered_finjWrite
  | temperatureSample => exact answered_temperatureSample
  | doldrumsScanStart => exact answered_doldrumsScanStart
  | scanComplete => exact answered_scanComplete
  | scanAbort => exact answered_scanAbort
  | clusterMapUpdate => exact answered_clusterMapUpdate
  | attestationReportWrite => exact answered_attestationReportWrite
  | temps => exact answered_temps
  | fread => exact answered_fread
  | fack => exact answered_fack
  | waitiWake => exact answered_waitiWake
  | solverRunStart => exact answered_solverRunStart
  | solverStageLaunch => exact answered_solverStageLaunch
  | solverStageEnd => exact answered_solverStageEnd
  | combineWitnessCheck => exact answered_combineWitnessCheck

/-! ## What a step has come to -/

/-- A plan of a step from `s`: its state is canonical where `s` was, and an instruction of it has its gang. -/
def Planned (s : State) : Plan → Prop
  | .run i t => (MemoryCanonical s → MemoryCanonical t) ∧ (isEventRow i = false → ∃ e, t.env? = some e)
  | .reached t => MemoryCanonical s → MemoryCanonical t

theorem Planned.run {i : Instr} {e : Env} (h : MemoryCanonical s → MemoryCanonical t) (he : t.env? = some e) : Planned s (.run i t) :=
  ⟨h, fun _ => ⟨e, he⟩⟩

theorem Planned.reached (h : MemoryCanonical s → MemoryCanonical t) : Planned s (.reached t) := h

theorem Planned.of {p : Plan} (h : MemoryCanonical s → MemoryCanonical t) (hp : Planned t p) : Planned s p := by
  cases p with
  | run i u => exact ⟨fun hs => hp.1 (h hs), hp.2⟩
  | reached u => exact fun hs => hp (h hs)

theorem planned_fetchFocus {pace : Option Nat} : Planned s (fetchFocus pace s) := by
  unfold fetchFocus
  extract_lets k slot g s1
  have h1 (h : MemoryCanonical s) : MemoryCanonical s1 := h.starting.startWarp
  split
  · exact .reached h1
  next e he =>
    dsimp only
    split
    · split
      · exact .run h1 he
      · exact .run h1 he
    · exact .run h1 he
    · exact .reached fun h => (h1 h).addWalk.modGang

theorem planned_issue {pace : Option Nat} {k slot g : Nat} : Planned s (s.issue pace k slot g) := by
  unfold State.issue
  split
  · exact Planned.of (fun h => h.same rfl) planned_fetchFocus
  split
  · exact Planned.of (fun h => h.same rfl) planned_fetchFocus
  · exact .reached fun h => h.wakeCore.tick

theorem planned_plan : Planned s s.plan := by
  unfold State.plan
  split
  · exact planned_issue
  · dsimp only
    split
    next i a rest _ hi =>
      refine ⟨fun h => h.same rfl, fun hn => ?_⟩
      rw [hi] at hn
      cases hn
    · exact .reached fun h => h.same rfl
  · exact Planned.of (fun h => h.same rfl) planned_issue
  · exact Planned.of (fun h => h.same rfl) planned_issue
  · dsimp only
    split
    · exact .reached fun h => h.scheduled.wakeCore.tick
    · exact Planned.of (fun h => h.same rfl) planned_issue
  · exact .reached fun h => h.scheduled.tick
  · exact .reached fun h => h.scheduled.tlbFill
  · exact .reached fun h => h.scheduled.modDie
  · exact .reached fun h => h.scheduled.modDie
  · exact .reached fun h => h.scheduled.fetchAhead
  · exact .reached fun h => h.scheduled.fetchDrop
  · exact .reached fun h => h.scheduled.bindEarly

theorem answered_step : Answered s (step s) := by
  unfold step
  have hp := planned_plan (s := s)
  generalize s.plan = p at hp
  cases p with
  | run i t =>
    obtain ⟨h, he⟩ := hp
    obtain ⟨u, hu, hc⟩ := answered_exec he
    exact ⟨u, hu, fun hs => hc (h hs)⟩
  | reached t => exact .next hp

/-- Settles O8: an item of the agenda reaches a state, an event answers in any state, and an instruction runs only with its gang. -/
theorem stepAlwaysAnswers : Obligations.StepAlwaysAnswers := by
  unfold Obligations.StepAlwaysAnswers
  intro s
  obtain ⟨t, ht, -⟩ := answered_step (s := s)
  exact ⟨t, ht⟩

/-- Settles O9: every write of the machine to a memory is a `memWrite` or drops cells, and each operation keeps the form. -/
theorem stepKeepsMemoryCanonical : Obligations.StepKeepsMemoryCanonical := by
  unfold Obligations.StepKeepsMemoryCanonical
  intro s t hs ht
  obtain ⟨u, hu, hc⟩ := answered_step (s := s)
  rw [ht] at hu
  cases hu
  exact hc hs

end Sys2Proof.Proofs.Totality
end
